-- ==== Sys2Proof/Word.lean ====
section
/-!
DEFINITION. The plain words of the Wiphor W2 model: bytes, limbs, 64-bit operands, and the sparse store
that every memory and register array of the model is held in.
-/

namespace Sys2Proof

/-- A byte of any memory space. -/
abbrev Byte := BitVec 8

/-- A 32-bit word: a window word, a mask, a limb. -/
abbrev W32 := BitVec 32

/-- A 64-bit word: a scalar, a queue entry, an instruction word. -/
abbrev W64 := BitVec 64

/-- A sparse array of `w`-bit cells: keys strictly rising, no cell equal to zero, which is what a key
that is not listed reads as.  Memory is one of these with bytes as cells (`Host.Cell`). -/
abbrev Store (w : Nat) := List (Nat × BitVec w)

/-- Byte memory. -/
abbrev Mem := Store 8

end Sys2Proof
end

