-- ==== Sys2Proof/Syntax.lean ====
section
/-!
DEFINITION. The instruction set: operand fields (02 R36), class-extension fields (02 R44), and `Instr`,
with one constructor for each row of spec/opcode_table.json.  A row with an opcode is a word of a clause;
the other rows are steps of the part's agents or of the outside world, and carry what that step is about.
-/

namespace Sys2Proof

/-! ## Operand fields -/

/-- The constants and specials of 02 Table 2.4, codes 0x30 to 0x3F in order. -/
inductive Special where
  | zero | ones | laneid | grpid | teamx | teamy | teamz | gridid
  | coreid | dieid | quadid | clusterid | depth | clustrank | livemask | kobase
  deriving DecidableEq, Repr

/-- A source operand field (02 Table 2.3): a queue age, a window, a constant or special, a scalar. -/
inductive Src where
  | q (age : BitVec 4)
  | w (n : BitVec 5)
  | sp (n : Special)
  | s (n : BitVec 6)
  deriving DecidableEq, Repr

/-- A destination operand field (02 Table 2.3). -/
inductive Dst where
  | queue
  | w (n : BitVec 5)
  | s (n : BitVec 6)
  deriving DecidableEq, Repr

/-- Source B: an operand field, or the 32-bit literal of the literal form (02 R43). -/
inductive Opd where
  | src (s : Src)
  | lit (v : BitVec 32)
  deriving DecidableEq, Repr

/-! ## Types and class-extension codes -/

/-- Integer types (02 Table 2.5, 0x00-0x3F). -/
inductive IntTy where
  | i32 | n32 | i64 | n64 | i16 | n16 | i8 | n8
  deriving DecidableEq, Repr

/-- Lane floating-point types (04 Table 4.1). -/
inductive FpTy where
  | f32 | f64 | f16 | bf16 | f16x2 | bf16x2
  deriving DecidableEq, Repr

/-- A type that CVT and VCVT name: floating or integer (04 R126, 05 R150). -/
inductive NumTy where
  | fp (t : FpTy)
  | int (t : IntTy)
  deriving DecidableEq, Repr

/-- IEEE rounding modes (02 Table 2.5). -/
inductive Rnd where
  | rne | rtz | rup | rdn
  deriving DecidableEq, Repr

/-- Integer compare predicates (03 Table 3.2, ICMP). -/
inductive IPred where
  | eq | ne | lt | le | gt | ge
  deriving DecidableEq, Repr

/-- Floating compare predicates (04 Table 4.3, FCMP). -/
inductive FPred where
  | eq | ne | lt | le | gt | ge | uo | or
  deriving DecidableEq, Repr

/-- Memory spaces (06 Table 6.1). -/
inductive Space where
  | l | s | c | p | g
  deriving DecidableEq, Repr

/-- Request types of a .g access (02 Table 2.5). -/
inductive Req where
  | own | wt | si | nc | add
  deriving DecidableEq, Repr

/-- Scopes (07 Table 7.2). -/
inductive Scope where
  | grp | team | core | clu | die | pkg | dom | sys
  deriving DecidableEq, Repr

/-- Order of a memory access (02 Table 2.5); `ar` exists for atomics only (13 R361). -/
inductive Order where
  | relaxed | acq | rel | ar
  deriving DecidableEq, Repr

/-- Access sizes (02 Table 2.5). -/
inductive Size where
  | b8 | b16 | b32 | b64 | b128 | b256 | b512
  deriving DecidableEq, Repr

/-- KOP operations (03 Table 3.5). -/
inductive KOp where
  | kand | kor | kxor | kandn | knot | kmov | fromv | tov | froms
  deriving DecidableEq, Repr

/-- LSHF directions (03 Table 3.2). -/
inductive LMode where
  | up | down | rot | xor
  deriving DecidableEq, Repr

/-- Scan and reduction operations (03 R104). -/
inductive ScanOp where
  | add | min | max | and | or | xor
  deriving DecidableEq, Repr

/-- VOTE modes (03 R105). -/
inductive VoteOp where
  | any | all | ballot | uni
  deriving DecidableEq, Repr

/-- FSTW modes (04 R131). -/
inductive FstwOp where
  | w | or | clr
  deriving DecidableEq, Repr

/-- FENCE kinds (06 R192, 07 R201). -/
inductive FenceOp where
  | acq | rel | ar | sc
  deriving DecidableEq, Repr

/-- ATOM operations (13 Table 13.2). -/
inductive AtomOp where
  | add | min | max | umin | umax | and | or | xor | xchg | incw | decw
  deriving DecidableEq, Repr

/-- ATOMW operations (13 R363). -/
inductive AtomwOp where
  | min | max | xchg
  deriving DecidableEq, Repr

/-- FATOM operations (13 R365). -/
inductive FatomOp where
  | add | min | max
  deriving DecidableEq, Repr

/-- Where SMPLG takes its level of detail from (12 Table 12.5). -/
inductive LodSrc where
  | quad | lod | grad
  deriving DecidableEq, Repr

/-! ## Operand records of the lane engine -/

/-- Integer instruction with source A (03 Table 3.2). -/
structure IUn where
  k : BitVec 3
  d : Dst
  a : Src
  t : IntTy
  sat : Bool
  deriving DecidableEq, Repr

/-- Integer instruction with sources A and B. -/
structure IBin where
  k : BitVec 3
  d : Dst
  a : Src
  b : Opd
  t : IntTy
  sat : Bool
  deriving DecidableEq, Repr

/-- Integer instruction with sources A, B and C. -/
structure ITer where
  k : BitVec 3
  d : Dst
  a : Src
  b : Src
  c : Src
  t : IntTy
  sat : Bool
  deriving DecidableEq, Repr

/-- Floating instruction with source A (04 Table 4.3). -/
structure FUn where
  k : BitVec 3
  d : Dst
  a : Src
  t : FpTy
  r : Rnd
  ftz : Bool
  deriving DecidableEq, Repr

/-- Floating instruction with sources A and B. -/
structure FBin where
  k : BitVec 3
  d : Dst
  a : Src
  b : Opd
  t : FpTy
  r : Rnd
  ftz : Bool
  deriving DecidableEq, Repr

/-- Floating instruction with sources A, B and C. -/
structure FTer where
  k : BitVec 3
  d : Dst
  a : Src
  b : Src
  c : Src
  t : FpTy
  r : Rnd
  ftz : Bool
  deriving DecidableEq, Repr

/-- VLF instruction with one window source (05 Table 5.9); windows are given by number. -/
structure VUn where
  k : BitVec 3
  d : BitVec 5
  a : BitVec 5
  deriving DecidableEq, Repr

/-- VLF instruction with two window sources. -/
structure VBin where
  k : BitVec 3
  d : BitVec 5
  a : BitVec 5
  b : BitVec 5
  deriving DecidableEq, Repr

/-! ## Operand records of the engines -/

/-- The memory class extension (02 Table 2.5). -/
structure MemX where
  space : Space
  req : Req
  scope : Scope
  order : Order
  size : Size
  deriving DecidableEq, Repr

/-- A copy instruction (09 Table 9.5): C names scalar `n`; `cls` is the clasp's space, if any. -/
structure CopyX where
  k : BitVec 3
  a : Src
  b : Src
  n : BitVec 6
  src : Space
  dst : Space
  scope : Scope
  cls : Option Space
  tags : Bool
  deriving DecidableEq, Repr

/-- A tile field: a number, and the loop counter it is taken from, if any (11 R310). -/
structure TileF where
  n : BitVec 5
  lc : Option (BitVec 2)
  deriving DecidableEq, Repr

/-- An accumulator field (11 R310). -/
structure AccF where
  n : BitVec 9
  lc : Option (BitVec 2)
  deriving DecidableEq, Repr

/-- MMA, MMAT, MMAFX (11 Table 11.1). -/
structure MmaX where
  k : BitVec 3
  acc : AccF
  ta : TileF
  tb : TileF
  c : Src
  deriving DecidableEq, Repr

/-- TLD and TST (11 Table 11.1). -/
structure TileMemX where
  k : BitVec 3
  t : TileF
  addr : Src
  geom : Src
  space : Space
  nc : Bool
  tags : Bool
  qm : BitVec 4
  half : Bool
  deriving DecidableEq, Repr

/-- ACCLD and ACCST (11 Table 11.1). -/
structure AccMemX where
  k : BitVec 3
  acc : AccF
  addr : Src
  n : Src
  space : Space
  nc : Bool
  deriving DecidableEq, Repr

/-- POPLD and PREPLD (11 Table 11.1): `src` is none for the .clr form. -/
structure SlotX where
  k : BitVec 3
  d : Dst
  src : Option (Src × Space)
  slot : BitVec 4
  deriving DecidableEq, Repr

/-- SMPL and SMPLL (12 Table 12.5); `c` is read by SMPLL only. -/
structure SmplX where
  k : BitVec 3
  d : BitVec 5
  a : BitVec 5
  b : BitVec 6
  half : Bool
  ou : BitVec 4
  ov : BitVec 4
  deriving DecidableEq, Repr

/-- SMPLG (12 Table 12.5); `c` is none under .quad. -/
structure SmplgX where
  k : BitVec 3
  src : LodSrc
  d : Dst
  a : BitVec 5
  b : BitVec 6
  c : Option Src
  hi : Bool
  g : BitVec 5
  texel : BitVec 5
  weight : BitVec 5
  fp16 : Bool
  deriving DecidableEq, Repr

/-- SRES (12 Table 12.5); `c` is given when the level of detail comes from C. -/
structure SresX where
  k : BitVec 3
  d : Dst
  a : BitVec 5
  b : BitVec 6
  c : Option Src
  record : Bool
  ou : BitVec 4
  ov : BitVec 4
  deriving DecidableEq, Repr

/-- The class extension of the atomics (13 R361). -/
structure AtomX where
  space : Space
  scope : Scope
  order : Order
  wide : Bool
  deriving DecidableEq, Repr

/-- LAUNCH (14 Table 14.12). -/
structure LaunchX where
  k : BitVec 3
  d : Dst
  a : Src
  b : Src
  n : BitVec 6
  scope : Scope
  cls : Option Space
  deriving DecidableEq, Repr

/-- REP (03 Table 3.6): the count, the step, and which fields are stepped. -/
structure RepX where
  n : BitVec 7
  step : BitVec 3
  ec : Bool
  eb : Bool
  ea : Bool
  ed : Bool
  deriving DecidableEq, Repr

/-! ## Records of the steps that are no instruction word -/

/-- What a flit carried (15 R414): a request part of a command, the answer to one, a message, a rekey marker, the clause
fetch of a group, or a request of the control die to a home. -/
inductive FlitBody where
  | request (op part : Nat)
  | answer (op part : Nat) (epoch : Bool)
  | message (msg : Nat)
  | marker (port : Nat) (epoch : Bool)
  | fetch (gid : Nat)
  | control (home : Nat)
  deriving DecidableEq, Repr

/-- What a port's peer sends in a key exchange (15 R418, R424): its certificates, and a link key and salt encrypted under
this part's transport key. -/
structure PeerKey where
  certs : List Byte
  wrapped : List Byte
  deriving DecidableEq, Repr

/-- What a time exchange brings beside its timestamps (15 R421): whether the peer has a path to the time source, how many
other devices of the domain have TIMECTL.gm set, and the bound on the dies' agreement that then holds. -/
structure TimeNews where
  reaches : Bool
  sources : Nat
  bound : BitVec 64
  deriving DecidableEq, Repr

/-- A firmware image (15 R423): the fields of its header, whose layout the spec does not give, and its body. -/
structure FwImage where
  version : W64
  length : Nat
  hash : BitVec 256
  signature : List Byte
  body : List Byte
  deriving DecidableEq, Repr

/-- What the boot finds (15 R423, R428): the loader, the management firmware, the fixed nodes' kernels and the memory
service, and whether HBM trains and the self-test passes. -/
structure Boot where
  images : List FwImage
  hbmTrains : Bool
  selfTest : Bool
  deriving DecidableEq, Repr

/-- Where and how wide a register access is (15 R402): at an offset of the host's BAR0, or at a management core's physical
address. -/
structure RegAccess where
  mgmt : Bool
  addr : Nat
  size : Nat
  deriving DecidableEq, Repr

/-- The register block's offset that an access reaches, if it reaches one: only aligned 64-bit accesses do. -/
def RegAccess.offset (a : RegAccess) : Option Nat :=
  let base := if a.mgmt then 0x10000000 else 0
  if a.size == 8 && a.addr % 8 == 0 && base ≤ a.addr && a.addr < base + 0x1000000 then some (a.addr - base) else none

/-- A register of a group (15 Table 15.9, unit 4). -/
inductive RegSite where
  | window (n : BitVec 5) (word : BitVec 4) (lane : BitVec 5)
  | queue (age : BitVec 4) (lane : BitVec 5)
  | scalar (n : BitVec 6)
  | mask (k : BitVec 3)
  | lpc (lane : BitVec 5)
  | prec (lane : BitVec 5)
  | fpst (lane : BitVec 5)
  deriving DecidableEq, Repr

/-- Where an uncorrectable or corrected error was found (15 Table 15.9).  A block in HBM has code 1, in the L2 or LLC 2,
in another memory 0, as its service-log entry gives it. -/
inductive ErrSite where
  | memBlock (key : Nat) (store : BitVec 2)
  | hamper (core blk : Nat)
  | tile (team quad t : Nat)
  | accUnit (team u : Nat)
  | param (team : Nat)
  | groupReg (gid : Nat) (site : RegSite)
  | dieState (die : Nat) (cause : BitVec 8)
  | controlSram
  deriving DecidableEq, Repr

/-- The instruction set: one constructor for each row of spec/opcode_table.json. -/
inductive Instr where
  -- issue
  | clauseIssue (core quad : Nat) (honourYield : Bool)
  -- lane engine: integer (03)
  | iadd (x : IBin) | isub (x : IBin) | iadc (x : ITer) | isbc (x : ITer)
  | imul (x : IBin) | imulh (x : IBin) | imad (x : ITer)
  | idiv (x : IBin) | irem (x : IBin) | iabs (x : IUn) | ineg (x : IUn)
  | imin (x : IBin) | imax (x : IBin) | icmp (p : IPred) (x : IBin) | isel (x : ITer)
  | and (x : IBin) | or (x : IBin) | xor (x : IBin) | andn (x : IBin) | not (x : IUn)
  | shl (x : IBin) | shrl (x : IBin) | shra (x : IBin) | rotl (x : IBin) | fshl (x : ITer)
  | clz (x : IUn) | ctz (x : IUn) | popc (x : IUn) | brev (x : IUn)
  | bext (x : IUn) (pos : BitVec 7) (width : BitVec 8) | bextR (x : IBin)
  | bins (k : BitVec 3) (d : Dst) (a b : Src) (t : IntTy) (pos : BitVec 7) (width : BitVec 8)
  | binsR (x : ITer)
  | bint (k : BitVec 3) (d : Dst) (a b : Src) (c : Option Src) (t : IntTy)
  | bdin (three : Bool) (x : IUn) (j : BitVec 2)
  | bperm (x : ITer) | blut (hi : Bool) (x : ITer)
  | mov (x : IUn) | movl (k : BitVec 3) (d : Dst) (wide : Bool) (v : BitVec 32)
  | movlHi (k : BitVec 3) (d : Dst) (v : BitVec 32) | movs (x : IBin)
  | kop (op : KOp) (k : BitVec 3) (d : Dst) (a : Src) (kd kx ky : BitVec 3)
  | lcset (k : BitVec 3) (d : Dst) (lc : BitVec 2) (b : Opd)
  | lcadv (k : BitVec 3) (d : Dst) (lc : BitVec 2) (b : Opd)
  -- control transfers and cross-lane
  | bra (k : BitVec 3) (disp : BitVec 32) | brx (k : BitVec 3) (a : Src)
  | call (k : BitVec 3) (d : Dst) (disp : BitVec 32) | callX (k : BitVec 3) (d : Dst) (a : Src)
  | ret (k : BitVec 3) (a : Src) | exit (k : BitVec 3)
  | lshf (m : LMode) (x : IBin) | lbfl (x : IBin)
  | lprev (k : BitVec 3) (d : Dst) (a : Src) (b : Option Opd) (t : IntTy)
  | lscan (op : ScanOp) (excl : Bool) (x : IUn) | lred (op : ScanOp) (x : IUn)
  | vote (m : VoteOp) (x : IUn) | elect (k : BitVec 3) (d : Dst) | rep (x : RepX)
  -- lane engine: floating point (04)
  | fadd (x : FBin) | fsub (x : FBin) | fmul (x : FBin) | ffma (x : FTer)
  | fmin (x : FBin) | fmax (x : FBin) | fminn (x : FBin) | fmaxn (x : FBin)
  | fcmp (p : FPred) (x : FBin) | fcls (x : FUn) | frnd (exact : Bool) (x : FUn)
  | fdiv (x : FBin) | fsqrt (x : FUn)
  | cvt (k : BitVec 3) (d : Dst) (a : Src) (dt st : NumTy) (r : Rnd) (ftz : Bool)
  | fpackPack (k : BitVec 3) (d : Dst) (a b : Src) (bf : Bool) (from64 : Bool) (r : Rnd) (ftz : Bool)
  | fpackUnpack (hi : Bool) (k : BitVec 3) (d : Dst) (a : Src) (to64 : Bool) (bf : Bool) (ftz : Bool)
  | fdot2 (x : FTer)
  | frcp (x : FUn) | frsq (x : FUn) | fexp2 (x : FUn) | flog2 (x : FUn)
  | fsinp (x : FUn) | fcosp (x : FUn) | ftanh (x : FUn)
  | fstr (k : BitVec 3) (d : Dst) | fstw (m : FstwOp) (k : BitVec 3) (d : Dst) (a : Opd)
  -- lane engine: VLF (05)
  | vld (k : BitVec 3) (d : BitVec 5) (a : Src) (x : MemX)
  | vst (k : BitVec 3) (a : Src) (b : BitVec 5) (x : MemX)
  | vadd (x : VBin) | vsub (x : VBin) | vmul (x : VBin)
  | vfma (k : BitVec 3) (d a b c : BitVec 5)
  | vdiv (x : VBin) | vsqrt (x : VUn)
  | vcmp (p : FPred) (k : BitVec 3) (d : Dst) (a b : BitVec 5)
  | vcvtTov (k : BitVec 3) (d : BitVec 5) (a : Src) (t : NumTy)
  | vcvtFromv (k : BitVec 3) (d : Dst) (a : BitVec 5) (t : NumTy) (r : Rnd)
  | vrndInt (x : VUn) | vrndFit (x : VUn)
  | vexpo (k : BitVec 3) (d : Dst) (a : BitVec 5)
  | vlen (k : BitVec 3) (d : Dst) (a : BitVec 5) | vlenBytes (k : BitVec 3) (d : Dst) (a : BitVec 5)
  | vscale (k : BitVec 3) (d a : BitVec 5) (b : Src)
  | precr (k : BitVec 3) (d : Dst)
  | precw (k : BitVec 3) (d : Dst) (a : Src) | precwLen (k : BitVec 3) (d : Dst) (a : Src)
  -- memory engine (06)
  | ld (k : BitVec 3) (d : Dst) (a : Src) (x : MemX) (sx : Bool)
  | st (k : BitVec 3) (a b : Src) (x : MemX)
  | ldv (k : BitVec 3) (d : Dst) (a : Src) (x : MemX)
  | stv (k : BitVec 3) (a b : Src) (x : MemX)
  | ldtol (k : BitVec 3) (d : Dst) (a b : Src) (x : MemX)
  | ldtolDet (k : BitVec 3) (d : Dst) (a : Src) (x : MemX)
  | ldtolV (k : BitVec 3) (d : BitVec 5) (a b : Src) (x : MemX)
  | ldtolDetV (k : BitVec 3) (d : BitVec 5) (a : Src) (x : MemX)
  | stadd (k : BitVec 3) (a b : Src) (x : MemX)
  | staddV (k : BitVec 3) (a : Src) (b : BitVec 5) (x : MemX)
  | drain (k : BitVec 3) (d : Dst) | drainR (k : BitVec 3) (d : Dst) (a : Src)
  | pfx (k : BitVec 3) (a : Src) (r : Req)
  | invlLine (k : BitVec 3) (a : Src) | invlSi (k : BitVec 3)
  | fence (m : FenceOp) (k : BitVec 3) (scope : Scope)
  | ldbt (k : BitVec 3) (d : Dst) (a : Src) (x : MemX)
  | stbt (k : BitVec 3) (a b : Src) (x : MemX)
  | mapq (k : BitVec 3) (d : Dst) (a : Src)
  -- steps of the memory engine (06, 07, 08)
  | storeQueueDeparture (gid : Nat)
  | homeRequest (op part : Nat)
  | recall (msg : Nat)
  | l1Eviction (core blk : Nat)
  | shareRequest (msg : Nat) | splitRequest (msg : Nat) | shareGrant (msg : Nat)
  | drainCombine (msg : Nat) | drainAck (msg : Nat)
  | toleranceRead (op part : Nat)
  | flushMarkerGather (msg : Nat)
  | operationComplete (op : Nat)
  | faultDelivery (gid : Nat)
  | pageWalk (core : Nat) (va : BitVec 48)
  -- block-transfer engine (09)
  | copy (x : CopyX) | copy2d (x : CopyX) | copy3d (x : CopyX) | copym (x : CopyX)
  | bseal (k : BitVec 3) (d : Dst) | bwait (k : BitVec 3) (n : BitVec 5)
  | clinit (k : BitVec 3) (a b c : Src) (sp : Space)
  | clexp (k : BitVec 3) (a b : Src) (sp : Space)
  | clarr (k : BitVec 3) (a b : Src) (sp : Space) (scope : Scope)
  | clwait (k : BitVec 3) (d : Dst) (a b : Src) (sp : Space) (scope : Scope)
  | cltest (k : BitVec 3) (d : Dst) (a : Src) (sp : Space) (acq : Option Scope)
  | clinv (k : BitVec 3) (a : Src) (sp : Space)
  | copyComplete (op : Nat)
  -- matrix engine (10, 11)
  | mma (x : MmaX) | mmat (x : MmaX) | mmafx (x : MmaX)
  | tld (x : TileMemX) | tst (x : TileMemX)
  | tzero (k : BitVec 3) (t : TileF) (qm : BitVec 4)
  | accld (x : AccMemX) | accst (x : AccMemX)
  | accz (k : BitVec 3) (acc : AccF) (n : Src)
  | sclw (k : BitVec 3) (a : Src) (r : BitVec 5) | sclr (k : BitVec 3) (d : Dst) (r : BitVec 5)
  | popld (x : SlotX) | prepld (x : SlotX)
  | matrixAccept (op : Nat)
  | postStageRun (op : Nat)
  -- sampler (12)
  | smpl (x : SmplX) | smplg (x : SmplgX)
  | smpllLod (x : SmplX) (c : Src) | smpllGrad (x : SmplX) (c : BitVec 5)
  | sres (x : SresX)
  -- synchronisation engine (13)
  | atom (op : AtomOp) (k : BitVec 3) (d : Dst) (a b : Src) (x : AtomX)
  | atomw (op : AtomwOp) (k : BitVec 3) (d : Dst) (a b c : Src) (x : AtomX)
  | fatom (op : FatomOp) (k : BitVec 3) (d : Dst) (a b : Src) (x : AtomX)
  | acas (k : BitVec 3) (d : Dst) (a b c : Src) (x : AtomX)
  | enq (k : BitVec 3) (d : Dst) (a b : Src) (x : AtomX)
  | deq (k : BitVec 3) (d : Dst) (a : Src) (x : AtomX)
  | bnginit (k : BitVec 3) (a b c : Src) (x : AtomX)
  | atomicPerform (op part : Nat)
  -- scheduler and system instructions (14)
  | launch (x : LaunchX)
  | emit (k : BitVec 3) (a : BitVec 5) (n : BitVec 3)
  | emitn (k : BitVec 3) (d : Dst) (a b : Src) (sp : Space) (n : BitVec 3)
  | accgrow (k : BitVec 3) (d : Dst) (a : Src)
  | relat (k : BitVec 3) (a : BitVec 5) (b : Src) (n : BitVec 3)
  | nop (k : BitVec 3) | trap (k : BitVec 3) (code : BitVec 16)
  | eret (k : BitVec 3) (a b : Src)
  | csrr (k : BitVec 3) (d : Dst) (csr : BitVec 12) | csrw (k : BitVec 3) (a : Src) (csr : BitVec 12)
  | ptime (k : BitVec 3) (d : Dst) | ptimeSkew (k : BitVec 3) (d : Dst)
  | bkpt (k : BitVec 3) (code : BitVec 16)
  -- steps of the scheduler (14)
  | queueDoorbell (q : Nat) (tail : BitVec 32)
  | queueNop (q : Nat) | queueGridLaunch (q : Nat) | queueGraphLaunch (q : Nat)
  | queueWaitWord (q : Nat) | queueWritePtc (q : Nat) | queueQuiescePoint (q : Nat)
  | qstatHaltClear (q : Nat)
  | quiescePoint (job : Nat)
  | teamLaunch (grid : Nat) (cores : List Nat)
  | nodeTeamLaunch (graph node core : Nat)
  | nodeCoalesceExpiry (graph node core : Nat)
  | recordDelivery (rec : Nat) | recordReleaseAtTime (rec : Nat) | present (rec : Nat)
  | teamRetire (team : Nat) | gridRetire (grid : Nat)
  | hangLimitExpiry (gid : Nat)
  | dbgactResume (q : Nat) (image : BitVec 45) | dbgactSkip (q : Nat) (image : BitVec 45)
  | dbgactKillGroup (q : Nat) (image : BitVec 45) | dbgactKillGrid (q : Nat) (image : BitVec 45)
  | preempt (team : Nat) | restore (team core : Nat)
  | budgetPeriod | clsbudWrite (c : Nat) (v : BitVec 64)
  -- steps of the translation block (08)
  | invalidateOnePage (size : BitVec 2) | invalidateRange (size : BitVec 2) (count : BitVec 20)
  | invalidateAll | invalidateComplete
  | regionInstall (n : BitVec 12) | regionRemove (n : BitVec 12)
  | xlpoolWrite (v : BitVec 64)
  | memoryServiceCollapse (gid : Nat)
  -- links (07 R207, 15)
  | requestTimeout (op part : Nat)
  | flitReceive (port : Nat) (ok : Bool) (body : FlitBody)
  | portEnable (p : Nat) | portDisable (p : Nat) | peerDetect (p : Nat) (peer : BitVec 6)
  | trainingComplete (p : Nat) | trainingFail (p : Nat) (badKey : Bool) | lossOfLock (p : Nat)
  | keyExchange (p : Nat) (sending : Bool) (peer : PeerKey)
  | rekey (p : Nat) | rekeyIntervalExpiry (p : Nat) | rekeyMarkerResend (p : Nat)
  | rekeyComplete (p : Nat)
  -- reset, host, security, time, errors, monitors, power (15)
  | orderlyReset (die : Nat) | resetComplete (die : Nat)
  | lostmapClear (n : Nat) (v : BitVec 64)
  | hostDataRead (addr n : Nat) | hostDataWrite (addr : Nat) (bytes : List (Option Byte))
  | hostTagRead (addr : Nat) | hostTagWrite (addr : Nat) (v : BitVec 16)
  | attestReport | attestCertChain
  | ptcCorrection (die slew : Nat)
  | timeExchange (p : Nat) (t1 t2 t3 t4 : BitVec 64) (news : TimeNews)
  | timeSyncLost (badSource : Bool)
  | ptcsetWrite (v : BitVec 64)
  | uncorrectableError (site : ErrSite) | correctableError (unit : BitVec 8) (dpa : Nat)
  | patrolRead
  | powerThrottle (slots : Nat) (watts : BitVec 16)
  | monitorClear (m : Nat) | monitorTick
  | powerOn (boot : Boot)
  | registerWrite (off : RegAccess) (v : BitVec 64)
  deriving DecidableEq, Repr

end Sys2Proof
end

