-- ==== Sys2Proof/WellFormed.lean ====
section
/-!
DEFINITION. Which terms of `Instr` the encodings admit: the checks that the operand types do not make by
themselves.  They restate, for the syntax, the per-entry columns of 03 Table 3.2, 04 Table 4.3, 05 Table 5.9,
06 Table 6.4, 09 Table 9.5, 11 Table 11.1, 12 Table 12.5, 13 Table 13.1 and 14 Table 14.12.
-/

namespace Sys2Proof

/-- Width in bits of an integer type (03 R79). -/
def IntTy.width : IntTy → Nat
  | .i32 | .n32 => 32
  | .i64 | .n64 => 64
  | .i16 | .n16 => 16
  | .i8 | .n8 => 8

/-- The I types (03 R79). -/
def IntTy.signed : IntTy → Bool
  | .i32 | .i64 | .i16 | .i8 => true
  | _ => false

def Opd.isLit : Opd → Bool
  | .lit _ => true
  | .src _ => false

def Src.isWin : Src → Bool
  | .w _ => true
  | _ => false

def Dst.isWin : Dst → Bool
  | .w _ => true
  | _ => false

/-- A literal fixes the type to I32 or I64 and leaves no sat bit (02 Table 2.6). -/
def IBin.litOk (x : IBin) : Bool :=
  match x.b with
  | .lit _ => (x.t == .i32 || x.t == .i64) && !x.sat
  | .src _ => true

/-- An integer entry with source B and no sat (03 Table 3.2). -/
def IBin.plain (x : IBin) : Bool := x.litOk && !x.sat

/-- A literal fixes FP32 or FP64, RNE and no flush (02 Table 2.6). -/
def FBin.litOk (x : FBin) : Bool :=
  match x.b with
  | .lit _ => (x.t == .f32 || x.t == .f64) && x.r == .rne && !x.ftz
  | .src _ => true

def FpTy.scalar : FpTy → Bool
  | .f16x2 | .bf16x2 => false
  | _ => true

/-- Scopes other than group stand only with an order (06 R177, 13 R361). -/
def scopeOk (o : Order) (s : Scope) : Bool := o != .relaxed || s == .grp

/-- A request is named only in .g (06 R173). -/
def reqOk (sp : Space) (r : Req) (allowed : List Req) : Bool :=
  if sp == .g then allowed.contains r else r == .own

def MemX.loadOk (x : MemX) : Bool :=
  reqOk x.space x.req [.own, .si, .nc] && (x.order == .relaxed || x.order == .acq) && scopeOk x.order x.scope

def MemX.storeOk (x : MemX) : Bool :=
  reqOk x.space x.req [.own, .wt, .nc] && (x.order == .relaxed || x.order == .rel) && scopeOk x.order x.scope

def MemX.addOk (x : MemX) (o : Order) (sizes : List Size) : Bool :=
  x.space == .g && x.req == .add && (x.order == .relaxed || x.order == o) && scopeOk x.order x.scope
    && sizes.contains x.size

def MemX.tagOk (x : MemX) (o : Order) : Bool :=
  x.space == .g && x.req == .nc && (x.order == .relaxed || x.order == o) && scopeOk x.order x.scope
    && x.size == .b16

def Size.bytes : Size → Nat
  | .b8 => 1 | .b16 => 2 | .b32 => 4 | .b64 => 8 | .b128 => 16 | .b256 => 32 | .b512 => 64

def NumTy.lane : NumTy → Bool
  | .fp t => t.scalar
  | .int _ => true

def CopyX.wf (x : CopyX) (block : Nat) : Bool :=
  x.n.toNat + block ≤ 64 && x.cls != some .l

def AtomX.ok (x : AtomX) : Bool :=
  (x.space == .p || x.space == .g) && scopeOk x.order x.scope

/-- A masked KOP form names only the masks and operands it uses (03 R96). -/
def kopOk (op : KOp) (k : BitVec 3) (d : Dst) (a : Src) (kd kx ky : BitVec 3) : Bool :=
  let aZero := a == .q 0
  match op with
  | .kand | .kor | .kxor | .kandn => k == 0 && d == .queue && aZero && kd != 0
  | .knot | .kmov => k == 0 && d == .queue && aZero && kd != 0 && ky == 0
  | .fromv => d == .queue && kd != 0 && kx == 0 && ky == 0
  | .tov => aZero && kd == 0 && ky == 0
  | .froms => k == 0 && d == .queue && kd != 0 && kx == 0 && ky == 0

/-- Well-formed terms: exactly the ones that have an encoding, and, for a step that is no instruction word,
the ones whose numbers the part has. -/
def Instr.wf : Instr → Bool
  | .clauseIssue core quad _ => core < 576 && quad < 4
  | .iadd x | .isub x | .imul x | .idiv x | .shl x => x.litOk
  | .iadc x | .isbc x => (x.t == .i32 || x.t == .n32) && !x.sat
  | .imulh x => x.plain && (x.t.width == 32 || x.t.width == 64)
  | .imad _ => true
  | .irem x | .imin x | .imax x | .icmp _ x => x.plain
  | .iabs x | .ineg x => x.t.signed
  | .isel x | .fshl x => !x.sat
  | .and x | .or x | .xor x | .andn x | .shrl x | .shra x | .rotl x => x.plain
  | .not x | .clz x | .ctz x | .popc x | .brev x | .mov x => !x.sat
  | .bext x p n => !x.sat && p.toNat < x.t.width && n.toNat ≤ x.t.width
  | .bextR x => x.plain
  | .bins _ _ _ _ t p n => p.toNat < t.width && n.toNat ≤ t.width
  | .binsR x => !x.sat
  | .bint _ _ _ _ _ t => t == .n32 || t == .n64
  | .bdin three x j => !x.sat && (x.t == .n32 || x.t == .n64) && j.toNat < (if three then 3 else 2)
  | .bperm x => !x.sat && x.t == .n32
  | .blut _ x => !x.sat && (x.t == .n32 || x.t == .n64)
  | .movl .. | .movlHi .. => true
  | .movs x | .lshf _ x | .lbfl x => x.plain
  | .kop op k d a kd kx ky => kopOk op k d a kd kx ky
  | .lcset .. | .lcadv .. => true
  | .bra .. | .brx .. | .call .. | .callX .. | .ret .. | .exit .. => true
  | .lprev _ _ _ b t => (match b with | some (.lit _) => t == .i32 || t == .i64 | _ => true)
  | .lscan op _ x | .lred op x => !x.sat || op == .add
  | .vote _ x => !x.sat
  | .elect .. => true
  | .rep x => 1 ≤ x.n.toNat && x.n.toNat ≤ 32 && ((x.ec || x.eb || x.ea || x.ed) == (x.step != 0))
  | .fadd x | .fsub x | .fmul x => x.litOk
  | .ffma _ => true
  | .fmin x | .fmax x | .fminn x | .fmaxn x | .fcmp _ x => x.litOk && x.r == .rne
  | .fcls x => x.t.scalar && x.r == .rne && !x.ftz
  | .frnd .. => true
  | .fdiv x => x.litOk && x.t.scalar
  | .fsqrt x => x.t.scalar
  | .cvt _ _ _ dty sty _ _ =>
    match dty, sty with
    | .fp a, b => a.scalar && b.lane
    | .int _, .fp b => b.scalar
    | .int _, .int _ => false
  | .fpackPack .. | .fpackUnpack .. => true
  | .fdot2 x => x.t == .f16x2 || x.t == .bf16x2
  | .frcp x | .frsq x | .fexp2 x | .flog2 x | .fsinp x | .fcosp x | .ftanh x =>
    (x.t == .f32 || x.t == .f16 || x.t == .bf16) && x.r == .rne
  | .fstr .. | .fstw .. => true
  | .vld _ _ _ x => x.loadOk && x.size == .b32
  | .vst _ _ _ x => x.storeOk && x.size == .b32
  | .vadd .. | .vsub .. | .vmul .. | .vfma .. | .vdiv .. | .vsqrt .. | .vcmp .. => true
  | .vcvtTov _ _ _ t => t.lane
  | .vcvtFromv _ _ _ t _ => t.lane
  | .vrndInt .. | .vrndFit .. | .vexpo .. | .vlen .. | .vlenBytes .. | .vscale .. => true
  | .precr .. | .precw .. | .precwLen .. => true
  | .ld _ d _ x sx =>
    x.loadOk && x.size != .b512 && (!sx || x.size == .b8 || x.size == .b16)
      && (d.isWin || !(x.size == .b128 || x.size == .b256))
  | .st _ _ b x => x.storeOk && x.size != .b512 && (b.isWin || !(x.size == .b128 || x.size == .b256))
  | .ldv _ _ _ x => x.loadOk && x.space != .l && (x.size == .b32 || x.size == .b64)
  | .stv _ _ _ x => x.storeOk && x.space != .l && (x.size == .b32 || x.size == .b64)
  | .ldtol _ _ _ _ x | .ldtolDet _ _ _ x => x.addOk .acq [.b16, .b32, .b64]
  | .ldtolV _ _ _ _ x | .ldtolDetV _ _ _ x => x.addOk .acq [.b32]
  | .stadd _ _ _ x => x.addOk .rel [.b16, .b32, .b64]
  | .staddV _ _ _ x => x.addOk .rel [.b32]
  | .drain .. | .drainR .. => true
  | .pfx _ _ r => r == .own || r == .si || r == .nc
  | .invlLine .. | .invlSi .. | .fence .. => true
  | .ldbt _ _ _ x => x.tagOk .acq
  | .stbt _ _ _ x => x.tagOk .rel
  | .mapq .. => true
  | .storeQueueDeparture .. | .homeRequest .. | .recall .. => true
  | .l1Eviction core _ => core < 576
  | .shareRequest .. | .splitRequest .. | .shareGrant .. | .drainCombine .. | .drainAck .. => true
  | .toleranceRead .. | .flushMarkerGather .. | .operationComplete .. | .faultDelivery .. => true
  | .pageWalk core _ => core < 576
  | .copy x => x.wf 2
  | .copy2d x => x.wf 3
  | .copy3d x => x.wf 4
  | .copym x => x.wf 3 && x.src != .l && x.dst == .c
  | .bseal .. => true
  | .bwait _ n => n.toNat ≤ 16
  | .clinit _ _ _ _ sp | .clexp _ _ _ sp | .clarr _ _ _ sp _ | .clwait _ _ _ _ sp _ => sp != .l
  | .cltest _ _ _ sp _ => sp != .l
  | .clinv _ _ sp => sp != .l
  | .copyComplete .. => true
  | .mma .. | .mmat .. | .mmafx .. => true
  | .tld x | .tst x => x.qm != 0 && (x.space == .g || !x.nc)
  | .tzero _ _ qm => qm != 0
  | .accld x | .accst x => x.space == .g || !x.nc
  | .accz .. => true
  | .sclw _ _ r | .sclr _ _ r => r.toNat ≤ 16
  | .popld x | .prepld x =>
    match x.src with
    | none => true
    | some (_, sp) => sp == .s || sp == .p || sp == .g
  | .matrixAccept .. | .postStageRun .. => true
  | .smpl .. | .smpllLod .. | .smpllGrad .. => true
  | .smplg x =>
    x.texel != x.weight &&
      (match x.src, x.c with
       | .quad, none => true
       | .lod, some _ => true
       | .grad, some c => c.isWin
       | _, _ => false)
  | .sres .. => true
  | .atom _ _ _ _ _ x | .fatom _ _ _ _ _ x | .acas _ _ _ _ _ x => x.ok
  | .atomw _ _ _ _ _ _ x | .enq _ _ _ _ x | .deq _ _ _ x => x.ok && x.wide
  | .bnginit _ _ _ _ x => x.ok && x.wide && (x.order == .relaxed || x.order == .rel)
  | .atomicPerform .. => true
  | .launch x => x.n.toNat ≤ 60 && (x.cls == none || x.cls == some .p || x.cls == some .g)
  | .emit .. => true
  | .emitn _ _ _ _ sp _ => sp == .s || sp == .p || sp == .g
  | .accgrow .. | .relat .. => true
  | .nop .. | .trap .. | .eret .. | .ptime .. | .ptimeSkew .. | .bkpt .. => true
  | .csrr _ _ c => 1 ≤ c.toNat && c.toNat ≤ 5
  | .csrw _ _ c => c.toNat == 4 || c.toNat == 5
  | .queueDoorbell q _ | .queueNop q | .queueGridLaunch q | .queueGraphLaunch q | .queueWaitWord q
  | .queueWritePtc q | .queueQuiescePoint q | .qstatHaltClear q => q < 64
  | .quiescePoint .. => true
  | .teamLaunch _ cores => cores.all (· < 576)
  | .nodeTeamLaunch _ _ core | .nodeCoalesceExpiry _ _ core => core < 576
  | .recordDelivery .. | .recordReleaseAtTime .. | .present .. | .teamRetire .. | .gridRetire .. => true
  | .hangLimitExpiry .. => true
  | .dbgactResume q _ | .dbgactSkip q _ | .dbgactKillGroup q _ | .dbgactKillGrid q _ => q < 64
  | .preempt .. => true
  | .restore _ core => core < 576
  | .budgetPeriod => true
  | .clsbudWrite c _ => c < 5
  | .invalidateOnePage .. | .invalidateRange .. | .invalidateAll | .invalidateComplete => true
  | .regionInstall .. | .regionRemove .. | .xlpoolWrite .. | .memoryServiceCollapse .. => true
  | .requestTimeout .. => true
  | .flitReceive p _ _ => p < 19
  | .portEnable p | .portDisable p | .peerDetect p _ | .trainingComplete p
  | .trainingFail p _ | .lossOfLock p | .keyExchange p _ _ | .rekey p | .rekeyIntervalExpiry p
  | .rekeyMarkerResend p | .rekeyComplete p => p < 16
  | .orderlyReset die | .resetComplete die => die < 2
  | .lostmapClear n _ => n < 8
  | .hostDataRead .. | .hostDataWrite .. | .hostTagRead .. | .hostTagWrite .. => true
  | .attestReport | .attestCertChain => true
  | .ptcCorrection die _ => die < 2
  | .timeExchange p _ _ _ _ _ => p < 16
  | .timeSyncLost .. | .ptcsetWrite .. | .uncorrectableError .. | .correctableError .. | .patrolRead => true
  | .powerThrottle .. => true
  | .monitorClear m => m < 16
  | .monitorTick | .powerOn .. | .registerWrite .. => true

/-- The rows that have an opcode: the ones that stand as a word of a clause (02 Table 2.7). -/
def Instr.isWord : Instr → Bool
  | .clauseIssue .. | .storeQueueDeparture .. | .homeRequest .. | .recall .. | .l1Eviction ..
  | .shareRequest .. | .splitRequest .. | .shareGrant .. | .drainCombine .. | .drainAck ..
  | .toleranceRead .. | .flushMarkerGather .. | .operationComplete .. | .faultDelivery .. | .pageWalk ..
  | .copyComplete .. | .matrixAccept .. | .postStageRun .. | .atomicPerform ..
  | .queueDoorbell .. | .queueNop .. | .queueGridLaunch .. | .queueGraphLaunch .. | .queueWaitWord ..
  | .queueWritePtc .. | .queueQuiescePoint .. | .qstatHaltClear .. | .quiescePoint .. | .teamLaunch ..
  | .nodeTeamLaunch .. | .nodeCoalesceExpiry .. | .recordDelivery .. | .recordReleaseAtTime ..
  | .present .. | .teamRetire .. | .gridRetire .. | .hangLimitExpiry .. | .dbgactResume ..
  | .dbgactSkip .. | .dbgactKillGroup .. | .dbgactKillGrid .. | .preempt .. | .restore ..
  | .budgetPeriod | .clsbudWrite .. | .invalidateOnePage .. | .invalidateRange .. | .invalidateAll
  | .invalidateComplete | .regionInstall .. | .regionRemove .. | .xlpoolWrite ..
  | .memoryServiceCollapse .. | .requestTimeout .. | .flitReceive .. | .portEnable .. | .portDisable ..
  | .peerDetect .. | .trainingComplete .. | .trainingFail .. | .lossOfLock .. | .keyExchange ..
  | .rekey .. | .rekeyIntervalExpiry .. | .rekeyMarkerResend .. | .rekeyComplete .. | .orderlyReset ..
  | .resetComplete .. | .lostmapClear .. | .hostDataRead .. | .hostDataWrite .. | .hostTagRead ..
  | .hostTagWrite .. | .attestReport | .attestCertChain | .ptcCorrection .. | .timeExchange ..
  | .timeSyncLost .. | .ptcsetWrite .. | .uncorrectableError .. | .correctableError .. | .patrolRead
  | .powerThrottle .. | .monitorClear .. | .monitorTick | .powerOn .. | .registerWrite .. => false
  | _ => true

end Sys2Proof
end

