-- ==== Sys2Proof/Machine/IntOps.lean ====
section
/-!
DEFINITION. Integer values and the integer, logic, shift and bit functions of 03 (R79-R93, R102, R104), each on the
64-bit operand values of one lane.
-/

namespace Sys2Proof

/-- The low `w(t)` bits of an operand, as the type reads them (03 R79). -/
def IntTy.toInt (t : IntTy) (v : W64) : Int :=
  let n := v.toNat % 2 ^ t.width
  if t.signed && 2 ^ (t.width - 1) ≤ n then Int.ofNat n - 2 ^ t.width else Int.ofNat n

/-- The bit pattern of an operand at the type's width. -/
def IntTy.pat (t : IntTy) (v : W64) : Nat := v.toNat % 2 ^ t.width

/-- A result: the `w(t)`-bit pattern of an integer, extended to 32 bits for a narrow type (03 R79) and, for all
types but the 64-bit ones, zero-extended from there (02 R40). -/
def IntTy.form (t : IntTy) (x : Int) : W64 :=
  match t with
  | .i64 | .n64 => BitVec.ofInt 64 x
  | .i32 | .n32 => (BitVec.ofInt 32 x).setWidth 64
  | .i16 => ((BitVec.ofInt 16 x).signExtend 32).setWidth 64
  | .n16 => (BitVec.ofInt 16 x).setWidth 64
  | .i8 => ((BitVec.ofInt 8 x).signExtend 32).setWidth 64
  | .n8 => (BitVec.ofInt 8 x).setWidth 64

def IntTy.formN (t : IntTy) (n : Nat) : W64 := t.form (Int.ofNat n)

def IntTy.min (t : IntTy) : Int := if t.signed then -(2 ^ (t.width - 1)) else 0
def IntTy.max (t : IntTy) : Int := if t.signed then 2 ^ (t.width - 1) - 1 else 2 ^ t.width - 1

/-- sat(x, t) (02 T 2.11). -/
def IntTy.clamp (t : IntTy) (x : Int) : Int := if x < t.min then t.min else if t.max < x then t.max else x

/-- fix(x, t) (03 R79). -/
def IntTy.fix (t : IntTy) (sat : Bool) (x : Int) : W64 := t.form (if sat then t.clamp x else x)

/-- The exact results of 03 Table 3.3. -/
def idivExact (t : IntTy) (a b : Int) : Int :=
  if b = 0 then (if t.signed then -1 else t.max) else Int.tdiv a b
def iremExact (a b : Int) : Int := if b = 0 then a else a - b * Int.tdiv a b
def imulhExact (t : IntTy) (a b : Int) : Int := Int.fdiv (a * b) (2 ^ t.width)

/-- IADC (03 R83): the carry out stands in bit 32. -/
def iadcVal (a b c : W64) : W64 :=
  let s := a.toNat % 2 ^ 32 + b.toNat % 2 ^ 32 + (if c.getLsbD 32 then 1 else 0)
  BitVec.ofNat 64 s

/-- ISBC (03 R83): the borrow out stands in bit 32. -/
def isbcVal (a b c : W64) : W64 :=
  let s : Int := Int.ofNat (a.toNat % 2 ^ 32) - Int.ofNat (b.toNat % 2 ^ 32) - (if c.getLsbD 32 then 1 else 0)
  BitVec.ofNat 64 ((if s < 0 then 2 ^ 32 else 0) + (s % 2 ^ 32).toNat)

def IPred.holds (p : IPred) (a b : Int) : Bool :=
  match p with
  | .eq => a == b | .ne => a != b | .lt => a < b | .le => a ≤ b | .gt => b < a | .ge => b ≤ a

def boolVal (b : Bool) : W64 := if b then 1 else 0

/-- Bitwise NOT at the type's width. -/
def notPat (t : IntTy) (a : Nat) : Nat := 2 ^ t.width - 1 - a

/-- SHL (03 R86): a × 2^n, fixed to the type.  A shift beyond 128 places gives what 128 places give. -/
def shlVal (t : IntTy) (sat : Bool) (a : W64) (n : Nat) : W64 :=
  t.fix sat (t.toInt a * 2 ^ (Nat.min n 128))

def shrlVal (t : IntTy) (a : W64) (n : Nat) : W64 := t.formN (if t.width ≤ n then 0 else t.pat a / 2 ^ n)

/-- The signed reading of a pattern whatever the type (03 R86). -/
def signedPat (t : IntTy) (a : W64) : Int :=
  let p := t.pat a
  if 2 ^ (t.width - 1) ≤ p then Int.ofNat p - 2 ^ t.width else Int.ofNat p

def shraVal (t : IntTy) (a : W64) (n : Nat) : W64 := t.form (Int.fdiv (signedPat t a) (2 ^ (Nat.min n 64)))

def rotlVal (t : IntTy) (a : W64) (n : Nat) : W64 :=
  let k := n % t.width
  t.formN (t.pat a * 2 ^ k % 2 ^ t.width + t.pat a / 2 ^ (t.width - k))

/-- FSHL (03 R87). -/
def fshlVal (t : IntTy) (a b : W64) (n : Nat) : W64 :=
  let k := n % t.width
  t.formN ((t.pat a * 2 ^ t.width + t.pat b) * 2 ^ k / 2 ^ t.width % 2 ^ t.width)

def clzVal (t : IntTy) (a : W64) : W64 :=
  let p := t.pat a
  BitVec.ofNat 64 (if p = 0 then t.width else t.width - 1 - Nat.log2 p)

def ctzVal (t : IntTy) (a : W64) : W64 :=
  BitVec.ofNat 64 (((List.range t.width).find? fun i => (t.pat a).testBit i).getD t.width)

def popcVal (t : IntTy) (a : W64) : W64 :=
  BitVec.ofNat 64 ((List.range t.width).filter fun i => (t.pat a).testBit i).length

/-- The number whose bit `i`, for `i` below `n`, is `f i`. -/
def natOfBits (n : Nat) (f : Nat → Bool) : Nat :=
  (List.range n).foldl (fun acc i => if f i then acc + 2 ^ i else acc) 0

def brevVal (t : IntTy) (a : W64) : W64 :=
  t.formN (natOfBits t.width fun i => (t.pat a).testBit (t.width - 1 - i))

/-- BEXT (03 R89): position at or above the width gives 0, a width above the type's is taken as the type's. -/
def bextVal (t : IntTy) (a : W64) (p n : Nat) : W64 :=
  if t.width ≤ p then 0
  else
    let n := Nat.min n t.width
    let f := t.pat a / 2 ^ p % 2 ^ n
    t.form (if t.signed && n != 0 && f.testBit (n - 1) then Int.ofNat f - 2 ^ n else Int.ofNat f)

/-- BINS (03 R90). -/
def binsVal (t : IntTy) (a b : W64) (p n : Nat) : W64 :=
  if t.width ≤ p then t.formN (t.pat a)
  else
    let n := Nat.min n t.width
    t.formN (natOfBits t.width fun i =>
      if p ≤ i && i < p + n then b.getLsbD (i - p) else (t.pat a).testBit i)

/-- BINT (03 R91). -/
def bintVal (t : IntTy) (a b : W64) (c : Option W64) : W64 :=
  match c with
  | none => t.formN (natOfBits t.width fun i =>
      if i % 2 = 0 then a.getLsbD (i / 2) else b.getLsbD (i / 2))
  | some c => t.formN (natOfBits (if t.width = 64 then 63 else 30) fun i =>
      if i % 3 = 0 then a.getLsbD (i / 3) else if i % 3 = 1 then b.getLsbD (i / 3) else c.getLsbD (i / 3))

/-- BDIN (03 R91). -/
def bdinVal (three : Bool) (t : IntTy) (a : W64) (j : Nat) : W64 :=
  if three then t.formN (natOfBits (if t.width = 64 then 21 else 10) fun i => a.getLsbD (3 * i + j))
  else t.formN (natOfBits (t.width / 2) fun i => a.getLsbD (2 * i + j))

def byteAt (v : W64) (i : Nat) : Nat := v.toNat / 2 ^ (8 * i) % 256
/-- The number whose byte `i`, for `i` below `n`, is `f i`. -/
def natOfBytes (n : Nat) (f : Nat → Nat) : Nat :=
  (List.range n).foldl (fun acc i => acc + f i % 256 * 2 ^ (8 * i)) 0

/-- BPERM (03 R92). -/
def bpermVal (a b c : W64) : W64 :=
  let x := fun i => if i < 4 then byteAt a i else byteAt c (i - 4)
  BitVec.ofNat 64 (natOfBytes 4 fun i =>
    let s := b.toNat / 2 ^ (4 * i) % 16
    let v := x (s % 8)
    if s < 8 then v else if 128 ≤ v then 255 else 0)

/-- BLUT (03 R93). -/
def blutVal (hi : Bool) (t : IntTy) (a b c : W64) : W64 :=
  let tab := fun i => if i < 8 then byteAt b i else byteAt c (i - 8)
  t.formN (natOfBytes (t.width / 8) fun i =>
    let v := byteAt a i
    tab (if hi then v / 16 else v % 16))

/-- The source lane of LSHF, if there is one (03 R102). -/
def lshfLane (m : LMode) (l n : Nat) : Option Nat :=
  match m with
  | .up => if n ≤ l then some (l - n) else none
  | .down => if l + n < 32 then some (l + n) else none
  | .rot => some ((l + n) % 32)
  | .xor => some (Nat.xor l (n % 32))

/-- One combination step of LSCAN and LRED (03 R104), on formed values. -/
def scanStep (op : ScanOp) (t : IntTy) (sat : Bool) (acc a : W64) : W64 :=
  match op with
  | .add => t.fix sat (t.toInt acc + t.toInt a)
  | .min => t.form (if t.toInt a < t.toInt acc then t.toInt a else t.toInt acc)
  | .max => t.form (if t.toInt acc < t.toInt a then t.toInt a else t.toInt acc)
  | .and => t.formN (t.pat acc &&& t.pat a)
  | .or => t.formN (t.pat acc ||| t.pat a)
  | .xor => t.formN (t.pat acc ^^^ t.pat a)

/-- The identities of 03 R104. -/
def scanId (op : ScanOp) (t : IntTy) : W64 :=
  match op with
  | .add | .or | .xor => 0
  | .and => t.formN (2 ^ t.width - 1)
  | .min => t.form t.max
  | .max => t.form t.min

/-- Inclusive scan of the values, in order. -/
def scanList (op : ScanOp) (t : IntTy) (sat : Bool) : W64 → List W64 → List W64
  | _, [] => []
  | acc, a :: as => let r := scanStep op t sat acc a; r :: scanList op t sat r as

/-- The type of the result of R88: N32 for every type. -/
def countWords : Nat := 1

end Sys2Proof
end

