-- ==== Sys2Proof/Config.lean ====
section
/-!
DEFINITION. What the manual leaves to the implementation or fixes only within a bound: opaque constants with
no body that a proof could see.  A statement about the model holds for every value of them.
-/

namespace Sys2Proof

/-- A fresh free value: the step applies it to the counter `State.freeCount` and advances the counter
(log 6). -/
opaque Config.freeWord : Nat → W64

/-- Nanoseconds of package time that pass before a step, a free value of the counter (log 7; timing is out
of scope). -/
opaque Config.timeAdvance : Nat → Nat

/-- What the special-function unit delivers for a function and an FP32 input where 04 Table 4.6 gives a bound
and no exact result.  A function of the input alone, as 04 R129 says.  The number is the opcode's place
among 0x50-0x56 (log 10). -/
opaque Config.sfu : Nat → W32 → W32

/-- Where in the context area the `slot`-th place for an image of a group of quadrant `quad` of core `core` lies (14 R390
gives no place): an offset in units of 64 KiB (log 9). -/
opaque Config.imageSlot : (core quad slot : Nat) → BitVec 17

/-- The virtual address under which a handler is handed the image at a DPA (14 R390; log 9). -/
opaque Config.imageVa : Nat → BitVec 48

/-- The kernel object of a fixed node type 1-3 (14 R379: firmware kernels, whose place and text the spec does
not give; log 8). -/
opaque Config.fixedKernel : Nat → W64

/-- The serial number of the part (15 Table 15.8; log 8). -/
opaque Config.serial : W64

/-- The keys and salts that firmware makes for links: each is fresh (15 R418). -/
opaque Config.linkKey : Nat → BitVec 288

/-- Whether a device that is some port's peer carries traffic on to another device of the domain (15 R416): how the links
of a domain lie is the installation's (log 125). -/
opaque Config.peerReaches : (peer dev : Nat) → Bool

/-- The anti-rollback counter in the fuses (15 R423; log 8). -/
opaque Config.antiRollback : W64

/-- SHA-256, and whether an RSASSA-PSS signature over the header of a firmware image (its version, length and body's
hash) verifies under Aedrostan's firmware key (15 R423; log 8). -/
opaque Config.sha256 : List Byte → BitVec 256
opaque Config.headerSigned : (version : W64) → (length : Nat) → (hash : BitVec 256) → (signature : List Byte) → Bool

/-- Byte `i` of the RSASSA-PSS signature over a report (15 R425; log 8). -/
opaque Config.signature : List Byte → Nat → Byte

/-- Length in bytes and byte `i` of the certificate chain (15 R425; log 8). -/
opaque Config.certLength : BitVec 12
opaque Config.certByte : Nat → Byte

/-- Whether a peer's certificates verify: its identity certificate, and its transport public key's under it (15 R418,
R424; log 8). -/
opaque Config.peerCertGood : List Byte → Bool

/-- What RSA-OAEP with the part's own private transport key makes of a link key and salt as a peer sent them; none where
it does not decrypt (15 R418, R424; log 8). -/
opaque Config.transportOpen : List Byte → Option (BitVec 288)

end Sys2Proof
end

