-- ==== Sys2Proof/Decode.lean ====
section
/-!
DEFINITION. From bits to instructions and back: the instruction word (02 R34-R44), the per-entry checks with
their detail codes (02 T 2.8), the whole-clause check (02 R33), and the encoder.
-/

namespace Sys2Proof

/-! ## Field codes -/

def Special.code : Special → BitVec 4
  | .zero => 0 | .ones => 1 | .laneid => 2 | .grpid => 3 | .teamx => 4 | .teamy => 5 | .teamz => 6
  | .gridid => 7 | .coreid => 8 | .dieid => 9 | .quadid => 10 | .clusterid => 11 | .depth => 12
  | .clustrank => 13 | .livemask => 14 | .kobase => 15

def Special.ofCode (c : BitVec 4) : Special :=
  match c.toNat with
  | 0 => .zero | 1 => .ones | 2 => .laneid | 3 => .grpid | 4 => .teamx | 5 => .teamy | 6 => .teamz
  | 7 => .gridid | 8 => .coreid | 9 => .dieid | 10 => .quadid | 11 => .clusterid | 12 => .depth
  | 13 => .clustrank | 14 => .livemask | _ => .kobase

/-- 02 Table 2.3, as a source. -/
def Src.code : Src → BitVec 7
  | .q n => n.setWidth 7
  | .w n => 0x10 + n.setWidth 7
  | .sp n => 0x30 + n.code.setWidth 7
  | .s n => 0x40 + n.setWidth 7

def Src.ofCode (c : BitVec 7) : Src :=
  if c.toNat < 0x10 then .q (c.setWidth 4)
  else if c.toNat < 0x30 then .w ((c - 0x10).setWidth 5)
  else if c.toNat < 0x40 then .sp (Special.ofCode (c.setWidth 4))
  else .s (c.setWidth 6)

/-- 02 Table 2.3, as a destination. -/
def Dst.code : Dst → BitVec 7
  | .queue => 0
  | .w n => 0x10 + n.setWidth 7
  | .s n => 0x40 + n.setWidth 7

/-- The codes that are illegal as a destination are refused before this is used (detail 10). -/
def Dst.ofCode (c : BitVec 7) : Dst :=
  if c.toNat < 0x10 then .queue
  else if c.toNat < 0x30 then .w ((c - 0x10).setWidth 5)
  else .s (c.setWidth 6)

def winCode (n : BitVec 5) : BitVec 7 := 0x10 + n.setWidth 7
def winOf (c : BitVec 7) : BitVec 5 := (c - 0x10).setWidth 5
def sclCode (n : BitVec 6) : BitVec 7 := 0x40 + n.setWidth 7
def sclOf (c : BitVec 7) : BitVec 6 := c.setWidth 6

def IntTy.code : IntTy → BitVec 3
  | .i32 => 0 | .n32 => 1 | .i64 => 2 | .n64 => 3 | .i16 => 4 | .n16 => 5 | .i8 => 6 | .n8 => 7
def IntTy.ofCode (c : BitVec 3) : IntTy :=
  match c.toNat with
  | 0 => .i32 | 1 => .n32 | 2 => .i64 | 3 => .n64 | 4 => .i16 | 5 => .n16 | 6 => .i8 | _ => .n8

def FpTy.code : FpTy → BitVec 3
  | .f32 => 0 | .f64 => 1 | .f16 => 2 | .bf16 => 3 | .f16x2 => 4 | .bf16x2 => 5
def FpTy.ofCode (c : BitVec 3) : Option FpTy :=
  match c.toNat with
  | 0 => some .f32 | 1 => some .f64 | 2 => some .f16 | 3 => some .bf16 | 4 => some .f16x2
  | 5 => some .bf16x2 | _ => none

/-- type2 (02 Table 2.5): 0-5 floating, 8-15 integer. -/
def NumTy.code : NumTy → BitVec 4
  | .fp t => t.code.setWidth 4
  | .int t => 8 + t.code.setWidth 4
def NumTy.ofCode (c : BitVec 4) : Option NumTy :=
  if c.toNat < 8 then (FpTy.ofCode (c.setWidth 3)).map .fp else some (.int (IntTy.ofCode (c.setWidth 3)))

def Rnd.code : Rnd → BitVec 3
  | .rne => 0 | .rtz => 1 | .rup => 2 | .rdn => 3
def Rnd.ofCode (c : BitVec 3) : Option Rnd :=
  match c.toNat with
  | 0 => some .rne | 1 => some .rtz | 2 => some .rup | 3 => some .rdn | _ => none

def IPred.code : IPred → BitVec 5
  | .eq => 0 | .ne => 1 | .lt => 2 | .le => 3 | .gt => 4 | .ge => 5
def IPred.ofCode (c : BitVec 5) : Option IPred :=
  match c.toNat with
  | 0 => some .eq | 1 => some .ne | 2 => some .lt | 3 => some .le | 4 => some .gt | 5 => some .ge
  | _ => none

def FPred.code : FPred → BitVec 5
  | .eq => 0 | .ne => 1 | .lt => 2 | .le => 3 | .gt => 4 | .ge => 5 | .uo => 6 | .or => 7
def FPred.ofCode (c : BitVec 5) : Option FPred :=
  match c.toNat with
  | 0 => some .eq | 1 => some .ne | 2 => some .lt | 3 => some .le | 4 => some .gt | 5 => some .ge
  | 6 => some .uo | 7 => some .or | _ => none

def Space.code : Space → BitVec 3
  | .l => 0 | .s => 1 | .c => 2 | .p => 3 | .g => 4
def Space.ofCode (c : BitVec 3) : Option Space :=
  match c.toNat with
  | 0 => some .l | 1 => some .s | 2 => some .c | 3 => some .p | 4 => some .g | _ => none

def Req.code : Req → BitVec 3
  | .own => 0 | .wt => 1 | .si => 2 | .nc => 3 | .add => 4
def Req.ofCode (c : BitVec 3) : Option Req :=
  match c.toNat with
  | 0 => some .own | 1 => some .wt | 2 => some .si | 3 => some .nc | 4 => some .add | _ => none

def Scope.code : Scope → BitVec 3
  | .grp => 0 | .team => 1 | .core => 2 | .clu => 3 | .die => 4 | .pkg => 5 | .dom => 6 | .sys => 7
def Scope.ofCode (c : BitVec 3) : Scope :=
  match c.toNat with
  | 0 => .grp | 1 => .team | 2 => .core | 3 => .clu | 4 => .die | 5 => .pkg | 6 => .dom | _ => .sys

def Order.code : Order → BitVec 2
  | .relaxed => 0 | .acq => 1 | .rel => 2 | .ar => 3
def Order.ofCode (c : BitVec 2) : Order :=
  match c.toNat with
  | 0 => .relaxed | 1 => .acq | 2 => .rel | _ => .ar

def Size.code : Size → BitVec 3
  | .b8 => 0 | .b16 => 1 | .b32 => 2 | .b64 => 3 | .b128 => 4 | .b256 => 5 | .b512 => 6
def Size.ofCode (c : BitVec 3) : Option Size :=
  match c.toNat with
  | 0 => some .b8 | 1 => some .b16 | 2 => some .b32 | 3 => some .b64 | 4 => some .b128 | 5 => some .b256
  | 6 => some .b512 | _ => none

def KOp.code : KOp → BitVec 5
  | .kand => 0 | .kor => 1 | .kxor => 2 | .kandn => 3 | .knot => 4 | .kmov => 5 | .fromv => 6
  | .tov => 7 | .froms => 8
def KOp.ofCode (c : BitVec 5) : Option KOp :=
  match c.toNat with
  | 0 => some .kand | 1 => some .kor | 2 => some .kxor | 3 => some .kandn | 4 => some .knot
  | 5 => some .kmov | 6 => some .fromv | 7 => some .tov | 8 => some .froms | _ => none

def LMode.code : LMode → BitVec 5
  | .up => 0 | .down => 1 | .rot => 2 | .xor => 3
def LMode.ofCode (c : BitVec 5) : Option LMode :=
  match c.toNat with
  | 0 => some .up | 1 => some .down | 2 => some .rot | 3 => some .xor | _ => none

def ScanOp.code : ScanOp → BitVec 3
  | .add => 0 | .min => 1 | .max => 2 | .and => 3 | .or => 4 | .xor => 5
def ScanOp.ofCode (c : BitVec 3) : Option ScanOp :=
  match c.toNat with
  | 0 => some .add | 1 => some .min | 2 => some .max | 3 => some .and | 4 => some .or | 5 => some .xor
  | _ => none

def VoteOp.code : VoteOp → BitVec 5
  | .any => 0 | .all => 1 | .ballot => 2 | .uni => 3
def VoteOp.ofCode (c : BitVec 5) : Option VoteOp :=
  match c.toNat with
  | 0 => some .any | 1 => some .all | 2 => some .ballot | 3 => some .uni | _ => none

def FstwOp.code : FstwOp → BitVec 5
  | .w => 0 | .or => 1 | .clr => 2
def FstwOp.ofCode (c : BitVec 5) : Option FstwOp :=
  match c.toNat with
  | 0 => some .w | 1 => some .or | 2 => some .clr | _ => none

def FenceOp.code : FenceOp → BitVec 5
  | .acq => 0 | .rel => 1 | .ar => 2 | .sc => 3
def FenceOp.ofCode (c : BitVec 5) : Option FenceOp :=
  match c.toNat with
  | 0 => some .acq | 1 => some .rel | 2 => some .ar | 3 => some .sc | _ => none

def AtomOp.code : AtomOp → BitVec 5
  | .add => 0 | .min => 1 | .max => 2 | .umin => 3 | .umax => 4 | .and => 5 | .or => 6 | .xor => 7
  | .xchg => 8 | .incw => 9 | .decw => 10
def AtomOp.ofCode (c : BitVec 5) : Option AtomOp :=
  match c.toNat with
  | 0 => some .add | 1 => some .min | 2 => some .max | 3 => some .umin | 4 => some .umax | 5 => some .and
  | 6 => some .or | 7 => some .xor | 8 => some .xchg | 9 => some .incw | 10 => some .decw | _ => none

def AtomwOp.code : AtomwOp → BitVec 5
  | .min => 0 | .max => 1 | .xchg => 2
def AtomwOp.ofCode (c : BitVec 5) : Option AtomwOp :=
  match c.toNat with
  | 0 => some .min | 1 => some .max | 2 => some .xchg | _ => none

def FatomOp.code : FatomOp → BitVec 5
  | .add => 0 | .min => 1 | .max => 2
def FatomOp.ofCode (c : BitVec 5) : Option FatomOp :=
  match c.toNat with
  | 0 => some .add | 1 => some .min | 2 => some .max | _ => none

def LodSrc.code : LodSrc → BitVec 5
  | .quad => 0 | .lod => 1 | .grad => 2
def LodSrc.ofCode (c : BitVec 5) : Option LodSrc :=
  match c.toNat with
  | 0 => some .quad | 1 => some .lod | 2 => some .grad | _ => none

/-! ## The word as raw fields (02 Table 2.2) -/

/-- Bits [32:0]: sources B and C with the class extension, or the extension bit with a literal. -/
inductive Tail where
  | regs (b c : BitVec 7) (x : BitVec 19)
  | lit (ext : Bool) (v : BitVec 32)
  deriving DecidableEq, Repr

/-- The fields of one instruction word. -/
structure Raw where
  op : BitVec 8
  k : BitVec 3
  m : BitVec 5
  d : BitVec 7
  a : BitVec 7
  t : Tail
  deriving DecidableEq, Repr

def Raw.ofWord (w : BitVec 64) : Raw where
  op := w.extractLsb' 56 8
  k := w.extractLsb' 53 3
  m := w.extractLsb' 48 5
  d := w.extractLsb' 41 7
  a := w.extractLsb' 34 7
  t := if w.getLsbD 33 then .lit (w.getLsbD 32) (w.extractLsb' 0 32)
       else .regs (w.extractLsb' 26 7) (w.extractLsb' 19 7) (w.extractLsb' 0 19)

def Tail.bits : Tail → BitVec 34
  | .regs b c x => (0 : BitVec 1) ++ b ++ c ++ x
  | .lit e v => (1 : BitVec 1) ++ BitVec.ofBool e ++ v

def Raw.toWord (r : Raw) : BitVec 64 := r.op ++ r.k ++ r.m ++ r.d ++ r.a ++ r.t.bits

def Raw.isLit (r : Raw) : Bool := match r.t with | .lit .. => true | .regs .. => false
def Raw.ext (r : Raw) : Bool := match r.t with | .lit e _ => e | .regs .. => false
def Raw.v (r : Raw) : BitVec 32 := match r.t with | .lit _ v => v | .regs .. => 0
def Raw.b (r : Raw) : BitVec 7 := match r.t with | .regs b _ _ => b | .lit .. => 0
def Raw.c (r : Raw) : BitVec 7 := match r.t with | .regs _ c _ => c | .lit .. => 0
def Raw.x (r : Raw) : BitVec 19 := match r.t with | .regs _ _ x => x | .lit .. => 0
/-- Source B, or the literal that takes its place (02 R43). -/
def Raw.opd (r : Raw) : Opd := match r.t with | .regs b _ _ => .src (Src.ofCode b) | .lit _ v => .lit v
def Raw.srcA (r : Raw) : Src := Src.ofCode r.a
def Raw.srcB (r : Raw) : Src := Src.ofCode r.b
def Raw.srcC (r : Raw) : Src := Src.ofCode r.c
def Raw.dst (r : Raw) : Dst := Dst.ofCode r.d

/-- Integer type: the class extension's, or Table 2.6's. -/
def Raw.ity (r : Raw) : IntTy :=
  match r.t with
  | .regs _ _ x => IntTy.ofCode (x.extractLsb' 16 3)
  | .lit e _ => if e then .i64 else .i32
/-- Code of the floating type: the class extension's, or Table 2.6's. -/
def Raw.ftyCode (r : Raw) : BitVec 3 :=
  match r.t with
  | .regs _ _ x => x.extractLsb' 16 3
  | .lit e _ => if e then 1 else 0
def Raw.sat (r : Raw) : Bool := r.x.getLsbD 15
def Raw.imm7 (r : Raw) : BitVec 7 := r.x.extractLsb' 8 7
def Raw.imm8 (r : Raw) : BitVec 8 := r.x.extractLsb' 0 8
def Raw.rnd (r : Raw) : BitVec 3 := r.x.extractLsb' 13 3
def Raw.ftz (r : Raw) : Bool := r.x.getLsbD 12
def Raw.ty2 (r : Raw) : BitVec 4 := r.x.extractLsb' 8 4
def Raw.x3 (r : Raw) (lo : Nat) : BitVec 3 := r.x.extractLsb' lo 3
def Raw.low10 (r : Raw) : BitVec 10 := r.x.extractLsb' 0 10

/-! ## Encoding the class extensions (02 Table 2.5) -/

def intX (t : IntTy) (sat : Bool) (imm7 : BitVec 7) (imm8 : BitVec 8) : BitVec 19 :=
  t.code ++ BitVec.ofBool sat ++ imm7 ++ imm8
def fpX (t : FpTy) (r : Rnd) (ftz : Bool) (ty2 : BitVec 4) : BitVec 19 :=
  t.code ++ r.code ++ BitVec.ofBool ftz ++ ty2 ++ (0 : BitVec 8)
def memX (x : MemX) (sx : Bool) : BitVec 19 :=
  x.space.code ++ x.req.code ++ x.scope.code ++ x.order.code ++ x.size.code ++ BitVec.ofBool sx
    ++ (0 : BitVec 4)
def blkX (s d : BitVec 3) (sc : Scope) (low : BitVec 10) : BitVec 19 := s ++ d ++ sc.code ++ low
def lcX : Option (BitVec 2) → BitVec 3
  | none => 0
  | some c => (1 : BitVec 1) ++ c
def mtxX (a b d : Option (BitVec 2)) (low : BitVec 10) : BitVec 19 := lcX a ++ lcX b ++ lcX d ++ low
def lcOf (g : BitVec 3) : Option (BitVec 2) := if g.getLsbD 2 then some (g.setWidth 2) else none
/-- Code of an optional clasp space (09 Table 9.5). -/
def clsCode : Option Space → BitVec 3
  | none => 0
  | some s => s.code
def clsOf (c : BitVec 3) : Option Space := if c == 0 then none else Space.ofCode c

/-! ## Checks (02 R33, R35, R41, R46) -/

/-- What a decoder knows of the kernel: the window map and the tile grant. -/
structure DecodeCtx where
  caps : List Nat
  tiles : Nat
  deriving DecidableEq, Repr

/-- A context that refuses nothing: every window of 9 words, 32 tiles. -/
def DecodeCtx.free : DecodeCtx := ⟨List.replicate 32 9, 32⟩

/-- What an operand field must name: nothing, any level of `n` words, a window of `n` words, the first
of `n` scalars, or a tile. -/
inductive Role where
  | no | val (n : Nat) | win (n : Nat) | scl (n : Nat) | tile
  deriving DecidableEq, Repr

/-- Whether a literal is refused, stands for B, stands for A (FSTW), or is required (02 R43). -/
inductive LitRule where
  | no | b | a | req | code
  deriving DecidableEq, Repr

/-- One entry of the instruction tables at one word: the roles of its fields, its checks of the modifier and
of the class extension (detail, failed), and the instruction it names. -/
structure Entry where
  d : Role
  a : Role
  b : Role
  c : Role
  lit : LitRule
  chk : List (Nat × Bool)
  i : Option Instr
  /-- The checks that read no class extension: they hold of a word whose literal form is refused too. -/
  fix : List (Nat × Bool) := []
  deriving DecidableEq, Repr

def isWinCode (f : BitVec 7) : Bool := 0x10 ≤ f.toNat && f.toNat < 0x30
def DecodeCtx.cap (x : DecodeCtx) (f : BitVec 7) : Nat := x.caps.getD (f.toNat - 0x10) 0

/-- A window field that breaks 02 R41. -/
def capBad (x : DecodeCtx) (f : BitVec 7) (n : Nat) : Bool := x.cap f < n

/-- Detail 4 or 10 of a source field. -/
def srcBad (x : DecodeCtx) (r : Role) (f : BitVec 7) : List (Nat × Bool) :=
  match r with
  | .no => [(4, f != 0)]
  | .val n => [(10, isWinCode f && capBad x f n)]
  | .win n => [(10, !isWinCode f || capBad x f n)]
  | .scl n => [(10, f.toNat < 0x40 || 0x80 < f.toNat + n)]
  | .tile => []

/-- Detail 10 of the destination field (02 Table 2.3, R38, R41); for a matrix word without a result too, where 11 R311 may
be read otherwise (log 141). -/
def dstBad (x : DecodeCtx) (r : Role) (f : BitVec 7) : List (Nat × Bool) :=
  match r with
  | .val n => [(10, (0 < f.toNat && f.toNat < 0x10) || (0x30 ≤ f.toNat && f.toNat < 0x40)
                      || (isWinCode f && capBad x f n))]
  | .win n => [(10, !isWinCode f || capBad x f n)]
  | _ => [(10, f != 0)]

/-- Whether the literal form of this word is refused (02 R43, T 2.6; detail 11). -/
def litBad (l : LitRule) (r : Raw) : Bool :=
  match l with
  | .no => r.isLit
  | .b => false
  | .a => r.isLit && r.ext
  | .req => !r.isLit
  | .code => !r.isLit || r.ext

/-- The lowest detail among the failed checks (02 R46). -/
def lowest (l : List (Nat × Bool)) : Option Nat :=
  l.foldl (fun acc p => if p.2 then (match acc with | none => some p.1 | some d => some (min d p.1)) else acc) none

/-- Every check of one word by itself; a refused literal leaves no class extension to check. -/
def wordChecks (x : DecodeCtx) (r : Raw) (e : Entry) : List (Nat × Bool) :=
  (if r.isLit && litBad e.lit r then e.chk.filter (fun p => p.1 == 2) ++ e.fix else e.chk)
    ++ dstBad x e.d r.d
    ++ (if e.lit == .a && r.isLit then [(4, r.a != 0)] else srcBad x e.a r.a)
    ++ (if r.isLit then [] else srcBad x e.b r.b ++ srcBad x e.c r.c)
    ++ [(11, litBad e.lit r)]

/-! ## The tables, one family at a time -/

def IntTy.words (t : IntTy) : Nat := if t.width = 64 then 2 else 1
def FpTy.words (t : FpTy) : Nat := if t == .f64 then 2 else 1
def NumTy.words : NumTy → Nat
  | .fp t => t.words
  | .int t => t.words
def Size.words (s : Size) : Nat := (s.bytes + 3) / 4

def allTy (_ : IntTy) : Bool := true
def n3264 (t : IntTy) : Bool := t == .n32 || t == .n64
def ty32 (t : IntTy) : Bool := t == .i32

/-- Entry of 03 Table 3.2: allowed types, sat, whether the immediates must be zero. -/
def intEntry (r : Raw) (modOk : Bool) (ty : IntTy → Bool) (sat immZero : Bool) (lit : LitRule)
    (d a b c : Role) (i : Option Instr) (more : List (Nat × Bool) := []) : Entry where
  d := d; a := a; b := b; c := c; lit := lit; i := i
  chk := [(2, !modOk), (3, !ty r.ity || (r.sat && !sat)), (4, immZero && (r.imm7 != 0 || r.imm8 != 0))] ++ more

def Raw.iun (r : Raw) : IUn := ⟨r.k, r.dst, r.srcA, r.ity, r.sat⟩
def Raw.ibin (r : Raw) : IBin := ⟨r.k, r.dst, r.srcA, r.opd, r.ity, r.sat⟩
def Raw.iter (r : Raw) : ITer := ⟨r.k, r.dst, r.srcA, r.srcB, r.srcC, r.ity, r.sat⟩

def eIUn (r : Raw) (ty : IntTy → Bool) (sat : Bool) (dw : Nat) (mk : IUn → Instr) : Entry :=
  intEntry r (r.m == 0) ty sat true .no (.val dw) (.val r.ity.words) .no .no (some (mk r.iun))
def eIBin (r : Raw) (modOk : Bool) (ty : IntTy → Bool) (sat : Bool) (dw bw : Nat) (i : Option Instr) : Entry :=
  intEntry r modOk ty sat true .b (.val dw) (.val r.ity.words) (.val bw) .no i
def eITer (r : Raw) (modOk : Bool) (ty : IntTy → Bool) (sat : Bool) (dw aw bw cw : Nat) (i : Option Instr) : Entry :=
  intEntry r modOk ty sat true .no (.val dw) (.val aw) (.val bw) (.val cw) i

def Raw.posBad (r : Raw) : Bool := r.ity.width ≤ r.imm7.toNat || r.ity.width < r.imm8.toNat

def eKop (r : Raw) : Entry :=
  let kd := r.x.extractLsb' 0 3
  let kx := r.x.extractLsb' 8 3
  let ky := r.x.extractLsb' 11 3
  let op := KOp.ofCode r.m
  let readsA := op == some .fromv || op == some .froms
  let readsX := !readsA
  let readsY := op == some .kand || op == some .kor || op == some .kxor || op == some .kandn
  let tov := op == some .tov
  let mask : List (Nat × Bool) := [(4, r.k != 0 && !(tov || op == some .fromv))]
  { intEntry r op.isSome ty32 false false .no (if tov then .val 1 else .no)
    (if readsA then .val 1 else .no) .no .no
    (op.map fun o => .kop o r.k r.dst r.srcA kd kx ky)
    ([(3, !tov && kd == 0),
      (4, r.x.getLsbD 14 || r.x.extractLsb' 3 5 != 0 || (tov && kd != 0) || (!readsX && kx != 0)
           || (!readsY && ky != 0))] ++ mask) with fix := mask }

/-- 0x01-0x1F (03 Table 3.2). -/
def entryInt0 (r : Raw) : Option Entry :=
  let w := r.ity.words
  let z := r.m == 0
  match r.op.toNat with
  | 0x01 => some (eIBin r z allTy true w w (some (.iadd r.ibin)))
  | 0x02 => some (eIBin r z allTy true w w (some (.isub r.ibin)))
  | 0x03 => some (eITer r z (fun t => t == .i32 || t == .n32) false 2 1 1 2 (some (.iadc r.iter)))
  | 0x04 => some (eITer r z (fun t => t == .i32 || t == .n32) false 2 1 1 2 (some (.isbc r.iter)))
  | 0x05 => some (eIBin r z allTy true w w (some (.imul r.ibin)))
  | 0x06 => some (eIBin r z (fun t => t.width == 32 || t.width == 64) false w w (some (.imulh r.ibin)))
  | 0x07 => some (eITer r z allTy true w w w w (some (.imad r.iter)))
  | 0x08 => some (eIBin r z allTy true w w (some (.idiv r.ibin)))
  | 0x09 => some (eIBin r z allTy false w w (some (.irem r.ibin)))
  | 0x0A => some (eIUn r IntTy.signed true w .iabs)
  | 0x0B => some (eIUn r IntTy.signed true w .ineg)
  | 0x0C => some (eIBin r z allTy false w w (some (.imin r.ibin)))
  | 0x0D => some (eIBin r z allTy false w w (some (.imax r.ibin)))
  | 0x0E => some (eIBin r (IPred.ofCode r.m).isSome allTy false 1 w ((IPred.ofCode r.m).map (.icmp · r.ibin)))
  | 0x0F => some (eITer r z allTy false w w w 1 (some (.isel r.iter)))
  | 0x10 => some (eIBin r z allTy false w w (some (.and r.ibin)))
  | 0x11 => some (eIBin r z allTy false w w (some (.or r.ibin)))
  | 0x12 => some (eIBin r z allTy false w w (some (.xor r.ibin)))
  | 0x13 => some (eIBin r z allTy false w w (some (.andn r.ibin)))
  | 0x14 => some (eIUn r allTy false w .not)
  | 0x15 => some (eIBin r z allTy true w 1 (some (.shl r.ibin)))
  | 0x16 => some (eIBin r z allTy false w 1 (some (.shrl r.ibin)))
  | 0x17 => some (eIBin r z allTy false w 1 (some (.shra r.ibin)))
  | 0x18 => some (eIBin r z allTy false w 1 (some (.rotl r.ibin)))
  | 0x19 => some (eITer r z allTy false w w w 1 (some (.fshl r.iter)))
  | _ => none

/-- 0x20-0x2F (03 Table 3.2). -/
def entryInt2 (r : Raw) : Option Entry :=
  let w := r.ity.words
  let z := r.m == 0
  match r.op.toNat with
  | 0x20 => some (eIUn r allTy false 1 .clz)
  | 0x21 => some (eIUn r allTy false 1 .ctz)
  | 0x22 => some (eIUn r allTy false 1 .popc)
  | 0x23 => some (eIUn r allTy false w .brev)
  | 0x24 =>
    if r.m == 1 then some (eIBin r true allTy false w 1 (some (.bextR r.ibin)))
    else some (intEntry r z allTy false false .no (.val w) (.val w) .no .no
      (some (.bext r.iun r.imm7 r.imm8)) [(3, r.posBad)])
  | 0x25 =>
    if r.m == 1 then some (eITer r true allTy false w w w 1 (some (.binsR r.iter)))
    else some (intEntry r z allTy false false .no (.val w) (.val w) (.val w) .no
      (some (.bins r.k r.dst r.srcA r.srcB r.ity r.imm7 r.imm8)) [(3, r.posBad)])
  | 0x26 =>
    if r.m == 1 then
      some (eITer r true n3264 false w w w w (some (.bint r.k r.dst r.srcA r.srcB (some r.srcC) r.ity)))
    else some (intEntry r z n3264 false true .no (.val w) (.val w) (.val w) .no
      (some (.bint r.k r.dst r.srcA r.srcB none r.ity)))
  | 0x27 =>
    let j := r.x.extractLsb' 0 2
    some (intEntry r (r.m.toNat < 2) n3264 false false .no (.val w) (.val w) .no .no
      (some (.bdin (r.m == 1) r.iun j))
      [(3, (if r.m == 1 then 3 else 2) ≤ j.toNat), (4, r.imm7 != 0 || r.x.extractLsb' 2 6 != 0)])
  | 0x28 => some (eITer r z (· == .n32) false 1 1 1 1 (some (.bperm r.iter)))
  | 0x29 => some (eITer r (r.m.toNat < 2) n3264 false w w 2 2 (some (.blut (r.m == 1) r.iter)))
  | 0x2A => some (eIUn r allTy false w .mov)
  | 0x2B =>
    if r.m == 1 then
      some (intEntry r true (fun t => t == .i32 || r.isLit) false true .req (.val 2) .no .no .no
        (some (.movlHi r.k r.dst r.v)) [(11, r.ext)])
    else some (intEntry r z (fun t => t == .i32 || t == .i64) false true .req (.val w) .no .no .no
      (some (.movl r.k r.dst r.ext r.v)))
  | 0x2C => some (eIBin r z allTy false w 1 (some (.movs r.ibin)))
  | 0x2D => some (eKop r)
  | 0x2E => some (intEntry r (r.m.toNat < 4) ty32 false true .b (.val 1) .no (.val 1) .no
      (some (.lcset r.k r.dst (r.m.setWidth 2) r.opd)))
  | 0x2F => some (intEntry r (r.m.toNat < 4) ty32 false true .b (.val 1) .no (.val 1) .no
      (some (.lcadv r.k r.dst (r.m.setWidth 2) r.opd)))
  | _ => none

/-- REP (03 R107, Table 3.6). -/
def eRep (r : Raw) : Entry :=
  let x : RepX := ⟨r.imm7, r.x.extractLsb' 4 3, r.x.getLsbD 3, r.x.getLsbD 2, r.x.getLsbD 1, r.x.getLsbD 0⟩
  let any := x.ec || x.eb || x.ea || x.ed
  { d := .no, a := .no, b := .no, c := .no, lit := .b, i := some (.rep x)
    chk := [(4, r.m != 0 || r.k != 0 || r.d != 0 || r.x.extractLsb' 15 4 != 0), (11, r.isLit),
            (3, !r.isLit && (x.n.toNat < 1 || 32 < x.n.toNat || r.x.getLsbD 7 || any != (x.step != 0)))] }

/-- 0x30-0x3F (03 Table 3.2). -/
def entryInt3 (r : Raw) : Option Entry :=
  let w := r.ity.words
  let z := r.m == 0
  match r.op.toNat with
  | 0x30 => some (intEntry r z ty32 false true .req .no .no .no .no (some (.bra r.k r.v)))
  | 0x31 => some (intEntry r z ty32 false true .no .no (.val 2) .no .no (some (.brx r.k r.srcA)))
  | 0x32 =>
    if r.m == 1 then
      some (intEntry r true ty32 false true .no (.val 2) (.val 2) .no .no (some (.callX r.k r.dst r.srcA)))
    else some (intEntry r z ty32 false true .req (.val 2) .no .no .no (some (.call r.k r.dst r.v)))
  | 0x33 => some (intEntry r z ty32 false true .no .no (.val 2) .no .no (some (.ret r.k r.srcA)))
  | 0x34 => some (intEntry r z ty32 false true .no .no .no .no .no (some (.exit r.k)))
  | 0x35 => some (eIBin r (LMode.ofCode r.m).isSome allTy false w 1 ((LMode.ofCode r.m).map (.lshf · r.ibin)))
  | 0x36 => some (eIBin r z allTy false w 1 (some (.lbfl r.ibin)))
  | 0x37 =>
    if r.m == 1 then
      some (intEntry r true allTy false true .no (.val w) (.val w) .no .no
        (some (.lprev r.k r.dst r.srcA none r.ity)))
    else some (intEntry r z allTy false true .b (.val w) (.val w) (.val w) .no
      (some (.lprev r.k r.dst r.srcA (some r.opd) r.ity)))
  | 0x38 =>
    let op := ScanOp.ofCode (r.m.setWidth 3)
    some (intEntry r (op.isSome && !r.m.getLsbD 4) allTy (op == some .add) true .no (.val w) (.val w) .no .no
      (op.map fun o => .lscan o (r.m.getLsbD 3) r.iun))
  | 0x39 =>
    let op := ScanOp.ofCode (r.m.setWidth 3)
    some (intEntry r (op.isSome && r.m.toNat < 8) allTy (op == some .add) true .no (.val w) (.val w) .no .no
      (op.map fun o => .lred o r.iun))
  | 0x3A => some (intEntry r (VoteOp.ofCode r.m).isSome allTy false true .no
      (.val (if VoteOp.ofCode r.m == some .ballot then 1 else w)) (.val w) .no .no
      ((VoteOp.ofCode r.m).map (.vote · r.iun)))
  | 0x3B => some (intEntry r z ty32 false true .no (.val 1) .no .no .no (some (.elect r.k r.dst)))
  | 0x3F => some (eRep r)
  | _ => none

/-- Entry of 04 Table 4.3; `t2` says that type2 is read. -/
def fpEntry (r : Raw) (modOk : Bool) (ty : FpTy → Bool) (rounds ftz t2 : Bool) (lit : LitRule)
    (d a b c : Role) (i : Option Instr) (three : Bool := false) : Entry where
  d := d; a := a; b := b; c := c; lit := lit; i := i
  chk := [(2, !modOk),
          (3, (match FpTy.ofCode r.ftyCode with | none => true | some t => !ty t)
               || (Rnd.ofCode r.rnd).isNone || (r.rnd != 0 && !rounds) || (r.ftz && !ftz) || three),
          (4, r.imm8 != 0 || (!t2 && r.ty2 != 0))]

def Raw.fty (r : Raw) : FpTy := (FpTy.ofCode r.ftyCode).getD .f32
def Raw.rmode (r : Raw) : Rnd := (Rnd.ofCode r.rnd).getD .rne
def Raw.fun_ (r : Raw) : FUn := ⟨r.k, r.dst, r.srcA, r.fty, r.rmode, r.ftz⟩
def Raw.fbin (r : Raw) : FBin := ⟨r.k, r.dst, r.srcA, r.opd, r.fty, r.rmode, r.ftz⟩
def Raw.fter (r : Raw) : FTer := ⟨r.k, r.dst, r.srcA, r.srcB, r.srcC, r.fty, r.rmode, r.ftz⟩

def allFp (_ : FpTy) : Bool := true
def sfuTy (t : FpTy) : Bool := t == .f32 || t == .f16 || t == .bf16

def eFBin (r : Raw) (modOk : Bool) (ty : FpTy → Bool) (rounds : Bool) (dw : Nat) (i : Option Instr) : Entry :=
  fpEntry r modOk ty rounds true false .b (.val dw) (.val r.fty.words) (.val r.fty.words) .no i
def eFUn (r : Raw) (modOk : Bool) (ty : FpTy → Bool) (rounds ftz : Bool) (dw : Nat) (i : Option Instr) : Entry :=
  fpEntry r modOk ty rounds ftz false .no (.val dw) (.val r.fty.words) .no .no i

def eCvt (r : Raw) : Entry :=
  let t := FpTy.ofCode r.ftyCode
  let t2 := NumTy.ofCode r.ty2
  let toFp := r.m == 0
  let dt : Option NumTy := if toFp then t.map .fp else t2
  let st : Option NumTy := if toFp then t2 else t.map .fp
  let t2ok := match t2 with | some (.fp f) => toFp && f.scalar | some (.int _) => true | none => false
  fpEntry r (r.m.toNat < 2) FpTy.scalar true true true .no
    (.val ((dt.map NumTy.words).getD 1)) (.val ((st.map NumTy.words).getD 1)) .no .no
    (dt.bind fun d => st.map fun s => .cvt r.k r.dst r.srcA d s r.rmode r.ftz) (!t2ok)

def eFpack (r : Raw) : Entry :=
  let t2 := FpTy.ofCode (r.ty2.setWidth 3)
  let t := r.fty
  let hiBad := r.ty2.getLsbD 3
  let wide : FpTy → Bool := fun t => t == .f32 || t == .f64
  let packed : FpTy → Bool := fun t => t == .f16x2 || t == .bf16x2
  if r.m == 0 then
    let w := if t2 == some .f64 then 2 else 1
    fpEntry r true packed true true true .no (.val 1) (.val w) (.val w) .no
      (some (.fpackPack r.k r.dst r.srcA r.srcB (t == .bf16x2) (t2 == some .f64) r.rmode r.ftz))
      (hiBad || !((t2.map wide).getD false))
  else
    fpEntry r (r.m.toNat < 3) wide false true true .no (.val t.words) (.val 1) .no .no
      (some (.fpackUnpack (r.m == 2) r.k r.dst r.srcA (t == .f64) (t2 == some .bf16x2) r.ftz))
      (hiBad || !((t2.map packed).getD false))

/-- 0x40-0x5F (04 Table 4.3). -/
def entryFp (r : Raw) : Option Entry :=
  let w := r.fty.words
  let z := r.m == 0
  match r.op.toNat with
  | 0x40 => some (eFBin r z allFp true w (some (.fadd r.fbin)))
  | 0x41 => some (eFBin r z allFp true w (some (.fsub r.fbin)))
  | 0x42 => some (eFBin r z allFp true w (some (.fmul r.fbin)))
  | 0x43 => some (fpEntry r z allFp true true false .no (.val w) (.val w) (.val w) (.val w) (some (.ffma r.fter)))
  | 0x44 => some (eFBin r z allFp false w (some (.fmin r.fbin)))
  | 0x45 => some (eFBin r z allFp false w (some (.fmax r.fbin)))
  | 0x46 => some (eFBin r z allFp false w (some (.fminn r.fbin)))
  | 0x47 => some (eFBin r z allFp false w (some (.fmaxn r.fbin)))
  | 0x48 => some (eFBin r (FPred.ofCode r.m).isSome allFp false 1 ((FPred.ofCode r.m).map (.fcmp · r.fbin)))
  | 0x49 => some (eFUn r z FpTy.scalar false false 1 (some (.fcls r.fun_)))
  | 0x4A => some (eFUn r (r.m.toNat < 2) allFp true true w (some (.frnd (r.m == 1) r.fun_)))
  | 0x4B => some (eFBin r z FpTy.scalar true w (some (.fdiv r.fbin)))
  | 0x4C => some (eFUn r z FpTy.scalar true true w (some (.fsqrt r.fun_)))
  | 0x4D => some (eCvt r)
  | 0x4E => some (eFpack r)
  | 0x4F => some (fpEntry r z (fun t => t == .f16x2 || t == .bf16x2) true true false .no
      (.val 1) (.val 1) (.val 1) (.val 1) (some (.fdot2 r.fter)))
  | 0x50 => some (eFUn r z sfuTy false true 1 (some (.frcp r.fun_)))
  | 0x51 => some (eFUn r z sfuTy false true 1 (some (.frsq r.fun_)))
  | 0x52 => some (eFUn r z sfuTy false true 1 (some (.fexp2 r.fun_)))
  | 0x53 => some (eFUn r z sfuTy false true 1 (some (.flog2 r.fun_)))
  | 0x54 => some (eFUn r z sfuTy false true 1 (some (.fsinp r.fun_)))
  | 0x55 => some (eFUn r z sfuTy false true 1 (some (.fcosp r.fun_)))
  | 0x56 => some (eFUn r z sfuTy false true 1 (some (.ftanh r.fun_)))
  | 0x58 => some (fpEntry r z (· == .f32) false false false .no (.val 1) .no .no .no (some (.fstr r.k r.dst)))
  | 0x59 => some (fpEntry r (FstwOp.ofCode r.m).isSome (· == .f32) false false false .a (.val 1) (.val 1) .no .no
      ((FstwOp.ofCode r.m).map fun o =>
        .fstw o r.k r.dst (if r.isLit then .lit r.v else .src r.srcA)))
  | _ => none

/-- The memory class extension, if its codes are assigned. -/
def Raw.memx (r : Raw) : Option MemX :=
  (Space.ofCode (r.x3 16)).bind fun sp => (Req.ofCode (r.x3 13)).bind fun rq => (Size.ofCode (r.x3 5)).map fun sz =>
    ⟨sp, rq, Scope.ofCode (r.x3 10), Order.ofCode (r.x.extractLsb' 8 2), sz⟩

/-- Entry with the memory class extension: `ok` is the entry's columns, `sx` that bit 4 may be set. -/
def memEntry (r : Raw) (modOk : Bool) (ok : MemX → Bool) (sx : Bool) (d a b c : Role)
    (mk : MemX → Instr) (more : List (Nat × Bool) := []) : Entry where
  d := d; a := a; b := b; c := c; lit := .no; i := r.memx.map mk
  chk := [(2, !modOk), (3, match r.memx with | none => true | some x => !ok x),
          (4, r.x.extractLsb' 0 4 != 0 || (!sx && r.x.getLsbD 4))] ++ more

def Raw.size (r : Raw) : Size := (Size.ofCode (r.x3 5)).getD .b8
def Raw.wD (r : Raw) : BitVec 5 := winOf r.d
def Raw.wA (r : Raw) : BitVec 5 := winOf r.a
def Raw.wB (r : Raw) : BitVec 5 := winOf r.b
def Raw.wC (r : Raw) : BitVec 5 := winOf r.c
def Raw.vun (r : Raw) : VUn := ⟨r.k, r.wD, r.wA⟩
def Raw.vbin (r : Raw) : VBin := ⟨r.k, r.wD, r.wA, r.wB⟩

/-- Entry of 05 Table 5.9 other than VLD, VST and VCVT: no class extension; a nonzero imm8 is a field that is not used,
detail 4, and no code that is not listed (log 114). -/
def vlfEntry (r : Raw) (modOk : Bool) (d a b c : Role) (i : Option Instr) : Entry where
  d := d; a := a; b := b; c := c; lit := .no; i := i
  chk := [(2, !modOk), (4, r.x != 0)]

/-- VCVT (05 R150).  The model's own choice (log 132): a bit of its extension that is no listed code has detail 3. -/
def eVcvt (r : Raw) : Entry :=
  let t := (NumTy.ofCode (r.x.extractLsb' 0 4)).filter NumTy.lane
  let rm := Rnd.ofCode (r.x3 4)
  let w := (t.map NumTy.words).getD 1
  let tov := r.m == 0
  { d := if tov then .win 2 else .val w, a := if tov then .val w else .win 2, b := .no, c := .no, lit := .no
    i := t.bind fun t => rm.map fun rm =>
      if tov then .vcvtTov r.k r.wD r.srcA t else .vcvtFromv r.k r.dst r.wA t rm
    chk := [(2, !(r.m.toNat < 2)),
            (3, t.isNone || rm.isNone || r.x.getLsbD 7 || (tov && r.x3 4 != 0)),
            (4, r.x.extractLsb' 8 11 != 0)] }

/-- 0x60-0x6F (05 Table 5.9). -/
def entryVlf (r : Raw) : Option Entry :=
  let z := r.m == 0
  let v2 := Role.win 2
  match r.op.toNat with
  | 0x60 => some (memEntry r z (fun x => x.loadOk && x.size == .b32) false v2 (.val 2) .no .no
      (fun x => .vld r.k r.wD r.srcA x))
  | 0x61 => some (memEntry r z (fun x => x.storeOk && x.size == .b32) false .no (.val 2) v2 .no
      (fun x => .vst r.k r.srcA r.wB x))
  | 0x62 => some (vlfEntry r z v2 v2 v2 .no (some (.vadd r.vbin)))
  | 0x63 => some (vlfEntry r z v2 v2 v2 .no (some (.vsub r.vbin)))
  | 0x64 => some (vlfEntry r z v2 v2 v2 .no (some (.vmul r.vbin)))
  | 0x65 => some (vlfEntry r z v2 v2 v2 v2 (some (.vfma r.k r.wD r.wA r.wB r.wC)))
  | 0x66 => some (vlfEntry r z v2 v2 v2 .no (some (.vdiv r.vbin)))
  | 0x67 => some (vlfEntry r z v2 v2 .no .no (some (.vsqrt r.vun)))
  | 0x68 => some (vlfEntry r (FPred.ofCode r.m).isSome (.val 1) v2 v2 .no
      ((FPred.ofCode r.m).map (.vcmp · r.k r.dst r.wA r.wB)))
  | 0x69 => some (eVcvt r)
  | 0x6A => some (vlfEntry r (r.m.toNat < 2) v2 v2 .no .no
      (some (if r.m == 0 then .vrndInt r.vun else .vrndFit r.vun)))
  | 0x6B => some (vlfEntry r z (.val 1) v2 .no .no (some (.vexpo r.k r.dst r.wA)))
  | 0x6C => some (vlfEntry r (r.m.toNat < 2) (.val 1) v2 .no .no
      (some (if r.m == 0 then .vlen r.k r.dst r.wA else .vlenBytes r.k r.dst r.wA)))
  | 0x6D => some (vlfEntry r z v2 v2 (.val 1) .no (some (.vscale r.k r.wD r.wA r.srcB)))
  | 0x6E => some (vlfEntry r z (.val 1) .no .no .no (some (.precr r.k r.dst)))
  | 0x6F => some (vlfEntry r (r.m.toNat < 2) (.val 1) (.val 1) .no .no
      (some (if r.m == 0 then .precw r.k r.dst r.srcA else .precwLen r.k r.dst r.srcA)))
  | _ => none

/-- A fixed memory class extension, of which only what `x` leaves free may differ. -/
def plainX (sp : Space) (sz : Size) (x : MemX) : Bool :=
  x.space == sp && x.size == sz && x.order == .relaxed && x.scope == .grp

def eMemValue (r : Raw) : Role :=
  if r.size == .b128 || r.size == .b256 then .win r.size.words else .val r.size.words

/-- 0x70-0x7C (06 Table 6.4). -/
def entryMem (r : Raw) : Option Entry :=
  let z := r.m == 0
  let a := Role.val 2
  let v := eMemValue r
  match r.op.toNat with
  | 0x70 => some (memEntry r z (fun x => x.loadOk && x.size != .b512 && (!r.x.getLsbD 4 || x.size == .b8 || x.size == .b16))
      true v a .no .no (fun x => .ld r.k r.dst r.srcA x (r.x.getLsbD 4)))
  | 0x71 => some (memEntry r z (fun x => x.storeOk && x.size != .b512) false .no a v .no (fun x => .st r.k r.srcA r.srcB x))
  | 0x72 => some (memEntry r z (fun x => x.loadOk && x.space != .l && (x.size == .b32 || x.size == .b64)) false v a .no .no
      (fun x => .ldv r.k r.dst r.srcA x))
  | 0x73 => some (memEntry r z (fun x => x.storeOk && x.space != .l && (x.size == .b32 || x.size == .b64)) false .no a v .no
      (fun x => .stv r.k r.srcA r.srcB x))
  | 0x74 =>
    let isV := r.m.getLsbD 1
    let det := r.m.getLsbD 0
    some (memEntry r (r.m.toNat < 4) (fun x => x.addOk .acq (if isV then [.b32] else [.b16, .b32, .b64])) false
      (if isV then .win 2 else v) a (if det then .no else .val 2) .no
      (fun x => match isV, det with
        | false, false => .ldtol r.k r.dst r.srcA r.srcB x
        | false, true => .ldtolDet r.k r.dst r.srcA x
        | true, false => .ldtolV r.k r.wD r.srcA r.srcB x
        | true, true => .ldtolDetV r.k r.wD r.srcA x))
  | 0x75 =>
    if r.m == 1 then
      some (memEntry r true (fun x => x.addOk .rel [.b32]) false .no a (.win 2) .no (fun x => .staddV r.k r.srcA r.wB x))
    else some (memEntry r z (fun x => x.addOk .rel [.b16, .b32, .b64]) false .no a v .no (fun x => .stadd r.k r.srcA r.srcB x))
  | 0x76 => some (memEntry r (r.m.toNat < 2) (fun x => plainX .g .b8 x && x.req == .own) false (.val 1)
      (if r.m == 1 then a else .no) .no .no
      (fun _ => if r.m == 1 then .drainR r.k r.dst r.srcA else .drain r.k r.dst))
  | 0x77 => some (memEntry r z (fun x => plainX .g .b8 x && (x.req == .own || x.req == .si || x.req == .nc)) false
      .no a .no .no (fun x => .pfx r.k r.srcA x.req))
  | 0x78 => some (memEntry r (r.m.toNat < 2) (fun x => plainX .g .b8 x && x.req == .own) false .no
      (if r.m == 1 then .no else a) .no .no (fun _ => if r.m == 1 then .invlSi r.k else .invlLine r.k r.srcA))
  | 0x79 => some { memEntry r (FenceOp.ofCode r.m).isSome
      (fun x => x.space == .l && x.req == .own && x.order == .relaxed && x.size == .b8) false .no .no .no .no
      (fun _ => .nop 0) with i := (FenceOp.ofCode r.m).map (.fence · r.k (Scope.ofCode (r.x3 10))) }
  | 0x7A => some (memEntry r z (fun x => x.tagOk .acq) false (.val 1) a .no .no (fun x => .ldbt r.k r.dst r.srcA x))
  | 0x7B => some (memEntry r z (fun x => x.tagOk .rel) false .no a (.val 1) .no (fun x => .stbt r.k r.srcA r.srcB x))
  | 0x7C => some (memEntry r z (fun x => plainX .g .b64 x && x.req == .own) false (.val 2) a .no .no
      (fun _ => .mapq r.k r.dst r.srcA))
  | _ => none

def blkEntry (r : Raw) (three : Bool) (four : Bool) (d a b c : Role) (i : Option Instr) : Entry where
  d := d; a := a; b := b; c := c; lit := .no; i := i
  chk := [(2, r.m != 0), (3, three), (4, four)]

def eCopy (r : Raw) (n : Nat) (mcast : Bool) (mk : CopyX → Instr) : Entry :=
  let ss := Space.ofCode (r.x3 16)
  let ds := Space.ofCode (r.x3 13)
  let cl := r.x3 7
  let cls : Option Space := clsOf cl
  blkEntry r (ss.isNone || ds.isNone || 4 < cl.toNat || (mcast && (ss == some .l || ds != some .c)))
    (r.x.extractLsb' 0 6 != 0) .no (.val 2) (.val 2) (.scl n)
    (ss.bind fun s => ds.map fun d =>
      mk ⟨r.k, r.srcA, r.srcB, sclOf r.c, s, d, Scope.ofCode (r.x3 10), cls, r.x.getLsbD 6⟩)

/-- A clasp instruction: `hasScope` that the scope field is used. -/
def eClasp (r : Raw) (hasScope : Bool) (d a b c : Role) (mk : Space → Instr) : Entry :=
  let ds := (Space.ofCode (r.x3 13)).filter (· != .l)
  blkEntry r ds.isNone (r.x3 16 != 0 || r.low10 != 0 || (!hasScope && r.x3 10 != 0)) d a b c (ds.map mk)

/-- 0x90-0x9B (09 Table 9.5).  The model's own choice (log 139): CLTEST with a scope and bit 0 clear has detail 3. -/
def entryBlk (r : Raw) : Option Entry :=
  let sc := Scope.ofCode (r.x3 10)
  match r.op.toNat with
  | 0x90 => some (eCopy r 2 false .copy)
  | 0x91 => some (eCopy r 3 false .copy2d)
  | 0x92 => some (eCopy r 4 false .copy3d)
  | 0x93 => some (eCopy r 3 true .copym)
  | 0x94 => some (blkEntry r false (r.x != 0) (.val 1) .no .no .no (some (.bseal r.k r.dst)))
  | 0x95 => some (blkEntry r (16 < (r.x.extractLsb' 0 5).toNat) (r.x.extractLsb' 5 14 != 0) .no .no .no .no
      (some (.bwait r.k (r.x.extractLsb' 0 5))))
  | 0x96 => some (eClasp r false .no (.val 2) (.val 1) (.val 2) (.clinit r.k r.srcA r.srcB r.srcC))
  | 0x97 => some (eClasp r false .no (.val 2) (.val 2) .no (.clexp r.k r.srcA r.srcB))
  | 0x98 => some (eClasp r true .no (.val 2) (.val 2) .no (.clarr r.k r.srcA r.srcB · sc))
  | 0x99 => some (eClasp r true (.val 2) (.val 2) (.val 1) .no (.clwait r.k r.dst r.srcA r.srcB · sc))
  | 0x9A =>
    let ds := (Space.ofCode (r.x3 13)).filter (· != .l)
    let acq := r.x.getLsbD 0
    some (blkEntry r (ds.isNone || (!acq && r.x3 10 != 0)) (r.x3 16 != 0 || r.x.extractLsb' 1 9 != 0) (.val 2) (.val 2) .no .no
      (ds.map fun d => .cltest r.k r.dst r.srcA d (if acq then some sc else none)))
  | 0x9B => some (eClasp r false .no (.val 2) .no .no (.clinv r.k r.srcA))
  | _ => none

def Raw.tileA (r : Raw) : TileF := ⟨r.a.setWidth 5, lcOf (r.x3 16)⟩
def Raw.tileB (r : Raw) : TileF := ⟨r.b.setWidth 5, lcOf (r.x3 13)⟩
def Raw.accF (r : Raw) : AccF := ⟨r.x.extractLsb' 0 9, lcOf (r.x3 10)⟩

/-- A loop-counter group that names a counter without its enable bit, or stands where there is no field
(11 R310; detail 4). -/
def lcBad (g : BitVec 3) (has : Bool) : Bool := g != 0 && !(has && g.getLsbD 2)

/-- A tile field: 32-127 is detail 3, a static number at or above the grant detail 10 (11 R311). -/
def tileBad (x : DecodeCtx) (f : BitVec 7) (g : BitVec 3) : List (Nat × Bool) :=
  [(3, 32 ≤ f.toNat), (10, !g.getLsbD 2 && x.tiles ≤ f.toNat)]

def mtxEntry (x : DecodeCtx) (r : Raw) (modOk three four : Bool) (ta tb acc : Bool) (d a b c : Role)
    (i : Option Instr) : Entry where
  d := d; a := if ta then .tile else a; b := if tb then .tile else b; c := c; lit := .no; i := i
  chk := [(2, !modOk), (3, three), (4, four || lcBad (r.x3 16) ta || lcBad (r.x3 13) tb || lcBad (r.x3 10) acc)]
    ++ (if ta then tileBad x r.a (r.x3 16) else []) ++ (if tb then tileBad x r.b (r.x3 13) else [])
  fix := if ta then [(3, 32 ≤ r.a.toNat)] else []

def eMma (x : DecodeCtx) (r : Raw) (mk : MmaX → Instr) : Entry :=
  mtxEntry x r (r.m == 0) false (r.x.getLsbD 9) true true true .no .no .no (.val 2)
    (some (mk ⟨r.k, r.accF, r.tileA, r.tileB, r.srcC⟩))

def eTileMem (x : DecodeCtx) (r : Raw) (mk : TileMemX → Instr) : Entry :=
  let sp := Space.ofCode (r.x3 7)
  let rq := r.x.extractLsb' 5 2
  let qm := r.x.extractLsb' 0 4
  mtxEntry x r (r.m.toNat < 2) (sp.isNone || 1 < rq.toNat || (rq != 0 && sp != some .g) || qm == 0) false true false false
    .no .no (.val 2) (.val 2)
    (sp.map fun s => mk ⟨r.k, r.tileA, r.srcB, r.srcC, s, rq == 1, r.x.getLsbD 4, qm, r.m == 1⟩)

def eAccMem (x : DecodeCtx) (r : Raw) (mk : AccMemX → Instr) : Entry :=
  let sp := Space.ofCode (r.m.setWidth 3)
  let rq : BitVec 2 := r.m.extractLsb' 3 2
  mtxEntry x r (sp.isSome && rq.toNat < 2 && (rq == 0 || sp == some .g)) false (r.x.getLsbD 9) false false true
    .no .no (.val 2) (.val 1)
    (sp.map fun s => mk ⟨r.k, r.accF, r.srcB, r.srcC, s, rq == 1⟩)

def eSlot (x : DecodeCtx) (r : Raw) (mk : SlotX → Instr) : Entry :=
  let clr := r.m == 1
  let sp := (Space.ofCode (r.x3 4)).filter fun s => s == .s || s == .p || s == .g
  mtxEntry x r (r.m.toNat < 2) (if clr then r.x3 4 != 0 else sp.isNone) (r.x3 7 != 0) false false false
    (.val 1) (if clr then .no else .val 2) .no .no
    (if clr then some (mk ⟨r.k, r.dst, none, r.x.extractLsb' 0 4⟩)
     else sp.map fun s => mk ⟨r.k, r.dst, some (r.srcA, s), r.x.extractLsb' 0 4⟩)

/-- 0xA0-0xAC (11 Table 11.1). -/
def entryMtx (x : DecodeCtx) (r : Raw) : Option Entry :=
  let z := r.m == 0
  let r5 := r.x.extractLsb' 0 5
  match r.op.toNat with
  | 0xA0 => some (eMma x r .mma)
  | 0xA1 => some (eMma x r .mmat)
  | 0xA2 => some (eMma x r .mmafx)
  | 0xA3 => some (eTileMem x r .tld)
  | 0xA4 => some (eTileMem x r .tst)
  | 0xA5 => some (mtxEntry x r z (r.x.extractLsb' 0 4 == 0) (r.x.extractLsb' 4 6 != 0) true false false .no .no .no .no
      (some (.tzero r.k r.tileA (r.x.extractLsb' 0 4))))
  | 0xA6 => some (eAccMem x r .accld)
  | 0xA7 => some (eAccMem x r .accst)
  | 0xA8 => some (mtxEntry x r z false (r.x.getLsbD 9) false false true .no .no (.val 1) .no
      (some (.accz r.k r.accF r.srcB)))
  | 0xA9 => some (mtxEntry x r z (16 < r5.toNat) (r.x.extractLsb' 5 5 != 0) false false false .no (.val 2) .no .no
      (some (.sclw r.k r.srcA r5)))
  | 0xAA => some (mtxEntry x r z (16 < r5.toNat) (r.x.extractLsb' 5 5 != 0) false false false (.val 2) .no .no .no
      (some (.sclr r.k r.dst r5)))
  | 0xAB => some (eSlot x r .popld)
  | 0xAC => some (eSlot x r .prepld)
  | _ => none

def smpEntry (r : Raw) (modOk three four ten : Bool) (d c : Role) (i : Option Instr) : Entry where
  d := d; a := .win 2; b := .scl 1; c := c; lit := .no; i := i
  chk := [(2, !modOk), (3, three), (4, four), (10, ten)]

def Raw.smpl (r : Raw) : SmplX :=
  ⟨r.k, r.wD, r.wA, sclOf r.b, r.x.getLsbD 18, r.x.extractLsb' 14 4, r.x.extractLsb' 10 4⟩

/-- 0xC0-0xC3 (12 Table 12.5). -/
def entrySmp (x : DecodeCtx) (r : Raw) : Option Entry :=
  let dw := Role.win (if r.x.getLsbD 18 then 2 else 4)
  let low := r.low10 != 0
  match r.op.toNat with
  | 0xC0 => some (smpEntry r (r.m == 0) false low false dw .no (some (.smpl r.smpl)))
  | 0xC1 =>
    let src := LodSrc.ofCode r.m
    let tt := r.x.extractLsb' 8 5
    let wt := r.x.extractLsb' 3 5
    some (smpEntry r src.isSome (tt == wt) (r.x.extractLsb' 0 2 != 0) (x.tiles ≤ tt.toNat || x.tiles ≤ wt.toNat) (.val 2)
      (match src with | some .lod => .val 1 | some .grad => .win 4 | _ => .no)
      (src.map fun s => .smplg ⟨r.k, s, r.dst, r.wA, sclOf r.b, (if s == .quad then none else some r.srcC),
        r.x.getLsbD 18, r.x.extractLsb' 13 5, tt, wt, r.x.getLsbD 2⟩))
  | 0xC2 => some (smpEntry r (r.m.toNat < 2) false low false dw (if r.m == 1 then .win 4 else .val 1)
      (some (if r.m == 1 then .smpllGrad r.smpl r.wC else .smpllLod r.smpl r.srcC)))
  | 0xC3 =>
    let fromC := r.m.getLsbD 1
    some (smpEntry r (r.m.toNat < 4) false (low || r.x.getLsbD 18) false (.val 2) (if fromC then .val 1 else .no)
      (some (.sres ⟨r.k, r.dst, r.wA, sclOf r.b, (if fromC then some r.srcC else none), r.m.getLsbD 0,
        r.x.extractLsb' 14 4, r.x.extractLsb' 10 4⟩)))
  | _ => none

/-- The class extension of the atomics (13 R361). -/
def atmEntry (r : Raw) (modOk wideOnly relOnly : Bool) (d a b c : Role) (mk : AtomX → Option Instr) : Entry :=
  let sp := (Space.ofCode (r.x3 16)).filter fun s => s == .p || s == .g
  let sz := r.x3 5
  let o := Order.ofCode (r.x.extractLsb' 8 2)
  let sc := Scope.ofCode (r.x3 10)
  { d := d, a := a, b := b, c := c, lit := .no
    i := sp.bind fun s => mk ⟨s, sc, o, sz == 3⟩
    chk := [(2, !modOk),
            (3, sp.isNone || r.x3 13 != 0 || !(sz == 3 || (sz == 2 && !wideOnly)) || !scopeOk o sc
                 || (relOnly && !(o == .relaxed || o == .rel))),
            (4, r.x.extractLsb' 0 5 != 0)] }

/-- 0xC8-0xCE (13 Table 13.1). -/
def entryAtm (r : Raw) : Option Entry :=
  let w := Role.val (if r.x3 5 == 3 then 2 else 1)
  let a := Role.val 2
  let z := r.m == 0
  match r.op.toNat with
  | 0xC8 => some (atmEntry r (AtomOp.ofCode r.m).isSome false false w a w .no
      (fun x => (AtomOp.ofCode r.m).map (.atom · r.k r.dst r.srcA r.srcB x)))
  | 0xC9 => some (atmEntry r (AtomwOp.ofCode r.m).isSome true false a a (.val 1) (.val 1)
      (fun x => (AtomwOp.ofCode r.m).map (.atomw · r.k r.dst r.srcA r.srcB r.srcC x)))
  | 0xCA => some (atmEntry r (FatomOp.ofCode r.m).isSome false false w a w .no
      (fun x => (FatomOp.ofCode r.m).map (.fatom · r.k r.dst r.srcA r.srcB x)))
  | 0xCB => some (atmEntry r z false false w a w w (fun x => some (.acas r.k r.dst r.srcA r.srcB r.srcC x)))
  | 0xCC => some (atmEntry r z true false a a a .no (fun x => some (.enq r.k r.dst r.srcA r.srcB x)))
  | 0xCD => some (atmEntry r z true false a a .no .no (fun x => some (.deq r.k r.dst r.srcA x)))
  | 0xCE => some (atmEntry r z true true .no a a (.val 1) (fun x => some (.bnginit r.k r.srcA r.srcB r.srcC x)))
  | _ => none

def schEntry (r : Raw) (modOk three four : Bool) (lit : LitRule) (d a b c : Role) (i : Option Instr) : Entry where
  d := d; a := a; b := b; c := c; lit := lit; i := i
  chk := [(2, !modOk), (3, three), (4, four)]

/-- 0xD0-0xD4 and 0xF0-0xF6 (14 Table 14.12). -/
def entrySch (r : Raw) : Option Entry :=
  let z := r.m == 0
  let n := r.x.extractLsb' 0 3
  let csr := r.x.extractLsb' 0 12
  match r.op.toNat with
  | 0xD0 =>
    let cl := r.x3 7
    some (schEntry r z (!(cl == 0 || cl == 3 || cl == 4)) (r.x3 16 != 0 || r.x3 13 != 0 || r.x.extractLsb' 0 7 != 0) .no
      (.val 2) (.val 2) (.val 2) (.scl 4)
      (some (.launch ⟨r.k, r.dst, r.srcA, r.srcB, sclOf r.c, Scope.ofCode (r.x3 10), clsOf cl⟩)))
  | 0xD1 => some (schEntry r z false (r.x.extractLsb' 3 16 != 0) .no .no (.win 1) .no .no (some (.emit r.k r.wA n)))
  | 0xD2 =>
    let sp := (Space.ofCode (r.x3 16)).filter fun s => s == .s || s == .p || s == .g
    some (schEntry r z sp.isNone (r.x.extractLsb' 3 13 != 0) .no (.val 1) (.val 2) (.val 1) .no
      (sp.map fun s => .emitn r.k r.dst r.srcA r.srcB s n))
  | 0xD3 => some (schEntry r z false (r.x != 0) .no (.val 2) (.val 1) .no .no (some (.accgrow r.k r.dst r.srcA)))
  | 0xD4 => some (schEntry r z false (r.x.extractLsb' 3 16 != 0) .no .no (.win 1) (.val 2) .no (some (.relat r.k r.wA r.srcB n)))
  | 0xF0 => some (schEntry r z false (r.x != 0) .no .no .no .no .no (some (.nop r.k)))
  | 0xF1 => some (schEntry r z false (r.x != 0 || r.v.extractLsb' 16 16 != 0) .code .no .no .no .no
      (some (.trap r.k (r.v.setWidth 16))))
  | 0xF2 => some (schEntry r z false (r.x != 0) .no .no (.val 2) (.val 1) .no (some (.eret r.k r.srcA r.srcB)))
  | 0xF3 => some (schEntry r z (csr.toNat < 1 || 5 < csr.toNat) (r.x.extractLsb' 12 7 != 0) .no (.val 2) .no .no .no
      (some (.csrr r.k r.dst csr)))
  | 0xF4 => some (schEntry r z (csr.toNat != 4 && csr.toNat != 5) (r.x.extractLsb' 12 7 != 0) .no .no (.val 2) .no .no
      (some (.csrw r.k r.srcA csr)))
  | 0xF5 => some (schEntry r (r.m.toNat < 2) false (r.x != 0) .no (.val 2) .no .no .no
      (some (if r.m == 1 then .ptimeSkew r.k r.dst else .ptime r.k r.dst)))
  | 0xF6 => some (schEntry r z false (r.x != 0 || r.v.extractLsb' 16 16 != 0) .code .no .no .no .no
      (some (.bkpt r.k (r.v.setWidth 16))))
  | _ => none

/-- The opcode map (02 Table 2.7): none for an unassigned opcode. -/
def entry (x : DecodeCtx) (r : Raw) : Option Entry :=
  let n := r.op.toNat
  if n < 0x20 then entryInt0 r
  else if n < 0x30 then entryInt2 r
  else if n < 0x40 then entryInt3 r
  else if n < 0x60 then entryFp r
  else if n < 0x70 then entryVlf r
  else if n < 0x80 then entryMem r
  else if n < 0xA0 then entryBlk r
  else if n < 0xB0 then entryMtx x r
  else if n < 0xC8 then entrySmp x r
  else if n < 0xD0 then entryAtm r
  else entrySch r

/-- One word by itself: the instruction, or the detail code of its lowest failed check. -/
def decodeRaw (x : DecodeCtx) (r : Raw) : Except Nat Instr :=
  match entry x r with
  | none => .error 1
  | some e =>
    match lowest (wordChecks x r e) with
    | some d => .error d
    | none =>
      match e.i with
      | none => .error 3
      | some i => if i.wf then .ok i else .error 3

def decodeWith (x : DecodeCtx) (w : BitVec 64) : Except Nat Instr := decodeRaw x (Raw.ofWord w)

/-- A word decoded in the context that refuses no window and no tile. -/
def decodeWord (w : BitVec 64) : Except Nat Instr := decodeWith DecodeCtx.free w

/-- The bytes of a word as they lie in memory, and back (02 R50: little-endian). -/
def wordOfBytes : List Byte → Nat
  | [] => 0
  | b :: bs => b.toNat + 256 * wordOfBytes bs

def bytesOfNat : Nat → Nat → List Byte
  | 0, _ => []
  | n + 1, v => BitVec.ofNat 8 v :: bytesOfNat n (v / 256)

/-- The decoder over the bytes at an address: one instruction word of eight bytes, and the bytes after it. -/
def decodeBytes (x : DecodeCtx) (bs : List Byte) : Except Nat (Instr × List Byte) :=
  if bs.length < 8 then .error 1
  else (decodeWith x (BitVec.ofNat 64 (wordOfBytes (bs.take 8)))).map fun i => (i, bs.drop 8)

/-- The instruction of a word given as a number, laid out as memory holds it. -/
def decodeTableWord (nbits w : Nat) : Option Instr :=
  if nbits ≤ 64 then
    match decodeBytes DecodeCtx.free (bytesOfNat 8 (w % 2 ^ nbits)) with
    | .ok (i, _) => some i
    | .error _ => none
  else none

/-! ## Clauses (02 Table 2.1, R26-R33) -/

/-- A clause header. -/
structure Header where
  count : Nat
  cls : BitVec 3
  wait : BitVec 12
  setA : BitVec 4
  setB : BitVec 4
  yield : Bool
  elect : Bool
  rep : Bool
  deriving DecidableEq, Repr

def Header.ofWord (w : BitVec 64) : Header where
  count := (w.extractLsb' 59 5).toNat
  cls := w.extractLsb' 56 3
  wait := w.extractLsb' 44 12
  setA := w.extractLsb' 40 4
  setB := w.extractLsb' 36 4
  yield := w.getLsbD 35
  elect := w.getLsbD 34
  rep := w.getLsbD 33

/-- The lowest detail of the header's failed checks (details 4 to 7). -/
def headerDetail (w : BitVec 64) : Option Nat :=
  let h := Header.ofWord w
  let bad : BitVec 4 → Bool := fun f => 12 ≤ f.toNat && f.toNat < 15
  lowest [(4, w.extractLsb' 0 33 != 0),
          (5, h.count < 1 || 24 < h.count),
          (6, 2 < h.cls.toNat),
          (7, bad h.setA || bad h.setB || (h.setA == 15 && h.setB != 15) || (h.setA != 15 && h.setA == h.setB))]

/-- Opcodes whose instruction reports its completion into a flag (01 R18). -/
def flagOp (op : Nat) : Bool :=
  [0x60, 0x70, 0x72, 0x74, 0x76, 0x7A, 0x7C, 0x9A, 0xA0, 0xA1, 0xA2, 0xA3, 0xA4, 0xA6, 0xA7, 0xAA, 0xAB, 0xAC,
   0xC0, 0xC1, 0xC2, 0xC3, 0xC8, 0xC9, 0xCA, 0xCB, 0xCC, 0xCD, 0xD2].contains op
/-- Terminal instructions (02 R29). -/
def termOp (op : Nat) : Bool :=
  [0x30, 0x31, 0x32, 0x33, 0x34, 0x95, 0x99, 0xF1, 0xF2, 0xF6].contains op
/-- Team-wide instructions (01 R15). -/
def teamOp (op : Nat) : Bool := (0xA0 ≤ op && op ≤ 0xAC) || op == 0xD0 || op == 0xD3
/-- Opcodes that REP accepts (02 R30). -/
def repOp (op : Nat) : Bool := (0x50 ≤ op && op ≤ 0x56) || (0x60 ≤ op && op ≤ 0x6F)

/-- Word 2 of a clause with REP, in run `i`: the enabled fields stepped (03 R108). -/
def Raw.step (r : Raw) (x : RepX) (i : Nat) : Raw :=
  let n := BitVec.ofNat 7 (i * x.step.toNat)
  { r with
    d := if x.ed then r.d + n else r.d
    a := if x.ea then r.a + n else r.a
    t := match r.t with
      | .regs b c e => .regs (if x.eb then b + n else b) (if x.ec then c + n else c) e
      | t => t }

def srcRoleBad (x : DecodeCtx) (r : Role) (f : BitVec 7) : Bool := (srcBad x r f).any (·.2)
def dstRoleBad (x : DecodeCtx) (r : Role) (f : BitVec 7) : Bool := (dstBad x r f).any (·.2)

/-- Detail 9 of the stepped fields (03 R108): in every run an enabled field names a window, no number passes w31,
and every window meets R41. -/
def repBad (x : DecodeCtx) (rep : RepX) (r : Raw) : Bool :=
  match entry x r with
  | none => false
  | some e =>
    (List.range rep.n.toNat).any fun i =>
      let q := r.step rep i
      let past : BitVec 7 → Bool := fun f => 0x30 ≤ f.toNat + i * rep.step.toNat || !isWinCode f
      (rep.ed && (past r.d || dstRoleBad x e.d q.d))
        || (rep.ea && (past r.a || srcRoleBad x e.a q.a))
        || (rep.eb && (past r.b || srcRoleBad x e.b q.b))
        || (rep.ec && (past r.c || srcRoleBad x e.c q.c))

def decodeRep (x : DecodeCtx) (w : BitVec 64) : Option RepX :=
  match decodeWith x w with
  | .ok (.rep y) => some y
  | _ => none

/-- The lowest detail of word `i` (from 1) of a clause. -/
def clauseWordDetail (x : DecodeCtx) (h : Header) (first : BitVec 64) (i : Nat) (w : BitVec 64) : Option Nat :=
  let r := Raw.ofWord w
  let op := r.op.toNat
  let own : List (Nat × Bool) := match decodeWith x w with | .error d => [(d, true)] | .ok _ => []
  let known := (entry x r).isSome
  lowest (own ++
    [(6, known && ((0x70 ≤ op && op ≤ 0xD7 && h.cls != 1) || (0xF0 ≤ op && h.cls != 2))),
     (7, flagOp op && h.setA == 15),
     (8, termOp op && i != h.count),
     (9, op == 0x3F && (i != 1 || !h.rep)),
     (9, i == 1 && h.rep && (op != 0x3F || h.count < 2)),
     (9, i == 2 && h.rep && (!repOp op || (match decodeRep x first with | some y => repBad x y r | none => false))),
     (12, teamOp op && !h.elect)])

def clauseWordsDetail (x : DecodeCtx) (h : Header) (first : BitVec 64) : Nat → List (BitVec 64) → Option (Nat × Nat)
  | _, [] => none
  | i, w :: ws =>
    match clauseWordDetail x h first i w with
    | some d => some (i, d)
    | none => clauseWordsDetail x h first (i + 1) ws

/-- The first failed check of a clause, as (word index, detail); words in ascending order (02 R33). -/
def clauseDetail (x : DecodeCtx) (hw : BitVec 64) (ws : List (BitVec 64)) : Option (Nat × Nat) :=
  match headerDetail hw with
  | some d => some (0, d)
  | none => clauseWordsDetail x (Header.ofWord hw) (ws.headD 0) 1 ws

/-! ## The encoder -/

def mkRaw (op : BitVec 8) (k : BitVec 3) (m : BitVec 5) (d a : BitVec 7) (t : Tail) : Raw := ⟨op, k, m, d, a, t⟩

def boolExt (t : IntTy) : Bool := t == .i64

def encIUn (op : BitVec 8) (x : IUn) (m : BitVec 5 := 0) (i7 : BitVec 7 := 0) (i8 : BitVec 8 := 0) : Raw :=
  mkRaw op x.k m x.d.code x.a.code (.regs 0 0 (intX x.t x.sat i7 i8))
def encIBin (op : BitVec 8) (x : IBin) (m : BitVec 5 := 0) : Raw :=
  mkRaw op x.k m x.d.code x.a.code
    (match x.b with | .src b => .regs b.code 0 (intX x.t x.sat 0 0) | .lit v => .lit (boolExt x.t) v)
def encITer (op : BitVec 8) (x : ITer) (m : BitVec 5 := 0) : Raw :=
  mkRaw op x.k m x.d.code x.a.code (.regs x.b.code x.c.code (intX x.t x.sat 0 0))
def encFUn (op : BitVec 8) (x : FUn) (m : BitVec 5 := 0) : Raw :=
  mkRaw op x.k m x.d.code x.a.code (.regs 0 0 (fpX x.t x.r x.ftz 0))
def encFBin (op : BitVec 8) (x : FBin) (m : BitVec 5 := 0) : Raw :=
  mkRaw op x.k m x.d.code x.a.code
    (match x.b with | .src b => .regs b.code 0 (fpX x.t x.r x.ftz 0) | .lit v => .lit (x.t == .f64) v)
def encFTer (op : BitVec 8) (x : FTer) (m : BitVec 5 := 0) : Raw :=
  mkRaw op x.k m x.d.code x.a.code (.regs x.b.code x.c.code (fpX x.t x.r x.ftz 0))
def encVBin (op : BitVec 8) (x : VBin) : Raw :=
  mkRaw op x.k 0 (winCode x.d) (winCode x.a) (.regs (winCode x.b) 0 0)
def encVUn (op : BitVec 8) (x : VUn) (m : BitVec 5 := 0) : Raw :=
  mkRaw op x.k m (winCode x.d) (winCode x.a) (.regs 0 0 0)
def encCopy (op : BitVec 8) (x : CopyX) : Raw :=
  mkRaw op x.k 0 0 x.a.code (.regs x.b.code (sclCode x.n)
    (blkX x.src.code x.dst.code x.scope (clsCode x.cls ++ BitVec.ofBool x.tags ++ (0 : BitVec 6))))
def encMma (op : BitVec 8) (x : MmaX) : Raw :=
  mkRaw op x.k 0 0 (x.ta.n.setWidth 7) (.regs (x.tb.n.setWidth 7) x.c.code
    (mtxX x.ta.lc x.tb.lc x.acc.lc ((0 : BitVec 1) ++ x.acc.n)))
def encTileMem (op : BitVec 8) (x : TileMemX) : Raw :=
  mkRaw op x.k (if x.half then 1 else 0) 0 (x.t.n.setWidth 7) (.regs x.addr.code x.geom.code
    (mtxX x.t.lc none none (x.space.code ++ (0 : BitVec 1) ++ BitVec.ofBool x.nc ++ BitVec.ofBool x.tags ++ x.qm)))
def encAccMem (op : BitVec 8) (x : AccMemX) : Raw :=
  mkRaw op x.k ((0 : BitVec 1) ++ BitVec.ofBool x.nc ++ x.space.code) 0 0 (.regs x.addr.code x.n.code
    (mtxX none none x.acc.lc ((0 : BitVec 1) ++ x.acc.n)))
def encSlot (op : BitVec 8) (x : SlotX) : Raw :=
  match x.src with
  | none => mkRaw op x.k 1 x.d.code 0 (.regs 0 0 (mtxX none none none ((0 : BitVec 6) ++ x.slot)))
  | some (a, sp) => mkRaw op x.k 0 x.d.code a.code (.regs 0 0 (mtxX none none none ((0 : BitVec 3) ++ sp.code ++ x.slot)))
def smplBits (x : SmplX) : BitVec 19 := BitVec.ofBool x.half ++ x.ou ++ x.ov ++ (0 : BitVec 10)
def atomX (x : AtomX) : BitVec 19 :=
  x.space.code ++ (0 : BitVec 3) ++ x.scope.code ++ x.order.code ++ (if x.wide then (3 : BitVec 3) else 2) ++ (0 : BitVec 5)
def encMem (op : BitVec 8) (k : BitVec 3) (m : BitVec 5) (d a b : BitVec 7) (x : MemX) (sx : Bool := false) : Raw :=
  mkRaw op k m d a (.regs b 0 (memX x sx))
def encOpd (op : BitVec 8) (k : BitVec 3) (m : BitVec 5) (d : BitVec 7) (b : Opd) : Raw :=
  mkRaw op k m d 0 (match b with | .src b => .regs b.code 0 (intX .i32 false 0 0) | .lit v => .lit false v)
/-- The fixed memory class extension of DRAIN, PFX, INVL and MAPQ. -/
def gx (rq : Req) (sz : Size) : MemX := ⟨.g, rq, .grp, .relaxed, sz⟩

/-- The fields of an instruction's word; none for a step that is no instruction word. -/
def encodeRaw : Instr → Option Raw
  | .iadd x => some (encIBin 0x01 x) | .isub x => some (encIBin 0x02 x)
  | .iadc x => some (encITer 0x03 x) | .isbc x => some (encITer 0x04 x)
  | .imul x => some (encIBin 0x05 x) | .imulh x => some (encIBin 0x06 x) | .imad x => some (encITer 0x07 x)
  | .idiv x => some (encIBin 0x08 x) | .irem x => some (encIBin 0x09 x)
  | .iabs x => some (encIUn 0x0A x) | .ineg x => some (encIUn 0x0B x)
  | .imin x => some (encIBin 0x0C x) | .imax x => some (encIBin 0x0D x)
  | .icmp p x => some (encIBin 0x0E x p.code) | .isel x => some (encITer 0x0F x)
  | .and x => some (encIBin 0x10 x) | .or x => some (encIBin 0x11 x) | .xor x => some (encIBin 0x12 x)
  | .andn x => some (encIBin 0x13 x) | .not x => some (encIUn 0x14 x)
  | .shl x => some (encIBin 0x15 x) | .shrl x => some (encIBin 0x16 x) | .shra x => some (encIBin 0x17 x)
  | .rotl x => some (encIBin 0x18 x) | .fshl x => some (encITer 0x19 x)
  | .clz x => some (encIUn 0x20 x) | .ctz x => some (encIUn 0x21 x) | .popc x => some (encIUn 0x22 x)
  | .brev x => some (encIUn 0x23 x)
  | .bext x p n => some (encIUn 0x24 x 0 p n) | .bextR x => some (encIBin 0x24 x 1)
  | .bins k d a b t p n => some (mkRaw 0x25 k 0 d.code a.code (.regs b.code 0 (intX t false p n)))
  | .binsR x => some (encITer 0x25 x 1)
  | .bint k d a b c t => some (mkRaw 0x26 k (if c.isSome then 1 else 0) d.code a.code
      (.regs b.code (match c with | some c => c.code | none => 0) (intX t false 0 0)))
  | .bdin three x j => some (encIUn 0x27 x (if three then 1 else 0) 0 (j.setWidth 8))
  | .bperm x => some (encITer 0x28 x) | .blut hi x => some (encITer 0x29 x (if hi then 1 else 0))
  | .mov x => some (encIUn 0x2A x)
  | .movl k d w v => some (mkRaw 0x2B k 0 d.code 0 (.lit w v))
  | .movlHi k d v => some (mkRaw 0x2B k 1 d.code 0 (.lit false v))
  | .movs x => some (encIBin 0x2C x)
  | .kop op k d a kd kx ky => some (mkRaw 0x2D k op.code d.code a.code
      (.regs 0 0 (intX .i32 false ((0 : BitVec 1) ++ ky ++ kx) (kd.setWidth 8))))
  | .lcset k d lc b => some (encOpd 0x2E k (lc.setWidth 5) d.code b)
  | .lcadv k d lc b => some (encOpd 0x2F k (lc.setWidth 5) d.code b)
  | .bra k v => some (mkRaw 0x30 k 0 0 0 (.lit false v))
  | .brx k a => some (mkRaw 0x31 k 0 0 a.code (.regs 0 0 0))
  | .call k d v => some (mkRaw 0x32 k 0 d.code 0 (.lit false v))
  | .callX k d a => some (mkRaw 0x32 k 1 d.code a.code (.regs 0 0 0))
  | .ret k a => some (mkRaw 0x33 k 0 0 a.code (.regs 0 0 0))
  | .exit k => some (mkRaw 0x34 k 0 0 0 (.regs 0 0 0))
  | .lshf m x => some (encIBin 0x35 x m.code) | .lbfl x => some (encIBin 0x36 x)
  | .lprev k d a b t =>
    match b with
    | none => some (mkRaw 0x37 k 1 d.code a.code (.regs 0 0 (intX t false 0 0)))
    | some (.src b) => some (mkRaw 0x37 k 0 d.code a.code (.regs b.code 0 (intX t false 0 0)))
    | some (.lit v) => some (mkRaw 0x37 k 0 d.code a.code (.lit (boolExt t) v))
  | .lscan op e x => some (encIUn 0x38 x ((0 : BitVec 1) ++ BitVec.ofBool e ++ op.code))
  | .lred op x => some (encIUn 0x39 x (op.code.setWidth 5))
  | .vote m x => some (encIUn 0x3A x m.code)
  | .elect k d => some (mkRaw 0x3B k 0 d.code 0 (.regs 0 0 0))
  | .rep x => some (mkRaw 0x3F 0 0 0 0 (.regs 0 0 (intX .i32 false x.n ((0 : BitVec 1) ++ x.step
      ++ BitVec.ofBool x.ec ++ BitVec.ofBool x.eb ++ BitVec.ofBool x.ea ++ BitVec.ofBool x.ed))))
  | .fadd x => some (encFBin 0x40 x) | .fsub x => some (encFBin 0x41 x) | .fmul x => some (encFBin 0x42 x)
  | .ffma x => some (encFTer 0x43 x)
  | .fmin x => some (encFBin 0x44 x) | .fmax x => some (encFBin 0x45 x)
  | .fminn x => some (encFBin 0x46 x) | .fmaxn x => some (encFBin 0x47 x)
  | .fcmp p x => some (encFBin 0x48 x p.code) | .fcls x => some (encFUn 0x49 x)
  | .frnd e x => some (encFUn 0x4A x (if e then 1 else 0))
  | .fdiv x => some (encFBin 0x4B x) | .fsqrt x => some (encFUn 0x4C x)
  | .cvt k d a dty sty r z =>
    match dty, sty with
    | .fp t, s => some (mkRaw 0x4D k 0 d.code a.code (.regs 0 0 (fpX t r z s.code)))
    | .int t, .fp s => some (mkRaw 0x4D k 1 d.code a.code (.regs 0 0 (fpX s r z (NumTy.int t).code)))
    | .int _, .int _ => none
  | .fpackPack k d a b bf w r z => some (mkRaw 0x4E k 0 d.code a.code
      (.regs b.code 0 (fpX (if bf then .bf16x2 else .f16x2) r z (if w then 1 else 0))))
  | .fpackUnpack hi k d a w bf z => some (mkRaw 0x4E k (if hi then 2 else 1) d.code a.code
      (.regs 0 0 (fpX (if w then .f64 else .f32) .rne z (if bf then 5 else 4))))
  | .fdot2 x => some (encFTer 0x4F x)
  | .frcp x => some (encFUn 0x50 x) | .frsq x => some (encFUn 0x51 x) | .fexp2 x => some (encFUn 0x52 x)
  | .flog2 x => some (encFUn 0x53 x) | .fsinp x => some (encFUn 0x54 x) | .fcosp x => some (encFUn 0x55 x)
  | .ftanh x => some (encFUn 0x56 x)
  | .fstr k d => some (mkRaw 0x58 k 0 d.code 0 (.regs 0 0 0))
  | .fstw m k d a =>
    match a with
    | .src a => some (mkRaw 0x59 k m.code d.code a.code (.regs 0 0 0))
    | .lit v => some (mkRaw 0x59 k m.code d.code 0 (.lit false v))
  | .vld k d a x => some (encMem 0x60 k 0 (winCode d) a.code 0 x)
  | .vst k a b x => some (encMem 0x61 k 0 0 a.code (winCode b) x)
  | .vadd x => some (encVBin 0x62 x) | .vsub x => some (encVBin 0x63 x) | .vmul x => some (encVBin 0x64 x)
  | .vfma k d a b c => some (mkRaw 0x65 k 0 (winCode d) (winCode a) (.regs (winCode b) (winCode c) 0))
  | .vdiv x => some (encVBin 0x66 x) | .vsqrt x => some (encVUn 0x67 x)
  | .vcmp p k d a b => some (mkRaw 0x68 k p.code d.code (winCode a) (.regs (winCode b) 0 0))
  | .vcvtTov k d a t => some (mkRaw 0x69 k 0 (winCode d) a.code (.regs 0 0 (t.code.setWidth 19)))
  | .vcvtFromv k d a t r => some (mkRaw 0x69 k 1 d.code (winCode a)
      (.regs 0 0 ((0 : BitVec 12) ++ r.code ++ t.code)))
  | .vrndInt x => some (encVUn 0x6A x) | .vrndFit x => some (encVUn 0x6A x 1)
  | .vexpo k d a => some (mkRaw 0x6B k 0 d.code (winCode a) (.regs 0 0 0))
  | .vlen k d a => some (mkRaw 0x6C k 0 d.code (winCode a) (.regs 0 0 0))
  | .vlenBytes k d a => some (mkRaw 0x6C k 1 d.code (winCode a) (.regs 0 0 0))
  | .vscale k d a b => some (mkRaw 0x6D k 0 (winCode d) (winCode a) (.regs b.code 0 0))
  | .precr k d => some (mkRaw 0x6E k 0 d.code 0 (.regs 0 0 0))
  | .precw k d a => some (mkRaw 0x6F k 0 d.code a.code (.regs 0 0 0))
  | .precwLen k d a => some (mkRaw 0x6F k 1 d.code a.code (.regs 0 0 0))
  | .ld k d a x sx => some (encMem 0x70 k 0 d.code a.code 0 x sx)
  | .st k a b x => some (encMem 0x71 k 0 0 a.code b.code x)
  | .ldv k d a x => some (encMem 0x72 k 0 d.code a.code 0 x)
  | .stv k a b x => some (encMem 0x73 k 0 0 a.code b.code x)
  | .ldtol k d a b x => some (encMem 0x74 k 0 d.code a.code b.code x)
  | .ldtolDet k d a x => some (encMem 0x74 k 1 d.code a.code 0 x)
  | .ldtolV k d a b x => some (encMem 0x74 k 2 (winCode d) a.code b.code x)
  | .ldtolDetV k d a x => some (encMem 0x74 k 3 (winCode d) a.code 0 x)
  | .stadd k a b x => some (encMem 0x75 k 0 0 a.code b.code x)
  | .staddV k a b x => some (encMem 0x75 k 1 0 a.code (winCode b) x)
  | .drain k d => some (encMem 0x76 k 0 d.code 0 0 (gx .own .b8))
  | .drainR k d a => some (encMem 0x76 k 1 d.code a.code 0 (gx .own .b8))
  | .pfx k a r => some (encMem 0x77 k 0 0 a.code 0 (gx r .b8))
  | .invlLine k a => some (encMem 0x78 k 0 0 a.code 0 (gx .own .b8))
  | .invlSi k => some (encMem 0x78 k 1 0 0 0 (gx .own .b8))
  | .fence m k sc => some (encMem 0x79 k m.code 0 0 0 ⟨.l, .own, sc, .relaxed, .b8⟩)
  | .ldbt k d a x => some (encMem 0x7A k 0 d.code a.code 0 x)
  | .stbt k a b x => some (encMem 0x7B k 0 0 a.code b.code x)
  | .mapq k d a => some (encMem 0x7C k 0 d.code a.code 0 (gx .own .b64))
  | .copy x => some (encCopy 0x90 x) | .copy2d x => some (encCopy 0x91 x)
  | .copy3d x => some (encCopy 0x92 x) | .copym x => some (encCopy 0x93 x)
  | .bseal k d => some (mkRaw 0x94 k 0 d.code 0 (.regs 0 0 0))
  | .bwait k n => some (mkRaw 0x95 k 0 0 0 (.regs 0 0 (n.setWidth 19)))
  | .clinit k a b c sp => some (mkRaw 0x96 k 0 0 a.code (.regs b.code c.code (blkX 0 sp.code .grp 0)))
  | .clexp k a b sp => some (mkRaw 0x97 k 0 0 a.code (.regs b.code 0 (blkX 0 sp.code .grp 0)))
  | .clarr k a b sp sc => some (mkRaw 0x98 k 0 0 a.code (.regs b.code 0 (blkX 0 sp.code sc 0)))
  | .clwait k d a b sp sc => some (mkRaw 0x99 k 0 d.code a.code (.regs b.code 0 (blkX 0 sp.code sc 0)))
  | .cltest k d a sp acq => some (mkRaw 0x9A k 0 d.code a.code (.regs 0 0
      (match acq with | some sc => blkX 0 sp.code sc 1 | none => blkX 0 sp.code .grp 0)))
  | .clinv k a sp => some (mkRaw 0x9B k 0 0 a.code (.regs 0 0 (blkX 0 sp.code .grp 0)))
  | .mma x => some (encMma 0xA0 x) | .mmat x => some (encMma 0xA1 x) | .mmafx x => some (encMma 0xA2 x)
  | .tld x => some (encTileMem 0xA3 x) | .tst x => some (encTileMem 0xA4 x)
  | .tzero k t qm => some (mkRaw 0xA5 k 0 0 (t.n.setWidth 7) (.regs 0 0 (mtxX t.lc none none (qm.setWidth 10))))
  | .accld x => some (encAccMem 0xA6 x) | .accst x => some (encAccMem 0xA7 x)
  | .accz k acc n => some (mkRaw 0xA8 k 0 0 0 (.regs n.code 0 (mtxX none none acc.lc ((0 : BitVec 1) ++ acc.n))))
  | .sclw k a r => some (mkRaw 0xA9 k 0 0 a.code (.regs 0 0 (r.setWidth 19)))
  | .sclr k d r => some (mkRaw 0xAA k 0 d.code 0 (.regs 0 0 (r.setWidth 19)))
  | .popld x => some (encSlot 0xAB x) | .prepld x => some (encSlot 0xAC x)
  | .smpl x => some (mkRaw 0xC0 x.k 0 (winCode x.d) (winCode x.a) (.regs (sclCode x.b) 0 (smplBits x)))
  | .smplg x => some (mkRaw 0xC1 x.k x.src.code x.d.code (winCode x.a) (.regs (sclCode x.b)
      (match x.c with | some c => c.code | none => 0)
      (BitVec.ofBool x.hi ++ x.g ++ x.texel ++ x.weight ++ BitVec.ofBool x.fp16 ++ (0 : BitVec 2))))
  | .smpllLod x c => some (mkRaw 0xC2 x.k 0 (winCode x.d) (winCode x.a) (.regs (sclCode x.b) c.code (smplBits x)))
  | .smpllGrad x c => some (mkRaw 0xC2 x.k 1 (winCode x.d) (winCode x.a) (.regs (sclCode x.b) (winCode c) (smplBits x)))
  | .sres x => some (mkRaw 0xC3 x.k ((0 : BitVec 3) ++ BitVec.ofBool x.c.isSome ++ BitVec.ofBool x.record) x.d.code
      (winCode x.a) (.regs (sclCode x.b) (match x.c with | some c => c.code | none => 0)
      ((0 : BitVec 1) ++ x.ou ++ x.ov ++ (0 : BitVec 10))))
  | .atom op k d a b x => some (mkRaw 0xC8 k op.code d.code a.code (.regs b.code 0 (atomX x)))
  | .atomw op k d a b c x => some (mkRaw 0xC9 k op.code d.code a.code (.regs b.code c.code (atomX x)))
  | .fatom op k d a b x => some (mkRaw 0xCA k op.code d.code a.code (.regs b.code 0 (atomX x)))
  | .acas k d a b c x => some (mkRaw 0xCB k 0 d.code a.code (.regs b.code c.code (atomX x)))
  | .enq k d a b x => some (mkRaw 0xCC k 0 d.code a.code (.regs b.code 0 (atomX x)))
  | .deq k d a x => some (mkRaw 0xCD k 0 d.code a.code (.regs 0 0 (atomX x)))
  | .bnginit k a b c x => some (mkRaw 0xCE k 0 0 a.code (.regs b.code c.code (atomX x)))
  | .launch x => some (mkRaw 0xD0 x.k 0 x.d.code x.a.code (.regs x.b.code (sclCode x.n)
      (blkX 0 0 x.scope (clsCode x.cls ++ (0 : BitVec 7)))))
  | .emit k a n => some (mkRaw 0xD1 k 0 0 (winCode a) (.regs 0 0 (n.setWidth 19)))
  | .emitn k d a b sp n => some (mkRaw 0xD2 k 0 d.code a.code (.regs b.code 0 (sp.code ++ (0 : BitVec 13) ++ n)))
  | .accgrow k d a => some (mkRaw 0xD3 k 0 d.code a.code (.regs 0 0 0))
  | .relat k a b n => some (mkRaw 0xD4 k 0 0 (winCode a) (.regs b.code 0 (n.setWidth 19)))
  | .nop k => some (mkRaw 0xF0 k 0 0 0 (.regs 0 0 0))
  | .trap k c => some (mkRaw 0xF1 k 0 0 0 (.lit false (c.setWidth 32)))
  | .eret k a b => some (mkRaw 0xF2 k 0 0 a.code (.regs b.code 0 0))
  | .csrr k d c => some (mkRaw 0xF3 k 0 d.code 0 (.regs 0 0 (c.setWidth 19)))
  | .csrw k a c => some (mkRaw 0xF4 k 0 0 a.code (.regs 0 0 (c.setWidth 19)))
  | .ptime k d => some (mkRaw 0xF5 k 0 d.code 0 (.regs 0 0 0))
  | .ptimeSkew k d => some (mkRaw 0xF5 k 1 d.code 0 (.regs 0 0 0))
  | .bkpt k c => some (mkRaw 0xF6 k 0 0 0 (.lit false (c.setWidth 32)))
  | .clauseIssue .. | .storeQueueDeparture .. | .homeRequest .. | .recall .. | .l1Eviction ..
  | .shareRequest .. | .splitRequest .. | .shareGrant .. | .drainCombine .. | .drainAck ..
  | .toleranceRead .. | .flushMarkerGather .. | .operationComplete .. | .faultDelivery .. | .pageWalk ..
  | .copyComplete .. | .matrixAccept .. | .postStageRun .. | .atomicPerform ..
  | .queueDoorbell .. | .queueNop .. | .queueGridLaunch .. | .queueGraphLaunch .. | .queueWaitWord ..
  | .queueWritePtc .. | .queueQuiescePoint .. | .qstatHaltClear .. | .quiescePoint .. | .teamLaunch ..
  | .nodeTeamLaunch .. | .nodeCoalesceExpiry .. | .recordDelivery .. | .recordReleaseAtTime ..
  | .present .. | .teamRetire .. | .gridRetire .. | .hangLimitExpiry .. | .dbgactResume ..
  | .dbgactSkip .. | .dbgactKillGroup .. | .dbgactKillGrid .. | .preempt .. | .restore ..
  | .budgetPeriod | .clsbudWrite .. | .invalidateOnePage .. | .invalidateRange .. | .invalidateAll
  | .invalidateComplete | .regionInstall .. | .regionRemove .. | .xlpoolWrite ..
  | .memoryServiceCollapse .. | .requestTimeout .. | .flitReceive .. | .portEnable .. | .portDisable ..
  | .peerDetect .. | .trainingComplete .. | .trainingFail .. | .lossOfLock .. | .keyExchange ..
  | .rekey .. | .rekeyIntervalExpiry .. | .rekeyMarkerResend .. | .rekeyComplete .. | .orderlyReset ..
  | .resetComplete .. | .lostmapClear .. | .hostDataRead .. | .hostDataWrite .. | .hostTagRead ..
  | .hostTagWrite .. | .attestReport | .attestCertChain | .ptcCorrection .. | .timeExchange ..
  | .timeSyncLost .. | .ptcsetWrite .. | .uncorrectableError .. | .correctableError .. | .patrolRead
  | .powerThrottle .. | .monitorClear .. | .monitorTick | .powerOn .. | .registerWrite .. => none

/-- The word of an instruction. -/
def encode (i : Instr) : Option (BitVec 64) := (encodeRaw i).map Raw.toWord

end Sys2Proof
end

