-- ==== Sys2Proof/Machine/Store.lean ====
section
/-!
DEFINITION. The operations on a sparse store: reads of what is not listed give zero, and a write keeps the
canonical form (keys strictly rising, no zero cell).
-/

namespace Sys2Proof

/-- The cell at a key. -/
def Store.read {w : Nat} : Store w → Nat → BitVec w
  | [], _ => 0
  | (a, v) :: t, k => if a = k then v else Store.read t k

/-- The store without a key. -/
def Store.drop {w : Nat} : Store w → Nat → Store w
  | [], _ => []
  | (a, v) :: t, k => if a = k then Store.drop t k else (a, v) :: Store.drop t k

/-- A cell placed in key order. -/
def Store.place {w : Nat} (k : Nat) (v : BitVec w) : Store w → Store w
  | [] => [(k, v)]
  | (a, b) :: t => if k < a then (k, v) :: (a, b) :: t else (a, b) :: Store.place k v t

/-- A write. -/
def Store.write {w : Nat} (m : Store w) (k : Nat) (v : BitVec w) : Store w :=
  if v = 0 then Store.drop m k else Store.place k v (Store.drop m k)

/-- The canonical form. -/
def Store.wf {w : Nat} : Store w → Bool
  | [] => true
  | [(_, v)] => v != 0
  | (a, v) :: (b, u) :: t => v != 0 && decide (a < b) && Store.wf ((b, u) :: t)

/-- The canonical form of memory: addresses strictly rising, and no entry equal to what an unlisted address reads as
(log 2). -/
abbrev Memory.wf (m : Mem) : Bool := Store.wf m

/-- Cells `k`, `k + 1`, … written with a list of values. -/
def Store.writeList {w : Nat} (m : Store w) (k : Nat) : List (BitVec w) → Store w
  | [] => m
  | v :: vs => Store.writeList (Store.write m k v) (k + 1) vs

/-- `n` cells from `k`. -/
def Store.readList {w : Nat} (m : Store w) (k : Nat) : Nat → List (BitVec w)
  | 0 => []
  | n + 1 => Store.read m k :: Store.readList m (k + 1) n

/-- Keys in `[lo, hi)` cleared. -/
def Store.clear {w : Nat} (m : Store w) (lo hi : Nat) : Store w :=
  m.filter fun p => p.1 < lo || hi ≤ p.1

/-- Cells of a list, from key `k`, zeros left out. -/
def Store.cells {w : Nat} (k : Nat) : List (BitVec w) → Store w
  | [] => []
  | v :: vs => if v = 0 then Store.cells (k + 1) vs else (k, v) :: Store.cells (k + 1) vs

/-- `writeList` in one pass over the store. -/
def Store.blit {w : Nat} (m : Store w) (k : Nat) (l : List (BitVec w)) : Store w :=
  (m.filter fun p => p.1 < k) ++ Store.cells k l ++ m.filter fun p => k + l.length ≤ p.1

/-- The cells of `[lo, hi)`, moved down to start at 0. -/
def Store.slice {w : Nat} (m : Store w) (lo hi : Nat) : Store w :=
  (m.filter fun p => lo ≤ p.1 && p.1 < hi).map fun p => (p.1 - lo, p.2)

/-- A store laid over `m` with its keys moved up by `k`. -/
def Store.overlay {w : Nat} (m : Store w) (k : Nat) (t : Store w) : Store w :=
  t.foldl (fun acc p => Store.write acc (k + p.1) p.2) m

/-- Every lane's cell of a function, lanes 0 to 31. -/
def Store.ofLanes {w : Nat} (f : Nat → BitVec w) : Store w :=
  ((List.range 32).map fun l => (l, f l)).filter fun p => p.2 != 0

/-- A store of the listed values, from key 0. -/
def Store.ofList {w : Nat} (l : List (BitVec w)) : Store w := Store.writeList [] 0 l

end Sys2Proof
end

