-- ==== Sys2Proof/Machine/State.lean ====
section
/-!
DEFINITION. The state of one Wiphor device: the groups, teams and grids it runs, the command records of its
engines, its memories and caches, and the registers of its control die.  Plain data throughout.
The reasons a step can stop (`Fault`, `Refusal`) and the state right after reset stand at the end.
-/

namespace Sys2Proof.Machine

/-! ## Groups -/

/-- The clause a group is running (02 R26-R33; 03 R72: one at a time in a quadrant). -/
structure Run where
  /-- Address of the header. -/
  addr : BitVec 48
  hdr : Header
  words : List W64
  /-- The word that runs next, 1 to `hdr.count`. -/
  idx : Nat
  /-- Lanes whose LPC equalled the issue address at the start (03 R67). -/
  lanes : W32
  /-- REP in force on word 2, and the number of the run that comes next (03 R108). -/
  rep : Option RepX
  runNo : Nat
  /-- Flag-bound instructions bound so far (01 R18). -/
  bound : Nat
  /-- The word that runs next is held (03 R72). -/
  held : Bool
  /-- The clause has its quadrant's lane pipe: from its start on, but for a park or a wait in BWAIT or CLWAIT (03 R72). -/
  pipe : Bool
  deriving DecidableEq, Repr

/-- What a group waits for, or why it does not run (14 Table 14.9; ready and waiting are told apart by the
flags its next clause waits on). -/
inductive GState where
  | ready
  /-- BWAIT n (09 R263). -/
  | blockedBatch (n : Nat)
  /-- CLWAIT: the clasp's key in its space, the phase waited on and the scope of the acquire (09 R278). -/
  | blockedClasp (sp : Space) (addr : W64) (key : Nat) (phase : W64) (scope : Scope)
  /-- A page in state 5 met by a store check or a clause fetch (08 R240). -/
  | blockedPage (page : BitVec 32)
  | parked
  | exited
  deriving DecidableEq, Repr

/-- Who gives a parked group its action (14 R390, 08 R243). -/
inductive ParkRoute where
  | host (queue : Nat)
  | handler (grid : W64)
  | service
  | none
  deriving DecidableEq, Repr

/-- What a park keeps (14 R390, R391, R430). -/
structure ParkRec where
  cause : BitVec 8
  detail : BitVec 8
  word : BitVec 5
  run : BitVec 5
  issuing : BitVec 48
  current : BitVec 48
  /-- The cause's record as packed bytes, at most 768 (14 R391). -/
  record : List Byte
  /-- DPA of the image. -/
  image : BitVec 45
  /-- The commands whose records the image holds, and where in it (14 R391). -/
  recs : List (Nat × Nat)
  /-- The LPCs as the park wrote them (14 R430). -/
  lpcs : Store 48
  /-- The page of a fault routed to the memory service (08 R243). -/
  page : BitVec 48
  /-- The clause that could not start, for a park at its decode (02 R33): its fall-through address. -/
  past : Option (BitVec 48)
  /-- The state the park ended, to which a resume returns (14 R389). -/
  prior : GState
  route : ParkRoute
  deriving DecidableEq, Repr

structure LoopCtr where
  val : BitVec 5
  ring : BitVec 6
  deriving DecidableEq, Repr

/-- A request as it was sent over a link (15 R415, R416): its home, a die of a device, and its number there; the path of its
latest send, a scale-out port, 16 for the link between the dies or 31 where none leads there; the PTC of that send, and
LNKTO at its first. -/
structure Sent where
  home : Nat
  seq : BitVec 16
  path : Nat
  at_ : Nat
  lnkto : W64
  /-- The place of the latest send among all that is sent, and whether it has arrived: a path keeps its order (15 R416). -/
  stamp : Nat
  arrived : Bool
  /-- Path and place of each earlier send (15 R417). -/
  past : List (Nat × Nat)
  deriving DecidableEq, Repr

/-- Where a request has gone: its place among its requester's (07 R205), and the key and region of its address, which is
not translated again (08 R238). -/
structure Way where
  turn : Nat
  key : Nat
  region : Option (BitVec 12)
  deriving DecidableEq, Repr

/-- A clause fetch over a link (15 R414): as it was sent, its timeouts so far, whether it is lost, and the homes that have
answered for the clause. -/
structure FetchReq where
  sent : Sent
  timeouts : Nat
  lost : Bool
  got : List Nat
  deriving DecidableEq, Repr

/-- The home has answered. -/
def FetchReq.answered (f : FetchReq) : FetchReq :=
  { f with sent := { f.sent with arrived := true }, got := f.got ++ [f.sent.home], timeouts := 0 }

/-- A request of the control die that a link has lost (15 R414, R415): as it was sent, its timeouts so far, and whether it
is lost now. -/
structure CtlReq where
  sent : Sent
  timeouts : Nat
  lost : Bool
  deriving DecidableEq, Repr

/-- A group of 32 lanes (03 R66-R76). -/
structure Group where
  gid : Nat
  team : Nat
  /-- grpid; the quadrant is grpid mod 4 (03 R70). -/
  grpid : BitVec 4
  st : GState
  lpc : Store 48
  live : W32
  /-- The result queue, newest entry first, 16 rows by lane (02 R38). -/
  queue : List (Store 64)
  /-- Windows: word `w` of window `n` of lane `l` at key `(n * 9 + w) * 32 + l`. -/
  win : Store 32
  scal : Store 64
  /-- k1 to k7 at keys 1 to 7. -/
  masks : Store 32
  lc0 : LoopCtr
  lc1 : LoopCtr
  lc2 : LoopCtr
  lc3 : LoopCtr
  carry : W64
  prec : Store 32
  fpst : Store 32
  flags : BitVec 12
  sealedCnt : W32
  finishedCnt : W32
  hang : W32
  trace : W32
  /-- The PTC at which the present unbroken wait began (14 R389). -/
  since : Option Nat
  run : Option Run
  park : Option ParkRec
  /-- Place in the quadrant's issue list, ascending (03 R71). -/
  order : Nat
  /-- The yield hint was honoured at the end of the last clause (02 R32). -/
  yielded : Bool
  /-- The clause at the issue address was reached by a taken control transfer (02 R46, detail 13). -/
  jumped : W32
  /-- Pushes so far: with `Op.pushAt` it finds the queue entry of a flag-bound operation (02 R39). -/
  pushes : Nat
  /-- Dies and devices written since the last release at die scope or wider, as device × 2 + die (07 R206). -/
  touched : List Nat
  /-- The clause started last: the current clause of a group without a live lane (01 R22). -/
  last : BitVec 48
  /-- DPA of the image that a pre-emption wrote, until the restoration (14 R395). -/
  saved : Option (BitVec 45)
  /-- The value with which a CLWAIT returns, once its clasp has released the group (09 R265, R269). -/
  freed : Option W64
  /-- The fetch of its next clause, where it goes over a link. -/
  fetch : Option FetchReq
  /-- Its hang limit has run out within a clause: it parks at the clause's end (14 R389). -/
  hung : Bool
  deriving DecidableEq, Repr

/-- A field of a cause's record (14 R391): a number of so many bits, the group's current clause at delivery, or
an array of numbers. -/
inductive RecField where
  | num (bits val : Nat)
  | current
  | arr (bits : Nat) (vals : List Nat)
  deriving DecidableEq, Repr

/-- A fault that waits for its delivery, or is delivered at once (01 R22, 08 R249). -/
structure FaultRec where
  cause : BitVec 8
  detail : BitVec 8
  fields : List RecField
  /-- Lanes that faulted. -/
  lanes : W32
  /-- Routed to the memory service, with the page's address (08 R243). -/
  service : Option (BitVec 48)
  deriving DecidableEq, Repr

/-! ## Commands of the engines -/

/-- A captured operand (14 Table 14.16). -/
structure Cap where
  kind : Nat
  index : Nat
  lane : Nat
  value : W64
  deriving DecidableEq, Repr

/-- An installed commutative region (07 Table 7.3). -/
structure Region where
  n : BitVec 12
  base : W64
  len : W64
  fmt : Nat
  limbs : Nat
  order : Nat
  limit : W64
  deriving DecidableEq, Repr

/-- How far a part of a command has come: in the store queue; left it, with its place in the core store order
(07 R198); done; faulted. -/
inductive PartSt where
  | waiting
  | queued
  | departed (order : Nat)
  | done
  | faulted
  deriving DecidableEq, Repr

/-- One piece of one lane's access (07 R196), or one step of an engine's command. -/
structure Part where
  lane : Nat
  /-- The space, and the address of the lane's whole access in it. -/
  sp : Space
  addr : W64
  /-- The piece: its offset in the access and its bytes. -/
  off : Nat
  len : Nat
  /-- The first byte's key in memory, once translated (08 R236). -/
  key : Nat
  /-- The region, when the page is commutative. -/
  commut : Option Region
  st : PartSt
  /-- Times the request timed out; it, or its answer, was lost on a link; how it was sent, where a link lies on its way
  (15 R415). -/
  timeouts : Nat
  lostReq : Bool
  sent : Option Sent
  /-- Its way, from its first send, or its home's first recall, on. -/
  way : Option Way
  /-- Recalls sent for this part that have not returned (06 R171). -/
  recalls : Nat
  /-- The home has sent the recalls (06 R171, 07 R217). -/
  asked : Bool
  /-- The 64 KiB page in state 5 that the part waits on (08 R223, R240). -/
  held : Option (BitVec 32)
  deriving DecidableEq, Repr

/-- A command record (01 R17), from acceptance to completion.  Records stand in order of issue. -/
structure Op where
  id : Nat
  gid : Nat
  core : Nat
  clause : BitVec 48
  word : BitVec 5
  run : BitVec 5
  instr : Instr
  flag : Option (BitVec 4)
  /-- The batch a sealed copy belongs to (09 R261). -/
  batch : Option W32
  /-- The clasp of a copy: space and address (09 R264). -/
  clasp : Option (Space × W64)
  caps : List Cap
  /-- Lanes that executed the instruction. -/
  ex : W32
  /-- `Group.pushes` just after the instruction's own push. -/
  pushAt : Nat
  /-- Ranges of the range scoreboard: destination or source, first and last key (06 R174). -/
  ranges : List (Bool × Nat × Nat)
  parts : List Part
  /-- The next block of a copy, row of a tile transfer, or element of an engine's work. -/
  cursor : Nat
  /-- What the accesses of a post program have answered so far, in order (10 R302). -/
  log : List Nat
  /-- Bytes captured to be stored, or read and held until completion: byte `i` of lane `l` at key `64 * l + i`; an
  engine's own layout otherwise. -/
  buf : Store 8
  fault : Option FaultRec
  /-- How far the command has come, in its engine's own count; nonzero once it has performed. -/
  stage : Nat
  /-- PTC at issue, for the monitors (15 R427). -/
  at_ : Nat
  deriving DecidableEq, Repr

/-! ## Teams and grids -/

/-- A kernel object's header as read at the launch (02 R50). -/
structure KObj where
  base : W64
  entry : W64
  codeSize : W32
  dataSize : W32
  paramSize : Nat
  groups : Nat
  cluster : Nat
  flags : BitVec 16
  acc : Nat
  spad : Nat
  exportBytes : Nat
  tiles : Nat
  laneBytes : Nat
  prec : W32
  fpst : W32
  caps : List Nat
  deriving DecidableEq, Repr

structure Team where
  id : Nat
  grid : W64
  core : Nat
  /-- The core it started on, which its specials go on to name (02 R37, 14 R395). -/
  home : Nat
  x : W32
  y : BitVec 16
  z : BitVec 16
  clustrank : Nat
  /-- The cluster launch: linear index of its first team and its number of teams (14 R374). -/
  clBase : Nat
  clCount : Nat
  /-- Byte `b` of tile `t` of quadrant `q` at key `(q * 32 + t) * 2048 + b` (10 R283). -/
  tiles : Store 8
  /-- Half-word `h` of the sidecar of that tile at key `(q * 32 + t) * 32 + h` (10 R284). -/
  sidecars : Store 16
  /-- Byte `b` of accumulator unit `u` at key `u * 1024 + b` (10 R287). -/
  acc : Store 8
  /-- Units granted, counted from 0 (11 R313). -/
  accUnits : Nat
  tilePoison : List Nat
  accPoison : List Nat
  /-- Stage slots not rewritten since an error in the parameter memory: 0-15 pre, 16-31 post (10 R288). -/
  paramPoison : List Nat
  sc : Store 64
  mxst : W32
  /-- Word `w` of pre-operator slot `s` at key `8 * s + w`, of post-operator slot `s` at key `32 * s + w` (10 R298). -/
  preSlots : Store 32
  postSlots : Store 32
  /-- Slots that a PREPLD or POPLD has loaded. -/
  preLoaded : List Nat
  postLoaded : List Nat
  /-- Bases of the grants in the core's scratchpad and lane store, and of the exported part. -/
  spadBase : Nat
  expBase : Nat
  laneBase : Nat
  /-- Records of a node team by (group, lane): bytes (14 R378). -/
  records : List (List Byte)
  /-- Local memory saved by a pre-emption (14 R395), and whether the team is resident. -/
  resident : Bool
  savedSpad : Store 8
  savedExp : Store 8
  savedLane : Store 8
  /-- Poisoned blocks of the saved memory: region (0 scratchpad, 1 exported part, 2 lane store) and offset. -/
  savedMarks : List (Nat × Nat)
  /-- PTC of its die when the team was saved (14 R400). -/
  savedPtc : Nat
  retired : Bool
  deriving DecidableEq, Repr

/-- A grid, from its launch to its retirement (14 R374-R376, R397). -/
structure Grid where
  id : W64
  ko : KObj
  dimX : Nat
  dimY : Nat
  dimZ : Nat
  params : List W64
  cls : BitVec 3
  prio : BitVec 2
  depth : Nat
  /-- Queue and slot of a top-level grid, or of the grid at the root of this one. -/
  queue : Nat
  slot : W32
  /-- For a nested grid: the group, team and grid that launched it. -/
  parentGroup : Option Nat
  parentTeam : Option Nat
  parentGrid : Option W64
  handler : W64
  deadline : W64
  hang : W32
  clasp : Option (Space × W64)
  scope : Scope
  status : W64
  winFirst : Nat
  winCount : Nat
  /-- Linear index of the next team to start, and teams retired. -/
  nextTeam : Nat
  doneTeams : Nat
  killed : Option (BitVec 8 × BitVec 8)
  /-- A handler grid names the group it serves (14 R390). -/
  serves : Option Nat
  /-- A node's grid names its graph and node, and its level (14 R378, R386). -/
  node : Option (Nat × Nat)
  level : BitVec 2
  /-- Reads of the kernel object and parameters of a nested launch still to come (14 R397): its two addresses. -/
  pending : Option (W64 × W64)
  /-- The numbers of the team's own accesses that a nested start waits for (14 R376). -/
  gate : Nat
  /-- The LAUNCH that named a nested grid, for faults reported to its group (14 R397, R429). -/
  origin : Option Op
  deriving DecidableEq, Repr

/-! ## Work graphs -/

structure GNode where
  type : Nat
  recBytes : Nat
  variants : Nat
  ordered : Bool
  root : Bool
  coalesce : Nat
  outputs : List Nat
  kernels : List W64
  costs : List Nat
  paramAddr : W64
  paramSize : Nat
  hintCount : Nat
  hintList : W64
  /-- The level chosen at the first team (14 R386), and whether the node's hint list has been applied. -/
  level : Option (BitVec 2)
  hinted : Bool
  /-- The raster node's tiles and their sequence numbers, where they are not 0 (11 R327). -/
  tiles : List (W32 × W32)
  deriving DecidableEq, Repr

structure Graph where
  id : Nat
  queue : Nat
  slot : W32
  nodes : List GNode
  pool : Nat
  guardNs : Nat
  cls : BitVec 3
  prio : BitVec 2
  depth : Nat
  handler : W64
  deadline : W64
  floor : Nat
  hang : W32
  clasp : Option (Space × W64)
  status : W64
  winFirst : Nat
  winCount : Nat
  killed : Option (BitVec 8 × BitVec 8)
  deriving DecidableEq, Repr

/-- Where a record stands: not yet delivered, held for a time, or pending at its node. -/
inductive RecSt where
  | sent
  | held (t : W64)
  | pending (since : Nat)
  deriving DecidableEq, Repr

/-- A record (14 R377-R380). -/
structure Rec where
  id : Nat
  graph : Nat
  node : Nat
  data : List Byte
  st : RecSt
  /-- Commands of `gid` numbered below `gate` come before the emission (14 R380). -/
  gid : Nat
  gate : Nat
  team : Nat
  deriving DecidableEq, Repr

/-! ## Caches, hampers and messages -/

inductive LineSt where
  | si
  | shared
  | owned
  deriving DecidableEq, Repr

/-- A line of a core's L1 (06 R169). -/
structure L1Line where
  core : Nat
  blk : Nat
  st : LineSt
  data : Store 8
  dirty : BitVec 16
  deriving DecidableEq, Repr

/-- A hamper line (07 Table 7.4); partials by 32-bit word of its elements in
hamper arithmetic, trackers by element. -/
structure Hamper where
  core : Nat
  blk : Nat
  /-- The grant that made the line. -/
  line : Nat
  region : Region
  share : W64
  part : Store 32
  /-- Elements that a contribution has reached since the last drain. -/
  seen : BitVec 32
  track : Store 64
  draining : Bool
  deriving DecidableEq, Repr

/-- A holder of a block, by its core and the grant that made its line. -/
structure Holder where
  core : Nat
  line : Nat
  share : W64
  recalled : Bool
  deriving DecidableEq, Repr

/-- What a drain brings home: the elements it has sums for, and the sums. -/
structure Sums where
  seen : BitVec 32
  part : Store 32
  deriving DecidableEq, Repr

/-- A recalled holder's drain, gathered at the home: the grant that made its line, its sums, and the DRAIN it counts for. -/
structure Reply where
  line : Nat
  sums : Sums
  op : Option Nat
  deriving DecidableEq, Repr

/-- What the home keeps for a commutative block with holders (07 R215). -/
structure HomeBlk where
  blk : Nat
  region : Region
  holders : List Holder
  /-- Recall replies gathered for the read in progress (07 R216). -/
  replies : List Reply
  deriving DecidableEq, Repr

/-- The directory entry of a line (06 R168). -/
structure DirLine where
  blk : Nat
  owner : Option Nat
  sharers : List Nat
  deriving DecidableEq, Repr

inductive MsgBody where
  /-- Home to L1: give up dirty words; drop the line, keep it shared, or keep it owned (06 R171). -/
  | recallLine (core blk op part : Nat) (drop shared : Bool)
  /-- Home to L1: give up the hamper line that a grant made (07 R217). -/
  | recallHamper (core blk line : Nat)
  /-- L1 to home (07 R214, R215). -/
  | shareReq (core blk : Nat) (region : Region)
  /-- Home to holder, and its acknowledgement back (07 R215). -/
  | split (core blk : Nat) (region : Region) (line newcomer : Nat) (keep give : W64)
  | splitAck (core blk : Nat) (region : Region) (line newcomer : Nat) (keep give : W64)
  | grant (core blk : Nat) (region : Region) (share : W64) (line : Nat)
  /-- A drain on its way home: its sums, whether it gives up the share, the DRAIN command it counts for, and the
  contribution it carries, by its place in the core store order. -/
  | drain (core blk : Nat) (region : Region) (line : Nat) (sums : Sums) (leave poisoned : Bool) (op contrib : Option Nat)
  | drainAck (core blk line : Nat) (contrib : Option Nat)
  /-- A flush marker of a release on its way to a die or device (07 R206). -/
  | marker (op dest : Nat)
  deriving DecidableEq, Repr

structure Msg where
  id : Nat
  body : MsgBody
  /-- Lost on a link, until its sender's timeout; timeouts so far; how it was sent, where a link lies on its way
  (15 R415). -/
  lost : Bool
  timeouts : Nat
  sent : Option Sent
  deriving DecidableEq, Repr

/-- A home's account of a requester (15 R415): the next number, and the last 4,096 applied, newest first.  The answer to
each stands in the command's own record, where it comes back. -/
structure Filter where
  requester : Nat
  home : Nat
  next : BitVec 16
  applied : List (BitVec 16)
  deriving DecidableEq, Repr

/-- A cached translation: the page's first address, its size code and the leaf (08 R233). -/
structure TlbEntry where
  core : Nat
  va : BitVec 48
  size : BitVec 2
  leaf : W64
  deriving DecidableEq, Repr

/-- A table-pointer entry in the walkers' cache: its level, the first address it serves, the entry (08 R233). -/
structure PtrEntry where
  level : Nat
  va : BitVec 48
  entry : W64
  deriving DecidableEq, Repr

/-- A miss of a core's TLB: the core and the 64 KiB page (08 R234). -/
structure Miss where
  core : Nat
  page : BitVec 32
  deriving DecidableEq, Repr

/-! ## Control die -/

/-- A host queue (14 Table 14.1). -/
structure HQueue where
  base : W64
  size : W64
  tail : W64
  head : W32
  ctl : W64
  stat : W64
  dbgact : W64
  /-- PTC of the last doorbell (15 Table 15.10, source 5). -/
  bell : Nat
  /-- The hint list of the entry at QHEAD has been applied (14 Table 14.4). -/
  hinted : Bool
  /-- The load of op 3 has asked the holders of a commutative page's block for their partials (07 R217). -/
  asked : Bool
  deriving DecidableEq, Repr

/-- A direction's key (15 R418): AES-256 key and salt. -/
structure LinkKey where
  key : BitVec 256
  salt : W32
  deriving DecidableEq, Repr

/-- A scale-out port (15 R416-R419). -/
structure Port where
  ctl : W64
  stat : W64
  fails : Nat
  /-- The key of the sending direction, and the one that a rekey has sent and the receiver is to install. -/
  outKey : Option LinkKey
  newKey : Option LinkKey
  /-- The peer's key, the epoch of its flits, and during a rekey its old key with the paths on which its markers have
  arrived. -/
  inKey : Option LinkKey
  inEpoch : Bool
  oldKey : Option LinkKey
  marks : List Nat
  /-- The PTC of each authentication failure within the last 1 ms. -/
  auths : List Nat
  /-- The rekey-complete markers of the sending direction await their acknowledgement: resends so far, the latest PTC. -/
  marking : Bool
  resends : Nat
  markAt : Nat
  /-- The physical layer has detected a peer. -/
  seen : Bool
  /-- Flits sent under the present key, and the PTC of its installation. -/
  sent : Nat
  keyAt : Nat
  /-- The PTC of the last time exchange over it (15 R421). -/
  exchAt : Option Nat
  deriving DecidableEq, Repr

/-- A monitor (15 R427). -/
structure Monitor where
  ctl : W64
  min : W64
  max : W64
  cnt : W64
  hist : List W32
  cfg : W64
  deriving DecidableEq, Repr

/-- The translation block (08 Table 8.12). -/
structure XlRegs where
  root : W64
  inva : W64
  invc : W64
  pool : W64
  pooln : W64
  regc : W64
  regt : W64
  collapses : BitVec 16
  /-- The range of the invalidate in progress, as it was started (08 R236). -/
  invLo : Nat
  invHi : Nat
  deriving DecidableEq, Repr

/-- Another device of the domain, as far as a collapse or a quiesce acts on it (08 R239, R244). -/
structure Peer where
  device : BitVec 6
  xl : XlRegs
  regions : List Region
  deriving DecidableEq, Repr

/-- A compute-die reset in progress (15 R405, R406). -/
structure DieReset where
  die : Nat
  fatal : Bool
  cause : BitVec 8
  start : Nat
  /-- Regions that lost a hamper or share (15 R407). -/
  lost : List (BitVec 12)
  /-- Steps 2 to 6 of 15 Table 15.5 are done, and every grid is killed. -/
  cleared : Bool
  deriving DecidableEq, Repr

/-- An entry of a hint list (14 R394): first address, pages, size code, address of the new leaves, device mask. -/
structure Hint where
  va : W64
  pages : Nat
  size : Nat
  leaves : W64
  mask : W64
  deriving DecidableEq, Repr

/-- A leaf entry that a quiesce point quiesces: the device, the key of the entry and its old and new values; the first
address that it maps of the point's pages, the entry's level, and the size code of what it maps of them. -/
structure LeafChange where
  dev : Nat
  key : Nat
  old : W64
  new : W64
  page : W64
  level : Nat
  size : Nat
  deriving DecidableEq, Repr

/-- A quiesce point in progress: the device changes asked for (08 R239, 14 R394). -/
structure Quiesce where
  id : Nat
  hints : List Hint
  /-- The new leaves, hint by hint, page by page, for each device in the mask in ascending order. -/
  fresh : List W64
  /-- The step of 08 Table 8.10 that comes next, from 0. -/
  stage : Nat
  leaves : List LeafChange
  /-- The queue that waits for it, or the graph and node. -/
  queue : Option Nat
  node : Option (Nat × Nat)
  /-- The PTC at which step 4 found every request to the old frames answered. -/
  since : Nat
  deriving DecidableEq, Repr

/-- CLSBUD, and the issue slots that each class has used in the present period (14 R384, R385). -/
structure Budget where
  reg : List W64
  used : List Nat
  deriving DecidableEq, Repr

/-- The registers of the control die that stand alone (15 Tables 15.2-15.8). -/
structure Ctl where
  devid : W64
  boot : BitVec 8
  logdrop : BitVec 16
  up : Bool
  die0 : Bool
  die1 : Bool
  devcfg : W64
  ctxbase : W64
  svclogb : W64
  svctail : W32
  svchead : W32
  rstctl : BitVec 2
  regloss : W64
  /-- Issue slots withheld for power, and their number at the last microsecond's end; mean watts (15 Table 15.9, R427). -/
  withheld : Nat
  withheldAt : Nat
  tickAt : Nat
  watts : BitVec 16
  lostmap : List W64
  ptc : Nat
  /-- The dies' copies of PTC, as what they lack of `ptc` (15 R420). -/
  ptcLag0 : Nat
  ptcLag1 : Nat
  /-- What PTC is still to be slewed by, the PTC at which its last ns was, and the PTC of each copy's last correction. -/
  slew : Int
  slewAt : Nat
  corrAt0 : Nat
  corrAt1 : Nat
  /-- Other devices of the domain whose TIMECTL.gm is 1, as last heard (15 R421). -/
  sources : Nat
  ptskew : W64
  timectl : W64
  ptcset : W64
  lnkto : W64
  lnkrekey : W64
  attcmd : W64
  attbuf : W64
  /-- The buffer of the attestation command that GO has started (15 R425), and the verified images' hashes (15 R423). -/
  attKey : Nat
  measures : List (BitVec 256)
  /-- Corrected errors of each unit within the patrol period (15 R426). -/
  corrected : List Nat
  /-- Whether any QCTL.EN has been 1 since reset (15 R403). -/
  enabledOnce : Bool
  /-- The device is halted by a control-die error (15 R426). -/
  halted : Bool
  /-- PTC of the last time exchange (15 R421), and at which the budget period began (14 R385). -/
  lastExchange : Nat
  budgetAt : Nat
  /-- Images now shown by the display heads: address and format (15 R412). -/
  heads : List (Option (W64 × BitVec 8))
  /-- MSI-X vectors raised, oldest first (15 R413). -/
  msix : List Nat
  /-- Host reads answered, oldest first: address, bytes, poisoned (15 R411). -/
  hostReads : List (Nat × List Byte × Bool)
  /-- The control die's own requests that a link has lost (15 R415). -/
  asks : List CtlReq
  deriving DecidableEq, Repr

/-- A queue entry that has started and not retired (14 R373). -/
structure Started where
  queue : Nat
  slot : W32
  grid : Option W64
  graph : Option Nat
  deriving DecidableEq, Repr

/-! ## The machine -/

structure State where
  groups : List Group
  teams : List Team
  grids : List Grid
  graphs : List Graph
  recs : List Rec
  started : List Started
  ops : List Op
  msgs : List Msg
  /-- What the homes keep of each requester's numbers (15 R415). -/
  filters : List Filter
  l1 : List L1Line
  dir : List DirLine
  hampers : List Hamper
  homes : List HomeBlk
  tlb : List TlbEntry
  /-- The dies' shared TLBs, the die in the place of the core, and the walkers' cache (08 R233). -/
  dtlb : List TlbEntry
  wcache : List PtrEntry
  /-- Walks in flight, each with the misses that share it; the misses that wait for a slot, and the die served next
  (08 R234). -/
  walks : List (List Miss)
  missq : List Miss
  missDie : Nat
  regions : List Region
  peers : List Peer
  /-- Every byte memory of the device and the HBM of the domain, by key (`Key`). -/
  mem : Mem
  /-- Blocks with a poison mark, and blocks whose tag has one (08 R250), by key of the block. -/
  poison : List Nat
  tagPoison : List Nat
  /-- Sampler cache lines: cluster, block and bytes (12 R353). -/
  scache : List (Nat × Nat × List Byte)
  queues : List HQueue
  budget : Budget
  xl : XlRegs
  ctl : Ctl
  ports : List Port
  monitors : List Monitor
  resets : List DieReset
  quiesces : List Quiesce
  /-- The 64 KiB pages in collapse: each holds the service's lock on its 2 MiB region (08 R244). -/
  locks : List (BitVec 32)
  nextGrid : W64
  /-- The model's own: events to come, oldest first (log 1). -/
  agenda : List Instr
  /-- The model's own: the group whose word runs in this step (log 1). -/
  focus : Nat
  /-- The model's own: the counter that free values are taken from (log 6). -/
  freeCount : Nat
  /-- The model's own: the next name of a command, message, group, team, graph or record (log 1). -/
  nextId : Nat
  deriving DecidableEq, Repr

/-- Reasons for which the modelled machine stops. -/
inductive Fault where
  /-- Raised by an access of the part itself (a table walk, a queue entry, an image, a log entry) to a place that
  the spec says does not exist: a die offset at or above 248 GiB (08 R225).  Safe: the model stops where no rule
  gives an effect. -/
  | noSuchMemory (dpa : Nat)
  deriving DecidableEq, Repr

/-- Reasons for which the model has no meaning to give. -/
inductive Refusal where
  /-- Raised by the dispatch alone, for an instruction without a meaning yet.  Safe. -/
  | notModelled (mnemonic : String)
  /-- Raised by the meaning of an instruction word when no clause is running in the group at the focus: a word
  has no effect outside a clause (02 R26).  Safe. -/
  | noRunningClause
  /-- Raised by the meaning of a step when the state does not have what the step is about (no such command,
  message, group, or its conditions do not hold): the step cannot come about.  Safe. -/
  | eventNotEnabled
  /-- Raised by the step when the bytes at a running clause's word do not decode; a clause is checked before
  it starts (02 R33), so no run reaches this.  Safe. -/
  | badWord (detail : Nat)
  deriving DecidableEq, Repr

/-- A step's outcome on this machine. -/
abbrev Out := Host.Outcome State Fault Refusal

def HQueue.reset : HQueue := ⟨0, 0, 0, 0, 0, 0, 0, 0, false, false⟩
def Port.reset : Port where
  ctl := 0
  stat := 0
  fails := 0
  outKey := none
  newKey := none
  inKey := none
  inEpoch := false
  oldKey := none
  marks := []
  auths := []
  marking := false
  resends := 0
  markAt := 0
  seen := false
  sent := 0
  keyAt := 0
  exchAt := none
def Monitor.reset : Monitor := ⟨0, 0, 0, 0, List.replicate 16 0, 0⟩
def XlRegs.reset : XlRegs := ⟨0, 0, 0, 0, 0, 0, 0, 0, 0, 0⟩

/-- CLSBUD at reset: caps 100 and the guarantee of the class, in all four resources (14 Table 14.8). -/
def clsbudReset (g : BitVec 8) : W64 := 100#8 ++ g ++ 100#8 ++ g ++ 100#8 ++ g ++ 100#8 ++ g

def Ctl.reset : Ctl where
  devid := 0xAED0570201000000
  boot := 0
  logdrop := 0
  up := false
  die0 := true
  die1 := true
  devcfg := 0
  ctxbase := 0
  svclogb := 0
  svctail := 0
  svchead := 0
  rstctl := 0
  regloss := 0
  withheld := 0
  withheldAt := 0
  tickAt := 0
  watts := 0
  lostmap := List.replicate 8 0
  ptc := 0
  ptcLag0 := 0
  ptcLag1 := 0
  slew := 0
  slewAt := 0
  corrAt0 := 0
  corrAt1 := 0
  sources := 0
  ptskew := 20
  timectl := 0
  ptcset := 0
  lnkto := 0x00640014
  lnkrekey := 60000
  attcmd := 0
  attbuf := 0
  attKey := 0
  measures := []
  corrected := List.replicate 7 0
  enabledOnce := false
  halted := false
  lastExchange := 0
  budgetAt := 0
  heads := List.replicate 4 none
  msix := []
  hostReads := []
  asks := []

/-- The device right after the control die's power-on reset, before its bring-up (15 R428): no grid exists, both
compute dies are in reset, and the registers hold the values of their tables. -/
def State.reset : State where
  groups := []
  teams := []
  grids := []
  graphs := []
  recs := []
  started := []
  ops := []
  msgs := []
  filters := []
  l1 := []
  dir := []
  hampers := []
  homes := []
  tlb := []
  dtlb := []
  wcache := []
  walks := []
  missq := []
  missDie := 0
  regions := []
  peers := []
  mem := []
  poison := []
  tagPoison := []
  scache := []
  queues := List.replicate 64 HQueue.reset
  budget := ⟨[clsbudReset 10, clsbudReset 40, clsbudReset 30, clsbudReset 15, clsbudReset 5],
    List.replicate 5 0⟩
  xl := XlRegs.reset
  ctl := Ctl.reset
  ports := List.replicate 16 Port.reset
  monitors := List.replicate 16 Monitor.reset
  resets := []
  quiesces := []
  locks := []
  nextGrid := 1
  agenda := []
  focus := 0
  freeCount := 0
  nextId := 1

end Sys2Proof.Machine
end

