-- ==== Sys2Proof/Machine/Access.lean ====
section
/-!
DEFINITION. Lookups in the state, the keys of memory, byte access, and translation (06 Table 6.1, 08 R223-R235).
-/

namespace Sys2Proof.Machine

/-! ## Lookups -/

def State.group? (s : State) (gid : Nat) : Option Group := s.groups.find? fun g => g.gid == gid
def State.team? (s : State) (id : Nat) : Option Team := s.teams.find? fun t => t.id == id
def State.grid? (s : State) (id : W64) : Option Grid := s.grids.find? fun g => g.id == id
def State.graph? (s : State) (id : Nat) : Option Graph := s.graphs.find? fun g => g.id == id
def State.op? (s : State) (id : Nat) : Option Op := s.ops.find? fun o => o.id == id
def State.msg? (s : State) (id : Nat) : Option Msg := s.msgs.find? fun m => m.id == id
def State.rec? (s : State) (id : Nat) : Option Rec := s.recs.find? fun r => r.id == id

def State.setGroup (s : State) (g : Group) : State :=
  { s with groups := s.groups.map fun h => if h.gid == g.gid then g else h }
def State.setTeam (s : State) (t : Team) : State :=
  { s with teams := s.teams.map fun u => if u.id == t.id then t else u }
def State.setGrid (s : State) (g : Grid) : State :=
  { s with grids := s.grids.map fun h => if h.id == g.id then g else h }
def State.setGraph (s : State) (g : Graph) : State :=
  { s with graphs := s.graphs.map fun h => if h.id == g.id then g else h }
def State.setOp (s : State) (o : Op) : State :=
  { s with ops := s.ops.map fun p => if p.id == o.id then o else p }
def State.dropOp (s : State) (id : Nat) : State := { s with ops := s.ops.filter fun o => o.id != id }
def State.dropMsg (s : State) (id : Nat) : State := { s with msgs := s.msgs.filter fun m => m.id != id }
def State.setRec (s : State) (r : Rec) : State :=
  { s with recs := s.recs.map fun q => if q.id == r.id then r else q }
def State.setQueue (s : State) (q : Nat) (h : HQueue) : State := { s with queues := s.queues.set q h }
def State.queue (s : State) (q : Nat) : HQueue := s.queues.getD q HQueue.reset
def State.setCtl (s : State) (c : Ctl) : State := { s with ctl := c }
def State.setMem (s : State) (m : Mem) : State := { s with mem := m }

/-- A fresh name. -/
def State.fresh (s : State) : Nat × State := (s.nextId, { s with nextId := s.nextId + 1 })

/-- A free value, and the state with its counter advanced (log 6). -/
def State.free (s : State) : W64 × State :=
  (Config.freeWord s.freeCount, { s with freeCount := s.freeCount + 1 })

/-- A condition for a step to come about. -/
def need (c : Bool) (o : Out) : Out := if c then o else .refused .eventNotEnabled

def needSome {α : Type} (x : Option α) (f : α → Out) : Out :=
  match x with
  | some a => f a
  | none => .refused .eventNotEnabled

def andThen (o : Out) (f : State → Out) : Out :=
  match o with
  | .next s => f s
  | .fault r => .fault r
  | .refused r => .refused r

/-! ## Registers by bits -/

/-- Bits `hi` to `lo` of a register, as a number. -/
def fld (v : W64) (hi lo : Nat) : Nat := (v.toNat >>> lo) % 2 ^ (hi - lo + 1)

/-- The register with bits `hi` to `lo` replaced. -/
def setFld (v : W64) (hi lo : Nat) (x : Nat) : W64 :=
  let m : W64 := BitVec.ofNat 64 ((2 ^ (hi - lo + 1) - 1) <<< lo)
  (v &&& ~~~m) ||| (BitVec.ofNat 64 (x <<< lo) &&& m)

/-! ## Places -/

/-- Die of a core, cluster in the die, and cluster in the package (01 R10). -/
def dieOfCore (c : Nat) : Nat := c / 288
def clusterOfCore (c : Nat) : Nat := c % 288 / 8
def clusterIdx (c : Nat) : Nat := c / 8

/-- Keys of memory: HBM of the domain by DPA (08 R225) below 2^45; then the chip scratchpad, the core
scratchpads, the lane stores and the tag plane. -/
def chipKey (off : Nat) : Nat := 2 ^ 45 + off
def spadKey (core off : Nat) : Nat := 2 ^ 46 + core * 393216 + off
def laneKey (core off : Nat) : Nat := 2 ^ 47 + core * 65536 + off
def tagKey (blk : Nat) : Nat := 2 ^ 48 + blk / 32

def isHbm (key : Nat) : Bool := key < 2 ^ 45
def isChip (key : Nat) : Bool := 2 ^ 45 ≤ key && key < 2 ^ 46
def blockOf (key : Nat) : Nat := key / 64 * 64

/-- Bytes of data on a die: 248 GiB (06 R167). -/
def dieBytes : Nat := 0x3E00000000

def mkDpa (device die off : Nat) : Nat := device * 2 ^ 39 + die * 2 ^ 38 + off
def dpaDevice (key : Nat) : Nat := key / 2 ^ 39 % 64
def dpaDie (key : Nat) : Nat := key / 2 ^ 38 % 2
def dpaOff (key : Nat) : Nat := key % 2 ^ 38
def dpaOk (key : Nat) : Bool := dpaOff key < dieBytes

def State.device (s : State) : Nat := fld s.ctl.devcfg 5 0

/-- PTC as the die's own copy has it (15 R420). -/
def State.ptcOn (s : State) (die : Nat) : Nat := s.ctl.ptc - (if die == 0 then s.ctl.ptcLag0 else s.ctl.ptcLag1)

/-- The die and device that hold a key: (device, die). -/
def homeOf (s : State) (key : Nat) : Nat × Nat :=
  if isHbm key then (dpaDevice key, dpaDie key)
  else if isChip key then (s.device, (key - 2 ^ 45) / 33554432)
  else (s.device, 0)

/-- The number of a key's home: its die, counted through the devices. -/
def destOf (s : State) (key : Nat) : Nat := (homeOf s key).1 * 2 + (homeOf s key).2

/-- A link lies between a core and a home. -/
def State.remote (s : State) (core key : Nat) : Bool := !(2 ^ 46 ≤ key) && homeOf s key != (s.device, dieOfCore core)

/-! ### Numbers of requests over links (15 R415) -/

/-- A home's account of a requester: a core's L1 is 4 × core, the matrix engine 4 × core + 2; of a cluster's block-transfer
engine and sampler it is 1 and 3 above the L1 of its first core. -/
def State.filterOf (s : State) (requester home : Nat) : Filter :=
  (s.filters.find? fun f => f.requester == requester && f.home == home).getD ⟨requester, home, 0, []⟩

/-- The control die's unit, as a requester. -/
def ctlUnit : Nat := 4 * 2 ^ 20

def State.setFilter (s : State) (f : Filter) : State :=
  { s with filters := s.filters.filter (fun x => !(x.requester == f.requester && x.home == f.home)) ++ [f] }

/-- A port in state 2 carries traffic to a device: its peer is the device or reaches it (15 R416, log 125). -/
def Port.carries (x : Port) (dev : Nat) : Bool :=
  fld x.stat 57 56 == 2 && (fld x.stat 63 58 == dev || Config.peerReaches (fld x.stat 63 58) dev)

/-- A path leads to a device (15 R416, R417). -/
def State.reaches (s : State) (dev : Nat) : Bool := dev == s.device || s.ports.any fun p => p.carries dev

/-- A key's flits are all but spent: a rekey comes before their count reaches 2^40 (15 R418). -/
def Port.spent (x : Port) : Bool := 2 ^ 40 ≤ x.sent + 1

/-- A port counts a flit under its key (15 R418). -/
def State.countFlit (s : State) (p : Nat) : State :=
  match s.ports[p]? with
  | some x => { s with ports := s.ports.set p { x with sent := x.sent + 1 } }
  | none => s

/-- The path that a request takes to a home (15 R416): the ports whose peers reach the device share the traffic, which one
is a free value; the port counts the flit under its key. -/
def State.pathOf (s : State) (home : Nat) : Nat × State :=
  if home / 2 == s.device then (16, s)
  else
    let ps := (s.ports.zipIdx).filter fun q => q.1.carries (home / 2) && !q.1.spent
    let f := s.free
    match ps[f.1.toNat % Nat.max 1 ps.length]? with
    | some q => (q.2, f.2.countFlit q.2)
    | none => (31, s)

/-- A request that needs no number is sent: a read. -/
def State.flit (s : State) (home : Nat) : Sent × State :=
  let w := s.pathOf home
  (⟨home, 0, w.1, s.ctl.ptc, s.ctl.lnkto, s.nextId, false, []⟩, { w.2 with nextId := s.nextId + 1 })

/-- The next number of a requester at a home, as its request is first sent. -/
def State.number (s : State) (requester home : Nat) : Sent × State :=
  let f := s.filterOf requester home
  let w := s.flit home
  ({ w.1 with seq := f.next }, w.2.setFilter { f with next := f.next + 1 })

/-- A request sent once more, under its number. -/
def State.again (s : State) (x : Sent) : Sent × State :=
  let w := s.pathOf x.home
  ({ x with path := w.1, at_ := s.ctl.ptc, stamp := s.nextId, arrived := false, past := (x.path, x.stamp) :: x.past },
    { w.2 with nextId := s.nextId + 1 })

/-- The home notes the number of a request as it applies it, and keeps the last 4,096. -/
def State.noted (s : State) (requester : Nat) (x : Option Sent) : State :=
  match x with
  | none => s
  | some x =>
    let f := s.filterOf requester x.home
    s.setFilter { f with applied := (x.seq :: f.applied).take 4096 }

/-- The home has applied the request: a duplicate gets its stored answer. -/
def State.duplicate (s : State) (requester : Nat) (x : Option Sent) : Bool :=
  match x with
  | none => false
  | some x => (s.filterOf requester x.home).applied.contains x.seq

/-- What a core sends in a message that its home is not to apply twice: drains and recall replies (07 R207). -/
def MsgBody.numbered (b : MsgBody) : Option (Nat × Nat) :=
  match b with
  | .drain core blk .. => some (core, blk)
  | _ => none

/-- The requester of a command at the homes (15 R415): the L1 of its core, the matrix engine of its core, or the
block-transfer engine or sampler of its cluster. -/
def Op.requester (o : Op) : Nat :=
  match o.instr with
  | .copy _ | .copy2d _ | .copy3d _ | .copym _ | .clinit .. | .clexp .. | .clarr .. | .cltest .. | .clinv .. =>
    32 * clusterIdx o.core + 1
  | .tld _ | .tst _ | .accld _ | .accst _ | .popld _ | .prepld _ | .mma _ | .mmat _ | .mmafx _ => 4 * o.core + 2
  | .smpl _ | .smplg _ | .smpllLod .. | .smpllGrad .. | .sres _ => 32 * clusterIdx o.core + 3
  | _ => 4 * o.core

/-- Numbers of a requester's requests to a home that await their answers. -/
def State.outstanding (s : State) (requester home : Nat) : List (BitVec 16) :=
  let of (x : Option Sent) : Option (BitVec 16) := match x with | some x => if x.home == home then some x.seq else none | none => none
  (s.ops.flatMap fun o => if o.requester == requester then
      o.parts.filterMap fun p => if p.st == .done then none else of p.sent else [])
    ++ s.msgs.filterMap fun m => match m.body.numbered with | some (c, _) => if 4 * c == requester then of m.sent else none | none => none

/-- A requester may send one more: its window of 4,096 numbers reaches back to the oldest that awaits its answer (07
R207). -/
def State.windowOpen (s : State) (requester home : Nat) : Bool :=
  let n := (s.filterOf requester home).next
  (s.outstanding requester home).all fun k => (n - k).toNat < 4096

/-- A message put among those under way. -/
def State.post (s : State) (b : MsgBody) (x : Option Sent) : State :=
  { s with msgs := s.msgs ++ [⟨s.nextId, b, false, 0, x⟩], nextId := s.nextId + 1 }

/-- A message sent; a drain over a link has its number, once its requester's window is open. -/
def State.send (s : State) (b : MsgBody) : State :=
  match b.numbered with
  | some (core, blk) =>
    if s.remote core blk && s.windowOpen (4 * core) (destOf s blk) then
      let n := s.number (4 * core) (destOf s blk)
      n.2.post b (some n.1)
    else s.post b none
  | none => s.post b none

/-! ### Paths (15 R416) -/

/-- A request's place among its requester's, while it is under way (07 R205). -/
def Part.line (p : Part) : Option Nat :=
  match p.st with
  | .departed k => some k
  | .waiting | .queued => p.way.map fun w => w.turn
  | _ => none

/-- A request that is under way, its third timeout not passed. -/
def Part.travels (p : Part) : Bool := p.line.isSome && p.timeouts < 3

/-- Everything sent to a device on a path before has arrived, but what was lost (15 R416). -/
def State.pathClear (s : State) (x : Sent) : Bool :=
  let before (y : Option Sent) : Bool := match y with
    | some y => !y.arrived && y.path == x.path && y.home / 2 == x.home / 2 && y.stamp < x.stamp
    | none => false
  s.ops.all (fun o => o.parts.all fun p => !(p.travels && !p.lostReq && before p.sent))
    && s.msgs.all fun m => !(!m.lost && before m.sent)

/-- What was sent arrives, behind all that its path carried before. -/
def State.arrives (s : State) (x : Sent) : Bool := !x.arrived && x.path != 31 && s.reaches (x.home / 2) && s.pathClear x

/-- The paths from a core to a home: the ports that lead to its device, the link between the dies, or none, 30, on the
core's own die. -/
def State.pathsTo (s : State) (core home : Nat) : List Nat :=
  if home / 2 != s.device then ((s.ports.zipIdx).filter fun q => q.1.carries (home / 2)).map (·.2)
  else if home % 2 == dieOfCore core then [30] else [16]

/-- A path to a home is up. -/
def State.pathUp (s : State) (x : Sent) : Bool :=
  16 ≤ x.path || (match s.ports[x.path]? with | some p => p.carries (x.home / 2) | none => false)

/-- A flush marker sent down a path: a flit of its own (07 R206). -/
def State.sendMarker (s : State) (op home path : Nat) : State :=
  (s.countFlit path).post (.marker op home) (some ⟨home, 0, path, s.ctl.ptc, s.ctl.lnkto, s.nextId, false, []⟩)

/-- Every request sent on a path before a marker has been acknowledged by its home (15 R417). -/
def State.acked (s : State) (x : Sent) : Bool :=
  let on (y : Option Sent) : Bool := match y with
    | some y => ((y.path, y.stamp) :: y.past).any fun q => q.1 == x.path && q.2 < x.stamp
    | none => false
  s.ops.all (fun o => o.parts.all fun p => !(p.travels && on p.sent))
    && s.msgs.all fun m => m.body.numbered.isNone || !on m.sent

/-- The home slice of a die offset (06 R166), as a global slice index. -/
def sliceOf (key : Nat) : Nat :=
  if isChip key then (key - 2 ^ 45) / 131072
  else
    let b := dpaOff key
    dpaDie key * 256 + ((b / 256) % 256 ^^^ (b / 65536) % 256 ^^^ (b / 16777216) % 256 ^^^ (b / 2 ^ 32) % 64)

/-- The block's pseudo-channel is lost (15 R408). -/
def State.lost (s : State) (key : Nat) : Bool :=
  isHbm key && dpaDevice key == s.device &&
    (s.ctl.lostmap.getD (sliceOf key / 64) 0).getLsbD (sliceOf key % 64)

/-- A read of the block takes the poison fault (08 R250, 15 R408). -/
def State.poisoned (s : State) (key : Nat) : Bool := s.poison.contains (blockOf key) || s.lost key

def State.mark (s : State) (key : Nat) : State :=
  if s.poison.contains (blockOf key) then s else { s with poison := s.poison ++ [blockOf key] }
def State.unmark (s : State) (key : Nat) : State := { s with poison := s.poison.filter fun b => b != blockOf key }

/-! ## Bytes -/

def State.bytes (s : State) (key n : Nat) : List Byte := Store.readList s.mem key n
def leNat (l : List Byte) : Nat := l.foldr (fun b n => b.toNat + 256 * n) 0
def State.le (s : State) (key n : Nat) : Nat := leNat (s.bytes key n)
def leBytes (n v : Nat) : List Byte := bytesOfNat n v
def State.putBytes (s : State) (key : Nat) (l : List Byte) : State := s.setMem (Store.writeList s.mem key l)
def State.putLe (s : State) (key n v : Nat) : State := s.putBytes key (leBytes n v)

/-- Dirty words of an owned line laid over the home's block (06 R169). -/
def L1Line.dirtyBytes (ln : L1Line) : List (Nat × Byte) :=
  (List.range 64).filterMap fun i =>
    if ln.dirty.getLsbD (i / 4) then some (i, Store.read ln.data i) else none

def State.writeBack (s : State) (ln : L1Line) : State :=
  s.setMem (ln.dirtyBytes.foldl (fun m p => Store.write m (ln.blk + p.1) p.2) s.mem)

def State.line? (s : State) (core blk : Nat) : Option L1Line :=
  s.l1.find? fun l => l.core == core && l.blk == blk
def State.dropLine (s : State) (core blk : Nat) : State :=
  { s with l1 := s.l1.filter fun l => !(l.core == core && l.blk == blk) }
def State.setLine (s : State) (ln : L1Line) : State :=
  { s with l1 := s.l1.filter (fun l => !(l.core == ln.core && l.blk == ln.blk)) ++ [ln] }

def State.dirOf (s : State) (blk : Nat) : DirLine := (s.dir.find? fun d => d.blk == blk).getD ⟨blk, none, []⟩
def State.setDir (s : State) (d : DirLine) : State :=
  { s with dir := s.dir.filter (fun e => e.blk != d.blk)
      ++ (if d.owner.isNone && d.sharers.isEmpty then [] else [d]) }

/-- The home brings a block's owned line home at once, keeping it clean (06 R171): the reads of the control die
and of the host, whose recalls are not steps of their own. -/
def State.recallNow (s : State) (blk : Nat) : State :=
  match (s.dirOf blk).owner with
  | none => s
  | some c =>
    match s.line? c blk with
    | none => s
    | some ln => (s.writeBack ln).setLine { ln with dirty := 0 }

/-- The same before a write: the line is dropped from every L1 (06 Table 6.2, .wt store). -/
def State.purge (s : State) (blk : Nat) : State :=
  let s := s.recallNow blk
  { s with l1 := s.l1.filter (fun l => l.blk != blk), dir := s.dir.filter fun d => d.blk != blk }

/-- Some bytes of a block as a read of the home gives them (06 R171, 08 R235), as a number. -/
def State.look (s : State) (key n : Nat) : Nat := (s.recallNow (blockOf key)).le key n

/-! ## Sorting -/

/-- `x` put before the first element that it may stand before. -/
def insertBy {α : Type} (le : α → α → Bool) (x : α) : List α → List α
  | [] => [x]
  | y :: l => if le x y then x :: y :: l else y :: insertBy le x l

/-- A list in order, equal elements as they stood. -/
def sortBy {α : Type} (le : α → α → Bool) (l : List α) : List α := l.foldr (insertBy le) []

/-! ## Translation -/

inductive Walk where
  /-- A leaf in state 1, 2 or 3, and its level. -/
  | page (leaf : W64) (level : Nat)
  | notPresent (level : Nat)
  /-- A walk error: detail, level and state found. -/
  | err (detail level state : Nat)
  | quiesced (leaf : W64) (level : Nat)
  deriving DecidableEq, Repr

def leafState (e : W64) : Nat := fld e 11 9
def leafBit (e : W64) : Bool := e.getLsbD 8
def leafW (e : W64) : Bool := e.getLsbD 7
def leafX (e : W64) : Bool := e.getLsbD 6
def leafLocal (e : W64) : Bool := e.getLsbD 12
def leafRegion (e : W64) : BitVec 12 := e.extractLsb' 22 12
def leafDevice (e : W64) : Nat := fld e 63 58
def leafDie (e : W64) : Nat := fld e 57 57
def leafOdie (e : W64) : Nat := fld e 56 56
def leafFrame (e : W64) : Nat := fld e 55 34 * 65536

/-- Bytes of a page by size code: 64 KiB, 2 MiB, 1 GiB (08 Table 8.3). -/
def pageBytes (size : Nat) : Nat := if size == 0 then 65536 else if size == 1 then 2097152 else 1073741824

/-- Index of a virtual address at a level (08 Table 8.3). -/
def levelIndex (va : Nat) (level : Nat) : Nat :=
  if level == 3 then va / 2 ^ 39 % 512 else if level == 2 then va / 2 ^ 30 % 512
  else if level == 1 then va / 2 ^ 21 % 512 else va / 65536 % 32

/-- The device whose memory a frame lies in, for the device that walks (08 R229). -/
def leafHome (dev : Nat) (e : W64) : Nat := if leafState e == 2 && leafLocal e then dev else leafDevice e

/-- The DPA of a virtual address under a leaf found at `level`. -/
def leafDpa (dev : Nat) (e : W64) (level va : Nat) : Nat :=
  mkDpa (leafHome dev e) (leafDie e) (leafFrame e + va % pageBytes level)

/-- The rows of 08 R230 for one entry, in their order; `none` for a pointer to follow.  The model's own choice (log 136):
the leaf bit tells which layout's reserved bits are tested. -/
def entryTest (regions : List Region) (va : Nat) (level : Nat) (poisoned : Bool) (e : W64) : Option Walk :=
  let st := leafState e
  let leaf := leafBit e
  let reserved := if leaf then fld e 21 13 != 0
    else fld e 63 58 != 0 || fld e 56 56 != 0 || fld e 25 12 != 0 || fld e 7 6 != 0
  let bad := (!leaf && level == 0) || (leaf && level == 3) || (leaf && st == 4)
    || (!leaf && (st == 1 || st == 2 || st == 3 || st == 5))
  let range := if leaf then
      dieBytes ≤ leafFrame e || (level == 1 && fld e 38 34 != 0) || (level == 2 && fld e 47 34 != 0)
    else
      dieBytes ≤ fld e 55 26 * 256 || (2 ≤ level && fld e 29 26 != 0)
  let notAllowed := leaf && st != 5 && ((st != 3 && leafRegion e != 0) || (st != 2 && (leafLocal e || leafOdie e == 1))
    || (st == 2 && !leafLocal e && leafOdie e == 1))
  let base := va / pageBytes level * pageBytes level
  let noRegion := leaf && st == 3 && !(regions.any fun r => r.n == leafRegion e && r.base.toNat ≤ base &&
    base + pageBytes level ≤ r.base.toNat + r.len.toNat)
  if poisoned then some (.err 6 level st)
  else if st == 0 then some (.notPresent level)
  else if 6 ≤ st || reserved then some (.err 1 level st)
  else if bad then some (.err 2 level st)
  else if range then some (.err 3 level st)
  else if notAllowed then some (.err 4 level st)
  else if noRegion then some (.err 5 level st)
  else if leaf && st == 5 then some (.quiesced e level)
  else if leaf then some (.page e level)
  else none

/-- One device's walk from a table at level `n - 1` (08 R230). -/
def walkFrom (s : State) (dev : Nat) (regions : List Region) (va : Nat) : Nat → Nat → Walk
  | 0, _ => .notPresent 0
  | n + 1, table =>
    let key := table + 8 * levelIndex va n
    let e : W64 := BitVec.ofNat 64 (s.look key 8)
    match entryTest regions va n (s.poisoned key) e with
    | some w => w
    | none => walkFrom s dev regions va n (mkDpa dev (fld e 57 57) (fld e 55 26 * 256))

def walkAs (s : State) (dev : Nat) (root : W64) (regions : List Region) (va : Nat) : Walk :=
  if !root.getLsbD 0 then .notPresent 3
  else if dieBytes ≤ fld root 37 12 * 4096 then .err 3 3 0
  else walkFrom s dev regions va 4 (mkDpa dev (fld root 38 38) (fld root 37 12 * 4096))

/-- The device's own walk, reading the tables as they stand (08 R235). -/
def State.walk (s : State) (va : Nat) : Walk := walkAs s s.device s.xl.root s.regions va

/-- Bytes that an entry of a level serves (08 Table 8.3). -/
def levelBytes (level : Nat) : Nat := if level == 3 then 2 ^ 39 else pageBytes level

/-- The cached pointer nearest to the leaves of an address. -/
def State.nearest (s : State) (va : Nat) : Option PtrEntry :=
  s.wcache.foldl (fun (best : Option PtrEntry) p =>
    if p.va.toNat ≤ va && va < p.va.toNat + levelBytes p.level
        && (match best with | some b => p.level < b.level | none => true) then some p else best) none

/-- A walk that starts behind the nearest cached pointer (08 R233). -/
def State.walkCached (s : State) (va : Nat) : Walk :=
  match s.nearest va with
  | some p => walkFrom s s.device s.regions va p.level (mkDpa s.device (fld p.entry 57 57) (fld p.entry 55 26 * 256))
  | none => s.walk va

/-- A cached translation of an address. -/
def tlbHit (l : List TlbEntry) (who va : Nat) : Option TlbEntry :=
  l.find? fun t => t.core == who && t.va.toNat ≤ va && va < t.va.toNat + pageBytes t.size.toNat

/-- The translation an access of a core uses: one cached by the core or its die, or a walk (08 R233). -/
def State.translate (s : State) (core va : Nat) : Walk :=
  match tlbHit s.tlb core va with
  | some t => .page t.leaf t.size.toNat
  | none =>
    match tlbHit s.dtlb (dieOfCore core) va with
    | some t => .page t.leaf t.size.toNat
    | none => s.walkCached va

/-- Kinds of access, for 08 Table 8.6. -/
inductive Acc where
  | load | loadv | ldtol | ldbt | store | stbt | stadd | query | fetch | copyRead | copyWrite | atomic
  | sampler | matrix
  deriving DecidableEq, Repr

/-- The fault of 08 Table 8.6, as (kind, detail) of Table 8.9; none when the page admits the access. -/
def leafAdmits (a : Acc) (e : W64) : Option (Nat × Nat) :=
  let st := leafState e
  let write : Option (Nat × Nat) :=
    if st == 1 then (if leafW e then none else some (3, 1))
    else if st == 2 then some (3, if leafW e then 2 else 1)
    else some (4, 1)
  match a with
  | .load | .ldtol | .ldbt | .query | .copyRead => none
  | .loadv | .sampler | .matrix => if st == 3 then some (4, 1) else none
  | .store | .stbt | .copyWrite | .atomic => write
  | .stadd => if st == 3 then (if leafW e then none else some (3, 1)) else some (4, 1)
  | .fetch => if st == 3 then some (5, 2) else if leafX e then none else some (5, 1)

/-- The access field of a memory-fault record (08 Table 8.13). -/
def Acc.code : Acc → Nat
  | .load => 0 | .loadv => 0 | .store => 1 | .atomic => 2 | .stadd => 3 | .ldtol => 4 | .ldbt => 5 | .stbt => 5
  | .query => 3 | .fetch => 6 | .copyRead => 7 | .copyWrite => 8 | .sampler => 9 | .matrix => 10

/-- What one address of an access comes to. -/
inductive Where where
  /-- The key of the first byte, and the region of a commutative page. -/
  | at (key : Nat) (region : Option (BitVec 12))
  /-- A memory fault: kind, detail, level, state. -/
  | bad (kind detail level state : Nat)
  /-- A quiesced page: the access waits (08 R240). -/
  | hold (page : BitVec 32)
  deriving DecidableEq, Repr

/-- A .g address through translation (06 R164, 08 R230, R231). -/
def State.global (s : State) (core : Nat) (a : Acc) (addr : W64) : Where :=
  if fld addr 63 48 != 0 then .bad 7 4 0 0
  else
    match s.translate core addr.toNat with
    | .notPresent l => .bad 1 l l 0
    | .err d l st => .bad 2 d l st
    | .quiesced _ _ => .hold (addr.extractLsb' 16 32)
    | .page e l =>
      match leafAdmits a e with
      | some (k, d) => .bad k d l (leafState e)
      | none => .at (leafDpa s.device e l addr.toNat) (if leafState e == 3 then some (leafRegion e) else none)

/-- The team of a cluster launch with a given rank. -/
def State.rankTeam (s : State) (t : Team) (r : Nat) : Option Team :=
  s.teams.find? fun u => u.grid == t.grid && u.clBase == t.clBase && u.clustrank == r

/-- Space code (08 kinds 7 and 8 carry it as detail). -/
def spaceNum : Space → Nat
  | .l => 0 | .s => 1 | .c => 2 | .p => 3 | .g => 4

/-- A local address of `n` bytes: its key, or none outside the bound (06 Table 6.1, R163). -/
def State.localKey (s : State) (t : Team) (gr : Grid) (grpid lane : Nat) (sp : Space) (addr : W64) (n : Nat) :
    Option Nat :=
  let a := addr.toNat
  match sp with
  | .l => if a + n ≤ gr.ko.laneBytes then
      some (laneKey t.core (t.laneBase + (grpid * 32 + lane) * gr.ko.laneBytes + a)) else none
  | .s => if a + n ≤ gr.ko.spad then some (spadKey t.core (t.spadBase + a)) else none
  | .c =>
    let e := gr.ko.exportBytes
    if e == 0 || t.clCount * e < a + n then none
    else
      match s.rankTeam t (a / e) with
      | some u => some (spadKey u.core (u.expBase + a % e))
      | none => none
  | .p => if gr.winFirst * 131072 ≤ a && a + n ≤ (gr.winFirst + gr.winCount) * 131072 then some (chipKey a) else none
  | .g => none

/-- Where an access of `n` bytes of one lane goes, with the checks of 06 R165 in their order: alignment, range,
translation. -/
def State.place (s : State) (t : Team) (gr : Grid) (grpid lane : Nat) (a : Acc) (sp : Space) (addr : W64)
    (n align : Nat) : Where :=
  if addr.toNat % align != 0 then .bad 8 (spaceNum sp) 0 0
  else
    match sp with
    | .g => s.global t.core a addr
    | _ =>
      match s.localKey t gr grpid lane sp addr n with
      | some k => .at k none
      | none => .bad 7 (spaceNum sp) 0 0

/-! ## Reads and writes of the control die -/

/-- What a read or write by the control die comes to. -/
inductive Sys (α : Type) where
  | ok (v : α)
  | fault (kind : Nat)
  | wait
  deriving DecidableEq, Repr

/-- What keeps the control die from a home (15 R415, R417): no path, or a request that a link lost, until its reissue; at
its third timeout the request faults. -/
def State.askStop {α : Type} (s : State) (key : Nat) : Option (Sys α) :=
  if !s.reaches (homeOf s key).1 then some (.fault 9)
  else
    match s.ctl.asks.find? fun r => r.sent.home == destOf s key with
    | some r => if 3 ≤ r.timeouts then some (.fault 9) else if r.lost then some .wait else none
    | none => none

/-- Bytes at a virtual address, as .nc loads through the device's tables (14 R373, R431); the first byte that faults
decides, a device that no path reaches with the link fault (15 R417). -/
def State.sysRead (s : State) (va : Nat) : Nat → Sys (List Byte)
  | 0 => .ok []
  | n + 1 =>
    if 2 ^ 48 ≤ va then .fault 7
    else
      match s.walk va with
      | .page e lv =>
        let key := leafDpa s.device e lv va
        match s.askStop key with
        | some r => r
        | none =>
          if s.poisoned key then .fault 6
          else
            match s.sysRead (va + 1) n with
            | .ok l => .ok ((s.recallNow (blockOf key)).bytes key 1 ++ l)
            | r => r
      | .notPresent _ => .fault 1
      | .err .. => .fault 2
      | .quiesced .. => .wait

/-- A store of bytes inside one block, as a .wt store of the control die (14 R373). -/
def State.sysWrite (s : State) (va : Nat) (l : List Byte) : Sys State :=
  if va % l.length != 0 then .fault 8
  else if 2 ^ 48 ≤ va then .fault 7
  else
    match s.walk va with
    | .page e lv =>
      match leafAdmits .store e with
      | some (k, _) => .fault k
      | none =>
        let key := leafDpa s.device e lv va
        match s.askStop key with
        | some r => r
        | none => .ok ((s.purge (blockOf key)).putBytes key l)
    | .notPresent _ => .fault 1
    | .err .. => .fault 2
    | .quiesced .. => .wait

end Sys2Proof.Machine
end

