-- ==== Sys2Proof/Machine/Operands.lean ====
section
/-!
DEFINITION. The running word's surroundings, every operand form (02 R36-R43), the result queue (02 R38, 03 R74) and
the destination forms (02 R40, R42).
-/

namespace Sys2Proof.Machine

/-- The group whose word runs, its clause, team and grid. -/
structure Env where
  g : Group
  r : Run
  t : Team
  gr : Grid
  deriving DecidableEq, Repr

def State.envOf (s : State) (gid : Nat) : Option Env :=
  match s.group? gid with
  | none => none
  | some g =>
    match g.run, s.team? g.team with
    | some r, some t =>
      match s.grid? t.grid with
      | some gr => if g.st == .ready && r.pipe then some ⟨g, r, t, gr⟩ else none
      | none => none
    | _, _ => none

/-- The word of the group at the focus; without a running clause the word has no meaning. -/
def withEnv (s : State) (f : Env → Out) : Out :=
  match s.envOf s.focus with
  | some e => f e
  | none => .refused .noRunningClause

/-! ## Lanes -/

/-- Lanes of a set, ascending. -/
def laneList (m : W32) : List Nat := (List.range 32).filter fun l => m.getLsbD l

/-- lowest(S) of 02 Table 2.11. -/
def lowestLane (m : W32) : Option Nat := (laneList m).head?

def laneBit (l : Nat) : W32 := 1#32 <<< l

/-- The mask of the lanes that satisfy a predicate. -/
def laneMask (f : Nat → Bool) : W32 := BitVec.ofNat 32 (natOfBits 32 f)

/-- Mask k0: the active lanes, after the elect bit (02 R31, 03 R75). -/
def Env.active (e : Env) : W32 :=
  if e.r.hdr.elect then
    match lowestLane e.r.lanes with
    | some l => laneBit l
    | none => 0
  else e.r.lanes

def Group.mask (g : Group) (active : W32) (k : BitVec 3) : W32 :=
  if k == 0 then active else Store.read g.masks k.toNat

/-- The executing lanes of an instruction with mask field `k` (03 R75). -/
def Env.lanes (e : Env) (k : BitVec 3) : W32 := e.active &&& e.g.mask e.active k

/-! ## Sources -/

def winKey (n : BitVec 5) (w l : Nat) : Nat := (n.toNat * 9 + w) * 32 + l

def Group.winWord (g : Group) (n : BitVec 5) (w l : Nat) : W32 := Store.read g.win (winKey n w l)

def Group.win64 (g : Group) (n : BitVec 5) (l : Nat) : W64 := g.winWord n 1 l ++ g.winWord n 0 l

def Group.age (g : Group) (a : Nat) (l : Nat) : W64 := Store.read (g.queue.getD a []) l

/-- 02 Table 2.4; the place a group stands at is the one it started at, for its whole life (02 R37). -/
def Env.special (e : Env) (l : Nat) : Special → W64
  | .zero => 0
  | .ones => BitVec.allOnes 64
  | .laneid => BitVec.ofNat 64 l
  | .grpid => e.g.grpid.setWidth 64
  | .teamx => e.t.x.setWidth 64
  | .teamy => e.t.y.setWidth 64
  | .teamz => e.t.z.setWidth 64
  | .gridid => e.gr.id
  | .coreid => BitVec.ofNat 64 e.t.home
  | .dieid => BitVec.ofNat 64 (dieOfCore e.t.home)
  | .quadid => BitVec.ofNat 64 (e.g.grpid.toNat % 4)
  | .clusterid => BitVec.ofNat 64 (clusterOfCore e.t.home)
  | .depth => BitVec.ofNat 64 e.gr.depth
  | .clustrank => BitVec.ofNat 64 e.t.clustrank
  | .livemask => e.g.live.setWidth 64
  | .kobase => e.gr.ko.base

/-- A source of 64 bits (02 R40). -/
def Env.src64 (e : Env) (f : Src) (l : Nat) : W64 :=
  match f with
  | .q a => e.g.age a.toNat l
  | .w n => e.g.win64 n l
  | .sp x => e.special l x
  | .s n => Store.read e.g.scal n.toNat

/-- A source of 32 bits, zero-extended (02 R40). -/
def Env.src32 (e : Env) (f : Src) (l : Nat) : W64 :=
  match f with
  | .w n => (e.g.winWord n 0 l).setWidth 64
  | _ => ((e.src64 f l).setWidth 32).setWidth 64

def Env.src (e : Env) (wide : Bool) (f : Src) (l : Nat) : W64 := if wide then e.src64 f l else e.src32 f l

/-- Source B of an integer instruction: an operand, or the literal as Table 2.6 gives it. -/
def Env.opd (e : Env) (wide : Bool) (b : Opd) (l : Nat) : W64 :=
  match b with
  | .src f => e.src wide f l
  | .lit v => if wide then v.signExtend 64 else v.setWidth 64

/-- Element of a type by width: 64-bit types read 64-bit operands (03 R79). -/
def tyWide (t : IntTy) : Bool := t.width == 64

/-! ## Results -/

/-- The push of an instruction: every queue ages; a lane that does not execute repeats its q0 (02 R38, 03 R74). -/
def Group.push (g : Group) (ex : W32) (v : Nat → W64) : Group :=
  { g with
    queue := (Store.ofLanes fun l => if ex.getLsbD l then v l else g.age 0 l) :: g.queue.take 15
    pushes := g.pushes + 1 }

/-- A window's word written in the executing lanes. -/
def Group.setWin (g : Group) (ex : W32) (n : BitVec 5) (w : Nat) (v : Nat → W32) : Group :=
  { g with win := (laneList ex).foldl (fun m l => Store.write m (winKey n w l) (v l)) g.win }

def Group.setScal (g : Group) (n : Nat) (v : W64) : Group := { g with scal := Store.write g.scal n v }

/-- A result in its named destination (02 R40, R42): a window in each executing lane, a scalar from the lowest. -/
def Group.writeDst (g : Group) (ex : W32) (d : Dst) (wide : Bool) (v : Nat → W64) : Group :=
  match d with
  | .queue => g
  | .w n =>
    let g := g.setWin ex n 0 fun l => (v l).setWidth 32
    if wide then g.setWin ex n 1 fun l => (v l).extractLsb' 32 32 else g
  | .s n =>
    match lowestLane ex with
    | some l => g.setScal n.toNat (v l)
    | none => g

/-- A result of an instruction that completes in order: one push and the destination (02 R38, R40, R42). -/
def Group.result (g : Group) (ex : W32) (d : Dst) (wide : Bool) (v : Nat → W64) : Group :=
  (g.push ex v).writeDst ex d wide v

/-- The same value in every executing lane. -/
def Group.resultAll (g : Group) (ex : W32) (d : Dst) (wide : Bool) (v : W64) : Group := g.result ex d wide fun _ => v

end Sys2Proof.Machine
end

