-- ==== Sys2Proof/Machine/Flags.lean ====
section
/-!
DEFINITION. Flag computations: completion flags (01 R18, R19, 02 R26) and the sticky and trap bits of FPST
(04 R115-R117).
-/

namespace Sys2Proof.Machine

/-- One-hot mask of a completion flag; none for 0xF. -/
def flagMask (f : BitVec 4) : BitVec 12 := if f.toNat < 12 then 1#12 <<< f.toNat else 0

/-- The flags a clause sets when it starts. -/
def setMask (h : Header) : BitVec 12 := flagMask h.setA ||| flagMask h.setB

/-- The wait mask, widened by the flags the clause is about to set (01 R19). -/
def waitMask (h : Header) : BitVec 12 := h.wait ||| setMask h

/-- The flag a clause's flag-bound instruction is bound to, after `n` earlier ones (01 R18). -/
def boundFlag (h : Header) (n : Nat) : BitVec 4 := if n == 0 || h.setB == 15 then h.setA else h.setB

/-- Whether a word's instruction is flag-bound. -/
def flagWord (w : W64) : Bool := flagOp (Raw.ofWord w).op.toNat

/-- The flag of a flag-bound word; every run of REP has the same one (01 R18, 03 R108). -/
def Run.flag (r : Run) : BitVec 4 :=
  if r.rep.isSome && r.idx == 2 && r.runNo != 0 then boundFlag r.hdr (r.bound - 1) else boundFlag r.hdr r.bound

/-- The clause after a flag-bound word has been bound. -/
def Run.bind (r : Run) : Run :=
  if r.rep.isSome && r.idx == 2 && r.runNo != 0 then r else { r with bound := r.bound + 1 }

/-- The clause as a word leaves it that is passed over without running: a flag-bound word has had its flag, and the next
such word is bound to the next (01 R18, 14 R392). -/
def Run.passed (r : Run) : Run :=
  if ((r.words[r.idx - 1]?).map flagWord).getD false then r.bind else r

/-- Flags that the words from the next one on are to be bound to (01 R18): their operations are yet to complete. -/
def Run.awaited (r : Run) : BitVec 12 :=
  let again := r.rep.isSome && r.idx == 2 && r.runNo != 0 && ((r.words[1]?).map flagWord).getD false
  let n := if again then r.bound - 1 else r.bound
  match (r.words.drop (r.idx - 1)).filter flagWord with
  | [] => 0
  | [_] => flagMask (boundFlag r.hdr n)
  | _ => flagMask (boundFlag r.hdr n) ||| flagMask (boundFlag r.hdr (n + 1))

def Group.setFlags (g : Group) (m : BitVec 12) : Group := { g with flags := g.flags ||| m }
def Group.clearFlags (g : Group) (m : BitVec 12) : Group := { g with flags := g.flags &&& ~~~m }

/-- FPST: the sticky exceptions raised in a lane. -/
def Group.raise (g : Group) (l : Nat) (x : W32) : Group :=
  if x = 0 then g else { g with fpst := Store.write g.fpst l (Store.read g.fpst l ||| x) }

/-- Sticky bits raised in every lane of a set. -/
def Group.raiseAll (g : Group) (ex : W32) (x : Nat → W32) : Group :=
  (laneList ex).foldl (fun h l => h.raise l (x l)) g

end Sys2Proof.Machine
end

