-- ==== Sys2Proof/Machine/Num.lean ====
section
/-!
DEFINITION. Exact arithmetic and rounding: the `round` and `fround` helpers of 02 Table 2.11, the formats of
04 Table 4.1, and the special-value rules of 04 R113, R114, which the variable-length and the matrix
arithmetic share.
-/

namespace Sys2Proof

/-- Rounding modes: the four of 02 Table 2.5 and the two more of 05 Table 5.4. -/
inductive RMode where
  | rne | rtz | rup | rdn | rna | rto
  deriving DecidableEq, Repr

def Rnd.mode : Rnd → RMode
  | .rne => .rne | .rtz => .rtz | .rup => .rup | .rdn => .rdn

/-- A number `(-1)^neg * m * 2^e`, or a value that is no number.  A zero has `m = 0` and its sign. -/
inductive Fp where
  | nan (sig : Bool)
  | inf (neg : Bool)
  | fin (neg : Bool) (m : Nat) (e : Int)
  deriving DecidableEq, Repr

/-- Exceptions in the bit order of FPST (04 Table 4.2). -/
def xNV : W32 := 0x1
def xDZ : W32 := 0x2
def xOF : W32 := 0x4
def xUF : W32 := 0x8
def xNX : W32 := 0x10
def xCF : W32 := 0x400
def xWF : W32 := 0x800

def shl (m : Nat) (k : Nat) : Nat := m * 2 ^ k
def intToNat (i : Int) : Nat := i.toNat

/-- Exponent of the leading bit of `m * 2^e`, for `m` other than 0. -/
def topExp (m : Nat) (e : Int) : Int := Int.ofNat (Nat.log2 m) + e

/-- `m * 2^e` in units of `2^q`, rounded, and whether anything was lost. -/
def roundAt (mode : RMode) (neg : Bool) (m : Nat) (e q : Int) : Nat × Bool :=
  if q ≤ e then (shl m (e - q).toNat, false)
  else
    let k := (q - e).toNat
    let tiny := decide (Nat.log2 m + 2 < k)
    let hi := if tiny then 0 else m / 2 ^ k
    let lo := if tiny then m else m % 2 ^ k
    if lo = 0 then (hi, false)
    else
      let twice : Ordering := if tiny then .lt else compare (2 * lo) (2 ^ k)
      let up : Bool := match mode with
        | .rne => twice == .gt || (twice == .eq && hi % 2 == 1)
        | .rtz => false
        | .rup => !neg
        | .rdn => neg
        | .rna => twice != .lt
        | .rto => hi % 2 == 0
      (if up then hi + 1 else hi, true)

/-- `m * 2^e` rounded to `p` bits with an unbounded exponent: significand, exponent of its last bit, and
whether anything was lost (02 T 2.11). -/
def roundTo (mode : RMode) (neg : Bool) (m : Nat) (e : Int) (p : Nat) : Nat × Int × Bool :=
  if m = 0 then (0, 0, false)
  else
    let q := topExp m e - (Int.ofNat p - 1)
    let r := roundAt mode neg m e q
    (r.1, q, r.2)

/-- Sum of two nonzero-or-zero dyadics as sign, magnitude, exponent.  Where the exponents lie further apart than any
significand reaches, the smaller one is kept as a last bit of 1, which every rounding of this file reads as it would
read the exact sum. -/
def dyAdd (n1 : Bool) (m1 : Nat) (e1 : Int) (n2 : Bool) (m2 : Nat) (e2 : Int) : Bool × Nat × Int :=
  if m1 = 0 then (n2, m2, e2)
  else if m2 = 0 then (n1, m1, e1)
  else
    let t1 := topExp m1 e1
    let t2 := topExp m2 e2
    let far (nb : Bool) (mb : Nat) (eb : Int) (ns : Bool) : Bool × Nat × Int :=
      let big := shl mb 2701
      (nb, (if nb == ns then big + 1 else big - 1), eb - 2701)
    if t1 - t2 > 4000 then far n1 m1 e1 n2
    else if t2 - t1 > 4000 then far n2 m2 e2 n1
    else
      let e := min e1 e2
      let a := shl m1 (e1 - e).toNat
      let b := shl m2 (e2 - e).toNat
      if n1 == n2 then (n1, a + b, e)
      else if b ≤ a then (n1, a - b, e)
      else (n2, b - a, e)

/-- Compare magnitudes. -/
def dyCmp (m1 : Nat) (e1 : Int) (m2 : Nat) (e2 : Int) : Ordering :=
  if m1 = 0 then (if m2 = 0 then .eq else .lt)
  else if m2 = 0 then .gt
  else
    let t1 := topExp m1 e1
    let t2 := topExp m2 e2
    if t1 < t2 then .lt
    else if t2 < t1 then .gt
    else
      let e := min e1 e2
      compare (shl m1 (e1 - e).toNat) (shl m2 (e2 - e).toNat)

/-- Compare two numbers with their signs; zeros are equal. -/
def numCmp (n1 : Bool) (m1 : Nat) (e1 : Int) (n2 : Bool) (m2 : Nat) (e2 : Int) : Ordering :=
  if m1 = 0 && m2 = 0 then .eq
  else if m1 = 0 then (if n2 then .gt else .lt)
  else if m2 = 0 then (if n1 then .lt else .gt)
  else if n1 != n2 then (if n1 then .lt else .gt)
  else if n1 then dyCmp m2 e2 m1 e1
  else dyCmp m1 e1 m2 e2

/-- Floor of the square root, one bit of the root at a time from bit `k - 1`. -/
def isqrt (n : Nat) : Nat → Nat → Nat
  | 0, r => r
  | k + 1, r => if (r + 2 ^ k) * (r + 2 ^ k) ≤ n then isqrt n k (r + 2 ^ k) else isqrt n k r

/-- Quotient of magnitudes to more than 300 bits, the remainder kept as a last bit of 1. -/
def dyDiv (m1 : Nat) (e1 : Int) (m2 : Nat) (e2 : Int) : Nat × Int :=
  let k := 300 + Nat.log2 m2
  let n := shl m1 k
  let q := n / m2
  let e := e1 - e2 - Int.ofNat k
  if n % m2 = 0 then (q, e) else (2 * q + 1, e - 1)

/-- Square root of a magnitude to more than 300 bits, a remainder kept as a last bit of 1. -/
def dySqrt (m : Nat) (e : Int) : Nat × Int :=
  let k := if (e - 700) % 2 = 0 then 700 else 701
  let n := shl m k
  let e' := e - Int.ofNat k
  let r := isqrt n (Nat.log2 n / 2 + 1) 0
  if r * r = n then (r, e' / 2) else (2 * r + 1, e' / 2 - 1)

/-! ## Operations on numbers and special values (04 R113, R114, R121; 05 T 5.11) -/

def Fp.isNan : Fp → Bool | .nan _ => true | _ => false
def Fp.isSNan : Fp → Bool | .nan b => b | _ => false
def Fp.isInf : Fp → Bool | .inf _ => true | _ => false
def Fp.isZero : Fp → Bool | .fin _ m _ => m = 0 | _ => false
def Fp.sign : Fp → Bool | .nan _ => false | .inf n => n | .fin n _ _ => n
def Fp.negate : Fp → Fp
  | .nan s => .nan s | .inf n => .inf (!n) | .fin n m e => .fin (!n) m e

/-- Invalid if any operand is signalling, and the quiet NaN. -/
def nanOf (l : List Fp) : Fp × W32 := (.nan false, if l.any Fp.isSNan then xNV else 0)

/-- Exact sum: exact zeros of opposite signs by the mode (04 R113, 05 R141); two zeros of one sign keep it, those of FATOM.add
among them (13 R365; log 142). -/
def addExact (mode : RMode) (n1 : Bool) (m1 : Nat) (e1 : Int) (n2 : Bool) (m2 : Nat) (e2 : Int) : Fp :=
  if m1 = 0 && m2 = 0 then .fin (if n1 == n2 then n1 else mode == .rdn) 0 0
  else
    let r := dyAdd n1 m1 e1 n2 m2 e2
    if r.2.1 = 0 then .fin (mode == .rdn) 0 0 else .fin r.1 r.2.1 r.2.2

def Fp.add (mode : RMode) (a b : Fp) : Fp × W32 :=
  if a.isNan || b.isNan then nanOf [a, b]
  else match a, b with
    | .inf x, .inf y => if x == y then (.inf x, 0) else (.nan false, xNV)
    | .inf x, _ => (.inf x, 0)
    | _, .inf y => (.inf y, 0)
    | .fin n1 m1 e1, .fin n2 m2 e2 => (addExact mode n1 m1 e1 n2 m2 e2, 0)
    | _, _ => nanOf [a, b]

def Fp.sub (mode : RMode) (a b : Fp) : Fp × W32 := Fp.add mode a b.negate

def Fp.mul (a b : Fp) : Fp × W32 :=
  if a.isNan || b.isNan then nanOf [a, b]
  else
    let s := a.sign != b.sign
    if (a.isInf && b.isZero) || (a.isZero && b.isInf) then (.nan false, xNV)
    else if a.isInf || b.isInf then (.inf s, 0)
    else match a, b with
      | .fin _ m1 e1, .fin _ m2 e2 => (.fin s (m1 * m2) (e1 + e2), 0)
      | _, _ => nanOf [a, b]

/-- a × b + c with one rounding to follow. -/
def Fp.fma (mode : RMode) (a b c : Fp) : Fp × W32 :=
  let p := Fp.mul a b
  if p.2 != 0 then (.nan false, xNV)
  else if p.1.isNan || c.isNan then nanOf [a, b, c]
  else Fp.add mode p.1 c

def Fp.div (a b : Fp) : Fp × W32 :=
  if a.isNan || b.isNan then nanOf [a, b]
  else
    let s := a.sign != b.sign
    if (a.isInf && b.isInf) || (a.isZero && b.isZero) then (.nan false, xNV)
    else if a.isInf then (.inf s, 0)
    else if b.isInf then (.fin s 0 0, 0)
    else if b.isZero then (.inf s, xDZ)
    else match a, b with
      | .fin _ m1 e1, .fin _ m2 e2 =>
        if m1 = 0 then (.fin s 0 0, 0) else let q := dyDiv m1 e1 m2 e2; (.fin s q.1 q.2, 0)
      | _, _ => nanOf [a, b]

def Fp.sqrt (a : Fp) : Fp × W32 :=
  match a with
  | .nan s => (.nan false, if s then xNV else 0)
  | .inf n => if n then (.nan false, xNV) else (.inf false, 0)
  | .fin n m e =>
    if m = 0 then (.fin n 0 0, 0)
    else if n then (.nan false, xNV)
    else let r := dySqrt m e; (.fin false r.1 r.2, 0)

/-- Comparison of two values that are no NaN. -/
def Fp.cmp (a b : Fp) : Ordering :=
  match a, b with
  | .inf x, .inf y => if x == y then .eq else if x then .lt else .gt
  | .inf x, _ => if x then .lt else .gt
  | _, .inf y => if y then .gt else .lt
  | .fin n1 m1 e1, .fin n2 m2 e2 => numCmp n1 m1 e1 n2 m2 e2
  | _, _ => .eq

/-- FCMP and VCMP (04 R123, 05 R153): the answer and the exception. -/
def Fp.pred (p : FPred) (a b : Fp) : Bool × W32 :=
  let un := a.isNan || b.isNan
  let sig := a.isSNan || b.isSNan
  let c := Fp.cmp a b
  let quiet : W32 := if sig then xNV else 0
  let loud : W32 := if un then xNV else 0
  match p with
  | .eq => (!un && c == .eq, quiet)
  | .ne => (un || c != .eq, quiet)
  | .lt => (!un && c == .lt, loud)
  | .le => (!un && c != .gt, loud)
  | .gt => (!un && c == .gt, loud)
  | .ge => (!un && c != .lt, loud)
  | .uo => (un, quiet)
  | .or => (!un, quiet)

/-- A number rounded to an integer under a mode: magnitude and whether it changed. -/
def roundInt (mode : RMode) (neg : Bool) (m : Nat) (e : Int) : Nat × Bool := roundAt mode neg m e 0

/-! ## Binary interchange formats (04 Table 4.1) -/

/-- Exponent and fraction widths. -/
structure Fmt where
  eb : Nat
  fb : Nat
  deriving DecidableEq, Repr

def fmt32 : Fmt := ⟨8, 23⟩
def fmt64 : Fmt := ⟨11, 52⟩
def fmt16 : Fmt := ⟨5, 10⟩
def fmtBf : Fmt := ⟨8, 7⟩

/-- The format of a type, or of its elements. -/
def FpTy.fmt : FpTy → Fmt
  | .f32 => fmt32 | .f64 => fmt64 | .f16 | .f16x2 => fmt16 | .bf16 | .bf16x2 => fmtBf

def Fmt.bias (f : Fmt) : Int := Int.ofNat (2 ^ (f.eb - 1)) - 1
def Fmt.emin (f : Fmt) : Int := 1 - f.bias
def Fmt.width (f : Fmt) : Nat := 1 + f.eb + f.fb
def Fmt.expOnes (f : Fmt) : Nat := 2 ^ f.eb - 1
def Fmt.signBit (f : Fmt) (neg : Bool) : Nat := if neg then 2 ^ (f.eb + f.fb) else 0
/-- The canonical quiet NaN (02 T 2.11). -/
def Fmt.qnan (f : Fmt) : Nat := f.expOnes * 2 ^ f.fb + 2 ^ (f.fb - 1)
def Fmt.infBits (f : Fmt) (neg : Bool) : Nat := f.signBit neg + f.expOnes * 2 ^ f.fb
def Fmt.maxBits (f : Fmt) (neg : Bool) : Nat := f.infBits neg - 1

/-- The value of a bit pattern. -/
def Fmt.unpack (f : Fmt) (b : Nat) : Fp :=
  let frac := b % 2 ^ f.fb
  let ex := b / 2 ^ f.fb % 2 ^ f.eb
  let neg := b / 2 ^ (f.eb + f.fb) % 2 == 1
  if ex = f.expOnes then
    if frac = 0 then .inf neg else .nan (frac < 2 ^ (f.fb - 1))
  else if ex = 0 then .fin neg frac (f.emin - Int.ofNat f.fb)
  else .fin neg (2 ^ f.fb + frac) (Int.ofNat ex - f.bias - Int.ofNat f.fb)

/-- A subnormal bit pattern. -/
def Fmt.isSub (f : Fmt) (b : Nat) : Bool := b / 2 ^ f.fb % 2 ^ f.eb = 0 && b % 2 ^ f.fb != 0

/-- The value read under the ftz bit (04 R112). -/
def Fmt.read (f : Fmt) (ftz : Bool) (b : Nat) : Fp :=
  if ftz && f.isSub b then .fin (b / 2 ^ (f.eb + f.fb) % 2 == 1) 0 0 else f.unpack b

/-- Bits of a rounded significand in units of `2^q`, with `q` at or above the subnormal grid. -/
def Fmt.pack (f : Fmt) (neg : Bool) (m : Nat) (q : Int) : Nat :=
  let grid := f.emin - Int.ofNat f.fb
  -- a carry out of the fraction raises the exponent by one
  f.signBit neg + (if m < 2 ^ f.fb then m else (q - grid).toNat * 2 ^ f.fb + m)

/-- fround (02 T 2.11): IEEE rounding of `m * 2^e` with tininess after rounding (04 R111) and the ftz
rule (04 R112). -/
def fround (f : Fmt) (mode : RMode) (ftz : Bool) (neg : Bool) (m : Nat) (e : Int) : Nat × W32 :=
  if m = 0 then (f.signBit neg, 0)
  else
    let p := f.fb + 1
    let u := roundTo mode neg m e p
    let top := topExp u.1 u.2.1
    if f.bias < top then
      let toInf : Bool := match mode with
        | .rne | .rna => true
        | .rtz | .rto => false
        | .rup => !neg
        | .rdn => neg
      (if toInf then f.infBits neg else f.maxBits neg, xOF ||| xNX)
    else
      let tiny := decide (top < f.emin)
      let q := max (topExp m e - Int.ofNat f.fb) (f.emin - Int.ofNat f.fb)
      let r := roundAt mode neg m e q
      let nx : W32 := if r.2 then xNX else 0
      let uf : W32 := if tiny && r.2 then xUF else 0
      let bits := f.pack neg r.1 q
      if ftz && f.isSub bits then (f.signBit neg, xUF ||| xNX) else (bits, nx ||| uf)

/-- A value delivered in a format (04 R110, R114), with the exceptions raised before the rounding. -/
def deliver (f : Fmt) (mode : RMode) (ftz : Bool) (x : Fp × W32) : Nat × W32 :=
  match x.1 with
  | .nan _ => (f.qnan, x.2)
  | .inf n => (f.infBits n, x.2)
  | .fin n m e => let r := fround f mode ftz n m e; (r.1, r.2 ||| x.2)

end Sys2Proof
end

