-- ==== Sys2Proof/Machine/FpOps.lean ====
section
/-!
DEFINITION. The floating-point functions of 04 on the operand values of one lane: each answers the result
(zero-extended to 64 bits) and the exceptions raised, in FPST bit order.
-/

namespace Sys2Proof

/-- A function of one element at the type's format, over a scalar or both elements of a packed type (04 R109, R110). -/
def fpMap1 (t : FpTy) (f : Fmt → Nat → Nat × W32) (a : W64) : W64 × W32 :=
  let x := a.toNat
  match t with
  | .f16x2 | .bf16x2 =>
    let r0 := f t.fmt (x % 2 ^ 16)
    let r1 := f t.fmt (x / 2 ^ 16 % 2 ^ 16)
    (BitVec.ofNat 64 (r0.1 + r1.1 * 2 ^ 16), r0.2 ||| r1.2)
  | _ => let r := f t.fmt (x % 2 ^ t.fmt.width); (BitVec.ofNat 64 r.1, r.2)

def fpMap2 (t : FpTy) (f : Fmt → Nat → Nat → Nat × W32) (a b : W64) : W64 × W32 :=
  let x := a.toNat
  let y := b.toNat
  match t with
  | .f16x2 | .bf16x2 =>
    let r0 := f t.fmt (x % 2 ^ 16) (y % 2 ^ 16)
    let r1 := f t.fmt (x / 2 ^ 16 % 2 ^ 16) (y / 2 ^ 16 % 2 ^ 16)
    (BitVec.ofNat 64 (r0.1 + r1.1 * 2 ^ 16), r0.2 ||| r1.2)
  | _ => let r := f t.fmt (x % 2 ^ t.fmt.width) (y % 2 ^ t.fmt.width); (BitVec.ofNat 64 r.1, r.2)

def fpMap3 (t : FpTy) (f : Fmt → Nat → Nat → Nat → Nat × W32) (a b c : W64) : W64 × W32 :=
  let x := a.toNat
  let y := b.toNat
  let z := c.toNat
  match t with
  | .f16x2 | .bf16x2 =>
    let r0 := f t.fmt (x % 2 ^ 16) (y % 2 ^ 16) (z % 2 ^ 16)
    let r1 := f t.fmt (x / 2 ^ 16 % 2 ^ 16) (y / 2 ^ 16 % 2 ^ 16) (z / 2 ^ 16 % 2 ^ 16)
    (BitVec.ofNat 64 (r0.1 + r1.1 * 2 ^ 16), r0.2 ||| r1.2)
  | _ =>
    let r := f t.fmt (x % 2 ^ t.fmt.width) (y % 2 ^ t.fmt.width) (z % 2 ^ t.fmt.width)
    (BitVec.ofNat 64 r.1, r.2)

/-- FADD, FSUB, FMUL, FDIV (04 R121). -/
def fArith2 (op : RMode → Fp → Fp → Fp × W32) (t : FpTy) (r : Rnd) (ftz : Bool) (a b : W64) : W64 × W32 :=
  fpMap2 t (fun f x y => deliver f r.mode ftz (op r.mode (f.read ftz x) (f.read ftz y))) a b

def faddVal := fArith2 Fp.add
def fsubVal := fArith2 Fp.sub
def fmulVal := fArith2 fun _ => Fp.mul
def fdivVal := fArith2 fun _ => Fp.div

/-- FFMA (04 R121). -/
def ffmaVal (t : FpTy) (r : Rnd) (ftz : Bool) (a b c : W64) : W64 × W32 :=
  fpMap3 t (fun f x y z => deliver f r.mode ftz (Fp.fma r.mode (f.read ftz x) (f.read ftz y) (f.read ftz z))) a b c

def fsqrtVal (t : FpTy) (r : Rnd) (ftz : Bool) (a : W64) : W64 × W32 :=
  fpMap1 t (fun f x => deliver f r.mode ftz (Fp.sqrt (f.read ftz x))) a

/-- a lies below b, with −0 below +0 (04 R122). -/
def Fp.below (a b : Fp) : Bool :=
  match Fp.cmp a b with
  | .lt => true
  | .gt => false
  | .eq => a.sign && !b.sign

/-- Minimum and maximum (04 R122, T 4.5): `num` for the Number forms. -/
def minMax (isMax num : Bool) (a b : Fp) : Fp × W32 :=
  let nv : W32 := if a.isSNan || b.isSNan then xNV else 0
  if a.isNan && b.isNan then (.nan false, nv)
  else if a.isNan then (if num then b else .nan false, nv)
  else if b.isNan then (if num then a else .nan false, nv)
  else (if Fp.below a b != isMax then a else b, 0)

/-- A value that a format holds, delivered without rounding. -/
def deliverExact (f : Fmt) (x : Fp × W32) : Nat × W32 :=
  match x.1 with
  | .nan _ => (f.qnan, x.2)
  | .inf n => (f.infBits n, x.2)
  | .fin n m e => ((fround f .rtz false n m e).1, x.2)

def fminmaxVal (isMax num : Bool) (t : FpTy) (ftz : Bool) (a b : W64) : W64 × W32 :=
  fpMap2 t (fun f x y => deliverExact f (minMax isMax num (f.read ftz x) (f.read ftz y))) a b

/-- FCMP (04 R123): one bit per element. -/
def fcmpVal (p : FPred) (t : FpTy) (ftz : Bool) (a b : W64) : W64 × W32 :=
  let f := t.fmt
  let el := fun i =>
    Fp.pred p (f.read ftz (a.toNat / 2 ^ (i * f.width) % 2 ^ f.width)) (f.read ftz (b.toNat / 2 ^ (i * f.width) % 2 ^ f.width))
  match t with
  | .f16x2 | .bf16x2 =>
    let r0 := el 0
    let r1 := el 1
    (boolVal r0.1 ||| (boolVal r1.1 <<< 1), r0.2 ||| r1.2)
  | _ => let r := el 0; (boolVal r.1, r.2)

/-- FCLS (04 R124). -/
def fclsVal (t : FpTy) (a : W64) : W64 :=
  let f := t.fmt
  let b := a.toNat % 2 ^ f.width
  let c : Nat := match f.unpack b with
    | .nan s => if s then 0 else 1
    | .inf n => if n then 2 else 9
    | .fin n m _ =>
      if m = 0 then (if n then 5 else 6)
      else if f.isSub b then (if n then 4 else 7)
      else (if n then 3 else 8)
  BitVec.ofNat 64 (2 ^ c)

/-- FRND (04 R125). -/
def frndVal (exact : Bool) (t : FpTy) (r : Rnd) (ftz : Bool) (a : W64) : W64 × W32 :=
  fpMap1 t (fun f x =>
    match f.read ftz x with
    | .nan s => (f.qnan, if s then xNV else 0)
    | .inf n => (f.infBits n, 0)
    | .fin n m e =>
      let i := roundInt r.mode n m e
      ((fround f .rtz false n i.1 0).1, if exact && i.2 then xNX else 0)) a

/-- A value made an integer of a type, saturating (04 R126, 05 R154). -/
def toIntType (t : IntTy) (mode : RMode) (x : Fp) : W64 × W32 :=
  match x with
  | .nan _ => (0, xNV)
  | .inf n => (t.form (if n then t.min else t.max), xNV)
  | .fin n m e =>
    if m = 0 then (0, 0)
    else if 80 < topExp m e then (t.form (if n then t.min else t.max), xNV)
    else
      let r := roundInt mode n m e
      let i : Int := if n then -Int.ofNat r.1 else Int.ofNat r.1
      if i < t.min then (t.form t.min, xNV)
      else if t.max < i then (t.form t.max, xNV)
      else (t.form i, if r.2 then xNX else 0)

/-- An integer as a number. -/
def intFp (i : Int) : Fp := .fin (i < 0) i.natAbs 0

/-- CVT (04 R126). -/
def cvtVal (dty sty : NumTy) (r : Rnd) (ftz : Bool) (a : W64) : W64 × W32 :=
  match dty, sty with
  | .fp d, .int s => let x := deliver d.fmt r.mode ftz (intFp (s.toInt a), 0); (BitVec.ofNat 64 x.1, x.2)
  | .fp d, .fp s =>
    let v := s.fmt.read ftz (a.toNat % 2 ^ s.fmt.width)
    let x := deliver d.fmt r.mode ftz (v, if v.isSNan then xNV else 0)
    (BitVec.ofNat 64 x.1, x.2)
  | .int d, .fp s => toIntType d r.mode (s.fmt.read ftz (a.toNat % 2 ^ s.fmt.width))
  | .int _, .int _ => (a, 0)

/-- FPACK.pack (04 R127). -/
def fpackVal (bf from64 : Bool) (r : Rnd) (ftz : Bool) (a b : W64) : W64 × W32 :=
  let src := if from64 then fmt64 else fmt32
  let dst := if bf then fmtBf else fmt16
  let el := fun (x : W64) =>
    let v := src.read ftz (x.toNat % 2 ^ src.width)
    deliver dst r.mode ftz (v, if v.isSNan then xNV else 0)
  let r0 := el a
  let r1 := el b
  (BitVec.ofNat 64 (r0.1 + r1.1 * 2 ^ 16), r0.2 ||| r1.2)

/-- FPACK.ulo and .uhi (04 R127). -/
def funpackVal (hi to64 bf ftz : Bool) (a : W64) : W64 × W32 :=
  let src := if bf then fmtBf else fmt16
  let dst := if to64 then fmt64 else fmt32
  let v := src.read ftz (a.toNat / (if hi then 2 ^ 16 else 1) % 2 ^ 16)
  let x := deliver dst .rne ftz (v, if v.isSNan then xNV else 0)
  (BitVec.ofNat 64 x.1, x.2)

/-- Exact sum of three terms, zeros by 04 R113. -/
def sum3 (mode : RMode) (x y z : Fp) : Fp × W32 :=
  let infs := [x, y, z].filter Fp.isInf
  if infs.any Fp.sign && infs.any (fun i => !i.sign) then (.nan false, xNV)
  else match infs with
    | i :: _ => (i, 0)
    | [] =>
      match x, y, z with
      | .fin n1 m1 e1, .fin n2 m2 e2, .fin n3 m3 e3 =>
        let s := dyAdd n1 m1 e1 n2 m2 e2
        let t := dyAdd s.1 s.2.1 s.2.2 n3 m3 e3
        if t.2.1 = 0 then (.fin (if n1 == n2 && n2 == n3 then n1 else mode == .rdn) 0 0, 0)
        else (.fin t.1 t.2.1 t.2.2, 0)
      | _, _, _ => (.nan false, 0)

/-- FDOT2 (04 R128).  A quiet NaN among the terms delivers a quiet NaN without NV, whatever the other terms are (log
113). -/
def fdot2Val (t : FpTy) (r : Rnd) (ftz : Bool) (a b c : W64) : W64 × W32 :=
  let f := t.fmt
  let el := fun (x : W64) i => f.read ftz (x.toNat / 2 ^ (16 * i) % 2 ^ 16)
  let cv := fmt32.read ftz (c.toNat % 2 ^ 32)
  let p0 := Fp.mul (el a 0) (el b 0)
  let p1 := Fp.mul (el a 1) (el b 1)
  let nv := p0.2 ||| p1.2 ||| (if cv.isSNan then xNV else 0)
  let s := if p0.1.isNan || p1.1.isNan || cv.isNan then (Fp.nan false, nv)
           else let q := sum3 r.mode p0.1 p1.1 cv; (q.1, q.2 ||| nv)
  let x := deliver fmt32 r.mode ftz s
  (BitVec.ofNat 64 x.1, x.2)

/-! ## The special-function unit (04 R129, R130) -/

/-- Fixed point of 128 fraction bits. -/
def fxOne : Nat := 2 ^ 128
def fxLn2 : Nat := 235865763225513294137944142764154484399
def fxPi : Nat := 1069028584064966747859680373161870783300
def fxLog2e : Nat := 490923683258796565746369346286093237521
def fxMul (a b : Nat) : Nat := a * b / 2 ^ 128

/-- Sum of `term * t / k` from `k` on, `n` terms: the exponential series. -/
def expSeries (t : Nat) : Nat → Nat → Nat → Nat → Nat
  | 0, _, _, acc => acc
  | n + 1, k, term, acc =>
    let term' := fxMul term t / k
    expSeries t n (k + 1) term' (acc + term')

/-- 2^f for a fixed-point f below 1. -/
def exp2Frac (f : Nat) : Nat := expSeries (fxMul f fxLn2) 40 1 fxOne fxOne

/-- Fraction bits of log2 of `v` in [1, 2), by squaring. -/
def log2Bits : Nat → Nat → Nat → Nat
  | 0, _, acc => acc
  | n + 1, v, acc =>
    let s := fxMul v v
    if 2 * fxOne ≤ s then log2Bits n (s / 2) (2 * acc + 1) else log2Bits n s (2 * acc)

/-- sin(t) / t for the square of t in fixed point, by its alternating series. -/
def sincSeries (t2 : Nat) : Nat → Nat → Int → Int → Int
  | 0, _, _, acc => acc
  | n + 1, k, term, acc =>
    let term' := -(term * Int.ofNat t2 / (2 ^ 128 * Int.ofNat (2 * k * (2 * k + 1))))
    sincSeries t2 n (k + 1) term' (acc + term')

/-- A dyadic as fixed point, truncated. -/
def fxOf (m : Nat) (e : Int) : Nat :=
  let s := e + 128
  if 0 ≤ s then shl m s.toNat else if Nat.log2 m < (-s).toNat then 0 else m / 2 ^ (-s).toNat

/-- 2^x to better than 2^-60 of itself. -/
def exp2Near (neg : Bool) (m : Nat) (e : Int) : Nat × Int :=
  let fl := roundAt .rdn neg m e 0
  let i : Int := if neg then -Int.ofNat fl.1 else Int.ofNat fl.1
  let d := dyAdd neg m e (decide (0 < i)) i.natAbs 0
  (exp2Frac (fxOf d.2.1 d.2.2), i - 128)

def log2Near (m : Nat) (e : Int) : Bool × Nat × Int :=
  let t := topExp m e
  let v := shl m (128 - Nat.log2 m)
  dyAdd (t < 0) t.natAbs 0 false (log2Bits 64 v 0) (-64)

/-- sin(πx): the sign, and the magnitude to better than 2^-60 of itself.  The argument is taken to its distance
from the nearest integer, which is exact. -/
def sinpiNear (neg : Bool) (m : Nat) (e : Int) : Bool × Nat × Int :=
  let n := roundAt .rne neg m e 0
  let d := dyAdd neg m e (!neg) n.1 0
  let t := fxOf d.2.1 d.2.2
  let pt := fxMul t fxPi
  let s := sincSeries (fxMul pt pt) 24 1 (Int.ofNat fxOne) (Int.ofNat fxOne)
  let y := d.2.1 * fxPi * s.toNat
  -- away from the half-integers the sine is below 1, however near
  if dyCmp y (d.2.2 - 256) 1 0 == .lt then (d.1 != (n.1 % 2 == 1), y, d.2.2 - 256)
  else (d.1 != (n.1 % 2 == 1), 2 ^ 128 - 1, -128)

/-- tanh|x| for 2^-12 ≤ |x| < 9. -/
def tanhNear (m : Nat) (e : Int) : Nat × Int :=
  let u := fxMul (2 * fxOf m e) fxLog2e
  let i := u / fxOne
  let ex := exp2Frac (u % fxOne) * 2 ^ i
  ((ex - fxOne) * fxOne / (ex + fxOne), -128)

/-- Exponent of one unit in the last place of a magnitude (04 R129). -/
def ulpExp (m : Nat) (e : Int) : Int := max (topExp m e) (-126) - 23

/-- What the unit delivers where only a bound is given: the part's own value (`Config.sfu`) where it lies within
`k` units of `2^u` of `(-1)^neg * m * 2^e`, and the nearest value otherwise.  The bound is narrowed by 2^-30 of a
unit, which is more than the error of the approximation, so that it is never passed (log 10). -/
def sfuBounded (fn : Nat) (x : W32) (neg : Bool) (m : Nat) (e : Int) (k : Nat) (u : Int) : Nat :=
  let c := (Config.sfu fn x).toNat
  let base := (fround fmt32 .rne false neg m e).1
  match fmt32.unpack c with
  | .fin cn cm ce =>
    let d := dyAdd cn cm ce (!neg) m e
    if dyCmp d.2.1 d.2.2 (k * 2 ^ 30 - 1) (u - 30) == .gt then base else c
  | _ => base

/-- A power of two: its exponent. -/
def powerOf (m : Nat) (e : Int) : Option Int :=
  if m != 0 && m == 2 ^ Nat.log2 m then some (topExp m e) else none

def pow2Bits (neg : Bool) (k : Int) : Nat := (fround fmt32 .rne false neg 1 k).1

def frcp32 (x : W32) : Nat × W32 :=
  match fmt32.unpack x.toNat with
  | .nan s => (fmt32.qnan, if s then xNV else 0)
  | .inf n => (fmt32.signBit n, 0)
  | .fin n m e =>
    if m = 0 then (fmt32.infBits n, xDZ)
    else
      let y := dyDiv 1 0 m e
      let b := match powerOf m e with
        | some k => pow2Bits n (-k)
        | none => if 127 < topExp y.1 y.2 then fmt32.infBits n
                  else sfuBounded 0 x n y.1 y.2 1 (ulpExp y.1 y.2)
      (b, if fmt32.isSub b then xUF else 0)

def frsq32 (x : W32) : Nat × W32 :=
  match fmt32.unpack x.toNat with
  | .nan s => (fmt32.qnan, if s then xNV else 0)
  | .inf n => if n then (fmt32.qnan, xNV) else (0, 0)
  | .fin n m e =>
    if m = 0 then (fmt32.infBits n, xDZ)
    else if n then (fmt32.qnan, xNV)
    else
      let y := let s := dySqrt m e; dyDiv 1 0 s.1 s.2
      match powerOf m e with
      | some k => if k % 2 = 0 then (pow2Bits false (-(k / 2)), 0)
                  else (sfuBounded 1 x false y.1 y.2 2 (ulpExp y.1 y.2), 0)
      | none => (sfuBounded 1 x false y.1 y.2 2 (ulpExp y.1 y.2), 0)

def fexp232 (x : W32) : Nat × W32 :=
  match fmt32.unpack x.toNat with
  | .nan s => (fmt32.qnan, if s then xNV else 0)
  | .inf n => (if n then 0 else fmt32.infBits false, 0)
  | .fin n m e =>
    if m = 0 then (pow2Bits false 0, 0)
    else
      let lt := fun (k : Nat) => dyCmp m e k 0 == .lt
      let ge := fun (k : Nat) => dyCmp m e k 0 != .lt
      if !n && ge 128 then (fmt32.infBits false, xOF)
      else if n && dyCmp m e 150 0 == .gt then (0, xUF)
      else
        let i := roundAt .rtz n m e 0
        let isInt := !i.2
        let y := exp2Near n m e
        if n && dyCmp m e 126 0 == .gt then
          (sfuBounded 2 x false y.1 y.2 1 (-149), if isInt then 0 else xUF)
        else if isInt && (lt 128 || n) then (pow2Bits false (if n then -Int.ofNat i.1 else Int.ofNat i.1), 0)
        else (sfuBounded 2 x false y.1 y.2 2 (ulpExp y.1 y.2), 0)

def flog232 (x : W32) : Nat × W32 :=
  match fmt32.unpack x.toNat with
  | .nan s => (fmt32.qnan, if s then xNV else 0)
  | .inf n => if n then (fmt32.qnan, xNV) else (fmt32.infBits false, 0)
  | .fin n m e =>
    if m = 0 then (fmt32.infBits true, xDZ)
    else if n then (fmt32.qnan, xNV)
    else match powerOf m e with
      | some k => ((fround fmt32 .rne false (k < 0) k.natAbs 0).1, 0)
      | none =>
        let y := log2Near m e
        let near := dyCmp m e 1 (-1) != .lt && dyCmp m e 1 1 != .gt
        (if near then sfuBounded 3 x y.1 y.2.1 y.2.2 1 (-23)
         else sfuBounded 3 x y.1 y.2.1 y.2.2 2 (ulpExp y.2.1 y.2.2), 0)

/-- sin(π x) with the exact cases of 04 T 4.6 decided on x. -/
def fsinp32 (x : W32) : Nat × W32 :=
  match fmt32.unpack x.toNat with
  | .nan s => (fmt32.qnan, if s then xNV else 0)
  | .inf _ => (fmt32.qnan, xNV)
  | .fin n m e =>
    if !(roundAt .rtz n m e 0).2 then (fmt32.signBit n, 0)
    else
      let y := sinpiNear n m e
      if !(roundAt .rtz n m e (-1)).2 then (pow2Bits y.1 0, 0)
      else (sfuBounded 4 x y.1 y.2.1 y.2.2 1 (ulpExp y.2.1 y.2.2), 0)

def fcosp32 (x : W32) : Nat × W32 :=
  match fmt32.unpack x.toNat with
  | .nan s => (fmt32.qnan, if s then xNV else 0)
  | .inf _ => (fmt32.qnan, xNV)
  | .fin n m e =>
    let i := roundAt .rtz n m e 0
    if !i.2 then (pow2Bits (i.1 % 2 == 1) 0, 0)
    else if !(roundAt .rtz n m e (-1)).2 then (0, 0)
    else
      let h := dyAdd n m e false 1 (-1)
      let y := sinpiNear h.1 h.2.1 h.2.2
      (sfuBounded 5 x y.1 y.2.1 y.2.2 1 (ulpExp y.2.1 y.2.2), 0)

def ftanh32 (x : W32) : Nat × W32 :=
  match fmt32.unpack x.toNat with
  | .nan s => (fmt32.qnan, if s then xNV else 0)
  | .inf n => (pow2Bits n 0, 0)
  | .fin n m e =>
    if dyCmp m e 1 (-12) == .lt then (x.toNat, 0)
    else if dyCmp m e 9 0 != .lt then (pow2Bits n 0, 0)
    else
      let y := tanhNear m e
      (sfuBounded 6 x n y.1 y.2 2 (ulpExp y.1 y.2), 0)

/-- The unit at a type (04 R130): FP32 as it stands but for ftz; a narrow type through FP32, with no
inexact. -/
def sfuVal (g : W32 → Nat × W32) (t : FpTy) (ftz : Bool) (a : W64) : W64 × W32 :=
  let noNX := fun (e : W32) => e &&& 0xF
  match t with
  | .f32 =>
    let b := a.toNat % 2 ^ 32
    let b := if ftz && fmt32.isSub b then fmt32.signBit (2 ^ 31 ≤ b) else b
    let r := g (BitVec.ofNat 32 b)
    if ftz && fmt32.isSub r.1 then (BitVec.ofNat 64 (fmt32.signBit (2 ^ 31 ≤ r.1)), noNX (r.2 ||| xUF))
    else (BitVec.ofNat 64 r.1, noNX r.2)
  | _ =>
    let f := t.fmt
    let v := f.read ftz (a.toNat % 2 ^ f.width)
    let w := deliver fmt32 .rne false (v, if v.isSNan then xNV else 0)
    let r := g (BitVec.ofNat 32 w.1)
    let x := deliver f .rne ftz (fmt32.unpack r.1, r.2 ||| w.2)
    (BitVec.ofNat 64 x.1, noNX x.2)

end Sys2Proof
end

