-- ==== Sys2Proof/Machine/VlfOps.lean ====
section
/-!
DEFINITION. Variable-length floating point (05): reading an element, delivering a result under PREC (R139),
cancellation (R142, R143), and the functions of the VLF range on one lane's operands.
-/

namespace Sys2Proof

/-! ## PREC (05 Table 5.3) -/

def precW (p : W32) : Nat := (p.extractLsb' 0 9).toNat
def precModeCode (p : W32) : Nat := (p.extractLsb' 9 3).toNat
def precF (p : W32) : Nat := (p.extractLsb' 12 8).toNat
def precTC (p : W32) : Bool := p.getLsbD 20
def precTW (p : W32) : Bool := p.getLsbD 21
def precTI (p : W32) : Bool := p.getLsbD 22
def precTO (p : W32) : Bool := p.getLsbD 23
/-- The working length (05 R137). -/
def workLen (p : W32) : Nat := if precW p = 0 then 32 else precW p
def precMode (p : W32) : RMode :=
  match precModeCode p with
  | 0 => .rne | 1 => .rtz | 2 => .rup | 3 => .rdn | 4 => .rna | _ => .rto
/-- An acceptable PREC (05 R137). -/
def precOk (p : W32) : Bool :=
  (precW p == 0 || (8 ≤ precW p && precW p ≤ 256)) && precModeCode p ≤ 5 && precF p ≤ workLen p

def limbsOf (w : Nat) : Nat := (w + 31) / 32

/-! ## The format (05 R132-R135) -/

def vlfBias : Int := 0x7FFFFF
def vlfEmin : Int := -8388607
def vlfEmax : Int := 8388608

def hdrClass (h : W32) : Nat := (h.extractLsb' 28 3).toNat
def hdrL (h : W32) : Nat := (h.extractLsb' 24 4).toNat
def hdrSign (h : W32) : Bool := h.getLsbD 31

/-- The number of a list of limbs, most significant first. -/
def limbNat (ls : List W32) : Nat := ls.foldl (fun acc w => acc * 2 ^ 32 + w.toNat) 0

/-- Limb list of a number, most significant first. -/
def natLimbs (n m : Nat) : List W32 := (List.range n).map fun i => BitVec.ofNat 32 (m / 2 ^ (32 * (n - 1 - i)))

/-- A header that is malformed whatever the limbs: class 5-7, or L outside 1-8. -/
def hdrBad (h : W32) : Bool := 4 < hdrClass h || hdrL h = 0 || 8 < hdrL h

/-- The value of an element of header `h` and limbs `ls`, a malformed one as a signalling NaN (05 R135).
`room` is the number of limbs that its place holds. -/
def vlfValue (room : Nat) (h : W32) (ls : List W32) : Fp :=
  if hdrBad h || room < hdrL h then .nan true
  else match hdrClass h with
    | 0 => .fin (hdrSign h) 0 0
    | 1 =>
      let m := limbNat (ls.take (hdrL h))
      if m < 2 ^ (32 * hdrL h - 1) then .nan true
      else .fin (hdrSign h) m (Int.ofNat (h.extractLsb' 0 24).toNat - vlfBias - (32 * hdrL h - 1))
    | 2 => .inf (hdrSign h)
    | 3 => .nan false
    | _ => .nan true

def vlfHdr (neg : Bool) (cls n ex : Nat) : W32 :=
  BitVec.ofNat 32 ((if neg then 2 ^ 31 else 0) + cls * 2 ^ 28 + n * 2 ^ 24 + ex % 2 ^ 24)

/-- The words of a value that is no normal number, at `n` limbs (05 R134). -/
def vlfSpecial (x : Fp) (n : Nat) : List W32 :=
  (match x with
   | .nan _ => vlfHdr false 3 n 0
   | .inf s => vlfHdr s 2 n 0
   | .fin s _ _ => vlfHdr s 0 n 0) :: List.replicate n 0

/-- The words of a normal value `(-1)^s * m * 2^e`, whose significand fits `n` limbs. -/
def vlfNormal (s : Bool) (m : Nat) (e : Int) (n : Nat) : List W32 :=
  let bl := Nat.log2 m + 1
  let sig := if bl ≤ 32 * n then shl m (32 * n - bl) else m / 2 ^ (bl - 32 * n)
  vlfHdr s 1 n (topExp m e + vlfBias).toNat :: natLimbs n sig

/-- The largest finite value at `wr` bits (05 R140). -/
def vlfLargest (s : Bool) (wr : Nat) : List W32 :=
  vlfNormal s (2 ^ wr - 1) (vlfEmax - (Int.ofNat wr - 1)) (limbsOf wr)

/-- overflow(s, wr, mode) (05 R140). -/
def vlfOverflow (s : Bool) (wr : Nat) (mode : RMode) : List W32 :=
  let inf := vlfSpecial (.inf s) (limbsOf wr)
  let big := vlfLargest s wr
  match mode with
  | .rne | .rna => inf
  | .rtz | .rto => big
  | .rup => if s then big else inf
  | .rdn => if s then inf else big

/-- A delivered result: its words, its conditions, and the exponent of the rounded number before the range checks
(05 R139, R142). -/
structure VOut where
  words : List W32
  exc : W32
  yexp : Option Int
  deriving DecidableEq, Repr

/-- Rounding to `wr` bits with the range checks of 05 R139. -/
def vlfRound (x : Fp) (wr : Nat) (mode : RMode) : VOut :=
  let n := limbsOf wr
  match x with
  | .fin s m e =>
    if m = 0 then ⟨vlfSpecial x n, 0, none⟩
    else
      let r := roundTo mode s m e wr
      let nx : W32 := if r.2.2 then xNX else 0
      let y := topExp r.1 r.2.1
      if vlfEmax < y then ⟨vlfOverflow s wr mode, nx ||| xOF ||| xNX, some y⟩
      else if y < vlfEmin then ⟨vlfSpecial (.fin s 0 0) n, nx ||| xUF ||| xNX, some y⟩
      else ⟨vlfNormal s r.1 r.2.1 n, nx, some y⟩
  | _ => ⟨vlfSpecial x n, 0, none⟩

/-- vdeliver (05 R139): `cap` is the capacity of the destination less one. -/
def vdeliver (x : Fp) (p : W32) (cap : Nat) : VOut :=
  let w := workLen p
  if cap < limbsOf w then
    let r := vlfRound x (32 * cap) (precMode p)
    { r with exc := r.exc ||| xWF }
  else vlfRound x w (precMode p)

/-- What a lane's instruction has computed: words or an ordinary value, all conditions raised, δ (05 T 5.7). -/
structure VLane where
  out : VOut
  delta : Nat
  deriving DecidableEq, Repr

def normExp : Fp → Option Int
  | .fin _ m e => if m = 0 then none else some (topExp m e)
  | _ => none

/-- The words are those of an infinity or a NaN. -/
def vlfNotFinite (words : List W32) : Bool :=
  match words.head? with | some h => 2 ≤ hdrClass h | none => false

/-- δ of 05 R142: of the contributors, the exact result and what is delivered. -/
def cancelDelta (contrib : List Fp) (x : Fp) (yexp : Option Int) (finite : Bool) : Nat :=
  match contrib.filterMap normExp with
  | [] => 0
  | e0 :: es =>
    let emax := es.foldl max e0
    if !finite then 0
    else match x, yexp with
    | .fin _ _ _, none => 511
    | .fin _ _ _, some y => (emax - y).toNat
    | _, _ => 0

/-- 05 R143. -/
def losesPrec (p : W32) (d : Nat) : Bool := workLen p - min d (workLen p) < precF p

/-- The common end of 05 R152: delivery, special conditions, cancellation. -/
def vfinish (x : Fp × W32) (contrib : List Fp) (p : W32) (cap : Nat) : VLane :=
  let r := vdeliver x.1 p cap
  let d := cancelDelta contrib x.1 r.yexp (!vlfNotFinite r.words)
  ⟨{ r with exc := r.exc ||| x.2 ||| (if losesPrec p d then xCF else 0) }, d⟩

def vaddVal (p : W32) (cap : Nat) (a b : Fp) : VLane := vfinish (Fp.add (precMode p) a b) [a, b] p cap
def vsubVal (p : W32) (cap : Nat) (a b : Fp) : VLane := vfinish (Fp.sub (precMode p) a b) [a, b] p cap
def vmulVal (p : W32) (cap : Nat) (a b : Fp) : VLane := vfinish (Fp.mul a b) [] p cap
def vfmaVal (p : W32) (cap : Nat) (a b c : Fp) : VLane :=
  vfinish (Fp.fma (precMode p) a b c) [(Fp.mul a b).1, c] p cap
def vdivVal (p : W32) (cap : Nat) (a b : Fp) : VLane := vfinish (Fp.div a b) [] p cap
def vsqrtVal (p : W32) (cap : Nat) (a : Fp) : VLane := vfinish (Fp.sqrt a) [] p cap

def nvOf (a : Fp) : W32 := if a.isSNan then xNV else 0

def vrndFitVal (p : W32) (cap : Nat) (a : Fp) : VLane := vfinish (a, nvOf a) [] p cap

/-- VRND.int (05 R155). -/
def vrndIntVal (p : W32) (cap : Nat) (a : Fp) : VLane :=
  match a with
  | .fin s m e =>
    let r := roundInt (precMode p) s m e
    if 0 ≤ e then vfinish (a, 0) [] p cap
    else vfinish (.fin s r.1 0, if r.2 then xNX else 0) [] p cap
  | _ => vfinish (a, nvOf a) [] p cap

/-- VSCALE (05 R156). -/
def vscaleVal (p : W32) (cap : Nat) (a : Fp) (n : Int) : VLane :=
  match a with
  | .fin s m e => vfinish (.fin s m (e + n), 0) [] p cap
  | _ => vfinish (a, nvOf a) [] p cap

/-- The number an operand of type `t` stands for (05 R154). -/
def numOf (t : NumTy) (v : W64) : Fp :=
  match t with
  | .fp f => f.fmt.unpack (v.toNat % 2 ^ f.fmt.width)
  | .int i => intFp (i.toInt v)

def vcvtTovVal (p : W32) (cap : Nat) (t : NumTy) (v : W64) : VLane :=
  vfinish (numOf t v, nvOf (numOf t v)) [] p cap

/-- VCVT.fromv (05 R154). -/
def vcvtFromvVal (t : NumTy) (r : Rnd) (a : Fp) : W64 × W32 :=
  match t with
  | .fp f => let x := deliver f.fmt r.mode false (a, nvOf a); (BitVec.ofNat 64 x.1, x.2)
  | .int i => toIntType i r.mode a

/-- VEXPO (05 R157). -/
def vexpoVal (a : Fp) : W64 :=
  match a with
  | .fin _ m e => if m = 0 then 0x80000000 else IntTy.i32.form (topExp m e)
  | _ => 0x7FFFFFFF

/-- What VLD delivers of an element of header `h` and limbs `ls` into a window of `cap` limbs with PREC `p`, or
none where the load faults (05 R159).  A rounding that carries past the largest exponent delivers
overflow(s, wr, mode), with OF and NX (log 115). -/
def vldDeliver (p : W32) (cap : Nat) (h : W32) (ls : List W32) : Option (List W32 × W32) :=
  if hdrBad h then some (vlfSpecial (.nan false) 1, xNV)
  else if hdrL h ≤ cap then some (h :: ls.take (hdrL h), 0)
  else if precTW p then none
  else
    match vlfValue 8 h ls with
    | .nan s => some (vlfSpecial (.nan false) cap, if s then xWF ||| xNV else xWF)
    | x => let r := vlfRound x (32 * cap) (precMode p); some (r.words, r.exc ||| xWF)

/-- What VST stores of a window's words (05 R160): the words and the condition. -/
def vstWords (room : Nat) (h : W32) (ls : List W32) : List W32 × W32 :=
  let bad := hdrBad h || room < hdrL h || (hdrClass h = 1 && limbNat (ls.take (hdrL h)) < 2 ^ (32 * hdrL h - 1))
  if bad then (vlfSpecial (.nan false) 1, xNV) else (h :: ls.take (hdrL h), 0)

end Sys2Proof
end

