-- ==== Sys2Proof/Machine/Ops.lean ====
section
/-!
DEFINITION. The operations that the meanings share: the word's advance and the end of a clause (02 R28, R31, 03 R67,
R71), the service log, vectors and monitors (15 R404, R413, R427), kernel objects (02 R50, R51), the kill of a grid
(14 R392), taking a park (14 R390, R391) and the return from one (14 R392, R430).
-/

namespace Sys2Proof.Machine

/-! ## Clauses -/

/-- The fall-through address of a clause (02 R28). -/
def Run.fall (r : Run) : BitVec 48 := r.addr + BitVec.ofNat 48 (8 * (r.hdr.count + 1))

def Group.issueAddr (g : Group) : Option (BitVec 48) :=
  (laneList g.live).foldl (fun m l =>
    let p := Store.read g.lpc l
    match m with
    | none => some p
    | some q => if p.toNat < q.toNat then some p else some q) none

/-- Live lanes at the issue address (03 R66). -/
def Group.activeLanes (g : Group) : W32 :=
  match g.issueAddr with
  | none => 0
  | some a => g.live &&& laneMask fun l => Store.read g.lpc l == a

/-- The group's current clause: the one it runs, or stands at, or ran last when no lane lives (01 R22). -/
def Group.current (g : Group) : BitVec 48 :=
  match g.run with
  | some r => r.addr
  | none => g.issueAddr.getD g.last

def State.opsOf (s : State) (gid : Nat) : List Op := s.ops.filter fun o => o.gid == gid
def State.flagBusy (s : State) (gid : Nat) (f : BitVec 4) : Bool := (s.opsOf gid).any fun o => o.flag == some f

/-- Flags of a set that no outstanding operation is bound to (01 R18). -/
def State.idleFlags (s : State) (gid : Nat) (h : Header) : BitVec 12 :=
  (if s.flagBusy gid h.setA then 0 else flagMask h.setA) ||| (if s.flagBusy gid h.setB then 0 else flagMask h.setB)

/-- Flags of a running clause every operation of which has completed: none is outstanding and none is to come
(01 R18). -/
def State.doneFlags (s : State) (gid : Nat) (r : Run) : BitVec 12 := s.idleFlags gid r.hdr &&& ~~~r.awaited

def Group.quad (g : Group) : Nat := g.grpid.toNat % 4

/-- Groups of one quadrant of one core. -/
def State.quadGroups (s : State) (core quad : Nat) : List Group :=
  s.groups.filter fun g => g.quad == quad &&
    (match s.team? g.team with | some t => t.core == core && t.resident && !t.retired | none => false)

/-- A clause has the quadrant's lane pipe (03 R72). -/
def State.pipeTaken (s : State) (core quad : Nat) : Bool :=
  (s.quadGroups core quad).any fun g => match g.run with | some r => r.pipe | none => false

/-- A group in the middle of a clause may go on: it has the pipe, or no clause has it (03 R72); its team is resident. -/
def State.mayRun (s : State) (g : Group) : Bool :=
  match g.run, s.team? g.team with
  | some r, some t => t.resident && (r.pipe || !s.pipeTaken t.core g.quad)
  | _, _ => false

/-- A group that goes on in the middle of a clause takes the pipe. -/
def State.takePipe (s : State) (gid : Nat) : State :=
  match s.group? gid with
  | none => s
  | some g =>
    match g.run with
    | some r => if r.pipe then s else s.setGroup { g with run := some { r with pipe := true } }
    | none => s

/-- A group that stands between clauses: parks and pre-emption act there alone (03 R72). -/
def Group.between (g : Group) : Bool :=
  match g.st with
  | .ready => g.run.isNone
  | _ => match g.run with | some r => !r.pipe | none => true

/-- A clause gives up the pipe to a park or a wait; its word looks again later. -/
def Run.leavePipe (r : Run) : Run := { r with held := false, pipe := false }

/-- The eight bytes at the issue address, read through translation (02 R47, R48). -/
def State.peekWord (s : State) (core : Nat) (a : BitVec 48) : Option W64 :=
  match s.global core .fetch (a.setWidth 64) with
  | .at key _ => if s.poisoned key then none else some (BitVec.ofNat 64 (s.look key 8))
  | _ => none

def State.classOf (s : State) (g : Group) : Nat :=
  match s.team? g.team with
  | some t => match s.grid? t.grid with | some gr => gr.cls.toNat | none => 4
  | none => 4

/-- Issue slots of the package in a period of 100 µs: 2,304 quadrants at 3.6 GHz (01 R12, 14 R384). -/
def periodSlots : Nat := 829440000

/-- A class has reached its cap of the period's issue slots (14 R385); a cap of 0 is reached from the start. -/
def State.capped (s : State) (cls : Nat) : Bool :=
  periodSlots * fld (s.budget.reg.getD cls 0) 15 8 ≤ s.budget.used.getD cls 0 * 100

/-- Issue slots charged to a class. -/
def State.charge (s : State) (cls slots : Nat) : State :=
  { s with budget := { s.budget with used := s.budget.used.set cls (s.budget.used.getD cls 0 + slots) } }

/-- 03 R71: not parked, not blocked, every flag of the next clause's wait mask clear; and the class below its cap
(14 R385).  A header that cannot be read does not hold the group back: it faults when it issues.  Of a header that can
be read but fails its checks, the wait and set fields are taken as they stand (log 108).  A group whose hang limit ran out
within its last clause parks instead (14 R389). -/
def State.isReady (s : State) (g : Group) : Bool :=
  g.st == .ready && g.run.isNone && g.live != 0 && !g.hung && !s.capped (s.classOf g) &&
    (match s.team? g.team with
     | some t => t.resident &&
        (match s.peekWord t.core g.current with
         | some w => (g.flags &&& waitMask (Header.ofWord w)) == 0
         | none => true)
     | none => false)

/-- Where the group stands in its quadrant's list after its clause (03 R71): just behind the last other ready
group, or last of all when the yield hint is honoured. -/
def State.requeue (s : State) (gid core quad : Nat) (toEnd : Bool) : State :=
  let others := (s.quadGroups core quad).filter fun h => h.gid != gid
  let best := (others.filter fun h => toEnd || s.isReady h).foldl
    (fun m h => match m with | none => some h.order | some o => if o < h.order then some h.order else some o) (none : Option Nat)
  match best with
  | none => s
  | some o =>
    let inQuad : Group → Bool := fun h => others.any fun x => x.gid == h.gid
    { s with groups := s.groups.map fun h =>
        if h.gid == gid then { h with order := o + 1 }
        else if inQuad h && o < h.order then { h with order := h.order + 1 } else h }

/-- 03 R101: the group ends once its last live lane has exited and no flag-bound operation is outstanding. -/
def State.settleExit (s : State) (gid : Nat) : State :=
  match s.group? gid with
  | none => s
  | some g =>
    if g.live = 0 && g.st == .ready && g.run.isNone && !((s.opsOf gid).any fun o => o.flag.isSome || o.fault.isSome) then
      s.setGroup { g with st := .exited, since := none }
    else s

/-- The end of a clause: the given lanes take their new LPCs, idle flags clear, and the group takes its place in the
issue list (02 R31, 03 R67, R71). -/
def State.endClause (s : State) (g : Group) (r : Run) (target : Nat → BitVec 48) (jumped : W32) : State :=
  let g := { g with
    lpc := (laneList r.lanes).foldl (fun m l => Store.write m l (target l)) g.lpc
    run := none
    jumped := (g.jumped &&& ~~~r.lanes) ||| (jumped &&& r.lanes)
    since := some s.ctl.ptc }
  let g := g.clearFlags (s.idleFlags g.gid r.hdr)
  let s := s.setGroup g
  let s := match s.team? g.team with
    | some t => s.requeue g.gid t.core g.quad (r.hdr.yield && g.yielded)
    | none => s
  s.settleExit g.gid

/-- The clause stands at its next word; flags with nothing more to wait for clear (01 R18). -/
def State.goOn (s : State) (g : Group) (r : Run) : State :=
  s.setGroup (({ g with run := some r, since := none } : Group).clearFlags (s.doneFlags g.gid r))

/-- The clause goes on to its next word, the next run of REP, or its end (02 R28, 03 R108). -/
def State.advance (s : State) (g : Group) (r : Run) : State :=
  let again := match r.rep with
    | some x => r.idx == 2 && r.runNo + 1 < x.n.toNat
    | none => false
  if again then s.goOn g { r with runNo := r.runNo + 1, held := false }
  else if r.idx < r.hdr.count then s.goOn g { r with idx := r.idx + 1, runNo := 0, held := false }
  else s.endClause g r (fun _ => r.fall) 0

/-- The lane pipe holds the clause at this word (03 R72). -/
def State.hold (s : State) (e : Env) : State :=
  s.setGroup { e.g with
    run := some { e.r with held := true }
    since := match e.g.since with | some t => some t | none => some s.ctl.ptc }

/-- The word has completed in order: the group as changed, then the next word. -/
def wordDone (s : State) (e : Env) (g : Group) : Out := .next (s.advance g e.r)

/-! ## Service log, vectors, monitors -/

/-- An MSI-X vector is raised (15 R413). -/
def State.msi (s : State) (v : Nat) : State := s.setCtl { s.ctl with msix := s.ctl.msix ++ [v] }

/-- log2 of the number of service-log entries (15 R404). -/
def State.logOrder (s : State) : Nat :=
  let n := fld s.ctl.svclogb 4 0
  if n == 0 then 0 else if 6 ≤ n && n ≤ 20 then n else 20

/-- A service-log entry, written or dropped (15 R404, Table 15.3). -/
def State.svcLog (s : State) (kind detail : Nat) (addr arg : W64) : State :=
  let n := s.logOrder
  if n == 0 then s
  else if (s.ctl.svctail - s.ctl.svchead).toNat == 2 ^ n then
    s.setCtl { s.ctl with logdrop := if s.ctl.logdrop == 0xFFFF then 0xFFFF else s.ctl.logdrop + 1 }
  else
    let key := mkDpa s.device (fld s.ctl.svclogb 38 38) (fld s.ctl.svclogb 37 12 * 4096)
      + 32 * (s.ctl.svctail.toNat % 2 ^ n)
    let s := (s.purge (blockOf key)).putBytes key
      (leBytes 1 kind ++ leBytes 1 detail ++ leBytes 6 0 ++ leBytes 8 s.ctl.ptc ++ leBytes 8 addr.toNat
        ++ leBytes 8 arg.toNat)
    (s.setCtl { s.ctl with svctail := s.ctl.svctail + 1 }).msi 64

/-- One monitor's capture of a value (15 R427). -/
def Monitor.take (m : Monitor) (v : Nat) : Monitor :=
  let b := Nat.min ((v - fld m.cfg 31 0) / 2 ^ (fld m.ctl 4 0)) 15
  let h := m.hist.getD b 0
  { m with
    min := BitVec.ofNat 64 (Nat.min m.min.toNat v)
    max := BitVec.ofNat 64 (Nat.max m.max.toNat v)
    cnt := m.cnt + 1
    hist := m.hist.set b (if h == BitVec.allOnes 32 then h else h + 1) }

/-- An event of a monitor source, of a class and with a group's tag (15 R427). -/
def State.capture (s : State) (source cls : Nat) (tag : Option W32) (v : Nat) : State :=
  { s with monitors := s.monitors.map fun m =>
      let pass := m.ctl.getLsbD 31 && !m.ctl.getLsbD 30 && fld m.ctl 15 8 == source && m.ctl.getLsbD (23 + cls)
        && (!m.ctl.getLsbD 28 || (match tag with | some t => t.toNat == fld m.cfg 63 32 | none => false))
      if pass then m.take v else m }

def State.captureFor (s : State) (source : Nat) (g : Group) (v : Nat) : State :=
  s.capture source (s.classOf g) (some g.trace) v

/-! ## Kernel objects -/

/-- Parse of a kernel-object header (02 Table 2.9). -/
def parseKObj (base : W64) (b : List Byte) : KObj :=
  let at_ : Nat → Nat → Nat := fun o n => leNat ((b.drop o).take n)
  { base := base
    entry := BitVec.ofNat 64 (at_ 0x08 8)
    codeSize := BitVec.ofNat 32 (at_ 0x10 4)
    dataSize := BitVec.ofNat 32 (at_ 0x14 4)
    paramSize := at_ 0x18 2
    groups := at_ 0x1A 1
    cluster := at_ 0x1B 1
    flags := BitVec.ofNat 16 (at_ 0x1C 2)
    acc := at_ 0x20 4
    spad := at_ 0x24 4
    exportBytes := 65536 * at_ 0x28 1
    tiles := at_ 0x29 1
    laneBytes := at_ 0x2A 2
    prec := BitVec.ofNat 32 (at_ 0x2C 4)
    fpst := BitVec.ofNat 32 (at_ 0x30 4)
    caps := (List.range 32).map fun i => at_ (0x40 + i) 1 }

/-- A group's register footprint in bytes (02 R52). -/
def KObj.footprint (k : KObj) : Nat := (k.caps.foldl (· + ·) 0 * 128 + 511) / 512 * 512

/-- Groups of a team on quadrant 0, which has the most (03 R70). -/
def KObj.quadGroups (k : KObj) : Nat := (k.groups + 3) / 4

/-- The first of the conditions 1 to 8 of 02 R51 that holds; 0 when none does. -/
def kobjCond (k : KObj) (b : List Byte) : Nat :=
  let at_ : Nat → Nat → Nat := fun o n => leNat ((b.drop o).take n)
  let c1 := at_ 0 4 != 0x574B4F32 || at_ 4 2 != 1 || at_ 6 2 != 0x80
  let c2 := k.entry.toNat % 8 != 0 || k.entry.toNat < 0x80 || 0x80 + k.codeSize.toNat ≤ k.entry.toNat
    || k.codeSize.toNat % 8 != 0 || k.paramSize % 8 != 0 || 256 < k.paramSize
    || k.groups < 1 || 16 < k.groups || k.cluster < 1 || 8 < k.cluster
    || k.acc % 16384 != 0 || 524288 < k.acc || k.spad % 4096 != 0 || 131072 < k.exportBytes
    || 32 < k.tiles || k.laneBytes % 16 != 0
    || k.prec.extractLsb' 24 8 != 0 || k.fpst.extractLsb' 12 20 != 0 || k.caps.any (fun c => 9 < c)
  let c3 := at_ 0x1E 2 != 0 || at_ 0x34 12 != 0 || at_ 0x60 32 != 0 || k.flags.extractLsb' 3 13 != 0
  let c4 := k.flags.getLsbD 0 && k.groups < 4
  let c5 := 393216 < k.spad + k.exportBytes
  let c6 := 65536 < k.groups * 32 * k.laneBytes
  let c7 := !precOk k.prec
  let c8 := 65536 < k.quadGroups * k.footprint
  if c1 then 1 else if c2 then 2 else if c3 then 3 else if c4 then 4 else if c5 then 5 else if c6 then 6
  else if c7 then 7 else if c8 then 8 else 0

/-- What the read of a kernel object comes to: the object, a condition of 02 R51, or a memory fault's kind. -/
inductive KRes where
  | ok (k : KObj)
  | cond (n : Nat)
  | fault (kind : Nat)
  | wait
  deriving DecidableEq, Repr

def State.readKObj (s : State) (a : W64) : KRes :=
  if a.toNat % 64 != 0 then .cond 9
  else
    match s.sysRead a.toNat 128 with
    | .ok b =>
      let k := parseKObj a b
      if kobjCond k b == 0 then .ok k else .cond (kobjCond k b)
    | .fault k => .fault k
    | .wait => .wait

/-- The parameter block as 64-bit words (02 R53). -/
def wordsOf (b : List Byte) : Nat → List W64
  | 0 => []
  | n + 1 => BitVec.ofNat 64 (leNat (b.take 8)) :: wordsOf (b.drop 8) n

def State.readParams (s : State) (a : W64) (size : Nat) : Sys (List W64) :=
  if a = 0 then .ok (List.replicate (size / 8) 0)
  else
    match s.sysRead a.toNat size with
    | .ok b => .ok (wordsOf b (size / 8))
    | .fault k => .fault k
    | .wait => .wait

/-! ## Killing -/

/-- Grids below a grid, itself included, to a depth of ten (14 R375). -/
def State.family (s : State) : Nat → List W64 → List W64
  | 0, l => l
  | n + 1, l =>
    s.family n (l ++ (s.grids.filter fun g =>
      !l.contains g.id && (match g.parentGrid with | some p => l.contains p | none => false)).map (·.id))

/-- A parked group awaits its queue's DBGACT no longer (14 Table 14.3, QSTAT.park), nor does a DBGACT wait for its
restoration (14 R393). -/
def State.unpark (s : State) (g : Group) : State :=
  match g.park with
  | some p =>
    (match p.route with
     | .host q =>
       let h := s.queue q
       let mine := h.dbgact.getLsbD 63 && fld h.dbgact 44 0 == p.image.toNat
       s.setQueue q { h with
         stat := setFld h.stat 39 32 (fld h.stat 39 32 - 1)
         dbgact := if mine then setFld h.dbgact 63 63 0 else h.dbgact }
     | _ => s)
  | none => s

/-- Every live lane of a group exits, and its faulted commands are dropped (14 R392, 09 R275). -/
def State.killGroup (s : State) (gid : Nat) : State :=
  match s.group? gid with
  | none => s
  | some g =>
    let s := s.unpark g
    let s := { s with ops := s.ops.filter fun o => !(o.gid == gid && o.fault.isSome) }
    (s.setGroup { g with st := .exited, live := 0, run := none, park := none, since := none })

def killMark (ids : List W64) (cd : BitVec 8 × BitVec 8) (g : Grid) : Grid :=
  if ids.contains g.id && g.killed.isNone then { g with killed := some cd } else g

/-- Every group of the grids named and of their descendants is killed (14 R392 action 3). -/
def State.killGrids (s : State) (roots : List W64) (cause detail : BitVec 8) : State :=
  let ids := s.family 11 roots
  let s := { s with grids := s.grids.map (killMark ids (cause, detail)) }
  let gids := (s.groups.filter fun g =>
    g.st != .exited && (match s.team? g.team with | some t => ids.contains t.grid | none => false)).map (·.gid)
  gids.foldl State.killGroup s

/-- A grid's kill; a node's grid takes its graph and the graph's other grids with it (14 R392). -/
def State.killGrid (s : State) (id : W64) (cause detail : BitVec 8) : State :=
  match s.grid? id with
  | none => s
  | some gr =>
    match gr.node with
    | none => s.killGrids [id] cause detail
    | some (gph, _) =>
      let s := { s with graphs := s.graphs.map fun (h : Graph) =>
        if h.id == gph && h.killed.isNone then { h with killed := some (cause, detail) } else h }
      let s := { s with recs := s.recs.filter fun (r : Rec) => r.graph != gph }
      s.killGrids ((s.grids.filter fun (g : Grid) => (match g.node with | some (x, _) => x == gph | none => false)).map
        fun (g : Grid) => g.id) cause detail

/-! ## The image (14 R391) -/

/-- Bytes of a number of so many bits in a cause's record. -/
def fieldBytes (bits : Nat) : Nat := if bits ≤ 8 then 1 else if bits ≤ 16 then 2 else if bits ≤ 32 then 4 else 8

def padTo (n : Nat) (l : List Byte) : List Byte := l ++ List.replicate ((n - l.length % n) % n) 0

def packNum (acc : List Byte) (bits v : Nat) : List Byte :=
  padTo (fieldBytes bits) acc ++ leBytes (fieldBytes bits) v

/-- A cause's record packed: each field at a multiple of its size (14 R391). -/
def packRecord (cur : BitVec 48) (fs : List RecField) : List Byte :=
  fs.foldl (fun acc f =>
    match f with
    | .num b v => packNum acc b v
    | .current => packNum acc 48 cur.toNat
    | .arr b vs => vs.foldl (fun a v => packNum a b v) acc) []

/-- The record of a cause whose chapter gives none: clause, word, run, current clause (01 R22; log 30). -/
def plainFields (clause : BitVec 48) (word run : Nat) : List RecField :=
  [.num 48 clause.toNat, .num 5 word, .num 5 run, .current]

def opcodeOf (i : Instr) : Nat :=
  match encodeRaw i with
  | some r => r.op.toNat
  | none => 0

/-- Lanes whose part of a command is yet to be performed (14 Table 14.15). -/
def Op.lanesLeft (o : Op) : W32 :=
  if o.parts.isEmpty then o.ex else o.ex &&& laneMask fun l => o.parts.any fun p => p.lane == l && p.st != .done

/-- A command record's header and entries (14 Tables 14.15, 14.16). -/
def Op.recordBytes (o : Op) : List Byte :=
  let path := (if o.flag.isSome then 1 else 0) + (if o.batch.isSome then 2 else 0) + (if o.clasp.isSome then 4 else 0)
  leBytes 8 o.clause.toNat ++ leBytes 1 o.word.toNat ++ leBytes 1 o.run.toNat ++ leBytes 1 (opcodeOf o.instr)
    ++ leBytes 1 path ++ leBytes 1 (match o.flag with | some f => f.toNat | none => 255)
    ++ leBytes 1 (if o.fault.isSome then 1 else 0) ++ leBytes 2 o.caps.length ++ leBytes 4 o.lanesLeft.toNat
    ++ leBytes 4 (match o.batch with | some b => b.toNat | none => 0)
    ++ leBytes 8 (match o.clasp with | some (_, a) => a.toNat | none => 0)
    ++ o.caps.flatMap fun c =>
        leBytes 1 c.kind ++ leBytes 1 c.index ++ leBytes 1 c.lane ++ leBytes 5 0 ++ leBytes 8 c.value.toNat

def LoopCtr.bytes (c : LoopCtr) : List Byte := leBytes 4 (c.val.toNat + 256 * c.ring.toNat)

def lanes32 (m : Store 32) (k : Nat) : List Byte := (List.range 32).flatMap fun l => leBytes 4 (Store.read m (k + l)).toNat

/-- Words of the windows in the order of the image: (window, word). -/
def winSlots (caps : List Nat) : List (Nat × Nat) :=
  (List.range 32).flatMap fun n => (List.range (caps.getD n 0)).map fun w => (n, w)

/-- Offset of the command records: after the windows, at a multiple of 64. -/
def recordsAt (caps : List Nat) : Nat := (0x1780 + 128 * (caps.foldl (· + ·) 0) + 63) / 64 * 64

/-- The pieces of an image: offset and bytes (14 Table 14.11). -/
def imagePieces (g : Group) (t : Team) (gr : Grid) (ops : List Op) (p : ParkRec) : List (Nat × List Byte) :=
  [(0x0000, leBytes 1 p.cause.toNat ++ leBytes 1 p.detail.toNat ++ leBytes 2 (p.word.toNat + 256 * p.run.toNat)
      ++ leBytes 4 0),
   (0x0008, leBytes 8 p.issuing.toNat ++ leBytes 8 p.current.toNat ++ leBytes 8 gr.id.toNat
      ++ leBytes 4 t.x.toNat ++ leBytes 2 t.y.toNat ++ leBytes 2 t.z.toNat
      ++ leBytes 8 (g.grpid.toNat + 65536 * t.core) ++ leBytes 2 g.flags.toNat ++ leBytes 14 0),
   (0x0040, p.record ++ List.replicate (768 - p.record.length) 0),
   (0x0340, (List.range 32).flatMap fun l => leBytes 8 (Store.read g.lpc l).toNat),
   (0x0440, (List.range 16).flatMap fun a => (List.range 32).flatMap fun l => leBytes 8 (g.age a l).toNat),
   (0x1440, (List.range 64).flatMap fun n => leBytes 8 (Store.read g.scal n).toNat),
   (0x1640, (List.range 7).flatMap fun n => leBytes 4 (Store.read g.masks (n + 1)).toNat),
   (0x165C, leBytes 4 g.live.toNat),
   (0x1660, g.lc0.bytes ++ g.lc1.bytes ++ g.lc2.bytes ++ g.lc3.bytes),
   (0x1670, leBytes 8 g.carry.toNat ++ leBytes 4 g.sealedCnt.toNat ++ leBytes 4 g.finishedCnt.toNat),
   (0x1680, lanes32 g.prec 0 ++ lanes32 g.fpst 0),
   (0x1780, (winSlots gr.ko.caps).flatMap fun q => lanes32 g.win ((q.1 * 9 + q.2) * 32)),
   (recordsAt gr.ko.caps, leBytes 8 ops.length ++ leBytes 8 0 ++ ops.flatMap Op.recordBytes)]

/-- Where an image holds each command's record. -/
def recordPlaces : Nat → List Op → List (Nat × Nat)
  | _, [] => []
  | a, o :: os => (o.id, a) :: recordPlaces (a + 32 + 16 * o.caps.length) os

def State.writeImage (s : State) (dpa : Nat) (ps : List (Nat × List Byte)) : State :=
  ps.foldl (fun s q => s.putBytes (dpa + q.1) q.2) s

/-- A place in the context area for the image of a group of a quadrant (log 9). -/
def State.imageAt (s : State) (core quad slot : Nat) : Nat :=
  mkDpa s.device (fld s.ctl.ctxbase 38 38) (fld s.ctl.ctxbase 37 30 * 2 ^ 30 + (Config.imageSlot core quad slot).toNat * 65536)

/-- The context area, of 8 GiB (15 R403), lies in its die. -/
def State.ctxFits (s : State) : Bool := fld s.ctl.ctxbase 37 30 * 2 ^ 30 + 2 ^ 33 ≤ dieBytes

/-- Images that await an action, or the restoration of their teams. -/
def State.images (s : State) : List Nat :=
  s.groups.filterMap fun (g : Group) =>
    match g.saved, g.park with
    | some d, _ => some d.toNat
    | none, some p => if g.st == .parked then some p.image.toNat else none
    | none, none => none

/-- The first place of the quadrant that holds no image. -/
def State.imageDpa (s : State) (core quad : Nat) : Nat :=
  match (List.range 56).find? fun k => !s.images.contains (s.imageAt core quad k) with
  | some k => s.imageAt core quad k
  | none => s.imageAt core quad 0

/-! ## Taking a park -/

/-- A handler's grid: one team of one group in the parked grid's priority and the management class, with the image's
address in s0 and the parked grid's gridid in s1 (14 R390). -/
def handlerGrid (id : W64) (ko : KObj) (gr : Grid) (gid : Nat) (image : Nat) (pending : Option (W64 × W64)) : Grid where
  id := id
  ko := ko
  dimX := 1
  dimY := 1
  dimZ := 1
  params := [(Config.imageVa image).setWidth 64, gr.id]
  cls := 4
  prio := gr.prio
  depth := 0
  queue := gr.queue
  slot := gr.slot
  parentGroup := none
  parentTeam := none
  parentGrid := none
  handler := 0
  deadline := 0
  hang := 0
  clasp := none
  scope := .sys
  status := 0
  winFirst := 0
  winCount := 0
  nextTeam := 0
  doneTeams := 0
  killed := none
  serves := some gid
  node := none
  level := 0
  pending := pending
  gate := 0
  origin := none

def emptyKObj (base : W64) : KObj := parseKObj base []

/-- The parked grid is killed because no handler starts, and the failure is logged (14 R390). -/
def State.handlerFailed (s : State) (gr : Grid) (cause detail : BitVec 8) : State :=
  (s.killGrid gr.id cause detail).svcLog 10 15 0 gr.id

/-- The handler's launch (14 R390): its shape is one group per team and a cluster size of 1. -/
def State.launchHandler (s : State) (gr : Grid) (gid image : Nat) (cause detail : BitVec 8) : State :=
  match s.readKObj gr.handler with
  | .ok k =>
    if k.groups == 1 && k.cluster == 1 then
      { s with grids := s.grids ++ [handlerGrid s.nextGrid k gr gid image none], nextGrid := s.nextGrid + 1 }
    else s.handlerFailed gr cause detail
  | .wait =>
    { s with grids := s.grids ++ [handlerGrid s.nextGrid (emptyKObj gr.handler) gr gid image (some (gr.handler, 0))],
             nextGrid := s.nextGrid + 1 }
  | _ => s.handlerFailed gr cause detail

/-- Where a park with an image goes (14 R390): the grid that a faulted handler serves is killed; the host's debugger;
the handler; or, without one, the grid is killed. -/
def State.routePark (s : State) (g : Group) (gr : Grid) (p : ParkRec) : State :=
  let q := s.queue gr.queue
  match gr.serves with
  | some served =>
    let s := s.killGrid gr.id p.cause p.detail
    match s.group? served with
    | some h => match s.team? h.team with
      | some u => s.killGrid u.grid p.cause p.detail
      | none => s
    | none => s
  | none =>
    if q.ctl.getLsbD 8 then
      let s := s.setQueue gr.queue { q with stat := setFld q.stat 39 32 (fld q.stat 39 32 + 1) }
      let s := s.setGroup { g with park := some { p with route := .host gr.queue } }
      (s.svcLog 9 p.cause.toNat (p.image.setWidth 64) (BitVec.ofNat 64 gr.queue)).msi gr.queue
    else if gr.handler = 0 then s.killGrid gr.id p.cause p.detail
    else
      let s := s.setGroup { g with park := some { p with route := .handler s.nextGrid } }
      s.launchHandler gr g.gid p.image.toNat p.cause p.detail

/-- TAKING AN EXCEPTION (14 R390, R391): the group parks with a cause and its record.  A fault for the memory service
(08 R243) writes no image.  `past` is the fall-through of a clause that could not start. -/
def State.park (s : State) (gid : Nat) (f : FaultRec) (word run : Nat) (issuing : BitVec 48)
    (past : Option (BitVec 48)) : Out :=
  needSome (s.group? gid) fun g =>
  needSome (s.team? g.team) fun t =>
  needSome (s.grid? t.grid) fun gr =>
    let dpa := s.imageDpa t.core g.quad
    let p : ParkRec :=
      { cause := f.cause, detail := f.detail, word := BitVec.ofNat 5 word, run := BitVec.ofNat 5 run,
        issuing := issuing, current := g.current, record := packRecord g.current f.fields,
        image := BitVec.ofNat 45 dpa, recs := recordPlaces (recordsAt gr.ko.caps + 16) (s.opsOf gid), lpcs := g.lpc, page := f.service.getD 0, past := past, prior := g.st,
        route := if f.service.isSome then .service else .none }
    let g := { g with st := .parked, park := some p, run := g.run.map Run.leavePipe, since := none, fetch := none, hung := false }
    let s := (s.setGroup g).captureFor 9 g f.cause.toNat
    if f.service.isSome then .next s
    else if !s.ctxFits then .fault (.noSuchMemory dpa)
    else .next ((s.writeImage dpa (imagePieces g t gr (s.opsOf gid) p)).routePark g gr p)

/-- A sampler command of the group is under way: a park for another cause is held until it has ended (12 R356). -/
def State.samplerBusy (s : State) (gid : Nat) : Bool :=
  (s.opsOf gid).any fun o => o.fault.isNone &&
    (match o.instr with
     | .smpl _ | .smplg _ | .smpllLod .. | .smpllGrad .. | .sres _ => true
     | _ => false)

/-- A park within a clause, at the running word (03 R72). -/
def parkWord (s : State) (e : Env) (g : Group) (f : FaultRec) : Out :=
  if s.samplerBusy e.g.gid then .next (s.hold e)
  else (s.setGroup g).park e.g.gid f e.r.idx e.r.runNo e.r.addr none

/-! ## The return from a park -/

/-- A loop counter as LCSET and a reload take it (03 R106, 14 R391). -/
def loopOf (val ring : Nat) : LoopCtr :=
  let r := if ring == 0 || 33 ≤ ring then 32 else ring
  ⟨BitVec.ofNat 5 (val % r), BitVec.ofNat 6 r⟩

def readLanes {w : Nat} (f : Nat → BitVec w) : Store w := Store.ofLanes f

/-- The RW fields of an image reloaded into its group (14 R391, R392). -/
def State.reload (s : State) (g : Group) (gr : Grid) (d : Nat) : Group :=
  let lc : Nat → LoopCtr := fun i => loopOf (s.le (d + 0x1660 + 4 * i) 1) (s.le (d + 0x1660 + 4 * i + 1) 1)
  { g with
    lpc := readLanes fun l => BitVec.ofNat 48 (s.le (d + 0x0340 + 8 * l) 6)
    queue := (List.range 16).map fun a => readLanes fun l => BitVec.ofNat 64 (s.le (d + 0x0440 + 256 * a + 8 * l) 8)
    scal := Store.ofList ((List.range 64).map fun n => (BitVec.ofNat 64 (s.le (d + 0x1440 + 8 * n) 8)))
    masks := Store.writeList [] 1 ((List.range 7).map fun n => (BitVec.ofNat 32 (s.le (d + 0x1640 + 4 * n) 4)))
    live := BitVec.ofNat 32 (s.le (d + 0x165C) 4)
    lc0 := lc 0
    lc1 := lc 1
    lc2 := lc 2
    lc3 := lc 3
    carry := BitVec.ofNat 64 (s.le (d + 0x1670) 8)
    prec := readLanes fun l => BitVec.ofNat 32 (s.le (d + 0x1680 + 4 * l) 3)
    fpst := readLanes fun l => BitVec.ofNat 32 (s.le (d + 0x1700 + 4 * l) 2 % 4096)
    win := ((winSlots gr.ko.caps).zipIdx).foldl (fun m q =>
      (List.range 32).foldl (fun m l =>
        Store.write m ((q.1.1 * 9 + q.1.2) * 32 + l) (BitVec.ofNat 32 (s.le (d + 0x1780 + 128 * q.2 + 4 * l) 4))) m) [] }

/-- Whether the PREC words of an image are acceptable (05 R137, 14 R391): writes to bits [31:24] are ignored (05
Table 5.3). -/
def State.imagePrecOk (s : State) (d : Nat) : Bool :=
  (List.range 32).all fun l => precOk (BitVec.ofNat 32 (s.le (d + 0x1680 + 4 * l) 3))

/-- The captured values of the group's commands as the image gives them (14 R391): each record's header takes 32
bytes and each entry 16. -/
def editCaps (s : State) : Nat → List Cap → List Cap
  | _, [] => []
  | at_, c :: cs => { c with value := BitVec.ofNat 64 (s.le (at_ + 8) 8) } :: editCaps s (at_ + 16) cs

def capValue (cs : List Cap) (kind index lane : Nat) : Option W64 :=
  (cs.find? fun c => c.kind == kind && c.index == index && c.lane == lane).map (·.value)

/-- An edited address moves the parts that have not been performed; a store whose link faulted goes back to its queue, to
be translated anew and sent again under its number (08 R236, 15 R415); a contribution that a drain carries, `carried`, goes
with the drain. -/
def Part.move (old new : List Cap) (carried : Bool) (p : Part) : Part :=
  let delta := match capValue old 0 0 p.lane, capValue new 0 0 p.lane with
    | some a, some b => b - a
    | _, _ => match old.find? (fun c => c.kind == 0 && c.index == 0), new.find? (fun c => c.kind == 0 && c.index == 0) with
      | some a, some b => b.value - a.value
      | _, _ => 0
  match p.st with
  | .done => p
  | .queued => p
  | .departed _ =>
    if p.timeouts == 3 && !(p.asked && carried) then
      { p with addr := p.addr + delta, st := .queued, timeouts := 0, lostReq := false, asked := false, way := none }
    else { p with timeouts := 0, lostReq := false }
  | _ => { p with addr := p.addr + delta, st := .waiting, timeouts := 0, lostReq := false, asked := false, way := none }

/-- A store or an add, which goes through the store queue. -/
def Op.isStore (o : Op) : Bool :=
  match o.instr with
  | .st .. | .stv .. | .vst .. | .stbt .. | .stadd .. | .staddV .. => true
  | _ => false

/-- A store's bytes, 64 apart for each lane, from the captured data: one entry of its operand B for every eight bytes of
a lane's (log 144). -/
def storeBuf (caps : List Cap) : Store 8 :=
  (List.range 32).foldl (fun m l =>
    ((caps.filter fun c => c.kind == 0 && c.index == 1 && c.lane == l).zipIdx).foldl (fun m q =>
      Store.writeList m (64 * l + 8 * q.2) (leBytes 8 q.1.value.toNat)) m) []

/-- A commutative store, whose contribution a drain may carry. -/
def Op.isAdd (o : Op) : Bool :=
  match o.instr with
  | .stadd .. | .staddV .. => true
  | _ => false

/-- A lane of a load that faulted replays whole (06 R180): its parts start over. -/
def Op.rewind (o : Op) : List Part :=
  let bad : Nat → Bool := fun l => o.parts.any fun p => p.lane == l && p.st == .faulted
  match o.instr with
  | .vld .. | .ldtolV .. | .ldtolDetV .. => o.parts.filterMap fun p =>
      if bad p.lane then (if p.off == 0 then some { p with st := .faulted } else none) else some p
  | .ld .. => o.parts.map fun p => if bad p.lane then { p with st := .faulted } else p
  | _ => o.parts

/-- A faulted tile, unit or program transfer replays whole from its record (11 R317, R321); an operation takes its programs
from its record, not from their slots; of a sampler command, the
faulting lanes do, from their residency reads on (12 R351), or the descriptor's read. -/
def Op.restart (o : Op) : Op :=
  if o.fault.isNone then o
  else
    match o.instr with
    | .tld _ | .tst _ | .accld _ | .accst _ | .popld _ | .prepld _ => { o with parts := [], stage := 0, cursor := 0 }
    | .mma _ | .mmat _ | .mmafx _ => if o.stage == 0 then { o with buf := [] } else o
    | .smpl _ | .smplg _ | .smpllLod .. | .smpllGrad .. | .sres _ =>
      if o.stage == 0 then { o with parts := (o.parts.take 2).map fun p => { p with st := .faulted } }
      else
        let bad : Nat → Bool := fun l => o.parts.any fun p => p.lane == l && p.st == .faulted
        { o with parts := o.parts.filterMap fun p =>
            if o.stage == 1 && bad p.lane then (if p.len == 0 then some { p with st := .faulted, off := 0 } else none) else some p }
    | _ => o

/-- An engine forms its addresses anew from the record; the parts of the others move with an edited address. -/
def Op.movable (o : Op) : Bool :=
  match o.instr with
  | .tld _ | .tst _ | .accld _ | .accst _ | .popld _ | .prepld _ | .mma _ | .mmat _ | .mmafx _
  | .smpl _ | .smplg _ | .smpllLod .. | .smpllGrad .. | .sres _ | .copy _ | .copy2d _ | .copy3d _ | .copym _ => false
  | _ => true

/-- The report of a refused or failed nested launch, which stands among its group's commands until it is delivered
(14 R397, R429); it is nothing to replay. -/
def Op.isReport (o : Op) : Bool :=
  match o.instr with
  | .launch _ => true
  | _ => false

/-- A fault of an accepted command is delivered (01 R22): the group parks with the command's clause and word. -/
def parkOp (s : State) (g : Group) (o : Op) (f : FaultRec) : Out :=
  if s.samplerBusy g.gid then
    match g.run with
    | some r => .next (s.setGroup { g with run := some { r with held := true } })
    | none => .refused .eventNotEnabled
  else
    let s := if o.isReport then s.dropOp o.id else s
    (s.setGroup g).park g.gid f o.word.toNat o.run.toNat o.clause none

/-- A command as its record in the image has it (14 R391): its captured values, and its faulted parts again. -/
def Op.reload (o : Op) (s : State) (at_ : Nat) : Op :=
  let caps := editCaps s (at_ + 32) o.caps
  { o.restart with
    caps := caps
    buf := if o.isStore then storeBuf caps else o.restart.buf
    fault := none
    parts := o.restart.rewind.map (Part.move o.caps (if o.movable then caps else o.caps) o.isAdd) }

/-- The group's commands from the records of the image at `d`; one that has ended since the park has none to take. -/
def reloadOps (s : State) (d : Nat) (recs : List (Nat × Nat)) (os : List Op) : List Op :=
  os.map fun o =>
    match recs.find? fun r => r.1 == o.id with
    | some r => if o.isReport then o else o.reload s (d + r.2)
    | none => o

def State.putOps (s : State) (os : List Op) : State := os.foldl State.setOp s

/-- The memory place of a parked group's image, when it has one. -/
def State.parkedAt (s : State) (image : Nat) : Option Group :=
  s.groups.find? fun g => g.st == .parked &&
    (match g.park with | some p => p.image.toNat == image && p.route != .service | none => false)

/-- The RW part of a resume or skip without the image: faulted commands replay (08 R247). -/
def Op.replay (o : Op) : Op :=
  { o.restart with fault := none, parts := o.restart.rewind.map (Part.move o.caps o.caps o.isAdd) }

/-- A faulted command that a skip completes without further writes: its flag clears and a copy counts as finished
(14 R392).  A copy's count at its clasp, its part 2, is still to be applied. -/
def Op.skip (o : Op) : Op :=
  { o with
    fault := none
    stage := 99
    parts := (o.parts.zipIdx).map fun q => if q.2 == 2 && o.clasp.isSome then q.1 else { q.1 with st := .done } }

/-- Dirty words of the lines in a range come home before the control die reads it (14 R392, R393). -/
def State.recallRange (s : State) (lo hi : Nat) : State :=
  (s.l1.filter fun (l : L1Line) => l.st == LineSt.owned && lo ≤ l.blk && l.blk < hi).foldl
    (fun (s : State) ln => (s.writeBack ln).setLine { ln with dirty := 0 }) s

/-- THE RETURN FROM A PARK (14 R392, R430), for ERET and DBGACT: the image's RW fields reloaded, then the action.
0 resume, 1 skip, 2 kill group, 3 kill grid. -/
def State.resume (s : State) (g : Group) (action : Nat) : Out :=
  needSome g.park fun p =>
  needSome (s.team? g.team) fun t =>
  needSome (s.grid? t.grid) fun gr =>
    let d := p.image.toNat
    let s := s.recallRange d (d + 65536)
    if action == 3 then .next (s.killGrid gr.id p.cause p.detail)
    else if action == 2 then .next (s.killGroup g.gid)
    else if !s.imagePrecOk d then
      (s.setGroup { g with st := p.prior, park := none }).park g.gid
        { cause := 11, detail := 6, fields := plainFields p.issuing p.word.toNat p.run.toNat,
          lanes := 0, service := none } p.word.toNat p.run.toNat p.issuing p.past
    else
      let h := s.reload g gr d
      let edits := laneMask fun l => h.live.getLsbD l && Store.read h.lpc l != Store.read p.lpcs l
      let edited := edits != 0
      let faulted := (s.opsOf g.gid).filter fun o => o.fault.isSome && !o.isReport
      let os := reloadOps s d p.recs (s.opsOf g.gid)
      let os := if action == 1 then
          os.map fun o => if faulted.any (fun f => f.id == o.id) then o.skip else o
        else os
      let s := s.putOps os
      -- a wait that the park ended runs its word again (09 R274, 14 R389)
      let st : GState := match p.prior with | .blockedBatch _ | .blockedClasp .. | .blockedPage _ => .ready | x => x
      let h := { h with st := st, park := none, since := some s.ctl.ptc }
      if edited then
        let h := match h.run with | some r => h.clearFlags (s.idleFlags g.gid r.hdr) | none => h
        -- an edited LPC is no taken control transfer (02 R46)
        .next ((s.setGroup { h with run := none, st := .ready, jumped := h.jumped &&& ~~~edits }).settleExit g.gid)
      else if action == 0 then .next ((s.setGroup h).settleExit g.gid)
      else
        match h.run with
        | some r =>
          -- the word that runs next is the trapping word, or the fault was that of an earlier command
          if p.issuing == r.addr && p.word.toNat == r.idx && p.run.toNat == r.runNo then .next (s.advance { h with st := .ready } r.passed)
          else .next (s.setGroup h)
        | none =>
          match p.past with
          | some a =>
            let lanes := h.activeLanes
            .next (s.setGroup { h with
              st := .ready
              lpc := (laneList lanes).foldl (fun m l => Store.write m l a) h.lpc
              jumped := h.jumped &&& ~~~lanes })
          | none => .next ((s.setGroup h).settleExit g.gid)

end Sys2Proof.Machine
end

