-- ==== Sys2Proof/Machine/Fetch.lean ====
section
/-!
DEFINITION. Fetching the word that runs next (02 R26, R33, R41, 03 R108), and placing one for it.
-/

namespace Sys2Proof.Machine

/-- What the decoder knows of a group's kernel (02 R41, 10 R286). -/
def ctxOf (gr : Grid) : DecodeCtx := ⟨gr.ko.caps, gr.ko.tiles⟩

/-- The word that runs next: word 2 under REP with its fields stepped (03 R108). -/
def Run.word (r : Run) : W64 :=
  let w := r.words.getD (r.idx - 1) 0
  match r.rep with
  | some x => if r.idx == 2 then ((Raw.ofWord w).step x r.runNo).toWord else w
  | none => w

/-- The instruction that runs next in a group: decoded again from the clause's word. -/
def Env.instr? (e : Env) : Except Nat Instr := decodeWith (ctxOf e.gr) e.r.word

/-- The first group with a running word, held or not as asked, that has its lane pipe or may take it. -/
def State.runner (s : State) (held : Bool) : Option Nat :=
  (s.groups.find? fun g => g.st == .ready &&
    (match g.run with | some r => r.held == held | none => false) && s.mayRun g).map (·.gid)

/-! ## A word placed where the next step fetches it -/

def freshGroup (gid team : Nat) (run : Run) : Group where
  gid := gid
  team := team
  grpid := 0
  st := .ready
  lpc := readLanes fun _ => run.addr
  live := BitVec.allOnes 32
  queue := List.replicate 16 []
  win := []
  scal := []
  masks := []
  lc0 := ⟨0, 32⟩
  lc1 := ⟨0, 32⟩
  lc2 := ⟨0, 32⟩
  lc3 := ⟨0, 32⟩
  carry := 0
  prec := []
  fpst := []
  flags := setMask run.hdr
  sealedCnt := 0
  finishedCnt := 0
  hang := 0
  trace := 0
  since := none
  run := some run
  park := none
  order := 0
  yielded := false
  jumped := 0
  pushes := 0
  touched := []
  last := run.addr
  saved := none
  freed := none
  fetch := none
  hung := false

def freshTeam (id : Nat) (grid : W64) : Team where
  id := id
  grid := grid
  core := 0
  home := 0
  x := 0
  y := 0
  z := 0
  clustrank := 0
  clBase := 0
  clCount := 1
  tiles := []
  sidecars := []
  acc := []
  accUnits := 0
  tilePoison := []
  accPoison := []
  paramPoison := []
  sc := []
  mxst := 0
  preSlots := []
  postSlots := []
  preLoaded := []
  postLoaded := []
  spadBase := 0
  expBase := 0
  laneBase := 0
  records := []
  resident := true
  savedSpad := []
  savedExp := []
  savedLane := []
  savedMarks := []
  savedPtc := 0
  retired := false

/-- A kernel object with every window of nine words, every tile, and the nest and matrix flags. -/
def roomyKObj : KObj where
  base := 0
  entry := 0x80
  codeSize := 16
  dataSize := 0
  paramSize := 0
  groups := 1
  cluster := 1
  flags := 3
  acc := 524288
  spad := 393216
  exportBytes := 0
  tiles := 32
  laneBytes := 2048
  prec := 0
  fpst := 0
  caps := List.replicate 32 9

def freshGrid (id : W64) (ko : KObj) : Grid where
  id := id
  ko := ko
  dimX := 1
  dimY := 1
  dimZ := 1
  params := []
  cls := 0
  prio := 0
  depth := 0
  queue := 0
  slot := 0
  parentGroup := none
  parentTeam := none
  parentGrid := none
  handler := 0
  deadline := 0
  hang := 0
  clasp := none
  scope := .sys
  status := 0
  winFirst := 0
  winCount := 512
  nextTeam := 1
  doneTeams := 0
  killed := none
  serves := none
  node := none
  level := 0
  pending := none
  gate := 0
  origin := none

/-- A clause of one word, started in all lanes; a team-wide word stands in a clause with elect (01 R15), and the
clause sets flag f0. -/
def oneWordRun (w : W64) : Run where
  addr := 0x80
  hdr := { count := 1, cls := 1, wait := 0, setA := 0, setB := 15, yield := false,
           elect := teamOp (Raw.ofWord w).op.toNat, rep := false }
  words := [w]
  idx := 1
  lanes := BitVec.allOnes 32
  rep := none
  runNo := 0
  bound := 0
  held := false
  pipe := true

/-- The state with a group that is about to run the word: a grid, a team and a group of fresh names in front of the
others, and no planned event before it. -/
def State.placeWord (s : State) (w : W64) : State :=
  { s with
    groups := freshGroup s.nextId (s.nextId + 1) (oneWordRun w) :: s.groups
    teams := { freshTeam (s.nextId + 1) s.nextGrid with accUnits := 512 } :: s.teams
    grids := freshGrid s.nextGrid roomyKObj :: s.grids
    nextId := s.nextId + 2
    nextGrid := s.nextGrid + 1
    agenda := [] }

end Sys2Proof.Machine
end

