-- ==== Sys2Proof/Machine/LaneInt.lean ====
section
/-!
DEFINITION. The lane engine's integer, logic, shift, bit, move, mask and loop-counter instructions (03 R79-R96, R106).
-/

namespace Sys2Proof.Machine

/-! ## Shapes -/

/-- A word whose every executing lane gets a value of its own. -/
def laneOp (s : State) (k : BitVec 3) (d : Dst) (wide : Bool) (v : Env → Nat → W64) : Out :=
  withEnv s fun e => wordDone s e (e.g.result (e.lanes k) d wide (v e))

def intUn (s : State) (x : IUn) (wide : Bool) (f : W64 → W64) : Out :=
  laneOp s x.k x.d wide fun e l => f (e.src (tyWide x.t) x.a l)

/-- `bw`: whether source B is read as 64 bits. -/
def intBin (s : State) (x : IBin) (bw wide : Bool) (f : W64 → W64 → W64) : Out :=
  laneOp s x.k x.d wide fun e l => f (e.src (tyWide x.t) x.a l) (e.opd bw x.b l)

def intTer (s : State) (x : ITer) (bw cw wide : Bool) (f : W64 → W64 → W64 → W64) : Out :=
  laneOp s x.k x.d wide fun e l => f (e.src (tyWide x.t) x.a l) (e.src bw x.b l) (e.src cw x.c l)

/-- An arithmetic instruction of 03 Table 3.3: exact, then fixed to the type (R82). -/
def arithBin (s : State) (x : IBin) (f : Int → Int → Int) : Out :=
  intBin s x (tyWide x.t) (tyWide x.t) fun a b => x.t.fix x.sat (f (x.t.toInt a) (x.t.toInt b))

/-- A logic instruction on bit patterns (03 R85). -/
def logicBin (s : State) (x : IBin) (f : Nat → Nat → Nat) : Out :=
  intBin s x (tyWide x.t) (tyWide x.t) fun a b => x.t.formN (f (x.t.pat a) (x.t.pat b))

/-- A shift: the count is read as N32 (03 R86). -/
def shiftBin (s : State) (x : IBin) (f : W64 → Nat → W64) : Out :=
  intBin s x false (tyWide x.t) fun a n => f a n.toNat

/-! ## Arithmetic (03 R82-R84) -/

/-- IADD (03 R82). -/
def execIadd (x : IBin) (s : State) : Out := arithBin s x fun a b => a + b
/-- ISUB (03 R82). -/
def execIsub (x : IBin) (s : State) : Out := arithBin s x fun a b => a - b
/-- IADC (03 R83): the result is 64 bits, with the carry out in bit 32. -/
def execIadc (x : ITer) (s : State) : Out :=
  laneOp s x.k x.d true fun e l => iadcVal (e.src32 x.a l) (e.src32 x.b l) (e.src64 x.c l)
/-- ISBC (03 R83). -/
def execIsbc (x : ITer) (s : State) : Out :=
  laneOp s x.k x.d true fun e l => isbcVal (e.src32 x.a l) (e.src32 x.b l) (e.src64 x.c l)
/-- IMUL (03 R82). -/
def execImul (x : IBin) (s : State) : Out := arithBin s x fun a b => a * b
/-- IMULH (03 R82). -/
def execImulh (x : IBin) (s : State) : Out := arithBin s x (imulhExact x.t)
/-- IMAD (03 R82). -/
def execImad (x : ITer) (s : State) : Out :=
  intTer s x (tyWide x.t) (tyWide x.t) (tyWide x.t) fun a b c =>
    x.t.fix x.sat (x.t.toInt a * x.t.toInt b + x.t.toInt c)
/-- IDIV (03 R82). -/
def execIdiv (x : IBin) (s : State) : Out := arithBin s x (idivExact x.t)
/-- IREM (03 R82). -/
def execIrem (x : IBin) (s : State) : Out := arithBin s x iremExact
/-- IABS (03 R82). -/
def execIabs (x : IUn) (s : State) : Out :=
  intUn s x (tyWide x.t) fun a => x.t.fix x.sat (Int.ofNat (x.t.toInt a).natAbs)
/-- INEG (03 R82). -/
def execIneg (x : IUn) (s : State) : Out := intUn s x (tyWide x.t) fun a => x.t.fix x.sat (-(x.t.toInt a))
/-- IMIN (03 R82). -/
def execImin (x : IBin) (s : State) : Out := arithBin s x fun a b => if a ≤ b then a else b
/-- IMAX (03 R82). -/
def execImax (x : IBin) (s : State) : Out := arithBin s x fun a b => if a ≤ b then b else a
/-- ICMP (03 R84): a 32-bit 1 or 0. -/
def execIcmp (p : IPred) (x : IBin) (s : State) : Out :=
  intBin s x (tyWide x.t) false fun a b => boolVal (p.holds (x.t.toInt a) (x.t.toInt b))
/-- ISEL (03 R84). -/
def execIsel (x : ITer) (s : State) : Out :=
  intTer s x (tyWide x.t) false (tyWide x.t) fun a b c => x.t.formN (if c = 0 then x.t.pat b else x.t.pat a)

/-! ## Logic and shifts (03 R85-R87) -/

/-- AND (03 R85). -/
def execAnd (x : IBin) (s : State) : Out := logicBin s x fun a b => a &&& b
/-- OR (03 R85). -/
def execOr (x : IBin) (s : State) : Out := logicBin s x fun a b => a ||| b
/-- XOR (03 R85). -/
def execXor (x : IBin) (s : State) : Out := logicBin s x fun a b => a ^^^ b
/-- ANDN (03 R85). -/
def execAndn (x : IBin) (s : State) : Out := logicBin s x fun a b => a &&& notPat x.t b
/-- NOT (03 R85). -/
def execNot (x : IUn) (s : State) : Out := intUn s x (tyWide x.t) fun a => x.t.formN (notPat x.t (x.t.pat a))
/-- SHL (03 R86). -/
def execShl (x : IBin) (s : State) : Out := shiftBin s x (shlVal x.t x.sat)
/-- SHRL (03 R86). -/
def execShrl (x : IBin) (s : State) : Out := shiftBin s x (shrlVal x.t)
/-- SHRA (03 R86). -/
def execShra (x : IBin) (s : State) : Out := shiftBin s x (shraVal x.t)
/-- ROTL (03 R86). -/
def execRotl (x : IBin) (s : State) : Out := shiftBin s x (rotlVal x.t)
/-- FSHL (03 R87): the count is read as N32. -/
def execFshl (x : ITer) (s : State) : Out :=
  intTer s x (tyWide x.t) false (tyWide x.t) fun a b n => fshlVal x.t a b n.toNat

/-! ## Bit operations (03 R88-R93) -/

/-- CLZ (03 R88): an N32 count. -/
def execClz (x : IUn) (s : State) : Out := intUn s x false (clzVal x.t)
/-- CTZ (03 R88). -/
def execCtz (x : IUn) (s : State) : Out := intUn s x false (ctzVal x.t)
/-- POPC (03 R88). -/
def execPopc (x : IUn) (s : State) : Out := intUn s x false (popcVal x.t)
/-- BREV (03 R88). -/
def execBrev (x : IUn) (s : State) : Out := intUn s x (tyWide x.t) (brevVal x.t)
/-- BEXT, immediate (03 R89). -/
def execBext (x : IUn) (pos : BitVec 7) (width : BitVec 8) (s : State) : Out :=
  intUn s x (tyWide x.t) fun a => bextVal x.t a pos.toNat width.toNat
/-- BEXT.r (03 R89): position in bits 6:0 of B, width in bits 14:8. -/
def execBextR (x : IBin) (s : State) : Out :=
  intBin s x false (tyWide x.t) fun a b => bextVal x.t a (fld b 6 0) (fld b 14 8)
/-- BINS, immediate (03 R90). -/
def execBins (k : BitVec 3) (d : Dst) (a b : Src) (t : IntTy) (pos : BitVec 7) (width : BitVec 8) (s : State) : Out :=
  laneOp s k d (tyWide t) fun e l =>
    binsVal t (e.src (tyWide t) a l) (e.src (tyWide t) b l) pos.toNat width.toNat
/-- BINS.r (03 R90): position and width from C. -/
def execBinsR (x : ITer) (s : State) : Out :=
  intTer s x (tyWide x.t) false (tyWide x.t) fun a b c => binsVal x.t a b (fld c 6 0) (fld c 14 8)
/-- BINT (03 R91). -/
def execBint (k : BitVec 3) (d : Dst) (a b : Src) (c : Option Src) (t : IntTy) (s : State) : Out :=
  laneOp s k d (tyWide t) fun e l =>
    bintVal t (e.src (tyWide t) a l) (e.src (tyWide t) b l) (c.map fun f => e.src (tyWide t) f l)
/-- BDIN (03 R91). -/
def execBdin (three : Bool) (x : IUn) (j : BitVec 2) (s : State) : Out :=
  intUn s x (tyWide x.t) fun a => bdinVal three x.t a j.toNat
/-- BPERM (03 R92). -/
def execBperm (x : ITer) (s : State) : Out := intTer s x false false false bpermVal
/-- BLUT (03 R93): B and C are 64-bit sources. -/
def execBlut (hi : Bool) (x : ITer) (s : State) : Out := intTer s x true true (tyWide x.t) (blutVal hi x.t)

/-! ## Moves (03 R94, R95) -/

/-- MOV (03 R94). -/
def execMov (x : IUn) (s : State) : Out := intUn s x (tyWide x.t) fun a => x.t.formN (x.t.pat a)
/-- MOVL (03 R94): the literal, sign-extended to 64 bits for I64 (02 Table 2.6). -/
def execMovl (k : BitVec 3) (d : Dst) (wide : Bool) (v : BitVec 32) (s : State) : Out :=
  laneOp s k d wide fun _ _ => if wide then v.signExtend 64 else v.setWidth 64

/-- The present contents of a destination (03 R94, MOVL.hi). -/
def Env.present (e : Env) (d : Dst) (l : Nat) : W64 :=
  match d with
  | .queue => e.g.age 0 l
  | .w n => e.g.win64 n l
  | .s n => Store.read e.g.scal n.toNat

/-- MOVL.hi (03 R94). -/
def execMovlHi (k : BitVec 3) (d : Dst) (v : BitVec 32) (s : State) : Out :=
  laneOp s k d true fun e l => v ++ (e.present d l).setWidth 32

/-- The value of an operand in the lowest executing lane; 0 when no lane executes, where nothing reads it. -/
def Env.lowOpd (e : Env) (ex : W32) (b : Opd) : W64 := e.opd false b ((lowestLane ex).getD 0)

/-- MOVS (03 R95). -/
def execMovs (x : IBin) (s : State) : Out :=
  withEnv s fun e =>
    let ex := e.lanes x.k
    let j := (e.lowOpd ex x.b).toNat % 32
    wordDone s e (e.g.resultAll ex x.d (tyWide x.t) (x.t.formN (x.t.pat (e.src (tyWide x.t) x.a j))))

/-! ## Masks and loop counters (03 R96, R106) -/

/-- A mask operand: k0 names the active set (03 R96). -/
def Env.maskSrc (e : Env) (k : BitVec 3) : W32 := e.g.mask e.active k

def Group.setMask (g : Group) (k : BitVec 3) (v : W32) : Group := { g with masks := Store.write g.masks k.toNat v }

/-- KOP (03 R96). -/
def execKop (op : KOp) (k : BitVec 3) (d : Dst) (a : Src) (kd kx ky : BitVec 3) (s : State) : Out :=
  withEnv s fun e =>
    let ex := e.lanes k
    let x := e.maskSrc kx
    let y := e.maskSrc ky
    let whole : W32 → Out := fun v => wordDone s e (if e.active = 0 then e.g else e.g.setMask kd v)
    match op with
    | .kand => whole (x &&& y)
    | .kor => whole (x ||| y)
    | .kxor => whole (x ^^^ y)
    | .kandn => whole (x &&& ~~~y)
    | .knot => whole (~~~x)
    | .kmov => whole x
    | .fromv =>
      let bits := laneMask fun l => e.src32 a l != 0
      wordDone s e (e.g.setMask kd ((Store.read e.g.masks kd.toNat &&& ~~~ex) ||| (bits &&& ex)))
    | .tov => wordDone s e (e.g.resultAll ex d false (x.setWidth 64))
    | .froms =>
      match lowestLane ex with
      | some l => whole ((e.src32 a l).setWidth 32)
      | none => wordDone s e e.g

def Group.lc (g : Group) (n : BitVec 2) : LoopCtr :=
  if n == 0 then g.lc0 else if n == 1 then g.lc1 else if n == 2 then g.lc2 else g.lc3

def Group.setLc (g : Group) (n : BitVec 2) (c : LoopCtr) : Group :=
  if n == 0 then { g with lc0 := c } else if n == 1 then { g with lc1 := c }
  else if n == 2 then { g with lc2 := c } else { g with lc3 := c }

/-- LCADV's new value: modulo the ring (03 R106). -/
def LoopCtr.add (c : LoopCtr) (v : Int) : LoopCtr :=
  { c with val := BitVec.ofInt 5 (Int.emod (Int.ofNat c.val.toNat + v) (Int.ofNat c.ring.toNat)) }

/-- What LCSET and LCADV push: ring × 256 + value. -/
def LoopCtr.word (c : LoopCtr) : W64 := BitVec.ofNat 64 (c.ring.toNat * 256 + c.val.toNat)

/-- A loop counter changed once when a lane executes, and pushed (03 R106). -/
def lcOp (s : State) (k : BitVec 3) (d : Dst) (lc : BitVec 2) (b : Opd) (f : LoopCtr → W64 → LoopCtr) : Out :=
  withEnv s fun e =>
    let ex := e.lanes k
    let c := if ex = 0 then e.g.lc lc else f (e.g.lc lc) (e.lowOpd ex b)
    wordDone s e ((e.g.setLc lc c).resultAll ex d false c.word)

/-- LCSET (03 R106). -/
def execLcset (k : BitVec 3) (d : Dst) (lc : BitVec 2) (b : Opd) (s : State) : Out :=
  lcOp s k d lc b fun _ v => loopOf (fld v 4 0) (fld v 13 8)
/-- LCADV (03 R106). -/
def execLcadv (k : BitVec 3) (d : Dst) (lc : BitVec 2) (b : Opd) (s : State) : Out :=
  lcOp s k d lc b fun c v => c.add (v.setWidth 32).toInt

end Sys2Proof.Machine
end

