-- ==== Sys2Proof/Machine/LaneVlf.lean ====
section
/-!
DEFINITION. The variable-length floating-point instructions of the lane pipe (05 R145-R158); VLD and VST stand with the
memory engine.
-/

namespace Sys2Proof.Machine

/-- Limbs that a window holds: its capacity less one (05 R144). -/
def Env.limbCap (e : Env) (n : BitVec 5) : Nat := e.gr.ko.caps.getD n.toNat 0 - 1

def Env.precOf (e : Env) (l : Nat) : W32 := Store.read e.g.prec l

def Env.winLimbs (e : Env) (n : BitVec 5) (l : Nat) : List W32 := (List.range 8).map fun i => e.g.winWord n (i + 1) l

/-- A window read as a VLF value (05 R135). -/
def Env.vlf (e : Env) (n : BitVec 5) (l : Nat) : Fp := vlfValue (e.limbCap n) (e.g.winWord n 0 l) (e.winLimbs n l)

/-! ## The traps (05 R146-R148) -/

/-- The FPST bits of the conditions that PREC enables (05 Table 5.6). -/
def precEnables (p : W32) : W32 :=
  (if precTI p then xNV ||| xDZ else 0) ||| (if precTO p then xOF ||| xUF else 0)
    ||| (if precTC p then xCF else 0) ||| (if precTW p then xWF else 0)

/-- Conditions in the order of a lane entry: NV, DZ, OF, UF, CF, WF (05 R148). -/
def raisedBits (x : W32) : Nat :=
  (if x &&& xNV != 0 then 1 else 0) + (if x &&& xDZ != 0 then 2 else 0) + (if x &&& xOF != 0 then 4 else 0)
    + (if x &&& xUF != 0 then 8 else 0) + (if x &&& xCF != 0 then 16 else 0) + (if x &&& xWF != 0 then 32 else 0)

/-- A lane's entry of the record (05 R148). -/
def vlfEntry (p : W32) (cap delta : Nat) (x : W32) : Nat :=
  Nat.min delta 511 * 2 ^ 23 + workLen p * 2 ^ 14 + cap * 2 ^ 10 + raisedBits x

/-- The record of a VLF trap (05 Table 5.7): precision exhausted when an enabled condition includes CF or WF. -/
def vlfRecord (e : Env) (lanes : W32) (cap : Nat) (v : Nat → Nat × W32) : FaultRec :=
  let exhausted := (laneList lanes).any fun l => (v l).2 &&& precEnables (e.precOf l) &&& (xCF ||| xWF) != 0
  let cause : Nat := if exhausted then 4 else 5
  { cause := BitVec.ofNat 8 cause
    detail := 0
    fields := [.num 8 cause, .num 48 e.r.addr.toNat, .num 5 e.r.idx, .num 5 e.r.runNo, .num 32 lanes.toNat,
      .arr 32 ((List.range 32).map fun l =>
        if lanes.getLsbD l then vlfEntry (e.precOf l) cap (v l).1 (v l).2 else 0)]
    lanes := lanes
    service := none }

/-- The lanes that raised a condition their PREC enables. -/
def Env.vlfTraps (e : Env) (ex : W32) (x : Nat → W32) : W32 :=
  ex &&& laneMask fun l => x l &&& precEnables (e.precOf l) != 0

/-- A word of 0x60-0x6F: conditions of every lane, sticky flags, the trap, or the effect (05 R147). `v` gives δ and the
conditions of a lane, `cap` the limbs of the destination. -/
def vlfTrapOr (s : State) (e : Env) (ex : W32) (cap : Nat) (v : Nat → Nat × W32) (f : Group → Out) : Out :=
  let g := e.g.raiseAll ex fun l => (v l).2
  let trap := e.vlfTraps ex fun l => (v l).2
  if trap = 0 then f g else parkWord s e g (vlfRecord e trap cap v)

/-- Words written to a window from word 0; words above them keep their contents (05 R144). -/
def Group.setVlf (g : Group) (ex : W32) (n : BitVec 5) (v : Nat → List W32) : Group :=
  { g with win := (laneList ex).foldl (fun m l =>
      ((v l).zipIdx).foldl (fun m q => Store.write m (winKey n q.2 l) q.1) m) g.win }

/-- A VLF result: no push (05 R145). -/
def vlfWord (s : State) (k : BitVec 3) (d : BitVec 5) (v : Env → W32 → Nat → Nat → VLane) : Out :=
  withEnv s fun e =>
    let ex := e.lanes k
    let cap := e.limbCap d
    let r : Nat → VLane := fun l => v e (e.precOf l) cap l
    vlfTrapOr s e ex cap (fun l => ((r l).delta, (r l).out.exc)) fun g =>
      wordDone s e (g.setVlf ex d fun l => (r l).out.words)

/-- Limbs of a destination for the record: its capacity less one, none where no window is written (05 R148). -/
def Env.dstLimbs (e : Env) : Dst → Nat
  | .w n => e.limbCap n
  | _ => 0

/-- An ordinary result of a VLF instruction, which pushes (05 R145). -/
def vlfToLane (s : State) (k : BitVec 3) (d : Dst) (wide : Bool) (v : Env → Nat → W64 × W32) : Out :=
  withEnv s fun e =>
    let ex := e.lanes k
    vlfTrapOr s e ex (e.dstLimbs d) (fun l => (0, (v e l).2)) fun g => wordDone s e (g.result ex d wide fun l => (v e l).1)

def vlfBin (s : State) (x : VBin) (f : W32 → Nat → Fp → Fp → VLane) : Out :=
  vlfWord s x.k x.d fun e p cap l => f p cap (e.vlf x.a l) (e.vlf x.b l)

def vlfUn (s : State) (x : VUn) (f : W32 → Nat → Fp → VLane) : Out :=
  vlfWord s x.k x.d fun e p cap l => f p cap (e.vlf x.a l)

/-! ## Instructions -/

/-- VADD (05 R152). -/
def execVadd (x : VBin) (s : State) : Out := vlfBin s x vaddVal
/-- VSUB (05 R152). -/
def execVsub (x : VBin) (s : State) : Out := vlfBin s x vsubVal
/-- VMUL (05 R152). -/
def execVmul (x : VBin) (s : State) : Out := vlfBin s x vmulVal
/-- VFMA (05 R152). -/
def execVfma (k : BitVec 3) (d a b c : BitVec 5) (s : State) : Out :=
  vlfWord s k d fun e p cap l => vfmaVal p cap (e.vlf a l) (e.vlf b l) (e.vlf c l)
/-- VDIV (05 R152). -/
def execVdiv (x : VBin) (s : State) : Out := vlfBin s x vdivVal
/-- VSQRT (05 R152). -/
def execVsqrt (x : VUn) (s : State) : Out := vlfUn s x vsqrtVal
/-- VCMP (05 R153): an N32 result. -/
def execVcmp (p : FPred) (k : BitVec 3) (d : Dst) (a b : BitVec 5) (s : State) : Out :=
  vlfToLane s k d false fun e l =>
    let r := Fp.pred p (e.vlf a l) (e.vlf b l)
    (boolVal r.1, r.2)
/-- VCVT.tov (05 R154). -/
def execVcvtTov (k : BitVec 3) (d : BitVec 5) (a : Src) (t : NumTy) (s : State) : Out :=
  vlfWord s k d fun e p cap l =>
    vcvtTovVal p cap t (e.src (match t with | .fp f => f == .f64 | .int i => tyWide i) a l)
/-- VCVT.fromv (05 R154). -/
def execVcvtFromv (k : BitVec 3) (d : Dst) (a : BitVec 5) (t : NumTy) (r : Rnd) (s : State) : Out :=
  vlfToLane s k d (match t with | .fp f => f == .f64 | .int i => tyWide i) fun e l => vcvtFromvVal t r (e.vlf a l)
/-- VRND.int (05 R155). -/
def execVrndInt (x : VUn) (s : State) : Out := vlfUn s x vrndIntVal
/-- VRND.fit (05 R155). -/
def execVrndFit (x : VUn) (s : State) : Out := vlfUn s x vrndFitVal
/-- VEXPO (05 R157): no condition. -/
def execVexpo (k : BitVec 3) (d : Dst) (a : BitVec 5) (s : State) : Out :=
  laneOp s k d false fun e l => vexpoVal (e.vlf a l)
/-- VLEN (05 R157). -/
def execVlen (k : BitVec 3) (d : Dst) (a : BitVec 5) (s : State) : Out :=
  laneOp s k d false fun e l => BitVec.ofNat 64 (hdrL (e.g.winWord a 0 l))
/-- VLEN.bytes (05 R157). -/
def execVlenBytes (k : BitVec 3) (d : Dst) (a : BitVec 5) (s : State) : Out :=
  laneOp s k d false fun e l => BitVec.ofNat 64 (4 + 4 * hdrL (e.g.winWord a 0 l))
/-- VSCALE (05 R156). -/
def execVscale (k : BitVec 3) (d a : BitVec 5) (b : Src) (s : State) : Out :=
  vlfWord s k d fun e p cap l => vscaleVal p cap (e.vlf a l) (IntTy.i32.toInt (e.src32 b l))

/-! ## PREC (05 R158) -/

/-- PRECR. -/
def execPrecr (k : BitVec 3) (d : Dst) (s : State) : Out :=
  laneOp s k d false fun e l => (e.precOf l).setWidth 64

/-- A candidate taken if acceptable; the result is the previous PREC, with bit 31 set when it was refused. -/
def precWrite (s : State) (k : BitVec 3) (d : Dst) (cand : Env → Nat → W32) : Out :=
  withEnv s fun e =>
    let ex := e.lanes k
    let g := e.g.result ex d false fun l =>
      let old := e.precOf l
      (if precOk (cand e l) then old else old ||| 0x80000000).setWidth 64
    let prec := (laneList ex).foldl (fun m l => if precOk (cand e l) then Store.write m l (cand e l) else m) e.g.prec
    wordDone s e { g with prec := prec }

/-- PRECW. -/
def execPrecw (k : BitVec 3) (d : Dst) (a : Src) (s : State) : Out :=
  precWrite s k d fun e l => ((e.src32 a l).setWidth 32) &&& 0xFFFFFF
/-- PRECW.len: the working length alone is replaced. -/
def execPrecwLen (k : BitVec 3) (d : Dst) (a : Src) (s : State) : Out :=
  precWrite s k d fun e l => (e.precOf l &&& 0xFFFFFE00) ||| (((e.src32 a l).setWidth 32) &&& 0x1FF)

end Sys2Proof.Machine
end

