-- ==== Sys2Proof/Machine/Mem.lean ====
section
/-!
DEFINITION. The memory engine's shared operations: issuing and completing commands (01 R16-R18, 02 R39), the order of a
group's accesses (07 R198, R201), faults of commands (08 R249), and reads and writes of one piece at its place, its L1 and
its home (06 R169-R172, 07 R198, 08 R250).
-/

namespace Sys2Proof.Machine

/-! ## Issue -/

/-- A command record as accepted (01 R16, R17). -/
def newOp (s : State) (e : Env) (i : Instr) (ex : W32) (caps : List Cap) (parts : List Part) : Op where
  id := s.nextId
  gid := e.g.gid
  core := e.t.core
  clause := e.r.addr
  word := BitVec.ofNat 5 e.r.idx
  run := BitVec.ofNat 5 e.r.runNo
  instr := i
  flag := none
  batch := none
  clasp := none
  caps := caps
  ex := ex
  pushAt := 0
  ranges := []
  parts := parts
  cursor := 0
  log := []
  buf := []
  fault := none
  stage := 0
  at_ := s.ctl.ptc

def State.addOp (s : State) (o : Op) : State := { s with ops := s.ops ++ [o], nextId := s.nextId + 1 }

/-- A command that is not flag-bound is accepted; the group goes on. -/
def accept (s : State) (e : Env) (g : Group) (o : Op) : Out := .next ((s.addOp o).advance g e.r)

/-- A flag-bound command is accepted: it is bound to its flag (01 R18) and, when `pushes`, pushes its queue entry at
issue (02 R39), which keeps the entry's old contents until completion (01 R21). -/
def acceptFlag (s : State) (e : Env) (o : Op) (pushes : Bool) : Out :=
  let g := if pushes then e.g.push 0 (fun _ => 0) else e.g
  .next ((s.addOp { o with flag := some e.r.flag, pushAt := g.pushes }).advance g e.r.bind)

/-- Operand captures of the executing lanes: kind 0 (14 Table 14.16). -/
def capLanes (ex : W32) (index : Nat) (f : Nat → W64) : List Cap := (laneList ex).map fun l => ⟨0, index, l, f l⟩

def Op.cap (o : Op) (index lane : Nat) : W64 := (capValue o.caps 0 index lane).getD 0

def newPart (lane : Nat) (sp : Space) (addr : W64) (off len : Nat) (st : PartSt) : Part where
  lane := lane
  sp := sp
  addr := addr
  off := off
  len := len
  key := 0
  commut := none
  st := st
  timeouts := 0
  lostReq := false
  sent := none
  way := none
  recalls := 0
  asked := false
  held := none

/-- A request or its answer is lost on the way (15 R414). -/
def Part.lose (p : Part) : Part := { p with lostReq := true }

/-- The pieces of an access of `n` bytes: its intersection with each 64-byte block (07 Table 7.1). -/
def pieces (addr n : Nat) : List (Nat × Nat) :=
  let a := 64 - addr % 64
  if n ≤ a then [(0, n)] else [(0, a), (a, n - a)]

/-- A quiesced page holds the clause at its word, with the pipe (03 R72, 08 R240). -/
def State.blockAt (s : State) (g : Group) (page : BitVec 32) : State :=
  s.setGroup { g with st := .blockedPage page, since := some (g.since.getD s.ctl.ptc) }

/-! ## Completion -/

/-- The flag of a finished command clears when no other is bound to it and none is to be (01 R18). -/
def State.releaseFlag (s : State) (gid : Nat) (f : Option (BitVec 4)) : State :=
  match f with
  | none => s
  | some f =>
    match s.group? gid with
    | none => s
    | some g =>
      let toCome := match g.run with | some r => r.awaited &&& flagMask f != 0 | none => false
      if s.flagBusy gid f || toCome then s else (s.setGroup (g.clearFlags (flagMask f))).settleExit gid

/-- A result that arrives late: the queue entry pushed at issue, wherever it has aged to, and the destination
(02 R39, R42). -/
def Group.late (g : Group) (o : Op) (d : Dst) (wide : Bool) (v : Nat → W64) : Group :=
  let age := g.pushes - o.pushAt
  let row := (laneList o.ex).foldl (fun m l => Store.write m l (v l)) (g.queue.getD age [])
  ({ g with queue := g.queue.set age row }).writeDst o.ex d wide v

/-- Completion of a command with the group as changed. -/
def State.finishWith (s : State) (o : Op) (f : Group → Group) : State :=
  let s := match s.group? o.gid with | some g => s.setGroup (f g) | none => s
  (s.dropOp o.id).releaseFlag o.gid o.flag

def State.finish (s : State) (o : Op) : State := s.finishWith o id

def Op.allDone (o : Op) : Bool := o.parts.all fun p => p.st == .done

def Op.setPart (o : Op) (i : Nat) (p : Part) : Op := { o with parts := o.parts.set i p }

/-! ## Kinds of commands, for the order of accesses -/

def Op.isLoad (o : Op) : Bool :=
  match o.instr with
  | .ld .. | .ldv .. | .vld .. | .ldbt .. | .ldtol .. | .ldtolDet .. | .ldtolV .. | .ldtolDetV .. => true
  | _ => false

def Op.isAtomic (o : Op) : Bool :=
  match o.instr with
  | .atom .. | .atomw .. | .fatom .. | .acas .. | .enq .. | .deq .. | .bnginit .. => true
  | _ => false

/-- The order and scope a command was given (07 R201, 13 R361). -/
def Op.order (o : Op) : Order × Scope :=
  match o.instr with
  | .ld _ _ _ x _ | .ldv _ _ _ x | .vld _ _ _ x | .ldbt _ _ _ x | .ldtol _ _ _ _ x | .ldtolDet _ _ _ x
  | .ldtolV _ _ _ _ x | .ldtolDetV _ _ _ x | .st _ _ _ x | .stv _ _ _ x | .vst _ _ _ x | .stbt _ _ _ x
  | .stadd _ _ _ x | .staddV _ _ _ x => (x.order, x.scope)
  | .atom _ _ _ _ _ x | .atomw _ _ _ _ _ _ x | .fatom _ _ _ _ _ x | .acas _ _ _ _ _ x | .enq _ _ _ _ x | .deq _ _ _ x
  | .bnginit _ _ _ _ x => (x.order, x.scope)
  | .cltest _ _ _ _ (some sc) => (.acq, sc)
  | .clarr _ _ _ _ sc => (.rel, sc)
  | .fence m _ sc =>
    (match m with | .acq => .acq | .rel => .rel | .ar => .ar | .sc => .ar, sc)
  | _ => (.relaxed, .grp)

def Op.isFence (o : Op) : Bool :=
  match o.instr with
  | .fence .. => true
  | _ => false

def Op.isFenceSc (o : Op) : Bool :=
  match o.instr with
  | .fence .sc _ _ => true
  | _ => false

def Op.acquires (o : Op) : Bool := o.order.1 == .acq || o.order.1 == .ar
def Op.releases (o : Op) : Bool := o.order.1 == .rel || o.order.1 == .ar

/-- A scope of a cluster or wider; of a die or wider. -/
def scopeWide : Scope → Bool
  | .clu | .die | .pkg | .dom | .sys => true
  | _ => false
def scopeFar : Scope → Bool
  | .die | .pkg | .dom | .sys => true
  | _ => false

/-- A prefetch orders nothing (06 R190). -/
def Op.isHint (o : Op) : Bool :=
  match o.instr with
  | .pfx .. => true
  | _ => false

def Op.copyX (o : Op) : Option CopyX :=
  match o.instr with
  | .copy x | .copy2d x | .copy3d x | .copym x => some x
  | _ => none

def Op.isCopy (o : Op) : Bool := o.copyX.isSome

def State.earlier (s : State) (o : Op) : List Op :=
  s.ops.filter fun p => p.gid == o.gid && p.id < o.id && !p.isHint && !p.isReport

/-- Every part has been performed or has faulted. -/
def Op.settled (o : Op) : Bool := o.parts.all fun p => p.st == .done || p.st == .faulted

/-- A command whose faults are set out and whose other parts have been performed. -/
def Op.faulted (o : Op) : Bool := o.fault.isSome && o.settled

/-- An earlier load or atomic of the group whose value is still to be taken. -/
def Op.untaken (o : Op) : Bool := (o.isLoad || o.isAtomic) && !o.allDone

/-- A command that acquires has not done so. -/
def Op.acquiring (o : Op) : Bool := o.acquires && !o.allDone

/-- Conditions on a load, an atomic or CLTEST (06 R192, 07 R198, R201): earlier acquires and fences performed, earlier
loads taken in program order, those that faulted too. -/
def State.loadClear (s : State) (o : Op) : Bool :=
  (s.earlier o).all fun p => !p.isFence && !p.acquiring && !(p.isLoad && !p.allDone)

/-- Conditions on a write becoming visible: no earlier load or atomic without its value, no earlier fence or acquire
pending (06 R192, 07 R198, R201). -/
def State.storeClear (s : State) (o : Op) : Bool :=
  (s.earlier o).all fun p => !p.isFence && !p.untaken && !p.acquiring

/-- No flush marker of a command is on its way (07 R206). -/
def State.gathered (s : State) (op : Nat) : Bool :=
  s.msgs.all fun m => match m.body with | .marker x _ => x != op | _ => true

/-- Conditions on an engine's command reading its sources (07 R208): earlier stores acknowledged, fences performed. -/
def State.engineClear (s : State) (o : Op) : Bool :=
  (s.earlier o).all fun p => !p.isFence && !p.isStore && !p.acquiring

/-- A command's flush markers sent down every path to some homes (07 R206). -/
def State.sendMarkers (s : State) (o : Op) (homes : List Nat) : State :=
  homes.foldl (fun (s : State) d => (s.pathsTo o.core d).foldl (fun (s : State) path => s.sendMarker o.id d path) s) s

/-- A release (07 R201, R206): it performs once every earlier access has, a faulted one after its replay, and, at die
scope or wider, markers sent to each die and device written since the last such release have been gathered there. -/
def whenReleased (s : State) (o : Op) (sc : Scope) (f : Out) : Out :=
  need ((s.earlier o).isEmpty && s.gathered o.id) <|
    match s.group? o.gid with
    | none => f
    | some g =>
      if scopeFar sc && !g.touched.isEmpty then
        .next ((s.sendMarkers o g.touched).setGroup { g with touched := [] })
      else f

/-! ## Faults of commands (08 R249) -/

/-- A record laid out as 08 Table 8.13, for one lane: the address the lane formed (06 R162).  Causes 7, 9 and 10 have it
with their own detail and no kind (log 30). -/
def tableFault (cause kind detail dev acc space size level st : Nat) (clause : BitVec 48) (word run : Nat) (lane : Nat)
    (addr : W64) : FaultRec where
  cause := BitVec.ofNat 8 cause
  detail := BitVec.ofNat 8 (if cause == 6 then kind else detail)
  fields := [.num 8 cause, .num 8 kind, .num 8 detail, .num 4 acc, .num 3 space, .num 3 size, .num 2 level, .num 3 st,
    .num 6 dev, .num 6 0, .num 48 clause.toNat, .num 5 word, .num 5 run, .current, .num 32 (laneBit lane).toNat,
    .arr 64 ((List.range 32).map fun l => if l == lane then addr.toNat else 0)]
  lanes := laneBit lane
  service := none

/-- A memory fault's record, with the piece of the access that faulted for the memory service (08 R243). -/
def memFault (dev acc space size kind detail level st : Nat) (clause : BitVec 48) (word run : Nat) (lane : Nat)
    (addr piece : W64) : FaultRec :=
  { tableFault 6 kind detail dev acc space size level st clause word run lane addr with
    service := if kind == 3 && detail == 2 then some (piece.setWidth 48) else none }

/-- A clause-fetch fault's record (02 R48): every active lane with the faulting address. -/
def fetchFault (dev kind detail level st : Nat) (clause : BitVec 48) (lanes : W32) (addr : W64) : FaultRec :=
  let base := memFault dev 6 4 3 kind detail level st clause 0 0 0 addr addr
  { base with
    lanes := lanes
    service := none
    fields := base.fields.map fun f => match f with
      | .num 32 _ => .num 32 lanes.toNat
      | .arr n _ => .arr n ((List.range 32).map fun l => if lanes.getLsbD l then addr.toNat else 0)
      | f => f }

/-- A fault of an engine's command that is no memory fault (09 R271, 12 R351, 13 R370). -/
def engineFault (s : State) (o : Op) (cause detail acc : Nat) (sp : Space) (lane : Nat) (addr : W64) : FaultRec :=
  tableFault cause 0 detail s.device acc (spaceNum sp) 0 0 0 o.clause o.word.toNat o.run.toNat lane addr

/-- Two lanes' faults of one instruction: the lowest lane's kind, all the lanes and addresses (08 R249). -/
def joinFaults (a b : FaultRec) : FaultRec :=
  let lo := if (lowestLane a.lanes).getD 32 ≤ (lowestLane b.lanes).getD 32 then a else b
  let hi := if (lowestLane a.lanes).getD 32 ≤ (lowestLane b.lanes).getD 32 then b else a
  let lanes := a.lanes ||| b.lanes
  let arr : List Nat := hi.fields.foldl (fun acc f => match f with | .arr _ vs => vs | _ => acc) []
  { lo with
    lanes := lanes
    fields := lo.fields.map fun f => match f with
      | .num 32 _ => .num 32 lanes.toNat
      | .arr n vs => .arr n ((vs.zipIdx).map fun q => if q.1 == 0 then arr.getD q.2 0 else q.1)
      | f => f }

def Op.addFault (o : Op) (f : FaultRec) : Op :=
  { o with fault := some (match o.fault with | none => f | some g => joinFaults g f) }

/-- Size code of an access (02 Table 2.5), for the record. -/
def Op.sizeCode (o : Op) : Nat :=
  match o.instr with
  | .ld _ _ _ x _ | .ldv _ _ _ x | .vld _ _ _ x | .ldbt _ _ _ x | .ldtol _ _ _ _ x | .ldtolDet _ _ _ x
  | .ldtolV _ _ _ _ x | .ldtolDetV _ _ _ x | .st _ _ _ x | .stv _ _ _ x | .vst _ _ _ x | .stbt _ _ _ x
  | .stadd _ _ _ x | .staddV _ _ _ x => x.size.code.toNat
  | .atom _ _ _ _ _ x | .atomw _ _ _ _ _ _ x | .fatom _ _ _ _ _ x | .acas _ _ _ _ _ x | .enq _ _ _ _ x | .deq _ _ _ x
  | .bnginit _ _ _ _ x => if x.wide then 3 else 2
  | .mapq .. => 3
  | _ => 0

/-- A part of a command faults: it stops, and the command is marked (01 R22). -/
def faultPart (s : State) (o : Op) (i : Nat) (p : Part) (acc kind detail level st : Nat) : Out :=
  let f := memFault s.device acc (spaceNum p.sp) o.sizeCode kind detail level st o.clause o.word.toNat o.run.toNat p.lane
    p.addr (p.addr + BitVec.ofNat 64 p.off)
  .next (s.setOp ((o.setPart i { p with st := .faulted }).addFault f))

/-! ## Places of parts -/

/-- The team, grid and group of a command. -/
def State.ownerOf (s : State) (o : Op) : Option (Group × Team × Grid) :=
  match s.group? o.gid with
  | none => none
  | some g =>
    match s.team? g.team with
    | none => none
    | some t =>
      match s.grid? t.grid with
      | none => none
      | some gr => some (g, t, gr)

/-- Where a piece goes: the checks of the whole access of `n` bytes, then the translation of the piece (06 R165). -/
def State.placePiece (s : State) (g : Group) (t : Team) (gr : Grid) (a : Acc) (p : Part) (n align : Nat) : Where :=
  match p.sp with
  | .g => if p.addr.toNat % align != 0 then .bad 8 4 0 0
    else if fld p.addr 63 48 != 0 || 2 ^ 48 < p.addr.toNat + n then .bad 7 4 0 0
    else s.global t.core a (p.addr + BitVec.ofNat 64 p.off)
  | _ =>
    match s.place t gr g.grpid.toNat p.lane a p.sp p.addr n align with
    | .at k r => .at ((s.localKey t gr g.grpid.toNat p.lane p.sp (p.addr + BitVec.ofNat 64 p.off) p.len).getD k) r
    | w => w

/-! ## The bytes of a copy (09 R256) -/

def Op.low (o : Op) : Nat := (lowestLane o.ex).getD 0

/-- A scalar of the parameter block (09 Table 9.1), by its place from sn. -/
def Op.par (o : Op) (i : Nat) : W64 :=
  match o.copyX with
  | some x => (capValue o.caps 1 (x.n.toNat + i) 0).getD 0
  | none => 0

/-- x, y and z of a copy (09 R256). -/
def Op.dims (o : Op) : Nat × Nat × Nat :=
  let x := fld (o.par 1) 31 0
  let y := fld (o.par 1) 47 32
  let z := fld (o.par 1) 63 48
  match o.instr with
  | .copy2d _ => (x, y, 1)
  | .copy3d _ => (x, y, z)
  | _ => (x, 1, 1)

def Op.total (o : Op) : Nat := o.dims.1 * o.dims.2.1 * o.dims.2.2

def strideOf (v : W64) (hi lo : Nat) : W64 := (BitVec.ofNat 32 (fld v hi lo)).signExtend 64

/-- Source and destination addresses of byte `c` of a copy, in the order of 09 R256. -/
def Op.copyAt (o : Op) (c : Nat) : W64 × W64 :=
  let x := o.dims.1
  let y := o.dims.2.1
  let b := c % x
  let i := c / x % y
  let p := c / (x * y)
  let rows : W64 × W64 := match o.instr with
    | .copy2d _ | .copy3d _ => (strideOf (o.par 2) 31 0, strideOf (o.par 2) 63 32)
    | _ => (0, 0)
  let planes : W64 × W64 := match o.instr with
    | .copy3d _ => (strideOf (o.par 3) 31 0, strideOf (o.par 3) 63 32)
    | _ => (0, 0)
  let at_ (base : W64) (r pl : W64) : W64 :=
    base + BitVec.ofNat 64 p * pl + BitVec.ofNat 64 i * r + BitVec.ofNat 64 b
  (at_ (o.cap 1 o.low) rows.1 planes.1, at_ (o.cap 0 o.low) rows.2 planes.2)

/-- The 64-byte block of an address. -/
def blockAddr (a : W64) : W64 := a &&& ~~~63#64

/-- One side's address of byte `c` of a copy. -/
def Op.sideAt (o : Op) (src : Bool) (c : Nat) : W64 := if src then (o.copyAt c).1 else (o.copyAt c).2

/-- The bytes of a copy that lie in a block of one side: the first byte and the number, of each row that meets it. -/
def Op.segs (o : Op) (src : Bool) (blk : W64) : List (Nat × Nat) :=
  let x := o.dims.1
  (List.range (o.dims.2.1 * o.dims.2.2)).filterMap fun r =>
    let a := o.sideAt src (r * x)
    let d := (blk - a).toNat
    let u := (a - blk).toNat
    if d < x then some (r * x + d, Nat.min 64 (x - d)) else if u < 64 then some (r * x, Nat.min (64 - u) x) else none

/-- Where the engine keeps a byte of a source block, that it has read the block, and the block's tag. -/
def imageKey (a : W64) : Nat := 2 ^ 20 + a.toNat
def imageFlag (a : W64) : Nat := 2 ^ 66 + a.toNat / 64
def imageTag (a : W64) : Nat := 2 ^ 67 + a.toNat / 64 * 2

/-! ## The range scoreboard (06 R174) -/

def rangesOverlap (a b c d : Nat) : Bool := a < d && c < b

/-- The address in one of a team's local spaces that a key stands for. -/
def State.localAddr (s : State) (t : Team) (gr : Grid) (grpid lane : Nat) (sp : Space) (key : Nat) : Option Nat :=
  let at_ (base n : Nat) : Option Nat := if base ≤ key && key < base + n then some (key - base) else none
  match sp with
  | .l => at_ (laneKey t.core (t.laneBase + (grpid * 32 + lane) * gr.ko.laneBytes)) gr.ko.laneBytes
  | .s => at_ (spadKey t.core t.spadBase) gr.ko.spad
  | .c => (List.range t.clCount).findSome? fun r => (s.rankTeam t r).bind fun u =>
      (at_ (spadKey u.core u.expBase) gr.ko.exportBytes).map fun a => r * gr.ko.exportBytes + a
  | _ => none

/-- A copy has still to read a source block that holds one of some bytes. -/
def State.unread (s : State) (c : Op) (key len : Nat) : Bool :=
  match s.ownerOf c, c.copyX with
  | some w, some x =>
    let addrs := (List.range len).filterMap fun j => s.localAddr w.2.1 w.2.2 w.1.grpid.toNat c.low x.src (key + j)
    ((addrs.map fun a => blockAddr (BitVec.ofNat 64 a)).eraseDups).any fun b =>
      Store.read c.buf (imageFlag b) == 0 && (c.segs true b).any fun q => c.cursor < q.1 + q.2
  | _, _ => false

/-- The scoreboard entries of a copy keep an access back: any, of its destination; a store, of what it has still to read
(06 R174). -/
def State.rangeHolds (s : State) (c : Op) (key len : Nat) (store : Bool) : Bool :=
  c.ranges.any fun r => rangesOverlap key (key + len) r.2.1 r.2.2 && (r.1 || (store && s.unread c key len))

/-- An access of a core's local memory waits on a copy in flight; an access of the copy's own group that came before the
copy does not (07 R197). -/
def State.scoreHold (s : State) (gid id key len : Nat) (store : Bool) : Bool :=
  2 ^ 46 ≤ key && s.ops.any fun o => (o.gid != gid || o.id < id) && s.rangeHolds o key len store

/-! ## Stores still on their way (07 R198) -/

/-- The stored bytes that a read of `[key, key + n)` by group `gid` on `core`, in a command numbered `id`, sees before
memory: departed stores of the core in store order, then the group's own queued ones. -/
def State.overlays (s : State) (core gid id key n : Nat) : List (Nat × Nat × Byte) :=
  s.ops.flatMap fun o =>
    if o.isStore && !o.isAdd && o.core == core then
      o.parts.flatMap fun p =>
        let vis : Option Nat := match p.st with
          | .departed k => some k
          | .queued => if o.gid == gid && o.id < id then some (2 ^ 60 + o.id) else none
          | _ => none
        match vis with
        | none => []
        | some k =>
          (List.range p.len).filterMap fun j =>
            if key ≤ p.key + j && p.key + j < key + n then
              some (k, p.key + j - key, Store.read o.buf (64 * p.lane + p.off + j))
            else none
    else []

/-- The overlay applied in order of place, later ones on top. -/
def applyOverlays (base : List Byte) (ov : List (Nat × Nat × Byte)) : List Byte :=
  (base.zipIdx).map fun q =>
    ((ov.filter fun o => o.2.1 == q.2).foldl
      (fun (best : Nat × Byte) o => if best.1 ≤ o.1 then (o.1, o.2.2) else best) (0, q.1)).2

/-! ## Reads at the L1 and the home (06 R169-R172) -/

/-- A read-duplicate page or another device's memory carries .own as .si (06 R172, 08 R232). -/
def effLoadReq (s : State) (key : Nat) (rd : Bool) (r : Req) : Req :=
  if r == .own && (rd || dpaDevice key != s.device) then .si else r

/-- .own of another device's memory is carried as .wt (06 R172). -/
def effStoreReq (s : State) (key : Nat) (r : Req) : Req := if r == .own && dpaDevice key != s.device then .wt else r

/-- A request type that the requester's line, if it holds one, can answer: any line for .si, a registered one for .own,
an owned one for .nc. -/
def lineAnswers (r : Req) (ln : L1Line) : Bool :=
  match r with
  | .si => true
  | .own => ln.st != LineSt.si
  | _ => ln.st == LineSt.owned

def blockData (s : State) (blk : Nat) : Store 8 := Store.slice s.mem blk (blk + 64)

/-- The scale-out timeout in ns, of a value of LNKTO, and the one within the package (15 R415). -/
def outTimeout (lnkto : W64) : Nat := Nat.max 1 (fld lnkto 31 16) * 100
def pkgTimeout (lnkto : W64) : Nat := Nat.max 1 (fld lnkto 15 0) * 100

/-- The scale-out timeout now. -/
def State.linkTimeout (s : State) : Nat := outTimeout s.ctl.lnkto

/-- The request has come to the home of a key, where a link lies on its way. -/
def State.sentTo (s : State) (core : Nat) (p : Part) (key : Nat) : Bool :=
  !s.remote core key || (p.line.isSome && match p.sent with | some x => x.home == destOf s key && x.arrived | none => false)

/-- A path leads from a core to a home. -/
def State.pathTo (s : State) (core key : Nat) : Bool := !s.remote core key || s.reaches (homeOf s key).1

/-- A request can be answered now: sent, not lost, not faulted, not held on a page, and a path exists (08 R223, 15 R415,
R416). -/
def State.passes (s : State) (core : Nat) (p : Part) (key : Nat) : Bool :=
  !p.lostReq && p.timeouts < 3 && p.held.isNone && s.sentTo core p key && s.pathTo core key

/-- The key of the block whose tag a key of the tag plane is; a key of data as it is. -/
def dataKey (key : Nat) : Nat := if 2 ^ 48 ≤ key then (key - 2 ^ 48) * 32 else key

/-- Some parts of a command changed in place. -/
def Op.mapParts (o : Op) (js : List Nat) (f : Part → Part) : Op :=
  { o with parts := (o.parts.zipIdx).map fun q => if js.contains q.2 then f q.1 else q.1 }

/-- The request goes on its way (15 R415, R416): it is sent, under the number it had where it goes to the same home again,
and then arrives.  `js` are the parts that go with it. -/
def travel (s : State) (o : Op) (i : Nat) (js : List Nat) (p : Part) (w : Way) : Out :=
  let home := destOf s (dataKey w.key)
  let put (n : Sent × State) : Out :=
    .next (n.2.setOp (o.setPart i { p with sent := some n.1, timeouts := 0, way := some { w with turn := n.1.stamp } }))
  let fresh : Out := need (s.windowOpen o.requester home) (put (s.number o.requester home))
  match p.line, p.sent with
  | some _, some x => need (s.arrives x) (.next (s.setOp (o.mapParts js fun q => { q with sent := some { x with arrived := true } })))
  | none, some x => if x.home == home then put (s.again x) else fresh
  | _, none => fresh

/-- A request at its place: `f`, once the request has come to its home, where a link lies on its way. -/
def request (s : State) (o : Op) (i : Nat) (p : Part) (key : Nat) (region : Option (BitVec 12)) (f : Out) : Out :=
  if s.passes o.core p key then f
  else need (s.remote o.core key && p.held.isNone && !p.lostReq) (travel s o i [i] p ⟨0, key, region⟩)

/-- A part meets a page in state 5, and waits for its release (08 R223, R240). -/
def holdPart (s : State) (o : Op) (i : Nat) (p : Part) (page : BitVec 32) : Out :=
  need p.held.isNone (.next (s.setOp (o.setPart i { p with held := some page })))

/-- Where a request that is under way has gone; else `w`: an address is translated once (08 R238). -/
def Part.site (p : Part) (w : Where) : Where :=
  match p.way with
  | some y => .at y.key y.region
  | none => w

/-- Where the first byte of a part lies, as an access of a kind. -/
def State.partPlace (s : State) (o : Op) (p : Part) (a : Acc) : Where :=
  match s.ownerOf o with
  | none => .bad 0 0 0 0
  | some w => s.place w.2.1 w.2.2 w.1.grpid.toNat p.lane a p.sp (p.addr + BitVec.ofNat 64 p.off) 1 1

/-- The block that a part of an access lies in, when it has one: as translated, where it has been. -/
def State.partBlock (s : State) (o : Op) (p : Part) : Option Nat :=
  match p.st with
  | .queued | .departed _ => some (blockOf (dataKey p.key))
  | _ => match p.site (s.partPlace o p .query) with | .at key _ => some (blockOf key) | _ => none

/-- No earlier atomic of the group to the block of a key is still to be performed (07 R197, 13 R360). -/
def State.atomsClear (s : State) (o : Op) (key : Nat) : Bool :=
  (s.earlier o).all fun q => !q.isAtomic || q.parts.all fun x => x.st == .done || s.partBlock q x != some (blockOf key)

/-- The home asks an owner, if there is one, for the line, and the part waits until the recall returns (06 R171); then
`f`.  An owner that keeps the line has given its dirty words. -/
def withOwner (s : State) (o : Op) (i : Nat) (p : Part) (owner : Option Nat) (key : Nat) (drop shared : Bool) (f : Out) :
    Out :=
  match owner with
  | none => f
  | some c =>
    if p.recalls != 0 then .refused .eventNotEnabled
    else if p.asked && !drop && !shared then f
    else
      let s := s.setOp (o.setPart i { p with asked := true, recalls := 1, way := some (p.way.getD ⟨s.nextId, key, none⟩) })
      .next (s.send (.recallLine c (blockOf key) o.id i drop shared))

/-- The requests of a command that change what lies at their home. -/
def Op.applies (o : Op) (i : Nat) : Bool :=
  match o.instr with
  | .clinit .. | .clexp .. | .clarr .. | .clinv .. | .tst _ | .accst _ => true
  | .sres _ => o.stage == 2
  | _ => o.isStore || o.isAtomic || (o.isCopy && 1 ≤ i)

/-- A requester's requests to a block are applied in their order (07 R205): those before place `k` have been.  A
contribution that a drain carries comes with the drain. -/
def State.inTurn (s : State) (requester blk k : Nat) : Bool :=
  s.ops.all fun q => q.requester != requester || (q.parts.zipIdx).all fun x =>
    match x.1.line with
    | some j =>
      let key := match x.1.way with | some w => w.key | none => x.1.key
      k ≤ j || !q.applies x.2 || blockOf (dataKey key) != blk || (x.1.asked && q.isAdd) || s.duplicate requester x.1.sent
    | none => true

/-- The place of a request that is to be applied now. -/
def State.lineOf (s : State) (p : Part) : Nat := p.line.getD s.nextId

/-- Self-invalidating lines of a core dropped (06 R170). -/
def State.dropSi (s : State) (core : Nat) : State :=
  { s with l1 := s.l1.filter fun (l : L1Line) => !(l.core == core && l.st == LineSt.si) }

/-! ## Room in an L1 (06 R169, 07 R213) -/

/-- A line leaves its L1: dirty words go home, and the directory forgets the core (06 R169). -/
def State.evictLine (s : State) (ln : L1Line) : State :=
  let s := (s.writeBack ln).dropLine ln.core ln.blk
  if ln.st == LineSt.si then s
  else
    let d := s.dirOf ln.blk
    let owner : Option Nat := if d.owner == some ln.core then none else d.owner
    s.setDir ⟨ln.blk, owner, d.sharers.filter fun c => c != ln.core⟩

/-- Places of 64 bytes that an L1 has: 128 KiB, of which a hamper line takes two (01 R12, 07 R213). -/
def l1Places : Nat := 2048

/-- Places taken in a core's L1. -/
def State.l1Used (s : State) (core : Nat) : Nat :=
  s.l1.countP (fun l => l.core == core) + 2 * s.hampers.countP fun h => h.core == core

/-- A core's L1 gives up its first lines until so many places are free (log 116). -/
def State.makeRoom (s : State) (core n : Nat) : State :=
  ((s.l1.filter fun l => l.core == core).take (s.l1Used core + n - l1Places)).foldl State.evictLine s

/-- A line enters an L1, in the place of the one it replaces or in a place made free. -/
def State.addLine (s : State) (ln : L1Line) : State :=
  if (s.line? ln.core ln.blk).isSome then s.setLine ln else (s.makeRoom ln.core 1).setLine ln

/-- The bytes of a piece as a load of the group takes them, and the state with the L1 as the request leaves it: a load
that passes by a self-invalidating line drops it, for it could be older (07 R197).  The caller has asked for the recall
of another owner. -/
def State.loadBytes (s : State) (o : Op) (key n : Nat) (r : Req) : List Byte × State :=
  let ov := s.overlays o.core o.gid o.id key n
  if !isHbm key then (applyOverlays (s.bytes key n) ov, s)
  else
    let blk := blockOf key
    match s.line? o.core blk with
    | some ln =>
      if lineAnswers r ln then (applyOverlays (Store.readList ln.data (key - blk) n) ov, s)
      else (applyOverlays (s.bytes key n) ov, fill (if ln.st == LineSt.si then s.dropLine o.core blk else s) blk)
    | none => (applyOverlays (s.bytes key n) ov, fill s blk)
where
  fill (s : State) (blk : Nat) : State :=
    match r with
    | .si => s.addLine ⟨o.core, blk, .si, blockData s blk, 0⟩
    | .own =>
      let s := s.addLine ⟨o.core, blk, .shared, blockData s blk, 0⟩
      let d := s.dirOf blk
      s.setDir { d with sharers := if d.sharers.contains o.core then d.sharers else d.sharers ++ [o.core] }
    | _ => s

/-- The owner that must be recalled before a home can answer the requester. -/
def State.otherOwner (s : State) (core blk : Nat) : Option Nat :=
  match (s.dirOf blk).owner with
  | some c => if c == core then none else some c
  | none => none

/-! ## Stores at the home -/

/-- Bytes laid into a line's copy. -/
def L1Line.patch (ln : L1Line) (off : Nat) (l : List Byte) (dirty : Bool) : L1Line :=
  { ln with
    data := Store.writeList ln.data off l
    dirty := if dirty then (List.range l.length).foldl (fun d j => d ||| (1#16 <<< ((off + j) / 4))) ln.dirty else ln.dirty }

/-- A write that covers a whole block clears its poison mark; another leaves it (08 R250). -/
def State.writePiece (s : State) (key : Nat) (l : List Byte) : State :=
  let s := s.putBytes key l
  if l.length == 64 && key % 64 == 0 then s.unmark key else s

/-- Every L1's copy but the requester's is dropped: of a .own store the registered ones, of another store all (06
Table 6.2). -/
def State.dropSharers (s : State) (blk core : Nat) (all : Bool) : State :=
  let d := s.dirOf blk
  let s := { s with l1 := s.l1.filter fun (l : L1Line) => !(l.blk == blk && l.core != core && (all || l.st != LineSt.si)) }
  s.setDir { d with sharers := d.sharers.filter fun c => c == core,
                    owner := match d.owner with | some c => if c == core then some c else none | none => none }

/-- A store piece performed at its home under its request type, with the copy of the requester's L1 (06 R170,
Table 6.2): an .nc store drops a clean one. -/
def State.homeStore (s : State) (core key : Nat) (l : List Byte) (r : Req) : State :=
  let blk := blockOf key
  if !isHbm key then s.writePiece key l
  else
    match r with
    | .own =>
      match s.line? core blk with
      | some ln =>
        if ln.st == LineSt.owned then s.setLine (ln.patch (key - blk) l true)
        else own s blk
      | none => own s blk
    | .wt => (keepClean (s.dropSharers blk core true)).writePiece key l
    | _ =>
      let s := s.dropSharers blk core true
      let s := match s.line? core blk with
        | some ln => if ln.dirty != 0 then s.setLine (ln.patch (key - blk) l false) else s.evictLine ln
        | none => s
      s.writePiece key l
where
  own (s : State) (blk : Nat) : State :=
    let s := s.dropSharers blk core false
    let ln : L1Line := ⟨core, blk, .owned, blockData s blk, 0⟩
    (s.addLine (ln.patch (key - blk) l true)).setDir ⟨blk, some core, []⟩
  keepClean (s : State) : State :=
    match s.line? core (blockOf key) with
    | some ln => s.setLine (ln.patch (key - blockOf key) l false)
    | none => s

/-- What a release must later gather: the die or device of a store's home (07 R206). -/
def Group.touch (g : Group) (d : Nat) : Group :=
  if g.touched.contains d then g else { g with touched := g.touched ++ [d] }

/-- A group has written at a key: the next release sends markers to its die (07 R206). -/
def State.touch (s : State) (gid key : Nat) : State :=
  if 2 ^ 46 ≤ key then s
  else
    match s.group? gid with
    | some g => s.setGroup (g.touch (destOf s key))
    | none => s

/-- Time from issue, for a monitor (15 Table 15.10). -/
def State.captureOp (s : State) (source : Nat) (o : Op) : State :=
  match s.group? o.gid with
  | some g => s.captureFor source g (s.ctl.ptc - o.at_)
  | none => s

end Sys2Proof.Machine
end

