-- ==== Sys2Proof/Machine/Load.lean ====
section
/-!
DEFINITION. Loads (06 R184, R185, 05 R159): their issue, the read of one piece, and their results.  LDBT and MAPQ
(06 R193, R194) stand here too.
-/

namespace Sys2Proof.Machine

/-! ## Kinds -/

/-- The access kind of a command (08 Table 8.6). -/
def Op.acc (o : Op) : Acc :=
  match o.instr with
  | .ldv .. => .loadv
  | .ldtol .. | .ldtolDet .. | .ldtolV .. | .ldtolDetV .. => .ldtol
  | .ldbt .. => .ldbt
  | .st .. | .stv .. | .vst .. => .store
  | .stbt .. => .stbt
  | .stadd .. | .staddV .. => .stadd
  | .mapq .. | .drainR .. => .query
  | .atom .. | .atomw .. | .fatom .. | .acas .. | .enq .. | .deq .. | .bnginit .. => .atomic
  | .smpl .. | .smplg .. | .smpllLod .. | .smpllGrad .. | .sres .. => .sampler
  | .tld .. | .mma .. | .mmat .. | .mmafx .. | .accld .. | .popld .. | .prepld .. => .matrix
  | .tst .. | .accst .. => .store
  | _ => .load

/-- The memory class extension of a command. -/
def Op.memx (o : Op) : Option MemX :=
  match o.instr with
  | .ld _ _ _ x _ | .ldv _ _ _ x | .vld _ _ _ x | .ldbt _ _ _ x | .ldtol _ _ _ _ x | .ldtolDet _ _ _ x
  | .ldtolV _ _ _ _ x | .ldtolDetV _ _ _ x | .st _ _ _ x | .stv _ _ _ x | .vst _ _ _ x | .stbt _ _ _ x
  | .stadd _ _ _ x | .staddV _ _ _ x => some x
  | _ => none

def Op.reqType (o : Op) : Req :=
  match o.memx with
  | some x => if x.req == .add then .nc else x.req
  | none => .nc

/-- Bytes and alignment of one lane's access by LD or ST (06 R165). -/
def sizeAlign (z : Size) : Nat := if z.bytes ≤ 8 then z.bytes else 16

/-! ## Acquires -/

/-- What an acquire at a scope does to the core's L1 and its cluster's sampler cache (06 R170, 12 R353). -/
def State.acquireAt (s : State) (core : Nat) (sc : Scope) : State :=
  if scopeWide sc then
    let s := s.dropSi core
    { s with scache := s.scache.filter fun (c : Nat × Nat × List Byte) => c.1 != clusterIdx core }
  else s

def State.acquireFor (s : State) (o : Op) : State := if o.acquires then s.acquireAt o.core o.order.2 else s

/-! ## The page an address lies in -/

/-- The leaf that translates a .g address, and its level. -/
def State.leafAt (s : State) (core : Nat) (addr : W64) : Option (W64 × Nat) :=
  if fld addr 63 48 != 0 then none
  else
    match s.translate core addr.toNat with
    | .page e l => some (e, l)
    | _ => none

def State.readDup (s : State) (core : Nat) (sp : Space) (addr : W64) : Bool :=
  match sp with
  | .g => (match s.leafAt core addr with | some (e, _) => leafState e == 2 | none => false)
  | _ => false

/-- Level and state of the leaf of an address, for a fault met after translation. -/
def State.leafLS (s : State) (core : Nat) (sp : Space) (addr : W64) : Nat × Nat :=
  match sp with
  | .g => (match s.leafAt core addr with | some (e, l) => (l, leafState e) | none => (0, 0))
  | _ => (0, 0)

/-- A fault met after translation: its record names the leaf's level and state. -/
def faultAt (s : State) (o : Op) (i : Nat) (p : Part) (kind detail : Nat) : Out :=
  let ls := s.leafLS o.core p.sp (p.addr + BitVec.ofNat 64 p.off)
  faultPart s o i p o.acc.code kind detail ls.1 ls.2

/-- An installed region by number (08 R224). -/
def State.region? (s : State) (n : BitVec 12) : Option Region := s.regions.find? fun r => r.n == n

/-! ## Reading one piece -/

def Op.putBuf (o : Op) (at_ : Nat) (l : List Byte) : Op := { o with buf := Store.writeList o.buf at_ l }

def State.lineHit (s : State) (core key : Nat) (r : Req) : Bool :=
  isHbm key && (match s.line? core (blockOf key) with | some ln => lineAnswers r ln | none => false)

/-- Bytes `[key, key + n)` as the lanes of a load have them: those that a part of it has taken already are the same for
every lane (06 R182). -/
def Op.alike (o : Op) (key : Nat) (l : List Byte) : List Byte :=
  (l.zipIdx).map fun q =>
    match o.parts.find? fun x => x.st == .done && x.key ≤ key + q.2 && key + q.2 < x.key + x.len with
    | some x => Store.read o.buf (64 * x.lane + x.off + (key + q.2 - x.key))
    | none => q.1

/-- A part of a load takes its bytes. -/
def takeOne (r : Req) (t : State × Op) (q : Nat × Part × Nat) : State × Op :=
  let rb := t.1.loadBytes t.2 q.2.2 q.2.1.len r
  (rb.2, (t.2.setPart q.1 { q.2.1 with st := .done, key := q.2.2, asked := false }).putBuf
    (64 * q.2.1.lane + q.2.1.off) (t.2.alike q.2.2 rb.1))

/-- The other parts of a command that wait on a block, which a part of it has come to, with their keys and regions: `size` gives the bytes that a part's
checks are made for, `ok` the parts that have a place. -/
def State.companions (s : State) (o : Op) (i blk : Nat) (lead : Part) (size : Part → Nat × Nat) (ok : Part → Bool) :
    List (Nat × Part × Nat × Option (BitVec 12)) :=
  match s.ownerOf o with
  | none => []
  | some w => (o.parts.zipIdx).filterMap fun q =>
    if q.2 != i && q.1.st == .waiting && ok q.1 then
      (match q.1.site (s.placePiece w.1 w.2.1 w.2.2 o.acc q.1 (size q.1).1 (size q.1).2) with
       | .at key rn =>
         if blockOf key == blk && s.passes o.core { q.1 with sent := lead.sent, way := lead.way } key then some (q.2, q.1, key, rn)
         else none
       | _ => none)
    else none

/-- The piece at its place: the scoreboard, the links, poison, the owner's recall, then the bytes; the command's other
pieces in the block are taken with it (06 R182, 07 Table 7.1). -/
def takePiece (s : State) (o : Op) (i : Nat) (p : Part) (key : Nat) (r : Req) (size : Part → Nat × Nat) (ok : Part → Bool) :
    Out :=
  let s := s.acquireFor o
  if s.scoreHold o.gid o.id key p.len false then .refused .eventNotEnabled
  else request s o i p key none <|
    if s.poisoned key then faultAt s o i p 6 1
    else
    let owner := if isHbm key && !s.lineHit o.core key r then s.otherOwner o.core (blockOf key) else none
    let all := (i, p, key) :: (s.companions o i (blockOf key) p size ok).map fun q => (q.1, q.2.1, q.2.2.1)
    let t := all.foldl (takeOne r) (s, o)
    withOwner s o i p owner key false (r == .own) (.next (t.1.setOp t.2))

/-- A part of a read, once the order of the group's accesses lets it take its value: its place, then `f` on the key and
the region of a commutative page. -/
def atPlace (s : State) (o : Op) (i : Nat) (p : Part) (n align : Nat) (f : Nat → Option (BitVec 12) → Out) : Out :=
  needSome (s.ownerOf o) fun w =>
  need (p.st == .waiting && p.held.isNone && s.loadClear o) <|
    match p.site (s.placePiece w.1 w.2.1 w.2.2 o.acc p n align) with
    | .hold page => holdPart s o i p page
    | .bad k d l st => faultPart s o i p o.acc.code k d l st
    | .at key region => need (s.atomsClear o key) (f key region)

/-- Whether an element of a region is read by an access of a size (06 R184, R186-R188). -/
def sizeFits (r : Region) (z : Size) : Bool :=
  match r.fmt with
  | 1 => z == .b16
  | 0 | 2 => z == .b32
  | 3 => z == .b64
  | _ => false

/-- Bytes of an element (07 Table 7.3). -/
def Region.elemBytes (r : Region) : Nat :=
  match r.fmt with
  | 1 => 2
  | 0 | 2 => 4
  | 3 => 8
  | _ => 4 + 4 * r.limbs

/-- The element whose first byte a key is, if any. -/
def Region.elemAt (r : Region) (key : Nat) : Option Nat :=
  let o := key % 64
  if o % r.elemBytes == 0 && o + r.elemBytes ≤ 64 then some (o / r.elemBytes) else none

/-- A read of a commutative page: its size and format are checked here, and the home answers it as a tolerance read
(06 R184, R187, R188). -/
def commutative (s : State) (o : Op) (i : Nat) (p : Part) (n : BitVec 12) (key : Nat) : Out :=
  match s.region? n with
  | none => faultAt s o i p 2 5
  | some r =>
    let ok := match o.instr with
      | .ld _ _ _ x _ | .ldtol _ _ _ _ x | .ldtolDet _ _ _ x => sizeFits r x.size
      | .vld .. | .ldtolV .. | .ldtolDetV .. => r.fmt == 4 && (r.elemAt key).isSome
      | _ => false
    if ok then .refused .eventNotEnabled else faultAt s o i p 4 2

/-- The request type that a piece travels with: its own page decides (06 R172, 08 R232). -/
def Op.reqAt (o : Op) (s : State) (p : Part) (key : Nat) : Req :=
  effLoadReq s key (s.readDup o.core p.sp (p.addr + BitVec.ofNat 64 p.off)) o.reqType

/-- A piece of LD, LDTOL or LDBT's data: `n` bytes in all. -/
def loadPart (s : State) (o : Op) (i : Nat) (p : Part) (n align : Nat) : Out :=
  atPlace s o i p n align fun key region =>
    match region with
    | some r => commutative s o i p r key
    | none => takePiece s o i p key (o.reqAt s p key) (fun _ => (n, align)) fun _ => true

/-- The words of limbs that the headers a VLD has read ask for (05 R159). -/
def Op.limbParts (o : Op) : List Part :=
  (o.parts.filter fun p => p.off == 0 && p.st == .done && !(o.parts.any fun x => x.lane == p.lane && x.off != 0)).flatMap
    fun p =>
      let h : W32 := BitVec.ofNat 32 (leNat (Store.readList o.buf (64 * p.lane) 4))
      if hdrBad h then [] else (List.range (hdrL h)).map fun j => newPart p.lane p.sp p.addr (4 + 4 * j) 4 .waiting

/-- A word of VLD, taken by itself: only a word is single (05 R161); the header's word brings the limbs' words after it (05
R159). -/
def vldPart (s : State) (o : Op) (i : Nat) (p : Part) : Out :=
  atPlace s o i p (p.off + p.len) 4 fun key region =>
    match region with
    | some r => commutative s o i p r key
    | none =>
      andThen (takePiece s o i p key (o.reqAt s p key) (fun q => (q.off + q.len, 4)) fun _ => false) fun t =>
        match t.op? o.id with
        | none => .next t
        | some q => .next (t.setOp { q with parts := q.parts ++ q.limbParts })

/-- The vector's base must be a multiple of 8 (06 R165). -/
def Op.base (o : Op) : W64 :=
  match o.caps.find? fun c => c.kind == 0 && c.index == 0 with
  | some c => c.value
  | none => 0

/-- A vector's element lies past the last address: no offset of a space and no virtual address (06 R162, R164). -/
def pastEnd (base : W64) (lane n : Nat) : Bool := 2 ^ 64 ≤ base.toNat + lane * n

/-- An element of LDV (06 R185); those in its 64-byte block are taken with it (07 Table 7.1). -/
def ldvPart (s : State) (o : Op) (i : Nat) (p : Part) : Out :=
  if o.base.toNat % 8 != 0 then
    need (p.st == .waiting && s.loadClear o) (faultPart s o i p o.acc.code 8 (spaceNum p.sp) 0 0)
  else if pastEnd o.base p.lane p.len then
    need (p.st == .waiting && s.loadClear o) (faultPart s o i p o.acc.code 7 (spaceNum p.sp) 0 0)
  else
    atPlace s o i p p.len p.len fun key _ =>
      takePiece s o i p key (o.reqAt s p key) (fun q => (q.len, q.len)) fun q => !pastEnd o.base q.lane q.len

/-- LDBT at the home: a tag with a poison mark faults with detail 2 (06 R193, 08 R250), a lost block with detail 1 (15
R408). -/
def ldbtPart (s : State) (o : Op) (i : Nat) (p : Part) : Out :=
  atPlace s o i p 64 64 fun key _ =>
    let s := s.acquireFor o
    request s o i p key none <|
    if s.lost key then faultAt s o i p 6 1
    else if s.tagPoison.contains (blockOf key) then faultAt s o i p 6 2
    else
      let ov := s.overlays o.core o.gid o.id (tagKey key) 2
      let l := o.alike (tagKey key) (applyOverlays (s.bytes (tagKey key) 2) ov)
      .next (s.setOp ((o.setPart i { p with st := .done, key := tagKey key }).putBuf (64 * p.lane) l))

/-- MAPQ's value (06 Table 6.8, 08 R251). -/
def mapqValue (dev : Nat) (w : Walk) : W64 :=
  match w with
  | .page e l =>
    let st := leafState e
    let v : W64 := 0
    let v := setFld v 2 0 st
    let v := setFld v 4 3 l
    let v := setFld v 6 6 (if leafW e && st != 2 then 1 else 0)
    let v := setFld v 7 7 (if leafLocal e then 1 else 0)
    let v := setFld v 8 8 (if st == 2 && leafLocal e then leafOdie e else leafDie e)
    let v := setFld v 21 16 (leafDevice e)
    setFld v 63 32 (if st == 3 then (leafRegion e).toNat else 0)
  | _ => 0

/-- MAPQ waits on a quiesced page (08 R240). -/
def mapqPart (s : State) (o : Op) (i : Nat) (p : Part) : Out :=
  need (p.st == .waiting && p.held.isNone && s.loadClear o) <|
    let w : Walk := if fld p.addr 63 48 != 0 then .notPresent 3 else s.translate o.core p.addr.toNat
    match w with
    | .quiesced .. => holdPart s o i p (p.addr.extractLsb' 16 32)
    | w => .next (s.setOp ((o.setPart i { p with st := .done }).putBuf (64 * p.lane) (leBytes 8 (mapqValue s.device w).toNat)))

/-! ## Issue -/

/-- Parts of an access of `n` bytes per executing lane. -/
def laneParts (ex : W32) (sp : Space) (n : Nat) (st : PartSt) (addr : Nat → W64) : List Part :=
  (laneList ex).flatMap fun l =>
    (pieces (addr l).toNat n).map fun q => newPart l sp (addr l) q.1 q.2 st

/-- One part per executing lane. -/
def singleParts (ex : W32) (sp : Space) (n : Nat) (st : PartSt) (addr : Nat → W64) : List Part :=
  (laneList ex).map fun l => newPart l sp (addr l) 0 n st

/-- A flag-bound load of one part per lane. -/
def issueLoad (s : State) (i : Instr) (k : BitVec 3) (a : Src) (sp : Space) (n : Nat) (extra : Env → W32 → List Cap)
    (push : Bool) : Out :=
  withEnv s fun e =>
    let ex := e.lanes k
    acceptFlag s e (newOp s e i ex (capLanes ex 0 (e.src64 a) ++ extra e ex) (singleParts ex sp n .waiting (e.src64 a))) push

/-- LD (06 R184). -/
def execLd (k : BitVec 3) (d : Dst) (a : Src) (x : MemX) (sx : Bool) (s : State) : Out :=
  withEnv s fun e =>
    let ex := e.lanes k
    let parts := if x.size.bytes ≤ 8 then singleParts ex x.space x.size.bytes .waiting (e.src64 a)
      else laneParts ex x.space x.size.bytes .waiting (e.src64 a)
    acceptFlag s e (newOp s e (.ld k d a x sx) ex (capLanes ex 0 (e.src64 a)) parts) true

/-- LDV (06 R185). -/
def execLdv (k : BitVec 3) (d : Dst) (a : Src) (x : MemX) (s : State) : Out :=
  withEnv s fun e =>
    let ex := e.lanes k
    let low := (lowestLane ex).getD 0
    let base := e.src64 a low
    let caps := if ex = 0 then [] else [⟨0, 0, low, base⟩]
    acceptFlag s e (newOp s e (.ldv k d a x) ex caps
      (singleParts ex x.space x.size.bytes .waiting fun l => base + BitVec.ofNat 64 (l * x.size.bytes))) true

/-- VLD (05 R159): PREC is captured; it never pushes (05 R145). -/
def execVld (k : BitVec 3) (d : BitVec 5) (a : Src) (x : MemX) (s : State) : Out :=
  issueLoad s (.vld k d a x) k a x.space 4 (fun e ex => capLanes ex 3 fun l => (e.precOf l).setWidth 64) false

/-- LDTOL (06 R187). -/
def execLdtol (k : BitVec 3) (d : Dst) (a b : Src) (x : MemX) (s : State) : Out :=
  issueLoad s (.ldtol k d a b x) k a x.space x.size.bytes (fun e ex => capLanes ex 1 (e.src64 b)) true

/-- LDTOL.det (06 R187). -/
def execLdtolDet (k : BitVec 3) (d : Dst) (a : Src) (x : MemX) (s : State) : Out :=
  issueLoad s (.ldtolDet k d a x) k a x.space x.size.bytes (fun _ _ => []) true

/-- LDTOL.v (06 R188). -/
def execLdtolV (k : BitVec 3) (d : BitVec 5) (a b : Src) (x : MemX) (s : State) : Out :=
  issueLoad s (.ldtolV k d a b x) k a x.space 4
    (fun e ex => capLanes ex 1 (e.src64 b) ++ capLanes ex 3 fun l => (e.precOf l).setWidth 64) false

/-- LDTOL.det.v (06 R188). -/
def execLdtolDetV (k : BitVec 3) (d : BitVec 5) (a : Src) (x : MemX) (s : State) : Out :=
  issueLoad s (.ldtolDetV k d a x) k a x.space 4 (fun e ex => capLanes ex 3 fun l => (e.precOf l).setWidth 64) false

/-- LDBT (06 R193). -/
def execLdbt (k : BitVec 3) (d : Dst) (a : Src) (x : MemX) (s : State) : Out :=
  issueLoad s (.ldbt k d a x) k a x.space 2 (fun _ _ => []) true

/-- MAPQ (06 R194). -/
def execMapq (k : BitVec 3) (d : Dst) (a : Src) (s : State) : Out :=
  issueLoad s (.mapq k d a) k a .g 8 (fun _ _ => []) true

/-! ## Results -/

/-- Bytes that a lane has read, as a number. -/
def Op.laneNat (o : Op) (l n : Nat) : Nat := leNat (Store.readList o.buf (64 * l) n)

def Op.laneWord (o : Op) (l w : Nat) : W32 := BitVec.ofNat 32 (leNat (Store.readList o.buf (64 * l + 4 * w) 4))

/-- A loaded value of `n` bytes, at most 8 (06 R179). -/
def loadValue (n : Nat) (sx : Bool) (v : Nat) : W64 :=
  if sx then (if n == 1 then ((BitVec.ofNat 8 v).signExtend 32).setWidth 64 else ((BitVec.ofNat 16 v).signExtend 32).setWidth 64)
  else BitVec.ofNat 64 v

/-- The result of a load (06 R179): a value, or the words of a window with the low 64 bits pushed. -/
def Op.loadResult (o : Op) (d : Dst) (n : Nat) (sx : Bool) (g : Group) : Group :=
  if n ≤ 8 then g.late o d (n == 8) fun l => loadValue n sx (o.laneNat l n)
  else
    let g := g.late o .queue true fun l => BitVec.ofNat 64 (o.laneNat l 8)
    match d with
    | .w w => (List.range (n / 4)).foldl (fun g j => g.setWin o.ex w j fun l => o.laneWord l j) g
    | _ => g

/-- What VLD delivers of a lane's element, none where it faults (05 R159). -/
def Op.vldLane (o : Op) (cap l : Nat) : Option (List W32 × W32) :=
  vldDeliver ((o.cap 3 l).setWidth 32) cap (o.laneWord l 0) ((List.range 8).map fun j => o.laneWord l (j + 1))

/-- The precision-exhausted fault of a VLD, in the lanes that meet it (05 R159, Table 5.7). -/
def Op.vldFault (o : Op) (cap : Nat) : Option FaultRec :=
  let bad := o.ex &&& laneMask fun l => (o.vldLane cap l).isNone
  if bad = 0 then none
  else some
    { cause := 4
      detail := 0
      fields := [.num 8 4, .num 48 o.clause.toNat, .num 5 o.word.toNat, .num 5 o.run.toNat, .num 32 bad.toNat,
        .arr 32 ((List.range 32).map fun l =>
          if bad.getLsbD l then vlfEntry ((o.cap 3 l).setWidth 32) cap 0 xWF else 0)]
      lanes := bad
      service := none }

/-- The conditions that a delivery sets in FPST: of LDTOL.v and LDTOL.det.v, WF alone (06 R188). -/
def Op.vldRaises (o : Op) : W32 :=
  match o.instr with
  | .vld .. => BitVec.allOnes 32
  | _ => xWF

/-- The lanes of a faulted VLD are to be read again from their addresses (01 R22, 05 R159 step 4). -/
def Op.vldAgain (o : Op) (f : FaultRec) : Op :=
  { o with
    fault := some f
    parts := o.parts.map fun p => if f.lanes.getLsbD p.lane then { p with st := .faulted } else p }

/-- Completion of a VLD: windows and sticky flags, or the fault. -/
def vldComplete (s : State) (o : Op) (d : BitVec 5) : Out :=
  needSome (s.ownerOf o) fun w =>
    let cap := w.2.2.ko.caps.getD d.toNat 0 - 1
    match o.vldFault cap with
    | some f => .next (s.setOp (o.vldAgain f))
    | none =>
      let r : Nat → List W32 × W32 := fun l => (o.vldLane cap l).getD ([], 0)
      .next (s.finishWith o fun g =>
        (g.setVlf o.ex d fun l => (r l).1).raiseAll o.ex fun l => (r l).2 &&& o.vldRaises)

end Sys2Proof.Machine
end

