-- ==== Sys2Proof/Machine/Hamper.lean ====
section
/-!
DEFINITION. Commutative ranges (07 R211-R222): hamper arithmetic, absorbing, shares, drains, recalls and tolerance
reads.
-/

namespace Sys2Proof.Machine

/-! ## Hamper arithmetic (07 R213) -/

/-- 32-bit words of an element's partial: FP32 for F32 and BF16, the number for I32 and I64, header and limbs for VLF. -/
def Region.partWords (r : Region) : Nat :=
  match r.fmt with
  | 3 => 2
  | 4 => 1 + r.limbs
  | _ => 1

def Region.isFloat (r : Region) : Bool := r.fmt == 0 || r.fmt == 1 || r.fmt == 4

def wordsNat (ws : List W32) : Nat := ws.foldr (fun w n => w.toNat + 2 ^ 32 * n) 0
def natWords (n v : Nat) : List W32 := (List.range n).map fun j => BitVec.ofNat 32 (v / 2 ^ (32 * j))

def fpOf32 (w : W32) : Fp := fmt32.unpack w.toNat
def f32Of (x : Fp × W32) (m : RMode) : W32 := BitVec.ofNat 32 (deliver fmt32 m false x).1

/-- A VLF partial or contribution as a value: the all-zero header of a fresh partial is +0. -/
def vlfPart (ws : List W32) : Fp :=
  match ws with
  | [] => .fin false 0 0
  | h :: ls => if h = 0 then .fin false 0 0 else vlfValue 8 h ls

/-- A sum in hamper arithmetic. -/
def Region.sum (r : Region) (a b : List W32) : List W32 :=
  match r.fmt with
  | 2 => natWords 1 (wordsNat a + wordsNat b)
  | 3 => natWords 2 (wordsNat a + wordsNat b)
  | 4 => (vlfRound (Fp.add .rne (vlfPart a) (vlfPart b)).1 (32 * r.limbs) .rne).words
  | _ => [f32Of (Fp.add .rne (fpOf32 (a.getD 0 0)) (fpOf32 (b.getD 0 0))) .rne]

/-- Words of a memory element's bytes. -/
def bytesWords (n : Nat) (l : List Byte) : List W32 := natWords n (leNat l)

/-- An element or contribution in memory form, as hamper arithmetic takes it. -/
def Region.widen (r : Region) (l : List Byte) : List W32 :=
  match r.fmt with
  | 1 => [BitVec.ofNat 32 (leNat (l.take 2) * 65536)]
  | 3 => bytesWords 2 (l.take 8)
  | 4 => bytesWords 9 (l.take 36)
  | _ => bytesWords 1 (l.take 4)

/-- The home's sum of an element and a partial, rounded to the element format (07 R216). -/
def Region.combine (r : Region) (old : List Byte) (part : List W32) : List Byte :=
  match r.fmt with
  | 1 =>
    let x := r.sum (r.widen old) part
    leBytes 2 (deliver fmtBf .rne false (fpOf32 (x.getD 0 0), 0)).1
  | 4 =>
    -- the element in memory has its header as it stands: an all-zero one is malformed
    let v := vlfValue r.limbs (BitVec.ofNat 32 (leNat (old.take 4))) ((bytesWords 9 (old.take 36)).drop 1)
    let x := (vlfRound (Fp.add .rne v (vlfPart part)).1 (32 * r.limbs) .rne).words
    leBytes (4 + 4 * r.limbs) (wordsNat x)
  | 3 => leBytes 8 (wordsNat (r.sum (r.widen old) part))
  | _ => leBytes 4 (wordsNat (r.sum (r.widen old) part))

/-! ## Trackers and shares, in FP32 for the floating formats and N64 for the integer ones -/

/-- A nonnegative finite FP32 in units of 2^-149, or none. -/
def f32Units (w : W32) : Option Nat :=
  match fpOf32 w with
  | .fin _ m e => some (m * 2 ^ (e + 149).toNat)
  | _ => none

/-- Units as an FP32, rounded down. -/
def unitsF32 (n : Nat) : W32 := BitVec.ofNat 32 (fround fmt32 .rtz false false n (-149)).1

/-- A share or limit as a number of units; an integer format's unit is 1. -/
def Region.units (r : Region) (v : W64) : Nat :=
  if r.isFloat then (f32Units (v.setWidth 32)).getD 0 else v.toNat

def Region.ofUnits (r : Region) (n : Nat) : W64 :=
  if r.isFloat then (unitsF32 n).setWidth 64 else BitVec.ofNat 64 n

/-- |c| in tracker form, rounded up (07 R213, 06 R188). -/
def Region.mag (r : Region) (c : List W32) : W64 :=
  match r.fmt with
  | 2 => BitVec.ofInt 64 ((c.getD 0 0).toInt.natAbs : Int)
  | 3 => BitVec.ofNat 64 ((BitVec.ofNat 64 (wordsNat c)).toInt.natAbs)
  | 4 =>
    match vlfPart c with
    | .fin _ m e => (f32Of (.fin false m e, 0) .rup).setWidth 64
    | .inf _ => (BitVec.ofNat 32 (fmt32.infBits false)).setWidth 64
    | .nan _ => (BitVec.ofNat 32 fmt32.qnan).setWidth 64
  | _ => ((c.getD 0 0) &&& 0x7FFFFFFF).setWidth 64

def Region.trackSum (r : Region) (a b : W64) : W64 :=
  if r.isFloat then (f32Of (Fp.add .rup (fpOf32 (a.setWidth 32)) (fpOf32 (b.setWidth 32))) .rup).setWidth 64
  else BitVec.ofNat 64 (Nat.min (a.toNat + b.toNat) (2 ^ 64 - 1))

/-- A tracker within a share: false for a NaN. -/
def Region.within (r : Region) (t beta : W64) : Bool :=
  if r.isFloat then (Fp.pred .le (fpOf32 (t.setWidth 32)) (fpOf32 (beta.setWidth 32))).1 else t.toNat ≤ beta.toNat

/-! ## Lookups -/

def State.hamper? (s : State) (core blk : Nat) : Option Hamper := s.hampers.find? fun h => h.core == core && h.blk == blk
def State.dropHamper (s : State) (core blk : Nat) : State :=
  { s with hampers := s.hampers.filter fun (h : Hamper) => !(h.core == core && h.blk == blk) }
def State.setHamper (s : State) (h : Hamper) : State :=
  { s with hampers := s.hampers.map fun (x : Hamper) => if x.core == h.core && x.blk == h.blk then h else x }
def State.home? (s : State) (blk : Nat) : Option HomeBlk := s.homes.find? fun h => h.blk == blk
/-- A block without holders has nothing to keep (07 R215). -/
def State.setHome (s : State) (h : HomeBlk) : State :=
  { s with homes := s.homes.filter (fun (x : HomeBlk) => x.blk != h.blk)
      ++ (if h.holders.isEmpty && h.replies.isEmpty then [] else [h]) }

/-- Holder index (07 R212): the holders of a block are cores of its own device, so their core ids give the order. -/
def holderBefore (a b : Holder) : Bool := a.core < b.core

def Hamper.words (h : Hamper) (e : Nat) : List W32 :=
  (List.range h.region.partWords).map fun j => Store.read h.part (e * h.region.partWords + j)

def partWordsAt (r : Region) (p : Store 32) (e : Nat) : List W32 :=
  (List.range r.partWords).map fun j => Store.read p (e * r.partWords + j)

def putPart (r : Region) (p : Store 32) (e : Nat) (ws : List W32) : Store 32 :=
  Store.writeList p (e * r.partWords) ((List.range r.partWords).map fun j => ws.getD j 0)

def Region.elems (r : Region) : Nat := 64 / r.elemBytes

/-! ## The home's combine (07 R216) -/

/-- One contribution to an element at a key. -/
def State.combineAt (s : State) (r : Region) (key : Nat) (ws : List W32) : State :=
  s.putBytes key (r.combine (s.bytes key r.elemBytes) ws)

/-- A drain's sums combined, of the elements that a contribution has reached (log 24). -/
def State.combineAll (s : State) (r : Region) (blk : Nat) (x : Sums) : State :=
  (List.range r.elems).foldl (fun (s : State) e =>
    if x.seen.getLsbD e then s.combineAt r (blk + e * r.elemBytes) (partWordsAt r x.part e) else s) s

/-! ## Draining a line -/

def Hamper.sums (h : Hamper) : Sums := ⟨h.seen, h.part⟩

/-- A line leaves its L1 (07 R216): its partials go home and its share with them. -/
def State.leaveHamper (s : State) (h : Hamper) (op : Option Nat) : State :=
  (s.dropHamper h.core h.blk).send (.drain h.core h.blk h.region h.line h.sums true false op none)

/-- Path 4 of 07 R214, with or without a contribution: the sums go home, the trackers restart, the share is kept. -/
def State.pathFour (s : State) (h : Hamper) (contrib : Option Nat) : State :=
  (s.setHamper { h with part := [], seen := 0, track := [], draining := true }).send
    (.drain h.core h.blk h.region h.line h.sums false false none contrib)

/-! ## Absorbing a contribution (07 R214) -/

/-- A share request, its split, the split's acknowledgement or its grant is on its way for a core and block. -/
def State.shareAsked (s : State) (core blk : Nat) : Bool :=
  s.msgs.any fun m =>
    match m.body with
    | .shareReq c b _ => c == core && b == blk
    | .split _ b _ _ n _ _ | .splitAck _ b _ _ n _ _ => n == core && b == blk
    | .grant c b _ _ _ => c == core && b == blk
    | _ => false

/-- Parts of a store leave their queue for their home, under a place in the core store order and, over a link, a number:
the one they had, where they go to the same home again (07 R198, 15 R415). -/
def State.depart (s : State) (o : Op) (js : List Nat) (key order : Nat) : State :=
  let away (x : Option Sent) : Op :=
    { o with parts := (o.parts.zipIdx).map fun q => if js.contains q.2 then { q.1 with st := .departed order, sent := x } else q.1 }
  let d := destOf s key
  if !s.remote o.core key then s.setOp (away none)
  else
    match (js.head?.bind fun j => o.parts[j]?).bind fun (p : Part) => p.sent with
    | some x =>
      if x.home == d then let n := s.again x; n.2.setOp (away (some n.1))
      else let n := s.number o.requester d; n.2.setOp (away (some n.1))
    | none => let n := s.number o.requester d; n.2.setOp (away (some n.1))

/-- HAMPER_ABSORB: one part of STADD leaves its store queue.  A contribution that meets a draining line waits at the head
of its group's store queue, and the group's later stores behind it (log 117). -/
def absorb (s : State) (o : Op) (i : Nat) (p : Part) (r : Region) : Out :=
  let blk := blockOf p.key
  let order := s.nextId
  let s1 := { s with nextId := s.nextId + 1 }
  let goHome : State := s1.depart o [i] p.key order
  if dpaDevice p.key != s.device then .next goHome
  else
    match s.hamper? o.core blk with
    | none =>
      if s.shareAsked o.core blk then .next goHome else .next (goHome.send (.shareReq o.core blk r))
    | some h =>
      if h.draining then .refused .eventNotEnabled
      else
        let e := (r.elemAt p.key).getD 0
        let c := r.widen (Store.readList o.buf (64 * p.lane) (if r.fmt == 4 then 36 else r.elemBytes))
        let t := r.trackSum (Store.read h.track e) (r.mag c)
        let h := { h with part := putPart r h.part e (r.sum (h.words e) c), seen := h.seen ||| 1#32 <<< e }
        if r.within t h.share then
          .next ((s1.setHamper { h with track := Store.write h.track e t }).setOp (o.setPart i { p with st := .done }))
        else .next ((s1.pathFour h (some order)).setOp (o.setPart i { p with st := .departed order, asked := true }))

/-! ## Shares at the home (07 R215) -/

/-- A holder's share with the splits and acknowledgements on their way. -/
def State.pendingShare (s : State) (blk : Nat) (h : Holder) : W64 :=
  s.msgs.foldl (fun b m =>
    match m.body with
    | .split _ x _ l _ keep _ | .splitAck _ x _ l _ keep _ => if l == h.line && x == blk && keep.toNat < b.toNat then keep else b
    | _ => b) h.share

/-- The holder with the largest share among some, the lowest index on ties. -/
def largest (f : Holder → Nat) (hs : List Holder) : Option Holder :=
  hs.foldl (fun m h =>
    match m with
    | none => some h
    | some x => if f x < f h || (f x == f h && holderBefore h x) then some h else some x) none

/-- The two parts of a split: what the holder keeps and what the newcomer receives. -/
def Region.halves (r : Region) (b : W64) : W64 × W64 :=
  if r.isFloat then
    let u := r.units b
    let give := r.ofUnits (u / 2)
    (r.ofUnits (u - r.units give), give)
  else (b - b / 2, b / 2)

/-- A share that a split may still leave (07 R215). -/
def Region.splittable (r : Region) (b : W64) : Bool :=
  let give := r.units (r.halves b).2
  r.units r.limit ≤ give * 65536 && 1 ≤ give

/-- A share granted to a core: it becomes a holder of the block, under the grant's name. -/
def State.grantShare (s : State) (hb : HomeBlk) (core : Nat) (share : W64) : State :=
  let n := s.fresh
  (n.2.setHome { hb with holders := hb.holders ++ [⟨core, n.1, share, false⟩] }).send (.grant core hb.blk hb.region share n.1)

/-- A request answered with share 0. -/
def State.grantNone (s : State) (core blk : Nat) (r : Region) : State := s.send (.grant core blk r 0 0)

/-- A drain of a core for a block, sent before a message, is still to be combined (07 R205). -/
def State.drainAhead (s : State) (id core blk : Nat) : Bool :=
  s.msgs.any fun x => x.id < id && (match x.body with | .drain c b .. => c == core && b == blk | _ => false)

/-- SHARE_REQUEST (07 R215): the free share, a split, or share 0.  The newcomers of splits in progress count toward the 64
holders, and the least share of a split is tested on the newcomer's half, which is no larger than the holder's (log 118). -/
def execShareRequest (msg : Nat) (s : State) : Out :=
  needSome (s.msg? msg) fun m =>
  match m.body with
  | .shareReq core blk r =>
    need (!m.lost && !s.drainAhead msg core blk) <|
    let s := s.dropMsg msg
    let hb := (s.home? blk).getD ⟨blk, r, [], []⟩
    let r := hb.region
    let used := hb.holders.foldl (fun n h => n + r.units h.share) 0
    let free := r.units r.limit - used
    let cands := hb.holders.filter fun h => !h.recalled
    let splitting := s.msgs.countP fun x => match x.body with | .split _ b .. | .splitAck _ b .. => b == blk | _ => false
    if 64 ≤ hb.holders.length + splitting then .next (s.grantNone core blk r)
    else if r.units (r.ofUnits free) != 0 then .next (s.grantShare hb core (r.ofUnits free))
    else
      match largest (fun h => r.units (s.pendingShare blk h)) cands with
      | none => .next (s.grantNone core blk r)
      | some h =>
        let b := s.pendingShare blk h
        if r.splittable b then
          .next (s.send (.split h.core blk r h.line core (r.halves b).1 (r.halves b).2))
        else .next (s.grantNone core blk r)
  | _ => .refused .eventNotEnabled

/-- No earlier message to the same core about a block is on its way (07 R205). -/
def State.firstFor (s : State) (id core blk : Nat) : Bool :=
  s.msgs.all fun m => id ≤ m.id ||
    (match m.body with
     | .split c b .. => !(c == core && b == blk)
     | .recallHamper c b _ => !(c == core && b == blk)
     | .grant c b _ _ _ => !(c == core && b == blk)
     | _ => true)

/-- No earlier acknowledgement of the holder is on its way: they come home in order (07 R205). -/
def State.firstAck (s : State) (id line blk : Nat) : Bool :=
  s.msgs.all fun m => id ≤ m.id || (match m.body with | .splitAck _ b _ l .. => !(l == line && b == blk) | _ => true)

/-- A split's acknowledgement at the home (07 R215): the holder's share falls and the newcomer has the rest; where the
holder has given up its whole share meanwhile, the newcomer's request is served anew. -/
def splitAcked (s : State) (blk : Nat) (r : Region) (line newcomer : Nat) (keep give : W64) : State :=
  let hb := (s.home? blk).getD ⟨blk, r, [], []⟩
  if hb.holders.any fun h => h.line == line then
    s.grantShare { hb with holders := hb.holders.map fun (h : Holder) => if h.line == line then { h with share := keep } else h }
      newcomer give
  else s.send (.shareReq newcomer blk r)

/-- SPLIT_REQUEST (07 R215): the holder takes its new share, draining first when a tracker exceeds it, and acknowledges;
the acknowledgement comes home behind the drain. -/
def execSplitRequest (msg : Nat) (s : State) : Out :=
  needSome (s.msg? msg) fun m =>
  match m.body with
  | .split core blk r line newcomer keep give =>
    need (!m.lost && s.firstFor msg core blk) <|
      let s := s.dropMsg msg
      let s := match s.hamper? core blk with
        | none => s
        | some h =>
          if h.line != line then s
          else
            let h := { h with share := keep }
            if h.track.any (fun q => !h.region.within q.2 keep) && !h.draining then s.pathFour h none else s.setHamper h
      .next (s.send (.splitAck core blk r line newcomer keep give))
  | .splitAck core blk r line newcomer keep give =>
    need (!m.lost && !s.drainAhead msg core blk && s.firstAck msg line blk) (.next (splitAcked (s.dropMsg msg) blk r line newcomer keep give))
  | _ => .refused .eventNotEnabled

/-- SHARE_GRANT (07 R214, R215): share 0 takes no line.  A line takes two places of the L1; one that holds 512 hamper lines
gives up its first (07 R213, log 116). -/
def execShareGrant (msg : Nat) (s : State) : Out :=
  needSome (s.msg? msg) fun m =>
  match m.body with
  | .grant core blk r share line =>
    need (!m.lost && s.firstFor msg core blk) <|
      let s := s.dropMsg msg
      if share = 0 then .next s
      else
        let mine := s.hampers.filter fun h => h.core == core
        let s := if mine.length < 512 then s
          else match mine.head? with | some h => s.leaveHamper h none | none => s
        let s := s.makeRoom core 2
        .next { s with hampers := s.hampers ++ [⟨core, blk, line, r, share, [], 0, [], false⟩] }
  | _ => .refused .eventNotEnabled

/-! ## Recalls, drains and acknowledgements -/

/-- A recall at the hamper's L1 (07 R217): the line leaves with its share; a split in progress for the holder gives
way, and its newcomer receives share 0.  A line that has left already has its drain on its way, which answers. -/
def recallHamperAt (s : State) (msg core blk line : Nat) : Out :=
  need (s.msgs.all fun m => msg ≤ m.id || (match m.body with | .grant c b _ _ _ => !(c == core && b == blk) | _ => true)) <|
    let s := s.dropMsg msg
    let s := s.msgs.foldl (fun (s : State) m =>
      match m.body with
      | .split _ b r l n _ _ => if b == blk && l == line then (s.dropMsg m.id).grantNone n blk r else s
      | _ => s) s
    match s.hamper? core blk with
    | some h => .next (if h.line == line then s.leaveHamper h none else s)
    | none => .next s

/-- A part of a command reads the block with .det (07 R217). -/
def Op.isDet (o : Op) : Bool :=
  match o.instr with
  | .ldtolDet .. | .ldtolDetV .. | .copy .. | .copy2d .. | .copy3d .. | .copym .. | .emitn .. => true
  | _ => false

/-- A .det read of the block is gathering its replies. -/
def State.detReading (s : State) (blk : Nat) : Bool :=
  s.ops.any fun o => o.isDet && o.parts.any fun p => p.asked && p.commut.isSome && blockOf p.key == blk && p.st == .waiting

/-- Gathered replies combined in ascending holder index, and their shares returned (07 R216). -/
def State.combineReplies (s : State) (hb : HomeBlk) : State :=
  let answered := hb.holders.filter fun h => hb.replies.any fun q => q.line == h.line
  let s := (sortBy holderBefore answered).foldl (fun (s : State) h =>
    match hb.replies.find? fun q => q.line == h.line with
    | some q => s.combineAll hb.region hb.blk q.sums
    | none => s) s
  s.setHome { hb with holders := hb.holders.filter (fun h => !answered.contains h), replies := [] }

/-- An add on path 1 that the core sent home before a message is still to be combined (07 R205). -/
def State.addAhead (s : State) (id core blk : Nat) : Bool :=
  s.ops.any fun q => q.core == core && q.isAdd && q.parts.any fun x =>
    match x.st with
    | .departed k => k < id && blockOf x.key == blk && !x.asked
    | _ => false

/-- A drain over a link is sent, once its requester's window is open, and arrives, before it is combined (07 R207). -/
def drainTravel (s : State) (m : Msg) (core blk : Nat) (f : Out) : Out :=
  let put (n : Sent × State) : Out :=
    .next { n.2 with msgs := n.2.msgs.map fun (y : Msg) => if y.id == m.id then { y with sent := some n.1 } else y }
  if !s.remote core blk then f
  else
    match m.sent with
    | none => need (s.windowOpen (4 * core) (destOf s blk)) (put (s.number (4 * core) (destOf s blk)))
    | some x => if x.arrived then f else need (s.arrives x) (put ({ x with arrived := true }, s))

/-- DRAIN_COMBINE (07 R215, R216): what one holder sends is combined in the order it sent it.  A recalled holder's last
drain is its reply; replies are gathered and combined in ascending holder index where the order or a .det read asks for
it, and those gathered for a read that has gone since, with the last of them. -/
def execDrainCombine (msg : Nat) (s : State) : Out :=
  needSome (s.msg? msg) fun m =>
  match m.body with
  | .drain core blk r line x leave poisoned op contrib =>
    need (!m.lost) <| drainTravel s m core blk <|
    need (!s.drainAhead msg core blk && !s.addAhead msg core blk) <|
      let s := (s.dropMsg msg).noted (4 * core) m.sent
      let s := if poisoned then s.mark blk else s
      let hb := (s.home? blk).getD ⟨blk, r, [], []⟩
      let recalled := hb.holders.any fun h => h.line == line && h.recalled
      if !leave then .next ((s.combineAll hb.region blk x).send (.drainAck core blk line contrib))
      else if recalled && (hb.region.order == 1 || s.detReading blk || !hb.replies.isEmpty) then
        let hb := { hb with replies := hb.replies ++ [⟨line, x, op⟩] }
        let allIn := hb.holders.all fun h => !h.recalled || hb.replies.any fun q => q.line == h.line
        if allIn then .next (s.combineReplies hb) else .next (s.setHome hb)
      else
        .next ((s.combineAll hb.region blk x).setHome { hb with holders := hb.holders.filter fun h => h.line != line })
  | _ => .refused .eventNotEnabled

/-- The contribution of a core that left its queue with a place has performed (07 R214). -/
def State.performed (s : State) (core n : Nat) : State :=
  let ops := s.ops.map fun (o : Op) =>
    if o.core == core && o.isAdd then
      { o with parts := o.parts.map fun p => if p.asked && p.st == .departed n then { p with st := .done } else p }
    else o
  { s with ops := ops.filter fun (o : Op) => !(o.core == core && o.isAdd && o.allDone) }

/-- The add whose contribution a drain carried has a link fault to be delivered (07 R207). -/
def State.contribFault (s : State) (core : Nat) (contrib : Option Nat) : Bool :=
  match contrib with
  | none => false
  | some n => s.ops.any fun o => o.core == core && o.isAdd && o.fault.isSome
      && o.parts.any fun p => p.asked && p.st == .departed n

/-- DRAIN_ACK (07 R214): the line takes contributions again, and the contribution that the drain carried has
performed. -/
def execDrainAck (msg : Nat) (s : State) : Out :=
  needSome (s.msg? msg) fun m =>
  match m.body with
  | .drainAck core blk line contrib =>
    need (!m.lost && !s.contribFault core contrib) <|
    let s := s.dropMsg msg
    let s := match s.hamper? core blk with
      | some h => if h.line == line then s.setHamper { h with draining := false } else s
      | none => s
    .next (match contrib with | some n => s.performed core n | none => s)
  | _ => .refused .eventNotEnabled

/-! ## Reads (07 R217, R218) -/

/-- The tolerance of a read in units, none for an unbounded one (06 Table 6.7). -/
def tolerance (r : Region) (v : W64) : Option Nat :=
  if r.isFloat then
    match fpOf32 (v.setWidth 32) with
    | .inf n => if n then some 0 else none
    | .nan _ => some 0
    | .fin n _ _ => if n then some 0 else f32Units (v.setWidth 32)
  else if r.fmt == 2 then some (v.setWidth 32).toNat
  else some v.toNat

/-- The holders to recall, in the order of 07 R217. -/
def recallChoice (r : Region) (tau : Nat) : Nat → List Holder → List Nat
  | 0, _ => []
  | n + 1, out =>
    if out.foldl (fun x h => x + r.units h.share) 0 ≤ tau then []
    else
      match largest (fun h => r.units h.share) out with
      | none => []
      | some h => h.line :: recallChoice r tau n (out.filter fun x => x.line != h.line)

/-- Recalls sent to some holders of a block, named by their lines. -/
def State.recallHolders (s : State) (hb : HomeBlk) (lines : List Nat) : State :=
  let told : List Holder := hb.holders.map fun h => if lines.contains h.line then { h with recalled := true } else h
  let s := s.setHome { hb with holders := told }
  lines.foldl (fun (s : State) n =>
    match hb.holders.find? fun h => h.line == n with
    | some h => s.send (.recallHamper h.core hb.blk n)
    | none => s) s

/-- Every recall of the block has been answered and combined, with every drain its holder had sent: a drain does not pass
an earlier one. -/
def State.recallsIn (s : State) (blk : Nat) : Bool :=
  (match s.home? blk with | some hb => hb.holders.all fun h => !h.recalled | none => true)

/-- The home's part in a read of a block: recalls first, then, once they are in, the answer. -/
def tolRead (s : State) (o : Op) (i : Nat) (p : Part) (key : Nat) (r : Region) (tau : Option Nat)
    (answer : State → Out) : Out :=
  let blk := blockOf key
  match tau with
  | none => answer s
  | some t =>
    if p.asked then (if s.recallsIn blk then answer s else .refused .eventNotEnabled)
    else
      match s.home? blk with
      | none => answer s
      | some hb =>
        let cores := recallChoice hb.region t hb.holders.length (hb.holders.filter fun h => !h.recalled)
        if cores.isEmpty && s.recallsIn blk then answer s
        else
          -- a load counts its recalls, for the monitors (15 Table 15.10)
          let o := if o.isLoad then { o with cursor := o.cursor + cores.length } else o
          .next ((s.recallHolders hb cores).setOp (o.setPart i { p with
            asked := true, key := key, commut := some r, way := some (p.way.getD ⟨s.nextId, key, some r.n⟩) }))

/-- Earlier adds of the group to the block have performed (07 R218). -/
def State.addsClear (s : State) (o : Op) (blk : Nat) : Bool :=
  (s.earlier o).all fun q => !q.isAdd || q.parts.all fun x => x.st == .done || blockOf x.key != blk

/-- The tolerance that a read asks for, by its instruction (06 R184, R187, R188). -/
def Op.tolerance (o : Op) (r : Region) (lane : Nat) : Option Nat :=
  match o.instr with
  | .ldtol .. | .ldtolV .. => Sys2Proof.Machine.tolerance r (o.cap 1 lane)
  | _ => some 0

/-- The least of some tolerances: lanes of one instruction that read one element have one answer (06 R182, log 119). -/
def leastTol (ts : List (Option Nat)) : Option Nat :=
  ts.foldl (fun a b => match a, b with | some x, some y => some (Nat.min x y) | some x, none => some x | none, y => y) none

/-- TOLERANCE_READ of a lane's element (07 R217): the answer is the element in memory; the element of a VLF read brings
its limbs with it.  The model's own choice (log 135): a mark of a hamper's loss is reported like any other, and no access
reports kind 6 with detail 3. -/
def tolPart (s : State) (o : Op) (i : Nat) (p : Part) (n align : Nat) : Out :=
  atPlace s o i p n align fun key region =>
    match region with
    | none => .refused .eventNotEnabled
    | some rn =>
      match s.region? rn with
      | none => .refused .eventNotEnabled
      | some r =>
        let fits := match o.instr with
          | .ld _ _ _ x _ | .ldtol _ _ _ _ x | .ldtolDet _ _ _ x => sizeFits r x.size
          | _ => r.fmt == 4 && (r.elemAt key).isSome
        if !fits || !s.addsClear o (blockOf key) then .refused .eventNotEnabled
        else request s o i p key (some rn) <|
          let same := (s.companions o i (blockOf key) p (fun _ => (n, align)) fun _ => true).filter fun q => q.2.2.1 == key
          let all := (i, p) :: same.map fun q => (q.1, q.2.1)
          tolRead s o i p key r (leastTol (all.map fun q => o.tolerance r q.2.lane)) fun s =>
            let s := s.acquireFor o
            if s.poisoned key then faultAt s o i p 6 1
            else
              let l := o.alike key (s.bytes key r.elemBytes)
              .next (s.setOp (all.foldl (fun (o : Op) q =>
                (o.setPart q.1 { q.2 with st := .done, key := key, len := r.elemBytes, asked := false }).putBuf (64 * q.2.lane) l) o))

/-! ## DRAIN (06 R189) -/

/-- DRAIN: acts once when a lane executes. -/
def execDrain (k : BitVec 3) (d : Dst) (s : State) : Out :=
  withEnv s fun e =>
    let ex := e.lanes k
    acceptFlag s e (newOp s e (.drain k d) ex []
      (if ex = 0 then [] else [newPart ((lowestLane ex).getD 0) .g 0 0 0 .waiting])) true

/-- DRAIN.r: the region of the page that holds the lowest lane's address. -/
def execDrainR (k : BitVec 3) (d : Dst) (a : Src) (s : State) : Out :=
  withEnv s fun e =>
    let ex := e.lanes k
    let low := (lowestLane ex).getD 0
    let base := e.src64 a low
    acceptFlag s e (newOp s e (.drainR k d a) ex (if ex = 0 then [] else [⟨0, 0, low, base⟩])
      (if ex = 0 then [] else [newPart low .g base 0 1 .waiting])) true

/-- The lines of a core that a drain covers leave, and their number is kept for the result. -/
def drainLines (s : State) (o : Op) (i : Nat) (p : Part) (covers : Hamper → Bool) : Out :=
  let hs := s.hampers.filter fun h => h.core == o.core && covers h
  let s := hs.foldl (fun (s : State) h => s.leaveHamper h (some o.id)) s
  .next (s.setOp ((o.setPart i { p with st := .done }).putBuf 0 (leBytes 4 hs.length)))

/-- The adds of the group that come before a drain have left the store queue (log 25). -/
def State.addsLeft (s : State) (o : Op) : Bool :=
  (s.earlier o).all fun q => !q.isAdd || q.parts.all fun x => x.st != .queued

def drainPart (s : State) (o : Op) (i : Nat) (p : Part) : Out :=
  need (p.st == .waiting && p.held.isNone && s.loadClear o && s.addsLeft o) <|
    match o.instr with
    | .drain .. => drainLines s o i p fun _ => true
    | _ =>
      match s.global o.core .query p.addr with
      | .hold page => holdPart s o i p page
      | .bad k d l st => faultPart s o i p 3 k d l st
      | .at _ none => drainLines s o i p fun _ => false
      | .at _ (some n) => drainLines s o i p fun h => h.region.n == n

/-- Every drain that a DRAIN sent has been combined. -/
def State.drainsIn (s : State) (o : Op) : Bool :=
  (s.msgs.all fun m => match m.body with | .drain _ _ _ _ _ _ _ (some id) _ => id != o.id | _ => true)
    && s.homes.all fun hb => hb.replies.all fun q => q.op != some o.id

end Sys2Proof.Machine
end

