-- ==== Sys2Proof/Machine/Stores.lean ====
section
/-!
DEFINITION. Stores: the checks at issue (06 R181), the store queue and the core store order (07 R198), and the store at
its home (06 R171, R172).
-/

namespace Sys2Proof.Machine

/-! ## Issue -/

/-- A scope instance holds the home of a key (07 Table 7.2). -/
def scopeHolds (s : State) (core : Nat) (sc : Scope) (key : Nat) : Bool :=
  match sc with
  | .dom | .sys => true
  | .pkg => (homeOf s key).1 == s.device
  | .die => homeOf s key == (s.device, dieOfCore core)
  | _ => false

/-- A faulted store or add of the group, with its link fault, whose home a scope contains (07 R207). -/
def State.linkFaulted (s : State) (gid : Nat) (sc : Scope) : Option (Op × FaultRec) :=
  s.ops.findSome? fun o =>
    if o.gid == gid && o.isStore && o.parts.any (fun p => p.timeouts == 3 && scopeHolds s o.core sc (dataKey p.key)) then
      o.fault.map fun f => (o, f)
    else none

/-- The store-class instruction at its word: every lane checked before any enters the store queue; a fault parks the
group, a quiesced page blocks it (06 R181, 08 R240). -/
def storeWord (s : State) (e : Env) (g : Group) (i : Instr) (ex : W32) (acc size : Nat) (caps : List Cap)
    (parts : List Part) (chk : Part → Where) : Out :=
  let ws := parts.map fun p => (p, chk p)
  let faults := ws.filterMap fun q =>
    match q.2 with
    | .bad k d l st => some (memFault s.device acc (spaceNum q.1.sp) size k d l st e.r.addr e.r.idx e.r.runNo q.1.lane
        q.1.addr (q.1.addr + BitVec.ofNat 64 q.1.off))
    | _ => none
  match faults with
  | f :: fs => parkWord s e g (fs.foldl joinFaults f)
  | [] =>
    match ws.findSome? fun q => match q.2 with | .hold page => some page | _ => none with
    | some page =>
      .next (s.setGroup { g with st := .blockedPage page, since := some ((g.since).getD s.ctl.ptc) })
    | none =>
      let op := newOp s e i ex caps []
      if parts.isEmpty then wordDone s e g
      else
      match (if op.releases then s.linkFaulted e.g.gid op.order.2 else none) with
      | some q => parkOp s g q.1 q.2
      | none =>
        let placed := ws.map fun q =>
          match q.2 with
          | .at key rn => { q.1 with
              st := .queued
              key := match i with | .stbt .. => tagKey key | _ => key
              commut := match rn with | some n => s.region? n | none => none }
          | _ => q.1
        accept s e g { op with parts := placed, buf := storeBuf caps }

/-- A store's captured data: for each lane the `n` bytes of its value, eight to an entry (14 Table 14.16, log 144). -/
def dataCaps (ex : W32) (n : Nat → Nat) (v : Nat → Nat) : List Cap :=
  (laneList ex).flatMap fun l =>
    (List.range ((n l + 7) / 8)).map fun j => ⟨0, 1, l, BitVec.ofNat 64 (v l / 2 ^ (64 * j))⟩

/-- A window's first words as bytes of one number. -/
def Env.winNat (e : Env) (n : BitVec 5) (words l : Nat) : Nat := wordsNat ((List.range words).map fun j => e.g.winWord n j l)

/-- The place of a plain store's piece. -/
def plainCheck (s : State) (e : Env) (a : Acc) (n : Part → Nat) (align : Nat) (p : Part) : Where :=
  s.placePiece e.g e.t e.gr a p (n p) align

/-- ST (06 R184). -/
def execSt (k : BitVec 3) (a b : Src) (x : MemX) (s : State) : Out :=
  withEnv s fun e =>
    let ex := e.lanes k
    let n := x.size.bytes
    let parts := if n ≤ 8 then singleParts ex x.space n .waiting (e.src64 a) else laneParts ex x.space n .waiting (e.src64 a)
    let v : Nat → Nat := fun l =>
      if n ≤ 8 then (e.src64 b l).toNat % 2 ^ (8 * n)
      else match b with | .w w => e.winNat w (n / 4) l | _ => 0
    storeWord s e e.g (.st k a b x) ex 1 x.size.code.toNat (capLanes ex 0 (e.src64 a) ++ dataCaps ex (fun _ => n) v) parts
      (plainCheck s e .store (fun _ => n) (sizeAlign x.size))

/-- STV (06 R185): one vector, its base a multiple of 8. -/
def execStv (k : BitVec 3) (a b : Src) (x : MemX) (s : State) : Out :=
  withEnv s fun e =>
    let ex := e.lanes k
    let n := x.size.bytes
    let base := e.src64 a ((lowestLane ex).getD 0)
    storeWord s e e.g (.stv k a b x) ex 1 x.size.code.toNat
      ((if ex = 0 then [] else [⟨0, 0, (lowestLane ex).getD 0, base⟩])
        ++ dataCaps ex (fun _ => n) fun l => (e.src64 b l).toNat % 2 ^ (8 * n))
      (singleParts ex x.space n .waiting fun l => base + BitVec.ofNat 64 (l * n))
      fun p =>
        if base.toNat % 8 != 0 then .bad 8 (spaceNum p.sp) 0 0
        else if pastEnd base p.lane n then .bad 7 (spaceNum p.sp) 0 0
        else plainCheck s e .store (fun _ => n) n p

/-- VST (05 R160): the checks of every lane, then the conditions, then the store. -/
def execVst (k : BitVec 3) (a : Src) (b : BitVec 5) (x : MemX) (s : State) : Out :=
  withEnv s fun e =>
    let ex := e.lanes k
    let v : Nat → List W32 × W32 := fun l => vstWords (e.limbCap b) (e.g.winWord b 0 l) (e.winLimbs b l)
    let len : Nat → Nat := fun l => 4 * (v l).1.length
    let parts := (laneList ex).flatMap fun l =>
      (List.range (v l).1.length).map fun j => newPart l x.space (e.src64 a l) (4 * j) 4 .waiting
    let chk := plainCheck s e .store (fun p => len p.lane) 4
    let go : Group → Out := fun g =>
      storeWord s e g (.vst k a b x) ex 1 x.size.code.toNat
        (capLanes ex 0 (e.src64 a) ++ dataCaps ex len fun l => wordsNat (v l).1) parts chk
    if parts.any fun p => match chk p with | .at .. => false | _ => true then go e.g
    else vlfTrapOr s e ex 0 (fun l => (0, (v l).2)) go

/-- STBT (06 R193): bits [15:0] of B as the block's tag. -/
def execStbt (k : BitVec 3) (a b : Src) (x : MemX) (s : State) : Out :=
  withEnv s fun e =>
    let ex := e.lanes k
    storeWord s e e.g (.stbt k a b x) ex 5 x.size.code.toNat
      (capLanes ex 0 (e.src64 a) ++ dataCaps ex (fun _ => 2) fun l => (e.src32 b l).toNat % 65536)
      (singleParts ex x.space 2 .waiting (e.src64 a))
      (plainCheck s e .stbt (fun _ => 64) 64)

/-- The check of an add: its page's region must have its size and form (06 R186, R188). -/
def addCheck (s : State) (e : Env) (z : Size) (vlf : Bool) (n : Nat) (p : Part) : Where :=
  match s.placePiece e.g e.t e.gr .stadd p n n with
  | .at key (some rn) =>
    let lf := s.leafAt e.t.core p.addr
    let level := match lf with | some (_, l) => l | none => 0
    match s.region? rn with
    | none => .bad 2 5 level 3
    | some r =>
      if (if vlf then r.fmt == 4 && (r.elemAt key).isSome else sizeFits r z) then .at key (some rn) else .bad 4 2 level 3
  | w => w

/-- STADD (06 R186). -/
def execStadd (k : BitVec 3) (a b : Src) (x : MemX) (s : State) : Out :=
  withEnv s fun e =>
    let ex := e.lanes k
    let n := x.size.bytes
    storeWord s e e.g (.stadd k a b x) ex 3 x.size.code.toNat
      (capLanes ex 0 (e.src64 a) ++ dataCaps ex (fun _ => n) fun l => (e.src64 b l).toNat % 2 ^ (8 * n))
      (singleParts ex x.space n .waiting (e.src64 a)) (addCheck s e x.size false n)

/-- STADD.v (06 R188): a malformed operand is added as a NaN. -/
def execStaddV (k : BitVec 3) (a : Src) (b : BitVec 5) (x : MemX) (s : State) : Out :=
  withEnv s fun e =>
    let ex := e.lanes k
    let v : Nat → List W32 := fun l => (vstWords (e.limbCap b) (e.g.winWord b 0 l) (e.winLimbs b l)).1
    storeWord s e e.g (.staddV k a b x) ex 3 x.size.code.toNat
      (capLanes ex 0 (e.src64 a) ++ dataCaps ex (fun l => 4 * (v l).length) fun l => wordsNat (v l))
      (singleParts ex x.space 4 .waiting (e.src64 a))
      (addCheck s e x.size true 4)

/-- Groups blocked on pages in a range go on to their word, or their clause fetch, again, and parts held on them
retranslate (08 R223, R240). -/
def State.wakePages (s : State) (lo hi : Nat) : State :=
  let here (page : BitVec 32) : Bool := lo ≤ page.toNat * 65536 && page.toNat * 65536 < hi
  let free (p : Part) : Part := match p.held with | some page => if here page then { p with held := none } else p | none => p
  { s with
    groups := s.groups.map fun (g : Group) =>
      match g.st with
      | .blockedPage page => if here page then { g with st := .ready, since := none } else g
      | _ => g
    ops := s.ops.map fun (o : Op) => { o with parts := o.parts.map free } }

/-! ## Departure from the store queue (07 R198) -/

/-- The head of a group's store queue: its oldest command with a queued part, and that part's place in it. -/
def State.queueHead (s : State) (gid : Nat) : Option (Op × Nat × Part) :=
  s.ops.findSome? fun o =>
    if o.gid == gid && o.isStore then
      ((o.parts.zipIdx).find? fun q => q.1.st == .queued).map fun q => (o, q.2, q.1)
    else none

/-- Pieces of one vector in one block move together (07 Table 7.1). -/
def Op.mates (o : Op) (i : Nat) (p : Part) : List Nat :=
  match o.instr with
  | .stv .. => ((o.parts.zipIdx).filter fun q => blockOf q.1.key == blockOf p.key &&
      (q.2 == i || q.1.st == p.st)).map (·.2)
  | _ => [i]

def Op.partBytes (o : Op) (p : Part) : List Byte := Store.readList o.buf (64 * p.lane + p.off) p.len

/-- A store command whose parts have all been performed is done. -/
def State.settleStore (s : State) (o : Op) : State := if o.allDone then s.dropOp o.id else s.setOp o

/-- A store in a local space is written when it leaves the queue. -/
def State.writeParts (s : State) (o : Op) (js : List Nat) : State :=
  js.foldl (fun (s : State) j =>
    match o.parts[j]? with
    | some q => s.putBytes q.key (o.partBytes q)
    | none => s) s

/-- The pieces moved together cover a whole block (08 R250). -/
def Op.covers (o : Op) (js : List Nat) : Bool :=
  js.foldl (fun n j => n + (match o.parts[j]? with | some q => q.len | none => 0)) 0 == 64

def State.settleMark (s : State) (o : Op) (js : List Nat) (key : Nat) : State := if o.covers js then s.unmark key else s

/-- A store that comes back to its queue after a link fault is translated again (08 R236); `f` on its part as placed. -/
def replaced (s : State) (o : Op) (i : Nat) (p : Part) (f : Part → Out) : Out :=
  if p.sent.isNone then f p
  else
    match s.partPlace o p o.acc with
    | .hold page => holdPart s o i p page
    | .bad k d l st => faultPart s o i p o.acc.code k d l st
    | .at key rn =>
      f { p with
        key := match o.instr with | .stbt .. => tagKey key | _ => key
        commut := match rn with | some n => s.region? n | none => none }

/-- STORE_QUEUE_DEPARTURE: the head of the group's store queue enters the core store order. -/
def execStoreQueueDeparture (gid : Nat) (s : State) : Out :=
  needSome (s.queueHead gid) fun h =>
    let i := h.2.1
    need h.2.2.held.isNone <|
    replaced s h.1 i h.2.2 fun p =>
    let o := h.1.setPart i p
    need (s.storeClear o && !s.scoreHold o.gid o.id p.key p.len true
        && (!s.remote o.core (dataKey p.key) || s.windowOpen o.requester (destOf s (dataKey p.key)))) <|
      let go : Out :=
        match o.isAdd, p.commut with
        | true, some r =>
          match absorb s o i p r with
          | .next t =>
            let t := t.touch gid p.key
            (match t.op? o.id with
             | some q => .next (t.settleStore q)
             | none => .next t)
          | r => r
        | _, _ =>
          let js := o.mates i p
          match p.sp with
          | .p | .g =>
            let order := s.nextId
            let s := { s with nextId := s.nextId + 1 }.touch gid (dataKey p.key)
            .next (s.depart o js (dataKey p.key) order)
          | _ =>
            let s := (s.writeParts o js).settleMark o js p.key
            .next (s.settleStore (o.mapParts js fun q => { q with st := .done }))
      if o.releases then whenReleased s o o.order.2 go else go

/-! ## The store at its home -/

/-- The request type of a store as it travels (06 R172). -/
def Op.storeReq (s : State) (o : Op) (key : Nat) : Req := effStoreReq s key o.reqType

/-- HOME_REQUEST for a departed store: the home performs it and acknowledges.  A request whose answer was lost has been
applied already, and the home sends its stored answer (15 R415). -/
def storePart (s : State) (o : Op) (i : Nat) (p : Part) (lose : Bool) : Out :=
  match p.st with
  | .departed order =>
    let js := (o.mates i p)
    let ack (s : State) : Out :=
      let s := s.noted o.requester p.sent
      if lose then .next (s.setOp (o.mapParts js Part.lose))
      else .next (s.settleStore (o.mapParts js fun q => { q with st := .done, asked := false }))
    let blk := blockOf (dataKey p.key)
    if !s.passes o.core p (dataKey p.key) then
      need (s.remote o.core (dataKey p.key) && p.held.isNone && !p.lostReq && p.timeouts < 3)
        (travel s o i js p ⟨order, p.key, none⟩)
    else if !s.inTurn o.requester blk order || s.drainAhead order o.core blk then .refused .eventNotEnabled
    else if s.duplicate o.requester p.sent then
      .next (s.settleStore (o.mapParts js fun q => { q with st := .done, asked := false }))
    else if o.isAdd then
      match p.commut with
      | some r =>
        if p.asked then .refused .eventNotEnabled
        else
          ack (s.combineAt r p.key (r.widen (Store.readList o.buf (64 * p.lane) (if r.fmt == 4 then 36 else r.elemBytes))))
      | none => .refused .eventNotEnabled
    else
      match o.instr with
      | .stbt .. =>
        ack { s.putBytes p.key (o.partBytes p) with tagPoison := s.tagPoison.filter fun b => b != blockOf (dataKey p.key) }
      | _ =>
        let blk := blockOf p.key
        let owner := if isHbm p.key then s.otherOwner o.core blk else none
        withOwner s o i p owner blk true false <|
          let s := js.foldl (fun (s : State) j =>
            match o.parts[j]? with
            | some q => s.homeStore o.core q.key (o.partBytes q) (o.storeReq s q.key)
            | none => s) s
          ack (s.settleMark o js p.key)
  | _ => .refused .eventNotEnabled

end Sys2Proof.Machine
end

