-- ==== Sys2Proof/Machine/MemCtl.lean ====
section
/-!
DEFINITION. Cache control and fences (06 R190-R192, 07 R201, R204, R206), recalls and evictions of lines (06 R169-R171)
and page walks (08 R230-R235).
-/

namespace Sys2Proof.Machine

/-! ## Lines -/

/-- L1_EVICTION: a line or a hamper line leaves its L1 (06 R169, 07 R216). -/
def execL1Eviction (core blk : Nat) (s : State) : Out :=
  match s.line? core blk with
  | some ln => .next (s.evictLine ln)
  | none =>
    match s.hamper? core blk with
    | some h => .next (s.leaveHamper h none)
    | none => .refused .eventNotEnabled

/-- The recall of a part has returned. -/
def State.recallReturned (s : State) (op part : Nat) : State :=
  match s.op? op with
  | none => s
  | some o =>
    match o.parts[part]? with
    | none => s
    | some p => s.setOp (o.setPart part { p with recalls := p.recalls - 1 })

/-- RECALL: a line gives up its dirty words and stays or goes as the request asks (06 R171); a hamper gives up its share
(07 R217). -/
def execRecall (msg : Nat) (s : State) : Out :=
  needSome (s.msg? msg) fun m =>
  match m.body with
  | .recallLine core blk op part drop shared =>
    need (!m.lost) <|
    let s := s.dropMsg msg
    match s.line? core blk with
    | none => .next (s.recallReturned op part)
    | some ln =>
      if ln.st == LineSt.si then .next (s.recallReturned op part)
      else if drop then .next ((s.evictLine ln).recallReturned op part)
      else
        let s := s.writeBack ln
        if shared then
          let d := s.dirOf blk
          let sharers : List Nat := if d.sharers.contains core then d.sharers else d.sharers ++ [core]
          let s := s.setLine { ln with dirty := 0, st := LineSt.shared }
          .next ((s.setDir ⟨blk, none, sharers⟩).recallReturned op part)
        else .next ((s.setLine { ln with dirty := 0 }).recallReturned op part)
  | .recallHamper core blk line => need (!m.lost) (recallHamperAt s msg core blk line)
  | _ => .refused .eventNotEnabled

/-! ## Prefetch and invalidate -/

/-- PFX (06 R190). -/
def execPfx (k : BitVec 3) (a : Src) (r : Req) (s : State) : Out :=
  withEnv s fun e =>
    let ex := e.lanes k
    accept s e e.g (newOp s e (.pfx k a r) ex (capLanes ex 0 (e.src64 a)) (singleParts ex .g 1 .waiting (e.src64 a)))

/-- The line a prefetch asks for; one whose address would fault, or whose page is commutative, is dropped. -/
def pfxPart (s : State) (o : Op) (i : Nat) (p : Part) (r : Req) : Out :=
  need (p.st == .waiting) <|
    let done : State := s.setOp (o.setPart i { p with st := .done })
    match p.site (s.global o.core .load p.addr) with
    | .at key none =>
      let r := effLoadReq s key (s.readDup o.core .g p.addr) r
      request s o i p key none <|
      if s.poisoned key || s.lineHit o.core key r || r == .nc then .next done
      else
        withOwner s o i p (s.otherOwner o.core (blockOf key)) key false (r == .own)
          (.next ((s.loadBytes o (blockOf key) 1 r).2.setOp (o.setPart i { p with st := .done })))
    | .hold page => holdPart s o i p page
    | _ => .next done

/-- INVL.line (06 R191): an address that would fault is ignored; one on a quiesced page waits (log 26). -/
def execInvlLine (k : BitVec 3) (a : Src) (s : State) : Out :=
  withEnv s fun e =>
    let ls := laneList (e.lanes k)
    let places := ls.map fun l => s.global e.t.core .query (e.src64 a l)
    match places.findSome? fun w => match w with | .hold page => some page | _ => none with
    | some page => .next (s.blockAt e.g page)
    | none =>
      let s := places.foldl (fun (s : State) w =>
        match w with
        | .at key _ => (match s.line? e.t.core (blockOf key) with | some ln => s.evictLine ln | none => s)
        | _ => s) s
      wordDone s e e.g

/-- INVL.si (06 R191). -/
def execInvlSi (k : BitVec 3) (s : State) : Out :=
  withEnv s fun e => wordDone (if e.lanes k = 0 then s else s.dropSi e.t.core) e e.g

/-! ## Fences -/

/-- FENCE (06 R192): it never holds the lane pipe. -/
def execFence (m : FenceOp) (k : BitVec 3) (scope : Scope) (s : State) : Out :=
  withEnv s fun e =>
    let ex := e.lanes k
    if ex = 0 then wordDone s e e.g
    else
      match s.linkFaulted e.g.gid scope with
      | some q => parkOp s e.g q.1 q.2
      | none => accept s e e.g (newOp s e (.fence m k scope) ex [] [])

/-- Every earlier load and atomic of the group has taken its value, and every earlier acquire has been made. -/
def State.loadsTaken (s : State) (o : Op) : Bool := (s.earlier o).all fun p => !p.untaken && !p.acquiring

/-- A fence performs (07 R201, R204).  FENCE.sc sees, at any scope, what an earlier fence of the total order saw, so the
core gives up its self-invalidating lines. -/
def fenceComplete (s : State) (o : Op) (m : FenceOp) (sc : Scope) : Out :=
  match m with
  | .acq => need (s.loadsTaken o) (.next ((s.acquireAt o.core sc).finish o))
  | .rel => whenReleased s o sc (.next (s.finish o))
  | .ar => whenReleased s o sc (.next ((s.acquireAt o.core sc).finish o))
  | .sc => whenReleased s o sc (.next (((s.acquireAt o.core sc).dropSi o.core).finish o))

/-- FLUSH_MARKER_GATHER (07 R206): a marker arrives behind everything sent before it on its path.  Where that path is lost,
the marker counts as gathered once all that was sent on it before has been acknowledged (15 R417). -/
def execFlushMarkerGather (msg : Nat) (s : State) : Out :=
  needSome (s.msg? msg) fun m =>
  match m.body with
  | .marker .. =>
    needSome m.sent fun x =>
      need (if s.pathUp x then !m.lost && s.pathClear x else s.acked x) (.next (s.dropMsg msg))
  | _ => .refused .eventNotEnabled

/-! ## Walks -/

/-- An entry taken into a TLB of `n` entries of one owner, in the place of the oldest when it is full (log 123). -/
def tlbAdd (n : Nat) (l : List TlbEntry) (t : TlbEntry) : List TlbEntry :=
  let mine := l.filter fun x => x.core == t.core && x.va != t.va
  l.filter (fun x => x.core != t.core) ++ mine.drop (mine.length - (n - 1)) ++ [t]

/-- The pointers that a walk follows, from a table on (08 R233). -/
def pointersFrom (s : State) (va : Nat) : Nat → Nat → List PtrEntry
  | 0, _ => []
  | n + 1, table =>
    let key := table + 8 * levelIndex va n
    let e : W64 := BitVec.ofNat 64 (s.look key 8)
    match entryTest s.regions va n (s.poisoned key) e with
    | some _ => []
    | none => ⟨n, BitVec.ofNat 48 (va / levelBytes n * levelBytes n), e⟩
        :: pointersFrom s va n (mkDpa s.device (fld e 57 57) (fld e 55 26 * 256))

/-- A translation taken into the TLBs of a core and its die, which hold 1,024 and 32,768 entries, and the pointers on the
way to it into the walkers' cache (08 R233). -/
def State.fillTlb (s : State) (core va : Nat) : State :=
  match s.translate core va with
  | .page e l =>
    let t : TlbEntry := ⟨core, BitVec.ofNat 48 (va / pageBytes l * pageBytes l), BitVec.ofNat 2 l, e⟩
    let ptrs := if s.xl.root.getLsbD 0 then
        pointersFrom s va 4 (mkDpa s.device (fld s.xl.root 38 38) (fld s.xl.root 37 12 * 4096)) else []
    let known (p : PtrEntry) : Bool := s.wcache.any fun q => q.level == p.level && q.va == p.va
    { s with
      tlb := tlbAdd 1024 s.tlb t
      dtlb := tlbAdd 32768 s.dtlb { t with core := dieOfCore core }
      wcache := s.wcache ++ ptrs.filter fun p => !known p }
  | _ => s

/-- Two misses lie in one 2 MiB region, and share a walk (08 R234). -/
def Miss.near (a b : Miss) : Bool := a.page.toNat / 32 == b.page.toNat / 32

/-- A miss joins a walk of its region, takes a free slot of the 4,096, or waits in its die's queue. -/
def State.startMiss (s : State) (m : Miss) : State :=
  if s.walks.any fun w => w.any (Miss.near m) then
    { s with walks := s.walks.map fun w => if w.any (Miss.near m) then w ++ [m] else w }
  else if s.walks.length < 4096 then { s with walks := s.walks ++ [[m]] }
  else { s with missq := s.missq ++ [m] }

/-- A free slot goes to the first miss in the queue of the die whose turn it is, or of the other; misses of its region go
with it. -/
def State.admitMiss (s : State) : State :=
  let of (die : Nat) : Option Miss := s.missq.find? fun m => dieOfCore m.core == die
  match (of s.missDie).orElse fun _ => of (1 - s.missDie) with
  | none => s
  | some m =>
    { s with
      walks := s.walks ++ [m :: s.missq.filter fun x => x != m && x.near m]
      missq := s.missq.filter fun x => x != m && !x.near m
      missDie := 1 - dieOfCore m.core }

/-- PAGE_WALK: a miss of a core's TLB takes its place with the walkers; then, at its next PAGE_WALK, its walk ends and the
TLBs of all whose miss was of its page take the leaf (08 R230, R233-R235). -/
def execPageWalk (core : Nat) (va : BitVec 48) (s : State) : Out :=
  let m : Miss := ⟨core, va.extractLsb' 16 32⟩
  if s.missq.contains m then .refused .eventNotEnabled
  else if s.walks.any fun w => w.contains m then
    -- misses of one page share the read of its leaf
    let same := (s.walks.flatten).filter fun x => x.page == m.page
    let ws := (s.walks.map fun w => w.filter fun x => !same.contains x).filter fun w => !w.isEmpty
    let t := { same.foldl (fun (s : State) x => s.fillTlb x.core va.toNat) s with walks := ws }
    .next (if ws.length < 4096 then t.admitMiss else t)
  else .next (s.startMiss m)

end Sys2Proof.Machine
end

