-- ==== Sys2Proof/Machine/Copy.lean ====
section
/-!
DEFINITION. The block-transfer engine (09): copies and their blocks, batches, clasps and multicast.
-/

namespace Sys2Proof.Machine

/-! ## Kinds and captured operands -/

/-- The clasp that a command names: its space and address. -/
def Op.claspRef (o : Op) : Option (Space × W64) :=
  match o.instr with
  | .copy x | .copy2d x | .copy3d x | .copym x => x.cls.map fun sp => (sp, o.par 0)
  | .clinit _ _ _ _ sp | .clexp _ _ _ sp | .clarr _ _ _ sp _ | .cltest _ _ _ sp _ | .clinv _ _ sp =>
    some (sp, o.cap 0 o.low)
  | .launch x => x.cls.map fun sp => (sp, (capValue o.caps 1 (x.n.toNat + 1) 0).getD 0)
  | _ => none

/-- Ranks that COPYM writes (09 R272). -/
def Op.ranks (o : Op) : List Nat := (List.range 8).filter fun r => (o.par 2).getLsbD r

/-- Bytes that a copy counts at its clasp (09 Table 9.3). -/
def Op.counted (o : Op) : Nat :=
  match o.instr with
  | .copym _ => o.total * o.ranks.length
  | _ => o.total

/-- The first detail of 09 Table 9.4 that a copy's parameters give, 0 for none.  The order, 1 then 2 then 6, is the model's
own (log 137). -/
def Op.copyDetail (o : Op) (cluster : Nat) : Nat :=
  let p1 := o.par 1
  let zero := match o.instr with
    | .copy _ => fld p1 63 32 == 0
    | .copy2d _ => fld p1 63 48 == 0
    | .copym _ => fld p1 63 32 == 0 && fld (o.par 2) 63 8 == 0
    | _ => true
  let unit64 : W64 → Bool := fun v => v.toNat % 64 == 0
  let tagsOk := match o.copyX with
    | some x => !x.tags || (x.src == .g && x.dst == .g && unit64 (o.cap 0 o.low) && unit64 (o.cap 1 o.low)
        && o.dims.1 % 64 == 0
        && (match o.instr with
            | .copy2d _ => unit64 (o.par 2) && fld (o.par 2) 63 32 % 64 == 0
            | .copy3d _ => unit64 (o.par 2) && fld (o.par 2) 63 32 % 64 == 0 && unit64 (o.par 3)
                && fld (o.par 3) 63 32 % 64 == 0
            | _ => true))
    | none => true
  let claspOk := match o.claspRef with | some (_, a) => a.toNat % 64 == 0 | none => true
  let ranksOk := match o.instr with
    | .copym _ => fld (o.par 2) 7 0 != 0 && (o.ranks.all fun r => r < cluster)
    | _ => true
  if !zero || !tagsOk then 1 else if !claspOk then 2 else if !ranksOk then 6 else 0

/-! ## Acceptance (09 R255, R260) -/

/-- Commands of the block-transfer engine of a cluster.  A command that has faulted occupies neither the engine nor its
group's 32 nor the scoreboard's 64, so that every hold ends (09 R260, log 121); the ranges of a faulted copy protect its
bytes on. -/
def Op.isBlock (o : Op) : Bool :=
  match o.instr with
  | .copy _ | .copy2d _ | .copy3d _ | .copym _ | .clinit .. | .clexp .. | .clarr .. | .clinv .. | .cltest .. => true
  | _ => false

def State.engineFull (s : State) (core : Nat) : Bool :=
  256 ≤ s.ops.countP fun o => o.isBlock && o.fault.isNone && clusterIdx o.core == clusterIdx core

/-- Copies of a group accepted and neither completed nor faulted. -/
def State.copiesOut (s : State) (gid : Nat) : Nat := (s.opsOf gid).countP fun o => o.isCopy && o.fault.isNone

/-- Least and greatest byte address of one side of a copy. -/
def extent (base : W64) (x : Nat) (spans : List W64) : Int × Int :=
  spans.foldl (fun (r : Int × Int) d => if d.toInt < 0 then (r.1 + d.toInt, r.2) else (r.1, r.2 + d.toInt))
    ((base.toNat : Int), (base.toNat : Int) + (x : Int) - 1)

/-- Spans of the rows and planes of a copy: source, then destination. -/
def Op.spans (o : Op) : List W64 × List W64 :=
  let y := BitVec.ofNat 64 (o.dims.2.1 - 1)
  let z := BitVec.ofNat 64 (o.dims.2.2 - 1)
  match o.instr with
  | .copy2d _ => ([y * strideOf (o.par 2) 31 0], [y * strideOf (o.par 2) 63 32])
  | .copy3d _ => ([y * strideOf (o.par 2) 31 0, z * strideOf (o.par 3) 31 0],
      [y * strideOf (o.par 2) 63 32, z * strideOf (o.par 3) 63 32])
  | _ => ([], [])

/-- The scoreboard ranges of one local endpoint, widened to 64-byte boundaries (06 R174): the bytes of it that lie in the
space, rank by rank in .c; addresses count modulo 2^64. -/
def State.rangeOf (s : State) (t : Team) (gr : Grid) (grpid lane : Nat) (sp : Space) (ext : Int × Int) (store : Bool) :
    List (Bool × Nat × Nat) :=
  let clip (lo hi : Int) : List (Bool × Nat × Nat) :=
    [0, -(2 ^ 64 : Int), 2 ^ 64].filterMap fun (d : Int) =>
      let lo := max (ext.1 + d) lo
      let hi := min (ext.2 + d) hi
      if hi < lo then none
      else
        match s.localKey t gr grpid lane sp (BitVec.ofInt 64 lo) 1, s.localKey t gr grpid lane sp (BitVec.ofInt 64 hi) 1 with
        | some a, some b => some (store, a / 64 * 64, (b + 64) / 64 * 64)
        | _, _ => none
  match sp with
  | .l => clip 0 (Int.ofNat gr.ko.laneBytes - 1)
  | .s => clip 0 (Int.ofNat gr.ko.spad - 1)
  | .c => (List.range t.clCount).flatMap fun (r : Nat) =>
      clip (Int.ofNat (r * gr.ko.exportBytes)) (Int.ofNat (r * gr.ko.exportBytes + gr.ko.exportBytes) - 1)
  | _ => []

def copyRanges (s : State) (w : Group × Team × Grid) (o : Op) : List (Bool × Nat × Nat) :=
  match o.copyX with
  | none => []
  | some x =>
    if o.total == 0 then []
    else
      let rg := s.rangeOf w.2.1 w.2.2 w.1.grpid.toNat o.low
      let src := rg x.src (extent (o.cap 1 o.low) o.dims.1 o.spans.1) false
      let dst := match o.instr with
        | .copym _ => o.ranks.flatMap fun r =>
            rg .c (extent (o.cap 0 o.low + BitVec.ofNat 64 (r * w.2.2.ko.exportBytes)) o.dims.1 []) true
        | _ => rg x.dst (extent (o.cap 0 o.low) o.dims.1 o.spans.2) true
      src ++ dst

/-- The core whose scratchpad or lane store holds a key. -/
def coreOfKey (key : Nat) : Nat := if 2 ^ 47 ≤ key then (key - 2 ^ 47) / 65536 else (key - 2 ^ 46) / 393216

/-- Some core's scoreboard has too few of its 64 entries free for the ranges (09 R260). -/
def State.boardFull (s : State) (rs : List (Bool × Nat × Nat)) : Bool :=
  rs.any fun r =>
    let c := coreOfKey r.2.1
    64 < ((s.ops.filter fun o => o.fault.isNone).flatMap fun o => o.ranges.filter fun q => coreOfKey q.2.1 == c).length
      + (rs.filter fun q => coreOfKey q.2.1 == c).length

/-- The command record of a copy instruction whose lowest executing lane is `low`. -/
def copyCommand (s : State) (e : Env) (i : Instr) (x : CopyX) (scalars low : Nat) : Op :=
  let caps : List Cap := [⟨0, 0, low, e.src64 x.a low⟩, ⟨0, 1, low, e.src64 x.b low⟩]
    ++ (List.range scalars).map fun j => ⟨1, x.n.toNat + j, 0, Store.read e.g.scal (x.n.toNat + j)⟩
  let o := newOp s e i (laneBit low) caps [newPart low x.src 0 0 0 .waiting, newPart low x.dst 0 0 0 .waiting]
  let count : Part := match o.claspRef with
    | some (sp, addr) => newPart low sp addr 0 64 .waiting
    | none => newPart low .g 0 0 0 .done
  { o with clasp := o.claspRef, ranges := copyRanges s (e.g, e.t, e.gr) o, parts := o.parts ++ [count] }

/-- A copy instruction: accepted, or held at its word by a limit of 09 R260. -/
def issueCopy (s : State) (i : Instr) (x : CopyX) (scalars : Nat) : Out :=
  withEnv s fun e =>
    match lowestLane (e.lanes x.k) with
    | none => wordDone s e e.g
    | some low =>
      let o := copyCommand s e i x scalars low
      if s.engineFull e.t.core || 32 ≤ s.copiesOut e.g.gid || s.boardFull o.ranges then .next (s.hold e)
      else accept s e e.g o

/-- COPY (09 R256). -/
def execCopy (x : CopyX) (s : State) : Out := issueCopy s (.copy x) x 2
/-- COPY2D. -/
def execCopy2d (x : CopyX) (s : State) : Out := issueCopy s (.copy2d x) x 3
/-- COPY3D. -/
def execCopy3d (x : CopyX) (s : State) : Out := issueCopy s (.copy3d x) x 4
/-- COPYM (09 R272). -/
def execCopym (x : CopyX) (s : State) : Out := issueCopy s (.copym x) x 3

/-! ## Blocks -/

/-- A fault of a copy's block: the command stops, and blocks already written stand (09 R274). -/
def copyFault (s : State) (o : Op) (i : Nat) (p : Part) (acc kind detail level st : Nat) (addr : W64) : Out :=
  let f := memFault s.device acc (spaceNum p.sp) 0 kind detail level st o.clause o.word.toNat o.run.toNat o.low addr addr
  .next (s.setOp ((o.setPart i { p with st := .faulted }).addFault f))

/-- Where `n` bytes of a copy lie. -/
def copyPlace (s : State) (w : Group × Team × Grid) (a : Acc) (lane : Nat) (sp : Space) (addr : W64) (n : Nat) : Where :=
  s.place w.2.1 w.2.2 w.1.grpid.toNat lane a sp addr n 1

/-- A fault met after translation: its level and state from the leaf. -/
def copyFaultAt (s : State) (o : Op) (i : Nat) (p : Part) (acc kind detail : Nat) (addr : W64) : Out :=
  let ls := s.leafLS o.core p.sp addr
  copyFault s o i p acc kind detail ls.1 ls.2 addr

/-! ### Pieces: 64-byte blocks of the source and of the destination (07 Table 7.1, 09 R256) -/

/-- The first byte from `c` on that begins a destination block, `c` in the middle of none: a block that an earlier row
has met is passed over. -/
def Op.nextBlock (o : Op) : Nat → Nat → Nat
  | 0, c => c
  | n + 1, c =>
    if o.total ≤ c then o.total
    else
      let a := o.sideAt false c
      match (o.segs false (blockAddr a)).head? with
      | some q => if q.1 == c then c else o.nextBlock n (c + Nat.min (64 - a.toNat % 64) (o.dims.1 - c % o.dims.1))
      | none => c

/-- The destination block at the cursor. -/
def Op.target (o : Op) : W64 := blockAddr (o.sideAt false o.cursor)

/-- The source blocks whose bytes the destination block at the cursor takes. -/
def Op.sources (o : Op) : List W64 :=
  ((o.segs false o.target).flatMap fun q =>
    [blockAddr (o.sideAt true q.1), blockAddr (o.sideAt true (q.1 + q.2 - 1))]).eraseDups

/-- The next source block to read for the destination block at the cursor. -/
def Op.nextSource (o : Op) : Option W64 := o.sources.find? fun b => Store.read o.buf (imageFlag b) == 0

/-- The bytes of a block that the copy uses, from the first to the last: address and number. -/
def Op.pieceOf (o : Op) (src : Bool) (blk : W64) : W64 × Nat :=
  let offs := (o.segs src blk).map fun q => ((o.sideAt src q.1 - blk).toNat, (o.sideAt src q.1 - blk).toNat + q.2)
  let lo := offs.foldl (fun m q => Nat.min m q.1) 64
  (blk + BitVec.ofNat 64 lo, offs.foldl (fun m q => Nat.max m q.2) 0 - lo)

/-- The bytes that the destination block takes, in the copy's order: offset in the block and bytes. -/
def Op.pieceBytes (o : Op) : List (Nat × List Byte) :=
  (o.segs false o.target).map fun q =>
    ((o.sideAt false q.1 - o.target).toNat, (List.range q.2).map fun j => Store.read o.buf (imageKey (o.sideAt true (q.1 + j))))

/-- Part 0 stands at the next source block, and is done when all are read; part 1 at the destination block. -/
def Op.atBlock (o : Op) : Op :=
  match o.parts with
  | r :: w :: more =>
    let d := o.pieceOf false o.target
    let rd : Part := match o.nextSource with
      | some b => let q := o.pieceOf true b; newPart r.lane r.sp q.1 0 q.2 .waiting
      | none => newPart r.lane r.sp 0 0 0 .done
    { o with stage := 1, parts := rd :: newPart w.lane w.sp d.1 0 d.2 .waiting :: more }
  | _ => o

/-- The operands have been edited since the block at the cursor began (14 R391, R392): its pieces lie elsewhere now. -/
def Op.moved (o : Op) : Bool :=
  o.stage == 1 && ((o.parts.take 2).zip (o.atBlock.parts.take 2)).any fun q =>
    q.1.way.isNone && q.1.st != .done && (q.1.addr != q.2.addr || q.1.len != q.2.len)

/-- The block at the cursor begins, or the copy has written its last byte. -/
def Op.nextUnit (o : Op) : Op :=
  let o := { o with cursor := o.nextBlock (o.total + 1) o.cursor }
  if o.total ≤ o.cursor then
    { o with stage := 2, parts := (o.parts.zipIdx).map fun q =>
        if q.2 < 2 then newPart q.1.lane q.1.sp q.1.addr q.1.off q.1.len .done else q.1 }
  else o.atBlock

def Op.tags (o : Op) : Bool := match o.copyX with | some x => x.tags | none => false

/-- A source block taken into the command's buffer. -/
def copyTake (s : State) (o : Op) (p : Part) (key : Nat) (tag : List Byte) : Out :=
  let b := blockAddr p.addr
  let o := ((o.putBuf (imageKey p.addr) (s.bytes key p.len)).putBuf (imageFlag b) [1]).putBuf (imageTag b) tag
  .next (s.setOp o.atBlock)

/-- A read of a source block as an .nc load (09 R256); a commutative block is read as a .det tolerance read.  The block is
translated once (08 R238). -/
def copyRead (s : State) (o : Op) (p : Part) (tol : Bool) : Out :=
  needSome (s.ownerOf o) fun w =>
    need (p.st == .waiting && p.held.isNone && s.engineClear o) <|
    match p.site (copyPlace s w .copyRead p.lane p.sp p.addr p.len) with
    | .hold page => holdPart s o 0 p page
    | .bad k d l st => copyFault s o 0 p 7 k d l st p.addr
    | .at key region =>
      let fault (kind detail : Nat) : Out := copyFaultAt s o 0 p 7 kind detail p.addr
      let tagBad := o.tags && s.tagPoison.contains (blockOf key)
      let tag : List Byte := if o.tags then s.bytes (tagKey (blockOf key)) 2 else []
      request s o 0 p key region <|
        match region with
        | some rn =>
          if !tol then .refused .eventNotEnabled
          else
            match s.region? rn with
            | none => fault 2 5
            | some r => tolRead s o 0 p key r (some 0) fun s =>
                if s.poisoned key then fault 6 1 else if tagBad then fault 6 2 else copyTake s o p key tag
        | none =>
          if tol then .refused .eventNotEnabled
          else if s.poisoned key then fault 6 1
          else if tagBad then fault 6 2
          else
            let owner := if isHbm key then (s.dirOf (blockOf key)).owner else none
            withOwner s o 0 p owner key false false (copyTake s o p key tag)

/-- A core number that no L1 has: the requester is an engine. -/
def noCore : Nat := 2 ^ 20

/-- The parts of a copy behind the reading, the writing and the count: a record of the dies and devices it writes, for its
own markers (09 R266). -/
def Op.reach (o : Op) (d : Nat) : Op :=
  if (o.parts.drop 3).any fun p => p.key == d then o
  else { o with parts := o.parts ++ [{ newPart 0 .g 0 0 0 .done with key := d }] }

/-- The destination block written at one place, as an .nc store: `key` is that of the piece's first byte. -/
def copyPut (s : State) (o : Op) (p : Part) (key : Nat) : State :=
  let s := (if isHbm key then s.dropSharers (blockOf key) noCore true else s)
  let base := key - (p.addr.toNat % 64)
  let runs := o.pieceBytes
  let s := runs.foldl (fun (s : State) q => s.putBytes (base + q.1) q.2) s
  let s := if (List.range 64).all (fun j => runs.any fun q => q.1 ≤ j && j < q.1 + q.2.length) then s.unmark key else s
  if o.tags then
    { s.putBytes (tagKey (blockOf key)) (Store.readList o.buf (imageTag (blockAddr (o.sideAt true o.cursor))) 2) with
      tagPoison := s.tagPoison.filter fun b => b != blockOf key }
  else s

/-- Images that no byte from `c` on uses are given up. -/
def Op.dropImages (o : Op) (c : Nat) (bs : List W64) : Op :=
  bs.foldl (fun (o : Op) b =>
    if (o.segs true b).all fun q => q.1 + q.2 ≤ c then
      { o with buf := Store.clear (Store.clear (Store.clear o.buf (imageKey b) (imageKey b + 64)) (imageFlag b)
          (imageFlag b + 1)) (imageTag b) (imageTag b + 2) }
    else o) o

/-- The block has been written: the cursor moves on. -/
def copyWritten (s : State) (o : Op) (dests : List Nat) : Out :=
  let run := match (o.segs false o.target).head? with | some q => q.2 | none => 1
  let old := o.sources
  let o := dests.foldl Op.reach { o with cursor := o.cursor + run }
  let o := o.nextUnit
  .next (s.setOp (o.dropImages o.cursor old))

/-- Destination addresses of the block: one, or one for each rank.  A COPYM whose A lies in its part and whose A + x runs
past E goes on into the next rank's part: the spec gives no rule for it (log 120). -/
def Op.targets (o : Op) (e : Nat) (a : W64) : List W64 :=
  match o.instr with
  | .copym _ => o.ranks.map fun r => a + BitVec.ofNat 64 (r * e)
  | _ => [a]

/-- The group's earlier loads and atomics have taken what they read of some blocks; those that have faulted read again later
(07 R208: a copy waits for nothing else of its group, and so always ends, 09 R260). -/
def State.pastReads (s : State) (o : Op) (keys : List Nat) : Bool :=
  (s.earlier o).all fun q => !q.untaken || q.fault.isSome ||
    q.parts.all fun x => x.st == .done || !keys.any fun k => s.partBlock q x == some (blockOf k)

/-- The writing of the block at the cursor, once its bytes have been read. -/
def copyWrite (s : State) (o : Op) (p : Part) (lose : Bool) : Out :=
  needSome (s.ownerOf o) fun w =>
    let read := match o.parts[0]? with | some r => r.st == .done | none => false
    need (p.st == .waiting && p.held.isNone && read && s.engineClear o) <|
    let e := w.2.2.ko.exportBytes
    let outside : Bool := match o.instr with | .copym _ => e ≤ (o.cap 0 o.low).toNat | _ => false
    let places : List (W64 × Where) := match p.way with
      | some y => [(p.addr, .at y.key none)]
      | none => (o.targets e p.addr).map fun a =>
        (a, if outside then Where.bad 7 2 0 0 else copyPlace s w .copyWrite p.lane p.sp a p.len)
    match places.find? fun q => match q.2 with | .bad .. => true | _ => false with
    | some (a, .bad k d l st) => copyFault s o 1 p 8 k d l st a
    | _ =>
      match places.findSome? fun q => match q.2 with | .hold page => some page | _ => none with
      | some page => holdPart s o 1 p page
      | none =>
        let keys := places.filterMap fun q => match q.2 with | .at key _ => some key | _ => none
        let first := keys.headD (2 ^ 46)
        if !s.pastReads o keys then .refused .eventNotEnabled
        else request s o 1 p first none <|
          let dests := (keys.filter fun k => k < 2 ^ 46).map fun k => destOf s k
          if s.duplicate o.requester p.sent then copyWritten s o dests
          else if !s.inTurn o.requester (blockOf first) (s.lineOf p) then .refused .eventNotEnabled
          else
            let owner := if isHbm first then (s.dirOf (blockOf first)).owner else none
            withOwner s o 1 p owner first true false <|
              let s := keys.foldl (fun (s : State) key => copyPut s o p key) s
              let s := s.noted o.requester p.sent
              if lose then .next (s.setOp (o.setPart 1 p.lose)) else copyWritten s o dests

/-- A copy's parameters are checked, and its first block begins.  The record's access and address are the model's own
choice (log 138). -/
def copyStart (s : State) (o : Op) (p : Part) : Out :=
  needSome (s.ownerOf o) fun w =>
    let d := o.copyDetail w.2.2.ko.cluster
    if d != 0 then
      .next (s.setOp ((o.setPart 0 { p with st := .faulted }).addFault (engineFault s o 7 d 7 p.sp o.low (o.cap 1 o.low))))
    else .next (s.setOp o.nextUnit)

/-- HOME_REQUEST of a copy: part 0 reads, part 1 writes. -/
def copyPart (s : State) (o : Op) (i : Nat) (p : Part) (tol lose : Bool) : Out :=
  if o.stage == 0 then need (p.st == .waiting && i == 0 && !tol && !lose) (copyStart s o p)
  else if o.moved then
    needSome (s.ownerOf o) fun w => need (!tol && !lose) (.next (s.setOp { o.atBlock with ranges := copyRanges s w o }))
  else if o.stage == 1 then
    (if i == 0 && !lose then copyRead s o p tol
    else if i == 1 && !tol then copyWrite s o p lose else .refused .eventNotEnabled)
  else .refused .eventNotEnabled

/-- The place of the clasp that a command names. -/
def State.claspKey (s : State) (o : Op) : Option Nat :=
  match o.claspRef, s.ownerOf o with
  | some (sp, addr), some w =>
    (match s.place w.2.1 w.2.2 w.1.grpid.toNat o.low .query sp addr 64 1 with | .at key _ => some key | _ => none)
  | _, _ => none

/-- Two commands name one clasp, whatever spaces and addresses they name it by. -/
def State.sameClasp (s : State) (a b : Op) : Bool :=
  a.claspRef.isSome && b.claspRef.isSome &&
    (a.claspRef == b.claspRef || ((s.claspKey a).isSome && s.claspKey a == s.claspKey b))

/-! ## What a fault keeps back (01 R22, 09 R274) -/

/-- An access of a group waits on the scoreboard entries of a copy (06 R174, 09 R274 point 4). -/
def State.waitsOn (s : State) (x c : Op) : Bool :=
  c.id < x.id && !c.ranges.isEmpty &&
    match s.ownerOf x with
    | none => false
    | some w => x.parts.any fun p =>
        (p.st == .waiting || p.st == .queued) &&
          (match s.place w.2.1 w.2.2 w.1.grpid.toNat p.lane .query p.sp (p.addr + BitVec.ofNat 64 p.off) p.len 1 with
           | .at key _ => s.rangeHolds c key p.len x.isStore
           | _ => false)

/-- A command whose reads wait for the group's earlier stores (07 R208). -/
def Op.isEngine (o : Op) : Bool :=
  match o.instr with
  | .copy _ | .copy2d _ | .copy3d _ | .copym _ | .clinit .. | .clexp .. | .clinv .. | .emitn .. | .mma _ | .mmat _ | .mmafx _
  | .tld _ | .tst _ | .accld _ | .accst _ | .popld _ | .prepld _ | .smpl _ | .smplg _ | .smpllLod .. | .smpllGrad ..
  | .sres _ => true
  | _ => false

def Op.isTest (o : Op) : Bool :=
  match o.instr with
  | .cltest .. => true
  | _ => false

/-- Two commands have parts to come in one block. -/
def State.meet (s : State) (x y : Op) : Bool :=
  x.parts.any fun p => p.st != .done && (s.partBlock x p).isSome &&
    y.parts.any fun q => q.st != .done && s.partBlock y q == s.partBlock x p

/-- A command cannot be performed before an earlier one of its group, which is still to be performed: the order of the
group's accesses, the scoreboard, or their clasp (06 R174, R192, 07 R198, R201, R208, 09 R267, 13 R360). -/
def State.waitsFor (s : State) (x y : Op) : Bool :=
  x.releases || y.acquiring || (y.isFence && !x.isFence)
    || (y.isLoad && !y.allDone && (x.isLoad || x.isAtomic || x.isStore || x.isTest || x.isFence))
    || (y.isAtomic && !y.allDone && (x.isStore || x.isFence || ((x.isLoad || x.isAtomic) && s.meet x y)))
    || (y.untaken && y.fault.isNone && x.isCopy && s.meet x y)
    || (y.isStore && (x.isEngine || x.isAtomic || (x.isStore && y.parts.any fun p => p.st == .queued)))
    || (y.isAdd && x.isLoad && s.meet x y)
    || (!y.isCopy && s.sameClasp x y) || s.waitsOn x y

/-- A faulted command of a group with the commands behind it that wait for it, one through another. -/
def State.stuck (s : State) (c : Op) : List Op :=
  (s.opsOf c.gid).foldl (fun (l : List Op) x =>
    if c.id < x.id && !x.isHint && !x.isReport && (x.isCopy || x.parts.isEmpty || !x.allDone) && l.any (s.waitsFor x)
    then l ++ [x] else l) [c]

/-- The fault that keeps one of some commands of a group: its own, or that of a command it waits for.  The spec names the
first; without the second the group would wait for ever (log 46). -/
def State.keeper (s : State) (gid : Nat) (sel : Op → Bool) : Option Op :=
  let cs := (s.opsOf gid).filter fun c => c.fault.isSome && !c.isReport && (c.flag.isNone || c.settled)
  match cs.find? sel with
  | some c => some c
  | none => cs.find? fun c => (s.stuck c).any sel

/-! ## Batches (09 R261-R263) -/

/-- The finished count rises over every batch whose copies have completed. -/
def finishBatches (busy : W32 → Bool) : Nat → W32 → W32 → W32
  | 0, _, fin => fin
  | n + 1, sealed_, fin => if fin = sealed_ || busy fin then fin else finishBatches busy n sealed_ (fin + 1)

def State.settleBatches (s : State) (gid : Nat) : State :=
  match s.group? gid with
  | none => s
  | some g =>
    let busy : W32 → Bool := fun b => (s.opsOf gid).any fun o => o.isCopy && o.batch == some b
    let fin := finishBatches busy 17 g.sealedCnt g.finishedCnt
    let st : GState := match g.st with
      | .blockedBatch n => if (g.sealedCnt - fin).toNat ≤ n then .ready else g.st
      | x => x
    s.setGroup { g with finishedCnt := fin, st := st, since := if st == g.st then g.since else none }

/-- The word blocks its group between clauses, without the pipe, and runs again when the wait ends (02 R29, 09 R263,
R278). -/
def State.block (s : State) (e : Env) (st : GState) : State :=
  s.setGroup { e.g with st := st, run := some e.r.leavePipe, since := some (e.g.since.getD s.ctl.ptc) }

/-- BSEAL (09 R261, R262). -/
def execBseal (k : BitVec 3) (d : Dst) (s : State) : Out :=
  withEnv s fun e =>
    let ex := e.lanes k
    if ex = 0 then wordDone s e (e.g.resultAll ex d false 0)
    else if 16 ≤ (e.g.sealedCnt - e.g.finishedCnt).toNat then .next (s.hold e)
    else
      let b := e.g.sealedCnt
      let s := { s with ops := s.ops.map fun (o : Op) =>
        if o.gid == e.g.gid && o.isCopy && o.batch.isNone then { o with batch := some b } else o }
      let g := { e.g with sealedCnt := b + 1 }.resultAll ex d false (b.setWidth 64)
      .next ((s.advance g e.r).settleBatches e.g.gid)

/-- A copy in a batch that BWAIT n waits for has faulted (09 R274 point 1). -/
def State.batchFault (s : State) (g : Group) (n : Nat) : Option Op :=
  (s.opsOf g.gid).find? fun o => o.fault.isSome && o.isCopy &&
    (match o.batch with
     | some b => n < (g.sealedCnt - b).toNat
     | none => false)

/-- BWAIT (09 R263): the group's later accesses happen after the batches' writes, so its L1 gives up lines that could be
older (07 R209). -/
def execBwait (k : BitVec 3) (n : BitVec 5) (s : State) : Out :=
  withEnv s fun e =>
    if e.lanes k = 0 then wordDone s e e.g
    else if (e.g.sealedCnt - e.g.finishedCnt).toNat ≤ n.toNat then wordDone (s.dropSi e.t.core) e e.g
    else
      match s.batchFault e.g n.toNat with
      | some o => needSome o.fault fun f => parkOp s e.g o f
      | none => .next (s.block e (.blockedBatch n.toNat))

/-! ## Clasps (09 R264-R270) -/

structure Clasp where
  phase : Nat
  state : Nat
  per : Nat
  pending : Nat
  bytesPer : Nat
  bytes : Nat
  rest : Nat
  deriving DecidableEq, Repr

def State.claspAt (s : State) (key : Nat) : Clasp :=
  ⟨s.le key 4, s.le (key + 4) 4, s.le (key + 8) 4, s.le (key + 12) 4, s.le (key + 16) 8, s.le (key + 24) 8,
    s.le (key + 32) 32⟩

def State.putClasp (s : State) (key : Nat) (c : Clasp) : State :=
  s.putBytes key (leBytes 4 c.phase ++ leBytes 4 c.state ++ leBytes 4 c.per ++ leBytes 4 c.pending
    ++ leBytes 8 c.bytesPer ++ leBytes 8 c.bytes ++ leBytes 32 c.rest)

def Clasp.valid (c : Clasp) : Bool := c.state % 2 == 1

/-- 09 R265. -/
def Clasp.malformed (c : Clasp) : Bool :=
  c.state / 2 != 0 || c.rest != 0 || (c.valid && (c.per == 0 || 2 ^ 31 - 1 < c.per)) || c.per < c.pending

/-- update(c, a, d) of 09 R265: the clasp, or the fault's detail.  `d` is taken modulo 2^64. -/
def Clasp.update (c : Clasp) (a d : Nat) : Except Nat Clasp :=
  if c.malformed then .error 3
  else if !c.valid then .error 4
  else if c.pending < a then .error 5
  else
    let pending := c.pending - a
    let bytes := (c.bytes + 2 ^ 64 - d % 2 ^ 64) % 2 ^ 64
    if pending == 0 && bytes == 0 then
      .ok { c with phase := (c.phase + 1) % 2 ^ 32, pending := c.per, bytes := c.bytesPer }
    else .ok { c with pending := pending, bytes := bytes }

/-- CLWAIT's and CLTEST's value (09 R278). -/
def claspValue (c : Clasp) : W64 := BitVec.ofNat 64 (c.phase + if c.valid then 0 else 2 ^ 32)

/-- Groups that wait on a clasp as it now stands are released, each with the value it returns (09 R265, R269); a malformed
one is read again, for its fault.  A clasp in a core's memory is none of a team whose memory a pre-emption has saved. -/
def State.wakeClasp (s : State) (key : Nat) : State :=
  let c := s.claspAt key
  { s with groups := s.groups.map fun (g : Group) =>
      match g.st with
      | .blockedClasp _ _ k phase _ =>
        if k != key || (2 ^ 46 ≤ k && !(s.team? g.team).any fun t => t.resident) then g
        else if c.malformed then { g with st := .ready, since := none }
        else if c.valid && BitVec.ofNat 64 c.phase == phase then g
        else { g with st := .ready, since := none, freed := some (claspValue c) }
      | _ => g }

/-- A read-modify-write of a block at its home: no L1 keeps the line. -/
def State.homeBlock (s : State) (key : Nat) : State :=
  if isHbm key then s.dropSharers (blockOf key) noCore true else s

/-- Where a clasp lies, or its fault: an unaligned address is detail 2 of 09 Table 9.4.  Every clasp instruction, CLWAIT and
CLTEST too, is admitted as an atomic is (access 2 of 08 Table 8.13): which row of Table 8.6 they take is left open
(log 122). -/
def claspPlace (s : State) (w : Group × Team × Grid) (lane : Nat) (sp : Space) (addr : W64) : Where :=
  s.place w.2.1 w.2.2 w.1.grpid.toNat lane .atomic sp addr 64 1

/-- An access of a clasp by a command: `f` on its key once the owner's line has come home; `done` where the home has
applied it already (15 R415).  CLINIT reads nothing, so poison does not stop it (08 R250). -/
def onClasp (s : State) (o : Op) (i : Nat) (p : Part) (sp : Space) (addr : W64) (done : State → Out) (f : Nat → Out) : Out :=
  needSome (s.ownerOf o) fun w =>
    let stop : FaultRec → Out := fun fr => .next (s.setOp ((o.setPart i { p with st := .faulted }).addFault fr))
    let mem (k d l st : Nat) : FaultRec :=
      memFault s.device 2 (spaceNum sp) 0 k d l st o.clause o.word.toNat o.run.toNat o.low addr addr
    let writes := match o.instr with | .clinit .. => true | _ => false
    if addr.toNat % 64 != 0 then stop (engineFault s o 7 2 2 sp o.low addr)
    else
      match p.site (claspPlace s w p.lane sp addr) with
      | .hold page => holdPart s o i p page
      | .bad k d l st => stop (mem k d l st)
      | .at key _ =>
        let ls := s.leafLS o.core sp addr
        request s o i p key none <|
        if s.duplicate o.requester p.sent then done s
        else if !s.inTurn o.requester (blockOf key) (s.lineOf p) then .refused .eventNotEnabled
        else if s.poisoned key && !writes then stop (mem 6 1 ls.1 ls.2)
        else
          let owner := if isHbm key then (s.dirOf (blockOf key)).owner else none
          withOwner s o i p owner key true false (f key)

/-- A clasp has been written at its home: the command's group has written there (07 R206), the home notes the request, and
the answer comes back or is lost (15 R415). -/
def claspWritten (s : State) (o : Op) (i : Nat) (p : Part) (key : Nat) (lose : Bool) (done : State → Out) : Out :=
  let s := ((s.touch o.gid key).wakeClasp key).noted o.requester p.sent
  if lose then .next (s.setOp (o.setPart i p.lose)) else done s

/-- An update applied, or its fault; the answer that brings a fault is lost with its request. -/
def applyUpdate (s : State) (o : Op) (i : Nat) (p : Part) (sp : Space) (addr : W64) (key a d : Nat) (lose : Bool)
    (done : State → Out) : Out :=
  match (s.claspAt key).update a d with
  | .error x =>
    need (!lose) <|
    .next ((s.setOp ((o.setPart i { p with st := .faulted }).addFault (engineFault s o 7 x 2 sp o.low addr))).wakeClasp key)
  | .ok c => claspWritten ((s.homeBlock key).putClasp key c) o i p key lose done

/-- No earlier clasp instruction of the group on the clasp is pending (09 R267). -/
def State.claspTurn (s : State) (o : Op) : Bool := (s.earlier o).all fun q => q.isCopy || !s.sameClasp q o

/-! ## Clasp instructions -/

/-- A clasp instruction that is no wait or test. -/
def issueClasp (s : State) (i : Instr) (k : BitVec 3) (sp : Space) (caps : Env → Nat → List Cap) : Out :=
  withEnv s fun e =>
    match lowestLane (e.lanes k) with
    | none => wordDone s e e.g
    | some low =>
      let cs := caps e low
      let addr : W64 := (capValue cs 0 0 low).getD 0
      let o := newOp s e i (laneBit low) cs [newPart low sp addr 0 64 .waiting]
      if s.engineFull e.t.core then .next (s.hold e)
      else
        match (if o.releases then s.linkFaulted e.g.gid o.order.2 else none) with
        | some q => parkOp s e.g q.1 q.2
        | none => accept s e e.g { o with clasp := o.claspRef }

/-- CLINIT (09 R268). -/
def execClinit (k : BitVec 3) (a b c : Src) (sp : Space) (s : State) : Out :=
  issueClasp s (.clinit k a b c sp) k sp fun e l => [⟨0, 0, l, e.src64 a l⟩, ⟨0, 1, l, e.src32 b l⟩, ⟨0, 2, l, e.src64 c l⟩]
/-- CLEXP (09 Table 9.3). -/
def execClexp (k : BitVec 3) (a b : Src) (sp : Space) (s : State) : Out :=
  issueClasp s (.clexp k a b sp) k sp fun e l => [⟨0, 0, l, e.src64 a l⟩, ⟨0, 1, l, e.src64 b l⟩]
/-- CLARR (09 Table 9.3, R266). -/
def execClarr (k : BitVec 3) (a b : Src) (sp : Space) (scope : Scope) (s : State) : Out :=
  issueClasp s (.clarr k a b sp scope) k sp fun e l => [⟨0, 0, l, e.src64 a l⟩, ⟨0, 1, l, e.src64 b l⟩]
/-- CLINV (09 R269). -/
def execClinv (k : BitVec 3) (a : Src) (sp : Space) (s : State) : Out :=
  issueClasp s (.clinv k a sp) k sp fun e l => [⟨0, 0, l, e.src64 a l⟩]

/-- The clasp instruction at the clasp's home. -/
def claspPart (s : State) (o : Op) (i : Nat) (p : Part) (lose : Bool) : Out :=
  match o.claspRef with
  | none => .refused .eventNotEnabled
  | some (sp, addr) =>
    let b := o.cap 1 o.low
    let fin (s : State) : Out := .next (s.finish o)
    let upd (a d : Nat) : Out :=
      onClasp s o i p sp addr fin fun key => applyUpdate s o i p sp addr key a d lose fin
    let malformed (s : State) (key : Nat) : Out := need (!lose) <|
      .next ((s.setOp ((o.setPart i { p with st := .faulted }).addFault (engineFault s o 7 3 2 sp o.low addr))).wakeClasp key)
    need (p.st == .waiting && p.held.isNone && s.claspTurn o) <|
    match o.instr with
    | .clinit .. =>
      need (s.engineClear o) <| onClasp s o i p sp addr fin fun key =>
        let c := o.cap 2 o.low
        claspWritten (((s.homeBlock key).putClasp key ⟨0, 1, fld b 31 0, fld b 31 0, c.toNat, c.toNat, 0⟩).unmark key) o i p key
          lose fin
    | .clexp .. => need (s.engineClear o) (upd 0 (2 ^ 64 - b.toNat))
    | .clarr _ _ _ _ sc => whenReleased s o sc (upd 1 (2 ^ 64 - b.toNat))
    | .clinv .. =>
      need (s.engineClear o) <| onClasp s o i p sp addr fin fun key =>
        let c := s.claspAt key
        if c.malformed then malformed s key
        else claspWritten ((s.homeBlock key).putClasp key { c with state := c.state / 2 * 2 }) o i p key lose fin
    | .cltest .. =>
      need (s.loadClear o && !lose) <| onClasp s o i p sp addr fin fun key =>
        if (s.claspAt key).malformed then malformed s key
        else
          .next ((s.acquireFor o).setOp ((o.setPart i { p with st := .done }).putBuf 0
            (leBytes 8 (claspValue (s.claspAt key)).toNat)))
    | _ => .refused .eventNotEnabled

/-- A command of the group that names a clasp has faulted (09 R274 point 2), or a nested launch that names it has (14 R397,
R429). -/
def State.claspFault (s : State) (g : Group) (lane : Nat) (sp : Space) (addr : W64) : Option Op :=
  let key := match s.team? g.team with
    | none => none
    | some t => (match s.grid? t.grid with
      | none => none
      | some gr => (match s.place t gr g.grpid.toNat lane .query sp addr 64 1 with | .at key _ => some key | _ => none))
  (s.opsOf g.gid).find? fun o => o.fault.isSome && o.flag.isNone &&
    (o.claspRef == some (sp, addr) || (key.isSome && s.claspKey o == key))

/-- CLTEST (09 R278): flag-bound; a fault of a command on its clasp is delivered at its word. -/
def execCltest (k : BitVec 3) (d : Dst) (a : Src) (sp : Space) (acq : Option Scope) (s : State) : Out :=
  withEnv s fun e =>
    let ex := e.lanes k
    match lowestLane ex with
    | none => acceptFlag s e (newOp s e (.cltest k d a sp acq) ex [] []) true
    | some low =>
      let addr := e.src64 a low
      match s.claspFault e.g low sp addr with
      | some o => needSome o.fault fun f => parkOp s e.g o f
      | none =>
        if s.engineFull e.t.core then .next (s.hold e)
        else
          acceptFlag s e { newOp s e (.cltest k d a sp acq) ex [⟨0, 0, low, addr⟩] [newPart low sp addr 0 64 .waiting] with
            clasp := some (sp, addr) } true

/-- The word's own fault record at a CLWAIT. -/
def waitFault (s : State) (e : Env) (detail : Nat) (sp : Space) (lane : Nat) (addr : W64) : FaultRec :=
  tableFault 7 0 detail s.device 2 (spaceNum sp) 0 0 0 e.r.addr e.r.idx e.r.runNo lane addr

/-- CLWAIT (09 R278): it returns when the phase differs from B or the clasp is invalid, as an acquire at its scope; until
then the group is blocked.  Its own read's fault, and a fault of a command on the clasp, park at its word (R274); a clasp
that no path reaches gives the link fault after three timeouts (15 R417). -/
def execClwait (k : BitVec 3) (d : Dst) (a b : Src) (sp : Space) (scope : Scope) (s : State) : Out :=
  withEnv s fun e =>
    let ex := e.lanes k
    match lowestLane ex with
    | none => wordDone s e (e.g.resultAll ex d true 0)
    | some low =>
      let addr := e.src64 a low
      let back (s : State) (v : W64) : Out :=
        wordDone (s.acquireAt e.t.core scope) e ({ e.g with since := none, freed := none }.resultAll ex d true v)
      match e.g.freed with
      | some v => back s v
      | none =>
      match s.claspFault e.g low sp addr with
      | some o => needSome o.fault fun f => parkOp s e.g o f
      | none =>
        let mem (kd dt l st : Nat) : Out :=
          parkWord s e e.g (memFault s.device 2 (spaceNum sp) 0 kd dt l st e.r.addr e.r.idx e.r.runNo low addr addr)
        if addr.toNat % 64 != 0 then parkWord s e e.g (waitFault s e 2 sp low addr)
        else
          match claspPlace s (e.g, e.t, e.gr) low sp addr with
          | .hold page => .next (s.block e (.blockedPage page))
          | .bad kd dt l st => mem kd dt l st
          | .at key _ =>
            let pending := (s.opsOf e.g.gid).any fun o =>
              (!o.isCopy && !o.isReport && (o.claspRef == some (sp, addr) || s.claspKey o == some key)) || o.isFence || o.acquiring
                || (o.isLoad && !o.allDone)
            let wait : Out := .next (s.block e (.blockedClasp sp addr key (e.src32 b low) scope))
            let ls := s.leafLS e.t.core sp addr
            if pending then wait
            else if s.remote e.t.core key && !s.reaches (homeOf s key).1 then
              (if (e.g.since.any fun t => t + 3 * s.linkTimeout ≤ s.ctl.ptc) then mem 9 1 ls.1 ls.2 else wait)
            else if s.poisoned key then mem 6 1 ls.1 ls.2
            else
              let s := s.recallNow (blockOf key)
              let c := s.claspAt key
              if c.malformed then parkWord s e e.g (waitFault s e 3 sp low addr)
              else if c.valid && BitVec.ofNat 64 c.phase == e.src32 b low then wait
              else back s (claspValue c)

/-! ## Completion of a copy (09 R262, R266) -/

/-- The copy's markers: sent once its last byte is written, at die scope or wider. -/
def copyMarkers (s : State) (o : Op) : State :=
  (s.sendMarkers o ((o.parts.drop 3).map fun p => p.key)).setOp { o with stage := 3 }

/-- The end of a copy: the count applied at the clasp as a release, after the group's earlier clasp instructions; then the
copy leaves its engine, its scoreboard entries and its batch. -/
def copyCount (s : State) (o : Op) (lose : Bool) : Out :=
  match o.copyX with
  | none => .refused .eventNotEnabled
  | some x =>
    need (o.fault.isNone && (o.stage == 2 || o.stage == 3 || o.stage == 99)) <|
    if o.stage == 2 && scopeFar x.scope && 3 < o.parts.length then need (!lose) (.next (copyMarkers s o))
    else if !s.gathered o.id then .refused .eventNotEnabled
    else
      let touch : Group → Group := fun g => (o.parts.drop 3).foldl (fun g p => g.touch p.key) g
      let fin (s : State) : Out := .next (((s.captureOp 2 o).finishWith o touch).settleBatches o.gid)
      match o.claspRef, o.parts[2]? with
      | some (sp, addr), some p =>
        need (p.held.isNone && s.claspTurn o) <|
          onClasp s o 2 p sp addr fin fun key => applyUpdate s o 2 p sp addr key 0 o.counted lose fin
      | _, _ => need (!lose) (fin s)

/-- COPY_COMPLETE (09 R262, R266). -/
def execCopyComplete (op : Nat) (s : State) : Out := needSome (s.op? op) fun o => copyCount s o false

end Sys2Proof.Machine
end

