-- ==== Sys2Proof/Machine/Atomic.lean ====
section
/-!
DEFINITION. The synchronisation engine (13): atomics and bangles.
-/

namespace Sys2Proof.Machine

/-! ## Values -/

def atomBytes (x : AtomX) : Nat := if x.wide then 8 else 4

def signedOf (w v : Nat) : Int := if v < 2 ^ (w - 1) then (v : Int) else (v : Int) - (2 ^ w : Int)

/-- f(old, b) of 13 Table 13.2, at `w` bits. -/
def atomVal (op : AtomOp) (w old b : Nat) : Nat :=
  match op with
  | .add => (old + b) % 2 ^ w
  | .min => if signedOf w b < signedOf w old then b else old
  | .max => if signedOf w old < signedOf w b then b else old
  | .umin => Nat.min old b
  | .umax => Nat.max old b
  | .and => Nat.land old b
  | .or => Nat.lor old b
  | .xor => Nat.xor old b
  | .xchg => b
  | .incw => if b ≤ old then 0 else old + 1
  | .decw => if old == 0 || b < old then b else old - 1

/-- 13 R363. -/
def atomwVal (op : AtomwOp) (old key payload : Nat) : Nat :=
  let k := key % 2 ^ 32 * 2 ^ 32 + payload % 2 ^ 32
  match op with
  | .min => if k < old then k else old
  | .max => if old < k then k else old
  | .xchg => k

/-- 13 R365, Table 13.3: the stored word and the flags. -/
def fatomVal (op : FatomOp) (wide : Bool) (old b : W64) : W64 × W32 :=
  let t : FpTy := if wide then .f64 else .f32
  match op with
  | .add => faddVal t .rne false old b
  | .min => fminmaxVal false true t false old b
  | .max => fminmaxVal true true t false old b

def Op.isBnginit (o : Op) : Bool :=
  match o.instr with
  | .bnginit .. => true
  | _ => false

def Op.atomX (o : Op) : Option AtomX :=
  match o.instr with
  | .atom _ _ _ _ _ x | .atomw _ _ _ _ _ _ x | .fatom _ _ _ _ _ x | .acas _ _ _ _ _ x | .enq _ _ _ _ x | .deq _ _ _ x
  | .bnginit _ _ _ _ x => some x
  | _ => none

/-- The new word and the flags of a one-word atomic of a lane. -/
def Op.atomNew (o : Op) (l old : Nat) : Nat × W32 :=
  let w := match o.atomX with | some x => 8 * (atomBytes x) | none => 32
  let b := (o.cap 1 l).toNat % 2 ^ w
  let c := (o.cap 2 l).toNat % 2 ^ w
  match o.instr with
  | .atom op .. => (atomVal op w old b, 0)
  | .atomw op .. => (atomwVal op old (o.cap 1 l).toNat (o.cap 2 l).toNat, 0)
  | .fatom op _ _ _ _ x =>
    let r := fatomVal op x.wide (BitVec.ofNat 64 old) (BitVec.ofNat 64 b)
    (r.1.toNat % 2 ^ w, r.2)
  | .acas .. => (if old == b then c else old, 0)
  | _ => (old, 0)

/-! ## Issue -/

/-- Atomic instructions of a group accepted and not completed. -/
def State.atomicsOut (s : State) (gid : Nat) : Nat := (s.opsOf gid).countP Op.isAtomic

/-- A flag-bound atomic: one part per lane, or held at its word (13 R359). -/
def issueAtomic (s : State) (i : Instr) (k : BitVec 3) (a : Src) (sp : Space) (n : Nat) (extra : Env → W32 → List Cap) :
    Out :=
  withEnv s fun e =>
    let ex := e.lanes k
    if 32 ≤ s.atomicsOut e.g.gid then .next (s.hold e)
    else
      let o := newOp s e i ex (capLanes ex 0 (e.src64 a) ++ extra e ex) (singleParts ex sp n .waiting (e.src64 a))
      match (if o.releases then s.linkFaulted e.g.gid o.order.2 else none) with
      | some q => parkOp s e.g q.1 q.2
      | none => acceptFlag s e o true

/-- ATOM (13 R362). -/
def execAtom (op : AtomOp) (k : BitVec 3) (d : Dst) (a b : Src) (x : AtomX) (s : State) : Out :=
  issueAtomic s (.atom op k d a b x) k a x.space (atomBytes x) fun e ex => capLanes ex 1 (e.src x.wide b)
/-- ATOMW (13 R363). -/
def execAtomw (op : AtomwOp) (k : BitVec 3) (d : Dst) (a b c : Src) (x : AtomX) (s : State) : Out :=
  issueAtomic s (.atomw op k d a b c x) k a x.space 8 fun e ex => capLanes ex 1 (e.src32 b) ++ capLanes ex 2 (e.src32 c)
/-- FATOM (13 R365). -/
def execFatom (op : FatomOp) (k : BitVec 3) (d : Dst) (a b : Src) (x : AtomX) (s : State) : Out :=
  issueAtomic s (.fatom op k d a b x) k a x.space (atomBytes x) fun e ex => capLanes ex 1 (e.src x.wide b)
/-- ACAS (13 R364). -/
def execAcas (k : BitVec 3) (d : Dst) (a b c : Src) (x : AtomX) (s : State) : Out :=
  issueAtomic s (.acas k d a b c x) k a x.space (atomBytes x) fun e ex =>
    capLanes ex 1 (e.src x.wide b) ++ capLanes ex 2 (e.src x.wide c)
/-- ENQ (13 R368). -/
def execEnq (k : BitVec 3) (d : Dst) (a b : Src) (x : AtomX) (s : State) : Out :=
  issueAtomic s (.enq k d a b x) k a x.space 64 fun e ex => capLanes ex 1 (e.src64 b)
/-- DEQ (13 R368). -/
def execDeq (k : BitVec 3) (d : Dst) (a : Src) (x : AtomX) (s : State) : Out :=
  issueAtomic s (.deq k d a x) k a x.space 64 fun _ _ => []

/-- BNGINIT (13 R367): its checks are made at issue, and its place with them (06 R181); it is not flag-bound.
The model's own choice (log 143): a memory fault or a quiesced page comes before detail 3. -/
def execBnginit (k : BitVec 3) (a b c : Src) (x : AtomX) (s : State) : Out :=
  withEnv s fun e =>
    match lowestLane (e.lanes k) with
    | none => wordDone s e e.g
    | some low =>
      let addr := e.src64 a low
      let slots := e.src64 b low
      let cap := (e.src32 c low).toNat
      let o := newOp s e (.bnginit k a b c x) (laneBit low)
        [⟨0, 0, low, addr⟩, ⟨0, 1, low, slots⟩, ⟨0, 2, low, e.src32 c low⟩] []
      if 32 ≤ s.atomicsOut e.g.gid then .next (s.hold e)
      else
        match s.place e.t e.gr e.g.grpid.toNat low .atomic x.space addr 64 64 with
        | .bad kd d l st => parkWord s e e.g
            (memFault s.device 2 (spaceNum x.space) 3 kd d l st e.r.addr e.r.idx e.r.runNo low addr addr)
        | .hold page => .next (s.blockAt e.g page)
        | .at key _ =>
          if slots.toNat % 8 != 0 || cap < 1 || 24 < cap then parkWord s e e.g (engineFault s o 10 3 2 x.space low addr)
          else
            match (if o.releases then s.linkFaulted e.g.gid o.order.2 else none) with
            | some q => parkOp s e.g q.1 q.2
            | none => accept s e e.g { o with parts := [{ newPart low x.space addr 0 64 .queued with key := key }] }

/-! ## At the engine -/

/-- A lane's turn at a place (13 R359, R360): the group's earlier stores are acknowledged, its earlier loads have their
values, the operations before it on the line have been performed, and the core's requests to the line that come before it
(07 R198, R205). -/
def State.atomTurn (s : State) (o : Op) (i key : Nat) : Bool :=
  s.engineClear o && s.loadClear o && s.atomsClear o key &&
    s.inTurn o.requester (blockOf key) (match o.parts[i]? with | some p => s.lineOf p | none => s.nextId) &&
    ((o.parts.zipIdx).all fun q => i ≤ q.2 || q.1.st == .done || q.1.st == .faulted || s.partBlock o q.1 != some (blockOf key))

/-- The memory fault of a lane of an atomic. -/
def atomFault (s : State) (o : Op) (i : Nat) (p : Part) (f : FaultRec) : Out :=
  .next (s.setOp ((o.setPart i { p with st := .faulted }).addFault f))

def atomMem (s : State) (o : Op) (p : Part) (addr : W64) (kind detail : Nat) : FaultRec :=
  match p.sp, s.leafAt o.core addr with
  | .g, some (e, l) => memFault s.device 2 (spaceNum p.sp) o.sizeCode kind detail l (leafState e) o.clause o.word.toNat
      o.run.toNat p.lane p.addr addr
  | _, _ => memFault s.device 2 (spaceNum p.sp) o.sizeCode kind detail 0 0 o.clause o.word.toNat o.run.toNat p.lane p.addr addr

/-- The line of a key at the engine: obtained as a .wt store obtains it (13 R358): every other L1's copy goes, and the
issuing core's own, which the atomic would leave stale, too (07 R197). -/
def State.engineLine (s : State) (core key : Nat) : State :=
  if isHbm key then (s.dropSharers (blockOf key) noCore true).dropLine core (blockOf key) else s

/-- An operation of a lane performed: its answer and flags kept for the result; an answer lost on a link is kept at the
home (15 R415). -/
def atomDone (s : State) (o : Op) (i : Nat) (p : Part) (key : Nat) (answer : Nat) (flags : W32) (lose : Bool) : Out :=
  let q := { p with key := key, asked := false }
  let o := (o.putBuf (64 * p.lane) (leBytes 8 answer)).putBuf (64 * p.lane + 8) (leBytes 4 flags.toNat)
  .next (((s.touch o.gid key).noted o.requester p.sent).setOp (o.setPart i (if lose then q.lose else { q with st := .done })))

/-- A bangle's control block. -/
structure Bangle where
  slots : Nat
  cap : Nat
  state : Nat
  rest : Nat
  head : Nat
  tail : Nat
  deriving DecidableEq, Repr

def State.bangleAt (s : State) (key : Nat) : Bangle :=
  ⟨s.le key 8, s.le (key + 8) 1, s.le (key + 9) 1, s.le (key + 10) 6 + s.le (key + 32) 32, s.le (key + 16) 8, s.le (key + 24) 8⟩

/-- tail − head as an unsigned 64-bit value. -/
def Bangle.used (b : Bangle) : Nat := (b.tail + 2 ^ 64 - b.head) % 2 ^ 64

/-- The first detail of 13 Table 13.5 that a block gives, 0 for none. -/
def Bangle.detail (b : Bangle) : Nat :=
  if b.rest != 0 || 2 ≤ b.state || (b.state % 2 == 1 && (b.cap < 1 || 24 < b.cap || 2 ^ b.cap < b.used)) then 1
  else if b.state % 2 == 0 then (if 2 ^ b.cap < b.used then 1 else 2)
  else 0

def emptyValue : Nat := 2 ^ 64 - 1

/-- ENQ and DEQ at the engine (13 R368): the block, then the slot in the same space. -/
def banglePart (s : State) (w : Group × Team × Grid) (o : Op) (i : Nat) (p : Part) (key : Nat) (lose : Bool) : Out :=
  let b := s.bangleAt key
  let p := { p with way := some (p.way.getD ⟨s.nextId, key, none⟩) }
  let owner := if isHbm key then (s.dirOf (blockOf key)).owner else none
  withOwner s o i p owner key true false <|
    if b.detail != 0 then atomFault s o i p (engineFault s o 10 b.detail 2 p.sp p.lane p.addr)
    else
      let slot (n : Nat) (f : Nat → Out) : Out :=
        let addr : W64 := BitVec.ofNat 64 (b.slots + 8 * (n % 2 ^ b.cap))
        match s.place w.2.1 w.2.2 w.1.grpid.toNat p.lane .atomic p.sp addr 8 8 with
        | .hold page => holdPart s o i { p with way := none, asked := false } page
        | .bad k d l st => atomFault s o i p (memFault s.device 2 (spaceNum p.sp) o.sizeCode k d l st o.clause o.word.toNat
            o.run.toNat p.lane p.addr addr)
        | .at sk _ =>
          let owner := if isHbm sk then (s.dirOf (blockOf sk)).owner else none
          withOwner s o i p owner sk true false (f sk)
      let s := s.engineLine o.core key
      match o.instr with
      | .enq .. =>
        let v := (o.cap 1 p.lane).toNat
        if v == emptyValue then atomDone s o i p key (2 ^ 62 + b.tail % 2 ^ 32) 0 lose
        else if b.used == 2 ^ b.cap then atomDone s o i p key (2 ^ 63 + b.tail % 2 ^ 32) 0 lose
        else slot b.tail fun sk =>
          let s := ((s.engineLine o.core sk).putLe sk 8 v).putLe (key + 24) 8 ((b.tail + 1) % 2 ^ 64)
          atomDone s o i p key (b.tail % 2 ^ 32) 0 lose
      | _ =>
        if b.head == b.tail then atomDone s o i p key emptyValue 0 lose
        else slot b.head fun sk =>
          if s.poisoned sk then
            atomFault s o i p (atomMem s o p (BitVec.ofNat 64 (b.slots + 8 * (b.head % 2 ^ b.cap))) 6 1)
          else
            let v := s.le sk 8
            atomDone ((s.engineLine o.core sk).putLe (key + 16) 8 ((b.head + 1) % 2 ^ 64)) o i p key v 0 lose

/-- One lane's operation at the engine. -/
def atomPart (s : State) (o : Op) (i : Nat) (p : Part) (lose : Bool) : Out :=
  needSome (s.ownerOf o) fun w =>
  needSome o.atomX fun x =>
    let block := match o.instr with | .enq .. | .deq .. | .bnginit .. => true | _ => false
    let n := if block then 64 else (atomBytes x)
    let place : Where := p.site <| if p.st == .queued then .at p.key none
      else s.place w.2.1 w.2.2 w.1.grpid.toNat p.lane .atomic p.sp p.addr n n
    let go : Out :=
      match place with
      | .hold page => holdPart s o i p page
      | .bad k d l st => faultPart s o i p 2 k d l st
      | .at key _ =>
        if !s.atomTurn o i key then .refused .eventNotEnabled
        else request s o i p key none <|
        if s.duplicate o.requester p.sent then
          .next (if o.isBnginit then s.finish o else s.setOp (o.setPart i { p with st := .done }))
        else if s.poisoned key && !o.isBnginit then faultAt s o i p 6 1
        else
          let s := s.acquireFor o
          if o.isBnginit then
            let owner := if isHbm key && !s.poisoned key then (s.dirOf (blockOf key)).owner else none
            withOwner s o i p owner key true false (.next (init (s.engineLine o.core key) key))
          else if block then banglePart s w o i p key lose
          else
            let owner := if isHbm key then (s.dirOf (blockOf key)).owner else none
            withOwner s o i p owner key true false <|
              let old := s.le key n
              let r := o.atomNew p.lane old
              atomDone ((s.engineLine o.core key).putLe key n r.1) o i p key old r.2 lose
    need ((p.st == .waiting || p.st == .queued) && p.held.isNone && s.engineClear o && s.loadClear o)
      (if o.releases then whenReleased s o o.order.2 go else go)
where
  /-- The block that BNGINIT writes (13 R367); the command is complete once the answer has come back. -/
  init (s : State) (key : Nat) : State :=
    let l := leBytes 8 (o.cap 1 o.low).toNat ++ leBytes 1 (o.cap 2 o.low).toNat ++ leBytes 1 1 ++ leBytes 54 0
    let s := (((s.touch o.gid key).putBytes key l).unmark key).noted o.requester p.sent
    if lose then s.setOp (o.setPart i p.lose) else s.finish o

/-- ATOMIC_PERFORM (13 R357-R360). -/
def execAtomicPerform (op part : Nat) (s : State) : Out :=
  needSome (s.op? op) fun o =>
  needSome o.parts[part]? fun p => need o.isAtomic (atomPart s o part p false)

/-- The result of an atomic (13 R359): the old value or status in each lane, and FATOM's flags (R365). -/
def Op.atomResult (o : Op) (d : Dst) (wide : Bool) (g : Group) : Group :=
  let g := g.late o d wide fun l => BitVec.ofNat 64 (if wide then o.laneNat l 8 else o.laneNat l 4)
  match o.instr with
  | .fatom .. => g.raiseAll o.ex fun l => o.laneWord l 2
  | _ => g

end Sys2Proof.Machine
end

