-- ==== Sys2Proof/Machine/Emit.lean ====
section
/-!
DEFINITION. Putting records into a work graph's pool (14 R377, R380, R381, R398), for the instructions of the scheduler
and for the matrix engine's EMITQ.
-/

namespace Sys2Proof.Machine

/-- The target of output `n` of a node's kernel: its graph, its index and its entry (14 Table 14.5). -/
def State.outputOf (s : State) (gr : Grid) (n : Nat) : Option (Graph × Nat × GNode) :=
  match gr.node with
  | none => none
  | some (gph, nd) =>
    match s.graph? gph with
    | none => none
    | some h =>
      match h.nodes[nd]? with
      | none => none
      | some src =>
        let t := src.outputs.getD n 255
        if t == 255 then none else (h.nodes[t]?).map fun x => (h, t, x)

/-- Bytes of a graph's pool in use. -/
def State.poolUsed (s : State) (graph : Nat) : Nat :=
  (s.recs.filter fun r => r.graph == graph).foldl (fun n r => n + r.data.length) 0

/-- The pool has room (14 R381). -/
def State.poolRoom (s : State) (h : Graph) (bytes : Nat) : Bool := s.poolUsed h.id + bytes ≤ h.pool

/-- A record enters the pool.  Commands of the group numbered below `gate` come before the emission (14 R380). -/
def State.addRec (s : State) (graph node gid gate team : Nat) (data : List Byte) (st : RecSt) : State :=
  { s with
    recs := s.recs ++ [{ id := s.nextId, graph := graph, node := node, data := data, st := st, gid := gid, gate := gate,
                         team := team }]
    nextId := s.nextId + 1 }

/-- A scheduler fault (14 Table 14.14). -/
def schedFault (detail : Nat) (clause : BitVec 48) (word run : Nat) : FaultRec :=
  { cause := 11, detail := BitVec.ofNat 8 detail, fields := plainFields clause word run, lanes := 0, service := none }

def Op.schedFault (o : Op) (detail : Nat) : FaultRec :=
  Sys2Proof.Machine.schedFault detail o.clause o.word.toNat o.run.toNat

end Sys2Proof.Machine
end

