-- ==== Sys2Proof/Machine/MxNum.lean ====
section
/-!
DEFINITION. The matrix engine's numbers: element formats (10 R289-R293), array modes (10 Table 10.1), accumulation
(10 R294-R296), stage programs and their checks (10 R299-R301), and the rounding of QUANT and WRITE (10 Table 10.13).
-/

namespace Sys2Proof.Machine

/-! ## Formats and modes -/

/-- Element formats in the order of DECODE's codes (10 Table 10.9). -/
inductive MFmt where
  | bf16 | fp16 | e4m3 | e5m2 | e2m1 | s4 | a8 | a4 | i64 | i16
  deriving DecidableEq, Repr

def MFmt.ofCode (n : Nat) : Option MFmt :=
  match n with
  | 0 => some .bf16 | 1 => some .fp16 | 2 => some .e4m3 | 3 => some .e5m2 | 4 => some .e2m1
  | 5 => some .s4 | 6 => some .a8 | 7 => some .a4 | 8 => some .i64 | 9 => some .i16 | _ => none

def MFmt.bits : MFmt → Nat
  | .bf16 | .fp16 | .i16 => 16
  | .e4m3 | .e5m2 | .a8 => 8
  | .e2m1 | .s4 | .a4 => 4
  | .i64 => 64

/-- Array modes (10 Table 10.1). -/
inductive Mode where
  | m16 | m8f | m4f | m4s | m8a | m4a | fx
  deriving DecidableEq, Repr

def modeOf (a b : MFmt) : Option Mode :=
  match a, b with
  | .bf16, .bf16 | .bf16, .fp16 | .fp16, .bf16 | .fp16, .fp16 => some .m16
  | .e4m3, .e4m3 | .e4m3, .e5m2 | .e5m2, .e4m3 | .e5m2, .e5m2 => some .m8f
  | .e2m1, .e2m1 => some .m4f
  | .s4, .s4 => some .m4s
  | .a8, .a8 => some .m8a
  | .a4, .a4 => some .m4a
  | .i64, .i16 => some .fx
  | _, _ => none

def Mode.ks : Mode → Nat
  | .m16 => 16 | .m8f | .m8a => 32 | .m4f | .m4s | .m4a => 64 | .fx => 8

/-- K per tile row. -/
def Mode.rowK : Mode → Nat
  | .m16 => 64 | .m8f | .m8a => 128 | .m4f | .m4s | .m4a => 256 | .fx => 8

def fmtE5M2 : Fmt := ⟨5, 2⟩
def fmtE4M3 : Fmt := ⟨4, 3⟩
def fmtE2M1 : Fmt := ⟨2, 1⟩

def fpQuiet : Fp → Fp
  | .nan _ => .nan false
  | x => x

/-- A number scaled by a power of two. -/
def fpScale (k : Int) : Fp → Fp
  | .fin n m e => .fin n m (e + k)
  | x => x

/-- The value of a pattern of a format whose top exponent is an ordinary one. -/
def plainFp (f : Fmt) (b : Nat) : Fp :=
  let m := b % 2 ^ f.fb
  let ex := b / 2 ^ f.fb % 2 ^ f.eb
  let neg := b / 2 ^ (f.eb + f.fb) % 2 == 1
  if ex = 0 then .fin neg m (f.emin - Int.ofNat f.fb)
  else .fin neg (2 ^ f.fb + m) (Int.ofNat ex - f.bias - Int.ofNat f.fb)

/-- A floating element (10 Tables 10.3, 10.4), with subnormals flushed under ftz (10 R294).  The NaNs of the 8-bit
formats are quiet (log 31). -/
def MFmt.fp (f : MFmt) (ftz : Bool) (b : Nat) : Fp :=
  let flush (g : Fmt) (x : Fp) : Fp := if ftz && g.isSub b then .fin (b / 2 ^ (g.eb + g.fb) % 2 == 1) 0 0 else x
  match f with
  | .bf16 => flush fmtBf (fmtBf.unpack b)
  | .fp16 => flush fmt16 (fmt16.unpack b)
  | .e5m2 => flush fmtE5M2 (fpQuiet (fmtE5M2.unpack b))
  | .e4m3 => if b % 128 == 127 then .nan false else flush fmtE4M3 (plainFp fmtE4M3 b)
  | _ => flush fmtE2M1 (plainFp fmtE2M1 b)

/-- Tag formats (06 Table 6.3). -/
def tagFmt (code : Nat) : Option MFmt :=
  match code with
  | 1 => some .e2m1 | 2 => some .e4m3 | 3 => some .e5m2 | 4 => some .bf16 | 5 => some .fp16 | 7 => some .s4
  | _ => none

/-- Matrix fault detail of a tag read under a declared format; 0 when accepted (10 R292, Table 10.5). -/
def tagDetail (f : MFmt) (tag : Nat) : Nat :=
  let code := tag / 256
  if code == 0 then 0
  else if code == 6 || 8 ≤ code then 1
  else
    let ok := match f with
      | .bf16 | .fp16 => code == 4 || code == 5
      | .e4m3 | .e5m2 => code == 2 || code == 3
      | .e2m1 => code == 1
      | .s4 => code == 7
      | _ => false
    if ok then 0 else 2

def sgn (n w : Nat) : Int := if n % 2 ^ w < 2 ^ (w - 1) then Int.ofNat (n % 2 ^ w) else Int.ofNat (n % 2 ^ w) - 2 ^ w

/-- S4 (10 R291). -/
def s4Val (b : Nat) : Int := if b == 8 then 0 else sgn b 4

/-! ## Micro-operation words (10 R299, Table 10.6) -/

def wLast (w : W32) : Bool := w.getLsbD 31
def wOp (w : W32) : Nat := (w.extractLsb' 25 6).toNat
def wPlanes (w : W32) : Nat := (w.extractLsb' 21 4).toNat
/-- Bits `hi` to `lo`. -/
def wF (w : W32) (hi lo : Nat) : Nat := (w.toNat >>> lo) % 2 ^ (hi - lo + 1)
def wB (w : W32) : Bool := w.getLsbD 24

/-- An operand as its stage program declares it (10 R301, Table 10.9). -/
structure Decl where
  fmt : MFmt
  tagged : Bool
  ftz : Bool
  trsp : Bool
  /-- ZPC: group of K elements, tile, row block. -/
  zpc : Option (Nat × Nat × Nat)
  /-- SCIN: tile and scale row. -/
  scin : Option (Nat × Nat)
  /-- SPOS: tile width, samples, column block. -/
  spos : Option (Nat × Nat × Nat)
  deriving DecidableEq, Repr

def sposOf (w : W32) : Nat × Nat × Nat := (4 * 2 ^ wF w 20 19, 2 ^ wF w 18 17, wF w 16 13)

/-- What a checked pre-operator program declares for operand A (false) or B (true). -/
def declOf (ws : List W32) (b : Bool) : Option Decl :=
  let mine := ws.filter fun w => wB w == b
  let find (c : Nat) : Option W32 := mine.find? fun w => wOp w == c
  let zpc := (find 2).map fun w => (32 * 2 ^ wF w 20 19, wF w 18 14, wF w 13 12)
  let scin := (find 5).map fun w => (wF w 20 16, wF w 15 12)
  match find 3, find 1 with
  | some w, _ => some ⟨.i16, false, false, false, none, none, some (sposOf w)⟩
  | none, some w =>
    (MFmt.ofCode (wF w 20 17)).map fun f => ⟨f, w.getLsbD 16, w.getLsbD 15, (find 4).isSome, zpc, scin, none⟩
  | none, none => none

/-! ## Program checks (10 R300, Table 10.8) -/

/-- The fields of a pre-operator word are those of its entry. -/
def preFieldsOk (w : W32) : Bool :=
  let none_ (hi lo : Nat) : Bool := wF w hi lo == 0
  none_ 23 21 && (match wOp w with
    | 1 => none_ 14 0 && wF w 20 17 ≤ 9
    | 2 => none_ 11 0 && wF w 20 19 ≤ 2
    | 3 => none_ 12 0 && wF w 20 19 ≤ 2 && wB w
    | 4 => none_ 20 0
    | 5 => none_ 11 0
    | _ => true)

/-- The fields of a post-operator word; a field named for one of an entry's choices is free in the others. -/
def postFieldsOk (w : W32) : Bool :=
  let none_ (hi lo : Nat) : Bool := wF w hi lo == 0
  match wOp w with
  | 0x10 => none_ 19 0
  | 0x11 | 0x12 => none_ 9 0 && wF w 20 19 ≤ 2
  | 0x13 => none_ 12 0 && wF w 20 17 ≤ 6
  | 0x14 => none_ 16 0
  | 0x15 => none_ 6 0 && wF w 20 17 ≤ 8
  | 0x16 | 0x18 | 0x1B => none_ 20 0
  | 0x17 => none_ 15 0
  | 0x1A => none_ 6 0
  | 0x1C => none_ 0 0 && wF w 20 18 ≤ 2 && wF w 17 14 ≤ 10 && wF w 9 7 ≤ 4 && (wF w 20 18 != 2 || wF w 17 14 == 0)
  | 0x1D => none_ 13 0 && wF w 20 18 ≤ 4
  | 0x1E => none_ 12 0
  | _ => true

/-- The planes that a post-operator entry allows (10 Table 10.11). -/
def planesOk (w : W32) : Bool :=
  let p := wPlanes w
  match wOp w with
  | 0x16 => p != 0 && p < 8
  | 0x18 => p == 7
  | 0x19 => p == 15
  | 0x1A | 0x1B => p == 8
  | 0x1E => p == 1 || p == 2 || p == 4 || p == 8
  | _ => p != 0

def isPreOp (c : Nat) : Bool := 1 ≤ c && c ≤ 5
def isPostOp (c : Nat) : Bool := 0x10 ≤ c && c ≤ 0x1E

/-- Slots that DECODE and SPOS share for one operand. -/
def declSlot (w : W32) : Bool × Nat := (wB w, if wOp w == 3 then 1 else wOp w)

/-- Failures of checks 4 to 6 over a whole pre-operator program: (code, index of the word that shows it). -/
def preFails (ws : List W32) : List (Nat × Nat) :=
  let iw := (ws.zipIdx).filter fun q => isPreOp (wOp q.1) && !(wOp q.1 == 3 && !wB q.1)
  let last := ws.length - 1
  let twice := iw.filterMap fun q =>
    if iw.any fun r => r.2 < q.2 && declSlot r.1 == declSlot q.1 then some (4, q.2) else none
  let decl (b : Bool) : Option (W32 × Nat) := iw.find? fun q => declSlot q.1 == (b, 1)
  match decl false, decl true with
  | some da, some db =>
    let fmt (q : W32 × Nat) : Option MFmt := if wOp q.1 == 3 then some .i16 else MFmt.ofCode (wF q.1 20 17)
    match fmt da, fmt db with
    | some fa, some fb =>
      let mode := if (modeOf fa fb).isNone then [(5, Nat.max da.2 db.2)] else []
      let one (b : Bool) (d : W32 × Nat) (f : MFmt) : List (Nat × Nat) :=
        let find (c : Nat) : Option Nat := (iw.find? fun q => wB q.1 == b && wOp q.1 == c).map (·.2)
        let spos := wOp d.1 == 3
        let tagged := !spos && d.1.getLsbD 16 && (f == .a8 || f == .a4 || f == .i64 || f == .i16)
        let needZ := !spos && (f == .a8 || f == .a4)
        let scinOk := f == .e2m1 || f == .e4m3 || f == .e5m2
        let sp := sposOf d.1
        let samples := sp.1 * sp.1 * sp.2.1
        (if tagged then [(6, d.2)] else [])
          ++ (match find 2 with
              | some i => if needZ then [] else [(6, i)]
              | none => if needZ then [(6, last)] else [])
          ++ (match find 5 with | some i => if scinOk then [] else [(6, i)] | none => [])
          ++ (match find 4 with | some i => if spos || f == .i64 || f == .i16 then [(6, i)] else [] | none => [])
          ++ (if spos && (samples ≤ 16 * sp.2.2 || 256 < samples) then [(6, d.2)] else [])
      twice ++ mode ++ one false da fa ++ one true db fb
    | _, _ => twice
  | _, _ => twice ++ [(4, last)]

/-- Failures of the word-by-word checks. -/
def wordFails (pre : Bool) (ws : List W32) : List (Nat × Nat) :=
  let n := ws.length
  (ws.zipIdx).flatMap fun q =>
    let w := q.1
    let known := if pre then isPreOp (wOp w) else isPostOp (wOp w)
    (if known then [] else [(1, q.2)])
      ++ (if known && !(if pre then preFieldsOk w else postFieldsOk w) then [(2, q.2)] else [])
      ++ (if wLast w != (q.2 + 1 == n) then [(3, n - 1)] else [])
      ++ (if !pre && known && !planesOk w then [(7, q.2)] else [])
      ++ (if !pre && wOp w == 0x1B && !(ws.take q.2).any (fun x => wOp x == 0x1A) then [(8, q.2)] else [])

/-- The check code and word index with which a program is refused, none when it is accepted. -/
def programFault (pre : Bool) (ws : List W32) : Option (Nat × Nat) :=
  let fails := wordFails pre ws ++ (if pre then preFails ws else [])
  let code := fails.foldl (fun (m : Nat) q => if m == 0 || q.1 < m then q.1 else m) 0
  if code == 0 then none
  else some (code, (fails.filter fun q => q.1 == code).foldl (fun (m : Nat) q => Nat.min m q.2) 31)

/-! ## Accumulation -/

/-- One level of the tree of 10 R294. -/
def treeLevel : List (Fp × W32) → List (Fp × W32)
  | a :: b :: t => (let r := Fp.add .rne a.1 b.1; (r.1, a.2 ||| b.2 ||| r.2)) :: treeLevel t
  | l => l

def treeSum : Nat → List (Fp × W32) → Fp × W32
  | 0, l => l.headD (.fin false 0 0, 0)
  | n + 1, l => treeSum n (treeLevel l)

/-- A value added into an FP32 accumulator element. -/
def accAdd (acc : Nat) (x : Fp × W32) : Nat × W32 :=
  let step := deliver fmt32 .rne false x
  let r := deliver fmt32 .rne false (Fp.add .rne (fmt32.unpack acc) (fmt32.unpack step.1))
  (r.1, step.2 ||| r.2)

/-- K-steps of a floating mode (10 R294): `n` of them, `ks` elements each. -/
def fpSteps (ks : Nat) : Nat → List Fp → List Fp → Nat × W32 → Nat × W32
  | 0, _, _, acc => acc
  | n + 1, a, b, acc =>
    let r := accAdd acc.1 (treeSum 6 (List.zipWith Fp.mul (a.take ks) (b.take ks)))
    fpSteps ks n (a.drop ks) (b.drop ks) (r.1, acc.2 ||| r.2)

def dot (a b : List Int) : Int := (List.zipWith (· * ·) a b).foldl (· + ·) 0

/-- Status bits of the integer accumulators (10 Table 10.15). -/
def xFXO : W32 := 0x20
def xIOV : W32 := 0x40

/-- K-steps of an integer mode (10 R296), into an accumulator of `w` bits. -/
def intSteps (w ks : Nat) (flag : W32) : Nat → List Int → List Int → Nat × W32 → Nat × W32
  | 0, _, _, acc => acc
  | n + 1, a, b, acc =>
    let v := sgn acc.1 w + dot (a.take ks) (b.take ks)
    let out := v < -(2 ^ (w - 1)) || 2 ^ (w - 1) - 1 < v
    intSteps w ks flag n (a.drop ks) (b.drop ks) ((Int.emod v (2 ^ w)).toNat, if out then acc.2 ||| flag else acc.2)

/-- Groups of the affine modes (10 R295): integers q − z in spans of `g`, with each span's scales. -/
def affSteps (g : Nat) : Nat → List Int → List Int → List (Fp × Fp) → Nat × W32 → Nat × W32
  | 0, _, _, _, acc => acc
  | n + 1, a, b, sc, acc =>
    let s := sc.headD (.fin false 0 0, .fin false 0 0)
    let p := Fp.mul s.1 s.2
    let x := Fp.mul (intFp (dot (a.take g) (b.take g))) p.1
    let r := accAdd acc.1 (x.1, p.2 ||| x.2)
    affSteps g n (a.drop g) (b.drop g) (sc.drop 1) (r.1, acc.2 ||| r.2)

/-! ## SPOS (10 Tables 10.9, 10.10) -/

def sampleOffsets (n : Nat) : List (Nat × Nat) :=
  match n with
  | 1 => [(128, 128)]
  | 2 => [(192, 192), (64, 64)]
  | 4 => [(96, 32), (224, 96), (32, 160), (160, 224)]
  | _ => [(144, 96), (112, 160), (208, 176), (80, 64), (48, 208), (16, 112), (176, 16), (240, 240)]

/-- Column j of SPOS: (dx, dy, 1), K elements 3 to 7 zero. -/
def sposColumn (w n c j : Nat) : List Int :=
  let k := 16 * c + j
  let p := k / n
  let o := (sampleOffsets n).getD (k % n) (0, 0)
  [Int.ofNat (256 * (p % w) + o.1), Int.ofNat (256 * (p / w) + o.2), 1, 0, 0, 0, 0, 0]

/-! ## Values of the post stage -/

/-- A working value (10 R302): an integer of the mode's type, or FP32 bits. -/
inductive PV where
  | int (x : Int)
  | fp (b : Nat)
  deriving DecidableEq, Repr

def PV.exact : PV → Fp
  | .int x => intFp x
  | .fp b => fmt32.unpack b

/-- The conversion that floating micro-ops begin with (10 R303). -/
def PV.toFp : PV → Nat × W32
  | .int x => deliver fmt32 .rne false (intFp x, 0)
  | .fp b => (b, 0)

/-- One operation in FP32 under RNE. -/
def f32Op (x : Fp × W32) : Nat × W32 := deliver fmt32 .rne false x
def f32 (b : Nat) : Fp := fmt32.unpack b

def f32Mul (a b : Nat × W32) : Nat × W32 := let r := f32Op (Fp.mul (f32 a.1) (f32 b.1)); (r.1, a.2 ||| b.2 ||| r.2)
def f32Add (a b : Nat × W32) : Nat × W32 := let r := f32Op (Fp.add .rne (f32 a.1) (f32 b.1)); (r.1, a.2 ||| b.2 ||| r.2)
def f32Fma (a b c : Nat × W32) : Nat × W32 :=
  let r := f32Op (Fp.fma .rne (f32 a.1) (f32 b.1) (f32 c.1)); (r.1, a.2 ||| b.2 ||| c.2 ||| r.2)
def f32Sfu (g : W32 → Nat × W32) (a : Nat × W32) : Nat × W32 := let r := g (BitVec.ofNat 32 a.1); (r.1, a.2 ||| r.2)
def f32MinMax (isMax : Bool) (a b : Nat × W32) : Nat × W32 :=
  let r := deliverExact fmt32 (minMax isMax false (f32 a.1) (f32 b.1)); (r.1, a.2 ||| b.2 ||| r.2)
def f32Neg (a : Nat × W32) : Nat × W32 := (if a.1 < 2 ^ 31 then a.1 + 2 ^ 31 else a.1 - 2 ^ 31, a.2)

/-- ACT (10 Table 10.12); `c` is sc n [31:0]. -/
def actVal (fn : Nat) (v : Nat × W32) (c : Nat) : Nat × W32 :=
  let k (b : Nat) : Nat × W32 := (b, 0)
  let one := k 0x3F800000
  let sigmoid := f32Sfu frcp32 (f32Add one (f32Sfu fexp232 (f32Mul (f32Neg v) (k 0x3FB8AA3B))))
  match fn with
  | 0 => f32MinMax true v (k 0)
  | 1 => if (f32 v.1).isNan then (fmt32.qnan, v.2 ||| (nanOf [f32 v.1]).2)
         else if Fp.cmp (f32 v.1) (f32 0) != .lt then v else f32Mul v (k c)
  | 2 => sigmoid
  | 3 => f32Mul v sigmoid
  | 4 => f32Sfu ftanh32 v
  | 5 => f32Sfu fexp232 v
  | _ =>
    let w := f32Fma (f32Mul (k 0x3D372713) (f32Mul v v)) v v
    f32Mul (f32Mul (k 0x3F000000) v) (f32Add one (f32Sfu ftanh32 (f32Mul (k 0x3F4C422A) w)))

/-- The value of a format nearest a number: pattern, value and conditions; none above its range (10 Table 10.13). -/
def nearest (f : Fmt) (mx : Nat × Int) (mode : RMode) (neg : Bool) (m : Nat) (e : Int) : Option (Nat × Fp × W32) :=
  if m = 0 then some (f.signBit neg, .fin neg 0 0, 0)
  else
    let u := roundTo mode neg m e (f.fb + 1)
    if dyCmp u.1 u.2.1 mx.1 mx.2 == .gt then none
    else
      let q := max (topExp m e - Int.ofNat f.fb) (f.emin - Int.ofNat f.fb)
      let r := roundAt mode neg m e q
      let tiny := decide (topExp u.1 u.2.1 < f.emin)
      some (f.pack neg r.1 q, .fin neg r.1 q, if r.2 then (if tiny then xNX ||| xUF else xNX) else 0)

/-- Largest finite value of a floating QUANT format. -/
def quantMax (code : Nat) : Nat × Int :=
  match code with
  | 0 => (255, 120) | 1 => (2047, 5) | 2 => (14, 5) | 3 => (7, 13) | 4 => (3, 1) | _ => (16777215, 104)

def quantFmt (code : Nat) : Fmt :=
  match code with
  | 0 => fmtBf | 1 => fmt16 | 2 => fmtE4M3 | 3 => fmtE5M2 | 4 => fmtE2M1 | _ => fmt32

def quantNan (code : Nat) : Nat := if code == 2 then 0x7F else (quantFmt code).qnan

/-- A number in a floating format of QUANT or WRITE (10 Tables 10.13, 10.14). -/
def quantFp (code : Nat) (mode : RMode) (sat : Bool) (x : Fp) : Nat × Fp × W32 :=
  let f := quantFmt code
  let mx := quantMax code
  let ofnx := xOF ||| xNX
  let top (neg : Bool) : Nat × Fp × W32 := (f.pack neg mx.1 mx.2, .fin neg mx.1 mx.2, ofnx)
  let above (neg isInf : Bool) : Nat × Fp × W32 :=
    if code == 4 || sat then top neg
    else if code == 2 then (0x7F, .nan false, ofnx)
    else (f.infBits neg, .inf neg, if isInf then 0 else ofnx)
  match x with
  | .nan sig =>
    if code == 4 then (0, .fin false 0 0, xNV)
    else (quantNan code, .nan false, if sig then xNV else 0)
  | .inf n => above n true
  | .fin n m e =>
    match nearest f mx mode n m e with
    | some r => r
    | none => above n false

/-- Width and bounds of an integer format. -/
def quantInt (code : Nat) : Nat × Int × Int :=
  match code with
  | 5 => (8, -128, 127) | 6 => (8, 0, 255) | 7 => (4, -8, 7) | 8 => (4, 0, 15) | _ => (32, -(2 ^ 31), 2 ^ 31 - 1)

/-- QUANT's and WRITE's encoding: the pattern, the value and the conditions. -/
def quantVal (code : Nat) (mode : RMode) (sat : Bool) (z : Nat) (x : Fp) : Nat × Fp × W32 :=
  if code ≤ 4 || code == 9 then quantFp code mode sat x
  else
    let b := quantInt code
    let zz : Int := if code == 5 || code == 7 then sgn z 8 else Int.ofNat z
    let out (v : Int) (fl : W32) : Nat × Fp × W32 := ((Int.emod v (2 ^ b.1)).toNat, intFp v, fl)
    match x with
    | .nan _ => out 0 xNV
    | .inf n => out (if n then b.2.1 else b.2.2) (xOF ||| xNX)
    | .fin n m e =>
      let r := roundInt mode n m e
      let v := (if n then -(Int.ofNat r.1) else Int.ofNat r.1) + zz
      if v < b.2.1 then out b.2.1 (xOF ||| xNX)
      else if b.2.2 < v then out b.2.2 (xOF ||| xNX)
      else out v (if r.2 then xNX else 0)

/-- Bits of an element of a WRITE format. -/
def writeBits (code : Nat) : Nat :=
  match code with
  | 0 | 1 => 16 | 2 | 3 | 5 | 6 => 8 | 4 | 7 | 8 => 4 | _ => 32

/-- ZTEST's depth (10 Table 10.11); none for a NaN. -/
def depthOf (v : PV) (sh : Nat) : Option Nat :=
  let clamp (x : Int) : Nat := if x < 0 then 0 else Nat.min x.toNat (2 ^ 32 - 1)
  match v with
  | .int x => some (clamp (Int.fdiv x (2 ^ sh)))
  | .fp b =>
    match fmt32.unpack b with
    | .nan _ => none
    | .inf n => some (if n then 0 else 2 ^ 32 - 1)
    | .fin n m e =>
      let r := roundInt .rdn n m (e - Int.ofNat sh)
      some (if n then 0 else Nat.min r.1 (2 ^ 32 - 1))

def zCompare (c : Nat) (a b : Nat) : Bool :=
  match c with
  | 0 => false | 1 => a < b | 2 => a == b | 3 => a ≤ b | 4 => b < a | 5 => a != b | 6 => b ≤ a | _ => true

/-- EDGE's rule on E and the row's a and b (10 R304). -/
def covered (e : PV) (a b : Int) : Bool :=
  match e.exact with
  | .nan _ => false
  | .inf n => !n
  | .fin n m _ => if m = 0 then (0 < a || (a == 0 && b < 0)) else !n

end Sys2Proof.Machine
end

