-- ==== Sys2Proof/Machine/MxOps.lean ====
section
/-!
DEFINITION. The matrix engine's shared operations (10, 11): tiles and accumulator units of a team, the issue of its
instructions (11 R309-R312), the team order (10 R282), and the accesses its commands make (11 R319).
-/

namespace Sys2Proof.Machine

/-! ## Tiles, units and slots -/

def tileKey (q t : Nat) : Nat := (q * 32 + t) * 2048
def sideKey (q t : Nat) : Nat := (q * 32 + t) * 32
def tileId (q t : Nat) : Nat := q * 32 + t

/-- A store's cells of `[lo, lo + n)` as one little-endian number of `w`-bit cells. -/
def sliceNat {w : Nat} (m : Store w) (lo n : Nat) : Nat :=
  (Store.slice m lo (lo + n)).foldl (fun a p => a + p.2.toNat * 2 ^ (w * p.1)) 0

/-- A tile register as one number of 16,384 bits (10 R283). -/
def Team.tileNat (t : Team) (q n : Nat) : Nat := sliceNat t.tiles (tileKey q n) 2048

/-- Bytes of a tile. -/
def Team.tileLe (t : Team) (q n off len : Nat) : Nat := sliceNat t.tiles (tileKey q n + off) len

def Team.side (t : Team) (q n e : Nat) : Nat := (Store.read t.sidecars (sideKey q n + e)).toNat

def Team.setTile (t : Team) (q n off : Nat) (l : List Byte) : Team :=
  { t with tiles := Store.blit t.tiles (tileKey q n + off) l }

def Team.setSide (t : Team) (q n e : Nat) (v : BitVec 16) : Team :=
  { t with sidecars := Store.write t.sidecars (sideKey q n + e) v }

def Team.cleanTile (t : Team) (q n : Nat) : Team := { t with tilePoison := t.tilePoison.filter fun x => x != tileId q n }

def Team.zeroTile (t : Team) (q n : Nat) : Team :=
  { t.cleanTile q n with
    tiles := Store.clear t.tiles (tileKey q n) (tileKey q n + 2048)
    sidecars := Store.clear t.sidecars (sideKey q n) (sideKey q n + 32) }

def Team.unitsNat (t : Team) (u n : Nat) : Nat := sliceNat t.acc (u * 1024) (n * 1024)

def Team.setUnits (t : Team) (u : Nat) (l : List Byte) : Team := { t with acc := Store.blit t.acc (u * 1024) l }

def Team.cleanUnits (t : Team) (u n : Nat) : Team :=
  { t with accPoison := t.accPoison.filter fun x => !(u ≤ x && x < u + n) }

def Team.zeroUnits (t : Team) (u n : Nat) : Team :=
  { t.cleanUnits u n with acc := Store.clear t.acc (u * 1024) ((u + n) * 1024) }

/-- The words of a stage program, up to its last one. -/
def progWords (m : Store 32) (base : Nat) : Nat → List W32
  | 0 => []
  | n + 1 =>
    let w := Store.read m base
    if wLast w then [w] else w :: progWords m (base + 1) n

/-- The program in a slot, none when the slot is empty. -/
def Team.program (t : Team) (pre : Bool) (slot : Nat) : Option (List W32) :=
  if pre then (if t.preLoaded.contains slot then some (progWords t.preSlots (8 * slot) 8) else none)
  else (if t.postLoaded.contains slot then some (progWords t.postSlots (32 * slot) 32) else none)

/-- A slot loaded, or emptied by the empty program. -/
def Team.setProgram (t : Team) (pre : Bool) (slot : Nat) (ws : List W32) : Team :=
  let t := { t with paramPoison := t.paramPoison.filter fun x => x != (if pre then slot else 16 + slot) }
  if pre then
    { t with
      preSlots := Store.blit t.preSlots (8 * slot) (ws ++ List.replicate (8 - ws.length) 0)
      preLoaded := t.preLoaded.filter (fun x => x != slot) ++ (if ws.isEmpty then [] else [slot]) }
  else
    { t with
      postSlots := Store.blit t.postSlots (32 * slot) (ws ++ List.replicate (32 - ws.length) 0)
      postLoaded := t.postLoaded.filter (fun x => x != slot) ++ (if ws.isEmpty then [] else [slot]) }

/-! ## Commands of a team -/

/-- Instructions that enter the team order (10 R282, 12 R348). -/
def Op.isMatrix (o : Op) : Bool :=
  match o.instr with
  | .mma _ | .mmat _ | .mmafx _ | .tld _ | .tst _ | .tzero .. | .accld _ | .accst _ | .accz .. | .sclw .. | .sclr ..
  | .popld _ | .prepld _ | .smplg _ => true
  | _ => false

def Op.isSlotLoad (o : Op) : Bool :=
  match o.instr with
  | .popld _ | .prepld _ => true
  | _ => false

/-- Uncompleted matrix commands of a team, in order of acceptance. -/
def State.mxOps (s : State) (team : Nat) : List Op :=
  s.ops.filter fun o => o.isMatrix && (match s.group? o.gid with | some g => g.team == team | none => false)

/-- A further instruction is held: 16 are uncompleted, or a PREPLD or POPLD is (11 R312). -/
def State.mxFull (s : State) (team : Nat) : Bool :=
  16 ≤ (s.mxOps team).length || (s.mxOps team).any Op.isSlotLoad

/-- A number with its loop counter, as it stands before the instruction (10 R285). -/
def Group.mxNum (g : Group) (n : Nat) (lc : Option (BitVec 2)) : Nat :=
  n + match lc with
    | some c => (g.lc c).val.toNat
    | none => 0

def Group.tileNum (g : Group) (f : TileF) : Nat :=
  match f.lc with
  | some _ => g.mxNum f.n.toNat f.lc % 32
  | none => f.n.toNat

def Group.accNum (g : Group) (f : AccF) : Nat := g.mxNum f.n.toNat f.lc

/-- Each counter named advances once (10 R285). -/
def Group.advanceLcs (g : Group) (l : List (Option (BitVec 2))) : Group :=
  ([0, 1, 2, 3] : List (BitVec 2)).foldl (fun g c => if l.contains (some c) then g.setLc c ((g.lc c).add 1) else g) g

/-- The entry for numbers formed from loop counters (14 Table 14.16). -/
def numCap (lcs : List (Option (BitVec 2))) (a b acc : Nat) : List Cap :=
  if lcs.any Option.isSome then [⟨6, 0, 0, BitVec.ofNat 64 (a + 256 * b + 65536 * acc)⟩] else []

/-- Numbers of a command: tile A, tile B and accumulator index, from its record where a counter formed them. -/
def Op.mxNums (o : Op) : Nat × Nat × Nat :=
  match o.caps.find? fun c => c.kind == 6 with
  | some c => (fld c.value 7 0, fld c.value 15 8, fld c.value 25 16)
  | none =>
    match o.instr with
    | .mma x | .mmat x | .mmafx x => (x.ta.n.toNat, x.tb.n.toNat, x.acc.n.toNat)
    | .tld x | .tst x => (x.t.n.toNat, 0, 0)
    | .tzero _ t _ => (t.n.toNat, 0, 0)
    | .accld x | .accst x => (0, 0, x.acc.n.toNat)
    | .accz _ a _ => (0, 0, a.n.toNat)
    | _ => (0, 0, 0)

/-- A matrix fault's record (10 R308; log 30). -/
def matrixFault (detail : Nat) (clause : BitVec 48) (word run : Nat) : FaultRec :=
  { cause := 8, detail := BitVec.ofNat 8 detail, fields := plainFields clause word run, lanes := 0, service := none }

/-- A command stops whole with a fault. -/
def Op.stopWith (o : Op) (f : FaultRec) : Op :=
  { o with
    fault := some f
    parts := o.parts.map fun (p : Part) => if p.st == .done then p else { p with st := .faulted } }

/-- The command faults at its acceptance, or later in its post program. -/
def mxFault (s : State) (o : Op) (detail : Nat) : Out :=
  .next (s.setOp (o.stopWith (matrixFault detail o.clause o.word.toNat o.run.toNat)))

/-- Where an operation keeps that it captured a program from a poisoned slot (10 R288, R298). -/
def captureKey : Nat := 2 ^ 30

/-- At its issue an operation reads the slots that it names, the post slot where NP is 0 (10 R298). -/
def captureMark (i : Instr) (e : Env) (low : Nat) : Store 8 :=
  match i with
  | .mma x | .mmat x | .mmafx x =>
    let p := e.src64 x.c low
    if e.t.paramPoison.contains (fld p 3 0) || (!p.getLsbD 16 && e.t.paramPoison.contains (16 + fld p 7 4)) then
      Store.write [] captureKey 1
    else []
  | _ => []

/-- Issue of a matrix instruction (11 R309, R312): without an executing lane it acts on nothing and its flag counts as
completed; the lane pipe holds it while the engine is full; `check` gives the detail of a within-clause fault (R322). -/
def mxIssue (s : State) (i : Instr) (k : BitVec 3) (lcs : List (Option (BitVec 2))) (flagged pushes : Bool)
    (caps : Env → Nat → List Cap) (check : Env → Nat → Nat) (f : Env → Nat → Team → Team) : Out :=
  withEnv s fun e =>
    match lowestLane (e.lanes k) with
    | none =>
      if flagged then .next (s.advance (if pushes then e.g.push 0 fun _ => 0 else e.g) e.r.bind) else wordDone s e e.g
    | some low =>
      if s.mxFull e.t.id then .next (s.hold e)
      else if check e low != 0 then parkWord s e e.g (matrixFault (check e low) e.r.addr e.r.idx e.r.runNo)
      else
        let g := e.g.advanceLcs lcs
        let o := { newOp s e i (laneBit low) (caps e low) [] with buf := captureMark i e low }
        let s := s.setTeam (f e low e.t)
        if flagged then acceptFlag s { e with g := g } o pushes else accept s e g o

def noCheck (_ : Env) (_ : Nat) : Nat := 0
def sameTeam (_ : Env) (_ : Nat) (t : Team) : Team := t

/-- sc0-sc15 as captured (10 R298). -/
def scCaps (t : Team) : List Cap := (List.range 16).map fun n => ⟨2, n, 0, Store.read t.sc n⟩

def Op.sc (o : Op) (n : Nat) : W64 := (capValue o.caps 2 n 0).getD 0

def Op.preWords (o : Op) : List W32 := (o.caps.filter fun c => c.kind == 4).map fun c => c.value.setWidth 32
def Op.postWords (o : Op) : List W32 := (o.caps.filter fun c => c.kind == 5).map fun c => c.value.setWidth 32

/-! ## The team order (10 R282) -/

/-- What a command reads and writes: tiles, and spans of units; `alone` when it must not pass or be passed. -/
structure MxUse where
  tr : List Nat
  tw : List Nat
  ur : List (Nat × Nat)
  uw : List (Nat × Nat)
  alone : Bool
  deriving DecidableEq, Repr

def spansMeet (a b : List (Nat × Nat)) : Bool := a.any fun x => b.any fun y => x.1 < y.1 + y.2 && y.1 < x.1 + x.2
def tilesMeet (a b : List Nat) : Bool := a.any fun x => b.contains x

def MxUse.clash (p o : MxUse) : Bool :=
  p.alone || o.alone || tilesMeet p.tw (o.tr ++ o.tw) || tilesMeet p.tr o.tw
    || spansMeet p.uw (o.ur ++ o.uw) || spansMeet p.ur o.uw

/-- Tiles that a stage program names: read, and written (10 R286). -/
def preTiles (ws : List W32) : List Nat :=
  ws.filterMap fun w => if wOp w == 2 then some (wF w 18 14) else if wOp w == 5 then some (wF w 20 16) else none
def postTilesRead (ws : List W32) : List Nat :=
  ws.filterMap fun w => if (wOp w == 0x11 || wOp w == 0x12) && wF w 20 19 != 0 then some (wF w 18 14) else none
def postTilesWritten (ws : List W32) : List Nat :=
  ws.filterMap fun w => if wOp w == 0x1C && wF w 20 18 == 1 then some (wF w 5 1) else none

/-- The parameter block of an MMA (11 Table 11.2). -/
def Op.block (o : Op) : W64 := o.cap 2 o.low

def Op.isFx (o : Op) : Bool := match declOf o.preWords false with | some d => d.fmt == .i64 | none => false

/-- Units per quadrant of a product. -/
def Op.unitW (o : Op) : Nat := if o.isFx then 4 else 1

def Op.quads (o : Op) : List Nat := (List.range 4).filter fun q => o.block.getLsbD (8 + q)

def Op.count (o : Op) : Nat :=
  match o.instr with
  | .accz .. => fld (o.cap 1 o.low) 31 0
  | _ => fld (o.cap 2 o.low) 31 0

def Op.mxUse (o : Op) : MxUse :=
  let n := o.mxNums
  match o.instr with
  | .mma _ | .mmat _ | .mmafx _ =>
    let us := o.quads.map fun q => (n.2.2 + o.unitW * q, o.unitW)
    ⟨[n.1, n.2.1] ++ preTiles o.preWords ++ postTilesRead o.postWords, postTilesWritten o.postWords, [], us, false⟩
  | .tld _ | .tzero .. => ⟨[], [n.1], [], [], false⟩
  | .tst _ => ⟨[n.1], [], [], [], false⟩
  | .accld _ | .accz .. => ⟨[], [], [], [(n.2.2, o.count)], false⟩
  | .accst _ => ⟨[], [], [(n.2.2, o.count)], [], false⟩
  | .smplg x => ⟨[], [x.texel.toNat, x.weight.toNat], [], [], false⟩
  | .sclw _ _ r | .sclr _ _ r => ⟨[], [], [], [], r == 16⟩
  | _ => ⟨[], [], [], [], false⟩

/-- A command that moves data to or from memory. -/
def Op.moves (o : Op) : Bool :=
  match o.instr with
  | .tld _ | .tst _ | .accld _ | .accst _ | .popld _ | .prepld _ => true
  | .mma _ | .mmat _ | .mmafx _ => !o.postWords.isEmpty
  | _ => false

/-- No earlier command of the team stands in the way.  Commands that use memory stay in order too, until one faults:
the spec leaves that order open (log 12). -/
def State.mxTurn (s : State) (team : Nat) (o : Op) : Bool :=
  (s.mxOps team).all fun p =>
    o.id ≤ p.id || (!p.mxUse.clash o.mxUse && (p.fault.isSome || !(p.moves && o.moves)))

/-! ## Accesses of the engine's commands (11 R319) -/

/-- A memory fault of a matrix command at a part. -/
def mxMemFault (s : State) (o : Op) (sp : Space) (acc kind detail level st : Nat) (addr : W64) : FaultRec :=
  memFault s.device acc (spaceNum sp) 0 kind detail level st o.clause o.word.toNat o.run.toNat o.low addr addr

def mxStop (s : State) (o : Op) (i : Nat) (p : Part) (f : FaultRec) : Out :=
  .next (s.setOp ((o.setPart i { p with st := .faulted }).addFault f))

/-- Where `n` bytes of a command's access lie. -/
def mxPlace (s : State) (w : Group × Team × Grid) (o : Op) (a : Acc) (sp : Space) (addr : W64) (n align : Nat) : Where :=
  s.place w.2.1 w.2.2 w.1.grpid.toNat o.low a sp addr n align

/-- A read of a piece as an .si or .nc load, of an access aligned to `align`: its bytes in `f`. -/
def mxRead (s : State) (o : Op) (i : Nat) (p : Part) (align : Nat) (si : Bool) (f : State → Nat → List Byte → Out) : Out :=
  needSome (s.ownerOf o) fun w =>
    need (p.st == .waiting && p.held.isNone && s.engineClear o) <|
    if p.addr.toNat % align != 0 then mxStop s o i p (mxMemFault s o p.sp 0 8 (spaceNum p.sp) 0 0 p.addr)
    else
    match p.site (mxPlace s w o .matrix p.sp (p.addr + BitVec.ofNat 64 p.off) p.len 1) with
    | .hold page => holdPart s o i p page
    | .bad k d l st => mxStop s o i p (mxMemFault s o p.sp 0 k d l st p.addr)
    | .at key _ =>
      if s.scoreHold o.gid o.id key p.len false then .refused .eventNotEnabled
      else request s o i p key none <|
      if s.poisoned key then
        let ls := s.leafLS o.core p.sp (p.addr + BitVec.ofNat 64 p.off)
        mxStop s o i p (mxMemFault s o p.sp 0 6 1 ls.1 ls.2 p.addr)
      else
        let r : Req := if si then .si else .nc
        let owner := if isHbm key && !s.lineHit o.core key r then s.otherOwner o.core (blockOf key) else none
        let line := if isHbm key then s.line? o.core (blockOf key) else none
        let bytes := match line with
          | some ln => if lineAnswers r ln then Store.readList ln.data (key - blockOf key) p.len else s.bytes key p.len
          | none => s.bytes key p.len
        let t := if isHbm key && si && !s.lineHit o.core key r then
            s.addLine ⟨o.core, blockOf key, .si, blockData s (blockOf key), 0⟩ else s
        withOwner s o i p owner key false false (f t key bytes)

/-- A write of a piece as a .wt or .nc store. -/
def mxWrite (s : State) (o : Op) (i : Nat) (p : Part) (align : Nat) (wt lose : Bool) (bytes : List Byte) (f : State → Nat → State) : Out :=
  needSome (s.ownerOf o) fun w =>
    need (p.st == .waiting && p.held.isNone && s.storeClear o) <|
    if p.addr.toNat % align != 0 then mxStop s o i p (mxMemFault s o p.sp 1 8 (spaceNum p.sp) 0 0 p.addr)
    else
    match p.site (mxPlace s w o .store p.sp (p.addr + BitVec.ofNat 64 p.off) p.len 1) with
    | .hold page => holdPart s o i p page
    | .bad k d l st => mxStop s o i p (mxMemFault s o p.sp 1 k d l st p.addr)
    | .at key _ =>
      if s.scoreHold o.gid o.id key p.len true then .refused .eventNotEnabled
      else request s o i p key none <|
        let fin (s : State) : Out := .next (s.setOp (o.setPart i { p with st := .done }))
        if s.duplicate o.requester p.sent then fin s
        else if !s.inTurn o.requester (blockOf key) (s.lineOf p) then .refused .eventNotEnabled
        else
          let owner := if isHbm key then s.otherOwner o.core (blockOf key) else none
          withOwner s o i p owner key true false <|
            let s := f (s.homeStore o.core key bytes (if wt then .wt else .nc)) key
            let s := (s.touch o.gid key).noted o.requester p.sent
            if lose then .next (s.setOp (o.setPart i p.lose)) else fin s

/-- An access of the post stage at once: its key, or a wait or a fault. -/
inductive MxAt where
  | at (key : Nat)
  | hold
  | page (p : BitVec 32)
  | fault (f : FaultRec)
  deriving DecidableEq, Repr

def postAt (s : State) (o : Op) (sp : Space) (addr : W64) (n : Nat) (store : Bool) : MxAt :=
  match s.ownerOf o with
  | none => .hold
  | some w =>
    match mxPlace s w o (if store then .store else .matrix) sp addr n n with
    | .hold p => .page p
    | .bad k d l st => .fault (mxMemFault s o sp (if store then 1 else 0) k d l st addr)
    | .at key _ =>
      if s.scoreHold o.gid o.id key n store then .hold
      else
      let ls := s.leafLS o.core sp addr
      if !s.pathTo o.core key then .fault (mxMemFault s o sp (if store then 1 else 0) 9 1 ls.1 ls.2 addr)
      else if !store && s.poisoned key then .fault (mxMemFault s o sp 0 6 1 ls.1 ls.2 addr)
      else .at key

def spaceOf (n : Nat) : Space :=
  match n with
  | 0 => .l | 1 => .s | 2 => .c | 3 => .p | _ => .g

/-- A read of the post stage, as .nc. -/
def State.postRead (s : State) (key n : Nat) : Nat × State :=
  let s := if isHbm key then s.recallNow (blockOf key) else s
  (s.le key n, s)

/-- A write of the post stage, as .wt. -/
def State.postWrite (s : State) (o : Op) (key : Nat) (l : List Byte) : State :=
  let s := if isHbm key then s.recallNow (blockOf key) else s
  (s.homeStore o.core key l .wt).touch o.gid key

end Sys2Proof.Machine
end

