-- ==== Sys2Proof/Machine/MxPost.lean ====
section
/-!
DEFINITION. The products of the arrays (10 R280, R281, R290-R296, 11 R315) and the post-operator stage (10 R302-R306,
11 R324, R325).
-/

namespace Sys2Proof.Machine

/-! ## Elements -/

/-- Bit place of element (r, k) of an operand in its tile (10 R283, TRSP). -/
def Decl.pos (d : Decl) (r k : Nat) : Nat := if d.trsp then (16 * k + r) * d.fmt.bits else r * 1024 + k * d.fmt.bits

def rawAt (tile pos w : Nat) : Nat := (tile >>> pos) % 2 ^ w

/-- A scale byte applied (10 R289, R292). -/
def scaleBy (b : Nat) (x : Fp) : Fp := if b == 255 then .nan false else fpScale (Int.ofNat b - 127) x

/-- A floating element, scaled by its block's tag and its explicit scale (10 R292, R293).  `tile` is the tile's number. -/
def elemFp (t : Team) (d : Decl) (q n tile r k : Nat) : Fp :=
  let pos := d.pos r k
  let tag := if d.tagged then t.side q n (pos / 512) else 0
  let f := (tagFmt (tag / 256)).getD d.fmt
  let x := f.fp d.ftz (rawAt tile pos d.fmt.bits)
  let x := if tag / 256 == 0 then x else scaleBy (tag % 256) x
  match d.scin with
  | some (st, row) => scaleBy (t.tileLe q st (128 * row + 8 * r + k / 32) 1) x
  | none => x

/-- An integer element. -/
def elemInt (d : Decl) (tile r k : Nat) : Int :=
  let b := rawAt tile (d.pos r k) d.fmt.bits
  match d.fmt with
  | .s4 => s4Val b
  | .i64 => sgn b 64
  | .i16 => sgn b 16
  | _ => Int.ofNat b

/-- The pair (s, z) of row `r` and group `g` (10 Table 10.9, ZPC). -/
def zpcPair (t : Team) (q tile o r g : Nat) : Fp × Int :=
  let e := 8 * r + g
  let w := t.tileLe q tile (128 * (4 * o + e / 32) + 4 * (e % 32)) 4
  (fmt16.unpack (w % 65536), Int.ofNat (w / 65536 % 256))

def Decl.group (d : Decl) : Nat := match d.zpc with | some z => z.1 | none => 128

/-- Row `r` of an affine operand: q − z for each element. -/
def affRow (t : Team) (d : Decl) (q tile r K : Nat) : List Int :=
  (List.range K).map fun k =>
    let z := match d.zpc with | some (g, zt, o) => (zpcPair t q zt o r (k / g)).2 | none => 0
    elemInt d tile r k - z

/-- Scales of the spans of length `g` of row `r`. -/
def affScales (t : Team) (d : Decl) (q r g K : Nat) : List Fp :=
  (List.range (K / g)).map fun n =>
    match d.zpc with
    | some (gz, zt, o) => (zpcPair t q zt o r (g * n / gz)).1
    | none => .fin false 1 0

/-! ## A product -/

/-- Accumulator element `i`, `j` of a product whose operand rows are given as functions. -/
structure Rows where
  fpA : List (List Fp)
  fpB : List (List Fp)
  inA : List (List Int)
  inB : List (List Int)
  scA : List (List Fp)
  scB : List (List Fp)
  deriving DecidableEq, Repr

/-- Operand rows of quadrant `q`, with B read from quadrant `bq` (10 R281). -/
def rowsOf (t : Team) (m : Mode) (da db : Decl) (ta tb q bq : Nat) : Rows :=
  let A := t.tileNat q ta
  let B := t.tileNat bq tb
  let K := m.rowK
  let r16 := List.range 16
  let ks := List.range K
  let none_ : List (List Fp) := []
  match m with
  | .m16 | .m8f | .m4f =>
    ⟨r16.map fun r => ks.map fun k => elemFp t da q ta A r k, r16.map fun r => ks.map fun k => elemFp t db bq tb B r k,
      [], [], none_, none_⟩
  | .m4s =>
    ⟨none_, none_, r16.map fun r => ks.map fun k => elemInt da A r k, r16.map fun r => ks.map fun k => elemInt db B r k,
      none_, none_⟩
  | .fx =>
    ⟨none_, none_, r16.map fun r => ks.map fun k => elemInt da A r k,
      r16.map fun j => (match db.spos with
        | some (w, n, c) => sposColumn w n c j
        | none => ks.map fun k => elemInt db B j k),
      none_, none_⟩
  | .m8a | .m4a =>
    let g := Nat.min da.group db.group
    ⟨none_, none_, r16.map fun r => affRow t da q A r K, r16.map fun r => affRow t db bq B r K,
      r16.map fun r => affScales t da q r g K, r16.map fun r => affScales t db bq r g K⟩

/-- One element's accumulation over every K-step: the new bits and the conditions. -/
def elemRun (m : Mode) (g : Nat) (R : Rows) (i j acc : Nat) : Nat × W32 :=
  let n := m.rowK / m.ks
  match m with
  | .m16 | .m8f | .m4f => fpSteps m.ks n (R.fpA.getD i []) (R.fpB.getD j []) (acc, 0)
  | .m4s => intSteps 32 m.ks xIOV n (R.inA.getD i []) (R.inB.getD j []) (acc, 0)
  | .fx => intSteps 80 m.ks xFXO n (R.inA.getD i []) (R.inB.getD j []) (acc, 0)
  | .m8a | .m4a => affSteps g (m.rowK / g) (R.inA.getD i []) (R.inB.getD j [])
      (List.zip (R.scA.getD i []) (R.scB.getD j [])) (acc, 0)

/-- Bytes of an accumulator element (10 Table 10.2). -/
def accElem (fx : Bool) (v : Nat) : List Byte :=
  if fx then leBytes 10 v ++ List.replicate 6 (if v / 2 ^ 79 % 2 == 1 then 0xFF else 0) else leBytes 4 v

/-- An element's bits in the units of a tile. -/
def accBits (fx : Bool) (units i j : Nat) : Nat :=
  if fx then rawAt units (8 * (256 * i + 16 * j)) 80 else rawAt units (8 * (64 * i + 4 * j)) 32

/-- MMAT's triangle (11 Table 11.2): none for the other products. -/
def Op.triangle (o : Op) : Option (Bool × Int) :=
  match o.instr with
  | .mmat _ => some (o.block.getLsbD 43, sgn (fld o.block 63 48) 16)
  | _ => none

def Op.keeps (o : Op) (q i j : Nat) : Bool :=
  match o.triangle with
  | none => true
  | some (upper, diag) =>
    let e : Int := Int.ofNat (16 * q + i) + diag
    if upper then e ≤ Int.ofNat j else Int.ofNat j ≤ e

/-- Quadrants whose product is not wholly outside the kept triangle. -/
def Op.liveQuads (o : Op) : List Nat :=
  o.quads.filter fun q => (List.range 16).any fun i => (List.range 16).any fun j => o.keeps q i j

def Op.bQuad (o : Op) (q : Nat) : Nat := if o.block.getLsbD 14 then fld o.block 13 12 else q

/-- The product of one quadrant: new bytes of its unit, and the conditions. -/
def productOf (t : Team) (o : Op) (m : Mode) (da db : Decl) (q : Nat) : List Byte × W32 :=
  let n := o.mxNums
  let fx := m == .fx
  let w := if fx then 4 else 1
  let u := n.2.2 + w * q
  let old := if o.block.getLsbD 15 then 0 else t.unitsNat u w
  let R := rowsOf t m da db n.1 n.2.1 q (o.bQuad q)
  let g := Nat.min da.group db.group
  let live := o.liveQuads.contains q
  let fill := fld (o.sc (fld o.block 47 44)) 31 0
  let es : List (Nat × W32) := (List.range 256).map fun e =>
    let r := if live then elemRun m g R (e / 16) (e % 16) (accBits fx old (e / 16) (e % 16)) else (0, 0)
    if o.keeps q (e / 16) (e % 16) then r else (fill, r.2)
  (es.flatMap fun e => accElem fx e.1, es.foldl (fun x e => x ||| e.2) 0)

/-- Reserved S4 codes read by an operation (10 R291): each stored element counts once. -/
def reservedCodes (t : Team) (o : Op) (da db : Decl) : Nat :=
  let n := o.mxNums
  let tiles := o.liveQuads.foldl (fun (l : List (Nat × Nat)) q =>
    let l := if da.fmt == .s4 && !l.contains (q, n.1) then l ++ [(q, n.1)] else l
    if db.fmt == .s4 && !l.contains (o.bQuad q, n.2.1) then l ++ [(o.bQuad q, n.2.1)] else l) []
  tiles.foldl (fun c x =>
    let T := t.tileNat x.1 x.2
    c + (List.range 4096).countP fun k => rawAt T (4 * k) 4 == 8) 0

/-- Conditions set in MXST, and reserved codes counted (10 R307). -/
def Team.status (t : Team) (fl : W32) (rcc : Nat) : Team :=
  let c := Nat.min (t.mxst.toNat / 65536 + rcc) 65535
  { t with mxst := BitVec.ofNat 32 (c * 65536) ||| (t.mxst &&& 0x7F) ||| (fl &&& 0x7F) }

/-! ## The post-operator stage -/

/-- The stage while it runs. -/
structure Post where
  s : State
  t : Team
  /-- Working values and mask of the row, at 16 × plane + column. -/
  v : List PV
  m : List Bool
  /-- Column registers once loaded: space, base, values; and which columns have changed. -/
  cz : Option (Space × W64 × List Nat)
  czSet : List Bool
  cc : Option (Space × W64 × List Nat)
  ccSet : List Bool
  zq : List Nat
  st : W32
  fault : Option FaultRec
  hold : Bool
  /-- The quiesced page that it waits on (08 R223, R240). -/
  page : Option (BitVec 32)
  /-- The answers of the accesses that an earlier run has made, how many of this run's accesses have been made, and the
  answers of the new ones, newest first. -/
  old : List Nat
  made : Nat
  new : List Nat
  deriving DecidableEq, Repr

def Post.stopped (x : Post) : Bool := x.fault.isSome || x.hold

def planesOf (w : W32) : List Nat := (List.range 4).filter fun q => (wPlanes w).testBit q

def Post.val (x : Post) (q j : Nat) : PV := x.v.getD (16 * q + j) (.fp 0)
def Post.msk (x : Post) (q j : Nat) : Bool := x.m.getD (16 * q + j) false
def Post.setVal (x : Post) (q j : Nat) (v : PV) : Post := { x with v := x.v.set (16 * q + j) v }
def Post.setMsk (x : Post) (q j : Nat) (b : Bool) : Post := { x with m := x.m.set (16 * q + j) b }
def Post.clearMsk (x : Post) (j : Nat) : Post := [0, 1, 2, 3].foldl (fun x q => x.setMsk q j false) x
def Post.raise (x : Post) (fl : W32) : Post := { x with st := x.st ||| fl }

/-- A floating micro-op on each selected element. -/
def Post.each (x : Post) (w : W32) (f : Nat → Nat → Nat × W32 → Nat × W32) : Post :=
  (planesOf w).foldl (fun x q => (List.range 16).foldl (fun (x : Post) j =>
    let r := f q j (x.val q j).toFp
    (x.setVal q j (.fp r.1)).raise r.2) x) x

/-- An access of the program is made once: one that an earlier run made has its answer from then. -/
def Post.once (x : Post) (f : Post → Nat × Post) : Nat × Post :=
  if x.stopped then (0, x)
  else
    match x.old[x.made]? with
    | some v => (v, { x with made := x.made + 1 })
    | none =>
      let r := f x
      if r.2.stopped then r else (r.1, { r.2 with made := x.made + 1, new := r.1 :: x.new })

/-- Bytes read by the stage. -/
def Post.load (x : Post) (o : Op) (sp : Space) (addr : W64) (n : Nat) : Nat × Post :=
  x.once fun x =>
    match postAt x.s o sp addr n false with
    | .hold => (0, { x with hold := true })
    | .page p => (0, { x with hold := true, page := some p })
    | .fault f => (0, { x with fault := some f })
    | .at key => let r := x.s.postRead key n; (r.1, { x with s := r.2 })

/-- Bytes written by the stage. -/
def Post.put (x : Post) (o : Op) (sp : Space) (addr : W64) (l : List Byte) : Post :=
  (x.once fun x =>
    match postAt x.s o sp addr l.length true with
    | .hold => (0, { x with hold := true })
    | .page p => (0, { x with hold := true, page := some p })
    | .fault f => (0, { x with fault := some f })
    | .at key => (0, { x with s := x.s.postWrite o key l })).2

/-- A 4-bit element written into its half of a byte (10 R283). -/
def Post.putNibble (x : Post) (o : Op) (sp : Space) (addr : W64) (hi : Bool) (v : Nat) : Post :=
  (x.once fun x =>
    match postAt x.s o sp addr 1 true with
    | .hold => (0, { x with hold := true })
    | .page p => (0, { x with hold := true, page := some p })
    | .fault f => (0, { x with fault := some f })
    | .at key =>
      let r := x.s.postRead key 1
      let b := if hi then r.1 % 16 + 16 * v else r.1 / 16 * 16 + v
      (0, { x with s := r.2.postWrite o key (leBytes 1 b) })).2

/-- The column base (10 R301). -/
def Op.columnBase (o : Op) : Nat :=
  match declOf o.preWords true with
  | some d => (match d.spos with | some (_, _, c) => 16 * c | none => 0)
  | none => 0

def bufBase (o : Op) (n : Nat) : W64 := (o.sc n) &&& 0xFFFFFFFFFFFF

/-- A column register filled from its buffer, in columns 0 to 15. -/
def Post.columns (x : Post) (o : Op) (sp : Space) (base : W64) (n : Nat) : List Nat × Post :=
  (List.range 16).foldl (fun (r : List Nat × Post) j =>
    let y := r.2.load o sp (base + BitVec.ofNat 64 (n * (o.columnBase + j))) n
    (r.1 ++ [y.1], y.2)) ([], x)

def bufSpace (b : Nat) : Space := if b == 1 then .g else .s

/-- Loaded on first use (10 R302, R305). -/
def Post.needCz (x : Post) (o : Op) (sp : Space) (n : Nat) : Post :=
  match x.cz with
  | some _ => x
  | none =>
    let r := x.columns o sp (bufBase o n) 4
    { r.2 with cz := some (sp, bufBase o n, r.1), czSet := List.replicate 16 false }

def Post.needCc (x : Post) (o : Op) (sp : Space) (n : Nat) : Post :=
  match x.cc with
  | some _ => x
  | none =>
    let r := x.columns o sp (bufBase o n) 8
    { r.2 with cc := some (sp, bufBase o n, r.1), ccSet := List.replicate 16 false }

def Post.czAt (x : Post) (j : Nat) : Nat := match x.cz with | some (_, _, l) => l.getD j 0 | none => 0
def Post.ccAt (x : Post) (j : Nat) : Nat := match x.cc with | some (_, _, l) => l.getD j 0 | none => 0

/-- A vector element: of row 0 by column, or of row 1 by row (10 Table 10.11). -/
def Post.vector (x : Post) (w : W32) (q i j : Nat) : Nat :=
  if wF w 20 19 == 1 then x.t.tileLe q (wF w 18 14) (4 * j) 4 else x.t.tileLe q (wF w 18 14) (128 + 4 * i) 4

/-- SCALE and BIAS. -/
def postScale (o : Op) (w : W32) (i : Nat) (x : Post) : Post :=
  let bad := wF w 20 19 != 0 && (planesOf w).any fun q => x.t.tilePoison.contains (tileId q (wF w 18 14))
  if bad then { x with fault := some (matrixFault 7 o.clause o.word.toNat o.run.toNat) }
  else
    x.each w fun q j v =>
      let y : Nat × W32 := (if wF w 20 19 == 0 then fld (o.sc (wF w 13 10)) 31 0 else x.vector w q i j, 0)
      if wOp w == 0x11 then f32Mul v y else f32Add v y

/-- EDGE (10 R304): a and b of the row of the A tile as it stood for the operation, kept at acceptance. -/
def postEdge (o : Op) (w : W32) (i : Nat) (x : Post) : Post :=
  (planesOf w).foldl (fun x q => (List.range 16).foldl (fun (x : Post) j =>
    let at_ := (q * 16 + i) * 16
    let a := sgn (leNat (Store.readList o.buf at_ 8)) 64
    let b := sgn (leNat (Store.readList o.buf (at_ + 8) 8)) 64
    x.setMsk q j (x.msk q j && covered (x.val q j) a b)) x) x

/-- CMASK. -/
def postCmask (o : Op) (w : W32) (x : Post) : Post :=
  (List.range 16).foldl (fun (x : Post) j =>
    let c := (planesOf w).all (fun q => x.msk q j) && (!w.getLsbD 20 || (o.sc (wF w 19 16)).getLsbD j)
    [0, 1, 2, 3].foldl (fun (x : Post) q => x.setMsk q j c) x) x

/-- BARY (11 R324). -/
def postBary (x : Post) : Post :=
  (List.range 16).foldl (fun (x : Post) j =>
    let e (q : Nat) : Fp := (x.val q j).exact
    let s1 := Fp.add .rne (e 0) (e 1)
    let s := Fp.add .rne s1.1 (e 2)
    if s.1.isZero then ([0, 1, 2].foldl (fun (x : Post) q => x.setVal q j (.fp 0)) x).clearMsk j
    else
      [0, 1, 2].foldl (fun (y : Post) q =>
        let r := deliver fmt32 .rne false (Fp.div (e q) s.1)
        (y.setVal q j (.fp r.1)).raise (r.2 ||| s1.2 ||| s.2)) x) x

/-- A blend factor (11 Table 11.5): `al` picks the constant's alpha half. -/
def blendFactor (o : Op) (w : W32) (code : Nat) (sa da : Nat) (al : Bool) : Nat × W32 :=
  let c := if al then fld (o.sc (wF w 8 5)) 63 32 else fld (o.sc (wF w 8 5)) 31 0
  let inv (b : Nat) : Nat × W32 := f32Add (0x3F800000, 0) (f32Neg (b, 0))
  match code with
  | 0 => (0, 0) | 1 => (0x3F800000, 0) | 2 => (sa, 0) | 3 => inv sa | 4 => (da, 0) | 5 => inv da
  | 6 => (c, 0) | _ => inv c

/-- BLEND (11 R325): one channel's new colour as FP16. -/
def blendChannel (o : Op) (w : W32) (c s d sa da : Nat) : Nat × W32 :=
  let al := c == 3
  let fs := blendFactor o w (if al then wF w 14 12 else wF w 20 18) sa da al
  let fd := blendFactor o w (if al then wF w 11 9 else wF w 17 15) sa da al
  let p := Fp.mul (f32 fs.1) (f32 s)
  let q := Fp.mul (f32 fd.1) (f32 d)
  let sum := Fp.add .rne p.1 q.1
  let out := f32Op (sum.1, fs.2 ||| fd.2 ||| p.2 ||| q.2 ||| sum.2)
  let r := deliver fmt16 .rne false (f32 out.1, 0)
  (r.1, out.2 ||| r.2)

/-- An FP16 as the FP32 of the same value; a NaN keeps its payload, and a signalling one stays so (10 R303). -/
def widen16 (b : Nat) : Nat :=
  if b / 1024 % 32 == 31 then b / 32768 * 2 ^ 31 + 0x7F800000 + b % 1024 * 8192
  else (deliver fmt32 .rne false (fmt16.unpack b, 0)).1

def postBlend (o : Op) (w : W32) (x : Post) : Post :=
  let x := x.needCc o (bufSpace (wF w 0 0)) (wF w 4 1)
  if x.stopped then x
  else
    (List.range 16).foldl (fun (x : Post) j =>
      let vs := (List.range 4).map fun q => (x.val q j).toFp
      let x := (List.range 4).foldl (fun (x : Post) q => (x.setVal q j (.fp (vs.getD q (0, 0)).1)).raise (vs.getD q (0, 0)).2) x
      if !x.msk 0 j then x
      else
        let d (c : Nat) : Nat := widen16 (x.ccAt j / 2 ^ (16 * c) % 65536)
        let rs := (List.range 4).map fun c => blendChannel o w c (vs.getD c (0, 0)).1 (d c) (vs.getD 3 (0, 0)).1 (d 3)
        let new := (List.range 4).foldl (fun n c => n + (rs.getD c (0, 0)).1 * 2 ^ (16 * c)) 0
        let x := rs.foldl (fun (x : Post) r => x.raise r.2) x
        { x with
          cc := x.cc.map fun q => (q.1, q.2.1, q.2.2.set j new)
          ccSet := x.ccSet.set j true }) x

/-- ZTEST (11 R324).  A NaN has no depth: the value is free (log 6). -/
def postZtest (o : Op) (w : W32) (x : Post) : Post :=
  let x := x.needCz o (bufSpace (wF w 7 7)) (wF w 11 8)
  if x.stopped then x
  else
    (List.range 16).foldl (fun (x : Post) j =>
      match depthOf (x.val 3 j) (wF w 17 12) with
      | some z =>
        let x := { x with zq := x.zq.set j z }
        if x.msk 3 j && !zCompare (wF w 20 18) z (x.czAt j) then x.clearMsk j else x
      | none =>
        let r := x.once fun x => let f := x.s.free; (fld f.1 31 0, { x with s := f.2 })
        let x := { r.2 with zq := x.zq.set j r.1 }
        if x.msk 3 j then x.clearMsk j else x) x

/-- ZWRITE. -/
def postZwrite (x : Post) : Post :=
  (List.range 16).foldl (fun (x : Post) j =>
    if x.msk 3 j then
      { x with
        cz := x.cz.map fun q => (q.1, q.2.1, q.2.2.set j (x.zq.getD j 0))
        czSet := x.czSet.set j true }
    else x) x

/-- WRITE (10 Table 10.14). -/
def postWriteOp (o : Op) (w : W32) (i : Nat) (x : Post) : Post :=
  let target := wF w 20 18
  let code := wF w 17 14
  let buf := o.sc (wF w 13 10)
  let sp := spaceOf (wF w 9 7)
  let bits := writeBits code
  (planesOf w).foldl (fun (x : Post) q =>
    let row : W64 := bufBase o (wF w 13 10) + BitVec.ofNat 64 ((16 * q + i) * fld buf 63 48)
    if target == 2 then x.put o sp row (leBytes 2 (natOfBits 16 fun j => x.msk q j))
    else
      (List.range 16).foldl (fun (x : Post) j =>
        if x.stopped || !(w.getLsbD 6 || x.msk q j) then x
        else
          let r := quantVal code .rne (code == 2 || code == 4 || (5 ≤ code && code != 9)) 0 (x.val q j).exact
          let x := x.raise r.2.2
          if target == 0 then
            if bits == 4 then x.putNibble o sp (row + BitVec.ofNat 64 (j / 2)) (j % 2 == 1) r.1
            else x.put o sp (row + BitVec.ofNat 64 (j * (bits / 8))) (leBytes (bits / 8) r.1)
          else
            let n := wF w 5 1
            let off := 128 * i + j * bits / 8
            let old := x.t.tileLe q n off 1
            let l := if bits == 4 then leBytes 1 (if j % 2 == 1 then old % 16 + 16 * r.1 else old / 16 * 16 + r.1)
              else leBytes (bits / 8) r.1
            { x with t := (x.t.setTile q n off l).setSide q n (off / 64) 0 }) x) x

/-- DISCARD: v against x, exactly; false for a NaN but in predicate 3. -/
def postDiscard (o : Op) (w : W32) (x : Post) : Post :=
  let c := f32 (fld (o.sc (wF w 17 14)) 31 0)
  (planesOf w).foldl (fun x q => (List.range 16).foldl (fun (x : Post) j =>
    let v := (x.val q j).exact
    let un := v.isNan || c.isNan
    let r := Fp.cmp v c
    let hit : Bool := match wF w 20 18 with
      | 0 => !un && r == .lt
      | 1 => !un && r != .gt
      | 2 => !un && r == .eq
      | 3 => v.isNan
      | _ => !un && r == .gt
    if hit then x.setMsk q j false else x) x) x

/-- EMITQ: one record for a row with a masked element; the stage holds while the pool is full (14 R381). -/
def postEmit (o : Op) (w : W32) (i : Nat) (x : Post) : Post :=
  (planesOf w).foldl (fun (x : Post) q =>
    if x.stopped || !((List.range 16).any fun j => x.msk q j) then x
    else
      (x.once fun x =>
      match x.s.ownerOf o with
      | none => (0, x)
      | some own =>
        match x.s.outputOf own.2.2 (wF w 20 17) with
        | none => (0, { x with fault := some (o.schedFault 3) })
        | some (h, n, nd) =>
          if nd.recBytes != 16 || nd.type == 4 then (0, { x with fault := some (o.schedFault 3) })
          else if !x.s.poolRoom h 16 then (0, { x with hold := true })
          else
            let l := leBytes 4 (fld (o.sc (wF w 16 13)) 31 0) ++ leBytes 2 i ++ leBytes 2 (natOfBits 16 fun j => x.msk q j)
              ++ leBytes 4 o.columnBase ++ leBytes 4 q
            (0, { x with s := x.s.addRec h.id n o.gid o.id own.2.1.id l .sent })).2) x

/-- One micro-op on one row (10 Table 10.11). -/
def postOp (o : Op) (i : Nat) (x : Post) (w : W32) : Post :=
  if x.stopped then x
  else
    match wOp w with
    | 0x10 => if w.getLsbD 20 then x.each w fun _ _ v => v else x
    | 0x11 | 0x12 => postScale o w i x
    | 0x13 => x.each w fun _ _ v => actVal (wF w 20 17) v (fld (o.sc (wF w 16 13)) 31 0)
    | 0x14 => x.each w fun _ _ v =>
        let c := o.sc (wF w 20 17)
        f32MinMax false (f32MinMax true v (fld c 31 0, 0)) (fld c 63 32, 0)
    | 0x15 => x.each w fun _ _ v =>
        let r := quantVal (wF w 20 17) (if w.getLsbD 16 then .rtz else .rne) (w.getLsbD 15) (wF w 14 7) (f32 v.1)
        ((deliver fmt32 .rne false (r.2.1, 0)).1, v.2 ||| r.2.2)
    | 0x16 => postEdge o w i x
    | 0x17 => postCmask o w x
    | 0x18 => postBary x
    | 0x19 => postBlend o w x
    | 0x1A => postZtest o w x
    | 0x1B => postZwrite x
    | 0x1C => postWriteOp o w i x
    | 0x1D => postDiscard o w x
    | _ => postEmit o w i x

/-- The row's working values and mask from the accumulator (10 R302). -/
def rowStart (t : Team) (o : Op) (m : Mode) (i : Nat) (x : Post) : Post :=
  let fx := m == .fx
  let w := if fx then 4 else 1
  let us := (List.range 4).map fun q => if o.quads.contains q then t.unitsNat (o.mxNums.2.2 + w * q) w else 0
  let cell (q j : Nat) : PV :=
    if !o.quads.contains q then .fp 0
    else
      let b := accBits fx (us.getD q 0) i j
      match m with
      | .fx => .int (sgn b 80)
      | .m4s => .int (sgn b 32)
      | _ => .fp b
  { x with
    v := (List.range 64).map fun e => cell (e / 16) (e % 16)
    m := (List.range 64).map fun e => o.quads.contains (e / 16) }

/-- The changed columns are written back (10 R305). -/
def Post.writeBack (x : Post) (o : Op) : Post :=
  let back (n : Nat) (c : Option (Space × W64 × List Nat)) (ch : List Bool) (x : Post) : Post :=
    match c with
    | none => x
    | some (sp, base, l) =>
      (List.range 16).foldl (fun (x : Post) j =>
        if ch.getD j false then x.put o sp (base + BitVec.ofNat 64 (n * (o.columnBase + j))) (leBytes n (l.getD j 0)) else x) x
  back 8 x.cc x.ccSet (back 4 x.cz x.czSet x)

def postStart (s : State) (t : Team) (old : List Nat) : Post where
  s := s
  t := t
  v := []
  m := []
  cz := none
  czSet := []
  cc := none
  ccSet := []
  zq := List.replicate 16 0
  st := 0
  fault := none
  hold := false
  page := none
  old := old
  made := 0
  new := []

/-- The program over rows 0 to 15 (10 R302). -/
def postRun (s : State) (t : Team) (o : Op) (m : Mode) : Post :=
  let x := (List.range 16).foldl (fun (x : Post) i =>
    if x.stopped then x else o.postWords.foldl (postOp o i) (rowStart t o m i x)) (postStart s t o.log)
  if x.stopped then x else x.writeBack o

end Sys2Proof.Machine
end

