-- ==== Sys2Proof/Machine/Matrix.lean ====
section
/-!
DEFINITION. The matrix engine's instructions (11): issue, acceptance in team order, the transfers of tiles, units and
stage programs, and the run of a post program.
-/

namespace Sys2Proof.Machine

/-! ## Issue (11 Table 11.1) -/

/-- What MMA captures: the parameter block, sc0-sc15, the programs of its slots, and its numbers (11 R314). -/
def mmaCaps (x : MmaX) (e : Env) (low : Nat) : List Cap :=
  let p := e.src64 x.c low
  let prog (kind : Nat) (pre : Bool) (slot : Nat) : List Cap :=
    match e.t.program pre slot with
    | none => []
    | some ws => (ws.zipIdx).map fun q => ⟨kind, if pre then slot * 16 + q.2 else q.2, 0, q.1.setWidth 64⟩
  [⟨0, 2, low, p⟩] ++ scCaps e.t ++ prog 4 true (fld p 3 0)
    ++ (if p.getLsbD 16 then [] else prog 5 false (fld p 7 4))
    ++ numCap [x.ta.lc, x.tb.lc, x.acc.lc] (e.g.tileNum x.ta) (e.g.tileNum x.tb) (e.g.accNum x.acc)

def issueMma (s : State) (i : Instr) (x : MmaX) : Out :=
  mxIssue s i x.k [x.ta.lc, x.tb.lc, x.acc.lc] true false (mmaCaps x) noCheck sameTeam

/-- MMA (11 R314, R315). -/
def execMma (x : MmaX) (s : State) : Out := issueMma s (.mma x) x
/-- MMAT. -/
def execMmat (x : MmaX) (s : State) : Out := issueMma s (.mmat x) x
/-- MMAFX. -/
def execMmafx (x : MmaX) (s : State) : Out := issueMma s (.mmafx x) x

def issueTile (s : State) (i : Instr) (x : TileMemX) : Out :=
  mxIssue s i x.k [x.t.lc] true false
    (fun e l => [⟨0, 1, l, e.src64 x.addr l⟩, ⟨0, 2, l, e.src64 x.geom l⟩] ++ numCap [x.t.lc] (e.g.tileNum x.t) 0 0)
    noCheck sameTeam

/-- TLD (11 R317). -/
def execTld (x : TileMemX) (s : State) : Out := issueTile s (.tld x) x
/-- TST (11 R317). -/
def execTst (x : TileMemX) (s : State) : Out := issueTile s (.tst x) x

/-- TZERO (11 R318, R322). -/
def execTzero (k : BitVec 3) (t : TileF) (qm : BitVec 4) (s : State) : Out :=
  mxIssue s (.tzero k t qm) k [t.lc] false false (fun e _ => numCap [t.lc] (e.g.tileNum t) 0 0)
    (fun e _ => if e.gr.ko.tiles ≤ e.g.tileNum t then 3 else 0) sameTeam

/-- Details 11 and 10 of a span of units (11 R318, Table 11.4). -/
def spanDetail (t : Team) (acc n : Nat) : Nat :=
  if n == 0 || 512 < n then 11 else if t.accUnits < acc + n then 10 else 0

def issueAcc (s : State) (i : Instr) (x : AccMemX) : Out :=
  mxIssue s i x.k [x.acc.lc] true false
    (fun e l => [⟨0, 1, l, e.src64 x.addr l⟩, ⟨0, 2, l, e.src32 x.n l⟩] ++ numCap [x.acc.lc] 0 0 (e.g.accNum x.acc))
    noCheck sameTeam

/-- ACCLD (11 R318). -/
def execAccld (x : AccMemX) (s : State) : Out := issueAcc s (.accld x) x
/-- ACCST (11 R318). -/
def execAccst (x : AccMemX) (s : State) : Out := issueAcc s (.accst x) x

/-- ACCZ (11 R318, R322). -/
def execAccz (k : BitVec 3) (acc : AccF) (n : Src) (s : State) : Out :=
  mxIssue s (.accz k acc n) k [acc.lc] false false
    (fun e l => [⟨0, 1, l, e.src32 n l⟩] ++ numCap [acc.lc] 0 0 (e.g.accNum acc))
    (fun e l => spanDetail e.t (e.g.accNum acc) (fld (e.src32 n l) 31 0)) sameTeam

/-- SCLW (11 R320): a scale register is written as the instruction issues, since operations capture it then; MXST takes
its turn. -/
def execSclw (k : BitVec 3) (a : Src) (r : BitVec 5) (s : State) : Out :=
  mxIssue s (.sclw k a r) k [] false false (fun e l => [⟨0, 0, l, e.src64 a l⟩]) noCheck
    fun e l t => if r.toNat < 16 then { t with sc := Store.write t.sc r.toNat (e.src64 a l) } else t

/-- SCLR (11 R320): a scale register's value is that at its issue. -/
def execSclr (k : BitVec 3) (d : Dst) (r : BitVec 5) (s : State) : Out :=
  mxIssue s (.sclr k d r) k [] true true
    (fun e _ => if r.toNat < 16 then [⟨2, r.toNat, 0, Store.read e.t.sc r.toNat⟩] else []) noCheck sameTeam

def issueSlot (s : State) (i : Instr) (x : SlotX) : Out :=
  mxIssue s i x.k [] true true
    (fun e l => match x.src with | some (a, _) => [⟨0, 0, l, e.src64 a l⟩] | none => []) noCheck sameTeam

/-- POPLD (11 R321). -/
def execPopld (x : SlotX) (s : State) : Out := issueSlot s (.popld x) x
/-- PREPLD (11 R321). -/
def execPrepld (x : SlotX) (s : State) : Out := issueSlot s (.prepld x) x

/-! ## Acceptance -/

/-- The first of some conditions that holds, by its detail. -/
def firstDetail : List (Nat × Bool) → Nat
  | [] => 0
  | (d, c) :: r => if c then d else firstDetail r

/-- The tags that an operand's tile holds, when they are read. -/
def operandTags (t : Team) (d : Decl) (q n : Nat) : List Nat :=
  if d.tagged then (List.range 32).map fun e => t.side q n e else []

/-- Units whose contents the product of a quadrant reads. -/
def Op.productUnits (o : Op) (q : Nat) : List Nat :=
  if o.block.getLsbD 15 || !o.liveQuads.contains q then []
  else (List.range o.unitW).map fun j => o.mxNums.2.2 + o.unitW * q + j

/-- Tile registers that the product of a quadrant reads. -/
def Op.productTiles (o : Op) (da db : Decl) (q : Nat) : List Nat :=
  let n := o.mxNums
  let pre (d : Decl) : List Nat :=
    (match d.zpc with | some z => [z.2.1] | none => []) ++ (match d.scin with | some z => [z.1] | none => [])
  if !o.liveQuads.contains q then []
  else ([n.1] ++ pre da).map (tileId q) ++ ((if db.spos.isSome then [] else [n.2.1]) ++ pre db).map (tileId (o.bQuad q))

/-- Tile registers that an operation reads, by quadrant. -/
def Op.tilesRead (o : Op) (da db : Decl) : List Nat :=
  o.quads.flatMap (o.productTiles da db)
    ++ o.postWords.flatMap fun w =>
        if (wOp w == 0x11 || wOp w == 0x12) && wF w 20 19 != 0 then (planesOf w).map fun q => tileId q (wF w 18 14) else []

/-- The fault detail of an MMA, MMAT or MMAFX at acceptance, 0 for none (10 Table 10.16, 11 Table 11.4, R315). -/
def mmaDetail (t : Team) (tiles : Nat) (o : Op) : Nat :=
  let p := o.block
  let n := o.mxNums
  let np := p.getLsbD 16
  let empty := o.preWords.isEmpty || (!np && o.postWords.isEmpty)
  let da := declOf o.preWords false
  let db := declOf o.preWords true
  let mode := match da, db with | some a, some b => modeOf a.fmt b.fmt | _, _ => none
  let tags : List Nat := match da, db with
    | some a, some b =>
      o.liveQuads.flatMap fun q =>
        (if n.1 < tiles then (operandTags t a q n.1).map (tagDetail a.fmt) else [])
          ++ (if n.2.1 < tiles then (operandTags t b (o.bQuad q) n.2.1).map (tagDetail b.fmt) else [])
    | _, _ => []
  let named := preTiles o.preWords ++ postTilesRead o.postWords ++ postTilesWritten o.postWords
  let isMmat := match o.instr with | .mmat _ => true | _ => false
  let isMmafx := match o.instr with | .mmafx _ => true | _ => false
  let fx := mode == some .fx
  let raster := o.postWords.any fun w => wOp w == 0x16 || wOp w == 0x18 || wOp w == 0x1A
  let poison := Store.read o.buf captureKey == 1 || (match da, db with
    | some a, some b => (o.tilesRead a b).any fun x => t.tilePoison.contains x
    | _, _ => false) || (o.quads.flatMap o.productUnits).any fun u => t.accPoison.contains u
  firstDetail
    [(1, tags.contains 1), (2, tags.contains 2),
     (3, tiles ≤ n.1 || tiles ≤ n.2.1 || named.any fun x => tiles ≤ x),
     (4, fx && n.2.2 % 4 != 0), (5, empty), (6, mode.isSome && !fx && raster), (7, poison),
     (8, mode.isSome && fx != isMmafx),
     (9, fld p 42 17 != 0 || o.quads.isEmpty || (np && fld p 7 4 != 0)
        || (!isMmat && (fld p 63 43 != 0))),
     (10, o.quads.any fun q => t.accUnits < n.2.2 + o.unitW * (q + 1))]

/-- EDGE reads the A rows as they stood for the operation: elements 0 and 1 of each row, kept (10 R304). -/
def edgeRows (t : Team) (o : Op) : Store 8 :=
  if o.postWords.any fun w => wOp w == 0x16 then
    o.quads.foldl (fun (b : Store 8) q => (List.range 16).foldl (fun (b : Store 8) i =>
      Store.blit b ((q * 16 + i) * 16) (leBytes 16 (t.tileLe q o.mxNums.1 (128 * i) 16))) b) []
  else []

/-- The product of the quadrant at the operation's cursor; a register that has been poisoned since the acceptance stops the
operation there, and a replay goes on with this product (10 R308, log 88; MXST as log 140 has it).  Behind the last product stands the post
program. -/
def mmaProduct (s : State) (o : Op) (t : Team) (m : Mode) (da db : Decl) (q : Nat) : Out :=
  let o := { o with stage := 3 }
  if (o.productTiles da db q).any t.tilePoison.contains || (o.productUnits q).any t.accPoison.contains then
    mxFault s o 7
  else
    let x := productOf t o m da db q
    let u := o.mxNums.2.2 + o.unitW * q
    let t := ((t.setUnits u x.1).cleanUnits u o.unitW).status x.2 0
    let o := { o with cursor := o.cursor + 1 }
    if o.cursor < o.quads.length then .next ((s.setTeam t).setOp o)
    else
      let np := o.block.getLsbD 16
      .next ((s.setTeam (t.status 0 (reservedCodes t o da db))).setOp { o with
        stage := if np then 2 else 1
        parts := if np then [] else [newPart o.low .g 0 0 0 .waiting]
        buf := edgeRows t o })

/-- An operation at its acceptance (11 R315), or at its next product: one product for each quadrant, in their order. -/
def mmaAccept (s : State) (o : Op) (w : Group × Team × Grid) : Out :=
  let t := w.2.1
  let d := if o.stage == 0 then mmaDetail t w.2.2.ko.tiles o else 0
  if d != 0 then mxFault s o d
  else
    match declOf o.preWords false, declOf o.preWords true, o.quads[o.cursor]? with
    | some da, some db, some q =>
      match modeOf da.fmt db.fmt with
      | some m => mmaProduct s o t m da db q
      | none => mxFault s o 5
    | _, _, _ => mxFault s o 5

/-- Rows of a TLD or TST, with their addresses: quadrant, row, address (11 R317). -/
def Op.tileRows (o : Op) (qm : BitVec 4) : List (Nat × Nat × W64) :=
  let a := o.cap 1 o.low
  let g := o.cap 2 o.low
  let rs : W64 := (BitVec.ofNat 32 (fld g 31 0)).signExtend 64
  let qs : W64 := (BitVec.ofNat 24 (fld g 55 32)).signExtend 64
  ((List.range 4).filter fun q => qm.getLsbD q).flatMap fun q =>
    (List.range (fld g 63 60 + 1)).map fun r => (q, r, a + BitVec.ofNat 64 q * qs + BitVec.ofNat 64 r * rs)

def tileParts (o : Op) (x : TileMemX) : List Part :=
  (o.tileRows x.qm).flatMap fun r =>
    (pieces3 r.2.2.toNat (if x.half then 64 else 128)).map fun q =>
      { newPart o.low x.space r.2.2 q.1 q.2 .waiting with key := tileKey r.1 o.mxNums.1 + 128 * r.2.1 + q.1 }
where
  /-- A row of 128 bytes can meet three blocks. -/
  pieces3 (a n : Nat) : List (Nat × Nat) :=
    let f := 64 - a % 64
    if n ≤ f then [(0, n)]
    else if n ≤ f + 64 then [(0, f), (f, n - f)]
    else [(0, f), (f, 64), (f + 64, n - f - 64)]

/-- Details 3, 7 and 11 of a TLD or TST. -/
def tileDetail (t : Team) (tiles : Nat) (o : Op) (x : TileMemX) (store : Bool) : Nat :=
  let n := o.mxNums.1
  let g := o.cap 2 o.low
  let unit (v : Nat) : Bool := v % 64 == 0
  firstDetail
    [(3, tiles ≤ n),
     (7, store && (List.range 4).any fun q => x.qm.getLsbD q && t.tilePoison.contains (tileId q n)),
     (11, fld g 59 56 != 0 || (x.tags && !(x.space == .g && unit (o.cap 1 o.low).toNat && unit (fld g 31 0)
        && unit (fld g 55 32))))]

def tileAccept (s : State) (o : Op) (w : Group × Team × Grid) (x : TileMemX) (store : Bool) : Out :=
  let d := tileDetail w.2.1 w.2.2.ko.tiles o x store
  if d != 0 then mxFault s o d else .next (s.setOp { o with stage := 1, parts := tileParts o x })

/-- Blocks of a run of units (11 R318). -/
def accParts (o : Op) (sp : Space) : List Part :=
  (List.range (16 * o.count)).map fun b =>
    { newPart o.low sp (o.cap 1 o.low) (64 * b) 64 .waiting with key := o.mxNums.2.2 * 1024 + 64 * b }

def accAccept (s : State) (o : Op) (w : Group × Team × Grid) (x : AccMemX) (store : Bool) : Out :=
  let d := spanDetail w.2.1 o.mxNums.2.2 o.count
  let bad := store && (List.range o.count).any fun j => w.2.1.accPoison.contains (o.mxNums.2.2 + j)
  -- a count outside 1 to 512 names no units; otherwise detail 7 comes before 10
  if bad && d != 11 then mxFault s o 7
  else if d != 0 then mxFault s o d
  else .next (s.setOp { o with stage := 1, parts := accParts o x.space })

/-- The result of a PREPLD or POPLD, kept for its completion. -/
def Op.slotResult (o : Op) (v : Nat) : Op := { o.putBuf 0 (leBytes 8 v) with stage := 2, parts := [] }

/-- The next words of a program: up to the end of the block (11 R321, Table 7.1). -/
def Op.slotPart (o : Op) (max : Nat) (sp : Space) : Part :=
  let a : W64 := o.cap 0 o.low + BitVec.ofNat 64 (4 * o.cursor)
  newPart o.low sp a 0 (Nat.min (64 - a.toNat % 64) (4 * (max - o.cursor))) .waiting

def slotAccept (s : State) (o : Op) (w : Group × Team × Grid) (pre : Bool) (x : SlotX) : Out :=
  match x.src with
  | none => .next ((s.setTeam (w.2.1.setProgram pre x.slot.toNat [])).setOp (o.slotResult 0))
  | some (_, sp) => .next (s.setOp { o with stage := 1, parts := [o.slotPart (if pre then 8 else 32) sp] })

/-- No earlier fence of the group is pending: every later engine command waits for it (06 R192). -/
def State.fencesPast (s : State) (o : Op) : Bool := (s.earlier o).all fun p => !p.isFence

/-- MATRIX_ACCEPT: a command at its turn in the team's order (10 R282), or the next product of an operation. -/
def execMatrixAccept (op : Nat) (s : State) : Out :=
  needSome (s.op? op) fun o =>
  needSome (s.ownerOf o) fun w =>
  need (o.isMatrix && o.fault.isNone && ((o.stage == 0 && s.mxTurn w.2.1.id o && s.fencesPast o) || o.stage == 3)) <|
    let n := o.mxNums
    match o.instr with
    | .mma _ | .mmat _ | .mmafx _ => mmaAccept s o w
    | .tld x => tileAccept s o w x false
    | .tst x => tileAccept s o w x true
    | .tzero _ _ qm =>
      .next ((s.setTeam (((List.range 4).filter fun q => qm.getLsbD q).foldl (fun (t : Team) q => t.zeroTile q n.1) w.2.1)).finish o)
    | .accld x => accAccept s o w x false
    | .accst x => accAccept s o w x true
    | .accz .. => .next ((s.setTeam (w.2.1.zeroUnits n.2.2 o.count)).finish o)
    | .sclw _ _ r =>
      let v := o.cap 0 o.low
      let t := w.2.1
      let t := if r == 16 then
          { t with mxst := (BitVec.ofNat 32 (fld v 31 16 * 65536)) ||| (t.mxst &&& 0x7F &&& ~~~(v.setWidth 32)) } else t
      .next ((s.setTeam t).finish o)
    | .sclr _ _ r =>
      let v : W64 := if r == 16 then w.2.1.mxst.setWidth 64 else o.sc r.toNat
      .next (s.setOp { o.putBuf 0 (leBytes 8 v.toNat) with stage := 2 })
    | .prepld x => slotAccept s o w true x
    | .popld x => slotAccept s o w false x
    | _ => .refused .eventNotEnabled

/-! ## Transfers at HOME_REQUEST -/

/-- The tile, its byte, and the sidecar entries of a part. -/
def Part.tilePlace (p : Part) : Nat × Nat × Nat := (p.key / 65536, p.key / 2048 % 32, p.key % 2048)

/-- Sidecar entries that a piece of a tile meets. -/
def sideEntries (off len : Nat) : List Nat := (List.range 32).filter fun e => e * 64 < off + len && off < e * 64 + 64

/-- A part is done; a whole tile's or run's poison clears with the last one. -/
def partDone (s : State) (o : Op) (i : Nat) (p : Part) (f : Team → Team) (last : Team → Team) : Out :=
  let o := o.setPart i { p with st := .done, asked := false }
  needSome (s.ownerOf o) fun w =>
    let t := f w.2.1
    .next ((s.setTeam (if o.allDone then last t else t)).setOp o)

def tldPart (s : State) (o : Op) (i : Nat) (p : Part) (x : TileMemX) : Out :=
  mxRead s o i p 16 (!x.nc) fun s key bytes =>
    let pl := p.tilePlace
    if x.tags && s.tagPoison.contains (blockOf key) then
      let ls := s.leafLS o.core p.sp (p.addr + BitVec.ofNat 64 p.off)
      mxStop s o i p (mxMemFault s o p.sp 0 6 2 ls.1 ls.2 p.addr)
    else
      let tag : BitVec 16 := if x.tags then BitVec.ofNat 16 (s.le (tagKey (blockOf key)) 2) else 0
      let put (t : Team) : Team :=
        (sideEntries pl.2.2 p.len).foldl (fun (t : Team) e => t.setSide pl.1 pl.2.1 e tag) (t.setTile pl.1 pl.2.1 pl.2.2 bytes)
      let whole := !x.half && fld (o.cap 2 o.low) 63 60 == 15
      partDone s o i p put fun t =>
        if whole then ((List.range 4).filter fun q => x.qm.getLsbD q).foldl (fun (t : Team) q => t.cleanTile q pl.2.1) t else t

/-- An earlier part of a TST that writes a byte of this one has not been made (11 R317). -/
def Op.overlapsEarlier (o : Op) (i : Nat) (p : Part) : Bool :=
  let lo (x : Part) : Nat := (x.addr + BitVec.ofNat 64 x.off).toNat
  (o.parts.take i).any fun x => x.st != .done && lo x < lo p + p.len && lo p < lo x + x.len

def tstPart (s : State) (o : Op) (i : Nat) (p : Part) (x : TileMemX) (lose : Bool) : Out :=
  needSome (s.ownerOf o) fun w =>
    let pl := p.tilePlace
    let t := w.2.1
    need (!o.overlapsEarlier i p) <|
    mxWrite s o i p 16 (!x.nc) lose (leBytes p.len (t.tileLe pl.1 pl.2.1 pl.2.2 p.len)) fun s key =>
      if x.tags then
        { s.putBytes (tagKey (blockOf key)) (leBytes 2 (t.side pl.1 pl.2.1 (pl.2.2 / 64))) with
          tagPoison := s.tagPoison.filter fun b => b != blockOf key }
      else s

def accldPart (s : State) (o : Op) (i : Nat) (p : Part) (x : AccMemX) : Out :=
  mxRead s o i p 64 (!x.nc) fun s _ bytes =>
    partDone s o i p (fun t => { t with acc := Store.blit t.acc p.key bytes }) fun t => t.cleanUnits o.mxNums.2.2 o.count

def accstPart (s : State) (o : Op) (i : Nat) (p : Part) (x : AccMemX) (lose : Bool) : Out :=
  needSome (s.ownerOf o) fun w =>
    mxWrite s o i p 64 (!x.nc) lose (leBytes p.len (sliceNat w.2.1.acc p.key p.len)) fun s _ => s

/-- Words of a program are read, block by block; at the last one the program is checked (11 R321). -/
def slotPart (s : State) (o : Op) (i : Nat) (p : Part) (pre : Bool) (x : SlotX) : Out :=
  match x.src with
  | none => .refused .eventNotEnabled
  | some (_, sp) =>
    mxRead s o i p 4 false fun s _ bytes =>
      needSome (s.ownerOf o) fun w =>
        let max := if pre then 8 else 32
        let n := o.cursor + p.len / 4
        let o := { o.putBuf (4 * o.cursor) bytes with cursor := n }
        let ws := progWords ((List.range n).map fun j => (j, BitVec.ofNat 32 (leNat (Store.readList o.buf (4 * j) 4)))) 0 n
        let ended := ws.any wLast
        if ended || max ≤ n then
          match programFault pre ws with
          | none => .next ((s.setTeam (w.2.1.setProgram pre x.slot.toNat ws)).setOp (o.slotResult 0))
          | some (c, ix) => .next (s.setOp (o.slotResult (0x80000000 + c * 256 + ix)))
        else .next (s.setOp { o with parts := [o.slotPart max sp] })

/-- HOME_REQUEST for a part of a matrix command. -/
def matrixPart (s : State) (o : Op) (i : Nat) (p : Part) (lose : Bool) : Out :=
  match o.instr with
  | .tld x => need (!lose) (tldPart s o i p x)
  | .tst x => tstPart s o i p x lose
  | .accld x => need (!lose) (accldPart s o i p x)
  | .accst x => accstPart s o i p x lose
  | .prepld x => need (!lose) (slotPart s o i p true x)
  | .popld x => need (!lose) (slotPart s o i p false x)
  | _ => .refused .eventNotEnabled

/-! ## The post stage -/

/-- Some earlier operation of the team has its program still to run, one that has faulted too, or the stage of the core is
in the middle of another program (10 R305, 11 R316). -/
def State.postBusy (s : State) (team : Nat) (o : Op) : Bool :=
  (s.mxOps team).any (fun p => p.id < o.id && p.stage != 2 && !p.postWords.isEmpty)
    || s.ops.any fun p => p.id != o.id && p.core == o.core && p.stage == 1 && !p.postWords.isEmpty && !p.log.isEmpty && p.fault.isNone
        && (match s.ownerOf p with | some w => w.2.1.resident | none => false)

/-- POST_STAGE_RUN: the program of an operation, over its result block (10 R302-R306).  Where it has to wait, or faults, it
stops behind the accesses it has made, and goes on from there: it runs once (log 87); on a quiesced page it waits for the
page's release (08 R223). -/
def execPostStageRun (op : Nat) (s : State) : Out :=
  needSome (s.op? op) fun o =>
  needSome (s.ownerOf o) fun w =>
  need (o.stage == 1 && o.fault.isNone && !o.postWords.isEmpty && !s.postBusy w.2.1.id o && s.engineClear o
      && (o.parts.all fun p => p.held.isNone) && (s.earlier o).all fun q => !q.untaken) <|
    match declOf o.preWords false, declOf o.preWords true with
    | some da, some db =>
      match modeOf da.fmt db.fmt with
      | some m =>
        let units := o.quads.flatMap fun q => (List.range o.unitW).map fun j => o.mxNums.2.2 + o.unitW * q + j
        if units.any fun u => w.2.1.accPoison.contains u then mxFault s o 7
        else
          let x := postRun s w.2.1 o m
          let kept := { o with log := o.log ++ x.new.reverse }
          if x.hold then need (!x.new.isEmpty || x.page.isSome) (.next (x.s.setOp
            { kept with parts := kept.parts.map fun p => { p with held := x.page } }))
          else
            match x.fault with
            | some f => .next (x.s.setOp (kept.stopWith f))
            | none => .next ((x.s.setTeam (x.t.status x.st 0)).setOp { o with stage := 2, parts := [] })
      | none => .refused .eventNotEnabled
    | _, _ => .refused .eventNotEnabled

/-! ## Completion -/

/-- OPERATION_COMPLETE for a matrix command. -/
def matrixComplete (s : State) (o : Op) : Out :=
  let v : Nat → W64 := fun _ => BitVec.ofNat 64 (leNat (Store.readList o.buf 0 8))
  match o.instr with
  | .mma _ | .mmat _ | .mmafx _ => need (o.stage == 2) (.next (s.finish o))
  | .tld _ | .tst _ | .accld _ | .accst _ => need (o.stage == 1 && o.allDone) (.next (s.finish o))
  | .sclr _ d _ => need (o.stage == 2) (.next (s.finishWith o fun g => g.late o d true v))
  | .prepld x | .popld x => need (o.stage == 2) (.next (s.finishWith o fun g => g.late o x.d false v))
  | _ => .refused .eventNotEnabled

end Sys2Proof.Machine
end

