-- ==== Sys2Proof/Machine/SmpNum.lean ====
section
/-!
DEFINITION. The sampler's arithmetic (12): descriptors, levels of detail, footprints and weights, texel values, the
filtered product and the blanket's network.
-/

namespace Sys2Proof.Machine

/-! ## Descriptors (12 R331, R332) -/

structure Tex where
  base : Nat
  w0 : Nat
  h0 : Nat
  format : Nat
  levels : Nat
  magLinear : Bool
  minLinear : Bool
  mip : Nat
  aniso : Nat
  modeU : Nat
  modeV : Nat
  bias : Int
  lodMin : Int
  lodMax : Int
  map : Nat
  border : List Nat
  latent : Nat
  lw : Nat
  lh : Nat
  network : Nat
  deriving DecidableEq, Repr

/-- `n` bytes at offset `o` of a descriptor given as a number. -/
def dAt (d o n : Nat) : Nat := (d >>> (8 * o)) % 2 ^ (8 * n)

def parseTex (d : Nat) : Tex where
  base := dAt d 0 8
  w0 := dAt d 0x08 2 + 1
  h0 := dAt d 0x0A 2 + 1
  format := dAt d 0x0C 1
  levels := dAt d 0x0D 1
  magLinear := dAt d 0x0E 1 % 2 == 1
  minLinear := dAt d 0x0E 1 / 2 % 2 == 1
  mip := dAt d 0x0E 1 / 4 % 4
  aniso := dAt d 0x0E 1 / 16 % 8
  modeU := dAt d 0x0F 1 % 8
  modeV := dAt d 0x0F 1 / 8 % 8
  bias := sgn (dAt d 0x10 2) 16
  lodMin := sgn (dAt d 0x12 2) 16
  lodMax := sgn (dAt d 0x14 2) 16
  map := dAt d 0x18 8
  border := (List.range 4).map fun c => dAt d (0x20 + 4 * c) 4
  latent := dAt d 0x30 8
  lw := dAt d 0x38 2 + 1
  lh := dAt d 0x3A 2 + 1
  network := dAt d 0x40 8

/-- Texel size and channels (12 Table 12.3). -/
def texBytes (f : Nat) : Nat :=
  match f with
  | 0 => 1 | 1 => 2 | 2 => 4 | 3 => 4 | 4 => 2 | 5 => 4 | 6 => 8 | 7 => 4 | 8 => 8 | 9 => 16 | 10 => 2 | _ => 8

def texChannels (f : Nat) : Nat :=
  match f with
  | 0 | 4 | 7 | 10 => 1 | 1 | 5 | 8 => 2 | _ => 4

def Tex.width (t : Tex) (e : Nat) : Nat := Nat.max 1 (t.w0 >>> e)
def Tex.height (t : Tex) (e : Nat) : Nat := Nat.max 1 (t.h0 >>> e)
def Tex.pitch (t : Tex) (e : Nat) : Nat := (t.width e * texBytes t.format + 63) / 64 * 64

/-- Byte offset of a level from the base; of level `levels`, the span (12 R332). -/
def Tex.offset (t : Tex) (e : Nat) : Nat := (List.range e).foldl (fun n k => n + t.pitch k * t.height k) 0
def Tex.span (t : Tex) : Nat := t.offset t.levels

/-- The descriptor as a number is valid (12 R332). -/
def texValid (d : Nat) : Bool :=
  let t := parseTex d
  let unit (v : Nat) : Bool := v % 64 == 0
  unit t.base && t.base < 2 ^ 48 && t.w0 ≤ 16384 && t.h0 ≤ 16384 && t.format ≤ 11
    && 1 ≤ t.levels && t.levels ≤ Nat.log2 (Nat.max t.w0 t.h0) + 1
    && t.mip != 3 && t.aniso ≤ 4 && dAt d 0x0E 1 < 128
    && t.modeU ≤ 3 && t.modeV ≤ 3 && dAt d 0x0F 1 < 64
    && t.lodMin ≤ t.lodMax && dAt d 0x16 2 == 0 && unit t.map && unit t.latent && t.lw ≤ 1024 && t.lh ≤ 1024
    && dAt d 0x3C 4 == 0 && (t.latent == 0 || unit t.network) && dAt d 0x48 56 == 0
    && t.base + t.span ≤ 2 ^ 48

/-! ## Level of detail (12 R334-R336) -/

def fOf (b : Nat) : Fp := fmt32.unpack b
def toF32 (x : Fp) : Nat := (deliver fmt32 .rne false (x, 0)).1
def fMul (a b : Nat) : Nat := toF32 (Fp.mul (fOf a) (fOf b)).1
def fAdd (a b : Nat) : Nat := toF32 (Fp.add .rne (fOf a) (fOf b)).1
def fSub (a b : Nat) : Nat := toF32 (Fp.sub .rne (fOf a) (fOf b)).1
def fSqrt (a : Nat) : Nat := toF32 (Fp.sqrt (fOf a)).1
def fDiv (a b : Nat) : Nat := toF32 (Fp.div (fOf a) (fOf b)).1
def fNat (n : Nat) : Nat := toF32 (.fin false n 0)

/-- Floor of `x * 2^k + 1/2`. -/
def nearestUp (neg : Bool) (m : Nat) (e : Int) : Int :=
  let h := dyAdd neg m e false 1 (-1)
  let r := roundInt .rdn h.1 h.2.1 h.2.2
  if h.1 then -(Int.ofNat r.1) else Int.ofNat r.1

/-- Where a lane's level of detail comes from: a value, or differences (ux, vx, uy, vy). -/
inductive LodIn where
  | lod (b : Nat)
  | diff (ux vx uy vy : Nat)
  deriving DecidableEq, Repr

/-- Smallest power of two, up to `2^a`, that is at least a ratio. -/
def probes (ratio : Fp) : Nat → Nat
  | 0 => 1
  | a + 1 =>
    let n := probes ratio a
    match Fp.cmp ratio (.fin false n 0) with
    | .gt => if n == 2 ^ a then 2 ^ (a + 1) else n
    | _ => n

/-- lod(l): lod', the number of probes, and the axis (12 R334, R337). -/
structure Lod where
  lod : Int
  n : Nat
  du : Nat
  dv : Nat
  deriving DecidableEq, Repr

def lodOf (t : Tex) (src : LodIn) : Lod :=
  let fin (lam : Fp) (n du dv : Nat) : Lod :=
    let li : Int := match lam with
      | .nan _ => 32767
      | .inf neg => if neg then -32768 else 32767
      | .fin neg m e => max (-32768) (min 32767 (nearestUp neg m (e + 8)))
    let l := min (max (li + t.bias) t.lodMin) t.lodMax
    ⟨l, if l ≤ 0 then 1 else n, du, dv⟩
  match src with
  | .lod b => fin (fOf b) 1 0 0
  | .diff ux0 vx0 uy0 vy0 =>
    let ux := fMul ux0 (fNat t.w0)
    let vx := fMul vx0 (fNat t.h0)
    let uy := fMul uy0 (fNat t.w0)
    let vy := fMul vy0 (fNat t.h0)
    let px := fSqrt (fAdd (fMul ux ux) (fMul vx vx))
    let py := fSqrt (fAdd (fMul uy uy) (fMul vy vy))
    let nan := (fOf px).isNan || (fOf py).isNan
    let xMajor := !nan && Fp.cmp (fOf px) (fOf py) != .lt
    let pmax := if nan then fmt32.qnan else if xMajor then px else py
    let pmin := if nan then fmt32.qnan else if xMajor then py else px
    let ratio : Fp := if (fOf pmin).isZero then .inf false else fOf (fDiv pmax pmin)
    let n := if ratio.isNan then 1 else probes ratio t.aniso
    let lam : Fp := if (fOf pmax).isZero then .inf true
      else fOf (flog232 (BitVec.ofNat 32 (fDiv pmax (fNat n)))).1
    if xMajor then fin lam n ux0 vx0 else fin lam n uy0 vy0

/-- The levels used: d, f, and whether the filter is linear (12 R336). -/
def Tex.level (t : Tex) (lod : Int) : Nat × Nat × Bool :=
  if lod ≤ 0 then (0, 0, t.magLinear)
  else
    let l := lod.toNat
    match t.mip with
    | 0 => (0, 0, t.minLinear)
    | 1 => (Nat.min ((l + 128) / 256) (t.levels - 1), 0, t.minLinear)
    | _ => if t.levels - 1 ≤ l / 256 then (t.levels - 1, 0, t.minLinear) else (l / 256, l % 256, t.minLinear)

/-! ## Footprints (12 R337-R339) -/

/-- A present tap: its index, its weight as a multiple of `2^-28`, and its texel's place from the base; a border tap has
none. -/
structure Tap where
  index : Nat
  weight : Nat
  place : Option Nat
  deriving DecidableEq, Repr

/-- An index under an address mode; none for a border tap. -/
def wrapIndex (mode : Nat) (i : Int) (size : Nat) : Option Nat :=
  let s : Int := Int.ofNat size
  match mode with
  | 0 => some (Int.emod i s).toNat
  | 1 => let m := Int.emod i (2 * s); some (if m < s then m else 2 * s - 1 - m).toNat
  | 2 => some (min (max i 0) (s - 1)).toNat
  | _ => if 0 ≤ i && i < s then some i.toNat else none

/-- First index and fraction along an axis. -/
def axis (linear : Bool) (neg : Bool) (m : Nat) (e : Int) (size : Nat) (off : Int) : Int × Nat :=
  let lim : Int := 2 ^ 40
  let cl (x : Int) : Int := min lim (max (-lim) x)
  if linear then
    let r := roundInt .rne neg (m * size) (e + 8)
    let x := cl (if neg then -(Int.ofNat r.1) else Int.ofNat r.1) - 128
    (Int.fdiv x 256 + off, (Int.emod x 256).toNat)
  else
    let r := roundInt .rdn neg (m * size) (e + 8)
    let x := cl (if neg then -(Int.ofNat r.1) else Int.ofNat r.1)
    (Int.fdiv x 256 + off, 0)

/-- The four taps of one probe on a grid: (q, weight of 65,536, indices). -/
def taps4 (linear : Bool) (u v : Fp) (w h : Nat) (modeU modeV : Nat) (ou ov : Int) :
    List (Nat × Nat × Option (Nat × Nat)) :=
  match u, v with
  | .fin nu mu eu, .fin nv mv ev =>
    let x := axis linear nu mu eu w ou
    let y := axis linear nv mv ev h ov
    let a := x.2
    let b := y.2
    let tap (q : Nat) (wt : Nat) (i j : Int) : Nat × Nat × Option (Nat × Nat) :=
      (q, wt, match wrapIndex modeU i w, wrapIndex modeV j h with | some i, some j => some (i, j) | _, _ => none)
    [tap 0 ((256 - a) * (256 - b)) x.1 y.1, tap 1 (a * (256 - b)) (x.1 + 1) y.1,
     tap 2 ((256 - a) * b) x.1 (y.1 + 1), tap 3 (a * b) (x.1 + 1) (y.1 + 1)]
  | _, _ => []

/-- Coordinates of probe `k` of `n` (12 R337). -/
def probeAt (u v : Nat) (l : Lod) (k : Nat) : Fp × Fp :=
  if l.n == 1 then (fOf u, fOf v)
  else
    let num : Int := 2 * Int.ofNat k + 1 - Int.ofNat l.n
    let tk : Fp := .fin (num < 0) num.natAbs (-(Int.ofNat (Nat.log2 (2 * l.n))))
    let at_ (x d : Nat) : Fp := fOf (toF32 (Fp.fma .rne tk (fOf d) (fOf x)).1)
    (at_ u l.du, at_ v l.dv)

/-- Every probe's coordinates are finite (12 R338). -/
def coordsFinite (u v : Nat) (l : Lod) : Bool :=
  (List.range l.n).all fun k =>
    let p := probeAt u v l k
    !(p.1.isNan || p.1.isInf || p.2.isNan || p.2.isInf)

/-- The present taps of a lane, in order (12 R338, R339, R347). -/
def lanesTaps (t : Tex) (u v : Nat) (l : Lod) (ou ov : Int) : List Tap :=
  let lv := t.level l.lod
  let two := lv.2.1 != 0
  let lc := if two then 2 else 1
  (List.range l.n).flatMap fun k =>
    let p := probeAt u v l k
    (List.range lc).flatMap fun de =>
      let e := lv.1 + de
      let we := if two then (if de == 0 then 256 - lv.2.1 else lv.2.1) else 256
      (taps4 lv.2.2 p.1 p.2 (t.width e) (t.height e) t.modeU t.modeV ou ov).filterMap fun q =>
        -- in units of 2^-28: 16 / n is exact for n up to 16
        let w := q.2.1 * we * 16 / l.n
        if w = 0 then none
        else some
          { index := 4 * (lc * k + de) + q.1
            weight := w
            place := q.2.2.map fun ij => t.offset e + ij.2 * t.pitch e + ij.1 * texBytes t.format }

def Tap.fp (x : Tap) : Fp := .fin false x.weight (-28)

/-! ## Texel values (12 R333) -/

/-- Floor of the fifth root, one bit of the root at a time. -/
def root5 (n : Nat) : Nat → Nat → Nat
  | 0, r => r
  | k + 1, r => if (r + 2 ^ k) ^ 5 ≤ n then root5 n k (r + 2 ^ k) else root5 n k r

/-- The sRGB table. -/
def srgb (c : Nat) : Fp :=
  if c ≤ 10 then fOf (toF32 (Fp.div (.fin false (100 * c) 0) (.fin false 329460 0)).1)
  else if c == 255 then .fin false 1 0
  else
    let n := (1000 * c + 14025) ^ 12 * 2 ^ 300 / 269025 ^ 12
    -- the root is irrational here: a last bit of 1 stands for the rest
    fOf (toF32 (.fin false (2 * root5 n 61 0 + 1) (-61)))

/-- A channel of a texel as a numerator and the denominator it stands over. -/
def texel (f raw c : Nat) : Fp × Nat :=
  let missing (d : Nat) : Fp × Nat := if c == 3 then (.fin false d 0, d) else (.fin false 0 0, d)
  let byte := raw / 2 ^ (8 * c) % 256
  let half := raw / 2 ^ (16 * c) % 65536
  let word := raw / 2 ^ (32 * c) % 2 ^ 32
  let has := c < texChannels f
  if f ≤ 2 then (if has then (.fin false byte 0, 255) else missing 255)
  else if f == 3 then (if c < 3 then (srgb byte, 1) else (.fin false byte 0, 255))
  else if f ≤ 6 then (if has then (fmt16.unpack half, 1) else missing 1)
  else if f ≤ 9 then (if has then (fmt32.unpack word, 1) else missing 1)
  else (if has then (.fin false half 0, 65535) else missing 65535)

/-- The denominator of a channel. -/
def texDen (f c : Nat) : Nat := (texel f 0 c).2

/-- A tap's channel over the channel's denominator: a texel, or the border colour. -/
def tapValue (t : Tex) (c : Nat) (raw : Option Nat) : Fp :=
  match raw with
  | some r => (texel t.format r c).1
  | none => (Fp.mul (fmt32.unpack (t.border.getD c 0)) (.fin false (texDen t.format c) 0)).1

def overDen (x : Fp) (d : Nat) : Fp := if d == 1 then x else (Fp.div x (.fin false d 0)).1

/-- The exact sum of weighted values (12 R340). -/
def weighted (l : List (Fp × Fp)) : Fp :=
  match l with
  | [] => .fin false 0 0
  | p :: ps => ps.foldl (fun acc q => (Fp.add .rne acc (Fp.mul q.1 q.2).1).1) (Fp.mul p.1 p.2).1

/-- value(c), in a format. -/
def filtered (t : Tex) (f : Fmt) (c : Nat) (taps : List (Tap × Option Nat)) : Nat :=
  (deliver f .rne false (overDen (weighted (taps.map fun q => (q.1.fp, tapValue t c q.2))) (texDen t.format c), 0)).1

/-! ## The blanket (12 R343) -/

/-- Taps of the latent grid: weight and element number. -/
def latentTaps (t : Tex) (u v : Nat) : List (Nat × Nat × Nat) :=
  let m (x : Nat) : Nat := if x == 3 then 2 else x
  (taps4 true (fOf u) (fOf v) t.lw t.lh (m t.modeU) (m t.modeV) 0 0).filterMap fun q =>
    match q.2.2 with
    | some ij => if q.2.1 = 0 then none else some (q.1, q.2.1, ij.2 * t.lw + ij.1)
    | none => none

/-- The blanket's four outputs in FP32, from the latents (weight, bytes) and the network's bytes. -/
def blanketOut (latents : List (Nat × Nat)) (net : Nat) (lod : Int) : List Nat :=
  let half (o : Nat) : Fp := fmt16.unpack (dAt net o 2)
  let z : List Fp := (List.range 8).map fun ch =>
    fOf (toF32 (weighted (latents.map fun q => ((.fin false q.1 (-16) : Fp), fmt16.unpack (dAt q.2 (2 * ch) 2)))))
  let x : List Fp := z ++ [.fin (lod < 0) lod.natAbs (-8)]
  let layer (w b rows cols : Nat) (xs : List Fp) : List Nat := (List.range rows).map fun k =>
    let s := weighted ((List.range cols).map fun m => (half (w + 2 * (k * cols + m)), xs.getD m (.fin false 0 0)))
    toF32 (Fp.add .rne s (half (b + 2 * k))).1
  let h := (layer 0 288 16 9 x).map fun b => toF32 (minMax true false (fOf b) (.fin false 0 0)).1
  layer 320 448 4 16 (h.map fOf)

end Sys2Proof.Machine
end

