-- ==== Sys2Proof/Machine/Sampler.lean ====
section
/-!
DEFINITION. The sampler (12): issue, the reads of a command, its results, SMPLG's tiles and SRES's request map.
-/

namespace Sys2Proof.Machine

/-! ## Commands -/

/-- Where the level of detail comes from, and the texel offsets. -/
def Op.smp (o : Op) : Option (LodSrc × Int × Int) :=
  match o.instr with
  | .smpl x => some (.quad, x.ou.toInt, x.ov.toInt)
  | .smplg x => some (x.src, 0, 0)
  | .smpllLod x _ => some (.lod, x.ou.toInt, x.ov.toInt)
  | .smpllGrad x _ => some (.grad, x.ou.toInt, x.ov.toInt)
  | .sres x => some (if x.c.isSome then .lod else .quad, x.ou.toInt, x.ov.toInt)
  | _ => none

def Op.isSampler (o : Op) : Bool := o.smp.isSome

def Op.isSres (o : Op) : Bool := match o.instr with | .sres _ => true | _ => false
def Op.records (o : Op) : Bool := match o.instr with | .sres x => x.record | _ => false

/-- A limit of 12 R329 or, for SMPLG, of 11 R312. -/
def State.samplerFull (s : State) (e : Env) (gather : Bool) : Bool :=
  64 ≤ (s.ops.countP fun o => o.isSampler && clusterIdx o.core == clusterIdx e.t.core)
    || 8 ≤ ((s.opsOf e.g.gid).countP Op.isSampler) || (gather && s.mxFull e.t.id)

/-- The two halves of the descriptor, read first (12 R351). -/
def descParts (low : Nat) (addr : W64) : List Part := [newPart low .g addr 0 64 .waiting, newPart low .g addr 64 64 .waiting]

/-- Lanes whose coordinates are captured: the executing ones, and under the quad source their partners (12 R335). -/
def quadLanes (quad : Bool) (ex : W32) : List Nat :=
  (List.range 32).filter fun l => if quad then (List.range 4).any fun j => ex.getLsbD (l / 4 * 4 + j) else ex.getLsbD l

def issueSample (s : State) (i : Instr) (k : BitVec 3) (a : BitVec 5) (b : BitVec 6) (quad gather : Bool)
    (c : Env → Nat → List W64) : Out :=
  withEnv s fun e =>
    let ex := e.lanes k
    if s.samplerFull e gather then .next (s.hold e)
    else
      match lowestLane ex with
      | none => acceptFlag s e (newOp s e i ex [] []) true
      | some low =>
        let d := Store.read e.g.scal b.toNat
        let caps : List Cap := (quadLanes quad ex).map (fun l => ⟨0, 0, l, e.g.win64 a l⟩) ++ [⟨0, 1, low, d⟩]
          ++ (laneList ex).flatMap fun l => (c e l).map fun v => ⟨0, 2, l, v⟩
        acceptFlag s e (newOp s e i ex caps (descParts low d)) true

def gradCaps (c : BitVec 5) (e : Env) (l : Nat) : List W64 :=
  [e.g.winWord c 1 l ++ e.g.winWord c 0 l, e.g.winWord c 3 l ++ e.g.winWord c 2 l]

/-- SMPL (12 R346). -/
def execSmpl (x : SmplX) (s : State) : Out := issueSample s (.smpl x) x.k x.a x.b true false fun _ _ => []
/-- SMPLL.lod (12 R346). -/
def execSmpllLod (x : SmplX) (c : Src) (s : State) : Out :=
  issueSample s (.smpllLod x c) x.k x.a x.b false false fun e l => [e.src32 c l]
/-- SMPLL.grad (12 R346). -/
def execSmpllGrad (x : SmplX) (c : BitVec 5) (s : State) : Out :=
  issueSample s (.smpllGrad x c) x.k x.a x.b false false (gradCaps c)
/-- SMPLG (12 R347, R348). -/
def execSmplg (x : SmplgX) (s : State) : Out :=
  issueSample s (.smplg x) x.k x.a x.b (x.src == .quad) true fun e l =>
    match x.src, x.c with
    | .lod, some c => [e.src32 c l]
    | .grad, some (.w n) => gradCaps n e l
    | _, _ => []
/-- SRES (12 R349). -/
def execSres (x : SresX) (s : State) : Out :=
  issueSample s (.sres x) x.k x.a x.b x.c.isNone false fun e l =>
    match x.c with
    | some c => [e.src32 c l]
    | none => []

/-! ## What a lane samples -/

def Op.uv (o : Op) (l : Nat) : Nat × Nat := let c := o.cap 0 l; (fld c 31 0, fld c 63 32)

/-- C of a lane: its captured words in order. -/
def Op.cWords (o : Op) (l : Nat) : List W64 :=
  (o.caps.filter fun c => c.kind == 0 && c.index == 2 && c.lane == l).map (·.value)

def Op.lodIn (o : Op) (l : Nat) : LodIn :=
  match o.smp with
  | some (.lod, _, _) => .lod (fld ((o.cWords l).getD 0 0) 31 0)
  | some (.grad, _, _) =>
    let a := (o.cWords l).getD 0 0
    let b := (o.cWords l).getD 1 0
    .diff (fld a 31 0) (fld a 63 32) (fld b 31 0) (fld b 63 32)
  | _ =>
    let t := l / 4 * 4
    let ro := l % 4 / 2
    let co := l % 2
    let d (a b : Nat) : Nat × Nat := (fSub (o.uv a).1 (o.uv b).1, fSub (o.uv a).2 (o.uv b).2)
    let x := d (t + 2 * ro + 1) (t + 2 * ro)
    let y := d (t + 2 + co) (t + co)
    .diff x.1 x.2 y.1 y.2

/-- Keys of the command's buffer: 65,536 for each lane (texel bytes of tap t at 16 × t, latents at 4,096, the network at
8,192, the state of its bits at 12,288), and the descriptor after all lanes. -/
def descKey : Nat := 2 ^ 24
def laneBuf (l : Nat) : Nat := 65536 * l

/-- Bytes of the buffer as a number. -/
def Op.bufNat (o : Op) (at_ n : Nat) : Nat := sliceNat o.buf at_ n

def Op.tex (o : Op) : Tex := parseTex (o.bufNat descKey 128)

def Op.lodLane (o : Op) (l : Nat) : Lod := lodOf o.tex (o.lodIn l)

def Op.taps (o : Op) (l : Nat) : List Tap :=
  match o.smp with
  | some (_, ou, ov) => lanesTaps o.tex (o.uv l).1 (o.uv l).2 (o.lodLane l) ou ov
  | none => []

def Op.finite (o : Op) (l : Nat) : Bool := coordsFinite (o.uv l).1 (o.uv l).2 (o.lodLane l)

/-- Lanes that the command serves: SMPLG serves one half of the group (12 R347). -/
def Op.served (o : Op) : W32 :=
  match o.instr with
  | .smplg x => o.ex &&& (if x.hi then 0xFFFF0000 else 0x0000FFFF)
  | _ => o.ex

/-- A lane is served from the blanket: its mark in the buffer (12 R342). -/
def Op.blanket (o : Op) (l : Nat) : Bool := o.bufNat (laneBuf l + 12288) 1 == 1

/-! ## Reads (12 R330, R353) -/

/-- A read's fault: of its lane, or of every executing lane while the descriptor is read (12 R351). -/
def smpFault (s : State) (o : Op) (i : Nat) (p : Part) (kind detail level st : Nat) (addr : W64) : Out :=
  let f (l : Nat) := memFault s.device 9 4 0 kind detail level st o.clause o.word.toNat o.run.toNat l addr addr
  let lanes := if o.stage == 0 then laneList o.ex else [p.lane]
  .next (s.setOp (lanes.foldl (fun (q : Op) l => q.addFault (f l)) (o.setPart i { p with st := .faulted })))

/-- A sampler fault is that of every executing lane (12 R351). -/
def smpBad (s : State) (o : Op) (i : Nat) (p : Part) (detail : Nat) : Out :=
  let o := o.setPart i { p with st := .faulted }
  .next (s.setOp ((laneList o.ex).foldl (fun (q : Op) l => q.addFault (engineFault s o 9 detail 9 .g l (o.cap 1 o.low))) o))

/-- Where a read of the sampler lies: the key in `f`.  Its address is translated once (08 R238). -/
def smpPlace (s : State) (o : Op) (i : Nat) (p : Part) (addr : W64) (f : Nat → Out) : Out :=
  if p.held.isSome then .refused .eventNotEnabled
  else
  match p.site (s.global o.core .sampler addr) with
  | .hold page => holdPart s o i p page
  | .bad k d l st => smpFault s o i p k d l st addr
  | .at key _ =>
    request s o i p key none <|
    if s.poisoned key then
      let ls := s.leafLS o.core .g addr
      smpFault s o i p 6 1 ls.1 ls.2 addr
    else f key

/-- A texel read: from memory as it stands, or from one of the reads that the cluster's cache has answered since it was
last invalidated and that holds all its bytes; which one is a free value (12 R353, R354). -/
def State.texelRead (s : State) (core key n : Nat) : List Byte × State :=
  let mine := s.scache.filter fun (c : Nat × Nat × List Byte) =>
    c.1 == clusterIdx core && c.2.1 ≤ key && key + n ≤ c.2.1 + c.2.2.length
  let f := s.free
  let now := let r := s.postRead key n; leBytes n r.1
  match mine[f.1.toNat % (mine.length + 1)]? with
  | some c => ((c.2.2.drop (key - c.2.1)).take n, f.2)
  | none =>
    let t := (f.2.postRead key n).2
    (now, { t with scache := t.scache ++ [(clusterIdx core, key, now)] })

/-- The residency bit of a place (12 R341). -/
def residencyBit (place : Nat) : Nat := place / 65536

/-- A part of a lane: a read of `len` bytes kept at `key` of the buffer. -/
def lanePart (l : Nat) (addr : Nat) (len key : Nat) : Part :=
  { newPart l .g (BitVec.ofNat 64 addr) 0 len .waiting with key := key }

/-- Parts of a lane served from the blanket: its latents and the network. -/
def blanketParts (t : Tex) (o : Op) (l : Nat) : List Part :=
  if t.latent == 0 then []
  else
    (latentTaps t (o.uv l).1 (o.uv l).2).map (fun q => lanePart l (t.latent + 16 * q.2.2) 16 (laneBuf l + 4096 + 16 * q.1))
      ++ (List.range 8).map fun j => lanePart l (t.network + 64 * j) (if j == 7 then 8 else 64) (laneBuf l + 8192 + 64 * j)

def texelParts (t : Tex) (l : Nat) (taps : List Tap) : List Part :=
  taps.filterMap fun x => x.place.map fun pl =>
    lanePart l (t.base + pl) (texBytes t.format) (laneBuf l + 16 * x.index)

/-- The residency read of a lane is done: what it reads next (12 R342), or for SRES its answer (12 R349). -/
def residencyDone (s : State) (o : Op) (i : Nat) (p : Part) (t : Tex) (bits : List (Tap × Bool)) : Out :=
  let l := p.lane
  let o := o.setPart i { p with st := .done }
  let missing := bits.filter fun q => !q.2
  let bitOf (q : Tap × Bool) : Nat := residencyBit (q.1.place.getD 0)
  if o.isSres then
    let first := match missing.head?, bits.head? with | some q, _ => bitOf q | none, some q => bitOf q | none, none => 0
    let o := o.putBuf (laneBuf l + 12288) (leBytes 1 (if missing.isEmpty then 0 else 1) ++ leBytes 7 first)
    .next (s.setOp (o.putBuf (laneBuf l) (missing.flatMap fun q => leBytes 5 (2 ^ 32 + bitOf q))))
  else if missing.isEmpty then
    .next (s.setOp { o.putBuf (laneBuf l + 12288) [0] with parts := o.parts ++ texelParts t l (o.taps l) })
  else .next (s.setOp { o.putBuf (laneBuf l + 12288) [1] with parts := o.parts ++ blanketParts t o l })

/-- Where the residency bit of a lane's n-th present tap is kept. -/
def bitBuf (l n : Nat) : Nat := laneBuf l + 16384 + n

/-- A lane's residency read (12 R342): the bits of its present taps, one after another, each by a request of its own; `off`
of the part counts those read.  Without a map every page is resident. -/
def bitPart (s : State) (o : Op) (i : Nat) (p : Part) (t : Tex) : Out :=
  let taps := (o.taps p.lane).filter fun x => x.place.isSome
  let upTo (o : Op) : List (Tap × Bool) := (taps.zipIdx).map fun q => (q.1, t.map == 0 || o.bufNat (bitBuf p.lane q.2) 1 == 1)
  match if t.map == 0 then none else (taps[p.off]?).bind fun x => x.place with
  | none => residencyDone s o i p t (upTo o)
  | some pl =>
    let n := residencyBit pl
    smpPlace s o i p (BitVec.ofNat 64 (t.map + n / 8)) fun key =>
      let q := { p with off := p.off + 1, sent := none, way := none }
      let o := (o.setPart i q).putBuf (bitBuf p.lane p.off) [if ((s.postRead key 1).1).testBit (n % 8) then 1 else 0]
      if taps.length == p.off + 1 then residencyDone s o i q t (upTo o) else .next (s.setOp o)

/-- The pages that SRES records: each non-resident bit that an executing lane needs, once (12 R350). -/
def Op.wanted (o : Op) : List Nat :=
  (laneList o.ex).foldl (fun (acc : List Nat) l =>
    (List.range 128).foldl (fun (acc : List Nat) j =>
      let v := o.bufNat (laneBuf l + 5 * j) 5
      if v < 2 ^ 32 || acc.contains (v - 2 ^ 32) then acc else acc ++ [v - 2 ^ 32]) acc) []

/-- Bytes of the residency map, and so the place of the request map (12 R341). -/
def Tex.mapBytes (t : Tex) : Nat := ((t.span + 524287) / 524288 + 63) / 64 * 64

/-- Parts of the request map's ORs: the bit in `off`. -/
def recordParts (o : Op) : List Part :=
  let t := o.tex
  if t.map == 0 then []
  else o.wanted.map fun n => newPart o.low .g (BitVec.ofNat 64 (t.map + t.mapBytes + n / 8)) (n % 8) 1 .waiting

/-- An OR of a byte of the request map at its home, as a relaxed atomic; one that meets poison faults (08 R250). -/
def recordOr (s : State) (o : Op) (i : Nat) (p : Part) (lose : Bool) : Out :=
  let fault (k d l st : Nat) : Out :=
    let f := memFault s.device 2 4 0 k d l st o.clause o.word.toNat o.run.toNat p.lane p.addr p.addr
    .next (s.setOp ((o.setPart i { p with st := .faulted }).addFault f))
  need p.held.isNone <|
  match p.site (s.global o.core .atomic p.addr) with
  | .hold page => holdPart s o i p page
  | .bad k d l st => fault k d l st
  | .at key _ =>
    request s o i p key none <|
    if s.duplicate o.requester p.sent then .next (s.setOp (o.setPart i { p with st := .done }))
    else if !s.inTurn o.requester (blockOf key) (s.lineOf p) then .refused .eventNotEnabled
    else if s.poisoned key then
      let ls := s.leafLS o.core .g p.addr
      fault 6 1 ls.1 ls.2
    else
      let r := s.postRead key 1
      let s := (r.2.engineLine o.core key).putLe key 1 (r.1 ||| 2 ^ p.off)
      .next (((s.touch o.gid key).noted o.requester p.sent).setOp (o.setPart i (if lose then p.lose else { p with st := .done })))

/-- The descriptor's halves have been read: it is checked, and each served lane begins. -/
def descDone (s : State) (o : Op) (i : Nat) (p : Part) : Out :=
  if !((o.parts.take 2).all fun q => q.st == .done) then .next (s.setOp o)
  else if !texValid (o.bufNat descKey 128) then smpBad s o i p 2
  else
    let lanes := (laneList o.served).filter fun l => o.finite l
    .next (s.setOp { o with stage := 1, parts := lanes.map fun l => lanePart l 0 0 0 })

/-- HOME_REQUEST for a part of a sampler command. -/
def samplerPart (s : State) (o : Op) (i : Nat) (p : Part) (lose : Bool) : Out :=
  need (p.st == .waiting && s.engineClear o && (!lose || o.stage == 2)) <|
    if o.stage == 0 then
      let d := o.cap 1 o.low
      if d.toNat % 64 != 0 then smpBad s o i p 1
      else
        smpPlace s o i p (d + BitVec.ofNat 64 p.off) fun key =>
          let r := s.postRead key 64
          descDone r.2 ((o.setPart i { p with st := .done }).putBuf (descKey + p.off) (leBytes 64 r.1)) i p
    else if o.stage == 2 then recordOr s o i p lose
    else if p.len == 0 then
      bitPart s o i p o.tex
    else
      smpPlace s o i p p.addr fun key =>
        let r := s.texelRead o.core key p.len
        .next (r.2.setOp ((o.setPart i { p with st := .done }).putBuf p.key r.1))

/-! ## Results -/

/-- Bytes of a lane's present taps. -/
def Op.tapBytes (o : Op) (l : Nat) (t : Tex) (x : Tap) : Option Nat :=
  x.place.map fun _ => o.bufNat (laneBuf l + 16 * x.index) (texBytes t.format)

/-- The blanket's outputs for a lane. -/
def Op.blanketVal (o : Op) (l : Nat) (t : Tex) (lod : Int) : List Nat :=
  if t.latent == 0 then [0, 0, 0, 0]
  else
    blanketOut ((latentTaps t (o.uv l).1 (o.uv l).2).map fun q => (q.2.1, o.bufNat (laneBuf l + 4096 + 16 * q.1) 16))
      (o.bufNat (laneBuf l + 8192) 456) lod

/-- The four channels of a lane in a format (12 R346). -/
def Op.channels (o : Op) (l : Nat) (f : Fmt) : List Nat :=
  let t := o.tex
  if !o.finite l then [0, 0, 0, 0]
  else if o.blanket l then
    (o.blanketVal l t (o.lodLane l).lod).map fun b => (deliver f .rne false (fOf b, 0)).1
  else
    let taps := (o.taps l).map fun x => (x, o.tapBytes l t x)
    (List.range 4).map fun c => filtered t f c taps

/-- Lanes served from the blanket. -/
def Op.approx (o : Op) : W32 := o.served &&& laneMask fun l => o.blanket l && o.finite l

/-- The status word (12 Table 12.4). -/
def Op.status (o : Op) (l : Nat) : W64 :=
  let d := o.lodLane l
  BitVec.ofNat 64 (o.approx.toNat + 2 ^ 32 * (Int.emod d.lod 65536).toNat + 2 ^ 48 * (o.tex.level d.lod).1)

/-- SRES's value (12 Table 12.6). -/
def Op.sresVal (o : Op) (l : Nat) : W64 :=
  let d := o.lodLane l
  let base := 2 ^ 32 * (Int.emod d.lod 65536).toNat + 2 ^ 48 * (o.tex.level d.lod).1
  if !o.finite l then BitVec.ofNat 64 base
  else
    let v := o.bufNat (laneBuf l + 12288) 8
    BitVec.ofNat 64 (base + v / 256 % 2 ^ 28 + 2 ^ 63 * (v % 256))

/-- The channels written in a window (12 R346). -/
def Op.sampleWords (o : Op) (d : BitVec 5) (half : Bool) (g : Group) : Group :=
  let ch : Nat → List Nat := fun l => o.channels l (if half then fmt16 else fmt32)
  if half then
    let w (c l : Nat) : W32 := BitVec.ofNat 32 ((ch l).getD c 0 + 65536 * (ch l).getD (c + 1) 0)
    (g.setWin o.ex d 0 (w 0)).setWin o.ex d 1 (w 2)
  else (List.range 4).foldl (fun (g : Group) c => g.setWin o.ex d c fun l => BitVec.ofNat 32 ((ch l).getD c 0)) g

/-- The two tiles that SMPLG writes: elements of the weight rows and the texel rows (12 R347). -/
def Op.gatherTiles (o : Op) (x : SmplgX) : List Byte × List Byte :=
  let t := o.tex
  let f := if x.fp16 then fmt16 else fmtBf
  let enc (v : Fp) : Nat := (deliver f .rne false (v, 0)).1
  -- weight and four channels of element q of the half's lane m
  let cell (m q : Nat) : Nat × List Nat :=
    let l := (if x.hi then 16 else 0) + m
    if !o.ex.getLsbD l || !o.finite l then (0, [0, 0, 0, 0])
    else if o.blanket l then
      if x.g == 0 && q == 0 then (enc (.fin false 1 0), (o.blanketVal l t (o.lodLane l).lod).map fun b => enc (fOf b))
      else (0, [0, 0, 0, 0])
    else
      match (o.taps l).find? fun y => y.index == 4 * x.g.toNat + q with
      | none => (0, [0, 0, 0, 0])
      | some y =>
        (enc y.fp, (List.range 4).map fun c => enc (overDen (tapValue t c (o.tapBytes l t y)) (texDen t.format c)))
  let cells := (List.range 64).map fun e => cell (e / 4) (e % 4)
  let wrow (m : Nat) : List Byte := (List.range 64).flatMap fun e =>
    leBytes 2 (if e / 4 == m then (cells.getD e (0, [])).1 else 0)
  let trow (c : Nat) : List Byte := (List.range 64).flatMap fun e => leBytes 2 (((cells.getD e (0, [])).2).getD c 0)
  ((List.range 16).flatMap wrow, (List.range 4).flatMap trow ++ List.replicate (12 * 128) 0)

def gather (s : State) (o : Op) (x : SmplgX) (w : Group × Team × Grid) : State :=
  let q := w.1.quad
  let r := o.gatherTiles x
  s.setTeam ((((w.2.1.zeroTile q x.texel.toNat).zeroTile q x.weight.toNat).setTile q x.weight.toNat 0 r.1).setTile q
    x.texel.toNat 0 r.2)

/-- OPERATION_COMPLETE for a sampler command. -/
def samplerComplete (s : State) (o : Op) : Out :=
  if o.ex = 0 then .next (s.finishWith o fun g => g.late o .queue true fun _ => 0)
  else
    need (o.stage != 0 && o.allDone) <|
    match o.instr with
    | .smpl x | .smpllLod x _ | .smpllGrad x _ =>
      .next (s.finishWith o fun g => o.sampleWords x.d x.half (g.late o .queue true o.status))
    | .smplg x =>
      needSome (s.ownerOf o) fun w =>
        need (s.mxTurn w.2.1.id o) (.next ((gather s o x w).finishWith o fun g => g.late o x.d true o.status))
    | .sres x =>
      if x.record && o.stage == 1 then .next (s.setOp { o with stage := 2, parts := recordParts o })
      else .next (s.finishWith o fun g => g.late o x.d true o.sresVal)
    | _ => .refused .eventNotEnabled

end Sys2Proof.Machine
end

