-- ==== Sys2Proof/Machine/System.lean ====
section
/-!
DEFINITION. The instructions of the work scheduler and the system instructions (14 R396-R400): LAUNCH, emission, ACCGROW,
NOP, TRAP, BKPT, ERET, the group's own control registers and PTIME.
-/

namespace Sys2Proof.Machine

/-- A scheduler fault at its own word (14 R397, R398, R400). -/
def parkSched (s : State) (e : Env) (detail : Nat) : Out :=
  parkWord s e e.g (schedFault detail e.r.addr e.r.idx e.r.runNo)

/-! ## LAUNCH (14 R375, R397) -/

/-- Teams of a launch as 14 Table 14.4 packs them. -/
def teamsOf (v : W64) : Nat × Nat × Nat := (fld v 31 0, fld v 47 32, fld v 63 48)

def teamCount (v : W64) : Nat := (teamsOf v).1 * (teamsOf v).2.1 * (teamsOf v).2.2

/-- A teams product above 2^31 or a chip-scratchpad window past slice 511 (14 Table 14.6). -/
def badShape (teams window : W64) : Bool :=
  2 ^ 31 < teamCount teams || 512 < fld window 15 0 + fld window 31 16

/-- Nested launches whose kernel object is still to be read. -/
def State.pendingLaunches (s : State) : Nat := s.grids.countP fun g => g.pending.isSome && g.parentGrid.isSome

/-- The child grid that a LAUNCH names, before the scheduler has read its kernel object. -/
def childGrid (s : State) (e : Env) (x : LaunchX) (o : Op) (ko params : W64) : Grid :=
  let blk : Nat → W64 := fun i => Store.read e.g.scal (x.n.toNat + i)
  let t := teamsOf (blk 0)
  { e.gr with
    id := s.nextGrid
    ko := emptyKObj ko
    dimX := t.1
    dimY := t.2.1
    dimZ := t.2.2
    params := []
    depth := e.gr.depth + 1
    parentGroup := some e.g.gid
    parentTeam := some e.t.id
    parentGrid := some e.gr.id
    hang := if fld (blk 2) 47 32 == 0 then e.gr.hang else BitVec.ofNat 32 (fld (blk 2) 47 32)
    clasp := x.cls.map fun sp => (sp, blk 1)
    scope := x.scope
    status := blk 3
    winFirst := fld (blk 2) 15 0
    winCount := fld (blk 2) 31 16
    nextTeam := 0
    doneTeams := 0
    killed := none
    serves := none
    node := none
    level := 0
    pending := some (ko, params)
    gate := s.nextId
    origin := some o }

/-- LAUNCH (14 R397): the depth and the launch block are checked at its word; the child's gridid is pushed at issue. -/
def execLaunch (x : LaunchX) (s : State) : Out :=
  withEnv s fun e =>
    let ex := e.lanes x.k
    match lowestLane ex with
    | none => wordDone s e (e.g.resultAll ex x.d true 0)
    | some low =>
      let blk : Nat → W64 := fun i => Store.read e.g.scal (x.n.toNat + i)
      if 10 ≤ e.gr.depth || !e.gr.ko.flags.getLsbD 1 then parkSched s e 1
      else if badShape (blk 0) (blk 2) || fld (blk 2) 63 48 != 0 then parkSched s e 6
      else if 65536 ≤ s.pendingLaunches then .next (s.hold e)
      else
        let caps : List Cap := [⟨0, 0, low, e.src64 x.a low⟩, ⟨0, 1, low, e.src64 x.b low⟩]
          ++ (List.range 4).map fun j => ⟨1, x.n.toNat + j, 0, blk j⟩
        let o := newOp s e (.launch x) (laneBit low) caps []
        let child := childGrid s e x o (e.src64 x.a low) (e.src64 x.b low)
        let id := s.nextGrid
        let s := { s with grids := s.grids ++ [child], nextGrid := s.nextGrid + 1 }
        wordDone s e (e.g.resultAll ex x.d true id)

/-! ## Emission (14 R398) -/

/-- The target of an emission, or none where its use is a scheduler fault with detail 3. -/
def emitTarget (s : State) (e : Env) (n : BitVec 3) (cap : Option (BitVec 5)) (present : Bool) :
    Option (Graph × Nat × GNode) :=
  match s.outputOf e.gr n.toNat with
  | none => none
  | some t =>
    let room := match cap with
      | some w => t.2.2.recBytes ≤ 4 * e.gr.ko.caps.getD w.toNat 0
      | none => true
    if e.gr.ko.flags.getLsbD 2 && room && (present || t.2.2.type != 4) then some t else none

/-- The first `r` bytes of a lane's window. -/
def Env.winBytes (e : Env) (w : BitVec 5) (l r : Nat) : List Byte :=
  (List.range (r / 4)).flatMap fun j => leBytes 4 (e.g.winWord w j l).toNat

/-- Records of some lanes enter the pool in ascending lane order, or the clause holds (14 R381). -/
def emitLanes (s : State) (e : Env) (ex : W32) (w : BitVec 5) (t : Graph × Nat × GNode) (st : Nat → RecSt) : Out :=
  let r := t.2.2.recBytes
  if !s.poolRoom t.1 (r * (laneList ex).length) then .next (s.hold e)
  else
    let gate := s.nextId
    let s := (laneList ex).foldl (fun (s : State) l =>
      s.addRec t.1.id t.2.1 e.g.gid gate e.t.id (e.winBytes w l r) (st l)) s
    wordDone s e e.g

/-- EMIT (14 R398). -/
def execEmit (k : BitVec 3) (a : BitVec 5) (n : BitVec 3) (s : State) : Out :=
  withEnv s fun e =>
    let ex := e.lanes k
    if ex = 0 then wordDone s e e.g
    else
      match emitTarget s e n (some a) false with
      | none => parkSched s e 3
      | some t => emitLanes s e ex a t fun _ => .sent

/-- RELAT (14 R387, R398): a record is held until its release time. -/
def execRelat (k : BitVec 3) (a : BitVec 5) (b : Src) (n : BitVec 3) (s : State) : Out :=
  withEnv s fun e =>
    let ex := e.lanes k
    if ex = 0 then wordDone s e e.g
    else
      match emitTarget s e n (some a) true with
      | none => parkSched s e 3
      | some t => emitLanes s e ex a t fun l =>
          let at_ := e.src64 b l
          if at_.toNat ≤ s.ctl.ptc then .sent else .held at_

/-- EMITN (14 R398): a flag-bound command that acts once. -/
def execEmitn (k : BitVec 3) (d : Dst) (a b : Src) (sp : Space) (n : BitVec 3) (s : State) : Out :=
  withEnv s fun e =>
    let ex := e.lanes k
    match lowestLane ex with
    | none => acceptFlag s e (newOp s e (.emitn k d a b sp n) ex [] []) true
    | some low =>
      let addr := e.src64 a low
      let count := e.src32 b low
      match emitTarget s e n none false with
      | none => parkSched s e 3
      | some t =>
        if 65536 < count.toNat then parkSched s e 3
        else
          let total := count.toNat * t.2.2.recBytes
          acceptFlag s e (newOp s e (.emitn k d a b sp n) ex [⟨0, 0, low, addr⟩, ⟨0, 1, low, count⟩]
            [newPart low sp addr 0 total (if total == 0 then .done else .waiting)]) true

/-- The next bytes of an EMITN, up to the end of a block; `off` of its one part counts the bytes read. -/
def emitnPart (s : State) (o : Op) (i : Nat) (p : Part) : Out :=
  needSome (s.ownerOf o) fun w =>
    need (p.st == .waiting && p.held.isNone && s.engineClear o) <|
      let a := p.addr + BitVec.ofNat 64 p.off
      let m := Nat.min (p.len - p.off) (64 - a.toNat % 64)
      let ls := s.leafLS o.core p.sp a
      let fault (kind detail level st : Nat) : Out :=
        .next (s.setOp ((o.setPart i { p with st := .faulted }).addFault
          (memFault s.device 0 (spaceNum p.sp) 0 kind detail level st o.clause o.word.toNat o.run.toNat p.lane p.addr a)))
      match p.site (s.place w.2.1 w.2.2 w.1.grpid.toNat p.lane .load p.sp a m 1) with
      | .hold page => holdPart s o i p page
      | .bad k d l st => fault k d l st
      | .at key region =>
        let st : PartSt := if p.off + m == p.len then .done else .waiting
        let take (s : State) : Out :=
          .next (s.setOp ((o.setPart i { p with off := p.off + m, asked := false, commut := none, st := st, sent := none, way := none }).putBuf p.off
            (s.bytes key m)))
        if s.scoreHold o.gid o.id key m false then .refused .eventNotEnabled
        else request s o i p key region <|
          match region.bind s.region? with
          | some r => tolRead s o i p key r (some 0) fun s => if s.poisoned key then fault 6 1 ls.1 ls.2 else take s
          | none =>
            if region.isSome then fault 2 5 ls.1 ls.2
            else if s.poisoned key then fault 6 1 ls.1 ls.2
            else
              let owner := if isHbm key then (s.dirOf (blockOf key)).owner else none
              withOwner s o i p owner key false false (take s)

/-- EMITN emits what the pool has room for; its count is the result once the last record is in (14 R381, R398). -/
def emitnComplete (s : State) (o : Op) (d : Dst) (n : BitVec 3) : Out :=
  if o.ex = 0 then .next (s.finishWith o fun g => g.late o d false fun _ => 0)
  else
    needSome (s.ownerOf o) fun w =>
    needSome (s.outputOf w.2.2 n.toNat) fun t =>
      let r := t.2.2.recBytes
      let count := (o.cap 1 ((lowestLane o.ex).getD 0)).toNat
      let room := (t.1.pool - s.poolUsed t.1.id) / r
      let m := Nat.min (count - o.cursor) room
      need (o.allDone && (m != 0 || o.cursor == count)) <|
        let s := (List.range m).foldl (fun (s : State) j =>
          s.addRec t.1.id t.2.1 o.gid o.id w.2.1.id (Store.readList o.buf ((o.cursor + j) * r) r) .sent) s
        if o.cursor + m == count then .next (s.finishWith o fun g => g.late o d false fun _ => BitVec.ofNat 64 count)
        else .next (s.setOp { o with cursor := o.cursor + m })

/-- Accumulator units granted on a core. -/
def State.unitsUsed (s : State) (core : Nat) : Nat :=
  (s.teams.filter fun t => t.core == core && t.resident).foldl (fun n t => n + t.accUnits) 0

/-! ## System instructions (14 R400) -/

/-- NOP. -/
def execNop (_k : BitVec 3) (s : State) : Out := withEnv s fun e => wordDone s e e.g

/-- TRAP and BKPT: the group parks with the code and the executing lanes; with no lane, the clause falls through. -/
def softTrap (s : State) (k : BitVec 3) (cause : Nat) (code : BitVec 16) : Out :=
  withEnv s fun e =>
    let ex := e.lanes k
    if ex = 0 then wordDone s e e.g
    else parkWord s e e.g
      { cause := BitVec.ofNat 8 cause, detail := 0, fields := [.num 16 code.toNat, .num 32 ex.toNat], lanes := ex,
        service := none }

/-- TRAP. -/
def execTrap (k : BitVec 3) (code : BitVec 16) (s : State) : Out := softTrap s k 12 code
/-- BKPT. -/
def execBkpt (k : BitVec 3) (code : BitVec 16) (s : State) : Out := softTrap s k 13 code

/-- The parked group whose image a handler was handed under a virtual address (log 9). -/
def State.imageNamed (s : State) (va : W64) : Option Group :=
  s.groups.find? fun g => g.st == .parked &&
    (match g.park with
     | some p => (match p.route with | .handler _ => true | _ => false) && (Config.imageVa p.image.toNat).setWidth 64 == va
     | none => false)

def State.residentGroup (s : State) (g : Group) : Bool :=
  match s.team? g.team with
  | some t => t.resident
  | none => false

/-- ERET (14 R392, R400): the return from a park, once the handler's earlier accesses have performed; the handler goes on
behind it. -/
def execEret (k : BitVec 3) (a b : Src) (s : State) : Out :=
  withEnv s fun e =>
    match lowestLane (e.lanes k) with
    | none => wordDone s e e.g
    | some low =>
      let action := (e.src32 b low).toNat
      match s.imageNamed (e.src64 a low) with
      | none => parkSched s e 4
      | some g =>
        if 4 ≤ action then parkSched s e 4
        else if (s.opsOf e.g.gid).any (fun o => o.fault.isNone) || !s.residentGroup g then .next (s.hold e)
        else andThen (s.resume g action) fun t =>
          -- its own group may be among those that the action killed
          match t.envOf t.focus with
          | some e => wordDone t e e.g
          | none => .next t

/-- 14 Table 14.13. -/
def Env.csr (e : Env) (csr : Nat) : W64 :=
  match csr with
  | 1 => if e.gr.node.isSome then e.gr.level.setWidth 64 else 0
  | 2 => e.gr.deadline
  | 3 => BitVec.ofNat 64 (e.gr.cls.toNat + 16 * e.gr.prio.toNat)
  | 4 => e.g.hang.setWidth 64
  | _ => e.g.trace.setWidth 64

/-- CSRR. -/
def execCsrr (k : BitVec 3) (d : Dst) (csr : BitVec 12) (s : State) : Out :=
  withEnv s fun e => wordDone s e (e.g.resultAll (e.lanes k) d true (e.csr csr.toNat))

/-- CSRW, with the operand of the lowest executing lane: a hang limit above the launch's is ignored. -/
def execCsrw (k : BitVec 3) (a : Src) (csr : BitVec 12) (s : State) : Out :=
  withEnv s fun e =>
    match lowestLane (e.lanes k) with
    | none => wordDone s e e.g
    | some low =>
      let v := e.src64 a low
      if csr.toNat == 4 then
        wordDone s e (if e.gr.hang.toNat < v.toNat then e.g else { e.g with hang := v.setWidth 32 })
      else wordDone s e { e.g with trace := v.setWidth 32 }

/-- PTIME. -/
def execPtime (k : BitVec 3) (d : Dst) (s : State) : Out :=
  withEnv s fun e => wordDone s e (e.g.resultAll (e.lanes k) d true (BitVec.ofNat 64 (s.ptcOn (dieOfCore e.t.core))))

/-- PTIME.skew. -/
def execPtimeSkew (k : BitVec 3) (d : Dst) (s : State) : Out :=
  withEnv s fun e => wordDone s e (e.g.resultAll (e.lanes k) d true s.ctl.ptskew)

end Sys2Proof.Machine
end

