-- ==== Sys2Proof/Machine/Home.lean ====
section
/-!
DEFINITION. The parts of the engines' commands at their homes (06 R171), the completion of commands (01 R18, R21) and
the delivery of their faults (01 R22, 07 R207, 09 R274, R276, 14 R397).
-/

namespace Sys2Proof.Machine

/-! ## Parts -/

/-- One part of a command is performed; `lose` when its answer is then lost on a link (15 R415). -/
def homePart (s : State) (o : Op) (i : Nat) (p : Part) (lose : Bool) : Out :=
  match o.instr with
  | .ld _ _ _ x _ | .ldtol _ _ _ _ x | .ldtolDet _ _ _ x => need (!lose) (loadPart s o i p x.size.bytes (sizeAlign x.size))
  | .vld .. | .ldtolV .. | .ldtolDetV .. => need (!lose) (vldPart s o i p)
  | .ldv .. => need (!lose) (ldvPart s o i p)
  | .ldbt .. => need (!lose) (ldbtPart s o i p)
  | .mapq .. => need (!lose) (mapqPart s o i p)
  | .st .. | .stv .. | .vst .. | .stbt .. | .stadd .. | .staddV .. => storePart s o i p lose
  | .pfx _ _ r => need (!lose) (pfxPart s o i p r)
  | .drain .. | .drainR .. => need (!lose) (drainPart s o i p)
  | .copy _ | .copy2d _ | .copy3d _ | .copym _ => if i == 2 then copyCount s o lose else copyPart s o i p false lose
  | .clinit .. | .clexp .. | .clarr .. | .cltest .. | .clinv .. => claspPart s o i p lose
  | .mma _ | .mmat _ | .mmafx _ | .tld _ | .tst _ | .accld _ | .accst _ | .popld _ | .prepld _ => matrixPart s o i p lose
  | .smpl _ | .smplg _ | .smpllLod .. | .smpllGrad .. | .sres _ => samplerPart s o i p lose
  | .emitn .. => need (!lose) (emitnPart s o i p)
  | _ => .refused .eventNotEnabled

/-- HOME_REQUEST: the home of one part of a command answers it (06 R171, R172, 07 R198). -/
def execHomeRequest (op part : Nat) (s : State) : Out :=
  needSome (s.op? op) fun o => needSome o.parts[part]? fun p => homePart s o part p false

/-- TOLERANCE_READ: a read of a commutative block at its home (07 R217-R221). -/
def execToleranceRead (op part : Nat) (s : State) : Out :=
  needSome (s.op? op) fun o => needSome o.parts[part]? fun p =>
    match o.instr with
    | .ld _ _ _ x _ | .ldtol _ _ _ _ x | .ldtolDet _ _ _ x => tolPart s o part p x.size.bytes (sizeAlign x.size)
    | .vld .. | .ldtolV .. | .ldtolDetV .. => tolPart s o part p 4 4
    | .copy _ | .copy2d _ | .copy3d _ | .copym _ => copyPart s o part p true false
    | _ => .refused .eventNotEnabled

/-! ## Completion -/

/-- The monitor source of a command's completion (15 Table 15.10): loads, tolerance reads, atomics and sampler commands. -/
def Op.source (o : Op) : Option Nat :=
  match o.instr with
  | .ldtol .. | .ldtolDet .. | .ldtolV .. | .ldtolDetV .. => some 1
  | .ld .. | .ldv .. | .vld .. | .ldbt .. => if o.parts.any (fun p => p.sp == .g) then some 0 else none
  | .smpl _ | .smplg _ | .smpllLod .. | .smpllGrad .. | .sres _ => some 4
  | _ => if o.isAtomic then some 3 else none

/-- A completion is captured once the command has gone; a tolerance read adds its recalls (15 Table 15.10). -/
def State.captureDone (s : State) (o : Op) : State :=
  match o.source, s.group? o.gid with
  | some src, some g =>
    if (s.op? o.id).isSome then s
    else s.captureFor src g (s.ctl.ptc - o.at_ + (if src == 1 then o.cursor * 2 ^ 24 else 0))
  | _, _ => s

/-- The result of a command whose last part has been performed. -/
def completeOp (s : State) (o : Op) : Out :=
  let whole (f : Group → Group) : Out := need o.allDone (.next (s.finishWith o f))
  match o.instr with
  | .ld _ d _ x sx => whole (o.loadResult d x.size.bytes sx)
  | .ldv _ d _ x | .ldtol _ d _ _ x | .ldtolDet _ d _ x => whole (o.loadResult d x.size.bytes false)
  | .vld _ d _ _ | .ldtolV _ d _ _ _ | .ldtolDetV _ d _ _ => need o.allDone (vldComplete s o d)
  | .ldbt _ d _ _ => whole fun g => g.late o d false fun l => BitVec.ofNat 64 (o.laneNat l 2)
  | .mapq _ d _ => whole fun g => g.late o d true fun l => BitVec.ofNat 64 (o.laneNat l 8)
  | .drain _ d | .drainR _ d _ =>
    need (s.drainsIn o) (whole fun g => g.late o d false fun _ => BitVec.ofNat 64 (o.laneNat 0 4))
  | .atom _ _ d _ _ x | .atomw _ _ d _ _ _ x | .fatom _ _ d _ _ x | .acas _ d _ _ _ x | .enq _ d _ _ x | .deq _ d _ x =>
    whole (o.atomResult d x.wide)
  | .cltest _ d _ _ _ => whole fun g => g.late o d true fun _ => BitVec.ofNat 64 (o.laneNat 0 8)
  | .fence m _ sc => fenceComplete s o m sc
  | .pfx .. => .next (s.dropOp o.id)
  | .emitn _ d _ _ _ n => emitnComplete s o d n
  | .smpl _ | .smplg _ | .smpllLod .. | .smpllGrad .. | .sres _ => samplerComplete s o
  | .mma _ | .mmat _ | .mmafx _ | .tld _ | .tst _ | .accld _ | .accst _ | .sclr .. | .prepld _ | .popld _ => matrixComplete s o
  | _ => .refused .eventNotEnabled

/-- Results come to a group that is not parked: a parked group's commands stay as its image has them (14 R395). -/
def State.takesResults (s : State) (gid : Nat) : Bool :=
  match s.group? gid with
  | some g => g.st != .parked
  | none => true

/-- OPERATION_COMPLETE (01 R18): a command that a skip ended writes nothing (14 R392). -/
def execOperationComplete (op : Nat) (s : State) : Out :=
  needSome (s.op? op) fun o =>
  need (o.fault.isNone && s.takesResults o.gid && !o.isCopy) <|
    if o.stage == 99 then .next (s.finish o)
    else andThen (completeOp s o) fun t => .next (t.captureDone o)

/-! ## Delivery of faults -/

/-- The fault that keeps a flag set: of a command bound to it, or of one that such a command waits for (01 R22, 09 R274
point 4), a matrix command of the group whose tiles or units it shares, or whose post program comes before its own, among them. -/
def State.flagFault (s : State) (gid : Nat) (f : BitVec 4) : Option Op :=
  match s.keeper gid fun o => o.flag == some f with
  | some o => some o
  | none => (s.opsOf gid).find? fun c => c.isMatrix && c.faulted &&
      (s.opsOf gid).any fun x => x.flag == some f && x.isMatrix && c.id < x.id
        && (c.mxUse.clash x.mxUse || (!c.postWords.isEmpty && !x.postWords.isEmpty))

/-- Flags of a set. -/
def flagList (m : BitVec 12) : List (BitVec 4) :=
  ((List.range 12).filter fun i => m.getLsbD i).map fun i => BitVec.ofNat 4 i

/-- The oldest command of some. -/
def oldestOp (os : List Op) : Option Op :=
  os.foldl (fun m o => match m with | none => some o | some x => if o.id < x.id then some o else some x) none

/-- The faults that a clause waits on, when nothing else holds it: the group's class is below its cap (14 R385), and
every flag it waits for is kept by a fault (01 R22). -/
def State.clauseFault (s : State) (g : Group) (core : Nat) : Option Op :=
  match s.peekWord core g.current with
  | none => none
  | some w =>
    let held := (flagList (g.flags &&& waitMask (Header.ofWord w))).map fun f => s.flagFault g.gid f
    if s.capped (s.classOf g) || held.isEmpty || held.any Option.isNone then none
    else oldestOp (held.filterMap id)

/-- A store whose link faulted, with a release or fence behind it whose scope contains its home (07 R207). -/
def State.releaseFault (s : State) (gid : Nat) : Option Op :=
  (s.opsOf gid).findSome? fun r =>
    if r.releases || r.isFence then
      match s.linkFaulted gid r.order.2 with
      | some q => if q.1.id < r.id then some q.1 else none
      | none => none
    else none

/-- The fault that the group has reached, where it stands now. -/
def State.dueFault (s : State) (g : Group) : Option Op :=
  match g.st with
  | .ready =>
    if g.run.isSome then none
    else if g.live = 0 then oldestOp ((s.opsOf g.gid).filter fun o => o.fault.isSome && (o.flag.isNone || o.settled))
    else
      match s.releaseFault g.gid with
      | some o => some o
      | none => match s.team? g.team with | some t => s.clauseFault g t.core | none => none
  | .blockedBatch n => s.batchFault g n
  | .blockedClasp sp addr _ _ _ => s.claspFault g 0 sp addr
  | .exited => oldestOp ((s.opsOf g.gid).filter fun o => o.fault.isSome)
  | _ => none

/-- FAULT_DELIVERY: the group parks with the record of the fault it has reached.  A command of a group that has ended is
not replayed (09 R276). -/
def execFaultDelivery (gid : Nat) (s : State) : Out :=
  needSome (s.group? gid) fun g =>
  needSome (s.dueFault g) fun o =>
  needSome o.fault fun f =>
    let dead := match s.team? g.team with
      | some t => (match s.grid? t.grid with | some gr => gr.killed.isSome | none => true)
      | none => true
    if g.st == .exited && dead then .next (s.dropOp o.id)
    else need (!s.samplerBusy gid) (parkOp (if g.st == .exited then s.dropOp o.id else s) g o f)

end Sys2Proof.Machine
end

