-- ==== Sys2Proof/Machine/Issue.lean ====
section
/-!
DEFINITION. CLAUSE_ISSUE: the arbiter's choice (03 R71, 14 R385), the fetch of a clause (02 R47, R48), its check (02 R33,
R46), and its start (02 R26, R31, 01 R18).
-/

namespace Sys2Proof.Machine

/-! ## Fetch -/

/-- What the fetch of one word comes to. -/
inductive Fetched where
  | word (w : W64)
  | fault (kind detail level st : Nat) (addr : W64)
  | wait (page : BitVec 32)
  deriving DecidableEq, Repr

/-- One word of a clause (02 R48). -/
def State.fetchWord (s : State) (core : Nat) (a : BitVec 48) : Fetched :=
  let addr : W64 := a.setWidth 64
  if addr.toNat % 8 != 0 then .fault 8 4 0 0 addr
  else
    match s.global core .fetch addr with
    | .hold page => .wait page
    | .bad k d l st => .fault k d l st addr
    | .at key _ =>
      if s.poisoned key then
        (match s.leafAt core addr with
         | some (e, l) => .fault 6 1 l (leafState e) addr
         | none => .fault 6 1 0 0 addr)
      else .word (BitVec.ofNat 64 (s.look key 8))

/-- Words 1 to `n` of a clause: all of them, or the first that cannot be read. -/
def State.fetchWords (s : State) (core : Nat) (a : BitVec 48) : Nat → Except Fetched (List W64)
  | 0 => .ok []
  | n + 1 =>
    match s.fetchWords core a n with
    | .error f => .error f
    | .ok ws =>
      match s.fetchWord core (a + BitVec.ofNat 48 (8 * (n + 1))) with
      | .word w => .ok (ws ++ [w])
      | f => .error f

/-- The home of a word of a clause, where a link lies on its way. -/
def State.wordHome (s : State) (core : Nat) (a : BitVec 48) : Option Nat :=
  match s.global core .fetch (a.setWidth 64) with
  | .at key _ => if s.remote core key then some (destOf s key) else none
  | _ => none

/-- The home that a clause is still to be fetched from: of its header, and then of its words. -/
def State.homeToAsk (s : State) (core : Nat) (a : BitVec 48) (got : List Nat) : Option Nat :=
  let new (i : Nat) : Option Nat := (s.wordHome core (a + BitVec.ofNat 48 (8 * i))).filter fun h => !got.contains h
  (new 0).orElse fun _ =>
    match s.fetchWord core a with
    | .word hw => if (headerDetail hw).isSome then none else (List.range (Header.ofWord hw).count).findSome? fun i => new (i + 1)
    | _ => none

/-- The fetch goes on over a link: its request is sent, or arrives and is answered (15 R414). -/
def fetchOn (s : State) (g : Group) (home : Nat) : Out :=
  let send (got : List Nat) : Out :=
    let n := s.flit home
    .next (n.2.setGroup { g with fetch := some ⟨n.1, 0, false, got⟩ })
  match g.fetch with
  | none => send []
  | some f =>
    if f.sent.arrived then send f.got
    else need (!f.lost && f.timeouts < 3 && s.arrives f.sent) (.next (s.setGroup { g with fetch := some f.answered }))

/-! ## Traps before the start -/

/-- The illegal-instruction trap's record (02 R33, R46): clause, word, detail, and the second detail byte. -/
def illegal (clause : BitVec 48) (word detail second : Nat) : FaultRec where
  cause := 1
  detail := BitVec.ofNat 8 detail
  fields := [.num 48 clause.toNat, .num 5 word, .num 8 detail, .num 8 second]
  lanes := 0
  service := none

/-- A clause that could not be fetched: its group parks, or waits for a quiesced page (08 R240). -/
def fetchStop (s : State) (g : Group) (a : BitVec 48) (f : Fetched) : Out :=
  match f with
  | .word _ => .refused .eventNotEnabled
  | .wait page => .next (s.setGroup { g with st := .blockedPage page, since := some (g.since.getD s.ctl.ptc) })
  | .fault k d l st addr => need (!s.samplerBusy g.gid) <| s.park g.gid (fetchFault s.device k d l st a g.activeLanes addr) 0 0 a none

/-! ## Issue -/

/-- The first ready group of a quadrant's list (03 R71). -/
def State.firstReady (s : State) (core quad : Nat) : Option Group :=
  ((s.quadGroups core quad).filter s.isReady).foldl
    (fun (m : Option Group) g => match m with | none => some g | some x => if g.order < x.order then some g else some x) none

/-- A clause has the quadrant's pipe, or waits for it in its middle (03 R72). -/
def State.pipeBusy (s : State) (core quad : Nat) : Bool :=
  s.pipeTaken core quad || (s.quadGroups core quad).any fun g => g.st == .ready && g.run.isSome

/-- The clause starts: its flags are set, those that no word is bound to clear at once (01 R18), and the lanes at the
issue address run it. -/
def State.startClause (s : State) (g : Group) (a : BitVec 48) (h : Header) (ws : List W64) (honourYield : Bool) : State :=
  let lanes := g.activeLanes
  let run : Run := { addr := a, hdr := h, words := ws, idx := 1, lanes := lanes, rep := none, runNo := 0, bound := 0, held := false,
                     pipe := true }
  let g := g.setFlags (setMask h)
  (s.charge (s.classOf g) ws.length).setGroup
    { g.clearFlags (s.doneFlags g.gid run) with
      run := some run, fetch := none, last := a, since := none, jumped := g.jumped &&& ~~~lanes, yielded := honourYield }

/-- CLAUSE_ISSUE: at an issue decision of a quadrant, its first ready group's clause is fetched, checked and started.
A bad header has detail 13 if any of the lanes at the issue address came there by a taken transfer (log 109). -/
def execClauseIssue (core quad : Nat) (honourYield : Bool) (s : State) : Out :=
  need (!s.pipeBusy core quad && s.resets.isEmpty) <|
  needSome (s.firstReady core quad) fun g =>
  needSome (s.team? g.team) fun t =>
  needSome (s.grid? t.grid) fun gr =>
  needSome g.issueAddr fun a =>
    -- a trap or fetch fault parks, and a park waits for the sampler (12 R356)
    let park (f : FaultRec) (i : Nat) (past : Option (BitVec 48)) : Out :=
      need (!s.samplerBusy g.gid) (s.park g.gid f i 0 a past)
    match s.homeToAsk core a (match g.fetch with | some f => f.got | none => []) with
    | some home => fetchOn s g home
    | none =>
    match s.fetchWord core a with
    | .word hw =>
      let past := a + BitVec.ofNat 48 (8 * ((Header.ofWord hw).count + 1))
      let jumped := g.jumped &&& g.activeLanes != 0
      match headerDetail hw with
      | some d => park (if jumped then illegal a 0 13 d else illegal a 0 d 0) 0 (some past)
      | none =>
        match s.fetchWords core a (Header.ofWord hw).count with
        | .error f => fetchStop s g a f
        | .ok ws =>
          match clauseDetail (ctxOf gr) hw ws with
          | some (i, d) => park (illegal a i d 0) i (some past)
          | none => .next (s.startClause g a (Header.ofWord hw) ws honourYield)
    | f => fetchStop s g a f

end Sys2Proof.Machine
end

