-- ==== Sys2Proof/Machine/Queue.lean ====
section
/-!
DEFINITION. Host queues (14 R371-R373, R429, R431): entries, halts and the operations 0 to 5; graph objects (14 R377);
hint lists (14 R394).
-/

namespace Sys2Proof.Machine

/-! ## Halts -/

/-- QUEUE_HALT (14 Table 14.3): the queue halts at a slot, and its vector is raised (15 R413). -/
def State.haltQueue (s : State) (q cause detail cond : Nat) (slot : W32) : State :=
  let h := s.queue q
  let v := setFld (setFld (setFld (setFld (setFld h.stat 63 63 1) 59 56 cond) 55 48 cause) 47 40 detail) 31 0 slot.toNat
  (s.setQueue q { h with stat := v }).msi q

/-! ## Entries -/

/-- Byte `o` and the bytes behind it, as a number. -/
def entryNat (b : List Byte) (o n : Nat) : Nat := leNat ((b.drop o).take n)

def entryWord (b : List Byte) (o : Nat) : W64 := BitVec.ofNat 64 (entryNat b o 8)

/-- Bytes that an operation names in an entry of a format (14 Table 14.4). -/
def entryNames (op fmt o : Nat) : Bool :=
  let launch := op == 1 || op == 2
  o == 0 || (1 ≤ op && (o == 1 || (8 ≤ o && o < 16)))
    || ((launch || op == 3 || op == 5) && 16 ≤ o && o < 24)
    || (launch && 24 ≤ o && o < 64)
    || (launch && fmt == 2 && ((64 ≤ o && o < 84) || o == 0x55 || (op == 2 && o == 0x54)))

/-- An entry breaks 14 Table 14.4: a nonzero reserved byte or bit, a class override or quality floor out of range. -/
def entryBad (op fmt : Nat) (b : List Byte) : Bool :=
  (List.range (64 * fmt)).any (fun o => !entryNames op fmt o && entryNat b o 1 != 0)
    || (1 ≤ op && 2 ≤ entryNat b 1 1)
    || (fmt == 2 && (op == 1 || op == 2) && (4 < entryNat b 0x55 1 && entryNat b 0x55 1 != 255))
    || (fmt == 2 && op == 2 && 3 < entryNat b 0x54 1)

def queueSizeOk (v : W64) : Bool := (List.range 13).any fun i => v.toNat == 2 ^ (i + 4)

/-- The scheduler reads the queue's entries (14 R371, R373, 15 R403): it is enabled, not halted, has an entry, and no
quiesce point of its own is under way. -/
def State.queueLive (s : State) (q : Nat) : Bool :=
  let h := s.queue q
  q < 64 && s.ctl.up && !s.ctl.halted && h.ctl.getLsbD 0 && !h.stat.getLsbD 63 && h.tail.setWidth 32 != h.head
    && s.ctl.ctxbase.getLsbD 0 && fld s.ctl.svclogb 4 0 != 0 && s.resets.isEmpty
    && !(s.quiesces.any fun j => j.queue == some q)

/-- What QCTL gives every entry: the class and the priority must be valid (14 Table 14.2). -/
def queueCtlBad (v : W64) : Bool := 5 ≤ fld v 6 4 || (fld v 3 2 == 3 && !v.getLsbD 7)

/-- The key of a slot of a ring. -/
def State.slotKey (s : State) (h : HQueue) (slot : Nat) : Nat :=
  mkDpa s.device (fld h.base 38 38) (fld h.base 37 6 * 64 + 64 * slot)

/-- The entry at QHEAD, for the operation `op`: `f` on the queue, the format, the entry's bytes and its slot.  What breaks
14 Table 14.4 halts the queue; an unknown format or operation, an invalid QSIZE and a poisoned slot do so at the step for
op 0. -/
def withEntry (s : State) (q op : Nat) (f : State → HQueue → Nat → List Byte → Nat → Out) : Out :=
  let h := s.queue q
  need (s.queueLive q) <|
    if !queueSizeOk h.size then need (op == 0) (.next (s.haltQueue q 0 1 0 h.head))
    else
      let slot := h.head.toNat % h.size.toNat
      let key := s.slotKey h slot
      let halt (detail : Nat) : Out := .next (s.haltQueue q 0 detail 0 (BitVec.ofNat 32 slot))
      if dieBytes < dpaOff key + 64 then .fault (.noSuchMemory key)
      else if s.poisoned key then need (op == 0) (.next (s.haltQueue q 6 6 0 (BitVec.ofNat 32 slot)))
      else
        let s := s.recallNow key
        let b0 := s.le key 1
        let fmt := b0 / 16
        let opc := b0 % 16
        if !(fmt == 1 || fmt == 2) || 5 < opc then need (op == 0) (halt 1)
        else if opc != op then .refused .eventNotEnabled
        else if fmt == 2 && slot + 1 == h.size.toNat then halt 1
        else if (h.tail.setWidth 32 - h.head).toNat < fmt then .refused .eventNotEnabled
        else if fmt == 2 && dieBytes < dpaOff key + 128 then .fault (.noSuchMemory key)
        else if fmt == 2 && s.poisoned (key + 64) then .next (s.haltQueue q 6 6 0 (BitVec.ofNat 32 slot))
        else
          let s := if fmt == 2 then s.recallNow (key + 64) else s
          let b := s.bytes key (64 * fmt)
          if entryBad op fmt b || queueCtlBad h.ctl then halt 1
          else if entryNat b 1 1 == 1 && s.started.any (fun x => x.queue == q) then .refused .eventNotEnabled
          else f s h fmt b slot

/-- The class of what an entry launches. -/
def entryClass (h : HQueue) (fmt : Nat) (b : List Byte) : Nat :=
  if fmt == 2 && entryNat b 0x55 1 != 255 then entryNat b 0x55 1 else fld h.ctl 6 4

/-- The entry has started: QHEAD moves past it (14 R373). -/
def State.entryStarted (s : State) (q fmt cls : Nat) : State :=
  let h := s.queue q
  (s.setQueue q { h with head := h.head + BitVec.ofNat 32 fmt, hinted := false, asked := false }).capture 5 cls none (s.ctl.ptc - h.bell)

/-! ## The tables of the domain's devices -/

/-- The translation blocks of the domain's devices, this one's own among them, in ascending device number. -/
def State.devices (s : State) : List Peer :=
  let me : Peer := ⟨BitVec.ofNat 6 s.device, s.xl, s.regions⟩
  sortBy (fun (a b : Peer) => a.device.toNat ≤ b.device.toNat) (me :: s.peers.filter fun p => p.device != me.device)

def State.word (s : State) (key : Nat) : W64 := BitVec.ofNat 64 (s.look key 8)

/-- The entry that a walk of `n` levels from a table ends at: its key and level, at a leaf or a state-0 entry, and never
below `stop`. -/
def slotFrom (s : State) (dev va stop : Nat) : Nat → Nat → Option (Nat × Nat)
  | 0, _ => none
  | n + 1, table =>
    let key := table + 8 * levelIndex va n
    let e := s.word key
    if n ≤ stop || leafBit e || leafState e != 4 then some (key, n)
    else slotFrom s dev va stop n (mkDpa dev (fld e 57 57) (fld e 55 26 * 256))

/-- The entry for an address in a device's tables. -/
def State.slot (s : State) (p : Peer) (va stop : Nat) : Option (Nat × Nat) :=
  if p.xl.root.getLsbD 0 then slotFrom s p.device.toNat va stop 4
    (mkDpa p.device.toNat (fld p.xl.root 38 38) (fld p.xl.root 37 12 * 4096))
  else none

/-- The device maps the address: its leaf, with the entry's key and level. -/
def State.leafOf (s : State) (p : Peer) (va : Nat) : Option (Nat × Nat × W64) :=
  match s.slot p va 0 with
  | some (key, level) =>
    let e := s.word key
    if leafBit e && leafState e != 0 then some (key, level, e) else none
  | none => none

/-! ## Hint lists (14 R394) -/

/-- One entry of a hint list, or none for an invalid one. -/
def parseHint (b : List Byte) : Option Hint :=
  let va := entryNat b 0 8
  let size := entryNat b 12 1
  if entryNat b 13 3 != 0 || 3 ≤ size then none
  else if va % pageBytes size != 0 || 2 ^ 48 < va + entryNat b 8 4 * pageBytes size then none
  else some ⟨BitVec.ofNat 64 va, entryNat b 8 4, size, entryWord b 16, entryWord b 24⟩

/-- What the reading of something by the scheduler comes to: a value, a fault's kind, an invalid content, or a wait. -/
inductive Rd (α : Type) where
  | ok (v : α)
  | fault (kind : Nat)
  | bad
  | wait
  deriving DecidableEq, Repr

/-- The hints of a list, in order. -/
def State.readHintList (s : State) (a : W64) : Nat → Rd (List Hint)
  | 0 => .ok []
  | n + 1 =>
    match s.readHintList a n with
    | .ok hs =>
      match s.sysRead (a.toNat + 32 * n) 32 with
      | .ok b => (match parseHint b with | some h => .ok (hs ++ [h]) | none => .bad)
      | .fault k => .fault k
      | .wait => .wait
    | r => r

/-- Devices of a mask, ascending. -/
def maskDevices (m : W64) : List Nat := (List.range 64).filter fun d => m.getLsbD d

/-- New leaf entries that a hint names: one for each page and device. -/
def hintLeaves (h : Hint) : Nat := h.pages * (maskDevices h.mask).length

/-- The new leaf entries of some hints. -/
def State.readLeaves (s : State) : List Hint → Rd (List W64)
  | [] => .ok []
  | h :: hs =>
    match s.sysRead h.leaves.toNat (8 * hintLeaves h) with
    | .fault k => .fault k
    | .wait => .wait
    | .ok b =>
      match s.readLeaves hs with
      | .ok ls => .ok (wordsOf b (hintLeaves h) ++ ls)
      | r => r

/-- The pages of a hint: address and size code. -/
def Hint.addrs (h : Hint) : List (Nat × Nat) := (List.range h.pages).map fun i => (h.va.toNat + i * pageBytes h.size, h.size)

/-- The die of the owner's frame of a read-duplicate leaf, and the frame's place, where the leaf names it (08 R229). -/
def ownerPlace (dev : Nat) (e : W64) : Nat × Nat × Option Nat :=
  (leafDevice e, if leafLocal e then leafOdie e else leafDie e,
    if !leafLocal e || leafDevice e == dev then some (leafFrame e) else none)

/-- A quiesce point may change an old leaf of a device to a new one (08 Table 8.8, R242); a pointer to a table is no leaf.
A leaf that is not present may become one of any state: the table names software for it alone (log 124). -/
def leafMoves (dev : Nat) (old new : W64) : Bool :=
  let n := leafState new
  leafBit new && (n == 1 || n == 2 || n == 3) &&
    (leafState old == 0 || leafBit old &&
      match leafState old with
      | 1 => true
      | 2 =>
        let w := ownerPlace dev old
        if n == 1 then leafDevice new == w.1 && leafDie new == w.2.1 &&
          (match w.2.2 with | some f => leafFrame new == f | none => true)
        else n == 2 && leafDevice new == w.1
      | 3 => n == 1 || n == 3
      | _ => false)

/-- The new leaves of a list may take the places of leaves of their pages' size that stand in the tables of the devices
named (log 124). -/
def State.hintsOk (s : State) : List Hint → List W64 → Bool
  | [], _ => true
  | h :: hs, ls =>
    let here := h.addrs.flatMap fun p => (maskDevices h.mask).map fun d => (d, p.1)
    ((here.zip ls).all fun q =>
      match s.devices.find? fun p => p.device.toNat == q.1.1 with
      | none => false
      | some p =>
        match s.slot p q.1.2 h.size with
        | some (key, level) => level == h.size && leafMoves q.1.1 (s.word key) q.2
        | none => false) && s.hintsOk hs (ls.drop here.length)

/-- The pages of a point. -/
def Quiesce.pages (j : Quiesce) : List (Nat × Nat) := j.hints.flatMap Hint.addrs

/-- A page of some hints belongs to another point, or to a collapse under way: the list waits for it. -/
def State.hintsWait (s : State) (hs : List Hint) : Bool :=
  let here (a n : Nat) : Bool := hs.any fun h => rangesOverlap h.va.toNat (h.va.toNat + h.pages * pageBytes h.size) a (a + n)
  s.quiesces.any (fun j => j.hints.any fun h => here h.va.toNat (h.pages * pageBytes h.size))
    || s.locks.any fun l => here (l.toNat * 65536) 65536

/-- A hint list and the leaves it names. -/
def State.readHints (s : State) (a : W64) (n : Nat) : Rd (List Hint × List W64) :=
  match s.readHintList a n with
  | .ok hs =>
    (match s.readLeaves hs with
     | .ok ls => if s.hintsWait hs then .wait else if s.hintsOk hs ls then .ok (hs, ls) else .bad
     | .fault k => .fault k
     | .bad => .bad
     | .wait => .wait)
  | .fault k => .fault k
  | .bad => .bad
  | .wait => .wait

/-- A quiesce point is asked for (08 R239). -/
def State.addQuiesce (s : State) (hs : List Hint × List W64) (queue : Option Nat) (node : Option (Nat × Nat)) : State :=
  { s with quiesces := s.quiesces ++ [⟨s.nextId, hs.1, hs.2, 0, [], queue, node, 0⟩], nextId := s.nextId + 1 }

/-- The hint list of a QF2 entry comes first, as a quiesce point (14 Table 14.4), unless the launch is refused for what it
names: such an entry has no effect (14 R373). -/
def hintsFirst (s : State) (q : Nat) (h : HQueue) (fmt : Nat) (b : List Byte) (slot : Nat) (refusal : Option Out) (f : Out) :
    Out :=
  let n := entryNat b 0x50 4
  if fmt != 2 || n == 0 || h.hinted then f
  else
    match refusal with
    | some o => o
    | none =>
    match s.readHints (entryWord b 0x48) n with
    | .ok hs => .next ((s.setQueue q { h with hinted := true }).addQuiesce hs (some q) none)
    | .fault k => .next (s.haltQueue q 6 k 0 (BitVec.ofNat 32 slot))
    | .bad => .next (s.haltQueue q 0 4 0 (BitVec.ofNat 32 slot))
    | .wait => .refused .eventNotEnabled

/-! ## Operations 0, 3, 4 and 5 -/

/-- The host rings a queue's doorbell (14 Table 14.1). -/
def State.ring (s : State) (q : Nat) (tail : BitVec 32) : State :=
  let h := s.queue q
  s.setQueue q { h with tail := tail.setWidth 64, bell := s.ctl.ptc }

/-- QUEUE_DOORBELL. -/
def execQueueDoorbell (q : Nat) (tail : BitVec 32) (s : State) : Out :=
  need (q < 64) (.next (if s.ctl.up then s.ring q tail else s))

/-- QSTAT's halt bit written 1: the report is cleared and reading goes on at QHEAD (14 Table 14.3), with the entry's hint
list. -/
def State.clearHalt (s : State) (q : Nat) : State :=
  let h := s.queue q
  s.setQueue q { h with stat := setFld 0 39 32 (fld h.stat 39 32), hinted := false, asked := false }

/-- QSTAT_HALT_CLEAR. -/
def execQstatHaltClear (q : Nat) (s : State) : Out :=
  need (q < 64) (.next (if s.ctl.up then s.clearHalt q else s))

/-- QUEUE_NOP (14 op 0), and the entries whose operation cannot be told. -/
def execQueueNop (q : Nat) (s : State) : Out :=
  withEntry s q 0 fun s h fmt _ _ => .next (s.entryStarted q fmt (fld h.ctl 6 4))

/-- The region of the commutative page that holds an address. -/
def State.commutAt (s : State) (va : Nat) : Option Region :=
  if 2 ^ 48 ≤ va then none
  else
    match s.walk va with
    | .page e _ => if leafState e == 3 then s.region? (leafRegion e) else none
    | _ => none

/-- The load of op 3 from a commutative page, with tolerance 0 (06 R184, 07 R217, 08 Table 8.6): the holders are recalled,
and once they have answered the word is as memory has it. -/
def commutWord (s : State) (q : Nat) (h : HQueue) (r : Region) (key : Nat) (answer : Out) : Out :=
  match s.home? (blockOf key) with
  | none => answer
  | some hb =>
    let lines := recallChoice r 0 hb.holders.length (hb.holders.filter fun x => !x.recalled)
    if h.asked || lines.isEmpty then need (s.recallsIn (blockOf key)) answer
    else .next ((s.recallHolders hb lines).setQueue q { h with asked := true })

/-- QUEUE_WAIT_WORD (14 op 3): it comes about once the word has reached the value. -/
def execQueueWaitWord (q : Nat) (s : State) : Out :=
  withEntry s q 3 fun s h fmt b slot =>
    let a := entryNat b 8 8
    let halt (k : Nat) : Out := .next (s.haltQueue q 6 k 0 (BitVec.ofNat 32 slot))
    if a % 8 != 0 then halt 8
    else
      match s.sysRead a 8 with
      | .ok w =>
        let reached := entryNat b 16 8 ≤ leNat w
        let go : Out := .next (s.entryStarted q fmt (fld h.ctl 6 4))
        (match s.commutAt a, s.walk a with
         | some r, .page e lv =>
           if r.fmt != 3 then halt 4
           else commutWord s q h r (leafDpa s.device e lv a) <|
             if reached then go else need h.asked (.next (s.setQueue q { h with asked := false }))
         | _, _ => need reached go)
      | .fault k => halt k
      | .wait => .refused .eventNotEnabled

/-- QUEUE_WRITE_PTC (14 op 4). -/
def execQueueWritePtc (q : Nat) (s : State) : Out :=
  withEntry s q 4 fun s h fmt b slot =>
    match s.sysWrite (entryNat b 8 8) (leBytes 8 s.ctl.ptc) with
    | .ok t => .next (t.entryStarted q fmt (fld h.ctl 6 4))
    | .fault k => .next (s.haltQueue q 6 k 0 (BitVec.ofNat 32 slot))
    | .wait => .refused .eventNotEnabled

/-- QUEUE_QUIESCE_POINT (14 op 5). -/
def execQueueQuiescePoint (q : Nat) (s : State) : Out :=
  withEntry s q 5 fun s h fmt b slot =>
    match s.readHints (entryWord b 8) (entryNat b 16 8) with
    | .ok hs => .next ((s.entryStarted q fmt (fld h.ctl 6 4)).addQuiesce hs (some q) none)
    | .fault k => .next (s.haltQueue q 6 k 0 (BitVec.ofNat 32 slot))
    | .bad => .next (s.haltQueue q 0 4 0 (BitVec.ofNat 32 slot))
    | .wait => .refused .eventNotEnabled

/-! ## Grid launch -/

/-- The address of a completion clasp, in .g, 0 for none. -/
def claspAddr (a : W64) : Option (Space × W64) := if a = 0 then none else some (.g, a)

/-- The grid of a top-level launch (14 Table 14.4). -/
def topGrid (s : State) (h : HQueue) (q fmt : Nat) (b : List Byte) (slot : Nat) (ko : KObj) (params : List W64) : Grid where
  id := s.nextGrid
  ko := ko
  dimX := (teamsOf (entryWord b 0x10)).1
  dimY := (teamsOf (entryWord b 0x10)).2.1
  dimZ := (teamsOf (entryWord b 0x10)).2.2
  params := params
  cls := BitVec.ofNat 3 (entryClass h fmt b)
  prio := BitVec.ofNat 2 (fld h.ctl 3 2)
  depth := 0
  queue := q
  slot := BitVec.ofNat 32 slot
  parentGroup := none
  parentTeam := none
  parentGrid := none
  handler := entryWord b 0x28
  deadline := if fmt == 2 then entryWord b 0x40 else 0
  hang := BitVec.ofNat 32 (entryNat b 0x34 4)
  clasp := claspAddr (entryWord b 0x20)
  scope := .sys
  status := entryWord b 0x38
  winFirst := entryNat b 0x30 2
  winCount := entryNat b 0x32 2
  nextTeam := 0
  doneTeams := 0
  killed := none
  serves := none
  node := none
  level := 0
  pending := none
  gate := 0
  origin := none

/-- A launch has started from a slot. -/
def State.launched (s : State) (q slot : Nat) (grid : Option W64) (graph : Option Nat) : State :=
  { s with started := s.started ++ [⟨q, BitVec.ofNat 32 slot, grid, graph⟩], nextGrid := s.nextGrid + 1, scache := [] }

/-- QUEUE_GRID_LAUNCH (14 op 1). -/
def execQueueGridLaunch (q : Nat) (s : State) : Out :=
  withEntry s q 1 fun s h fmt b slot =>
    let halt (cause detail cond : Nat) : Out := .next (s.haltQueue q cause detail cond (BitVec.ofNat 32 slot))
    if badShape (entryWord b 0x10) (BitVec.ofNat 64 (entryNat b 0x30 4)) then halt 0 4 0
    else
      let refusal := match s.readKObj (entryWord b 8) with | .cond n => some (halt 0 2 n) | _ => none
      hintsFirst s q h fmt b slot refusal <|
        match s.readKObj (entryWord b 8) with
        | .cond n => halt 0 2 n
        | .fault k => halt 6 k 0
        | .wait => .refused .eventNotEnabled
        | .ok ko =>
          match s.readParams (entryWord b 0x18) ko.paramSize with
          | .fault k => halt 6 k 0
          | .wait => .refused .eventNotEnabled
          | .ok params =>
            let g := topGrid s h q fmt b slot ko params
            let s := { s with grids := s.grids ++ [g] }
            .next ((s.launched q slot (some g.id) none).entryStarted q fmt (entryClass h fmt b))

/-! ## Graph launch (14 R377) -/

/-- One node entry of a graph object. -/
def parseNode (b : List Byte) : GNode where
  type := entryNat b 0 1
  recBytes := entryNat b 1 1
  variants := entryNat b 2 1
  ordered := (entryNat b 3 1).testBit 0 || entryNat b 0 1 == 1 || entryNat b 0 1 == 2
  root := (entryNat b 3 1).testBit 1
  coalesce := entryNat b 4 4
  outputs := (List.range 8).map fun i => entryNat b (8 + i) 1
  kernels := (List.range 4).map fun i => entryWord b (0x10 + 8 * i)
  costs := (List.range 4).map fun i => entryNat b (0x30 + 4 * i) 4
  paramAddr := entryWord b 0x40
  paramSize := entryNat b 0x48 2
  hintCount := entryNat b 0x4A 2
  hintList := entryWord b 0x50
  level := none
  hinted := false
  tiles := []

/-- The limits of one node entry (14 Tables 14.5, 14.7). -/
def nodeOk (nodes : Nat) (b : List Byte) : Bool :=
  let n := parseNode b
  let size := match n.type with | 1 => n.recBytes == 32 | 2 => n.recBytes == 16 | 3 => n.recBytes == 16 | 4 => n.recBytes == 32 | _ => true
  n.type ≤ 4 && 4 ≤ n.recBytes && n.recBytes ≤ 32 && n.recBytes % 4 == 0 && size
    && (if n.type == 0 then 1 ≤ n.variants && n.variants ≤ 4 else n.variants == 1 && n.kernels.all (fun k => k == 0))
    && entryNat b 3 1 < 4 && 1 ≤ n.coalesce && n.coalesce ≤ 65535
    && n.outputs.all (fun t => t == 255 || t < nodes) && n.paramSize ≤ 256
    && (List.range 40).all fun i => entryNat b (0x58 + i) 1 == 0

/-- Nodes that can be put in order so that each edge leads to a later one: `done` grows while it can. -/
def acyclic (ns : List GNode) : Nat → List Nat → Bool
  | 0, done => done.length == ns.length
  | k + 1, done =>
    let more := (List.range ns.length).filter fun i => !done.contains i &&
      (match ns[i]? with | some n => n.outputs.all fun t => t == 255 || done.contains t | none => false)
    acyclic ns k (done ++ more)

/-- The graph object's header and nodes, as read; `bad` where a limit is broken. -/
def State.readGraph (s : State) (a : W64) : Rd (Nat × Nat × List GNode) :=
  if a.toNat % 64 != 0 then .bad
  else
    match s.sysRead a.toNat 64 with
    | .fault k => .fault k
    | .wait => .wait
    | .ok hd =>
      let n := entryNat hd 4 2
      let pool := entryNat hd 8 4
      if entryNat hd 0 4 != 0x57475232 || n < 1 || 256 < n || entryNat hd 6 2 != 0 || pool % 65536 != 0 || pool < 65536 * n then .bad
      else
        match s.sysRead (a.toNat + 64) (128 * n) with
        | .fault k => .fault k
        | .wait => .wait
        | .ok b =>
          let entries := (List.range n).map fun i => (b.drop (128 * i)).take 128
          let ns := entries.map parseNode
          if entries.all (nodeOk n) && acyclic ns n [] then .ok (pool, entryNat hd 12 4, ns) else .bad

/-- The first objection to a kernel node's variants: 0 none, a condition of 02 R51 as `cond`, or the node's own test. -/
def State.variantRes (s : State) (r : Nat) : List W64 → KRes
  | [] => .cond 0
  | k :: ks =>
    if k = 0 then s.variantRes r ks
    else
      match s.readKObj k with
      | .ok o => if 4 * o.caps.getD 0 0 < r || !o.flags.getLsbD 2 then .ok o else s.variantRes r ks
      | x => x

def State.variantsRes (s : State) : List GNode → KRes
  | [] => .cond 0
  | n :: ns =>
    if n.type != 0 then s.variantsRes ns
    else
      match s.variantRes n.recBytes n.kernels with
      | .cond 0 => s.variantsRes ns
      | x => x

/-- The detail and condition with which a graph object is refused for what it holds (14 R377, Table 14.6). -/
def State.graphRefusal (s : State) (a : W64) : Option (Nat × Nat) :=
  match s.readGraph a with
  | .bad => some (3, 0)
  | .ok x =>
    (match s.variantsRes x.2.2 with
     | .ok _ => some (3, 0)
     | .cond (c + 1) => some (2, c + 1)
     | _ => none)
  | _ => none

/-- The graph of a launch. -/
def topGraph (s : State) (h : HQueue) (q fmt : Nat) (b : List Byte) (slot pool guardNs : Nat) (ns : List GNode) : Graph where
  id := s.nextGrid.toNat
  queue := q
  slot := BitVec.ofNat 32 slot
  nodes := ns
  pool := pool
  guardNs := guardNs
  cls := BitVec.ofNat 3 (entryClass h fmt b)
  prio := BitVec.ofNat 2 (fld h.ctl 3 2)
  depth := 0
  handler := entryWord b 0x28
  deadline := if fmt == 2 then entryWord b 0x40 else 0
  floor := if fmt == 2 && entryWord b 0x40 != 0 then entryNat b 0x54 1 else 3
  hang := BitVec.ofNat 32 (entryNat b 0x34 4)
  clasp := claspAddr (entryWord b 0x20)
  status := entryWord b 0x38
  winFirst := entryNat b 0x30 2
  winCount := entryNat b 0x32 2
  killed := none

/-- The root records go to the first root node. -/
def State.addRoots (s : State) (graph node r : Nat) (b : List Byte) : Nat → State
  | 0 => s
  | n + 1 => (s.addRoots graph node r b n).addRec graph node 0 0 0 ((b.drop (r * n)).take r) (.pending s.ctl.ptc)

/-- QUEUE_GRAPH_LAUNCH (14 op 2). -/
def execQueueGraphLaunch (q : Nat) (s : State) : Out :=
  withEntry s q 2 fun s h fmt b slot =>
    let halt (cause detail cond : Nat) : Out := .next (s.haltQueue q cause detail cond (BitVec.ofNat 32 slot))
    let count := entryNat b 0x10 8
    if 512 < entryNat b 0x30 2 + entryNat b 0x32 2 then halt 0 4 0
    else
      hintsFirst s q h fmt b slot ((s.graphRefusal (entryWord b 8)).map fun r => halt 0 r.1 r.2) <|
        match s.readGraph (entryWord b 8) with
        | .bad => halt 0 3 0
        | .fault k => halt 6 k 0
        | .wait => .refused .eventNotEnabled
        | .ok (pool, guardNs, ns) =>
          match s.variantsRes ns with
          | .ok _ => halt 0 3 0
          | .fault k => halt 6 k 0
          | .wait => .refused .eventNotEnabled
          | .cond (c + 1) => halt 0 2 (c + 1)
          | .cond 0 =>
            let root := (ns.zipIdx.find? fun x => x.1.root).map fun x => (x.2, x.1.recBytes)
            let g := topGraph s h q fmt b slot pool guardNs ns
            let start (s : State) : Out :=
              let s := { s with graphs := s.graphs ++ [g] }
              .next ((s.launched q slot none (some g.id)).entryStarted q fmt (entryClass h fmt b))
            match root with
            | none => start s
            | some (i, r) =>
              match s.sysRead (entryNat b 0x18 8) (r * count) with
              | .fault k => halt 6 k 0
              | .wait => .refused .eventNotEnabled
              | .ok bytes => start (s.addRoots g.id i r bytes count)

end Sys2Proof.Machine
end

