-- ==== Sys2Proof/Machine/Teams.lean ====
section
/-!
DEFINITION. Teams and grids (14 R374-R376, R397, R429, R431): room on a core (02 R52), the start of groups (03 R69, R70, 02
R53), TEAM_LAUNCH, TEAM_RETIRE, GRID_RETIRE, and pre-emption (14 R395).
-/

namespace Sys2Proof.Machine

/-! ## Room on a core -/

/-- Resident teams of a core, each with its grid. -/
def State.teamsOn (s : State) (core : Nat) : List (Team × Grid) :=
  (s.teams.filter fun t => t.core == core && t.resident).filterMap fun t => (s.grid? t.grid).map fun g => (t, g)

/-- The lowest place for `n` bytes beside the ranges in use. -/
def allocAt (used : List (Nat × Nat)) (cap n : Nat) : Option Nat :=
  if n == 0 then some 0
  else
    let free : Nat → Bool := fun a => a + n ≤ cap && used.all fun u => u.2 == 0 || a + n ≤ u.1 || u.1 + u.2 ≤ a
    ((0 :: used.map fun u => u.1 + u.2).filter free).foldl
      (fun m a => match m with | none => some a | some b => some (Nat.min a b)) (none : Option Nat)

/-- How many of some groups, named by their grpids, stand on quadrant `q` (03 R70). -/
def onQuad (grpids : List Nat) (q : Nat) : Nat := (grpids.filter fun n => n % 4 == q).length

/-- Bytes of a quadrant's main file in use, and its groups: a group that has exited holds neither (03 R101). -/
def State.quadUse (s : State) (core q : Nat) : Nat × Nat :=
  (s.groups.filter fun g => g.quad == q && g.st != .exited).foldl (fun n g =>
    match s.team? g.team with
    | some t =>
      if t.core == core && t.resident then
        (match s.grid? t.grid with | some gr => (n.1 + gr.ko.footprint, n.2 + 1) | none => n)
      else n
    | none => n) (0, 0)

/-- A team's places on a core: scratchpad, exported part and lane store. -/
structure Room where
  spad : Nat
  exp : Nat
  lane : Nat
  deriving DecidableEq, Repr

/-- Room for a team with the groups of some grpids and some accumulator units. -/
def State.roomOn (s : State) (core : Nat) (ko : KObj) (n : List Nat) (units : Nat) : Option Room :=
  let ts := s.teamsOn core
  let quads := (List.range 4).all fun q =>
    let u := s.quadUse core q
    u.1 + onQuad n q * ko.footprint ≤ 65536 && u.2 + onQuad n q ≤ 16
  let tiles := ts.foldl (fun m x => m + x.2.ko.tiles) ko.tiles
  if !quads || 32 < tiles || 512 < s.unitsUsed core + units then none
  else
    let spads := ts.flatMap fun x => [(x.1.spadBase, x.2.ko.spad), (x.1.expBase, x.2.ko.exportBytes)]
    let lanes := ts.map fun x => (x.1.laneBase, x.2.ko.groups * 32 * x.2.ko.laneBytes)
    match allocAt spads 393216 ko.spad with
    | none => none
    | some a =>
      match allocAt ((a, ko.spad) :: spads) 393216 ko.exportBytes, allocAt lanes 65536 (ko.groups * 32 * ko.laneBytes) with
      | some b, some c => some ⟨a, b, c⟩
      | _, _ => none

/-- The core's die is out of reset and no reset is under way. -/
def State.coreUp (s : State) (core : Nat) : Bool :=
  core < 576 && s.resets.isEmpty && !(if dieOfCore core == 0 then s.ctl.die0 else s.ctl.die1) && !s.ctl.halted

/-! ## Group start -/

/-- A group at its start (03 R69, 02 R53), its lanes in `live`. -/
def startGroup (gid team grpid order : Nat) (gr : Grid) (live : W32) (win : Store 32) (now : Nat) : Group where
  gid := gid
  team := team
  grpid := BitVec.ofNat 4 grpid
  st := .ready
  lpc := readLanes fun _ => (gr.ko.base + gr.ko.entry).setWidth 48
  live := live
  queue := List.replicate 16 []
  win := win
  scal := Store.ofList gr.params
  masks := []
  lc0 := ⟨0, 32⟩
  lc1 := ⟨0, 32⟩
  lc2 := ⟨0, 32⟩
  lc3 := ⟨0, 32⟩
  carry := 0
  prec := readLanes fun _ => gr.ko.prec
  fpst := readLanes fun _ => gr.ko.fpst
  flags := 0
  sealedCnt := 0
  finishedCnt := 0
  hang := gr.hang
  trace := 0
  since := some now
  run := none
  park := none
  order := order
  yielded := false
  jumped := 0
  pushes := 0
  touched := []
  last := (gr.ko.base + gr.ko.entry).setWidth 48
  saved := none
  freed := none
  fetch := none
  hung := false

/-- The last place in a quadrant's list (03 R71). -/
def State.nextOrder (s : State) (core quad : Nat) : Nat :=
  (s.quadGroups core quad).foldl (fun n g => Nat.max n (g.order + 1)) 0

/-- The groups of a team, in order, those without a live lane left out (14 R378). -/
def State.addGroups (s : State) (team core : Nat) (gr : Grid) (live : Nat → W32) (win : Nat → Store 32) : Nat → State
  | 0 => s
  | n + 1 =>
    let s := s.addGroups team core gr live win n
    if live n = 0 then s
    else
      { s with
        groups := s.groups ++ [startGroup s.nextId team n (s.nextOrder core (n % 4)) gr (live n) (win n) s.ctl.ptc]
        nextId := s.nextId + 1 }

/-- A team at its start: granted units, tiles and sidecars read as zero (10 R288). -/
def startTeam (id core : Nat) (gr : Grid) (rm : Room) (lin base count : Nat) (records : List (List Byte)) : Team where
  id := id
  grid := gr.id
  core := core
  home := core
  x := BitVec.ofNat 32 (lin % gr.dimX)
  y := BitVec.ofNat 16 (lin / gr.dimX % gr.dimY)
  z := BitVec.ofNat 16 (lin / (gr.dimX * gr.dimY))
  clustrank := lin - base
  clBase := base
  clCount := count
  tiles := []
  sidecars := []
  acc := []
  accUnits := gr.ko.acc / 1024
  tilePoison := []
  accPoison := []
  paramPoison := []
  sc := []
  mxst := 0
  preSlots := []
  postSlots := []
  preLoaded := []
  postLoaded := []
  spadBase := rm.spad
  expBase := rm.exp
  laneBase := rm.lane
  records := records
  resident := true
  savedSpad := []
  savedExp := []
  savedLane := []
  savedMarks := []
  savedPtc := 0
  retired := false

/-- One team placed on a core; its start performs an acquire (07 R210, 14 R376). -/
def State.placeTeam (s : State) (gr : Grid) (core lin base count : Nat) (records : List (List Byte)) (live : Nat → W32)
    (win : Nat → Store 32) : Option State :=
  let started := (List.range gr.ko.groups).filter fun g => live g != 0
  match s.roomOn core gr.ko started (gr.ko.acc / 1024) with
  | none => none
  | some rm =>
    if !s.coreUp core then none
    else
      let id := s.nextId
      let s := { s with teams := s.teams ++ [startTeam id core gr rm lin base count records], nextId := s.nextId + 1 }
      some ((s.acquireAt core .sys).addGroups id core gr live win gr.ko.groups)

/-! ## Room kept for the nodes of graphs (14 R381) -/

/-- Levels that have a kernel, ascending. -/
def GNode.levels (n : GNode) : List Nat := (List.range 4).filter fun v => n.kernels.getD v 0 != 0

/-- The kernel that a node's teams run, at the level chosen or the first that it has (14 R379). -/
def GNode.kernel (n : GNode) : W64 :=
  if n.type != 0 then Config.fixedKernel n.type
  else n.kernels.getD (match n.level with | some l => l.toNat | none => n.levels.headD 0) 0

/-- A team of a node is resident. -/
def State.hasTeam (s : State) (h : Graph) (i : Nat) : Bool :=
  s.teams.any fun t => t.resident && (match s.grid? t.grid with | some g => g.node == some (h.id, i) | none => false)

/-- A team of a kernel put on the first core that has room for it. -/
def State.reserve (s : State) (ko : KObj) : Option State :=
  let gr := freshGrid s.nextGrid ko
  let t := { s with grids := s.grids ++ [gr], nextGrid := s.nextGrid + 1 }
  (List.range 576).findSome? fun c => t.placeTeam gr c 0 0 1 [] (fun _ => BitVec.allOnes 32) (fun _ => [])

/-- The nodes that have a team, or room for one beside the rooms of the nodes before them: graph and node. -/
def State.roomed (s : State) : List (Nat × Nat) :=
  let qs := s.graphs.flatMap fun h => (h.nodes.zipIdx).map fun q => (h, q.2, q.1)
  (qs.foldl (fun (r : State × List (Nat × Nat)) q =>
    let ok := (r.1, r.2 ++ [(q.1.id, q.2.1)])
    if q.2.2.type == 4 || s.hasTeam q.1 q.2.1 then ok
    else
      match s.readKObj q.2.2.kernel with
      | .ok ko => (match r.1.reserve ko with | some t => (t, r.2 ++ [(q.1.id, q.2.1)]) | none => r)
      | _ => ok) (s, [])).2

/-- What a team takes when it starts, returns or grows takes from no node of a graph the room for its one team, all the
nodes' rooms together (14 R381). -/
def State.keepsRoom (s t : State) : Bool := let l := t.roomed; s.roomed.all l.contains

/-- ACCGROW (14 R399): the first new unit, or the refusal; units that a node's one team needs are not free (14 R381). -/
def execAccgrow (k : BitVec 3) (d : Dst) (a : Src) (s : State) : Out :=
  withEnv s fun e =>
    let ex := e.lanes k
    match lowestLane ex with
    | none => wordDone s e (e.g.resultAll ex d true 0)
    | some low =>
      let m := (e.src32 a low).toNat
      let n := e.t.accUnits
      let t := s.setTeam { e.t.zeroUnits n m with accUnits := n + m }
      if m == 0 || 512 < s.unitsUsed e.t.core + m || 512 < n + m || !s.keepsRoom t then
        wordDone s e (e.g.resultAll ex d true (1#64 <<< 63))
      else wordDone t e (e.g.resultAll ex d true (BitVec.ofNat 64 n))

/-! ## TEAM_LAUNCH (14 R374) -/

def Grid.total (g : Grid) : Nat := g.dimX * g.dimY * g.dimZ

/-- Teams of one cluster launch on their cores, in order of rank. -/
def State.placeAll (s : State) (gr : Grid) (base count : Nat) : Nat → List Nat → Option State
  | _, [] => some s
  | r, c :: cs =>
    match s.placeTeam gr c (base + r) base count [] (fun _ => BitVec.allOnes 32) (fun _ => []) with
    | none => none
    | some t => t.placeAll gr base count (r + 1) cs

/-- The next cluster launch of a grid starts on distinct cores of one cluster. -/
def placeCluster (s : State) (gr : Grid) (cores : List Nat) : Out :=
  let count := Nat.min gr.ko.cluster (gr.total - gr.nextTeam)
  need (gr.killed.isNone && gr.pending.isNone && gr.nextTeam < gr.total && cores.length == count && cores.Nodup
      && (cores.all fun c => clusterIdx c == clusterIdx (cores.headD 0))) <|
    needSome (s.placeAll gr gr.nextTeam count 0 cores) fun t =>
      need (s.keepsRoom t) (.next (t.setGrid { gr with nextTeam := gr.nextTeam + count }))

/-- A report to the group that launched a nested grid (14 R397, R429); none for a group of a killed grid. -/
def State.reportTo (s : State) (gr : Grid) (f : Op → FaultRec) : State :=
  match gr.origin, gr.parentGrid with
  | some o, some pg =>
    match s.grid? pg with
    | some p =>
      if p.killed.isSome || (s.group? o.gid).isNone then s
      else s.addOp { o with id := s.nextId, fault := some (f o), clasp := o.claspRef }
    | none => s
  | _, _ => s

/-- A nested launch that cannot start: its status word and clasp arrival follow at its retirement with the cause, and the
launching group receives scheduler fault detail 5 (14 R397, R431). -/
def State.refuseNested (s : State) (gr : Grid) (cause detail : Nat) : State :=
  (s.setGrid { gr with pending := none, killed := some (BitVec.ofNat 8 cause, BitVec.ofNat 8 detail) }).reportTo gr
    fun o => o.schedFault 5

/-- A handler that cannot start: the grid it was to serve is killed with the park's cause (14 R390). -/
def State.refuseHandler (s : State) (gr : Grid) : State :=
  let s := { s with grids := s.grids.filter fun (g : Grid) => g.id != gr.id }
  match gr.serves.bind s.group? with
  | none => s
  | some g =>
    match g.park, (s.team? g.team).bind fun t => s.grid? t.grid with
    | some p, some served => s.handlerFailed served p.cause p.detail
    | _, _ => s

/-- The scheduler reads what a nested launch or a handler names, after the launching group's earlier stores (07 R208). -/
def readPending (s : State) (gr : Grid) (ko params : W64) (f : State → Grid → Out) : Out :=
  let early := match gr.parentGroup with
    | some gid => (s.opsOf gid).all fun o => gr.gate ≤ o.id || !(o.isStore || o.isFence)
    | none => true
  let handler := gr.serves.isSome
  let refuse (cause detail : Nat) : Out := .next (if handler then s.refuseHandler gr else s.refuseNested gr cause detail)
  need (early && gr.killed.isNone) <|
    match s.readKObj ko with
    | .wait => .refused .eventNotEnabled
    | .cond n => refuse 15 n
    | .fault k => refuse 6 k
    | .ok k =>
      if handler then
        (if k.groups == 1 && k.cluster == 1 then
          let g := { gr with ko := k, pending := none }
          f (s.setGrid g) g
        else refuse 0 0)
      else
        match s.readParams params k.paramSize with
        | .wait => .refused .eventNotEnabled
        | .fault k => refuse 6 k
        | .ok ps =>
          let g := { gr with ko := k, params := ps, pending := none }
          f (s.setGrid g) g

/-- TEAM_LAUNCH: the next team or cluster launch of a grid starts; a nested launch's kernel object is read first. -/
def execTeamLaunch (grid : Nat) (cores : List Nat) (s : State) : Out :=
  needSome (s.grid? (BitVec.ofNat 64 grid)) fun gr =>
    match gr.pending with
    | none => placeCluster s gr cores
    | some (ko, params) => readPending s gr ko params fun s g =>
        if cores.isEmpty then .next s else placeCluster s g cores

/-! ## TEAM_RETIRE (14 R375) -/

def State.groupsOf (s : State) (team : Nat) : List Group := s.groups.filter fun g => g.team == team

/-- TEAM_RETIRE: its groups have exited, their commands have ended and their faults have been delivered, and the grids
they launched have retired. -/
def execTeamRetire (team : Nat) (s : State) : Out :=
  needSome (s.team? team) fun t =>
  needSome (s.grid? t.grid) fun gr =>
    let gs := s.groupsOf team
    need (gs.all (fun g => g.st == .exited && (s.opsOf g.gid).isEmpty) && !s.grids.any (fun c => c.parentTeam == some team)) <|
      let s := s.setGrid { gr with doneTeams := gr.doneTeams + 1 }
      .next { s with
        groups := s.groups.filter fun (g : Group) => g.team != team
        teams := s.teams.filter fun (u : Team) => u.id != team }

/-! ## GRID_RETIRE (14 R376, R429) -/

/-- A fault of a retirement write: the cause, its kind or detail, and the record's further fields. -/
structure RetireFault where
  cause : Nat
  kind : Nat
  detail : Nat
  level : Nat
  st : Nat
  acc : Nat
  sp : Space
  addr : W64
  deriving DecidableEq, Repr

/-- Where a write of the control die at retirement lies; a device that no path reaches is a link fault (15 R417). -/
def State.retireAt (s : State) (win : Nat × Nat) (a : Acc) (sp : Space) (addr : W64) (n : Nat) : Where :=
  match sp with
  | .g =>
    if addr.toNat % n != 0 then .bad 8 4 0 0
    else
      match s.global noCore a addr with
      | .at key r =>
        let ls := s.leafLS noCore .g addr
        match s.askStop (α := Unit) key with
        | some (.fault k) => .bad k 1 ls.1 ls.2
        | some _ => .hold 0
        | none => .at key r
      | w => w
  | _ =>
    if addr.toNat % n != 0 then .bad 8 3 0 0
    else if win.1 * 131072 ≤ addr.toNat && addr.toNat + n ≤ (win.1 + win.2) * 131072 then .at (chipKey addr.toNat) none
    else .bad 7 3 0 0

/-- The status word (14 R376 step 1); none for a quiesced page. -/
def State.writeStatus (s : State) (addr : W64) (killed : Option (BitVec 8 × BitVec 8)) : Option (State × List RetireFault) :=
  if addr = 0 then some (s, [])
  else
    let v : Nat := match killed with | none => 0 | some (c, d) => 2 ^ 63 + c.toNat * 256 + d.toNat
    match s.retireAt (0, 0) .store .g addr 8 with
    | .hold _ => none
    | .bad k d l st => some (s, [⟨6, k, d, l, st, 1, .g, addr⟩])
    | .at key _ => some ((s.purge (blockOf key)).putBytes key (leBytes 8 v), [])

/-- The arrival at the completion clasp (14 R376 step 2). -/
def State.retireArrive (s : State) (win : Nat × Nat) (c : Option (Space × W64)) : Option (State × List RetireFault) :=
  match c with
  | none => some (s, [])
  | some (sp, addr) =>
    if addr.toNat % 64 != 0 then some (s, [⟨7, 0, 2, 0, 0, 2, sp, addr⟩])
    else
      match s.retireAt win .atomic sp addr 64 with
      | .hold _ => none
      | .bad k d l st => some (s, [⟨6, k, d, l, st, 2, sp, addr⟩])
      | .at key _ =>
        let ls := s.leafLS noCore sp addr
        if s.poisoned key then some (s, [⟨6, 6, 1, ls.1, ls.2, 2, sp, addr⟩])
        else
          let s := if isHbm key then s.purge (blockOf key) else s
          match (s.claspAt key).update 1 0 with
          | .error d => some (s, [⟨7, 0, d, 0, 0, 2, sp, addr⟩])
          | .ok c => some ((s.putClasp key c).wakeClasp key, [])

/-- The fault of a retirement write as the launching group receives it. -/
def RetireFault.record (f : RetireFault) (dev : Nat) (o : Op) : FaultRec :=
  if f.cause == 6 then
    { memFault dev f.acc (spaceNum f.sp) 0 f.kind f.detail f.level f.st o.clause o.word.toNat o.run.toNat o.low f.addr f.addr with
      service := none }
  else tableFault f.cause 0 f.detail dev f.acc (spaceNum f.sp) 0 0 0 o.clause o.word.toNat o.run.toNat o.low f.addr

/-- A top-level retirement's fault halts its queue, unless it is halted already; each is logged (14 R429). -/
def State.retireHalt (s : State) (q : Nat) (slot : W32) (id : W64) (fs : List RetireFault) : State :=
  fs.foldl (fun (s : State) f =>
    let s := s.svcLog 10 f.cause 0 id
    if (s.queue q).stat.getLsbD 63 then s else s.haltQueue q f.cause (if f.cause == 6 then f.kind else f.detail) 0 slot) s

/-- A grid's two writes and its end. -/
def retireGrid (s : State) (gr : Grid) : Out :=
  needSome (s.writeStatus gr.status gr.killed) fun a =>
  needSome (a.1.retireArrive (gr.winFirst, gr.winCount) gr.clasp) fun b =>
    let fs := a.2 ++ b.2
    let s := b.1
    let s := if gr.parentGrid.isSome then
        fs.foldl (fun (s : State) f => (s.svcLog 10 f.cause 0 gr.id).reportTo gr (f.record s.device)) s
      else if gr.node.isSome || gr.serves.isSome then s
      else s.retireHalt gr.queue gr.slot gr.id fs
    .next { s with
      grids := s.grids.filter fun (g : Grid) => g.id != gr.id
      started := s.started.filter fun (x : Started) => x.grid != some gr.id }

/-- A graph's (14 R373, R376). -/
def retireGraph (s : State) (h : Graph) : Out :=
  let active := s.recs.any (fun r => r.graph == h.id)
    || s.grids.any (fun g => match g.node with | some (x, _) => x == h.id | none => false)
    || s.quiesces.any (fun j => match j.node with | some (x, _) => x == h.id | none => false)
  need (!active) <|
    needSome (s.writeStatus h.status h.killed) fun a =>
    needSome (a.1.retireArrive (0, 0) h.clasp) fun b =>
      let s := b.1.retireHalt h.queue h.slot (BitVec.ofNat 64 h.id) (a.2 ++ b.2)
      .next { s with
        graphs := s.graphs.filter fun (g : Graph) => g.id != h.id
        started := s.started.filter fun (x : Started) => x.graph != some h.id }

/-- GRID_RETIRE: a grid with all its teams retired, or a graph with no record and no team left. -/
def execGridRetire (grid : Nat) (s : State) : Out :=
  match s.grid? (BitVec.ofNat 64 grid) with
  | some gr =>
    need ((gr.killed.isSome || (gr.pending.isNone && gr.doneTeams == gr.total)) && !s.teams.any (fun t => t.grid == gr.id)
        && !s.grids.any (fun c => c.parentGrid == some gr.id)) (retireGrid s gr)
  | none => needSome (s.graph? grid) fun h => retireGraph s h

/-! ## Pre-emption (14 R395) -/

/-- The teams of a team's cluster launch, by rank. -/
def State.mates (s : State) (t : Team) : List Team :=
  ((List.range t.clCount).filterMap fun r => s.rankTeam t r).filter fun u => !u.retired

/-- A space of the team's own core or cluster. -/
def Space.isTeams : Space → Bool
  | .l | .s | .c => true
  | .p | .g => false

/-- A command that touches the team's local memory: a copy, a clasp command or a copy's count, or a store on its way. -/
def Op.touchesLocal (o : Op) : Bool :=
  (match o.copyX with | some x => x.src != .g || x.dst != .g | none => false)
    || (match o.claspRef with | some (sp, _) => Space.isTeams sp | none => false)
    || o.parts.any fun p => p.st != .done && Space.isTeams p.sp

/-- A group's outstanding work lets its team be saved. -/
def State.savable (s : State) (g : Group) : Bool :=
  g.between && (s.opsOf g.gid).all fun o => o.fault.isSome
    || !(o.isMatrix || o.isSampler || o.flag.isSome || o.touchesLocal || (o.isStore && o.parts.any fun p => p.st == .queued))

/-- What the image of a group saved between clauses has for a cause: none (log 111). -/
def Group.savedRec (g : Group) (dpa : Nat) : ParkRec where
  cause := 0
  detail := 0
  word := 0
  run := 0
  issuing := 0
  current := g.current
  record := []
  image := BitVec.ofNat 45 dpa
  recs := []
  lpcs := []
  page := 0
  past := none
  prior := g.st
  route := .none

/-- The image of one group of a team that is saved; a parked group's stands already (14 R395). -/
def State.saveGroup (t : Team) (gr : Grid) (s : State) (g : Group) : State :=
  if g.st == .parked || g.st == .exited then s
  else
    let dpa := s.imageDpa t.core g.quad
    let s := s.recallRange dpa (dpa + 65536)
    (s.writeImage dpa (imagePieces g t gr (s.opsOf g.gid) (g.savedRec dpa))).setGroup { g with saved := some (BitVec.ofNat 45 dpa) }

/-- The places of a team's memory: (region, key of its first byte, bytes). -/
def memPlaces (t : Team) (gr : Grid) : List (Nat × Nat × Nat) :=
  [(0, spadKey t.core t.spadBase, gr.ko.spad), (1, spadKey t.core t.expBase, gr.ko.exportBytes),
   (2, laneKey t.core t.laneBase, gr.ko.groups * 32 * gr.ko.laneBytes)]

/-- A team leaves its core with everything that a program can read saved. -/
def State.saveTeam (s : State) (t : Team) : State :=
  match s.grid? t.grid with
  | none => s
  | some gr =>
    let s := (s.groupsOf t.id).foldl (State.saveGroup t gr) s
    let ps := memPlaces t gr
    let cut (i : Nat) : Store 8 := match ps[i]? with | some p => Store.slice s.mem p.2.1 (p.2.1 + p.2.2) | none => []
    let marks := ps.flatMap fun p =>
      (s.poison.filter fun b => p.2.1 ≤ b && b < p.2.1 + p.2.2).map fun b => (p.1, b - p.2.1)
    let s := ps.foldl (fun (s : State) p =>
      { s with mem := Store.clear s.mem p.2.1 (p.2.1 + p.2.2),
               poison := s.poison.filter fun b => !(p.2.1 ≤ b && b < p.2.1 + p.2.2) }) s
    let now := s.ptcOn (dieOfCore t.core)
    s.setTeam { t with resident := false, savedSpad := cut 0, savedExp := cut 1, savedLane := cut 2, savedPtc := now, savedMarks := marks }

/-- PREEMPT: a team, or its whole cluster launch, is saved into the context area. -/
def execPreempt (team : Nat) (s : State) : Out :=
  needSome (s.team? team) fun t =>
    let ts := s.mates t
    need (t.resident && ts.all fun u => u.resident && (s.groupsOf u.id).all s.savable) <|
      if s.ctxFits then .next (ts.foldl State.saveTeam s) else .fault (.noSuchMemory (s.imageAt t.core 0 0))

/-- A command may go on from another core: none of its requests is under way, or it has faulted; a running command of the
block-transfer engine stays with its engine (09 R276). -/
def Op.mayMove (o : Op) : Bool := o.fault.isSome || o.isBlock || o.parts.all fun p => !p.travels

/-- A command goes with its team to a core; its requester there is another, and numbers its requests anew (15 R415). -/
def Op.toCore (o : Op) (core : Nat) : Op :=
  if o.core == core || (o.isBlock && o.fault.isNone) then o
  else { o with core := core, parts := o.parts.map fun p => { p with sent := none, way := none } }

/-- A saved team comes back on a core (14 R395), whose die's PTC has reached the one that the team could last read (14
R400), on another than its own once its stores have been acknowledged; its groups stand last in their quadrants' issue lists
(log 110). -/
def State.restoreTeam (s : State) (t : Team) (core : Nat) : Option State :=
  match s.grid? t.grid with
  | none => none
  | some gr =>
    let live := ((s.groupsOf t.id).filter fun g => g.st != .exited).map fun g => g.grpid.toNat
    let mine : Op → Bool := fun o => (s.groupsOf t.id).any fun g => g.gid == o.gid
    let free := core == t.core || s.ops.all fun o => !mine o || o.mayMove
    match (if s.coreUp core && free && t.savedPtc ≤ s.ptcOn (dieOfCore core) then s.roomOn core gr.ko live t.accUnits else none) with
    | none => none
    | some rm =>
      let u := { t with core := core, spadBase := rm.spad, expBase := rm.exp, laneBase := rm.lane, resident := true,
                        savedSpad := [], savedExp := [], savedLane := [], savedMarks := [] }
      let ps := memPlaces u gr
      let saved (i : Nat) : Store 8 := if i == 0 then t.savedSpad else if i == 1 then t.savedExp else t.savedLane
      let s := ps.foldl (fun (s : State) p =>
        { s with mem := Store.overlay (Store.clear s.mem p.2.1 (p.2.1 + p.2.2)) p.2.1 (saved p.1)
                 poison := s.poison ++ (t.savedMarks.filter fun m => m.1 == p.1).map fun m => p.2.1 + m.2 }) s
      let s := s.setTeam u
      let s := (s.groupsOf t.id).foldl (fun (s : State) g => s.setGroup { g with order := s.nextOrder core g.quad, saved := none }) s
      some { s with ops := s.ops.map fun (o : Op) => if mine o then o.toCore core else o }

/-- Mates on successive cores of the cluster, from the named one. -/
def State.restoreAll (s : State) (core : Nat) : List Team → Option State
  | [] => some s
  | t :: ts =>
    let c := core / 8 * 8 + (core + t.clustrank) % 8
    match s.restoreTeam t c with
    | none => none
    | some u => u.restoreAll core ts

/-- A key of a place that has moved. -/
def moveKey (olds news : List (Nat × Nat × Nat)) (key : Nat) : Nat :=
  match (olds.zip news).find? fun q => q.1.2.1 ≤ key && key < q.1.2.1 + q.1.2.2 with
  | some q => q.2.2.1 + (key - q.1.2.1)
  | none => key

/-- The memory places of some teams. -/
def State.placesOf (s : State) (ts : List Team) : List (Nat × Nat × Nat) :=
  ts.flatMap fun t => match s.grid? t.grid with | some gr => memPlaces t gr | none => []

/-- Range-scoreboard entries of some groups' faulted copies, and the clasps that the groups wait on, move with the memory
they name (09 R269, R275). -/
def State.moveRanges (s : State) (gids : List Nat) (olds news : List (Nat × Nat × Nat)) : State :=
  { s with
    ops := s.ops.map fun (o : Op) =>
      if gids.contains o.gid then
        { o with ranges := o.ranges.map fun r => (r.1, moveKey olds news r.2.1, moveKey olds news (r.2.2 - 1) + 1) }
      else o
    groups := s.groups.map fun (g : Group) =>
      match g.st with
      | .blockedClasp sp addr key phase scope =>
        if gids.contains g.gid then { g with st := .blockedClasp sp addr (moveKey olds news key) phase scope } else g
      | _ => g }

/-- An action of DBGACT that the part applies to a parked group (14 R393). -/
def State.dbgApply (s : State) (q : Nat) (g : Group) (action : Nat) : Out :=
  let t := s.unpark g
  let g := { g with park := g.park.map fun p => { p with route := .none } }
  (t.setGroup g).resume g action

/-- The actions that waited for a team's restoration are applied. -/
def dbgWaiting (s : State) : List Group → Out
  | [] => .next s
  | g :: gs =>
    match g.st, g.park with
    | .parked, some p =>
      (match p.route with
       | .host q =>
         let h := s.queue q
         if h.dbgact.getLsbD 63 && fld h.dbgact 44 0 == p.image.toNat then
           andThen (s.dbgApply q g (fld h.dbgact 51 48)) fun s => dbgWaiting s gs
         else dbgWaiting s gs
       | _ => dbgWaiting s gs)
    | _, _ => dbgWaiting s gs

/-- A saved team and its mates back on cores of a cluster, each with an acquire, and nothing else of the state changed. -/
def State.restored (s : State) (t : Team) (core : Nat) : Option State :=
  let ts := s.mates t
  (s.restoreAll core ts).map fun u =>
    let us := u.mates t
    let u := u.moveRanges ((ts.flatMap fun t => s.groupsOf t.id).map (·.gid)) (s.placesOf ts) (u.placesOf us)
    us.foldl (fun (u : State) x => u.acquireAt x.core .sys) u

/-- RESTORE. -/
def execRestore (team core : Nat) (s : State) : Out :=
  needSome (s.team? team) fun t =>
    need (!t.resident && s.resets.isEmpty) <| needSome (s.restored t core) fun u =>
      need (s.keepsRoom u) (dbgWaiting u ((s.mates t).flatMap fun t => u.groupsOf t.id))

end Sys2Proof.Machine
end

