-- ==== Sys2Proof/Machine/Nodes.lean ====
section
/-!
DEFINITION. Work graphs as they run (14 R378-R381, R386, R387): delivery of records, the choice of a level, node teams and
the present node.
-/

namespace Sys2Proof.Machine

/-! ## Records -/

/-- Every access of the group before the emission has performed (14 R380). -/
def State.emissionClear (s : State) (r : Rec) : Bool :=
  s.ops.all fun o => o.gid != r.gid || r.gate ≤ o.id || o.isHint || o.isReport

/-- An ordered node takes each producer team's records in emission order (14 R378). -/
def State.firstOfTeam (s : State) (r : Rec) : Bool :=
  match (s.graph? r.graph).bind fun h => h.nodes[r.node]? with
  | some n => !n.ordered || s.recs.all fun x => r.id ≤ x.id || x.graph != r.graph || x.node != r.node || x.team != r.team
      || (match x.st with | .pending _ => true | _ => false)
  | none => true

/-- RECORD_DELIVERY: a record reaches its node. -/
def execRecordDelivery (rec : Nat) (s : State) : Out :=
  needSome (s.rec? rec) fun r =>
    need (r.st == .sent && s.emissionClear r && s.firstOfTeam r) (.next (s.setRec { r with st := .pending s.ctl.ptc }))

/-- RECORD_RELEASE_AT_TIME (14 R387): by the device's own PTC. -/
def execRecordReleaseAtTime (rec : Nat) (s : State) : Out :=
  needSome (s.rec? rec) fun r =>
    match r.st with
    | .held t => need (t.toNat ≤ s.ctl.ptc) (.next (s.setRec { r with st := .sent }))
    | _ => .refused .eventNotEnabled

/-- PRESENT (14 R379, 15 R412): the image becomes current on its display, or the record is dropped and logged. -/
def execPresent (rec : Nat) (s : State) : Out :=
  needSome (s.rec? rec) fun r =>
  needSome ((s.graph? r.graph).bind fun h => h.nodes[r.node]?) fun n =>
    let image := entryWord r.data 0
    let head := entryNat r.data 8 1
    let fmt := entryNat r.data 9 1
    let pending := match r.st with | .pending _ => true | _ => false
    need (n.type == 4 && pending) <|
      let s := { s with recs := s.recs.filter fun (x : Rec) => x.id != rec }
      if head < 4 && (fmt == 3 || fmt == 6) then
        .next (s.setCtl { s.ctl with heads := s.ctl.heads.set head (some (image, BitVec.ofNat 8 fmt)) })
      else .next (s.svcLog 7 head image (BitVec.ofNat 64 fmt))

/-! ## Levels (14 R386) -/

def State.nodeRecs (s : State) (graph node : Nat) : List Rec := s.recs.filter fun r => r.graph == graph && r.node == node

/-- Records that EMITN commands under way have declared for a node. -/
def State.declared (s : State) (graph node : Nat) : Nat :=
  s.ops.foldl (fun m o =>
    match o.instr, s.ownerOf o with
    | .emitn _ _ _ _ _ n, some w =>
      (match s.outputOf w.2.2 n.toNat with
       | some (h, t, _) => if h.id == graph && t == node then m + ((o.cap 1 o.low).toNat - o.cursor) else m
       | none => m)
    | _, _ => m) 0

/-- The work still to do in core-ns, with the candidate for the nodes whose level is not chosen. -/
def State.workLeft (s : State) (h : Graph) (v : Nat) : Nat :=
  (h.nodes.zipIdx).foldl (fun m q =>
    let n := q.1
    let pending := (s.nodeRecs h.id q.2).length
    let recs := match n.level with | some _ => pending | none => pending + s.declared h.id q.2
    let lv := match n.level with | some l => l.toNat | none => if n.type == 0 then v else 0
    m + recs * n.costs.getD lv 0) 0

/-- P(v) ≤ F − guard, both sides times 576. -/
def State.inTime (s : State) (h : Graph) (v : Nat) : Bool :=
  (s.ctl.ptc * 576 + s.workLeft h v : Int) ≤ ((h.deadline.toNat : Int) - (h.guardNs : Int)) * 576

/-- QUALITY_LEVEL_CHOICE. -/
def State.chooseLevel (s : State) (h : Graph) (n : GNode) : Nat :=
  if n.type != 0 then 0
  else
    let allowed := n.levels.filter fun v => v ≤ h.floor
    match allowed with
    | [] => n.levels.headD 0
    | v :: vs =>
      if h.deadline = 0 then v
      else (allowed.find? fun x => s.inTime h x).getD (vs.getLastD v)

/-! ## Node teams (14 R378) -/

/-- A node can still emit: it has records or a team, or one of its producers can. -/
def State.nodeLive (s : State) (h : Graph) : Nat → Nat → Bool
  | 0, _ => false
  | k + 1, i =>
    !(s.nodeRecs h.id i).isEmpty || s.grids.any (fun g => g.node == some (h.id, i))
      || (List.range h.nodes.length).any fun p =>
          (match h.nodes[p]? with | some n => n.outputs.contains i | none => false) && s.nodeLive h k p

/-- Some producer of the node can emit again. -/
def State.producing (s : State) (h : Graph) (i : Nat) : Bool :=
  (List.range h.nodes.length).any fun p =>
    (match h.nodes[p]? with | some n => n.outputs.contains i | none => false) && s.nodeLive h h.nodes.length p

/-- Pending records of a node, oldest first. -/
def State.pendingRecs (s : State) (graph node : Nat) : List Rec :=
  (s.nodeRecs graph node).filter fun r => match r.st with | .pending _ => true | _ => false

/-- The oldest pending record has waited the node's coalesce time. -/
def State.overdue (s : State) (n : GNode) (rs : List Rec) : Bool :=
  rs.any fun r => match r.st with | .pending t => n.coalesce * 1000 ≤ s.ctl.ptc - t | _ => false

/-- A graph is killed whole (14 R392). -/
def State.killGraph (s : State) (graph : Nat) (cause detail : Nat) : State :=
  let s := { s with graphs := s.graphs.map fun (h : Graph) =>
    if h.id == graph && h.killed.isNone then { h with killed := some (BitVec.ofNat 8 cause, BitVec.ofNat 8 detail) } else h }
  let s := { s with recs := s.recs.filter fun (r : Rec) => r.graph != graph }
  s.killGrids ((s.grids.filter fun (g : Grid) => (match g.node with | some (x, _) => x == graph | none => false)).map
    fun (g : Grid) => g.id) (BitVec.ofNat 8 cause) (BitVec.ofNat 8 detail)

/-! ### Raster tiles (11 R327, 14 R379) -/

/-- A raster record's tile and sequence number. -/
def recTile (d : List Byte) : W32 := BitVec.ofNat 32 (entryNat d 8 4)
def recSeq (d : List Byte) : W32 := BitVec.ofNat 32 (entryNat d 12 4)

/-- A tile's sequence number: 0 when the graph starts, and one more with each batch issued (log 129). -/
def tileSeq (ts : List (W32 × W32)) (t : W32) : W32 := match ts.find? fun q => q.1 == t with | some q => q.2 | none => 0
def bumpTile (ts : List (W32 × W32)) (t : W32) : List (W32 × W32) :=
  ts.filter (fun q => q.1 != t) ++ [(t, tileSeq ts t + 1)]

/-- Tiles that a team of the node has. -/
def State.tilesOut (s : State) (graph node : Nat) : List W32 :=
  s.teams.flatMap fun t =>
    match s.grid? t.grid with
    | some g => if g.node == some (graph, node) then t.records.map recTile else []
    | none => []

/-- The records of a raster node that may be issued now: of tiles that no team has, in the order of their sequence
numbers. -/
def rasterTurn (out : List W32) : List (W32 × W32) → List Rec → List Rec
  | _, [] => []
  | ts, r :: rs =>
    let t := recTile r.data
    if !out.contains t && recSeq r.data == tileSeq ts t then r :: rasterTurn out (bumpTile ts t) rs else rasterTurn out ts rs

/-- Records of a node that a team may take now, oldest first. -/
def State.issuable (s : State) (graph node : Nat) (n : GNode) : List Rec :=
  let rs := s.pendingRecs graph node
  if n.type == 1 then rasterTurn (s.tilesOut graph node) n.tiles rs else rs

/-! ### Launch -/

/-- Nodes that the records of some nodes can lead to, in so many steps. -/
def Graph.below (h : Graph) : Nat → List Nat → List Nat
  | 0, out => out
  | k + 1, out =>
    let next := out.flatMap fun i => match h.nodes[i]? with | some n => n.outputs.filter fun t => t < h.nodes.length | none => []
    h.below k (out ++ next).eraseDups

/-- The pool is above half full and a consumer of the node has records: it goes first (14 R381). -/
def State.consumerFirst (s : State) (h : Graph) (i : Nat) : Bool :=
  h.pool < 2 * s.poolUsed h.id && (h.below h.nodes.length [i]).any fun j => j != i && !(s.pendingRecs h.id j).isEmpty

/-- The grid of one node team: the node, its level and what the graph gives it; firmware kernels run in the management
class (15 R401). -/
def nodeGrid (s : State) (h : Graph) (i : Nat) (type : Nat) (level : Nat) (ko : KObj) (params : List W64) : Grid where
  id := s.nextGrid
  ko := ko
  dimX := 1
  dimY := 1
  dimZ := 1
  params := params
  cls := if type == 0 then h.cls else 4
  prio := h.prio
  depth := h.depth
  queue := h.queue
  slot := h.slot
  parentGroup := none
  parentTeam := none
  parentGrid := none
  handler := h.handler
  deadline := h.deadline
  hang := h.hang
  clasp := none
  scope := .sys
  status := 0
  winFirst := h.winFirst
  winCount := h.winCount
  nextTeam := 1
  doneTeams := 0
  killed := none
  serves := none
  node := some (h.id, i)
  level := BitVec.ofNat 2 level
  pending := none
  gate := 0
  origin := none

/-- The parameter block of a node (02 R53). -/
def State.nodeParams (s : State) (n : GNode) : Sys (List W64) :=
  if n.paramAddr = 0 then .ok (List.replicate ((n.paramSize + 7) / 8) 0)
  else
    match s.sysRead n.paramAddr.toNat n.paramSize with
    | .ok b => .ok (wordsOf b ((n.paramSize + 7) / 8))
    | .fault k => .fault k
    | .wait => .wait

def setNode (h : Graph) (i : Nat) (n : GNode) : Graph := { h with nodes := h.nodes.set i n }

/-- A team of a node starts with its oldest records, record k in group k div 32 and lane k mod 32; the node's hint list
comes before its first team. -/
def launchNode (s : State) (graph node core : Nat) (due : GNode → List Rec → KObj → Bool) : Out :=
  needSome (s.graph? graph) fun h =>
  needSome h.nodes[node]? fun n =>
    let rs := s.issuable graph node n
    let busy := s.quiesces.any fun j => j.node == some (graph, node)
    need (n.type != 4 && !rs.isEmpty && h.killed.isNone && !busy && !s.consumerFirst h node) <|
    if n.hintCount != 0 && !n.hinted then
      match s.readHints n.hintList n.hintCount with
      | .ok hs => .next ((s.setGraph (setNode h node { n with hinted := true })).addQuiesce hs none (some (graph, node)))
      | .wait => .refused .eventNotEnabled
      | .bad => .next (s.killGraph graph 11 5)
      | .fault k => .next (s.killGraph graph 6 k)
    else
      let level := match n.level with | some l => l.toNat | none => s.chooseLevel h n
      let addr := if n.type == 0 then n.kernels.getD level 0 else Config.fixedKernel n.type
      match s.readKObj addr with
      | .wait => .refused .eventNotEnabled
      | .cond c => .next (s.killGraph graph 15 c)
      | .fault k => .next (s.killGraph graph 6 k)
      | .ok ko =>
        match s.nodeParams n with
        | .wait => .refused .eventNotEnabled
        | .fault k => .next (s.killGraph graph 6 k)
        | .ok params =>
          need (due n rs ko) <|
            let mine := rs.take (32 * ko.groups)
            let gr := nodeGrid s h node n.type level ko params
            let live (g : Nat) : W32 := laneMask fun l => 32 * g + l < mine.length
            let win (g : Nat) : Store 32 := (List.range 32).foldl (fun (m : Store 32) l =>
              match mine[32 * g + l]? with
              | none => m
              | some r => (List.range (n.recBytes / 4)).foldl (fun (m : Store 32) j =>
                  Store.write m (winKey 0 j l) (BitVec.ofNat 32 (entryNat r.data (4 * j) 4))) m) []
            let s1 := { s with
              grids := s.grids ++ [gr]
              nextGrid := s.nextGrid + 1
              recs := s.recs.filter fun (r : Rec) => !mine.any fun x => x.id == r.id }
            let tiles := if n.type == 1 then mine.foldl (fun ts r => bumpTile ts (recTile r.data)) n.tiles else n.tiles
            let s1 := s1.setGraph (setNode h node { n with level := some (BitVec.ofNat 2 level), tiles := tiles })
            needSome (s1.placeTeam gr core 0 0 1 (mine.map fun r => r.data) live win) fun t => need (s.keepsRoom t) (.next t)

/-- NODE_TEAM_LAUNCH: a whole team's records are pending, or no producer can emit again. -/
def execNodeTeamLaunch (graph node core : Nat) (s : State) : Out :=
  launchNode s graph node core fun _ rs ko =>
    32 * ko.groups ≤ rs.length || (match s.graph? graph with | some h => !s.producing h node | none => false)

/-- NODE_COALESCE_EXPIRY: the oldest pending record has waited the node's coalesce time. -/
def execNodeCoalesceExpiry (graph node core : Nat) (s : State) : Out :=
  launchNode s graph node core fun n rs _ => s.overdue n rs

end Sys2Proof.Machine
end

