-- ==== Sys2Proof/Machine/Sched.lean ====
section
/-!
DEFINITION. Hang limits (14 R389), the host debugger's actions (14 R393) and class budgets (14 R384, R385).
-/

namespace Sys2Proof.Machine

/-! ## Hang limits -/

/-- The group waits on flags (14 Table 14.9). -/
def State.waitsOnFlags (s : State) (g : Group) : Bool :=
  g.st == .ready && g.run.isNone && g.live != 0 &&
    (match s.team? g.team with
     | some t =>
       (match s.peekWord t.core g.current with
        | some w => (g.flags &&& waitMask (Header.ofWord w)) != 0
        | none => false)
     | none => false)

/-- The group is blocked (14 Table 14.9): in BWAIT or CLWAIT, on a quiesced page, or held at a word. -/
def Group.blocked (g : Group) : Bool :=
  match g.st with
  | .ready => (match g.run with | some r => r.held | none => false)
  | .blockedBatch _ | .blockedClasp .. | .blockedPage _ => true
  | _ => false

def hangFault (clause : BitVec 48) (word run : Nat) : FaultRec where
  cause := 14
  detail := 0
  fields := plainFields clause word run
  lanes := 0
  service := none

/-- The group has waited or been blocked for its limit, in µs, without a break (14 R389). -/
def State.overHang (s : State) (g : Group) : Bool :=
  (g.blocked || s.waitsOnFlags g) && (match g.since with | some t => g.hang.toNat * 1000 ≤ s.ctl.ptc - t | none => false)

/-- HANG_LIMIT_EXPIRY (14 R389): an unbroken wait of the grid's limit parks the group where it waits between clauses, and
at its clause's end where the wait was within the clause (03 R72). -/
def execHangLimitExpiry (gid : Nat) (s : State) : Out :=
  needSome (s.group? gid) fun g =>
    if g.between then
      need (g.hang != 0 && (g.hung || s.overHang g) && g.live != 0 && !s.samplerBusy gid) <|
        match g.run with
        | some r => s.park gid (hangFault r.addr r.idx r.runNo) r.idx r.runNo r.addr none
        | none => s.park gid (hangFault g.current 0 0) 0 0 g.current none
    else need (g.hang != 0 && !g.hung && s.overHang g) (.next (s.setGroup { g with hung := true }))

/-! ## DBGACT -/

/-- The fields of DBGACT that a write leaves in it. -/
def dbgFields (v : W64) : W64 := setFld (setFld 0 51 48 (fld v 51 48)) 44 0 (fld v 44 0)

/-- The parked group that a queue's DBGACT may act on. -/
def State.awaiting (s : State) (q image : Nat) : Option Group :=
  match s.parkedAt image with
  | none => none
  | some g =>
    match g.park, (s.team? g.team).bind fun t => s.grid? t.grid with
    | some p, some gr => if p.route == .host q && gr.queue == q then some g else none
    | _, _ => none

/-- A write to DBGACT (14 R393): GO applies an action at once and reads 0 again, or, for a group of a pre-empted team,
once the team is restored; a refused write, as one while GO reads 1, sets ERR. -/
def State.dbgWrite (s : State) (q : Nat) (v : W64) : Out :=
  let h := s.queue q
  let keep : W64 := if v.getLsbD 62 then 0 else setFld 0 62 62 (fld h.dbgact 62 62)
  let refused : Out := .next (s.setQueue q { h with dbgact := setFld (dbgFields v) 62 62 1 })
  if h.dbgact.getLsbD 63 then .next (s.setQueue q { h with dbgact := setFld h.dbgact 62 62 1 })
  else if !v.getLsbD 63 then .next (s.setQueue q { h with dbgact := dbgFields v ||| keep })
  else if 4 ≤ fld v 51 48 then refused
  else
    match s.awaiting q (fld v 44 0) with
    | none => refused
    | some g =>
      let t := s.setQueue q { h with dbgact := dbgFields v }
      if s.residentGroup g then t.dbgApply q g (fld v 51 48)
      else .next (s.setQueue q { h with dbgact := setFld (dbgFields v) 63 63 1 })

/-- The host's write of an action for an image. -/
def dbgAction (action : Nat) (image : BitVec 45) : W64 := setFld (setFld (image.setWidth 64) 51 48 action) 63 63 1

def dbgact (q action : Nat) (image : BitVec 45) (s : State) : Out :=
  need (q < 64) (if s.ctl.up then s.dbgWrite q (dbgAction action image) else .next s)

/-- DBGACT_RESUME. -/
def execDbgactResume (q : Nat) (image : BitVec 45) (s : State) : Out := dbgact q 0 image s
/-- DBGACT_SKIP. -/
def execDbgactSkip (q : Nat) (image : BitVec 45) (s : State) : Out := dbgact q 1 image s
/-- DBGACT_KILL_GROUP. -/
def execDbgactKillGroup (q : Nat) (image : BitVec 45) (s : State) : Out := dbgact q 2 image s
/-- DBGACT_KILL_GRID. -/
def execDbgactKillGrid (q : Nat) (image : BitVec 45) (s : State) : Out := dbgact q 3 image s

/-! ## Class budgets -/

/-- BUDGET_PERIOD (14 R384, R385): a period of 100 µs ends, and with it every cap that was reached. -/
def execBudgetPeriod (s : State) : Out :=
  need (s.ctl.budgetAt + 100000 ≤ s.ctl.ptc) <|
    .next { s with
      budget := { s.budget with used := List.replicate 5 0 }
      ctl := { s.ctl with budgetAt := s.ctl.ptc } }

/-- A write of CLSBUDc that 14 R384 admits: in each resource, guarantees of at most 100 in all, g ≤ h ≤ 100. -/
def State.budgetOk (s : State) (c : Nat) (v : W64) : Bool :=
  let regs := s.budget.reg.set c v
  [0, 16, 32, 48].all fun k =>
    let g := fld v (k + 7) k
    let h := fld v (k + 15) (k + 8)
    (regs.foldl (fun n r => n + fld r (k + 7) k) 0) ≤ 100 && g ≤ h && h ≤ 100

def State.budgetWrite (s : State) (c : Nat) (v : W64) : State :=
  if s.budgetOk c v then { s with budget := { s.budget with reg := s.budget.reg.set c v } } else s

/-- CLSBUD_WRITE. -/
def execClsbudWrite (c : Nat) (v : BitVec 64) (s : State) : Out :=
  need (c < 5) (.next (if s.ctl.up then s.budgetWrite c v else s))

end Sys2Proof.Machine
end

