-- ==== Sys2Proof/Machine/Xlate.lean ====
section
/-!
DEFINITION. The translation block (08 R236-R247, R252, R253): invalidates, region commands, the split pool, the memory
service's splits and collapses, and quiesce points.
-/

namespace Sys2Proof.Machine

/-! ## Invalidates -/

/-- The range of virtual addresses that an XLINVC value names, [lo, hi). -/
def invRange (va c : W64) : Nat × Nat :=
  if fld c 33 32 == 2 then (0, 2 ^ 48)
  else
    let n := pageBytes (fld c 31 30)
    let lo := va.toNat / n * n
    (lo, lo + (if fld c 33 32 == 0 then 1 else fld c 19 0) * n)

/-- A malformed command (08 Table 8.12). -/
def invBad (c : W64) : Bool :=
  fld c 33 32 == 3 || (fld c 33 32 ≤ 1 && fld c 31 30 == 3) || (fld c 33 32 == 1 && fld c 19 0 == 0)

/-- Cached translations that overlap a range go. -/
def State.dropTlb (s : State) (lo hi : Nat) : State :=
  let out (t : TlbEntry) : Bool := !(rangesOverlap t.va.toNat (t.va.toNat + pageBytes t.size.toNat) lo hi)
  { s with
    tlb := s.tlb.filter out
    dtlb := s.dtlb.filter out
    wcache := s.wcache.filter fun (p : PtrEntry) => !(rangesOverlap p.va.toNat (p.va.toNat + levelBytes p.level) lo hi) }

/-- A part that has been translated and has neither completed nor faulted (08 R236). -/
def Part.inFlight (p : Part) : Bool := p.timeouts < 3 && (p.line.isSome || p.st == .queued)

/-- The key of a part that has been translated. -/
def Part.at_ (p : Part) : Nat := match p.way with | some w => w.key | none => dataKey p.key

/-- An access to a range of virtual addresses is in flight (08 R236). -/
def State.flying (s : State) (lo hi : Nat) : Bool :=
  s.ops.any fun o => o.parts.any fun p => p.sp == .g && p.inFlight &&
    (lo ≤ (p.addr + BitVec.ofNat 64 p.off).toNat && (p.addr + BitVec.ofNat 64 p.off).toNat < hi
      || o.isCopy || o.isMatrix || o.isSampler)

/-- The RW fields of XLINVC. -/
def invFields (v : W64) : W64 := setFld (setFld 0 33 30 (fld v 33 30)) 19 0 (fld v 19 0)

/-- A write to XLINVC (08 R236, R252). -/
def State.invWrite (s : State) (v : W64) : State :=
  let old := s.xl.invc
  let err := if v.getLsbD 62 then 0 else fld old 62 62
  let put (x : W64) : State := { s with xl := { s.xl with invc := x } }
  if !v.getLsbD 63 then put (setFld (setFld (invFields v) 63 63 (fld old 63 63)) 62 62 err)
  else if old.getLsbD 63 then put (setFld old 62 62 1)
  else if invBad v then put (setFld (invFields v) 62 62 1)
  else
    let r := invRange s.xl.inva v
    let x := { s.xl with invc := setFld (setFld (invFields v) 63 63 1) 62 62 err, invLo := r.1, invHi := r.2 }
    { s with xl := x }.dropTlb r.1 r.2

/-- XLINVC as written to start a command. -/
def invGo (kind size count : Nat) : W64 := setFld (setFld (setFld (setFld 0 63 63 1) 33 32 kind) 31 30 size) 19 0 count

/-- INVALIDATE_ONE_PAGE. -/
def execInvalidateOnePage (size : BitVec 2) (s : State) : Out :=
  .next (if s.ctl.up then s.invWrite (invGo 0 size.toNat 0) else s)
/-- INVALIDATE_RANGE. -/
def execInvalidateRange (size : BitVec 2) (count : BitVec 20) (s : State) : Out :=
  .next (if s.ctl.up then s.invWrite (invGo 1 size.toNat count.toNat) else s)
/-- INVALIDATE_ALL. -/
def execInvalidateAll (s : State) : Out := .next (if s.ctl.up then s.invWrite (invGo 2 0 0) else s)

/-- INVALIDATE_COMPLETE (08 R236): every access translated with an entry of the range as it stood has completed; groups and
parts held on the pages look again (08 R223, R240). -/
def execInvalidateComplete (s : State) : Out :=
  let lo := s.xl.invLo
  let hi := s.xl.invHi
  need (s.xl.invc.getLsbD 63 && !s.flying lo hi)
    (.next (({ s with xl := { s.xl with invc := setFld s.xl.invc 63 63 0 } }.dropTlb lo hi).wakePages lo hi))

/-! ## Tables -/

/-- A device's translation block replaced. -/
def State.setXl (s : State) (dev : Nat) (x : XlRegs) : State :=
  if dev == s.device then { s with xl := x }
  else { s with peers := s.peers.map fun (p : Peer) => if p.device.toNat == dev then { p with xl := x } else p }

/-- A table entry written by the part (08 R233). -/
def State.putWord (s : State) (key : Nat) (v : W64) : State := (s.purge (blockOf key)).putLe key 8 v.toNat

/-! ## Regions (07 R211, 08 R252) -/

/-- A region descriptor (07 Table 7.3), or none where it breaks a limit.  The model's own choice (log 133): −0 is no limit
of a float region. -/
def parseRegion (n : BitVec 12) (b : List Byte) : Option Region :=
  let base := entryNat b 0 8
  let len := entryNat b 8 8
  let fmt := entryNat b 16 1
  let limbs := entryNat b 17 1
  let order := entryNat b 18 1
  let limit := entryNat b 24 8
  let limitOk := fmt == 2 || fmt == 3 || (limit < 2 ^ 32 && limit / 2 ^ 31 == 0 && limit / 2 ^ 23 % 256 != 255)
  if base % 65536 != 0 || len == 0 || len % 65536 != 0 || 4 < fmt || (if fmt == 4 then limbs < 1 || 8 < limbs else limbs != 0)
      || 2 ≤ order || entryNat b 19 5 != 0 || !limitOk || 2 ^ 48 < base + len then none
  else some ⟨n, BitVec.ofNat 64 base, BitVec.ofNat 64 len, fmt, limbs, order, BitVec.ofNat 64 limit⟩

/-- A leaf of the device binds a page to the region. -/
def State.bound (s : State) (n : BitVec 12) : Nat → Nat → Bool
  | 0, _ => false
  | k + 1, table =>
    (List.range (if k == 0 then 32 else 512)).any fun i =>
      let e := s.word (table + 8 * i)
      if leafBit e then (leafState e == 3 || leafState e == 5) && leafRegion e == n
      else leafState e == 4 && s.bound n k (mkDpa s.device (fld e 57 57) (fld e 55 26 * 256))

def State.regionBound (s : State) (n : BitVec 12) : Bool :=
  s.xl.root.getLsbD 0 && s.bound n 4 (mkDpa s.device (fld s.xl.root 38 38) (fld s.xl.root 37 12 * 4096))

/-- A region command's reason (08 Table 8.14), 0 when accepted, with the regions it leaves. -/
def State.regionCommand (s : State) (remove : Bool) (n : BitVec 12) : Nat × List Region :=
  let there := s.regions.any fun r => r.n == n
  if n = 0 || there != remove then (4, s.regions)
  else if remove then
    (if s.regionBound n then (3, s.regions) else (0, s.regions.filter fun r => r.n != n))
  else
    let key := mkDpa s.device (fld s.xl.regt 38 38) (fld s.xl.regt 37 12 * 4096 + 32 * n.toNat)
    if s.poisoned key then (5, s.regions)
    else
      match parseRegion n ((s.recallNow (blockOf key)).bytes key 32) with
      | none => (1, s.regions)
      | some r =>
        if s.regions.any fun x => rangesOverlap x.base.toNat (x.base.toNat + x.len.toNat) r.base.toNat (r.base.toNat + r.len.toNat)
          then (2, s.regions) else (0, s.regions ++ [r])

/-- A write to XLREGC (08 R252): a command is done at once. -/
def State.regionWrite (s : State) (v : W64) : State :=
  let err := if v.getLsbD 62 then 0 else fld s.xl.regc 62 62
  let x := setFld (setFld 0 16 16 (fld v 16 16)) 11 0 (fld v 11 0)
  if !v.getLsbD 63 then { s with xl := { s.xl with regc := setFld (setFld x 61 56 (fld s.xl.regc 61 56)) 62 62 err } }
  else
    let r := s.regionCommand (v.getLsbD 16) (v.extractLsb' 0 12)
    { s with
      regions := r.2
      xl := { s.xl with regc := setFld (setFld x 61 56 r.1) 62 62 (if r.1 == 0 then err else 1) } }

/-- REGION_INSTALL. -/
def execRegionInstall (n : BitVec 12) (s : State) : Out :=
  .next (if s.ctl.up then s.regionWrite (setFld (n.setWidth 64) 63 63 1) else s)
/-- REGION_REMOVE. -/
def execRegionRemove (n : BitVec 12) (s : State) : Out :=
  .next (if s.ctl.up then s.regionWrite (setFld (setFld (n.setWidth 64) 16 16 1) 63 63 1) else s)

/-! ## The split pool (08 R246) -/

/-- A write to XLPOOL. -/
def State.poolWrite (s : State) (v : W64) : State :=
  { s with xl := { s.xl with pool := setFld 0 38 8 (fld v 38 8), pooln := setFld s.xl.pooln 63 32 0 } }

/-- XLPOOL_WRITE. -/
def execXlpoolWrite (v : BitVec 64) (s : State) : Out := .next (if s.ctl.up then s.poolWrite v else s)

/-- A table taken from a pool: its die offset, and the block with the use counted. -/
def XlRegs.alloc (x : XlRegs) (bytes : Nat) : Option (Nat × XlRegs) :=
  let base := fld x.pool 37 8 * 256
  let at_ := (base + fld x.pooln 63 32 + bytes - 1) / bytes * bytes
  let used := at_ + bytes - base
  if used ≤ fld x.pooln 31 8 * 256 then some (at_, { x with pooln := setFld x.pooln 63 32 used }) else none

/-- The tables that a split needs below a leaf at a level, largest first. -/
def splitNeeds (level : Nat) : List Nat := if level == 2 then [4096, 256] else if level == 1 then [256] else []

def XlRegs.allocAll (x : XlRegs) : List Nat → Option (List Nat × XlRegs)
  | [] => some ([], x)
  | n :: ns =>
    match x.alloc n with
    | none => none
    | some (a, y) => (match y.allocAll ns with | some (as, z) => some (a :: as, z) | none => none)

/-! ## Splits and collapses (08 R244-R247) -/

/-- A leaf with its frame advanced by so many 64 KiB. -/
def advanceLeaf (e : W64) (n : Nat) : W64 := setFld e 55 34 (fld e 55 34 + n)

/-- The pointer to a table. -/
def pointerTo (die off : Nat) : W64 := setFld (setFld (setFld 0 57 57 die) 55 26 (off / 256)) 11 9 4

/-- A table of a split: the entry replaced by a pointer to a table of leaves one level down (08 Table 8.11, step 2). -/
def State.splitOne (s : State) (dev die off key level : Nat) (e : W64) : State :=
  let n := if level == 2 then 512 else 32
  let step := if level == 2 then 32 else 1
  let s := (List.range n).foldl (fun (s : State) i =>
    s.putWord (mkDpa dev die off + 8 * i) (advanceLeaf e (step * i))) s
  s.putWord key (pointerTo die off)

/-- The tables of one device's split, down to a 64 KiB leaf for the address. -/
def State.splitDown (s : State) (dev die va : Nat) : List Nat → Nat → Nat → W64 → State
  | [], _, _, _ => s
  | off :: offs, key, level, e =>
    let s := s.splitOne dev die off key level e
    let i := levelIndex va (level - 1)
    s.splitDown dev die va offs (mkDpa dev die off + 8 * i) (level - 1) (advanceLeaf e ((if level == 2 then 32 else 1) * i))

/-- A device's leaf for a page: the device, the entry's key and level, the leaf. -/
structure Mapping where
  peer : Peer
  key : Nat
  level : Nat
  leaf : W64
  deriving DecidableEq, Repr

/-- The devices whose leaf for a page is in a state. -/
def State.mapped (s : State) (va st : Nat) : List Mapping :=
  s.devices.filterMap fun (p : Peer) =>
    match s.leafOf p va with
    | some (key, level, e) => if leafState e == st then some ⟨p, key, level, e⟩ else none
    | none => none

def Mapping.dev (m : Mapping) : Nat := m.peer.device.toNat

/-- The mapping is the owner's own: local, and owned by its device. -/
def Mapping.own (m : Mapping) : Bool := leafLocal m.leaf && leafDevice m.leaf == m.dev

/-- The devices whose pool lacks room for what a split of the page needs there, ascending. -/
def State.shortPools (s : State) (va : Nat) : List Nat :=
  ((s.mapped va 2).filter fun m => (m.peer.xl.allocAll (splitNeeds m.level)).isNone).map Mapping.dev

/-- Step 2: every device's table split, in ascending device number. -/
def State.splitAll (s : State) (va : Nat) : State :=
  (s.mapped va 2).foldl (fun (s : State) m =>
    match m.peer.xl.allocAll (splitNeeds m.level) with
    | none => s
    | some (offs, x) => (s.splitDown m.dev (fld x.pool 38 38) va offs m.key m.level m.leaf).setXl m.dev x) s

/-- A fault that the service cannot resolve goes to the grid's handler with a new detail and the pool device (08 R246). -/
def passToHandler (s : State) (g : Group) (p : ParkRec) (detail device : Nat) : Out :=
  needSome (s.team? g.team) fun t =>
  needSome (s.grid? t.grid) fun gr =>
    let p := { p with
      record := (p.record.set 2 (BitVec.ofNat 8 detail)).set 9 (BitVec.ofNat 8 device)
      route := ParkRoute.none }
    let g := { g with park := some p }
    let dpa := p.image.toNat
    if !s.ctxFits then .fault (.noSuchMemory dpa)
    else .next (((s.setGroup g).writeImage dpa (imagePieces g t gr (s.opsOf g.gid) p)).routePark g gr p)

/-- The 64 KiB page that a group parked for the service waits on. -/
def Group.servicePage (g : Group) : Option Nat :=
  match g.st, g.park with
  | .parked, some p => if p.route == .service then some (p.page.toNat / 65536) else none
  | _, _ => none

/-- A fault routed to the service for a page. -/
def FaultRec.onPage (f : FaultRec) (page : Nat) : Bool :=
  match f.service with
  | some a => a.toNat / 65536 == page
  | none => false

/-- Step 6: every group parked on the page goes on, its word or its faulted command again. -/
def State.resumePage (s : State) (page : Nat) : State :=
  let waits : Nat → Bool := fun gid => s.groups.any fun (h : Group) => h.gid == gid && h.servicePage == some page
  { s with
    ops := s.ops.map fun (o : Op) =>
      match o.fault with
      | some f => if waits o.gid && f.onPage page then o.replay else o
      | none => o
    groups := s.groups.map fun (g : Group) =>
      if g.servicePage == some page then
        (match g.park with
         | some p =>
           let st : GState := match p.prior with | .blockedBatch _ | .blockedClasp .. | .blockedPage _ => .ready | x => x
           { g with st := st, park := none, since := some s.ctl.ptc }
         | none => g)
      else g }

/-- The lines of a frame dropped from every L1 of the device; owned ones give their dirty words. -/
def State.dropFrame (s : State) (lo n : Nat) : State :=
  (s.l1.filter fun (l : L1Line) => lo ≤ l.blk && l.blk < lo + n).foldl (fun (s : State) l =>
    let s := if l.st == LineSt.owned then s.writeBack l else s
    let s := s.dropLine l.core l.blk
    s.setDir ⟨l.blk, none, []⟩) s

/-- Step 4's store of state 5, on every device. -/
def State.quiescePage (s : State) (page : Nat) : State :=
  let va := page * 65536
  let s := (s.mapped va 2).foldl (fun (s : State) m => s.putWord m.key (setFld m.leaf 11 9 5)) s
  { s.dropTlb va (va + 65536) with locks := s.locks ++ [BitVec.ofNat 32 page] }

/-- The normal leaf that step 5 stores: the owner's frame, writable, X and the software bits kept. -/
def normalLeaf (owner : Nat) (o e : W64) : W64 :=
  let f := setFld (setFld (setFld 0 63 58 owner) 57 57 (fld o 57 57)) 55 34 (fld o 55 34)
  setFld (setFld (setFld f 11 9 1) 8 7 3) 6 0 (fld e 6 0)

/-- A device's count of collapses goes up. -/
def State.countCollapse (s : State) (dev : Nat) : State :=
  match s.devices.find? fun p => p.device.toNat == dev with
  | some p => s.setXl dev { p.xl with collapses := p.xl.collapses + 1 }
  | none => s

/-- Step 5 and the report of step 6, for a page with an owner. -/
def State.collapseTo (s : State) (va : Nat) (ms : List Mapping) (o : Mapping) : State :=
  let copies := (ms.filter fun m => leafLocal m.leaf && m.dev != o.dev).map fun m =>
    mkDpa m.dev (leafDie m.leaf) (leafFrame m.leaf)
  let s := copies.foldl (fun (s : State) f => s.dropFrame f 65536) s
  let s := ms.foldl (fun (s : State) m => (s.putWord m.key (normalLeaf o.dev o.leaf m.leaf)).countCollapse m.dev) s
  copies.foldl (fun (s : State) f => s.svcLog 1 0 (BitVec.ofNat 64 f) (BitVec.ofNat 64 va)) s

/-- Steps 4 to 6 for a quiesced page: copies' lines dropped, normal leaves stored, copy frames logged, groups resumed. -/
def State.collapsePage (s : State) (page : Nat) : State :=
  let va := page * 65536
  let ms := s.mapped va 5
  let s := match ms.find? Mapping.own with
    | none => s
    | some o => s.collapseTo va ms o
  let s := { s.dropTlb va (va + 65536) with locks := s.locks.filter fun (l : BitVec 32) => l.toNat != page }
  (s.wakePages va (va + 65536)).resumePage page

/-- Steps 1 to 4 for a group's fault, when its region is not locked. -/
def serveFault (s : State) (g : Group) (p : ParkRec) (page : Nat) : Out :=
  let va := page * 65536
  match s.leafOf ⟨BitVec.ofNat 6 s.device, s.xl, s.regions⟩ va with
  | none => .next (s.resumePage page)
  | some (_, _, e) =>
    if leafState e == 5 then .refused .eventNotEnabled
    else if leafState e != 2 then .next (s.resumePage page)
    else
      if !((s.mapped va 2).any fun m => m.own && m.dev == leafDevice e) then passToHandler s g p 4 (leafDevice e)
      else
        match s.shortPools va with
        | d :: _ => passToHandler s g p 3 d
        | [] => .next ((s.splitAll va).quiescePage page)

/-- MEMORY_SERVICE_COLLAPSE (08 R244, Table 8.11): a page already quiesced is collapsed once the accesses made with its old
leaves have completed; else the group's fault is served.  A group that waits for no service, having been killed, leaves
the page first in the lock to be finished. -/
def execMemoryServiceCollapse (gid : Nat) (s : State) : Out :=
  let finish (page : Nat) : Out :=
    need (!s.flying (page * 65536) (page * 65536 + 65536)) (.next (s.collapsePage page))
  match (s.group? gid).bind fun g => g.park.bind fun p => g.servicePage.map fun n => (g, p, n) with
  | none => (match s.locks with | l :: _ => finish l.toNat | [] => .refused .eventNotEnabled)
  | some (g, p, page) =>
    match s.locks.find? fun l => l.toNat / 32 == page / 32 with
    | some l => finish l.toNat
    | none => serveFault s g p page

/-! ## Quiesce points (08 R239-R242) -/

/-- The new leaf of a page for a device. -/
def newLeaf : List Hint → List W64 → Nat → Nat → Option W64
  | [], _, _, _ => none
  | h :: hs, ls, dev, va =>
    let here := h.addrs.flatMap fun p => (maskDevices h.mask).map fun d => (d, p.1)
    match (here.zip ls).find? fun q => q.1 == (dev, va) with
    | some q => some q.2
    | none => newLeaf hs (ls.drop here.length) dev va

/-- The leaves below a table: entry, level and first address; `n` levels stand from it down, and it maps addresses from
`va` on. -/
def State.leavesUnder (s : State) (dev : Nat) : Nat → Nat → Nat → List (Nat × Nat × Nat)
  | 0, _, _ => []
  | n + 1, table, va =>
    (List.range (if n == 0 then 32 else 512)).flatMap fun i =>
      let key := table + 8 * i
      let e := s.word key
      let a := va + i * pageBytes n
      if leafBit e then [(key, n, a)]
      else if leafState e == 4 then s.leavesUnder dev n (mkDpa dev (fld e 57 57) (fld e 55 26 * 256)) a
      else []

/-- The entries of a device that map a page, or, where none does, the page's own: entry, level, the first address that it
maps of the page and the size code of what it maps of it. -/
def State.entriesOf (s : State) (d : Peer) (va size : Nat) : List (Nat × Nat × Nat × Nat) :=
  match s.slot d va size with
  | none => []
  | some (key, level) =>
    let e := s.word key
    if !leafBit e && leafState e == 4 then
      (s.leavesUnder d.device.toNat level (mkDpa d.device.toNat (fld e 57 57) (fld e 55 26 * 256)) va).map
        fun q => (q.1, q.2.1, q.2.2, q.2.1)
    else [(key, level, va, size)]

/-- The leaf entries that the point quiesces: of every device of the domain whose tables map a page of it, by leaves of
whatever size; a leaf of a device outside the mask, and one that may not become what a hint asks, comes back as it was. -/
def quiesceLeaves (s : State) (j : Quiesce) : List LeafChange :=
  j.pages.flatMap fun p =>
    s.devices.flatMap fun (d : Peer) =>
      (s.entriesOf d p.1 p.2).filterMap fun q =>
        let dev := d.device.toNat
        let e := s.word q.1
        let new := match if q.2.1 == p.2 then newLeaf j.hints j.fresh dev p.1 else none with
          | some l => if leafMoves dev e l then l else e
          | none => e
        if leafBit new && leafState new != 0 then some ⟨dev, q.1, e, new, BitVec.ofNat 64 q.2.2.1, q.2.1, q.2.2.2⟩ else none

/-- A leaf that names a frame. -/
def leafLive (e : W64) : Bool := leafBit e && (leafState e == 1 || leafState e == 2 || leafState e == 3)

/-- The frame of a change, for a leaf of its entry: where what it maps of the page begins; and how long that is. -/
def LeafChange.frame (l : LeafChange) (e : W64) : Nat := leafDpa l.dev e l.level l.page.toNat
def LeafChange.bytes (l : LeafChange) : Nat := pageBytes l.size

/-- The changes whose old leaves name frames; those whose new ones do. -/
def Quiesce.olds (j : Quiesce) : List LeafChange := j.leaves.filter fun l => leafLive l.old
def Quiesce.news (j : Quiesce) : List LeafChange := j.leaves.filter fun l => leafLive l.new

/-- The frames that the old leaves name for the pages, with their bytes. -/
def Quiesce.oldFrames (j : Quiesce) : List (Nat × Nat) := j.olds.map fun l => (l.frame l.old, l.bytes)

/-- The whole frames of the old leaves. -/
def Quiesce.wholeFrames (j : Quiesce) : List (Nat × Nat) :=
  j.olds.map fun l => (leafDpa l.dev l.old l.level 0, pageBytes l.level)

/-- Another point, or a collapse, has one of the entries: they share a leaf that maps pages of both. -/
def State.entryTaken (s : State) (j : Quiesce) (ls : List LeafChange) : Bool :=
  s.quiesces.any (fun x => x.id != j.id && x.stage != 0 && x.leaves.any fun l => ls.any fun m => m.key == l.key)
    || s.locks.any fun p => ls.any fun m =>
        rangesOverlap (p.toNat * 65536) (p.toNat * 65536 + 65536) m.page.toNat (m.page.toNat + m.bytes)

def inFrames (fs : List (Nat × Nat)) (key : Nat) : Bool := fs.any fun f => f.1 ≤ key && key < f.1 + f.2

/-- The block that a message is about. -/
def MsgBody.block (m : MsgBody) : Option Nat :=
  match m with
  | .recallLine _ blk _ _ _ _ | .recallHamper _ blk _ | .shareReq _ blk _ | .split _ blk _ _ _ _ _
  | .splitAck _ blk _ _ _ _ _ | .grant _ blk _ _ _ | .drain _ blk _ _ _ _ _ _ _ | .drainAck _ blk _ _ => some blk
  | .marker .. => none

/-- Nothing is under way for the frames of the old leaves: no access in flight, no request awaiting a reissue, no
message. -/
def State.framesQuiet (s : State) (j : Quiesce) : Bool :=
  let fs := j.wholeFrames
  !(s.ops.any fun o => o.parts.any fun p => (p.inFlight || p.lostReq) &&
      (inFrames fs p.at_ || o.isCopy || o.isMatrix || o.isSampler))
    && s.msgs.all fun m => match m.body.block with | some b => !inFrames fs b | none => true

/-- Every hamper of a block combined in ascending holder index, and every share returned. -/
def State.combineHolders (s : State) (hb : HomeBlk) : State :=
  let s := (sortBy holderBefore hb.holders).foldl (fun (s : State) x =>
    match s.hamper? x.core hb.blk with
    | some h => (s.combineAll hb.region hb.blk h.sums).dropHamper x.core hb.blk
    | none => s) s
  { s with homes := s.homes.filter fun (x : HomeBlk) => x.blk != hb.blk }

/-- A change's leaf names the frame of the page itself: the owner's of a read-duplicate page, the home of another. -/
def LeafChange.owns (l : LeafChange) (e : W64) : Bool := leafState e != 2 || (leafLocal e && leafDevice e == l.dev)

/-- Where the bytes at an address come from: the frame that the old leaves give them; where no old leaf maps them, the
frame itself that the new ones name (08 R242). -/
def Quiesce.source (j : Quiesce) (va : Nat) : Option Nat :=
  let here (ls : List LeafChange) : List LeafChange := ls.filter fun l => l.page.toNat ≤ va && va < l.page.toNat + l.bytes
  let os := here j.olds
  match os.find? fun l => l.owns l.old, os.head? with
  | some l, _ => some (l.frame l.old + (va - l.page.toNat))
  | none, some l => some (l.frame l.old + (va - l.page.toNat))
  | none, none => ((here j.news).find? fun l => l.owns l.new).map fun l => l.frame l.new + (va - l.page.toNat)

/-- Data, tags and marks of a frame copied to another, as they stand in `s0`.  The model's own choice (log 134): blocks of
a lost pseudo-channel (15 R408) go over with their bytes, as data without a mark. -/
def copyFrame (s0 s : State) (src dst n : Nat) : State :=
  let move (m : Mem) (a b k : Nat) : Mem := Store.overlay (Store.clear m b (b + k)) b (Store.slice s0.mem a (a + k))
  let marks (l0 l : List Nat) : List Nat :=
    l.filter (fun b => !(dst ≤ b && b < dst + n)) ++ (l0.filter fun b => src ≤ b && b < src + n).map fun b => b - src + dst
  { s with
    mem := move (move s.mem src dst n) (tagKey src) (tagKey dst) (n / 32)
    poison := marks s0.poison s.poison
    tagPoison := marks s0.tagPoison s.tagPoison }

/-- What the caches hold of a frame's earlier contents is given up. -/
def State.forgetFrame (s : State) (lo n : Nat) : State :=
  let out (k : Nat) : Bool := !(lo ≤ k && k < lo + n)
  { s with
    l1 := s.l1.filter fun (l : L1Line) => out l.blk
    dir := s.dir.filter fun (d : DirLine) => out d.blk
    scache := s.scache.filter fun (c : Nat × Nat × List Byte) => out c.2.1 }

/-- Step 5: every new frame filled; no L1 or sampler cache keeps what the frame held before (08 R241, R242). -/
def State.fillFrames (s0 : State) (j : Quiesce) : State :=
  (j.news.filter fun l => l.new != l.old).foldl (fun (s : State) l =>
    (List.range (l.bytes / 65536)).foldl (fun (s : State) i =>
      let dst := l.frame l.new + i * 65536
      match j.source (l.page.toNat + i * 65536) with
      | some src => if src == dst then s else copyFrame s0 (s.forgetFrame dst 65536) src dst 65536
      | none => s) s) s0

/-- Frames that no new leaf of the point names: frame, size, page. -/
def Quiesce.unused (j : Quiesce) : List (Nat × Nat × W64) :=
  let news := j.news.map fun l => (l.frame l.new, l.frame l.new + l.bytes)
  ((j.olds.map fun l => (l.frame l.old, l.size, l.page)).filter fun f =>
    !news.any fun n => rangesOverlap n.1 n.2 f.1 (f.1 + pageBytes f.2.1)).eraseDups

def State.setQuiesce (s : State) (j : Quiesce) : State :=
  { s with quiesces := s.quiesces.map fun (x : Quiesce) => if x.id == j.id then j else x }

/-- The addresses of a point: of its pages, and of all that its leaves map. -/
def Quiesce.spans (j : Quiesce) : List (Nat × Nat) :=
  j.pages.map (fun p => (p.1, p.1 + pageBytes p.2)) ++ j.leaves.map fun l =>
    let a := l.page.toNat / pageBytes l.level * pageBytes l.level
    (a, a + pageBytes l.level)

/-- Cached translations of a point's addresses go. -/
def State.dropPages (s : State) (j : Quiesce) : State :=
  j.spans.foldl (fun (s : State) p => s.dropTlb p.1 p.2) s

/-- QUIESCE_POINT: the next step of 08 Table 8.10.  Step 4 ends three link timeouts after every request to the old frames
has been answered (log 95). -/
def execQuiescePoint (job : Nat) (s : State) : Out :=
  needSome (s.quiesces.find? fun j => j.id == job) fun j =>
    let goTo (s : State) (n : Nat) : Out := .next (s.setQuiesce { j with stage := n })
    match j.stage with
    | 0 =>
      let ls := quiesceLeaves s j
      need (!s.entryTaken j ls) <|
      let s := ls.foldl (fun (s : State) l =>
        if leafLive l.old then s.putWord l.key (setFld l.old 11 9 5) else s) s
      let j := { j with leaves := ls, stage := 1 }
      .next ((s.dropPages j).setQuiesce j)
    | 1 => need (s.framesQuiet j) (goTo s 2)
    | 2 =>
      let t := j.oldFrames.foldl (fun (s : State) f => s.dropFrame f.1 f.2) s
      goTo ((s.homes.filter fun h => inFrames j.oldFrames h.blk).foldl State.combineHolders t) 3
    | 3 => need (s.framesQuiet j) (.next (s.setQuiesce { j with stage := 4, since := s.ctl.ptc }))
    | 4 => need (s.framesQuiet j && j.since + 3 * Nat.max s.linkTimeout (pkgTimeout s.ctl.lnkto) ≤ s.ctl.ptc) (goTo (s.fillFrames j) 5)
    | _ =>
      let s := j.leaves.foldl (fun (s : State) l => s.putWord l.key l.new) s
      let s := s.dropPages j
      let s := j.spans.foldl (fun (s : State) p => s.wakePages p.1 p.2) s
      let s := j.unused.foldl (fun (s : State) f => s.svcLog 1 f.2.1 (BitVec.ofNat 64 f.1) f.2.2) s
      .next { s with quiesces := s.quiesces.filter fun (x : Quiesce) => x.id != job }

/-- Pages of the device that are quiesced (08 Table 8.12, XLSTAT). -/
def State.quiesced (s : State) : Nat :=
  s.quiesces.foldl (fun (n : Nat) (j : Quiesce) =>
    if j.stage == 0 then n
    else n + ((j.olds.filter fun l => l.dev == s.device).map fun l => l.key).eraseDups.length) s.locks.length

end Sys2Proof.Machine
end

