-- ==== Sys2Proof/Machine/Links.lean ====
section
/-!
DEFINITION. Links (07 R207, 15 R414-R419): timeouts and reissues, flits, and the states and keys of the scale-out ports.
-/

namespace Sys2Proof.Machine

/-! ## Ports -/

def State.port (s : State) (p : Nat) : Port := s.ports.getD p Port.reset
def State.setPort (s : State) (p : Nat) (x : Port) : State := { s with ports := s.ports.set p x }

def Port.state (x : Port) : Nat := fld x.stat 57 56
def Port.peer (x : Port) : Nat := fld x.stat 63 58
def Port.enabled (x : Port) : Bool := x.ctl.getLsbD 0
def Port.setState (x : Port) (n : Nat) : Port := { x with stat := setFld x.stat 57 56 n }

/-- A port's move to a state in which it carries nothing: its keys and any rekey are given up (15 R417). -/
def Port.leave (x : Port) (n : Nat) : Port :=
  { x.setState n with
    outKey := none, newKey := none, inKey := none, oldKey := none, marks := [], marking := false, resends := 0
    ctl := setFld x.ctl 1 1 0 }

/-- The flits on a port that leaves state 2 are discarded, with what they carried (15 R417). -/
def State.discard (s : State) (p : Nat) : State :=
  let gone (x : Option Sent) : Bool := match x with | some x => x.path == p | none => false
  let loseFetch (q : FetchReq) : FetchReq := if q.sent.path == p && !q.sent.arrived then { q with lost := true } else q
  let loseAsk (q : CtlReq) : CtlReq := if q.sent.path == p then { q with lost := true } else q
  let losePart (q : Part) : Part := if gone q.sent && (q.st != .done && q.st != .faulted) then q.lose else q
  let loseMsg (m : Msg) : Msg := if gone m.sent then { m with lost := true } else m
  { s with
    ops := s.ops.map fun (o : Op) => { o with parts := o.parts.map losePart }
    msgs := s.msgs.map loseMsg
    groups := s.groups.map fun (g : Group) => { g with fetch := g.fetch.map loseFetch }
    ctl := { s.ctl with asks := s.ctl.asks.map loseAsk } }

/-- A port put in another state, the flits of one that leaves state 2 discarded. -/
def State.movePort (s : State) (p : Nat) (x : Port) : State :=
  (if (s.port p).state == 2 && x.state != 2 then s.discard p else s).setPort p x

/-- LNKCTL.EN written 1: training starts where a peer has been detected (15 R417). -/
def Port.enable (x : Port) : Port :=
  if x.enabled then x
  else
    let x := { x with ctl := setFld x.ctl 0 0 1, fails := 0 }
    if x.seen && x.state == 0 then x.setState 1 else x

/-- LNKCTL.EN written 0. -/
def Port.disable (x : Port) : Port := { x.leave 0 with ctl := 0, fails := 0, auths := [] }

/-- PORT_ENABLE. -/
def execPortEnable (p : Nat) (s : State) : Out :=
  need (p < 16) (.next (if s.ctl.up then s.setPort p (s.port p).enable else s))

/-- PORT_DISABLE. -/
def execPortDisable (p : Nat) (s : State) : Out :=
  need (p < 16) (.next (if s.ctl.up then s.movePort p (s.port p).disable else s))

/-- PEER_DETECT: the physical layer of an enabled port finds a peer; the peer's device joins those whose tables a
quiesce or collapse changes. -/
def execPeerDetect (p : Nat) (peer : BitVec 6) (s : State) : Out :=
  let x := s.port p
  need (p < 16 && x.enabled && x.state == 0) <|
    let x := { x with stat := setFld (setFld x.stat 63 58 peer.toNat) 57 56 1, seen := true }
    let known := peer.toNat == s.device || s.peers.any fun d => d.device == peer
    let peers := if known then s.peers else s.peers ++ [⟨peer, XlRegs.reset, []⟩]
    .next ({ s with peers := peers }.setPort p x)

/-- TRAINING_COMPLETE: with keys in both directions the port is keyed. -/
def execTrainingComplete (p : Nat) (s : State) : Out :=
  let x := s.port p
  need (p < 16 && x.state == 1 && x.outKey.isSome && x.inKey.isSome) <|
    .next (s.setPort p { x.setState 2 with fails := 0, sent := 0, keyAt := s.ctl.ptc, auths := [] })

/-- TRAINING_FAIL: the third failure in a row, or a failed certificate or key, puts the port in error. -/
def execTrainingFail (p : Nat) (badKey : Bool) (s : State) : Out :=
  let x := s.port p
  need (p < 16 && x.state == 1) <|
    .next (s.setPort p (if badKey || 2 ≤ x.fails then x.leave 3 else { x with fails := x.fails + 1 }))

/-- LOSS_OF_LOCK: the port retrains. -/
def execLossOfLock (p : Nat) (s : State) : Out :=
  let x := s.port p
  need (p < 16 && x.state == 2) (.next (s.movePort p { x.leave 1 with fails := 0 }))

/-! ## Keys (15 R418, R419) -/

/-- A key and its salt. -/
def LinkKey.of (v : BitVec 288) : LinkKey := ⟨v.extractLsb' 32 256, v.extractLsb' 0 32⟩

/-- A fresh key and salt. -/
def State.freshKey (s : State) : LinkKey × State :=
  (LinkKey.of (Config.linkKey s.freeCount), { s with freeCount := s.freeCount + 1 })

/-- The nonce of the next flit: the salt, then the count of flits sent under the key. -/
def Port.nonce (x : Port) : Option (BitVec 96) := x.outKey.map fun k => k.salt ++ BitVec.ofNat 64 x.sent

/-- The port holds the key that a flit of an epoch names (15 R419 step 4). -/
def Port.opens (x : Port) (epoch : Bool) : Bool := if epoch == x.inEpoch then x.inKey.isSome else x.oldKey.isSome

/-- A rekey of the sending direction is under way. -/
def Port.rekeying (x : Port) : Bool := x.newKey.isSome || x.marking

/-- The ports that lead to a port's peer: the paths to the receiver. -/
def State.paths (s : State) (p : Nat) : List Nat :=
  ((s.ports.zipIdx).filter fun q => q.1.state == 2 && q.1.peer == (s.port p).peer).map (·.2)

/-- Rekey-complete markers on every path to the receiver (15 R419 step 3): each is a flit. -/
def State.rekeyMarkers (s : State) (p : Nat) : State := (s.paths p).foldl State.countFlit s

/-- A rekey of the sending direction: the new key goes to the receiver, which is to install it (15 R419 step 1). -/
def State.startRekey (s : State) (p : Nat) (byWrite : Bool) : State :=
  let k := s.freshKey
  let x := k.2.port p
  k.2.setPort p { x with newKey := some k.1, ctl := if byWrite then setFld x.ctl 1 1 1 else x.ctl }

/-- The receiver has installed the new key: the epoch flips, and markers follow the last flit of the old one (15 R419
steps 2 and 3). -/
def State.flipEpoch (s : State) (p : Nat) : State :=
  let x := s.port p
  (s.setPort p { x with
    stat := setFld x.stat 55 55 (1 - fld x.stat 55 55), outKey := x.newKey, newKey := none, marking := true, resends := 0
    sent := 0, keyAt := s.ctl.ptc, markAt := s.ctl.ptc }).rekeyMarkers p

/-- KEY_EXCHANGE: on a training port one direction's key is set, and a failed certificate or key puts the port in error.
On a keyed port the receiver, its certificates verified, acknowledges the sender's new key, or the peer's new key is
installed beside its old one; one that fails changes nothing. -/
def execKeyExchange (p : Nat) (sending : Bool) (peer : PeerKey) (s : State) : Out :=
  let x := s.port p
  let bad (err : Bool) : Out := .next (if err then s.setPort p (x.leave 3) else s)
  need (p < 16) <|
    if sending then
      need (x.state == 1 || (x.state == 2 && x.newKey.isSome)) <|
        if !Config.peerCertGood peer.certs then bad (x.state == 1)
        else if x.state == 1 then
          let k := s.freshKey
          .next (k.2.setPort p { x with outKey := some k.1 })
        else .next (s.flipEpoch p)
    else
      need (x.state == 1 || (x.state == 2 && x.oldKey.isNone)) <|
        match Config.transportOpen peer.wrapped with
        | none => bad (x.state == 1)
        | some v =>
          if x.state == 1 then .next (s.setPort p { x with inKey := some (LinkKey.of v) })
          else .next (s.setPort p { x with inKey := some (LinkKey.of v), oldKey := x.inKey, inEpoch := !x.inEpoch, marks := [] })

/-- LNKCTL.rekey written 1. -/
def State.rekeyPort (s : State) (p : Nat) : State :=
  if (s.port p).state == 2 && !(s.port p).rekeying then s.startRekey p true else s

/-- REKEY. -/
def execRekey (p : Nat) (s : State) : Out :=
  need (p < 16) (.next (if s.ctl.up then s.rekeyPort p else s))

/-- REKEY_INTERVAL_EXPIRY: the interval of LNKREKEY, or the count of flits sent under the key. -/
def execRekeyIntervalExpiry (p : Nat) (s : State) : Out :=
  let x := s.port p
  let interval := fld s.ctl.lnkrekey 31 0
  need (p < 16 && x.state == 2 && !x.rekeying
      && ((interval != 0 && x.keyAt + interval * 1000000 ≤ s.ctl.ptc) || x.spent)) <|
    .next (s.startRekey p false)

/-- REKEY_MARKER_RESEND: at each timeout; after three resends without acknowledgement the port is in error. -/
def execRekeyMarkerResend (p : Nat) (s : State) : Out :=
  let x := s.port p
  need (p < 16 && x.state == 2 && x.marking && x.markAt + s.linkTimeout ≤ s.ctl.ptc) <|
    .next (if 3 ≤ x.resends then s.movePort p (x.leave 3)
      else (s.setPort p { x with resends := x.resends + 1, markAt := s.ctl.ptc }).rekeyMarkers p)

/-- REKEY_COMPLETE: the receiver has gathered the markers of every path and acknowledged them. -/
def execRekeyComplete (p : Nat) (s : State) : Out :=
  let x := s.port p
  need (p < 16 && x.state == 2 && x.marking) <|
    .next (s.setPort p { x with marking := false, resends := 0, ctl := setFld x.ctl 1 1 0 })

/-! ## Requests (07 R207, 15 R415) -/

/-- A request as it was sent can still come to its home. -/
def State.canCome (s : State) (x : Sent) : Bool := x.path != 31 && s.reaches (x.home / 2)

/-- A request's timeout has passed since its latest send: the one in effect when it was first sent. -/
def State.late (s : State) (x : Sent) : Bool :=
  x.at_ + (if x.home / 2 == s.device then pkgTimeout x.lnkto else outTimeout x.lnkto) ≤ s.ctl.ptc

/-- A reissue is counted on its port and captured (15 Table 15.10, source 6). -/
def State.reissued (s : State) (gid : Option Nat) (link : Nat) : State :=
  let s := match gid.bind s.group? with | some g => s.captureFor 6 g link | none => s.capture 6 4 none link
  if link < 16 then
    let x := s.port link
    s.setPort link { x with stat := setFld x.stat 47 32 (Nat.min (fld x.stat 47 32 + 1) 0xFFFF) }
  else s

/-- The access field of a part's record (08 Table 8.13): a copy's read, write and count, a clasp command's update. -/
def Op.linkAcc (o : Op) (i : Nat) : Nat :=
  if o.isCopy then (if i == 0 then 7 else if i == 1 then 8 else 2)
  else match o.instr with
    | .clinit .. | .clexp .. | .clarr .. | .cltest .. | .clinv .. => 2
    | _ => o.acc.code

/-- The link fault of a part, with the level and state of the leaf that translated it (08 R249). -/
def linkFault (s : State) (o : Op) (i : Nat) (p : Part) : FaultRec :=
  let ls := s.leafLS o.core p.sp (p.addr + BitVec.ofNat 64 p.off)
  memFault s.device (o.linkAcc i) (spaceNum p.sp) o.sizeCode 9 1 ls.1 ls.2 o.clause o.word.toNat o.run.toNat p.lane p.addr
    (p.addr + BitVec.ofNat 64 p.off)

/-- A request that is under way, or lost. -/
def Part.awaited (p : Part) : Bool := p.timeouts < 3 && p.st != .done && p.st != .faulted && p.st != .queued

/-- A part's request timed out: it is reissued, and at its third timeout it faults.  A store's part keeps its place and
waits for the delivery of its fault; a prefetch, which never faults, is dropped (06 R190). -/
def partTimeout (s : State) (o : Op) (i : Nat) (p : Part) (x : Sent) : Out :=
  need (p.awaited && s.late x && (p.lostReq || !s.canCome x)) <|
    if p.timeouts == 2 && o.isHint then .next (s.setOp (o.setPart i { p with st := .done, lostReq := false }))
    else if p.timeouts == 2 then
      let st : PartSt := match p.st with | .departed n => .departed n | _ => .faulted
      .next (s.setOp ((o.setPart i { p with timeouts := 3, lostReq := true, st := st }).addFault (linkFault s o i p)))
    else
      let n := s.again x
      .next ((n.2.setOp (o.setPart i { p with timeouts := p.timeouts + 1, lostReq := false, sent := some n.1 })).reissued
        (some o.gid) n.1.path)

/-- The command that waits for a drain: a DRAIN, or the add whose contribution the drain carries. -/
def State.drainOwner (s : State) (b : MsgBody) : Option (Op × Nat × Part) :=
  match b with
  | .drain _ _ _ _ _ _ _ (some id) _ => (s.op? id).bind fun o => o.parts[0]?.map fun p => (o, 0, p)
  | .drain core _ _ _ _ _ _ none (some n) => s.ops.findSome? fun o =>
      if o.core == core && o.isAdd then
        ((o.parts.zipIdx).find? fun q => q.1.asked && q.1.st == .departed n).map fun q => (o, q.2, q.1)
      else none
  | _ => none

/-- A message lost on a link is sent again at its timeout.  The third timeout of a drain is the link fault of the command
that waits for it (07 R207); the drain itself, whose sums are other adds', goes on being sent (log 126). -/
def msgTimeout (s : State) (m : Msg) : Out :=
  needSome m.sent fun x =>
    need (m.lost && s.late x && s.pathUp x) <|
      let n := match m.body with
        | .marker .. => ({ x with at_ := s.ctl.ptc, stamp := s.nextId }, { s.countFlit x.path with nextId := s.nextId + 1 })
        | _ => s.again x
      let t := { n.2 with msgs := n.2.msgs.map fun (y : Msg) =>
        if y.id == m.id then { y with lost := false, timeouts := y.timeouts + 1, sent := some n.1 } else y }
      match s.drainOwner m.body with
      | some (o, i, p) =>
        if m.timeouts == 2 then .next (t.setOp ((o.setPart i { p with timeouts := 3 }).addFault (linkFault s o i p)))
        else .next (t.reissued (some o.gid) n.1.path)
      | none => .next (t.reissued none n.1.path)

/-- A clause fetch that timed out is sent again; its third timeout is the clause's link fault (15 R414, R417, R428). -/
def fetchTimeout (s : State) (g : Group) (f : FetchReq) : Out :=
  need (!f.sent.arrived && s.late f.sent && (f.lost || !s.canCome f.sent)) <|
    if f.timeouts == 2 then
      needSome g.issueAddr fun a =>
      needSome (s.team? g.team) fun t =>
      need (g.st == .ready && g.run.isNone && !s.samplerBusy g.gid) <|
        let ls := s.leafLS t.core .g (a.setWidth 64)
        (s.setGroup { g with fetch := none }).park g.gid (fetchFault s.device 9 1 ls.1 ls.2 a g.activeLanes (a.setWidth 64)) 0 0 a none
    else
      let n := s.again f.sent
      .next ((n.2.setGroup { g with fetch := some { f with sent := n.1, timeouts := f.timeouts + 1, lost := false } }).reissued
        (some g.gid) n.1.path)

/-- A request of the control die that a link lost is sent again; at its third timeout what asked for it faults; and once it
is no longer lost it has its answer (15 R415). -/
def askTimeout (s : State) (r : CtlReq) : Out :=
  let put (s : State) (l : CtlReq → List CtlReq) : State :=
    s.setCtl { s.ctl with asks := s.ctl.asks.flatMap fun q => if q.sent.stamp == r.sent.stamp then l q else [q] }
  need (s.late r.sent) <|
    if 3 ≤ r.timeouts || !r.lost then .next (put s fun _ => [])
    else if r.timeouts == 2 then .next (put s fun q => [{ q with timeouts := 3, sent := { q.sent with at_ := s.ctl.ptc } }])
    else
      let n := s.again r.sent
      .next ((put n.2 fun q => [{ q with sent := n.1, timeouts := q.timeouts + 1, lost := false }]).reissued none n.1.path)

/-- REQUEST_TIMEOUT: of a part of a command, of a message, of a group's clause fetch, or of a request of the control die,
which its send names. -/
def execRequestTimeout (op part : Nat) (s : State) : Out :=
  match s.op? op with
  | some o => needSome o.parts[part]? fun p => needSome p.sent fun x => partTimeout s o part p x
  | none =>
    match s.msg? op with
    | some m => msgTimeout s m
    | none =>
      match s.group? op with
      | some g => needSome g.fetch (fetchTimeout s g)
      | none => needSome (s.ctl.asks.find? fun r => r.sent.stamp == op) (askTimeout s)

/-! ## Flits -/

/-- A part is performed at its home, whatever its command. -/
def performPart (s : State) (o : Op) (i : Nat) (p : Part) (lose : Bool) : Out :=
  if o.isAtomic then atomPart s o i p lose
  else
    match homePart s o i p lose with
    | .next t => .next t
    | .refused r => if lose then .refused r else execToleranceRead o.id i s
    | r => r

/-- A request is lost on its way (15 R414). -/
def losePart (s : State) (o : Op) (i : Nat) (p : Part) : Out :=
  need (p.awaited && !p.lostReq) (.next (s.setOp (o.setPart i p.lose)))

/-- A message reaches its receiver, by its own step. -/
def deliver (m : Msg) (s : State) : Out :=
  match m.body with
  | .recallLine .. | .recallHamper .. => execRecall m.id s
  | .shareReq .. => execShareRequest m.id s
  | .split .. | .splitAck .. => execSplitRequest m.id s
  | .grant .. => execShareGrant m.id s
  | .drain .. => execDrainCombine m.id s
  | .drainAck .. => execDrainAck m.id s
  | .marker .. => execFlushMarkerGather m.id s

/-- The core that sends a message or is to receive it. -/
def State.coreOf (s : State) (m : MsgBody) : Option Nat :=
  match m with
  | .recallLine core .. | .recallHamper core .. | .shareReq core .. | .split core .. | .splitAck core .. | .grant core ..
  | .drain core .. | .drainAck core .. => some core
  | .marker op _ => (s.op? op).map fun o => o.core

/-- The home that a message comes from or goes to. -/
def State.homeOfMsg (s : State) (m : MsgBody) : Option Nat :=
  match m with
  | .marker _ d => some d
  | m => m.block.map fun b => destOf s b

/-- A link carries what travels between a core and a home by a path: the path itself, or the link of the core's die to the
control die on the way to a scale-out port (15 Table 15.6); links 17 and 18 are those of dies 0 and 1. -/
def State.carried (s : State) (link core home : Nat) : Bool :=
  if home / 2 == s.device then link == 16 && home % 2 != dieOfCore core
  else link == 17 + dieOfCore core || (link < 16 && (s.port link).carries (home / 2))

/-- A port counts a flit that failed authentication; more than 1,024 in 1 ms put it in error (15 R416, R417). -/
def State.authFail (s : State) (p : Nat) : State :=
  if 16 ≤ p then s
  else
    let x := s.port p
    let now := s.ctl.ptc
    let x : Port := { x with
      stat := setFld x.stat 31 0 ((fld x.stat 31 0 + 1) % 2 ^ 32)
      auths := x.auths.filter (fun t => now < t + 1000000) ++ [now] }
    s.movePort p (if 1024 < x.auths.length then x.leave 3 else x)

/-- A peer's rekey-complete marker arrives on a path; its old key goes once they have arrived on every path (15 R419). -/
def State.markerOn (s : State) (p path : Nat) : State :=
  let x := s.port p
  let marks := if x.marks.contains path then x.marks else x.marks ++ [path]
  s.setPort p (if (s.paths p).all marks.contains then { x with oldKey := none, marks := [] } else { x with marks := marks })

/-- A clause fetch arrives, and its answer comes, or it is lost. -/
def fetchFlit (s : State) (g : Group) (f : FetchReq) (ok : Bool) : Out :=
  need (!f.sent.arrived && !f.lost) <|
    if ok then need (s.arrives f.sent) (.next (s.setGroup { g with fetch := some f.answered }))
    else .next (s.setGroup { g with fetch := some { f with lost := true } })

/-- A request of the control die to a home crosses a link, which a port counts, or is lost there (15 R414, R418). -/
def controlFlit (s : State) (port home : Nat) (ok : Bool) : State :=
  let mine (q : CtlReq) : Bool := q.sent.home == home
  if ok then
    let t := if s.ctl.asks.any mine then s else s.countFlit port
    t.setCtl { t.ctl with asks := t.ctl.asks.filter fun q => !mine q }
  else if s.ctl.asks.any mine then
    s.setCtl { s.ctl with asks := s.ctl.asks.map fun q => if mine q then { q with lost := true } else q }
  else
    let n := s.number ctlUnit home
    n.2.setCtl { n.2.ctl with asks := n.2.ctl.asks ++ [⟨n.1, 0, true⟩] }

/-- FLIT_RECEIVE: a request or a message arrives or is lost; an answer comes back or is lost, after the home has applied the
request; a clause fetch, or a request of the control die, crosses or is lost; a peer's rekey marker arrives.  A flit that a port receives under a key it no longer holds is lost (15 R419). -/
def execFlitReceive (port : Nat) (ok : Bool) (body : FlitBody) (s : State) : Out :=
  need (port ≤ 18 && (16 ≤ port || (s.port port).state == 2)) <|
    let on (op part : Nat) (f : Op → Part → Sent → Out) : Out :=
      needSome (s.op? op) fun o => needSome o.parts[part]? fun p => needSome p.sent fun x =>
        need (s.carried port o.core x.home) (f o p x)
    match body with
    | .request op part =>
      on op part fun o p x =>
        need (x.path == port || 17 ≤ port) (if ok then performPart s o part p false else losePart s o part p)
    | .answer op part epoch =>
      on op part fun o p x =>
        need x.arrived <|
        if ok && (16 ≤ port || (s.port port).opens epoch) then performPart s o part p false
        else
          let r : Out := match performPart s o part p true with
            | .next t => .next t
            | _ => losePart s o part p
          andThen r fun t => .next (t.authFail port)
    | .message msg =>
      needSome (s.msg? msg) fun m =>
      needSome (s.coreOf m.body) fun core =>
      needSome (s.homeOfMsg m.body) fun home =>
        need (s.carried port core home && !m.lost) <|
          if ok then deliver m s
          else
            -- one that has no number of its own is timed from here
            let x := m.sent.getD ⟨home, 0, port, s.ctl.ptc, s.ctl.lnkto, s.nextId, false, []⟩
            .next { s with msgs := s.msgs.map fun (y : Msg) => if y.id == msg then { y with lost := true, sent := some x } else y }
    | .fetch gid =>
      needSome (s.group? gid) fun g => needSome g.fetch fun f => needSome (s.team? g.team) fun t =>
        need (s.carried port t.core f.sent.home && (f.sent.path == port || 17 ≤ port)) (fetchFlit s g f ok)
    | .control home =>
      need ((17 ≤ port && home / 2 == s.device) || (port < 16 && (s.port port).carries (home / 2))) <|
        .next (controlFlit s port home ok)
    | .marker p epoch =>
      need (port < 16 && p < 16 && (s.paths p).contains port && (s.port p).oldKey.isSome) <|
        .next (if ok && (s.port port).opens epoch then s.markerOn p port else s.authFail port)

end Sys2Proof.Machine
end

