-- ==== Sys2Proof/Machine/Resets.lean ====
section
/-!
DEFINITION. Power-on (15 R428), compute-die resets (15 R405-R407), errors (15 R426), the throttle and the monitors' own
events (01 R13, 15 R426, R427).
-/

namespace Sys2Proof.Machine

/-! ## What a reset takes -/

/-- Every queue halts (15 Table 15.5 step 1, Table 15.9). -/
def State.haltAll (s : State) (cause detail : Nat) : State :=
  (List.range 64).foldl (fun (s : State) q => s.haltQueue q cause detail 0 (s.queue q).head) s

/-- Every grid and graph of the device is killed, with cause 16 and the die (15 Table 15.5 step 7). -/
def State.killAll (s : State) (die : Nat) : State :=
  let s := { s with graphs := s.graphs.map fun (h : Graph) =>
    if h.killed.isNone then { h with killed := some (16, BitVec.ofNat 8 die) } else h }
  { s with recs := [] }.killGrids (s.grids.map fun (g : Grid) => g.id) 16 (BitVec.ofNat 8 die)

/-- The die that the home of a block of this device lies on. -/
def dieOfBlk (s : State) (blk : Nat) : Nat := (homeOf s blk).2

/-- A core's sums for a block go home (15 Table 15.5 step 3). -/
def State.bringHome (s : State) (region : Region) (blk : Nat) (x : Sums) (poisoned : Bool) : State :=
  let s := s.combineAll region blk x
  if poisoned then s.mark blk else s

/-- A drain on its way, or a hamper, is lost in a fatal reset of the die. -/
def State.lostWith (s : State) (die core blk : Nat) : Bool := dieOfCore core == die || dieOfBlk s blk == die

/-- The core of a line that has replied. -/
def HomeBlk.coreOf (hb : HomeBlk) (line : Nat) : Nat :=
  match hb.holders.find? fun h => h.line == line with
  | some h => h.core
  | none => 0

/-- Step 3: hampers and drains come home, or are lost in a fatal reset; every share is returned. -/
def State.resetHampers (s : State) (die : Nat) (fatal : Bool) : State × List (BitVec 12) :=
  let lost (core blk : Nat) : Bool := fatal && s.lostWith die core blk
  let drains := s.msgs.filterMap fun m => match m.body with
    | .drain core blk r _ x _ poisoned _ _ => some (core, blk, r, x, poisoned)
    | _ => none
  let t := drains.foldl (fun (t : State) d =>
    if lost d.1 d.2.1 then t else t.bringHome d.2.2.1 d.2.1 d.2.2.2.1 d.2.2.2.2) s
  let t := s.hampers.foldl (fun (t : State) h =>
    if lost h.core h.blk then t else t.bringHome h.region h.blk h.sums false) t
  let gone := (drains.filter fun d => lost d.1 d.2.1).map (fun d => d.2.2.1.n)
    ++ (s.hampers.filter fun h => lost h.core h.blk).map (fun h => h.region.n)
    ++ (s.homes.flatMap fun hb => (hb.holders.filter fun h => lost h.core hb.blk).map fun _ => hb.region.n)
    ++ (s.homes.flatMap fun hb => (hb.replies.filter fun q => lost (hb.coreOf q.line) hb.blk).map fun _ => hb.region.n)
  let t := s.homes.foldl (fun (t : State) hb =>
    hb.replies.foldl (fun (t : State) q =>
      if lost (hb.coreOf q.line) hb.blk then t else t.bringHome hb.region hb.blk q.sums false) t) t
  ({ t with hampers := [], homes := [], msgs := [] }, gone.eraseDups)

/-- Step 4: dirty words go home; in a fatal reset, lines owned by an L1 of the die are poisoned and logged. -/
def State.resetLines (s : State) (die : Nat) (fatal : Bool) : State :=
  let owned := s.dir.filterMap fun d => d.owner.map fun c => (d.blk, c)
  let s := owned.foldl (fun (s : State) q =>
    if fatal && dieOfCore q.2 == die then (s.mark q.1).svcLog 2 3 (BitVec.ofNat 64 q.1) 0
    else match s.line? q.2 q.1 with | some ln => s.writeBack ln | none => s) s
  { s with l1 := [], dir := [] }

/-- Step 5 in a fatal reset: a slice that has not finished within 1 ms, a free choice, loses its pseudo-channel. -/
def State.loseSlices (s : State) (die : Nat) : State :=
  (List.range 4).foldl (fun (s : State) i =>
    let f := s.free
    let k := 4 * die + i
    let old := f.2.ctl.lostmap.getD k 0
    let s := f.2.setCtl { f.2.ctl with lostmap := f.2.ctl.lostmap.set k (old ||| f.1) }
    ((List.range 64).filter fun b => f.1.getLsbD b && !old.getLsbD b).foldl (fun (s : State) b =>
      s.svcLog 6 die 0 (BitVec.ofNat 64 (64 * k + b))) s) s

/-- Step 6: what the die holds is gone; its chip scratchpad reads as zero (01 R9). -/
def State.clearDie (s : State) (die : Nat) : State :=
  let cut (lo hi : Nat) (s : State) : State :=
    { s with mem := Store.clear s.mem lo hi, poison := s.poison.filter fun b => !(lo ≤ b && b < hi) }
  let s := cut (chipKey (33554432 * die)) (chipKey (33554432 * (die + 1))) s
  let s := cut (spadKey (288 * die) 0) (spadKey (288 * (die + 1)) 0) s
  let s := cut (laneKey (288 * die) 0) (laneKey (288 * (die + 1)) 0) s
  { s with tlb := s.tlb.filter fun (t : TlbEntry) => dieOfCore t.core != die
           dtlb := s.dtlb.filter fun (t : TlbEntry) => t.core != die
           walks := (s.walks.map fun w => w.filter fun m => dieOfCore m.core != die).filter fun w => !w.isEmpty
           missq := s.missq.filter fun m => dieOfCore m.core != die
           filters := s.filters.filter fun (f : Filter) => dieOfCore (f.requester / 4) != die && f.home != s.device * 2 + die
           scache := s.scache.filter fun c => c.1 / 36 != die }

/-- Steps 2 to 7 of 15 Table 15.5, with the regions that lost something. -/
def State.resetDie (s : State) (die : Nat) (fatal : Bool) : State × List (BitVec 12) :=
  let s := { s with ops := [] }
  let h := s.resetHampers die fatal
  let s := h.1.resetLines die fatal
  let s := if fatal then s.loseSlices die else s
  ((s.clearDie die).killAll die, h.2)

/-! ## Resets -/

/-- DEVSTAT's die bits. -/
def Ctl.setDie (c : Ctl) (die : Nat) (b : Bool) : Ctl := if die == 0 then { c with die0 := b } else { c with die1 := b }

/-- An orderly reset is requested (15 R405); while the bit reads 1 a write is ignored. -/
def State.requestReset (s : State) (die : Nat) : State :=
  if s.ctl.rstctl.getLsbD die then s
  else
    let s := s.haltAll 16 die
    let s := s.setCtl { s.ctl.setDie die true with rstctl := s.ctl.rstctl ||| (1#2 <<< die) }
    { s with resets := s.resets ++ [⟨die, false, 0, s.ctl.ptc, [], false⟩] }

/-- ORDERLY_RESET. -/
def execOrderlyReset (die : Nat) (s : State) : Out := need (die < 2) (.next (s.requestReset die))

/-- The regions that resets of a die still in progress have affected. -/
def State.lostSoFar (s : State) (die : Nat) : List (BitVec 12) :=
  (s.resets.filter fun (x : DieReset) => x.die == die).flatMap DieReset.lost

/-- A fatal reset begins (15 R405).  One that meets another of its die begins anew, with the regions that the other
affected (15 R407; log 130). -/
def State.fatalReset (s : State) (die : Nat) (cause : BitVec 8) : State :=
  let s := s.haltAll 16 die
  let s := s.setCtl (s.ctl.setDie die true)
  { s with resets := s.resets.filter (fun (x : DieReset) => x.die != die)
      ++ [⟨die, true, cause, s.ctl.ptc, s.lostSoFar die, false⟩] }

/-- The region loss table's entry of a region: counted up, and marked (15 R407). -/
def State.countLoss (s : State) (n : BitVec 12) : State :=
  let key := mkDpa s.device (fld s.ctl.regloss 38 38) (fld s.ctl.regloss 37 15 * 32768 + 8 * n.toNat)
  let v := s.look key 8 % 2 ^ 63
  (s.purge (blockOf key)).putLe key 8 (2 ^ 63 + Nat.min (v + 1) (2 ^ 63 - 1))

/-- A group is in the middle of a clause. -/
def Group.midClause (g : Group) : Bool :=
  g.st == .ready && (match g.run with | some r => !r.held | none => false)

/-- A store that has left its queue is still to reach its home; the commands of a die that a fatal reset takes are
dropped. -/
def State.storesFlying (s : State) (r : DieReset) : Bool :=
  s.ops.any fun o => o.isStore && !(r.fatal && dieOfCore o.core == r.die) && o.parts.any fun p =>
    (match p.st with | .departed _ => true | _ => false) && p.timeouts < 3 && s.pathTo o.core (dataKey p.key)

/-- Every grid and graph that was killed has retired: its status word is written and its clasp has its arrival. -/
def State.killsRetired (s : State) : Bool :=
  s.grids.all (fun (g : Grid) => g.killed.isNone) && s.graphs.all fun (h : Graph) => h.killed.isNone

/-- The last step of a reset. -/
def State.resetDone (s : State) (r : DieReset) : State :=
  let t := if r.fatal then s.svcLog 4 (128 + r.die) 0 (r.cause.setWidth 64) else s.svcLog 4 r.die 0 0
  let t := r.lost.foldl (fun (t : State) n => (t.countLoss n).svcLog 5 r.die 0 (n.setWidth 64)) t
  let t := { t with resets := t.resets.filter fun (x : DieReset) => x.die != r.die }
  (t.setCtl { t.ctl.setDie r.die false with rstctl := t.ctl.rstctl &&& ~~~(1#2 <<< r.die) }).msi 65

/-- RESET_COMPLETE (15 Table 15.5): steps 2 to 7 once the groups stand between clauses; then step 8, when the killed grids have retired and not before three scale-out timeouts and 1 µs. -/
def execResetComplete (die : Nat) (s : State) : Out :=
  needSome (s.resets.find? fun r => r.die == die) fun r =>
    if !r.cleared then
      need (!(s.groups.any Group.midClause || s.storesFlying r)) <|
        let t := s.resetDie die r.fatal
        .next { t.1 with resets := t.1.resets.map fun (x : DieReset) =>
          if x.die == die then { x with lost := (x.lost ++ t.2).eraseDups, cleared := true } else x }
    else
      need (r.start + 3 * s.linkTimeout + 1000 ≤ s.ctl.ptc && s.killsRetired) (.next (s.resetDone r))

/-! ## Errors (15 R426) -/

/-- A group's register read as zero (15 Table 15.9, unit 4). -/
def Group.zeroReg (g : Group) (r : RegSite) : Group :=
  match r with
  | .window n w l => { g with win := Store.write g.win (winKey n w.toNat l.toNat) 0 }
  | .queue a l => { g with queue := g.queue.modify a.toNat fun row => Store.write row l.toNat 0 }
  | .scalar n => { g with scal := Store.write g.scal n.toNat 0 }
  | .mask k => { g with masks := Store.write g.masks k.toNat 0 }
  | .lpc l => { g with lpc := Store.write g.lpc l.toNat 0 }
  | .prec l => { g with prec := Store.write g.prec l.toNat 0 }
  | .fpst l => { g with fpst := Store.write g.fpst l.toNat 0 }

/-- A group's register error parks it, between clauses, with a memory fault of kind 6, detail 4 (03 R72). -/
def registerError (s : State) (gid : Nat) (r : RegSite) : Out :=
  needSome (s.group? gid) fun g =>
    need (g.st != .parked && g.st != .exited && g.between && !s.samplerBusy gid) <|
      let f (clause : BitVec 48) (word run : Nat) : FaultRec :=
        { memFault s.device 0 0 0 6 4 0 0 clause word run 0 0 0 with lanes := 0, service := none }
      let s := s.setGroup (g.zeroReg r)
      match g.run with
      | some x => s.park gid (f x.addr x.idx x.runNo) x.idx x.runNo x.addr none
      | none => s.park gid (f g.current 0 0) 0 0 g.current none

/-- UNCORRECTABLE_ERROR, by the storage it lies in. -/
def execUncorrectableError (site : ErrSite) (s : State) : Out :=
  match site with
  | .memBlock key store =>
    let s := s.mark key
    .next (if store = 0 then s else s.svcLog 2 store.toNat (BitVec.ofNat 64 (blockOf key)) 0)
  | .hamper core blk =>
    needSome (s.hamper? core blk) fun h =>
      .next ((s.dropHamper core blk).send (.drain core blk h.region h.line h.sums true true none none))
  | .tile team quad t =>
    needSome (s.team? team) fun tm =>
      need (quad < 4 && t < 32) (.next (s.setTeam { tm with tilePoison := tm.tilePoison ++ [tileId quad t] }))
  | .accUnit team u =>
    needSome (s.team? team) fun tm => need (u < tm.accUnits) (.next (s.setTeam { tm with accPoison := tm.accPoison ++ [u] }))
  | .param team =>
    needSome (s.team? team) fun tm => .next (s.setTeam { tm with paramPoison := List.range 32 })
  | .groupReg gid r => registerError s gid r
  | .dieState die cause => need (die < 2 && 1 ≤ cause.toNat && cause.toNat ≤ 4) (.next (s.fatalReset die cause))
  | .controlSram =>
    let s := s.haltAll 17 0
    .next (s.setCtl { s.ctl with halted := true })

/-- CORRECTABLE_ERROR: counted, and logged at 256. -/
def execCorrectableError (unit : BitVec 8) (dpa : Nat) (s : State) : Out :=
  need (1 ≤ unit.toNat && unit.toNat ≤ 6) <|
    let n := s.ctl.corrected.getD unit.toNat 0 + 1
    let put (s : State) (n : Nat) : State := s.setCtl { s.ctl with corrected := s.ctl.corrected.set unit.toNat n }
    if n == 256 then .next ((put s 0).svcLog 3 unit.toNat (BitVec.ofNat 64 (blockOf dpa)) 256)
    else .next (put s n)

/-- PATROL_READ: a patrol period ends, and the counts of corrected errors with it. -/
def execPatrolRead (s : State) : Out := .next (s.setCtl { s.ctl with corrected := List.replicate 7 0 })

/-! ## Power and monitors -/

/-- POWER_THROTTLE (01 R13): issue slots are withheld, charged to no class; the mean power is measured. -/
def execPowerThrottle (slots : Nat) (watts : BitVec 16) (s : State) : Out :=
  .next (s.setCtl { s.ctl with withheld := s.ctl.withheld + slots, watts := watts })

/-- CLR written 1 (15 R427). -/
def Monitor.clear (m : Monitor) : Monitor :=
  { m with min := BitVec.allOnes 64, max := 0, cnt := 0, hist := List.replicate 16 0 }

def State.clearMonitor (s : State) (m : Nat) : State :=
  { s with monitors := s.monitors.set m ((s.monitors.getD m Monitor.reset).clear) }

/-- MONITOR_CLEAR. -/
def execMonitorClear (m : Nat) (s : State) : Out := need (m < 16) (.next (if s.ctl.up then s.clearMonitor m else s))

/-- MONITOR_TICK (15 Table 15.10, sources 7 and 8): each microsecond. -/
def execMonitorTick (s : State) : Out :=
  need (s.ctl.tickAt + 1000 ≤ s.ctl.ptc) <|
    let pool := s.graphs.foldl (fun n h => n + s.poolUsed h.id) 0
    let s := s.capture 7 4 none (s.ctl.withheld - s.ctl.withheldAt)
    let s := s.capture 8 4 none (pool / 1024)
    .next (s.setCtl { s.ctl with tickAt := s.ctl.tickAt + 1000, withheldAt := s.ctl.withheld })

/-! ## Power-on -/

/-- What stops the boot at an image, as DEVSTAT.boot gives it (15 R423): the signature, a body that is not the one signed
for among them; the version; a header whose length is not the body's (log 131). -/
def imageCode (x : FwImage) : BitVec 8 :=
  if !(Config.headerSigned x.version x.length x.hash x.signature && Config.sha256 x.body == x.hash) then 1
  else if x.version.toNat < Config.antiRollback.toNat then 2
  else if x.length != x.body.length then 3
  else 0

/-- DEVSTAT.boot as a boot leaves it (15 Table 15.2, R423). -/
def bootCode (b : Boot) : BitVec 8 :=
  match b.images.find? fun x => imageCode x != 0 with
  | some x => imageCode x
  | none => if !b.hbmTrains then 4 else if !b.selfTest then 5 else 0

/-- The hashes of the images verified before one fails (15 R423). -/
def bootMeasures (b : Boot) : List (BitVec 256) := (b.images.takeWhile fun x => imageCode x == 0).map FwImage.hash

/-- The part as bring-up leaves it, HBM zero (15 R428).  The model's own fields stay. -/
def State.bringUp (s : State) (code : BitVec 8) (measures : List (BitVec 256)) : State :=
  let c := { Ctl.reset with measures := measures }
  let c := if code = 0 then { c with up := true, die0 := false, die1 := false } else { c with boot := code }
  { State.reset with
    ctl := c
    agenda := s.agenda
    focus := s.focus
    freeCount := s.freeCount
    nextId := s.nextId }

/-- POWER_ON (15 R428): the control die's boot and, when it is good, bring-up to DEVSTAT.up. -/
def execPowerOn (boot : Boot) (s : State) : Out :=
  need (boot.images.length == 4) (.next (s.bringUp (bootCode boot) (bootMeasures boot)))

end Sys2Proof.Machine
end

