-- ==== Sys2Proof/Machine/Hosts.lean ====
section
/-!
DEFINITION. The host's accesses to memory (15 R409-R411, R408), attestation (15 R423-R425), time (15 R420-R422) and
the registers as the host reads and writes them (15 R402, R403; 14 Tables 14.1-14.3, 14.8; 08 Table 8.12).
-/

namespace Sys2Proof.Machine

/-! ## Memory -/

/-- The key of a byte of the data range. -/
def hostKey (s : State) (h : Nat) : Nat := mkDpa s.device (h / dieBytes) (h % dieBytes)

/-- Blocks of the data range that an access touches, by their first host address. -/
def hostBlocks (addr n : Nat) : List Nat :=
  (List.range ((addr % 64 + n + 63) / 64)).map fun i => addr / 64 * 64 + 64 * i

/-- Nothing is on its way for a block that has holders. -/
def State.blockQuiet (s : State) (blk : Nat) : Bool :=
  s.msgs.all fun m => match m.body.block with | some b => b != blk | none => true

/-- The home's answer to a host request begins with every holder recalled and combined (15 R410). -/
def State.settleBlock (s : State) (blk : Nat) : State :=
  match s.home? blk with
  | some hb => s.combineHolders hb
  | none => s

/-- HOST_DATA_READ (15 R410, R411): as an .nc load; poisoned data is marked. -/
def execHostDataRead (addr n : Nat) (s : State) : Out :=
  let blks := (hostBlocks addr n).map (hostKey s)
  need (s.ctl.up && 1 ≤ n && addr + n ≤ 2 * dieBytes && blks.all s.blockQuiet) <|
    let s := blks.foldl (fun (s : State) b => (s.settleBlock b).recallNow b) s
    let bytes := (List.range n).map fun i => Store.read s.mem (hostKey s (addr + i))
    .next (s.setCtl { s.ctl with hostReads := s.ctl.hostReads ++ [(addr, bytes, blks.any s.poisoned)] })

/-- HOST_DATA_WRITE (15 R410, R411): as .wt stores of the enabled bytes; a whole block's write clears its mark. -/
def execHostDataWrite (addr : Nat) (bytes : List (Option Byte)) (s : State) : Out :=
  let hs := hostBlocks addr bytes.length
  let blks := hs.map (hostKey s)
  need (s.ctl.up && !bytes.isEmpty && addr + bytes.length ≤ 2 * dieBytes && blks.all s.blockQuiet) <|
    let s := blks.foldl (fun (s : State) b => (s.settleBlock b).purge b) s
    let s := (bytes.zipIdx).foldl (fun (s : State) q =>
      match q.1 with
      | some b => s.setMem (Store.write s.mem (hostKey s (addr + q.2)) b)
      | none => s) s
    let whole := hs.filter fun h =>
      addr ≤ h && h + 64 ≤ addr + bytes.length && ((bytes.drop (h - addr)).take 64).all Option.isSome
    .next (whole.foldl (fun (s : State) h => s.unmark (hostKey s h)) s)

/-- The block whose tag a place of the aperture holds (15 R409). -/
def tagBlock (s : State) (addr : Nat) : Nat := hostKey s (32 * (addr - addr % 2))

/-- HOST_TAG_READ: as LDBT. -/
def execHostTagRead (addr : Nat) (s : State) : Out :=
  need (s.ctl.up && addr < 2 * dieBytes / 32) <|
    let blk := tagBlock s addr
    .next (s.setCtl { s.ctl with hostReads := s.ctl.hostReads ++ [(addr, s.bytes (tagKey blk) 2, s.tagPoison.contains blk || s.lost blk)] })

/-- HOST_TAG_WRITE: as STBT. -/
def execHostTagWrite (addr : Nat) (v : BitVec 16) (s : State) : Out :=
  need (s.ctl.up && addr < 2 * dieBytes / 32) <|
    let blk := tagBlock s addr
    .next { s.putLe (tagKey blk) 2 v.toNat with tagPoison := s.tagPoison.filter fun b => b != blk }

/-! ## LOSTMAP -/

/-- A W1C write of LOSTMAPn (15 R408). -/
def State.lostWrite (s : State) (n : Nat) (v : W64) : State :=
  s.setCtl { s.ctl with lostmap := s.ctl.lostmap.set n ((s.ctl.lostmap.getD n 0) &&& ~~~v) }

/-- LOSTMAP_CLEAR. -/
def execLostmapClear (n : Nat) (v : BitVec 64) (s : State) : Out := need (n < 8) (.next (s.lostWrite n v))

/-! ## Attestation (15 R425) -/

def Ctl.reportHead (c : Ctl) (debug : Bool) (nonce : List Byte) : List Byte :=
  leBytes 4 0x41545357 ++ leBytes 2 1 ++ leBytes 2 4 ++ leBytes 8 c.devid.toNat ++ leBytes 8 Config.serial.toNat
    ++ leBytes 8 c.ptc ++ nonce ++ leBytes 8 Config.antiRollback.toNat ++ leBytes 8 (if debug then 1 else 0) ++ leBytes 16 0
    ++ (List.range 4).flatMap fun m => leBytes 32 (c.measures.getD m 0).toNat

/-- The report of 15 Table 15.8. -/
def report (head : List Byte) : List Byte := head ++ (List.range 384).map fun i => Config.signature head i

/-- The certificate chain behind its length. -/
def certChain : List Byte := leBytes 4 Config.certLength.toNat ++ (List.range Config.certLength.toNat).map Config.certByte

/-- Bytes written over a buffer by the control die. -/
def State.writeBuffer (s : State) (key : Nat) (l : List Byte) : State :=
  let s := (List.range ((l.length + 63) / 64)).foldl (fun (s : State) i => s.purge (blockOf (key + 64 * i))) s
  s.putBytes key l

/-- A write to ATTCMD: with GO, a command starts, or is refused with a reason. -/
def State.attWrite (s : State) (v : W64) : State :=
  let old := s.ctl.attcmd
  let err := if v.getLsbD 62 then 0 else fld old 62 62
  let put (go cmd err reason key : Nat) : State :=
    s.setCtl { s.ctl with attcmd := setFld (setFld (setFld (setFld 0 7 0 cmd) 63 63 go) 62 62 err) 61 56 reason, attKey := key }
  let cmd := fld v 7 0
  if !v.getLsbD 63 then put (fld old 63 63) (if old.getLsbD 63 then fld old 7 0 else cmd) err (fld old 61 56) s.ctl.attKey
  else if old.getLsbD 63 then put 1 (fld old 7 0) 1 3 s.ctl.attKey
  else
    let off := fld s.ctl.attbuf 37 6 * 64
    if off % 4096 != 0 || dieBytes ≤ off then put 0 cmd 1 1 s.ctl.attKey
    else if cmd != 1 && cmd != 2 then put 0 cmd 1 2 s.ctl.attKey
    else put 1 cmd err 0 (mkDpa s.device (fld s.ctl.attbuf 38 38) off)

/-- A started attestation command completes with its bytes over the buffer, and GO reads 0. -/
def attestDone (cmd : Nat) (bytes : State → List Byte) (s : State) : Out :=
  need (s.ctl.attcmd.getLsbD 63 && fld s.ctl.attcmd 7 0 == cmd) <|
    let t := s.writeBuffer s.ctl.attKey (bytes s)
    .next (t.setCtl { t.ctl with attcmd := setFld t.ctl.attcmd 63 63 0 })

/-- ATTEST_REPORT: command 1, with the nonce at 0x020 of the buffer. -/
def execAttestReport (s : State) : Out :=
  attestDone 1 (fun s =>
    let k := s.ctl.attKey
    report (s.ctl.reportHead (s.queues.any fun q => q.ctl.getLsbD 8) (((s.recallNow (k + 64)).recallNow k).bytes (k + 32) 32))) s

/-- ATTEST_CERT_CHAIN: command 2. -/
def execAttestCertChain (s : State) : Out := attestDone 2 (fun _ => certChain) s

/-! ## Time -/

/-- PTC_CORRECTION (15 R420): each 10 µs a die's copy is slewed towards the control die's, by 100 ppm at most. -/
def execPtcCorrection (die slew : Nat) (s : State) : Out :=
  need (die < 2 && slew ≤ 1 && (if die == 0 then s.ctl.corrAt0 else s.ctl.corrAt1) + 10000 ≤ s.ctl.ptc) <|
    .next (s.setCtl (if die == 0 then { s.ctl with ptcLag0 := s.ctl.ptcLag0 - slew, corrAt0 := s.ctl.ptc }
      else { s.ctl with ptcLag1 := s.ctl.ptcLag1 - slew, corrAt1 := s.ctl.ptc }))

def Ctl.lost (c : Ctl) : Bool := c.timectl.getLsbD 31

/-- TIMECTL.lost changes: logged with the last bound, and raised (15 R413, R421). -/
def State.setLost (s : State) (lost : Bool) (bound : W64) : State :=
  let last := s.ctl.ptskew
  let t := s.setCtl { s.ctl with timectl := setFld s.ctl.timectl 31 31 (if lost then 1 else 0), ptskew := bound }
  (t.svcLog 8 (if lost then 1 else 2) 0 last).msi 66

/-- How far the device lags behind the peer, by four timestamps: minus ((t2 − t1) − (t4 − t3)) ÷ 2. -/
def lagOf (t1 t2 t3 t4 : W64) : Int :=
  -((((t2.toNat : Int) - t1.toNat) - ((t4.toNat : Int) - t3.toNat)) / 2)

/-- TIMECTL.gm is 1. -/
def Ctl.gm (c : Ctl) : Bool := c.timectl.getLsbD 0

/-- Exactly one device of the domain has gm set (15 R421). -/
def Ctl.oneSource (c : Ctl) : Bool := (if c.gm then 1 else 0) + c.sources == 1

/-- TIME_EXCHANGE (15 R421): each 1 ms over each port, the device measures its offset from the peer.  From a peer with a
path to the one source it takes what it is to slew by, unless it is the source itself, and the bound that then holds:
no less than its own dies' lags, and 60 at most. -/
def execTimeExchange (p : Nat) (t1 t2 t3 t4 : BitVec 64) (news : TimeNews) (s : State) : Out :=
  let x := s.port p
  let due := match x.exchAt with | some t => t + 1000000 ≤ s.ctl.ptc | none => true
  need (p < 16 && x.state == 2 && due && (!news.reaches ||
      (s.ctl.ptcLag0 ≤ news.bound.toNat && s.ctl.ptcLag1 ≤ news.bound.toNat && news.bound.toNat ≤ 60))) <|
    let s := (s.setPort p { x with exchAt := some s.ctl.ptc }).setCtl { s.ctl with sources := news.sources }
    if !(news.reaches && s.ctl.oneSource) then .next s
    else
      let lag := if s.ctl.gm then 0 else lagOf t1 t2 t3 t4
      let s := s.setCtl { s.ctl with slew := lag, slewAt := s.ctl.ptc, lastExchange := s.ctl.ptc }
      .next (if s.ctl.lost then s.setLost false news.bound else s.setCtl { s.ctl with ptskew := news.bound })

/-- TIME_SYNC_LOST (15 R421), in a domain: no exchange with a path to the source for 1 s, or gm set on no device or on
two. -/
def execTimeSyncLost (badSource : Bool) (s : State) : Out :=
  need (!s.ctl.lost && fld s.ctl.devcfg 13 8 != 0 &&
      (if badSource then !s.ctl.oneSource else !s.ctl.gm && s.ctl.lastExchange + 1000000000 ≤ s.ctl.ptc)) <|
    .next (s.setLost true (BitVec.allOnes 64))

/-- A write to PTCSET: it loads PTC on all three dies until a queue has been enabled (15 R420); what the part times begins
again from there. -/
def State.ptcLoad (s : State) (v : W64) : State :=
  let n := v.toNat
  if s.ctl.enabledOnce then s
  else
    { s with
      ctl := { s.ctl with
        ptcset := v, ptc := n, ptcLag0 := 0, ptcLag1 := 0, slew := 0, slewAt := n, corrAt0 := n, corrAt1 := n
        budgetAt := n, tickAt := n, lastExchange := n }
      ports := s.ports.map fun (x : Port) => { x with auths := [], markAt := n, keyAt := n, exchAt := none }
      resets := s.resets.map fun (r : DieReset) => { r with start := n } }

/-- PTCSET_WRITE. -/
def execPtcsetWrite (v : BitVec 64) (s : State) : Out := .next (if s.ctl.up then s.ptcLoad v else s)

/-! ## Registers written -/

/-- Some bit ranges of a value, the rest zero. -/
def keepBits (v : W64) (rs : List (Nat × Nat)) : W64 := rs.foldl (fun x r => setFld x r.1 r.2 (fld v r.1 r.2)) 0

/-- A write in the device block (15 Table 15.2). -/
def writeDevice (s : State) (off : Nat) (v : W64) : Out :=
  let early (c : Ctl) : Out := .next (if s.ctl.enabledOnce then s else s.setCtl c)
  match off with
  | 0x010 => early { s.ctl with devcfg := keepBits v [(13, 8), (5, 0)] }
  | 0x018 => early { s.ctl with ctxbase := keepBits v [(38, 38), (37, 30), (0, 0)] }
  | 0x020 => early { s.ctl with svclogb := keepBits v [(38, 38), (37, 12), (4, 0)] }
  | 0x028 => .next (s.setCtl { s.ctl with svchead := v.setWidth 32 })
  | 0x030 =>
    let s := if v.getLsbD 0 then s.requestReset 0 else s
    .next (if v.getLsbD 1 then s.requestReset 1 else s)
  | 0x038 => early { s.ctl with regloss := keepBits v [(38, 38), (37, 15)] }
  | _ => .next (if 0x080 ≤ off && off ≤ 0x0B8 then s.lostWrite ((off - 0x080) / 8) v else s)

/-- QCTL as a write leaves it: comp is the firmware's (14 Table 14.2). -/
def queueCtl (old v : W64) : W64 := setFld (keepBits v [(8, 8), (6, 2), (0, 0)]) 7 7 (fld old 7 7)

/-- A write in the scheduler block (14 Tables 14.1, 14.8). -/
def writeSched (s : State) (off : Nat) (v : W64) : Out :=
  let q := off / 0x40
  let h := s.queue q
  if off < 0x1000 then
    match off % 0x40 with
    | 0x00 => .next (s.setQueue q { h with base := keepBits v [(38, 38), (37, 6)] })
    | 0x08 => .next (s.setQueue q { h with size := v })
    | 0x10 => .next (s.ring q (v.setWidth 32))
    | 0x20 =>
      let s := s.setQueue q { h with ctl := queueCtl h.ctl v }
      .next (if v.getLsbD 0 then s.setCtl { s.ctl with enabledOnce := true } else s)
    | 0x28 => .next (if v.getLsbD 63 then s.clearHalt q else s)
    | 0x30 => s.dbgWrite q v
    | _ => .next s
  else .next (if off < 0x1028 then s.budgetWrite ((off - 0x1000) / 8) v else s)

/-- A write in the translation block (08 Table 8.12). -/
def writeXl (s : State) (off : Nat) (v : W64) : Out :=
  let put (x : XlRegs) : Out := .next { s with xl := x }
  match off with
  | 0x000 => put { s.xl with root := keepBits v [(38, 38), (37, 12), (0, 0)] }
  | 0x008 => put { s.xl with inva := keepBits v [(47, 16)] }
  | 0x010 => .next (s.invWrite v)
  | 0x018 => .next (s.poolWrite v)
  | 0x020 => put { s.xl with pooln := setFld s.xl.pooln 31 0 (fld v 31 0) }
  | 0x028 => .next (s.regionWrite v)
  | 0x030 => put { s.xl with regt := keepBits v [(38, 38), (37, 12)] }
  | _ => .next s

/-- A write in the time block. -/
def writeTime (s : State) (off : Nat) (v : W64) : Out :=
  match off with
  | 0x10 => .next (s.setCtl { s.ctl with timectl := setFld s.ctl.timectl 0 0 (fld v 0 0) })
  | 0x18 => .next (s.ptcLoad v)
  | _ => .next s

/-- A write of LNKCTL (15 R416). -/
def State.portWrite (s : State) (p : Nat) (v : W64) : State :=
  if !v.getLsbD 0 then s.movePort p (s.port p).disable
  else
    let s := s.setPort p (s.port p).enable
    if v.getLsbD 1 then s.rekeyPort p else s

/-- A write in the link block. -/
def writeLink (s : State) (off : Nat) (v : W64) : Out :=
  if off < 0x400 then
    .next (if off % 0x40 == 0 then s.portWrite (off / 0x40) v else s)
  else
    match off with
    | 0x800 => .next (s.setCtl { s.ctl with lnkto := keepBits v [(31, 0)] })
    | 0x808 => .next (s.setCtl { s.ctl with lnkrekey := keepBits v [(31, 0)] })
    | _ => .next s

/-- A write in the monitor block (15 R427). -/
def writeMonitor (s : State) (off : Nat) (v : W64) : Out :=
  let m := off / 0x100
  if 16 ≤ m then .next s
  else
    let x := s.monitors.getD m Monitor.reset
    match off % 0x100 with
    | 0x00 =>
      let s := { s with monitors := s.monitors.set m { x with ctl := keepBits v [(31, 30), (28, 23), (15, 8), (4, 0)] } }
      .next (if v.getLsbD 29 then s.clearMonitor m else s)
    | 0x60 => .next { s with monitors := s.monitors.set m { x with cfg := v } }
    | _ => .next s

/-- A write in the security block (15 R425). -/
def writeSecurity (s : State) (off : Nat) (v : W64) : Out :=
  match off with
  | 0x00 => .next (s.attWrite v)
  | 0x08 => .next (s.setCtl { s.ctl with attbuf := keepBits v [(38, 38), (37, 6)] })
  | _ => .next s

/-- A write of a register at its offset.  Before DEVSTAT.up only the device and security blocks take one (15 R428); after a
failed boot only they answer (15 R423). -/
def writeReg (s : State) (off : Nat) (v : W64) : Out :=
  let o := off % 0x10000
  match off / 0x10000 with
  | 0 => writeDevice s o v
  | 6 => writeSecurity s o v
  | b =>
    if !s.ctl.up then .next s
    else
      match b with
      | 1 => writeSched s o v
      | 2 => writeXl s o v
      | 3 => writeTime s o v
      | 4 => writeLink s o v
      | 5 => writeMonitor s o v
      | _ => .next s

/-- REGISTER_WRITE (15 R402): by the host or a management core; an access of another size writes nothing. -/
def execRegisterWrite (off : RegAccess) (v : BitVec 64) (s : State) : Out :=
  match off.offset with
  | some o => writeReg s o v
  | none => .next s

/-! ## Registers read -/

/-- A register of the device block as it reads. -/
def readDevice (s : State) (off : Nat) : W64 :=
  let c := s.ctl
  let b (x : Bool) : Nat := if x then 1 else 0
  match off with
  | 0x000 => c.devid
  | 0x008 => setFld (setFld (BitVec.ofNat 64 (b c.die0 + 2 * b c.die1 + 4 * b c.up)) 47 32 c.logdrop.toNat) 55 48 c.boot.toNat
  | 0x010 => c.devcfg
  | 0x018 => c.ctxbase
  | 0x020 => c.svclogb
  | 0x028 => c.svctail ++ c.svchead
  | 0x030 => c.rstctl.setWidth 64
  | 0x038 => c.regloss
  | 0x040 => setFld (setFld 0 63 32 (c.withheld / 65536 % 2 ^ 32)) 31 16 c.watts.toNat
  | _ => if 0x080 ≤ off && off ≤ 0x0B8 then c.lostmap.getD ((off - 0x080) / 8) 0 else 0

def readSched (s : State) (off : Nat) : W64 :=
  let h := s.queue (off / 0x40)
  if off < 0x1000 then
    match off % 0x40 with
    | 0x00 => h.base
    | 0x08 => h.size
    | 0x10 => h.tail
    | 0x18 => h.head.setWidth 64
    | 0x20 => h.ctl
    | 0x28 => h.stat
    | 0x30 => h.dbgact
    | _ => 0
  else if off < 0x1028 then s.budget.reg.getD ((off - 0x1000) / 8) 0 else 0

def readXl (s : State) (off : Nat) : W64 :=
  match off with
  | 0x000 => s.xl.root
  | 0x008 => s.xl.inva
  | 0x010 => s.xl.invc
  | 0x018 => s.xl.pool
  | 0x020 => s.xl.pooln
  | 0x028 => s.xl.regc
  | 0x030 => s.xl.regt
  | 0x038 => setFld (setFld (s.xl.collapses.setWidth 64) 47 32 s.quiesced) 31 16 s.walks.length
  | _ => 0

def readTime (s : State) (off : Nat) : W64 :=
  match off with
  | 0x00 => BitVec.ofNat 64 s.ctl.ptc
  | 0x08 => s.ctl.ptskew
  | 0x10 => s.ctl.timectl
  | 0x18 => s.ctl.ptcset
  | _ => 0

def readLink (s : State) (off : Nat) : W64 :=
  if off < 0x400 then
    (if off % 0x40 == 0 then (s.port (off / 0x40)).ctl else if off % 0x40 == 8 then (s.port (off / 0x40)).stat else 0)
  else if off == 0x800 then s.ctl.lnkto
  else if off == 0x808 then s.ctl.lnkrekey
  else 0

def readMonitor (s : State) (off : Nat) : W64 :=
  let x := s.monitors.getD (off / 0x100) Monitor.reset
  let r := off % 0x100
  if 0x1000 ≤ off then 0
  else if r == 0x00 then x.ctl
  else if r == 0x08 then x.min
  else if r == 0x10 then x.max
  else if r == 0x18 then x.cnt
  else if 0x20 ≤ r && r ≤ 0x58 then x.hist.getD ((r - 0x20) / 4 + 1) 0 ++ x.hist.getD ((r - 0x20) / 4) 0
  else if r == 0x60 then x.cfg
  else 0

/-- A register as it reads at its offset; other offsets read as zero. -/
def State.readReg (s : State) (off : Nat) : W64 :=
  let o := off % 0x10000
  match off / 0x10000 with
  | 0 => readDevice s o
  | 6 => if o == 0 then s.ctl.attcmd else if o == 8 then s.ctl.attbuf else 0
  | b =>
    if s.ctl.boot != 0 then 0
    else
      match b with
      | 1 => readSched s o
      | 2 => readXl s o
      | 3 => readTime s o
      | 4 => readLink s o
      | 5 => readMonitor s o
      | _ => 0

/-- What a register access reads (15 R402): zero at another size. -/
def State.regRead (s : State) (a : RegAccess) : W64 :=
  match a.offset with
  | some o => s.readReg o
  | none => 0

end Sys2Proof.Machine
end

