-- ==== Sys2Proof/Machine/Arbiter.lean ====
section
/-!
DEFINITION. The model's own order of the steps that nothing else decides (log 1): the turns that the step may take
when neither a planned event nor a running clause gives the next one, and the passing of time (log 7).
-/

namespace Sys2Proof.Machine

/-- PTC as some nanoseconds pass (15 R420, R421): it is slewed by 1 ns in 10,000 at most, and forward only while both
dies' copies, which do not follow at once, stay within PTSKEW, and 20 ns, of it. -/
def Ctl.pass (c : Ctl) (n : Nat) : Ctl :=
  let now := c.ptc + n
  let g := Nat.min (Nat.min c.slew.natAbs n) ((now - c.slewAt) / 10000)
  if c.slew < 0 then { c with ptc := now - g, slew := c.slew + g, slewAt := c.slewAt + 10000 * g }
  else
    let g := Nat.min g (Nat.min 20 c.ptskew.toNat - Nat.max c.ptcLag0 c.ptcLag1)
    { c with
      ptc := now + g, slew := c.slew - g, slewAt := c.slewAt + 10000 * g, ptcLag0 := c.ptcLag0 + g, ptcLag1 := c.ptcLag1 + g }

/-- Time passes before a step (log 7). -/
def State.tick (s : State) : State :=
  { s with ctl := s.ctl.pass (Config.timeAdvance s.freeCount), freeCount := s.freeCount + 1 }

/-- A turn: one of the part's own steps, the word of a group that held or waits, the correction of a die's copy of PTC
(15 R420), or the loss of the time source (15 R421). -/
inductive Turn where
  | event (i : Instr)
  | word (gid : Nat)
  | correct (die : Nat)
  | syncLost (badSource : Bool)
  deriving DecidableEq, Repr

/-- Groups whose word holds its lane pipe, or waits in BWAIT or CLWAIT: the word looks again. -/
def Group.polls (g : Group) : Bool :=
  match g.st with
  | .ready => (match g.run with | some r => r.held | none => false)
  | .blockedBatch _ | .blockedClasp .. => true
  | _ => false

/-- Quadrants with a group that may issue. -/
def State.issueTurns (s : State) : List Instr :=
  let qs := s.groups.filterMap fun (g : Group) =>
    if g.st == .ready && g.run.isNone then (s.team? g.team).map fun (t : Team) => (t.core, g.quad) else none
  qs.eraseDups.map fun q => .clauseIssue q.1 q.2 ((Config.freeWord s.freeCount).getLsbD 0)

/-- Steps of one command. -/
def Op.turns (o : Op) : List Instr :=
  let parts := (o.parts.zipIdx).filter fun q => q.1.st != .done && q.1.st != .faulted
  [.operationComplete o.id, .copyComplete o.id, .matrixAccept o.id, .postStageRun o.id]
    ++ parts.flatMap fun q =>
      [.homeRequest o.id q.2, .toleranceRead o.id q.2, .atomicPerform o.id q.2, .requestTimeout o.id q.2]

/-- The step of a message. -/
def Msg.turn (m : Msg) : Instr :=
  match m.body with
  | .recallLine .. => .recall m.id
  | .recallHamper .. => .recall m.id
  | .shareReq .. => .shareRequest m.id
  | .split .. | .splitAck .. => .splitRequest m.id
  | .grant .. => .shareGrant m.id
  | .drain .. => .drainCombine m.id
  | .drainAck .. => .drainAck m.id
  | .marker .. => .flushMarkerGather m.id

/-- Steps of the groups. -/
def Group.turns (g : Group) : List Instr :=
  [.storeQueueDeparture g.gid, .faultDelivery g.gid, .hangLimitExpiry g.gid, .memoryServiceCollapse g.gid]
    ++ if g.fetch.isSome then [.requestTimeout g.gid 0] else []

/-- Steps of the queue entries. -/
def State.queueTurns (s : State) : List Instr :=
  ((List.range 64).filter s.queueLive).flatMap fun q =>
    [.queueNop q, .queueGridLaunch q, .queueGraphLaunch q, .queueWaitWord q, .queueWritePtc q, .queueQuiescePoint q]

/-- A meaning answers a next state. -/
def goes (o : Out) : Bool := match o with | .next _ => true | _ => false

/-- Cores of one cluster on which the next teams of a grid may start: the first that there are. -/
def State.roomFor (s : State) (gr : Grid) : Option (List Nat) :=
  let n := Nat.min gr.ko.cluster (gr.total - gr.nextTeam)
  (List.range 72).findSome? fun c =>
    let cores := ((List.range 8).map fun i => 8 * c + i).filter fun k =>
      s.coreUp k && (s.roomOn k gr.ko (List.range gr.ko.groups) (gr.ko.acc / 1024)).isSome
    ((List.range 8).map fun j => (cores.drop j).take n).find? fun cs => goes (placeCluster s gr cs)

/-- The grid has a team to start. -/
def Grid.wanting (g : Grid) : Bool := g.killed.isNone && g.pending.isNone && g.nextTeam < g.total

/-- Grids by falling priority (14 R383). -/
def State.byPriority (s : State) : List Grid := sortBy (fun (a b : Grid) => b.prio.toNat ≤ a.prio.toNat) s.grids

def State.launchTurns (s : State) : List Instr :=
  s.byPriority.filterMap fun g =>
    if g.pending.isSome then some (.teamLaunch g.id.toNat [])
    else if g.wanting then (s.roomFor g).map fun cs => .teamLaunch g.id.toNat cs
    else none

/-- A node has records for a team that may start now (14 R378). -/
def State.nodeDue (s : State) (h : Graph) (i : Nat) (n : GNode) : Bool :=
  let rs := s.issuable h.id i n
  n.type != 4 && !rs.isEmpty && h.killed.isNone && !s.consumerFirst h i &&
    (s.overdue n rs || !s.producing h i ||
      (match s.readKObj n.kernel with | .ok ko => 32 * ko.groups ≤ rs.length | _ => false))

/-- Some core has room for a team of a node, beside the room kept for the others. -/
def State.nodeFits (s : State) (h : Graph) (i : Nat) (n : GNode) : Bool :=
  match s.readKObj n.kernel with
  | .ok _ => (List.range 576).any fun c => goes (launchNode s h.id i c fun _ _ _ => true)
  | _ => true

def State.prioOf (s : State) (t : Team) : Nat :=
  match s.grid? t.grid with
  | some g => g.prio.toNat
  | none => 0

/-- The teams that are saved, one for each cluster launch. -/
def State.savedTeams (s : State) : List Team := s.teams.filter fun t => !t.resident && t.clustrank == 0

/-- Some core has room for a saved team and its mates, whatever else their restoration waits for. -/
def State.savedFits (s : State) (t : Team) : Bool :=
  let s := { s with ops := [], teams := s.teams.map fun (u : Team) => { u with savedPtc := 0 } }
  (List.range 576).any fun c => match s.restored t c with | some u => s.keepsRoom u | none => false

/-- The highest priority at which a ready team, of a grid, of a node or saved, finds no room (14 R383). -/
def State.starved (s : State) : Option Nat :=
  let ps := (s.grids.filter fun g => g.wanting && (s.roomFor g).isNone).map (fun g => g.prio.toNat)
    ++ (s.savedTeams.filter fun t => !s.savedFits t).map s.prioOf
    ++ s.graphs.flatMap fun h =>
        if (h.nodes.zipIdx).any fun q => s.nodeDue h q.2 q.1 && !s.nodeFits h q.2 q.1 then [h.prio.toNat] else []
  ps.foldl (fun m p => match m with | none => some p | some x => some (Nat.max x p)) none

/-- A command that a pre-emption waits for by 14 R395: a matrix operation, a sampler command, a flag-bound access, or a
copy that touches the team's local spaces. -/
def Op.holdsTeam (o : Op) : Bool :=
  o.fault.isNone && (o.isMatrix || o.isSampler || o.flag.isSome || (o.isCopy && o.touchesLocal))

/-- The work that the team's pre-emption waits for includes an access that is reissued over a link, or one that waits on a
quiesced page, as does a clause that stands at one. -/
def State.tiedUp (s : State) (t : Team) : Bool :=
  (s.groupsOf t.id).any fun g =>
    (match g.st with | .blockedPage _ => !g.between | _ => false) ||
      (s.opsOf g.gid).any fun o => o.holdsTeam &&
        o.parts.any fun p => p.held.isSome || p.lostReq || (p.timeouts != 0 && p.st != .done)

/-- The teams that a starved level may pre-empt (14 R383): those of the lowest lower level, and of them the ones that are
not tied up, where there are any. -/
def State.victims (s : State) (p : Nat) : List Team :=
  let ts := s.teams.filter fun t => t.resident && s.prioOf t < p
  let low := ts.foldl (fun m t => Nat.min m (s.prioOf t)) p
  let ts := ts.filter fun t => s.prioOf t == low
  let free := ts.filter fun t => !s.tiedUp t
  if free.isEmpty then ts else free

/-- Pre-emptions for a starved level; restorations, but while it has victims only of teams of that level or above. -/
def State.preemptTurns (s : State) : List Instr :=
  let back (p : Nat) : List Instr :=
    (s.savedTeams.filter fun t => p ≤ s.prioOf t).flatMap fun t => (List.range 576).map fun c => .restore t.id c
  match s.starved with
  | some p => (s.victims p).map (fun t => .preempt t.id) ++ back (if (s.victims p).isEmpty then 0 else p)
  | none => back 0

/-- Steps of the records and nodes of the work graphs. -/
def State.graphTurns (s : State) : List Instr :=
  let recs := s.recs.map fun (r : Rec) =>
    match r.st with
    | .sent => .recordDelivery r.id
    | .held _ => .recordReleaseAtTime r.id
    | .pending _ => .present r.id
  let nodes := (s.recs.filterMap fun (r : Rec) => match r.st with | .pending _ => some (r.graph, r.node) | _ => none).eraseDups
  recs ++ nodes.flatMap fun q => (List.range 576).flatMap fun c =>
    [.nodeTeamLaunch q.1 q.2 c, .nodeCoalesceExpiry q.1 q.2 c]

/-- Retirements. -/
def State.retireTurns (s : State) : List Instr :=
  (s.teams.map fun (t : Team) => .teamRetire t.id) ++ (s.grids.map fun (g : Grid) => .gridRetire g.id.toNat)
    ++ s.graphs.map fun (g : Graph) => .gridRetire g.id

/-- Periods, links, resets and the translation block. -/
def State.controlTurns (s : State) : List Instr :=
  [.budgetPeriod, .monitorTick]
    ++ (if s.xl.invc.getLsbD 63 then [.invalidateComplete] else [])
    ++ (s.quiesces.map fun (j : Quiesce) => .quiescePoint j.id)
    ++ (if s.locks.isEmpty then [] else [.memoryServiceCollapse 0])
    ++ (s.resets.map fun (r : DieReset) => .resetComplete r.die)
    ++ (s.ctl.asks.map fun (r : CtlReq) => .requestTimeout r.sent.stamp 0)
    ++ (if s.ctl.attcmd.getLsbD 63 then [.attestReport, .attestCertChain] else [])
    ++ ((List.range 16).filter fun p => (s.port p).state == 2).flatMap fun p => [.rekeyIntervalExpiry p, .rekeyMarkerResend p]

/-- The part's own steps to try. -/
def State.candidates (s : State) : List Instr :=
  s.issueTurns ++ s.ops.flatMap Op.turns ++ s.msgs.map Msg.turn ++ s.groups.flatMap Group.turns ++ s.queueTurns
    ++ s.launchTurns ++ s.preemptTurns ++ s.graphTurns ++ s.retireTurns ++ s.controlTurns

/-- The turns, from a place that moves on with every step, so that none is passed over for ever. -/
def State.turns (s : State) : List Turn :=
  let l := ((s.groups.filter fun g => g.polls && s.mayRun g).map fun (g : Group) => Turn.word g.gid) ++ s.candidates.map Turn.event
    ++ (if s.ctl.ptcLag0 != 0 then [Turn.correct 0] else []) ++ (if s.ctl.ptcLag1 != 0 then [Turn.correct 1] else [])
    ++ [Turn.syncLost true, Turn.syncLost false]
  let k := s.freeCount % Nat.max 1 l.length
  l.drop k ++ l.take k

/-- A blocked group as its word looks again. -/
def State.unblock (s : State) (gid : Nat) : State :=
  { s with groups := s.groups.map fun (g : Group) =>
      if g.gid == gid then
        (match g.st with
         | .blockedBatch _ | .blockedClasp .. => { g with st := .ready }
         | _ => g)
      else g }

end Sys2Proof.Machine
end

