-- ==== Sys2Proof/Machine/LaneCtl.lean ====
section
/-!
DEFINITION. Control transfers, cross-lane instructions and REP (03 R97-R108).
-/

namespace Sys2Proof.Machine

/-! ## Control transfers (03 R97-R101) -/

/-- A control transfer ends the clause: lanes of `ex` take their target, other active lanes the fall-through; under
the elect bit every lane at the issue address takes the LPC the elected lane reached (02 R31, 03 R67). -/
def transfer (s : State) (e : Env) (g : Group) (ex : W32) (target : Nat → BitVec 48) : Out :=
  let reach : Nat → BitVec 48 := fun l => if ex.getLsbD l then target l else e.r.fall
  if e.r.hdr.elect then
    let l0 := (lowestLane e.r.lanes).getD 0
    .next (s.endClause g e.r (fun _ => reach l0) (if ex = 0 then 0 else e.r.lanes))
  else .next (s.endClause g e.r reach ex)

/-- The target of BRA and CALL: a signed displacement in 8-byte units from the header (02 R43). -/
def Run.disp (r : Run) (v : BitVec 32) : BitVec 48 := r.addr + (v.signExtend 48 <<< 3)

/-- BRA (03 R97). -/
def execBra (k : BitVec 3) (disp : BitVec 32) (s : State) : Out :=
  withEnv s fun e => transfer s e e.g (e.lanes k) fun _ => e.r.disp disp

/-- The branch-target-misaligned trap (02 R47, 03 R100): the record names the branch and the lowest offending lane. -/
def misalignedTarget (e : Env) (lane : Nat) : FaultRec where
  cause := 2
  detail := 0
  fields := [.num 48 e.r.addr.toNat, .num 5 e.r.idx, .num 5 lane]
  lanes := laneBit lane
  service := none

/-- Register targets, checked for alignment before any LPC changes (03 R98, R100). -/
def jumpReg (s : State) (e : Env) (g : Group) (ex : W32) (a : Src) : Out :=
  let t : Nat → BitVec 48 := fun l => (e.src64 a l).setWidth 48
  match (laneList ex).find? fun l => (t l).extractLsb' 0 3 != 0 with
  | some l => parkWord s e e.g (misalignedTarget e l)
  | none => transfer s e g ex t

/-- BRX (03 R98). -/
def execBrx (k : BitVec 3) (a : Src) (s : State) : Out := withEnv s fun e => jumpReg s e e.g (e.lanes k) a
/-- RET (03 R98). -/
def execRet (k : BitVec 3) (a : Src) (s : State) : Out := withEnv s fun e => jumpReg s e e.g (e.lanes k) a

/-- The return address of CALL in its destination (03 R99). -/
def Env.linked (e : Env) (ex : W32) (d : Dst) : Group := e.g.resultAll ex d true (e.r.fall.setWidth 64)

/-- CALL (03 R99). -/
def execCall (k : BitVec 3) (d : Dst) (disp : BitVec 32) (s : State) : Out :=
  withEnv s fun e => transfer s e (e.linked (e.lanes k) d) (e.lanes k) fun _ => e.r.disp disp
/-- CALL.x (03 R99): the target is read before the return address is written. -/
def execCallX (k : BitVec 3) (d : Dst) (a : Src) (s : State) : Out :=
  withEnv s fun e => jumpReg s e (e.linked (e.lanes k) d) (e.lanes k) a

/-- A flag-bound operation of the group with a fault that EXIT delivers (01 R22). -/
def State.faultedOp (s : State) (gid : Nat) : Option Op := (s.opsOf gid).find? fun o => o.fault.isSome

/-- EXIT (03 R101): the executing lanes leave the live set; the others fall through. -/
def execExit (k : BitVec 3) (s : State) : Out :=
  withEnv s fun e =>
    let ex := e.lanes k
    let g := { e.g with live := e.g.live &&& ~~~ex }
    .next (s.endClause g e.r (fun _ => e.r.fall) 0)

/-! ## Cross-lane (03 R102-R105) -/

/-- LSHF (03 R102). -/
def execLshf (m : LMode) (x : IBin) (s : State) : Out :=
  withEnv s fun e =>
    let ex := e.lanes x.k
    let n := (e.lowOpd ex x.b).toNat
    wordDone s e (e.g.result ex x.d (tyWide x.t) fun l =>
      x.t.formN (x.t.pat (e.src (tyWide x.t) x.a ((lshfLane m l n).getD l))))

/-- LBFL (03 R102). -/
def execLbfl (x : IBin) (s : State) : Out :=
  laneOp s x.k x.d (tyWide x.t) fun e l =>
    x.t.formN (x.t.pat (e.src (tyWide x.t) x.a ((e.opd false x.b l).toNat % 32)))

/-- The executing lane before a lane. -/
def prevLane (ex : W32) (l : Nat) : Option Nat := ((laneList ex).filter fun j => j < l).getLast?

/-- LPREV (03 R103): the seed is B in the first executing lane, or the carry; the last lane's value is the new
carry. -/
def execLprev (k : BitVec 3) (d : Dst) (a : Src) (b : Option Opd) (t : IntTy) (s : State) : Out :=
  withEnv s fun e =>
    let ex := e.lanes k
    let w := tyWide t
    let seed : Nat → W64 := fun l => match b with | some o => e.opd w o l | none => e.g.carry
    let v : Nat → W64 := fun l => match prevLane ex l with
      | some j => t.formN (t.pat (e.src w a j))
      | none => t.formN (t.pat (seed l))
    let carry := match (laneList ex).getLast? with
      | some m => BitVec.ofNat 64 (t.pat (e.src w a m))
      | none => e.g.carry
    wordDone s e ({ e.g with carry := carry }.result ex d w v)

/-- Values of the executing lanes in ascending order. -/
def laneVals (ex : W32) (f : Nat → W64) : List W64 := (laneList ex).map f

/-- Value of lane `l` in a list over the executing lanes. -/
def laneNth (ex : W32) (vs : List W64) (l : Nat) : W64 := vs.getD ((laneList ex).filter fun j => j < l).length 0

/-- LSCAN (03 R104). -/
def execLscan (op : ScanOp) (excl : Bool) (x : IUn) (s : State) : Out :=
  withEnv s fun e =>
    let ex := e.lanes x.k
    let incl := scanList op x.t x.sat (scanId op x.t) (laneVals ex fun l => e.src (tyWide x.t) x.a l)
    let vs := if excl then scanId op x.t :: incl else incl
    wordDone s e (e.g.result ex x.d (tyWide x.t) (laneNth ex vs))

/-- LRED (03 R104). -/
def execLred (op : ScanOp) (x : IUn) (s : State) : Out :=
  withEnv s fun e =>
    let ex := e.lanes x.k
    let vs := scanList op x.t x.sat (scanId op x.t) (laneVals ex fun l => e.src (tyWide x.t) x.a l)
    wordDone s e (e.g.resultAll ex x.d (tyWide x.t) (vs.getLastD (scanId op x.t)))

/-- VOTE's value (03 R105). -/
def voteVal (m : VoteOp) (ex : W32) (a : Nat → Nat) : W64 :=
  match m with
  | .any => boolVal ((laneList ex).any fun l => a l != 0)
  | .all => boolVal ((laneList ex).all fun l => a l != 0)
  | .ballot => (ex &&& laneMask fun l => a l != 0).setWidth 64
  | .uni => boolVal (match lowestLane ex with
      | some l0 => (laneList ex).all fun l => a l == a l0
      | none => true)

/-- The ballot is an N32 mask; the other modes give a result of the instruction's type (03 R79, R105). -/
def voteWide (m : VoteOp) (t : IntTy) : Bool := m != .ballot && tyWide t

/-- VOTE (03 R105). -/
def execVote (m : VoteOp) (x : IUn) (s : State) : Out :=
  withEnv s fun e =>
    let ex := e.lanes x.k
    wordDone s e (e.g.resultAll ex x.d (voteWide m x.t) (voteVal m ex fun l => x.t.pat (e.src (tyWide x.t) x.a l)))

/-- ELECT (03 R105). -/
def execElect (k : BitVec 3) (d : Dst) (s : State) : Out :=
  withEnv s fun e =>
    let ex := e.lanes k
    wordDone s e (e.g.resultAll ex d false (BitVec.ofNat 64 ((lowestLane ex).getD 0)))

/-- REP (03 R107, R108): word 2 runs n times; the prefix itself has no other effect. -/
def execRep (x : RepX) (s : State) : Out :=
  withEnv s fun e => .next ((s.charge e.gr.cls.toNat (x.n.toNat - 1)).advance e.g { e.r with rep := some x })

end Sys2Proof.Machine
end

