-- ==== Sys2Proof/Machine/LaneFp.lean ====
section
/-!
DEFINITION. The lane engine's floating-point and special-function instructions, and FSTR and FSTW (04 R121-R131).
-/

namespace Sys2Proof.Machine

/-! ## The FP exception trap (04 R116) -/

/-- The exceptions of a set that FPST enables in a lane: enables in bits 9:5, exceptions in bits 4:0 (04 Table 4.2). -/
def Group.enabled (g : Group) (l : Nat) (x : W32) : W32 := x &&& (Store.read g.fpst l >>> 5) &&& 0x1F

/-- The record of the FP exception trap (04 R116): the lanes' sets as 32 bytes by lane, zero for a lane outside the mask
(log 112). -/
def fpRecord (e : Env) (lanes : W32) (x : Nat → W32) : FaultRec where
  cause := 3
  detail := 0
  fields := [.num 48 e.r.addr.toNat, .num 5 e.r.idx, .num 5 e.r.runNo, .num 32 lanes.toNat,
    .arr 5 ((List.range 32).map fun l => if lanes.getLsbD l then (x l &&& 0x1F).toNat else 0)]
  lanes := lanes
  service := none

/-- A word of chapter 04: every lane's result and exceptions; sticky flags; the trap, which withholds every write; or
the results (04 R116). -/
def fpWord (s : State) (k : BitVec 3) (d : Dst) (wide : Bool) (v : Env → Nat → W64 × W32) : Out :=
  withEnv s fun e =>
    let ex := e.lanes k
    let x : Nat → W32 := fun l => (v e l).2
    let g := e.g.raiseAll ex x
    let trap := ex &&& laneMask fun l => e.g.enabled l (x l) != 0
    if trap = 0 then wordDone s e (g.result ex d wide fun l => (v e l).1)
    else parkWord s e g (fpRecord e trap x)

/-! ## Operands -/

def fpWide (t : FpTy) : Bool := t == .f64

/-- An FP32 pattern widened exactly to FP64 (02 Table 2.6). -/
def widen32 (v : W32) : W64 :=
  match fmt32.unpack v.toNat with
  | .fin n m e => BitVec.ofNat 64 (fround fmt64 .rne false n m e).1
  | .inf n => BitVec.ofNat 64 (fmt64.infBits n)
  | .nan _ => v.extractLsb' 31 1 ++ 0x7FF#11 ++ v.extractLsb' 0 23 ++ 0#29

/-- Source B, or the literal: an FP32 pattern, widened for FP64 (02 Table 2.6). -/
def Env.fopd (e : Env) (t : FpTy) (b : Opd) (l : Nat) : W64 :=
  match b with
  | .src f => e.src (fpWide t) f l
  | .lit v => if fpWide t then widen32 v else v.setWidth 64

def fpUn (s : State) (x : FUn) (f : W64 → W64 × W32) : Out :=
  fpWord s x.k x.d (fpWide x.t) fun e l => f (e.src (fpWide x.t) x.a l)

def fpBin (s : State) (x : FBin) (f : W64 → W64 → W64 × W32) : Out :=
  fpWord s x.k x.d (fpWide x.t) fun e l => f (e.src (fpWide x.t) x.a l) (e.fopd x.t x.b l)

/-! ## Arithmetic (04 R121-R125) -/

/-- FADD (04 R121). -/
def execFadd (x : FBin) (s : State) : Out := fpBin s x (faddVal x.t x.r x.ftz)
/-- FSUB (04 R121). -/
def execFsub (x : FBin) (s : State) : Out := fpBin s x (fsubVal x.t x.r x.ftz)
/-- FMUL (04 R121). -/
def execFmul (x : FBin) (s : State) : Out := fpBin s x (fmulVal x.t x.r x.ftz)
/-- FFMA (04 R121). -/
def execFfma (x : FTer) (s : State) : Out :=
  fpWord s x.k x.d (fpWide x.t) fun e l =>
    let w := fpWide x.t
    ffmaVal x.t x.r x.ftz (e.src w x.a l) (e.src w x.b l) (e.src w x.c l)
/-- FMIN (04 R122). -/
def execFmin (x : FBin) (s : State) : Out := fpBin s x (fminmaxVal false false x.t x.ftz)
/-- FMAX (04 R122). -/
def execFmax (x : FBin) (s : State) : Out := fpBin s x (fminmaxVal true false x.t x.ftz)
/-- FMINN (04 R122). -/
def execFminn (x : FBin) (s : State) : Out := fpBin s x (fminmaxVal false true x.t x.ftz)
/-- FMAXN (04 R122). -/
def execFmaxn (x : FBin) (s : State) : Out := fpBin s x (fminmaxVal true true x.t x.ftz)
/-- FCMP (04 R123): a 32-bit result. -/
def execFcmp (p : FPred) (x : FBin) (s : State) : Out :=
  fpWord s x.k x.d false fun e l => fcmpVal p x.t x.ftz (e.src (fpWide x.t) x.a l) (e.fopd x.t x.b l)
/-- FCLS (04 R124): a 32-bit result, no exception. -/
def execFcls (x : FUn) (s : State) : Out :=
  fpWord s x.k x.d false fun e l => (fclsVal x.t (e.src (fpWide x.t) x.a l), 0)
/-- FRND (04 R125). -/
def execFrnd (exact : Bool) (x : FUn) (s : State) : Out := fpUn s x (frndVal exact x.t x.r x.ftz)
/-- FDIV (04 R121). -/
def execFdiv (x : FBin) (s : State) : Out := fpBin s x (fdivVal x.t x.r x.ftz)
/-- FSQRT (04 R121). -/
def execFsqrt (x : FUn) (s : State) : Out := fpUn s x (fsqrtVal x.t x.r x.ftz)

/-! ## Conversions (04 R126-R128) -/

def numWide : NumTy → Bool
  | .fp t => t == .f64
  | .int t => t.width == 64

/-- CVT (04 R126). -/
def execCvt (k : BitVec 3) (d : Dst) (a : Src) (dt st : NumTy) (r : Rnd) (ftz : Bool) (s : State) : Out :=
  fpWord s k d (numWide dt) fun e l => cvtVal dt st r ftz (e.src (numWide st) a l)
/-- FPACK.pack (04 R127). -/
def execFpackPack (k : BitVec 3) (d : Dst) (a b : Src) (bf : Bool) (from64 : Bool) (r : Rnd) (ftz : Bool) (s : State) : Out :=
  fpWord s k d false fun e l => fpackVal bf from64 r ftz (e.src from64 a l) (e.src from64 b l)
/-- FPACK.ulo and .uhi (04 R127). -/
def execFpackUnpack (hi : Bool) (k : BitVec 3) (d : Dst) (a : Src) (to64 : Bool) (bf : Bool) (ftz : Bool) (s : State) : Out :=
  fpWord s k d to64 fun e l => funpackVal hi to64 bf ftz (e.src32 a l)
/-- FDOT2 (04 R128). -/
def execFdot2 (x : FTer) (s : State) : Out :=
  fpWord s x.k x.d false fun e l => fdot2Val x.t x.r x.ftz (e.src32 x.a l) (e.src32 x.b l) (e.src32 x.c l)

/-! ## Special functions (04 R129, R130) -/

/-- FRCP. -/
def execFrcp (x : FUn) (s : State) : Out := fpUn s x (sfuVal frcp32 x.t x.ftz)
/-- FRSQ. -/
def execFrsq (x : FUn) (s : State) : Out := fpUn s x (sfuVal frsq32 x.t x.ftz)
/-- FEXP2. -/
def execFexp2 (x : FUn) (s : State) : Out := fpUn s x (sfuVal fexp232 x.t x.ftz)
/-- FLOG2. -/
def execFlog2 (x : FUn) (s : State) : Out := fpUn s x (sfuVal flog232 x.t x.ftz)
/-- FSINP. -/
def execFsinp (x : FUn) (s : State) : Out := fpUn s x (sfuVal fsinp32 x.t x.ftz)
/-- FCOSP. -/
def execFcosp (x : FUn) (s : State) : Out := fpUn s x (sfuVal fcosp32 x.t x.ftz)
/-- FTANH. -/
def execFtanh (x : FUn) (s : State) : Out := fpUn s x (sfuVal ftanh32 x.t x.ftz)

/-! ## FPST (04 R131) -/

/-- FSTR (04 R131). -/
def execFstr (k : BitVec 3) (d : Dst) (s : State) : Out :=
  laneOp s k d false fun e l => (Store.read e.g.fpst l).setWidth 64

/-- The new FPST of FSTW; bits 31:12 of the operand are ignored (04 R131, R115). -/
def fstwVal (m : FstwOp) (old v : W32) : W32 :=
  let v := v &&& 0xFFF
  match m with
  | .w => v
  | .or => old ||| v
  | .clr => old &&& ~~~v

/-- FSTW (04 R131): the previous FPST is the result. -/
def execFstw (m : FstwOp) (k : BitVec 3) (d : Dst) (a : Opd) (s : State) : Out :=
  withEnv s fun e =>
    let ex := e.lanes k
    let g := e.g.result ex d false fun l => (Store.read e.g.fpst l).setWidth 64
    let fpst := (laneList ex).foldl (fun p l =>
      Store.write p l (fstwVal m (Store.read e.g.fpst l) ((e.opd false a l).setWidth 32))) e.g.fpst
    wordDone s e { g with fpst := fpst }

end Sys2Proof.Machine
end

