-- ==== Sys2Proof/Machine/Dispatch.lean ====
section
/-!
DEFINITION. The dispatch: one arm for each constructor of the instruction type.
-/

namespace Sys2Proof.Machine

def exec (i : Instr) (s : State) : Host.Outcome State Fault Refusal :=
  match i with
  | .clauseIssue core quad honourYield => Sys2Proof.Machine.execClauseIssue core quad honourYield s
  | .iadd x => Sys2Proof.Machine.execIadd x s
  | .isub x => Sys2Proof.Machine.execIsub x s
  | .iadc x => Sys2Proof.Machine.execIadc x s
  | .isbc x => Sys2Proof.Machine.execIsbc x s
  | .imul x => Sys2Proof.Machine.execImul x s
  | .imulh x => Sys2Proof.Machine.execImulh x s
  | .imad x => Sys2Proof.Machine.execImad x s
  | .idiv x => Sys2Proof.Machine.execIdiv x s
  | .irem x => Sys2Proof.Machine.execIrem x s
  | .iabs x => Sys2Proof.Machine.execIabs x s
  | .ineg x => Sys2Proof.Machine.execIneg x s
  | .imin x => Sys2Proof.Machine.execImin x s
  | .imax x => Sys2Proof.Machine.execImax x s
  | .icmp p x => Sys2Proof.Machine.execIcmp p x s
  | .isel x => Sys2Proof.Machine.execIsel x s
  | .and x => Sys2Proof.Machine.execAnd x s
  | .or x => Sys2Proof.Machine.execOr x s
  | .xor x => Sys2Proof.Machine.execXor x s
  | .andn x => Sys2Proof.Machine.execAndn x s
  | .not x => Sys2Proof.Machine.execNot x s
  | .shl x => Sys2Proof.Machine.execShl x s
  | .shrl x => Sys2Proof.Machine.execShrl x s
  | .shra x => Sys2Proof.Machine.execShra x s
  | .rotl x => Sys2Proof.Machine.execRotl x s
  | .fshl x => Sys2Proof.Machine.execFshl x s
  | .clz x => Sys2Proof.Machine.execClz x s
  | .ctz x => Sys2Proof.Machine.execCtz x s
  | .popc x => Sys2Proof.Machine.execPopc x s
  | .brev x => Sys2Proof.Machine.execBrev x s
  | .bext x pos width => Sys2Proof.Machine.execBext x pos width s
  | .bextR x => Sys2Proof.Machine.execBextR x s
  | .bins k d a b t pos width => Sys2Proof.Machine.execBins k d a b t pos width s
  | .binsR x => Sys2Proof.Machine.execBinsR x s
  | .bint k d a b c t => Sys2Proof.Machine.execBint k d a b c t s
  | .bdin three x j => Sys2Proof.Machine.execBdin three x j s
  | .bperm x => Sys2Proof.Machine.execBperm x s
  | .blut hi x => Sys2Proof.Machine.execBlut hi x s
  | .mov x => Sys2Proof.Machine.execMov x s
  | .movl k d wide v => Sys2Proof.Machine.execMovl k d wide v s
  | .movlHi k d v => Sys2Proof.Machine.execMovlHi k d v s
  | .movs x => Sys2Proof.Machine.execMovs x s
  | .kop op k d a kd kx ky => Sys2Proof.Machine.execKop op k d a kd kx ky s
  | .lcset k d lc b => Sys2Proof.Machine.execLcset k d lc b s
  | .lcadv k d lc b => Sys2Proof.Machine.execLcadv k d lc b s
  | .bra k disp => Sys2Proof.Machine.execBra k disp s
  | .brx k a => Sys2Proof.Machine.execBrx k a s
  | .call k d disp => Sys2Proof.Machine.execCall k d disp s
  | .callX k d a => Sys2Proof.Machine.execCallX k d a s
  | .ret k a => Sys2Proof.Machine.execRet k a s
  | .exit k => Sys2Proof.Machine.execExit k s
  | .lshf m x => Sys2Proof.Machine.execLshf m x s
  | .lbfl x => Sys2Proof.Machine.execLbfl x s
  | .lprev k d a b t => Sys2Proof.Machine.execLprev k d a b t s
  | .lscan op excl x => Sys2Proof.Machine.execLscan op excl x s
  | .lred op x => Sys2Proof.Machine.execLred op x s
  | .vote m x => Sys2Proof.Machine.execVote m x s
  | .elect k d => Sys2Proof.Machine.execElect k d s
  | .rep x => Sys2Proof.Machine.execRep x s
  | .fadd x => Sys2Proof.Machine.execFadd x s
  | .fsub x => Sys2Proof.Machine.execFsub x s
  | .fmul x => Sys2Proof.Machine.execFmul x s
  | .ffma x => Sys2Proof.Machine.execFfma x s
  | .fmin x => Sys2Proof.Machine.execFmin x s
  | .fmax x => Sys2Proof.Machine.execFmax x s
  | .fminn x => Sys2Proof.Machine.execFminn x s
  | .fmaxn x => Sys2Proof.Machine.execFmaxn x s
  | .fcmp p x => Sys2Proof.Machine.execFcmp p x s
  | .fcls x => Sys2Proof.Machine.execFcls x s
  | .frnd exact x => Sys2Proof.Machine.execFrnd exact x s
  | .fdiv x => Sys2Proof.Machine.execFdiv x s
  | .fsqrt x => Sys2Proof.Machine.execFsqrt x s
  | .cvt k d a dt st r ftz => Sys2Proof.Machine.execCvt k d a dt st r ftz s
  | .fpackPack k d a b bf from64 r ftz => Sys2Proof.Machine.execFpackPack k d a b bf from64 r ftz s
  | .fpackUnpack hi k d a to64 bf ftz => Sys2Proof.Machine.execFpackUnpack hi k d a to64 bf ftz s
  | .fdot2 x => Sys2Proof.Machine.execFdot2 x s
  | .frcp x => Sys2Proof.Machine.execFrcp x s
  | .frsq x => Sys2Proof.Machine.execFrsq x s
  | .fexp2 x => Sys2Proof.Machine.execFexp2 x s
  | .flog2 x => Sys2Proof.Machine.execFlog2 x s
  | .fsinp x => Sys2Proof.Machine.execFsinp x s
  | .fcosp x => Sys2Proof.Machine.execFcosp x s
  | .ftanh x => Sys2Proof.Machine.execFtanh x s
  | .fstr k d => Sys2Proof.Machine.execFstr k d s
  | .fstw m k d a => Sys2Proof.Machine.execFstw m k d a s
  | .vld k d a x => Sys2Proof.Machine.execVld k d a x s
  | .vst k a b x => Sys2Proof.Machine.execVst k a b x s
  | .vadd x => Sys2Proof.Machine.execVadd x s
  | .vsub x => Sys2Proof.Machine.execVsub x s
  | .vmul x => Sys2Proof.Machine.execVmul x s
  | .vfma k d a b c => Sys2Proof.Machine.execVfma k d a b c s
  | .vdiv x => Sys2Proof.Machine.execVdiv x s
  | .vsqrt x => Sys2Proof.Machine.execVsqrt x s
  | .vcmp p k d a b => Sys2Proof.Machine.execVcmp p k d a b s
  | .vcvtTov k d a t => Sys2Proof.Machine.execVcvtTov k d a t s
  | .vcvtFromv k d a t r => Sys2Proof.Machine.execVcvtFromv k d a t r s
  | .vrndInt x => Sys2Proof.Machine.execVrndInt x s
  | .vrndFit x => Sys2Proof.Machine.execVrndFit x s
  | .vexpo k d a => Sys2Proof.Machine.execVexpo k d a s
  | .vlen k d a => Sys2Proof.Machine.execVlen k d a s
  | .vlenBytes k d a => Sys2Proof.Machine.execVlenBytes k d a s
  | .vscale k d a b => Sys2Proof.Machine.execVscale k d a b s
  | .precr k d => Sys2Proof.Machine.execPrecr k d s
  | .precw k d a => Sys2Proof.Machine.execPrecw k d a s
  | .precwLen k d a => Sys2Proof.Machine.execPrecwLen k d a s
  | .ld k d a x sx => Sys2Proof.Machine.execLd k d a x sx s
  | .st k a b x => Sys2Proof.Machine.execSt k a b x s
  | .ldv k d a x => Sys2Proof.Machine.execLdv k d a x s
  | .stv k a b x => Sys2Proof.Machine.execStv k a b x s
  | .ldtol k d a b x => Sys2Proof.Machine.execLdtol k d a b x s
  | .ldtolDet k d a x => Sys2Proof.Machine.execLdtolDet k d a x s
  | .ldtolV k d a b x => Sys2Proof.Machine.execLdtolV k d a b x s
  | .ldtolDetV k d a x => Sys2Proof.Machine.execLdtolDetV k d a x s
  | .stadd k a b x => Sys2Proof.Machine.execStadd k a b x s
  | .staddV k a b x => Sys2Proof.Machine.execStaddV k a b x s
  | .drain k d => Sys2Proof.Machine.execDrain k d s
  | .drainR k d a => Sys2Proof.Machine.execDrainR k d a s
  | .pfx k a r => Sys2Proof.Machine.execPfx k a r s
  | .invlLine k a => Sys2Proof.Machine.execInvlLine k a s
  | .invlSi k => Sys2Proof.Machine.execInvlSi k s
  | .fence m k scope => Sys2Proof.Machine.execFence m k scope s
  | .ldbt k d a x => Sys2Proof.Machine.execLdbt k d a x s
  | .stbt k a b x => Sys2Proof.Machine.execStbt k a b x s
  | .mapq k d a => Sys2Proof.Machine.execMapq k d a s
  | .storeQueueDeparture gid => Sys2Proof.Machine.execStoreQueueDeparture gid s
  | .homeRequest op part => Sys2Proof.Machine.execHomeRequest op part s
  | .recall msg => Sys2Proof.Machine.execRecall msg s
  | .l1Eviction core blk => Sys2Proof.Machine.execL1Eviction core blk s
  | .shareRequest msg => Sys2Proof.Machine.execShareRequest msg s
  | .splitRequest msg => Sys2Proof.Machine.execSplitRequest msg s
  | .shareGrant msg => Sys2Proof.Machine.execShareGrant msg s
  | .drainCombine msg => Sys2Proof.Machine.execDrainCombine msg s
  | .drainAck msg => Sys2Proof.Machine.execDrainAck msg s
  | .toleranceRead op part => Sys2Proof.Machine.execToleranceRead op part s
  | .flushMarkerGather msg => Sys2Proof.Machine.execFlushMarkerGather msg s
  | .operationComplete op => Sys2Proof.Machine.execOperationComplete op s
  | .faultDelivery gid => Sys2Proof.Machine.execFaultDelivery gid s
  | .pageWalk core va => Sys2Proof.Machine.execPageWalk core va s
  | .copy x => Sys2Proof.Machine.execCopy x s
  | .copy2d x => Sys2Proof.Machine.execCopy2d x s
  | .copy3d x => Sys2Proof.Machine.execCopy3d x s
  | .copym x => Sys2Proof.Machine.execCopym x s
  | .bseal k d => Sys2Proof.Machine.execBseal k d s
  | .bwait k n => Sys2Proof.Machine.execBwait k n s
  | .clinit k a b c sp => Sys2Proof.Machine.execClinit k a b c sp s
  | .clexp k a b sp => Sys2Proof.Machine.execClexp k a b sp s
  | .clarr k a b sp scope => Sys2Proof.Machine.execClarr k a b sp scope s
  | .clwait k d a b sp scope => Sys2Proof.Machine.execClwait k d a b sp scope s
  | .cltest k d a sp acq => Sys2Proof.Machine.execCltest k d a sp acq s
  | .clinv k a sp => Sys2Proof.Machine.execClinv k a sp s
  | .copyComplete op => Sys2Proof.Machine.execCopyComplete op s
  | .mma x => Sys2Proof.Machine.execMma x s
  | .mmat x => Sys2Proof.Machine.execMmat x s
  | .mmafx x => Sys2Proof.Machine.execMmafx x s
  | .tld x => Sys2Proof.Machine.execTld x s
  | .tst x => Sys2Proof.Machine.execTst x s
  | .tzero k t qm => Sys2Proof.Machine.execTzero k t qm s
  | .accld x => Sys2Proof.Machine.execAccld x s
  | .accst x => Sys2Proof.Machine.execAccst x s
  | .accz k acc n => Sys2Proof.Machine.execAccz k acc n s
  | .sclw k a r => Sys2Proof.Machine.execSclw k a r s
  | .sclr k d r => Sys2Proof.Machine.execSclr k d r s
  | .popld x => Sys2Proof.Machine.execPopld x s
  | .prepld x => Sys2Proof.Machine.execPrepld x s
  | .matrixAccept op => Sys2Proof.Machine.execMatrixAccept op s
  | .postStageRun op => Sys2Proof.Machine.execPostStageRun op s
  | .smpl x => Sys2Proof.Machine.execSmpl x s
  | .smplg x => Sys2Proof.Machine.execSmplg x s
  | .smpllLod x c => Sys2Proof.Machine.execSmpllLod x c s
  | .smpllGrad x c => Sys2Proof.Machine.execSmpllGrad x c s
  | .sres x => Sys2Proof.Machine.execSres x s
  | .atom op k d a b x => Sys2Proof.Machine.execAtom op k d a b x s
  | .atomw op k d a b c x => Sys2Proof.Machine.execAtomw op k d a b c x s
  | .fatom op k d a b x => Sys2Proof.Machine.execFatom op k d a b x s
  | .acas k d a b c x => Sys2Proof.Machine.execAcas k d a b c x s
  | .enq k d a b x => Sys2Proof.Machine.execEnq k d a b x s
  | .deq k d a x => Sys2Proof.Machine.execDeq k d a x s
  | .bnginit k a b c x => Sys2Proof.Machine.execBnginit k a b c x s
  | .atomicPerform op part => Sys2Proof.Machine.execAtomicPerform op part s
  | .launch x => Sys2Proof.Machine.execLaunch x s
  | .emit k a n => Sys2Proof.Machine.execEmit k a n s
  | .emitn k d a b sp n => Sys2Proof.Machine.execEmitn k d a b sp n s
  | .accgrow k d a => Sys2Proof.Machine.execAccgrow k d a s
  | .relat k a b n => Sys2Proof.Machine.execRelat k a b n s
  | .nop k => Sys2Proof.Machine.execNop k s
  | .trap k code => Sys2Proof.Machine.execTrap k code s
  | .eret k a b => Sys2Proof.Machine.execEret k a b s
  | .csrr k d csr => Sys2Proof.Machine.execCsrr k d csr s
  | .csrw k a csr => Sys2Proof.Machine.execCsrw k a csr s
  | .ptime k d => Sys2Proof.Machine.execPtime k d s
  | .ptimeSkew k d => Sys2Proof.Machine.execPtimeSkew k d s
  | .bkpt k code => Sys2Proof.Machine.execBkpt k code s
  | .queueDoorbell q tail => Sys2Proof.Machine.execQueueDoorbell q tail s
  | .queueNop q => Sys2Proof.Machine.execQueueNop q s
  | .queueGridLaunch q => Sys2Proof.Machine.execQueueGridLaunch q s
  | .queueGraphLaunch q => Sys2Proof.Machine.execQueueGraphLaunch q s
  | .queueWaitWord q => Sys2Proof.Machine.execQueueWaitWord q s
  | .queueWritePtc q => Sys2Proof.Machine.execQueueWritePtc q s
  | .queueQuiescePoint q => Sys2Proof.Machine.execQueueQuiescePoint q s
  | .qstatHaltClear q => Sys2Proof.Machine.execQstatHaltClear q s
  | .quiescePoint job => Sys2Proof.Machine.execQuiescePoint job s
  | .teamLaunch grid cores => Sys2Proof.Machine.execTeamLaunch grid cores s
  | .nodeTeamLaunch graph node core => Sys2Proof.Machine.execNodeTeamLaunch graph node core s
  | .nodeCoalesceExpiry graph node core => Sys2Proof.Machine.execNodeCoalesceExpiry graph node core s
  | .recordDelivery rec => Sys2Proof.Machine.execRecordDelivery rec s
  | .recordReleaseAtTime rec => Sys2Proof.Machine.execRecordReleaseAtTime rec s
  | .present rec => Sys2Proof.Machine.execPresent rec s
  | .teamRetire team => Sys2Proof.Machine.execTeamRetire team s
  | .gridRetire grid => Sys2Proof.Machine.execGridRetire grid s
  | .hangLimitExpiry gid => Sys2Proof.Machine.execHangLimitExpiry gid s
  | .dbgactResume q image => Sys2Proof.Machine.execDbgactResume q image s
  | .dbgactSkip q image => Sys2Proof.Machine.execDbgactSkip q image s
  | .dbgactKillGroup q image => Sys2Proof.Machine.execDbgactKillGroup q image s
  | .dbgactKillGrid q image => Sys2Proof.Machine.execDbgactKillGrid q image s
  | .preempt team => Sys2Proof.Machine.execPreempt team s
  | .restore team core => Sys2Proof.Machine.execRestore team core s
  | .budgetPeriod => Sys2Proof.Machine.execBudgetPeriod s
  | .clsbudWrite c v => Sys2Proof.Machine.execClsbudWrite c v s
  | .invalidateOnePage size => Sys2Proof.Machine.execInvalidateOnePage size s
  | .invalidateRange size count => Sys2Proof.Machine.execInvalidateRange size count s
  | .invalidateAll => Sys2Proof.Machine.execInvalidateAll s
  | .invalidateComplete => Sys2Proof.Machine.execInvalidateComplete s
  | .regionInstall n => Sys2Proof.Machine.execRegionInstall n s
  | .regionRemove n => Sys2Proof.Machine.execRegionRemove n s
  | .xlpoolWrite v => Sys2Proof.Machine.execXlpoolWrite v s
  | .memoryServiceCollapse gid => Sys2Proof.Machine.execMemoryServiceCollapse gid s
  | .requestTimeout op part => Sys2Proof.Machine.execRequestTimeout op part s
  | .flitReceive port ok body => Sys2Proof.Machine.execFlitReceive port ok body s
  | .portEnable p => Sys2Proof.Machine.execPortEnable p s
  | .portDisable p => Sys2Proof.Machine.execPortDisable p s
  | .peerDetect p peer => Sys2Proof.Machine.execPeerDetect p peer s
  | .trainingComplete p => Sys2Proof.Machine.execTrainingComplete p s
  | .trainingFail p badKey => Sys2Proof.Machine.execTrainingFail p badKey s
  | .lossOfLock p => Sys2Proof.Machine.execLossOfLock p s
  | .keyExchange p sending peer => Sys2Proof.Machine.execKeyExchange p sending peer s
  | .rekey p => Sys2Proof.Machine.execRekey p s
  | .rekeyIntervalExpiry p => Sys2Proof.Machine.execRekeyIntervalExpiry p s
  | .rekeyMarkerResend p => Sys2Proof.Machine.execRekeyMarkerResend p s
  | .rekeyComplete p => Sys2Proof.Machine.execRekeyComplete p s
  | .orderlyReset die => Sys2Proof.Machine.execOrderlyReset die s
  | .resetComplete die => Sys2Proof.Machine.execResetComplete die s
  | .lostmapClear n v => Sys2Proof.Machine.execLostmapClear n v s
  | .hostDataRead addr n => Sys2Proof.Machine.execHostDataRead addr n s
  | .hostDataWrite addr bytes => Sys2Proof.Machine.execHostDataWrite addr bytes s
  | .hostTagRead addr => Sys2Proof.Machine.execHostTagRead addr s
  | .hostTagWrite addr v => Sys2Proof.Machine.execHostTagWrite addr v s
  | .attestReport => Sys2Proof.Machine.execAttestReport s
  | .attestCertChain => Sys2Proof.Machine.execAttestCertChain s
  | .ptcCorrection die slew => Sys2Proof.Machine.execPtcCorrection die slew s
  | .timeExchange p t1 t2 t3 t4 news => Sys2Proof.Machine.execTimeExchange p t1 t2 t3 t4 news s
  | .timeSyncLost badSource => Sys2Proof.Machine.execTimeSyncLost badSource s
  | .ptcsetWrite v => Sys2Proof.Machine.execPtcsetWrite v s
  | .uncorrectableError site => Sys2Proof.Machine.execUncorrectableError site s
  | .correctableError unit dpa => Sys2Proof.Machine.execCorrectableError unit dpa s
  | .patrolRead => Sys2Proof.Machine.execPatrolRead s
  | .powerThrottle slots watts => Sys2Proof.Machine.execPowerThrottle slots watts s
  | .monitorClear m => Sys2Proof.Machine.execMonitorClear m s
  | .monitorTick => Sys2Proof.Machine.execMonitorTick s
  | .powerOn boot => Sys2Proof.Machine.execPowerOn boot s
  | .registerWrite off v => Sys2Proof.Machine.execRegisterWrite off v s

end Sys2Proof.Machine
end

