-- ==== Sys2Proof/Machine/Step.lean ====
section
/-!
DEFINITION. One step: the oldest planned event, once it can come about; else the next word of a running clause; else
one of the turns that can come about; else time passes.
-/

namespace Sys2Proof.Machine

/-- The word that runs next in group `gid`, decoded and executed. -/
def stepWord (s : State) (gid : Nat) : Out :=
  match s.envOf gid with
  | none => .refused .noRunningClause
  | some e =>
    match e.instr? with
    | .ok i => exec i { s with focus := gid }
    | .error d => .refused (.badWord d)

/-- A turn taken. -/
def takeTurn (s : State) (t : Turn) : Out :=
  match t with
  | .event i => exec i s
  | .word gid => stepWord ((s.unblock gid).takePipe gid) gid
  | .correct die => execPtcCorrection die 1 s
  | .syncLost bad => execTimeSyncLost bad s

/-- The first of some turns that is not refused; else nothing but time. -/
def tryTurns (s : State) : List Turn → Out
  | [] => .next s
  | t :: ts =>
    match takeTurn s t with
    | .refused _ => tryTurns s ts
    | r => r

/-- The running word, or a turn. -/
def stepFree (s : State) : Out :=
  match s.runner false with
  | some gid => stepWord (s.takePipe gid) gid
  | none => tryTurns s s.turns

/-- One step of the machine. -/
def step (s0 : State) : Out :=
  let s := s0.tick
  match s.agenda with
  | [] => stepFree s
  | i :: is =>
    match exec i { s with agenda := is } with
    | .refused .eventNotEnabled => stepFree s
    | r => r

/-- The state with an instruction stored where the step fetches its next one: as the one word of a clause that has
started in a fresh group (log 1). -/
def State.withFetchWord (s : State) (nbits w : Nat) : State := s.placeWord (BitVec.ofNat 64 (w % 2 ^ nbits))

end Sys2Proof.Machine
end

