-- ==== Sys2Proof/Safety.lean ====
section
/-!
DEFINITION. What counts as a safe run, and the terms that the statements about single words and steps are put in: how a
word completes in order, what a result writes, how a command is accepted, and what a step leaves alone.
-/

namespace Sys2Proof

/-- A step's outcome is a next state. -/
def Machine.isNext : Machine.Out → Bool
  | .next _ => true
  | .fault _ => false
  | .refused _ => false

/-- The machine runs `n` steps from `s` without a fault or a refusal. -/
def Safe (n : Nat) (s : Machine.State) : Prop := Machine.isNext (core.run n s) = true

/-- The value of a number. -/
def Fp.value : Fp → ℚ
  | .fin neg m e => (if neg then -1 else 1) * m * 2 ^ e
  | _ => 0

/-- A number, neither infinity nor NaN. -/
def Fp.finite (a : Fp) : Prop := a.isNan = false ∧ a.isInf = false

namespace Machine

/-! ## Words that complete in order -/

/-- A group but for what the sequence of its clauses changes: its clause, LPCs, completion flags and scheduling. -/
def Group.kept (g : Group) : Group :=
  { g with run := none, lpc := [], flags := 0, st := .ready, since := none, jumped := 0, order := 0 }

/-- A group but for its place in the issue list. -/
def Group.unplaced (g : Group) : Group := { g with order := 0 }

/-- Nothing but the groups differs, and of the groups other than the one at the focus only their places in the issue
list. -/
structure OnlyFocus (s t : State) : Prop where
  rest : t = { s with groups := t.groups }
  others : ∀ i, i ≠ s.focus → (t.group? i).map Group.unplaced = (s.group? i).map Group.unplaced

/-- The running word of `e` has completed in order and left its group as `h`, but for the sequence of its clauses: of
the completion flags, only those that the clause sets can have changed (02 R31). -/
structure Done (s : State) (e : Env) (t : State) (h : Group) : Prop where
  only : OnlyFocus s t
  own : ∃ u, t.group? s.focus = some u ∧ u.kept = h.kept ∧
    u.flags &&& ~~~setMask e.r.hdr = e.g.flags &&& ~~~setMask e.r.hdr

/-- `h` is `g` after one result in the lanes `ex` (02 R38, R40, R42, 03 R74): a push in which the other lanes repeat
their q0, and the destination, a window in every lane of `ex` or a scalar from the lowest. -/
structure Wrote (g h : Group) (ex : W32) (d : Dst) (wide : Bool) (v : Nat → W64) : Prop where
  newest : ∀ l, l < 32 → h.age 0 l = if ex.getLsbD l then v l else g.age 0 l
  older : ∀ a l, a < 15 → h.age (a + 1) l = g.age a l
  win : ∀ n w l, w < 9 → l < 32 → h.winWord n w l =
    if d = .w n ∧ ex.getLsbD l = true ∧ w = 0 then (v l).setWidth 32
    else if d = .w n ∧ ex.getLsbD l = true ∧ w = 1 ∧ wide = true then (v l).extractLsb' 32 32
    else g.winWord n w l
  scal : ∀ n : BitVec 6, Store.read h.scal n.toNat =
    match lowestLane ex with
    | some l => if d = .s n then v l else Store.read g.scal n.toNat
    | none => Store.read g.scal n.toNat
  rest : { h with queue := g.queue, win := g.win, scal := g.scal, pushes := g.pushes } = g

/-- Instruction `i` completes in order, its one result being `v` in the executing lanes of mask `k`. -/
def Completes (s : State) (e : Env) (i : Instr) (k : BitVec 3) (d : Dst) (wide : Bool) (v : Nat → W64) : Prop :=
  ∃ t h, exec i s = .next t ∧ Done s e t h ∧ Wrote e.g h (e.lanes k) d wide v

/-- Instruction `i` completes in order and leaves its group as `h`. -/
def CompletesAs (s : State) (e : Env) (i : Instr) (h : Group) : Prop := ∃ t, exec i s = .next t ∧ Done s e t h

/-- The lane whose outcome decides the LPC that an active lane takes: under the elect bit, the elected one (02 R31). -/
def Env.decider (e : Env) (l : Nat) : Nat := if e.r.hdr.elect then (lowestLane e.r.lanes).getD 0 else l

/-- The clause of `e` has ended with a control transfer (03 R67): every active lane has its new LPC, the other lanes
keep theirs, and the group is otherwise `h`. -/
structure Transferred (s : State) (e : Env) (t : State) (h : Group) (target : Nat → BitVec 48) : Prop where
  only : OnlyFocus s t
  own : ∃ u, t.group? s.focus = some u ∧ u.kept = h.kept ∧ u.run = none ∧
    u.flags &&& ~~~setMask e.r.hdr = e.g.flags &&& ~~~setMask e.r.hdr ∧
    ∀ l, l < 32 → Store.read u.lpc l = if e.r.lanes.getLsbD l then target l else Store.read e.g.lpc l

/-- A control transfer to `target` in the executing lanes of mask `k`, the other active lanes falling through. -/
def Transfers (s : State) (e : Env) (i : Instr) (k : BitVec 3) (h : Group) (target : Nat → BitVec 48) : Prop :=
  ∃ t, exec i s = .next t ∧ Transferred s e t h fun l =>
    if (e.lanes k).getLsbD (e.decider l) then target (e.decider l) else e.r.fall

/-! ## Floating point -/

/-- The lanes of `ex` that raise an exception which their FPST enables (04 R116). -/
def Env.fpTrap (e : Env) (ex : W32) (x : Nat → W32) : Prop :=
  ∃ l, l < 32 ∧ ex.getLsbD l = true ∧ x l &&& (Store.read e.g.fpst l >>> 5) &&& 0x1F ≠ 0

/-- Every lane of `ex` has its exceptions added to its FPST; nothing else of FPST changes (04 R115). -/
def Raised (g : Group) (fpst : Store 32) (ex : W32) (x : Nat → W32) : Prop :=
  ∀ l, l < 32 → Store.read fpst l = if ex.getLsbD l then Store.read g.fpst l ||| x l else Store.read g.fpst l

/-- A floating-point instruction with `v` as the result and the exceptions of a lane.  Where no executing lane raises an
exception that its FPST enables, the results are written and the exceptions raised.  Otherwise the exceptions are raised,
nothing is written, and the group parks with cause 3 and the lanes that trapped (04 R116). -/
def FpWord (s : State) (e : Env) (i : Instr) (k : BitVec 3) (d : Dst) (wide : Bool) (v : Nat → W64 × W32) : Prop :=
  let ex := e.lanes k
  let x := fun l => (v l).2
  (¬e.fpTrap ex x → ∃ t h, exec i s = .next t ∧ Done s e t h ∧ Raised e.g h.fpst ex x ∧
    Wrote { e.g with fpst := h.fpst } h ex d wide fun l => (v l).1) ∧
  (e.fpTrap ex x → ∃ g f, exec i s = parkWord s e g f ∧ { g with fpst := e.g.fpst } = e.g ∧ Raised e.g g.fpst ex x ∧
    f.cause = 3 ∧ ∀ l, l < 32 → f.lanes.getLsbD l =
      (ex.getLsbD l && decide (x l &&& (Store.read e.g.fpst l >>> 5) &&& 0x1F ≠ 0)))

/-! ## Variable-length floating point -/

/-- The lanes of `ex` that raise a condition which their PREC enables (05 R146). -/
def Env.vlfTrap (e : Env) (ex : W32) (x : Nat → W32) : Prop :=
  ∃ l, l < 32 ∧ ex.getLsbD l = true ∧ x l &&& precEnables (e.precOf l) ≠ 0

/-- What a variable-length instruction does where an executing lane raises a condition which its PREC enables: the
conditions are raised, nothing is written, and the group parks, with cause 4 when an enabled CF or WF is among them and
cause 5 otherwise (05 R147, R148). -/
def VlfTraps (s : State) (e : Env) (i : Instr) (k : BitVec 3) (x : Nat → W32) : Prop :=
  e.vlfTrap (e.lanes k) x → ∃ g f, exec i s = parkWord s e g f ∧ { g with fpst := e.g.fpst } = e.g ∧
    Raised e.g g.fpst (e.lanes k) x ∧
    (∀ l, l < 32 → f.lanes.getLsbD l = ((e.lanes k).getLsbD l && decide (x l &&& precEnables (e.precOf l) ≠ 0))) ∧
    ((∃ l, l < 32 ∧ (e.lanes k).getLsbD l = true ∧ x l &&& precEnables (e.precOf l) &&& (xCF ||| xWF) ≠ 0) →
      f.cause = 4) ∧
    ((∀ l, l < 32 → (e.lanes k).getLsbD l = true → x l &&& precEnables (e.precOf l) &&& (xCF ||| xWF) = 0) → f.cause = 5)

/-- A variable-length instruction with a window for its result: `r` is the result of a lane.  Words above a result keep
their contents, and nothing is pushed (05 R144, R145). -/
def VlfWord (s : State) (e : Env) (i : Instr) (k : BitVec 3) (d : BitVec 5) (r : Nat → VLane) : Prop :=
  (¬e.vlfTrap (e.lanes k) (fun l => (r l).out.exc) → e.limbCap d ≤ 8 → ∃ t h, exec i s = .next t ∧ Done s e t h ∧
    Raised e.g h.fpst (e.lanes k) (fun l => (r l).out.exc) ∧ { h with win := e.g.win, fpst := e.g.fpst } = e.g ∧
    ∀ n w l, w < 9 → l < 32 → h.winWord n w l =
      if n = d ∧ (e.lanes k).getLsbD l = true then (r l).out.words.getD w (e.g.winWord n w l) else e.g.winWord n w l) ∧
  VlfTraps s e i k fun l => (r l).out.exc

/-- A variable-length instruction with an ordinary result, which is pushed (05 R145). -/
def VlfToLane (s : State) (e : Env) (i : Instr) (k : BitVec 3) (d : Dst) (wide : Bool) (v : Nat → W64 × W32) : Prop :=
  (¬e.vlfTrap (e.lanes k) (fun l => (v l).2) → ∃ t h, exec i s = .next t ∧ Done s e t h ∧
    Raised e.g h.fpst (e.lanes k) (fun l => (v l).2) ∧
    Wrote { e.g with fpst := h.fpst } h (e.lanes k) d wide fun l => (v l).1) ∧
  VlfTraps s e i k fun l => (v l).2

/-! ## Words that are accepted as commands -/

/-- The running word of `e` has been accepted as the command `o` (01 R16, R17), the newest of all; the group is `h` but
for the sequence of its clauses, and nothing else differs. -/
structure Accepted (s : State) (e : Env) (t : State) (o : Op) (h : Group) : Prop where
  rest : t = { s with groups := t.groups, ops := s.ops ++ [o], nextId := s.nextId + 1 }
  others : ∀ i, i ≠ s.focus → (t.group? i).map Group.unplaced = (s.group? i).map Group.unplaced
  own : ∃ u, t.group? s.focus = some u ∧ u.kept = h.kept ∧
    u.flags &&& ~~~setMask e.r.hdr = e.g.flags &&& ~~~setMask e.r.hdr

/-- What a command record takes from the word it was issued by (01 R17). -/
def Op.ofWord (o : Op) (s : State) (e : Env) (i : Instr) (ex : W32) : Prop :=
  o.id = s.nextId ∧ o.gid = s.focus ∧ o.core = e.t.core ∧ o.clause = e.r.addr ∧ o.word = BitVec.ofNat 5 e.r.idx ∧
    o.run = BitVec.ofNat 5 e.r.runNo ∧ o.instr = i ∧ o.ex = ex ∧ o.fault = none ∧ o.at_ = s.ctl.ptc

/-- A command that is not bound to a flag is accepted; the group is unchanged. -/
def Issues (s : State) (e : Env) (i : Instr) (ex : W32) (P : Op → Prop) : Prop :=
  ∃ t o, exec i s = .next t ∧ Accepted s e t o e.g ∧ o.ofWord s e i ex ∧ o.flag = none ∧ P o

/-- A flag-bound command without a pushed result is accepted and bound to the word's flag (01 R18). -/
def IssuesFlag (s : State) (e : Env) (i : Instr) (ex : W32) (P : Op → Prop) : Prop :=
  ∃ t o, exec i s = .next t ∧ Accepted s e t o e.g ∧ o.ofWord s e i ex ∧ o.flag = some e.r.flag ∧ P o

/-- A flag-bound command with a pushed result is accepted: the push ages the queue at issue, and its entry keeps the old
contents until the command completes (01 R21, 02 R39). -/
def IssuesPush (s : State) (e : Env) (i : Instr) (ex : W32) (P : Op → Prop) : Prop :=
  ∃ t o h, exec i s = .next t ∧ Accepted s e t o h ∧ Wrote e.g h 0 .queue false (fun _ => 0) ∧ o.ofWord s e i ex ∧
    o.flag = some e.r.flag ∧ o.pushAt = e.g.pushes + 1 ∧ P o

/-- The parts of a command are one access of `n` bytes in each executing lane, at the lane's address, not yet
performed. -/
def LaneEach (o : Op) (sp : Space) (addr : Nat → W64) (n : Nat) : Prop :=
  ∀ l, l < 32 → (o.parts.filter fun p => p.lane == l) =
    if o.ex.getLsbD l then [newPart l sp (addr l) 0 n .waiting] else []

/-- The same, each lane's address being its captured operand A. -/
def OneEach (o : Op) (sp : Space) (addr : Nat → W64) (n : Nat) : Prop :=
  LaneEach o sp addr n ∧ ∀ l, l < 32 → o.ex.getLsbD l = true → o.cap 0 l = addr l

/-! ## Parks -/

/-- A park of the running word's group goes to the host's debugger, and the context area lies in its die (14
R390, 15 R403). -/
def Env.debugged (s : State) (e : Env) : Prop :=
  e.gr.serves = none ∧ (s.queue e.gr.queue).ctl.getLsbD 8 = true ∧ s.samplerBusy s.focus = false ∧
    s.ctxFits = true

/-- A group as a park leaves it: out of the pipe, with nothing else of it changed. -/
def Group.parkedWith (g : Group) (p : ParkRec) : Group :=
  { g with st := .parked, park := some p, run := g.run.map Run.leavePipe, since := none, fetch := none, hung := false }

/-- The running word has parked its group for the host's debugger: the group is as it was but for its state, and the park
names the word, its clause, the cause, the detail and the cause's record (14 R390, R391). -/
def HostParksWith (s : State) (e : Env) (i : Instr) (cause detail : BitVec 8) (record : List Byte) : Prop :=
  ∃ t p, exec i s = .next t ∧ t.group? s.focus = some (e.g.parkedWith p) ∧
    p.cause = cause ∧ p.detail = detail ∧ p.record = record ∧ p.word = BitVec.ofNat 5 e.r.idx ∧
    p.run = BitVec.ofNat 5 e.r.runNo ∧ p.issuing = e.r.addr ∧ p.lpcs = e.g.lpc ∧ p.route = .host e.gr.queue

/-- The same, whatever the record. -/
def HostParks (s : State) (e : Env) (i : Instr) (cause detail : BitVec 8) : Prop :=
  ∃ record, HostParksWith s e i cause detail record

/-- The RW fields of a group are those of the image at `d` (14 Table 14.11): queue, scalars, masks, live set, loop counters
by the rule of LCSET (03 R106), carry, PREC, FPST and windows.  Its LPCs stand apart, since a skip moves them on. -/
structure Reloaded (u : State) (d : Nat) (gr : Grid) (h : Group) : Prop where
  queue : ∀ a l, a < 16 → l < 32 → h.age a l = BitVec.ofNat 64 (u.le (d + 0x440 + 256 * a + 8 * l) 8)
  scal : ∀ n, n < 64 → Store.read h.scal n = BitVec.ofNat 64 (u.le (d + 0x1440 + 8 * n) 8)
  masks : ∀ n, n < 7 → Store.read h.masks (n + 1) = BitVec.ofNat 32 (u.le (d + 0x1640 + 4 * n) 4)
  live : h.live = BitVec.ofNat 32 (u.le (d + 0x165C) 4)
  loops : ∀ n, n < 4 →
    let v := u.le (d + 0x1660 + 4 * n) 1
    let m := u.le (d + 0x1660 + 4 * n + 1) 1
    let ring := if m = 0 ∨ 32 < m then 32 else m
    (h.lc (BitVec.ofNat 2 n)).ring.toNat = ring ∧ (h.lc (BitVec.ofNat 2 n)).val.toNat = v % ring
  carry : h.carry = BitVec.ofNat 64 (u.le (d + 0x1670) 8)
  prec : ∀ l, l < 32 → (Store.read h.prec l).toNat = u.le (d + 0x1680 + 4 * l) 3
  fpst : ∀ l, l < 32 → (Store.read h.fpst l).toNat = u.le (d + 0x1700 + 4 * l) 2 % 4096
  win : ∀ n w l, n < 32 → w < gr.ko.caps.getD n 0 → l < 32 → h.winWord (BitVec.ofNat 5 n) w l =
    BitVec.ofNat 32 (u.le (d + 0x1780 + 128 * ((gr.ko.caps.take n).foldl (· + ·) 0 + w) + 4 * l) 4)

/-! ## Rounding (02 R54) -/

/-- `y` is `x` rounded under a mode to a multiple of the unit `u`: 02 Table 2.11, 05 Table 5.4. -/
def Rounds (mode : RMode) (x u y : ℚ) : Prop :=
  (∃ k : ℤ, y = k * u) ∧ |y - x| < u ∧
  match mode with
  | .rne => |y - x| ≤ u / 2 ∧ (|y - x| = u / 2 → ∃ k : ℤ, y = 2 * k * u)
  | .rna => |y - x| ≤ u / 2 ∧ (|y - x| = u / 2 → |x| ≤ |y|)
  | .rtz => |y| ≤ |x|
  | .rup => x ≤ y
  | .rdn => y ≤ x
  | .rto => y ≠ x → ∃ k : ℤ, y = (2 * k + 1) * u

/-- The bits `b` and exceptions `exc` are those of the exact result `x`, other than 0, rounded once into a format with
ftz = 0 (04 R110, R111): its value rounded to the last place of its binade, or of the subnormals; inexact when that is not
`x`; underflow when it is inexact and tiny; beyond the largest finite value an infinity or that value, with overflow and
inexact. -/
def RoundedOnce (f : Fmt) (mode : RMode) (x : ℚ) (b : Nat) (exc : W32) : Prop :=
  ∀ e : ℤ, (2 : ℚ) ^ e ≤ |x| → |x| < (2 : ℚ) ^ (e + 1) →
    ∃ y z : ℚ, Rounds mode x ((2 : ℚ) ^ (max e f.emin - f.fb)) y ∧ Rounds mode x ((2 : ℚ) ^ (e - f.fb)) z ∧
      (|z| < (2 : ℚ) ^ (f.bias + 1) →
        (∃ m k, f.unpack b = .fin (decide (x < 0)) m k) ∧ (f.unpack b).value = y ∧
        exc = (if y = x then 0 else if |z| < (2 : ℚ) ^ f.emin then xUF ||| xNX else xNX)) ∧
      ((2 : ℚ) ^ (f.bias + 1) ≤ |z| → exc = xOF ||| xNX ∧
        let toInf := match mode with
          | .rne | .rna => true
          | .rtz | .rto => false
          | .rup => decide (0 < x)
          | .rdn => decide (x < 0)
        b = if toInf then f.infBits (decide (x < 0)) else f.maxBits (decide (x < 0)))

/-- The words and conditions of a variable-length result `x`, other than 0, delivered under PREC `p` into a window of `cap`
limbs (05 R139): its value rounded once to the working length, or to what the window holds, with WF. -/
def VlfRoundedOnce (p : W32) (cap : Nat) (x : ℚ) (out : VOut) : Prop :=
  let wr := if limbsOf (workLen p) ≤ cap then workLen p else 32 * cap
  (out.exc &&& xWF ≠ 0 ↔ cap < limbsOf (workLen p)) ∧
  ∀ e : ℤ, (2 : ℚ) ^ e ≤ |x| → |x| < (2 : ℚ) ^ (e + 1) →
    ∃ y : ℚ, Rounds (precMode p) x ((2 : ℚ) ^ (e + 1 - wr)) y ∧
      ((2 : ℚ) ^ vlfEmin ≤ |y| → |y| < (2 : ℚ) ^ (vlfEmax + 1) →
        out.words.length = 1 + limbsOf wr ∧
        (vlfValue 8 (out.words.getD 0 0) (out.words.drop 1)).finite ∧
        (vlfValue 8 (out.words.getD 0 0) (out.words.drop 1)).value = y ∧
        out.exc &&& (xOF ||| xUF ||| xNX) = if y = x then 0 else xNX) ∧
      ((2 : ℚ) ^ (vlfEmax + 1) ≤ |y| → out.words = vlfOverflow (decide (x < 0)) wr (precMode p) ∧
        out.exc &&& (xOF ||| xUF ||| xNX) = xOF ||| xNX) ∧
      (|y| < (2 : ℚ) ^ vlfEmin → out.words = vlfSpecial (.fin (decide (x < 0)) 0 0) (limbsOf wr) ∧
        out.exc &&& (xOF ||| xUF ||| xNX) = xUF ||| xNX)

/-! ## The service log (15 R404, Table 15.3) -/

/-- The log's ring, its entries, and whether it has room for `n` more. -/
def State.logRing (s : State) : Nat := mkDpa s.device (fld s.ctl.svclogb 38 38) (fld s.ctl.svclogb 37 12 * 4096)
def State.logSize (s : State) : Nat := 2 ^ s.logOrder
def State.logRoom (s : State) (n : Nat) : Prop :=
  s.logOrder ≠ 0 ∧ ∀ i, i < n → (s.ctl.svctail + BitVec.ofNat 32 i - s.ctl.svchead).toNat ≠ s.logSize

/-- The place of the `k`th entry from now. -/
def State.logAt (s : State) (k : Nat) : Nat :=
  s.logRing + 32 * ((s.ctl.svctail + BitVec.ofNat 32 k).toNat % s.logSize)

/-- Memory holds a log entry at a place. -/
def State.logged (t : State) (at_ kind detail addr arg : Nat) : Prop :=
  t.le at_ 1 = kind ∧ t.le (at_ + 1) 1 = detail ∧ t.le (at_ + 16) 8 = addr ∧ t.le (at_ + 24) 8 = arg

/-- Some bytes and the log's ring do not meet. -/
def State.offLog (s : State) (lo hi : Nat) : Prop := hi ≤ s.logRing ∨ s.logRing + 32 * s.logSize ≤ lo

/-! ## Queue entries and nodes -/

/-- The slot of the entry at QHEAD, and its key. -/
def State.entrySlot (s : State) (q : Nat) : Nat := (s.queue q).head.toNat % (s.queue q).size.toNat
def State.entryKey (s : State) (q : Nat) : Nat := s.slotKey (s.queue q) (s.entrySlot q)

/-- A live queue has at QHEAD a whole entry `b` of an operation, in format 1 or 2, that breaks no rule of 14 Table 14.4
and has its turn. -/
structure EntryReady (s : State) (q op fmt : Nat) (b : List Byte) : Prop where
  live : s.queueLive q = true
  size : queueSizeOk (s.queue q).size = true
  ctl : queueCtlBad (s.queue q).ctl = false
  format : fmt = 1 ∨ fmt = 2
  there : fmt ≤ ((s.queue q).tail.setWidth 32 - (s.queue q).head).toNat
  whole : fmt = 2 → s.entrySlot q + 1 ≠ (s.queue q).size.toNat
  fits : dpaOff (s.entryKey q) + 64 * fmt ≤ dieBytes
  clean : ∀ i, i < fmt → s.poisoned (s.entryKey q + 64 * i) = false ∧ (s.dirOf (s.entryKey q + 64 * i)).owner = none
  bytes : b = s.bytes (s.entryKey q) (64 * fmt)
  head : s.le (s.entryKey q) 1 = 16 * fmt + op
  good : entryBad op fmt b = false
  turn : entryNat b 1 1 = 1 → (s.started.any fun x => x.queue == q) = false

/-- Every node of every graph has a team resident, but for present nodes and the node named: no start takes the room that
14 R381 keeps. -/
def State.nodesHoused (s : State) (but : Option (Nat × Nat)) : Prop :=
  ∀ h ∈ s.graphs, ∀ i n, h.nodes[i]? = some n → n.type = 4 ∨ but = some (h.id, i) ∨
    ∃ t ∈ s.teams, ∃ g, t.resident = true ∧ s.grid? t.grid = some g ∧ g.node = some (h.id, i)

/-! ## Bit fields -/

/-- `v` is bits `[p + n - 1 : p]` of the pattern of `a`, read as the type says: no bits at or above the width, a field
wider than the type cut to it, the sign extended for I types (03 R89). -/
def ExtractsField (t : IntTy) (a : W64) (p n : Nat) (v : W64) : Prop :=
  let m := min n t.width
  let f := if t.width ≤ p then 0 else t.pat a / 2 ^ p % 2 ^ m
  v = t.fix false (if t.signed = true ∧ 0 < m ∧ 2 ^ (m - 1) ≤ f then (f : Int) - 2 ^ m else f)

/-- `v` is the pattern of `a` with bits `[p + n - 1 : p]` replaced by the low bits of `b`, bits at or above the width
dropped (03 R90). -/
def InsertsField (t : IntTy) (a b : W64) (p n : Nat) (v : Nat) : Prop :=
  v < 2 ^ t.width ∧ ∀ i, i < t.width → v.testBit i =
    if p < t.width ∧ p ≤ i ∧ i < p + min n t.width then b.getLsbD (i - p) else (t.pat a).testBit i

end Machine

end Sys2Proof
end

