-- ==== Sys2Proof/Certificates/Slice0/Obligations.lean ====
section
/-!
DEFINITION. The statements for the provers.  Each quantifies over every state; the hypotheses are conditions on the
state and the operands alone.  `s.envOf s.focus = some e` says that the group at the focus runs a word, `e` being the
group, its clause, its team and its grid.
-/

open Sys2Proof Sys2Proof.Machine

/-! ## The lane engine: integers (chapter 03) -/

/-- 03 R82, Table 3.3: each integer arithmetic instruction completes, and writes fix of the exact result in every
executing lane; division by zero gives all ones and leaves the dividend as the remainder. 03 R79: fix(x, t) reads back, as
type t, as x clamped to the range of t with sat, and as the integer of that range congruent to x modulo 2^w(t) without; a
narrow type's result is extended to 32 bits, by its sign or by zeros, and a result of any type but the 64-bit ones has
zeros above bit 31. -/
def Obligations.IntegerArithmetic : Prop :=
  (∀ (t : IntTy) (sat : Bool) (x : Int),
    let v := t.fix sat x
    t.min ≤ t.toInt v ∧ t.toInt v ≤ t.max ∧
    (sat = true → t.toInt v = max t.min (min x t.max)) ∧
    (sat = false → t.toInt v % 2 ^ t.width = x % 2 ^ t.width) ∧
    (∀ i, t.width ≤ i → i < 32 → v.getLsbD i = (t.signed && v.getLsbD (t.width - 1))) ∧
    (t.width < 64 → v.toNat < 2 ^ 32)) ∧
  ∀ (s : State) (e : Env), s.envOf s.focus = some e →
    (∀ x : IBin,
      let a := fun l => x.t.toInt (e.src (tyWide x.t) x.a l)
      let b := fun l => x.t.toInt (e.opd (tyWide x.t) x.b l)
      let w := tyWide x.t
      Completes s e (.iadd x) x.k x.d w (fun l => x.t.fix x.sat (a l + b l)) ∧
      Completes s e (.isub x) x.k x.d w (fun l => x.t.fix x.sat (a l - b l)) ∧
      Completes s e (.imul x) x.k x.d w (fun l => x.t.fix x.sat (a l * b l)) ∧
      Completes s e (.imulh x) x.k x.d w (fun l => x.t.fix x.sat (Int.fdiv (a l * b l) (2 ^ x.t.width))) ∧
      Completes s e (.idiv x) x.k x.d w (fun l => x.t.fix x.sat
        (if b l = 0 then (if x.t.signed then -1 else 2 ^ x.t.width - 1) else Int.tdiv (a l) (b l))) ∧
      Completes s e (.irem x) x.k x.d w (fun l => x.t.fix x.sat
        (if b l = 0 then a l else a l - b l * Int.tdiv (a l) (b l))) ∧
      Completes s e (.imin x) x.k x.d w (fun l => x.t.fix x.sat (min (a l) (b l))) ∧
      Completes s e (.imax x) x.k x.d w (fun l => x.t.fix x.sat (max (a l) (b l)))) ∧
    (∀ x : ITer,
      let v := fun f l => x.t.toInt (e.src (tyWide x.t) f l)
      Completes s e (.imad x) x.k x.d (tyWide x.t) (fun l => x.t.fix x.sat (v x.a l * v x.b l + v x.c l))) ∧
    (∀ x : IUn,
      let a := fun l => x.t.toInt (e.src (tyWide x.t) x.a l)
      Completes s e (.iabs x) x.k x.d (tyWide x.t) (fun l => x.t.fix x.sat |a l|) ∧
      Completes s e (.ineg x) x.k x.d (tyWide x.t) (fun l => x.t.fix x.sat (-a l)))

/-- 04 R110, R111, R113, 05 R139: the results that the floating-point statements name. On numbers of a scalar type, with ftz
= 0, FADD, FSUB, FMUL, FFMA and FDIV deliver the exact result rounded once, with its exceptions; an exact zero sum has the
sign of its operands where they agree, and else is -0 under RDN and +0 under the other modes; a zero product has the
exclusive-or of the signs; a packed type's elements are computed independently. VADD, VSUB, VMUL, VFMA and VDIV on
numbers of at most eight limbs deliver theirs rounded once to the working length of an acceptable PREC, or to what the
window holds. -/
def Obligations.FloatRounding : Prop :=
  (∀ (t : FpTy) (r : Rnd) (a b c : W64), t ≠ .f16x2 → t ≠ .bf16x2 →
    let num := fun (v : W64) => t.fmt.unpack (v.toNat % 2 ^ t.fmt.width)
    let once := fun (x : ℚ) (v : W64 × W32) => v.1.toNat < 2 ^ t.fmt.width ∧ RoundedOnce t.fmt r.mode x v.1.toNat v.2
    let zero := fun (neg : Bool) (v : W64 × W32) => v = (BitVec.ofNat 64 (t.fmt.signBit neg), 0)
    let x := (num a).value
    let y := (num b).value
    let z := (num c).value
    let sums := fun (sa sb : Bool) => if sa = sb then sa else r == .rdn
    (num a).finite → (num b).finite → (num c).finite →
      (x + y ≠ 0 → once (x + y) (faddVal t r false a b)) ∧
      (x + y = 0 → zero (sums (num a).sign (num b).sign) (faddVal t r false a b)) ∧
      (x - y ≠ 0 → once (x - y) (fsubVal t r false a b)) ∧
      (x - y = 0 → zero (sums (num a).sign (!(num b).sign)) (fsubVal t r false a b)) ∧
      (x * y ≠ 0 → once (x * y) (fmulVal t r false a b)) ∧
      (x * y = 0 → zero ((num a).sign != (num b).sign) (fmulVal t r false a b)) ∧
      (x * y + z ≠ 0 → once (x * y + z) (ffmaVal t r false a b c)) ∧
      (x * y + z = 0 → zero (sums ((num a).sign != (num b).sign) (num c).sign) (ffmaVal t r false a b c)) ∧
      (x ≠ 0 → y ≠ 0 → once (x / y) (fdivVal t r false a b))) ∧
  (∀ (t u : FpTy) (r : Rnd) (ftz : Bool) (a b c : W64), (t = .f16x2 ∧ u = .f16 ∨ t = .bf16x2 ∧ u = .bf16) →
    let lo := fun (v : W64) => BitVec.ofNat 64 (v.toNat % 2 ^ 16)
    let hi := fun (v : W64) => BitVec.ofNat 64 (v.toNat / 2 ^ 16 % 2 ^ 16)
    let both := fun (v l h : W64 × W32) => v.1.toNat = l.1.toNat + 2 ^ 16 * h.1.toNat ∧ v.2 = l.2 ||| h.2
    both (faddVal t r ftz a b) (faddVal u r ftz (lo a) (lo b)) (faddVal u r ftz (hi a) (hi b)) ∧
    both (fsubVal t r ftz a b) (fsubVal u r ftz (lo a) (lo b)) (fsubVal u r ftz (hi a) (hi b)) ∧
    both (fmulVal t r ftz a b) (fmulVal u r ftz (lo a) (lo b)) (fmulVal u r ftz (hi a) (hi b)) ∧
    both (ffmaVal t r ftz a b c) (ffmaVal u r ftz (lo a) (lo b) (lo c)) (ffmaVal u r ftz (hi a) (hi b) (hi c)) ∧
    both (fdivVal t r ftz a b) (fdivVal u r ftz (lo a) (lo b)) (fdivVal u r ftz (hi a) (hi b))) ∧
  ∀ (p : W32) (cap : Nat) (a b c : Fp), precOk p = true → 1 ≤ cap → cap ≤ 8 → a.finite → b.finite → c.finite →
    (∀ neg m e, a = .fin neg m e ∨ b = .fin neg m e ∨ c = .fin neg m e → m < 2 ^ 256) →
    let x := a.value
    let y := b.value
    let z := c.value
    (x + y ≠ 0 → VlfRoundedOnce p cap (x + y) (vaddVal p cap a b).out) ∧
    (x - y ≠ 0 → VlfRoundedOnce p cap (x - y) (vsubVal p cap a b).out) ∧
    (x * y ≠ 0 → VlfRoundedOnce p cap (x * y) (vmulVal p cap a b).out) ∧
    (x * y + z ≠ 0 → VlfRoundedOnce p cap (x * y + z) (vfmaVal p cap a b c).out) ∧
    (x ≠ 0 → y ≠ 0 → VlfRoundedOnce p cap (x / y) (vdivVal p cap a b).out)

/-- 03 R83: IADC and ISBC add and subtract 32-bit numbers with the carry in bit 32 of C, and write 64 bits with the carry
or borrow out in bit 32. -/
def Obligations.CarryArithmetic : Prop :=
  ∀ (s : State) (e : Env), s.envOf s.focus = some e → ∀ x : ITer,
    let a := fun l => ((e.src32 x.a l).toNat : Int)
    let b := fun l => ((e.src32 x.b l).toNat : Int)
    let ci := fun l => (((e.src64 x.c l).toNat / 2 ^ 32 % 2 : Nat) : Int)
    (∃ v : Nat → W64, Completes s e (.iadc x) x.k x.d true v ∧ ∀ l,
      ((v l).toNat : Int) = (if 2 ^ 32 ≤ a l + b l + ci l then 2 ^ 32 else 0) + (a l + b l + ci l) % 2 ^ 32) ∧
    (∃ v : Nat → W64, Completes s e (.isbc x) x.k x.d true v ∧ ∀ l,
      ((v l).toNat : Int) = (if a l - b l - ci l < 0 then 2 ^ 32 else 0) + (a l - b l - ci l) % 2 ^ 32)

/-- 03 R84: ICMP writes a 32-bit 1 or 0, comparing as the type says; ISEL writes a when C, read as N32, is not 0, and b
otherwise. -/
def Obligations.CompareAndSelect : Prop :=
  ∀ (s : State) (e : Env), s.envOf s.focus = some e →
    (∀ x : IBin,
      let a := fun l => x.t.toInt (e.src (tyWide x.t) x.a l)
      let b := fun l => x.t.toInt (e.opd (tyWide x.t) x.b l)
      Completes s e (.icmp .eq x) x.k x.d false (fun l => if a l = b l then 1 else 0) ∧
      Completes s e (.icmp .ne x) x.k x.d false (fun l => if a l = b l then 0 else 1) ∧
      Completes s e (.icmp .lt x) x.k x.d false (fun l => if a l < b l then 1 else 0) ∧
      Completes s e (.icmp .le x) x.k x.d false (fun l => if a l ≤ b l then 1 else 0) ∧
      Completes s e (.icmp .gt x) x.k x.d false (fun l => if b l < a l then 1 else 0) ∧
      Completes s e (.icmp .ge x) x.k x.d false (fun l => if b l ≤ a l then 1 else 0)) ∧
    (∀ x : ITer, Completes s e (.isel x) x.k x.d (tyWide x.t) (fun l =>
      if (e.src32 x.c l) = 0 then x.t.fix false (x.t.toInt (e.src (tyWide x.t) x.b l))
      else x.t.fix false (x.t.toInt (e.src (tyWide x.t) x.a l))))

/-- 03 R85, R86, R87: the logic instructions act on the bits of the w(t)-bit patterns; the shifts read their count as N32.
SHL is fix(a × 2^n), SHRL a logical shift, SHRA the floor of the signed pattern over 2^n, ROTL and FSHL take the count
modulo the width. -/
def Obligations.LogicAndShifts : Prop :=
  ∀ (s : State) (e : Env), s.envOf s.focus = some e →
    (∀ x : IBin,
      let w := tyWide x.t
      let a := fun l => x.t.pat (e.src w x.a l)
      let b := fun l => x.t.pat (e.opd w x.b l)
      let n := fun l => (e.opd false x.b l).toNat
      let put := fun p : Nat → Nat => fun l => x.t.fix false (p l : Int)
      Completes s e (.and x) x.k x.d w (put fun l => a l &&& b l) ∧
      Completes s e (.or x) x.k x.d w (put fun l => a l ||| b l) ∧
      Completes s e (.xor x) x.k x.d w (put fun l => a l ^^^ b l) ∧
      Completes s e (.andn x) x.k x.d w (put fun l => a l &&& (2 ^ x.t.width - 1 - b l)) ∧
      Completes s e (.shl x) x.k x.d w (fun l => x.t.fix x.sat (x.t.toInt (e.src w x.a l) * 2 ^ n l)) ∧
      Completes s e (.shrl x) x.k x.d w (put fun l => a l >>> n l) ∧
      Completes s e (.shra x) x.k x.d w (fun l => x.t.fix false
        ((if 2 ^ (x.t.width - 1) ≤ a l then (a l : Int) - 2 ^ x.t.width else a l) / 2 ^ n l)) ∧
      Completes s e (.rotl x) x.k x.d w (put fun l =>
        (a l <<< (n l % x.t.width)) % 2 ^ x.t.width + a l >>> (x.t.width - n l % x.t.width))) ∧
    (∀ x : IUn, Completes s e (.not x) x.k x.d (tyWide x.t) (fun l =>
      x.t.fix false ((2 ^ x.t.width - 1 - x.t.pat (e.src (tyWide x.t) x.a l) : Nat) : Int))) ∧
    (∀ x : ITer,
      let p := fun f l => x.t.pat (e.src (tyWide x.t) f l)
      Completes s e (.fshl x) x.k x.d (tyWide x.t) (fun l =>
        let n := (e.src32 x.c l).toNat % x.t.width
        x.t.fix false ((((p x.a l * 2 ^ x.t.width + p x.b l) <<< n) >>> x.t.width % 2 ^ x.t.width : Nat) : Int)))

/-- 03 R88: CLZ, CTZ and POPC count, in the w(t)-bit pattern, the leading zeros, the trailing zeros and the ones, as an
N32 result; BREV reverses the pattern. -/
def Obligations.BitCounts : Prop :=
  ∀ (s : State) (e : Env), s.envOf s.focus = some e → ∀ x : IUn,
    let a := fun l => x.t.pat (e.src (tyWide x.t) x.a l)
    let w := x.t.width
    (∃ n : Nat → Nat, Completes s e (.clz x) x.k x.d false (fun l => BitVec.ofNat 64 (n l)) ∧ ∀ l,
      n l ≤ w ∧ (∀ i, w - n l ≤ i → i < w → (a l).testBit i = false) ∧ (n l < w → (a l).testBit (w - 1 - n l) = true)) ∧
    (∃ n : Nat → Nat, Completes s e (.ctz x) x.k x.d false (fun l => BitVec.ofNat 64 (n l)) ∧ ∀ l,
      n l ≤ w ∧ (∀ i, i < n l → (a l).testBit i = false) ∧ (n l < w → (a l).testBit (n l) = true)) ∧
    Completes s e (.popc x) x.k x.d false (fun l =>
      BitVec.ofNat 64 ((Finset.range w).filter fun i => (a l).testBit i = true).card) ∧
    (∃ r : Nat → Nat, Completes s e (.brev x) x.k x.d (tyWide x.t) (fun l => x.t.fix false (r l : Int)) ∧ ∀ l,
      r l < 2 ^ w ∧ ∀ i, i < w → (r l).testBit i = (a l).testBit (w - 1 - i))

/-- 03 R89 to R93: the bit-field extracts and inserts with an immediate or a register field, the bit interleaves and
separations, the byte permute and the byte lookup, each by the bits or bytes of its result. -/
def Obligations.BitFields : Prop :=
  ∀ (s : State) (e : Env), s.envOf s.focus = some e →
    -- BEXT and BEXT.r: bits [p + n - 1 : p], sign-extended for I types; p ≥ w gives 0 and n above w is w
    (∀ (x : IUn) (p : BitVec 7) (n : BitVec 8), ∃ v : Nat → W64, Completes s e (.bext x p n) x.k x.d (tyWide x.t) v ∧
      ∀ l, ExtractsField x.t (e.src (tyWide x.t) x.a l) p.toNat n.toNat (v l)) ∧
    (∀ x : IBin, ∃ v : Nat → W64, Completes s e (.bextR x) x.k x.d (tyWide x.t) v ∧
      ∀ l, ExtractsField x.t (e.src (tyWide x.t) x.a l) ((e.opd false x.b l).toNat % 128)
        ((e.opd false x.b l).toNat / 256 % 128) (v l)) ∧
    -- BINS and BINS.r: a with bits [p + n - 1 : p] replaced by the low bits of b
    (∀ k d a b t (p : BitVec 7) (n : BitVec 8), ∃ v : Nat → Nat,
      Completes s e (.bins k d a b t p n) k d (tyWide t) (fun l => t.fix false (v l : Int)) ∧
      ∀ l, InsertsField t (e.src (tyWide t) a l) (e.src (tyWide t) b l) p.toNat n.toNat (v l)) ∧
    (∀ x : ITer, ∃ v : Nat → Nat, Completes s e (.binsR x) x.k x.d (tyWide x.t) (fun l => x.t.fix false (v l : Int)) ∧
      ∀ l, InsertsField x.t (e.src (tyWide x.t) x.a l) (e.src (tyWide x.t) x.b l) ((e.src32 x.c l).toNat % 128)
        ((e.src32 x.c l).toNat / 256 % 128) (v l)) ∧
    -- BINT.two and BINT.three
    (∀ k d a b t, ∃ v : Nat → Nat, Completes s e (.bint k d a b none t) k d (tyWide t) (fun l => t.fix false (v l : Int)) ∧
      ∀ l, v l < 2 ^ t.width ∧ ∀ i, i < t.width → (v l).testBit i =
        (if i % 2 = 0 then (e.src (tyWide t) a l).getLsbD (i / 2) else (e.src (tyWide t) b l).getLsbD (i / 2))) ∧
    (∀ k d a b c t, ∃ v : Nat → Nat,
      Completes s e (.bint k d a b (some c) t) k d (tyWide t) (fun l => t.fix false (v l : Int)) ∧
      ∀ l, v l < 2 ^ (if t.width = 64 then 63 else 30) ∧ ∀ i, i < (if t.width = 64 then 63 else 30) → (v l).testBit i =
        (e.src (tyWide t) (if i % 3 = 0 then a else if i % 3 = 1 then b else c) l).getLsbD (i / 3)) ∧
    -- BDIN.two and BDIN.three
    (∀ three x (j : BitVec 2), ∃ v : Nat → Nat,
      Completes s e (.bdin three x j) x.k x.d (tyWide x.t) (fun l => x.t.fix false (v l : Int)) ∧
      ∀ l, let m := if three then (if x.t.width = 64 then 21 else 10) else x.t.width / 2
        v l < 2 ^ m ∧ ∀ i, i < m → (v l).testBit i =
          (e.src (tyWide x.t) x.a l).getLsbD ((if three then 3 else 2) * i + j.toNat)) ∧
    -- BPERM, whose one type is N32: result byte i is byte (s mod 8) of a and c, or its sign spread over the byte
    (∀ x : ITer, x.t = .n32 → ∃ v : Nat → W64, Completes s e (.bperm x) x.k x.d false v ∧ ∀ l, (v l).toNat < 2 ^ 32 ∧ ∀ i, i < 4 →
      let sel := (e.src32 x.b l).toNat / 16 ^ i % 16
      let m := sel % 8
      let byte := if m < 4 then (e.src32 x.a l).toNat / 256 ^ m % 256 else (e.src32 x.c l).toNat / 256 ^ (m - 4) % 256
      (v l).toNat / 256 ^ i % 256 = if sel < 8 then byte else if 128 ≤ byte then 255 else 0) ∧
    -- BLUT: result byte i is the table's byte at a nibble of byte i of a
    (∀ hi x, ∃ v : Nat → Nat, Completes s e (.blut hi x) x.k x.d (tyWide x.t) (fun l => x.t.fix false (v l : Int)) ∧
      ∀ l, v l < 2 ^ x.t.width ∧ ∀ i, i < x.t.width / 8 →
        let byte := (e.src (tyWide x.t) x.a l).toNat / 256 ^ i % 256
        let m := if hi then byte / 16 else byte % 16
        v l / 256 ^ i % 256 =
          if m < 8 then (e.src64 x.b l).toNat / 256 ^ m % 256 else (e.src64 x.c l).toNat / 256 ^ (m - 8) % 256)

/-- 03 R94, R95: MOV copies; MOVL writes the literal, sign-extended for I64; MOVL.hi replaces the upper half of what its
destination holds; MOVS gives every executing lane the source of the lane that B names, modulo 32, in the lowest executing
lane. -/
def Obligations.Moves : Prop :=
  ∀ (s : State) (e : Env), s.envOf s.focus = some e →
    (∀ x : IUn, Completes s e (.mov x) x.k x.d (tyWide x.t) (fun l =>
      x.t.fix false (x.t.toInt (e.src (tyWide x.t) x.a l)))) ∧
    (∀ k d v, Completes s e (.movl k d false v) k d false (fun _ => v.setWidth 64)) ∧
    (∀ k d v, Completes s e (.movl k d true v) k d true (fun _ => v.signExtend 64)) ∧
    (∀ k v, Completes s e (.movlHi k .queue v) k .queue true (fun l => v ++ (e.g.age 0 l).setWidth 32)) ∧
    (∀ k n v, Completes s e (.movlHi k (.w n) v) k (.w n) true (fun l => v ++ e.g.winWord n 0 l)) ∧
    (∀ k n v, Completes s e (.movlHi k (.s n) v) k (.s n) true (fun _ => v ++ (Store.read e.g.scal n.toNat).setWidth 32)) ∧
    (∀ (x : IBin) (l0 : Nat), lowestLane (e.lanes x.k) = some l0 →
      Completes s e (.movs x) x.k x.d (tyWide x.t) (fun _ =>
        x.t.fix false (x.t.toInt (e.src (tyWide x.t) x.a ((e.opd false x.b l0).toNat % 32))))) ∧
    (∀ x : IBin, lowestLane (e.lanes x.k) = none → ∃ v, Completes s e (.movs x) x.k x.d (tyWide x.t) v)

/-- 03 R96: each KOP operation writes its mask and nothing else; every form but fromv takes effect when a lane is active,
fromv writes the bits of the executing lanes alone, froms reads the lowest executing lane, and tov is a result. -/
def Obligations.MaskOperations : Prop :=
  ∀ (s : State) (e : Env), s.envOf s.focus = some e → ∀ (k : BitVec 3) (d : Dst) (a : Src) (kd kx ky : BitVec 3),
    let x := if kx = 0 then e.active else Store.read e.g.masks kx.toNat
    let y := if ky = 0 then e.active else Store.read e.g.masks ky.toNat
    let sets := fun (op : KOp) (v : W32) => ∃ m : Store 32,
      CompletesAs s e (.kop op k d a kd kx ky) { e.g with masks := m } ∧
      ∀ n, Store.read m n = if n = kd.toNat ∧ e.active ≠ 0 then v else Store.read e.g.masks n
    sets .kand (x &&& y) ∧ sets .kor (x ||| y) ∧ sets .kxor (x ^^^ y) ∧ sets .kandn (x &&& ~~~y) ∧ sets .knot (~~~x) ∧
    sets .kmov x ∧
    (∃ m : Store 32, CompletesAs s e (.kop .fromv k d a kd kx ky) { e.g with masks := m } ∧
      (∀ n, n ≠ kd.toNat → Store.read m n = Store.read e.g.masks n) ∧
      ∀ l, l < 32 → (Store.read m kd.toNat).getLsbD l =
        if (e.lanes k).getLsbD l then decide (e.src32 a l ≠ 0) else (Store.read e.g.masks kd.toNat).getLsbD l) ∧
    Completes s e (.kop .tov k d a kd kx ky) k d false (fun _ => x.setWidth 64) ∧
    (match lowestLane (e.lanes k) with
     | some l => sets .froms ((e.src32 a l).setWidth 32)
     | none => CompletesAs s e (.kop .froms k d a kd kx ky) e.g)

/-- 03 R106: LCSET and LCADV change their counter once, from the lowest executing lane, when a lane executes, and push
ring × 256 + value. -/
def Obligations.LoopCounters : Prop :=
  ∀ (s : State) (e : Env), s.envOf s.focus = some e → ∀ (k : BitVec 3) (d : Dst) (lc : BitVec 2) (b : Opd),
    let changes := fun (i : Instr) (c : LoopCtr) => ∃ t h, exec i s = .next t ∧ Done s e t h ∧
      Wrote (e.g.setLc lc c) h (e.lanes k) d false (fun _ => BitVec.ofNat 64 (c.ring.toNat * 256 + c.val.toNat))
    match lowestLane (e.lanes k) with
    | some l =>
      let v := (e.opd false b l).toNat
      let ring := if v / 256 % 64 = 0 ∨ 32 < v / 256 % 64 then 32 else v / 256 % 64
      (∃ c, changes (.lcset k d lc b) c ∧ c.ring.toNat = ring ∧ c.val.toNat = v % 32 % ring) ∧
      (∃ c, changes (.lcadv k d lc b) c ∧ c.ring = (e.g.lc lc).ring ∧
        (c.val.toNat : Int) = ((e.g.lc lc).val.toNat + ((e.opd false b l).setWidth 32 : W32).toInt) % (e.g.lc lc).ring.toNat % 32)
    | none => changes (.lcset k d lc b) (e.g.lc lc) ∧ changes (.lcadv k d lc b) (e.g.lc lc)

/-- 02 R31, 03 R97, R98, R99, R101: the control transfers end the clause. BRA and CALL take the header's address plus 8
times the displacement, BRX, CALL.x and RET the low 48 bits of their source; CALL and CALL.x write the fall-through
address; EXIT takes its lanes out of the live set, and a group left with none and with no command outstanding has exited.
03 R100, 02 R47: where a target of BRX, CALL.x or RET is misaligned, no LPC changes and nothing is written: the group parks
with cause 2, and its record has the header's address, the word and the lowest offending lane. -/
def Obligations.ControlTransfers : Prop :=
  ∀ (s : State) (e : Env), s.envOf s.focus = some e → ∀ (k : BitVec 3),
    let fall := e.r.addr + BitVec.ofNat 48 (8 * (e.r.hdr.count + 1))
    (∀ disp, Transfers s e (.bra k disp) k e.g (fun _ => e.r.addr + BitVec.ofInt 48 (8 * disp.toInt))) ∧
    (∀ d disp, ∃ h, Wrote e.g h (e.lanes k) d true (fun _ => fall.setWidth 64) ∧
      Transfers s e (.call k d disp) k h (fun _ => e.r.addr + BitVec.ofInt 48 (8 * disp.toInt))) ∧
    (∀ a, (∀ l, l < 32 → (e.lanes k).getLsbD l = true → (e.src64 a l).toNat % 8 = 0) →
      Transfers s e (.brx k a) k e.g (fun l => (e.src64 a l).setWidth 48) ∧
      Transfers s e (.ret k a) k e.g (fun l => (e.src64 a l).setWidth 48) ∧
      ∀ d, ∃ h, Wrote e.g h (e.lanes k) d true (fun _ => fall.setWidth 64) ∧
        Transfers s e (.callX k d a) k h (fun l => (e.src64 a l).setWidth 48)) ∧
    (∀ a bad, bad < 32 → (e.lanes k).getLsbD bad = true → (e.src64 a bad).toNat % 8 ≠ 0 →
      (∀ l, l < bad → (e.lanes k).getLsbD l = true → (e.src64 a l).toNat % 8 = 0) →
      ∀ i, (i = .brx k a ∨ i = .ret k a ∨ ∃ d, i = .callX k d a) →
        (s.samplerBusy s.focus = true → exec i s = .next (s.hold e)) ∧
        (e.debugged s → HostParksWith s e i 2 0
          (packRecord e.g.current [.num 48 e.r.addr.toNat, .num 5 e.r.idx, .num 5 bad])) ∧
        (s.samplerBusy s.focus = false → s.ctxFits = true → ∃ t, exec i s = .next t ∧
          ∀ h, t.group? s.focus = some h → h.lpc = e.g.lpc)) ∧
    (∃ t, exec (.exit k) s = .next t ∧
      Transferred s e t { e.g with live := e.g.live &&& ~~~e.lanes k } (fun _ => fall) ∧
      (e.g.live &&& ~~~e.lanes k = 0 → (∀ o ∈ s.ops, o.gid = s.focus → o.flag = none ∧ o.fault = none) →
        (t.group? s.focus).map (·.st) = some .exited))

/-- 03 R102 to R105: the cross-lane instructions. LPREV gives each executing lane the value of the executing lane before
it, the first one the seed, and keeps the last lane's value as the carry; LSCAN and LRED combine in ascending lane order.
-/
def Obligations.CrossLane : Prop :=
  ∀ (s : State) (e : Env), s.envOf s.focus = some e →
    (∀ (x : IBin) (l0 : Nat), lowestLane (e.lanes x.k) = some l0 →
      let n := (e.opd false x.b l0).toNat
      let from_ := fun (l j : Nat) => x.t.fix false (x.t.toInt (e.src (tyWide x.t) x.a (if j < 32 then j else l)))
      Completes s e (.lshf .up x) x.k x.d (tyWide x.t) (fun l => from_ l (if n ≤ l then l - n else 32)) ∧
      Completes s e (.lshf .down x) x.k x.d (tyWide x.t) (fun l => from_ l (l + n)) ∧
      Completes s e (.lshf .rot x) x.k x.d (tyWide x.t) (fun l => from_ l ((l + n) % 32)) ∧
      Completes s e (.lshf .xor x) x.k x.d (tyWide x.t) (fun l => from_ l (if l < 32 then l ^^^ (n % 32) else 0))) ∧
    (∀ (m : LMode) (x : IBin), lowestLane (e.lanes x.k) = none → ∃ v, Completes s e (.lshf m x) x.k x.d (tyWide x.t) v) ∧
    (∀ x : IBin, Completes s e (.lbfl x) x.k x.d (tyWide x.t) (fun l =>
      x.t.fix false (x.t.toInt (e.src (tyWide x.t) x.a ((e.opd false x.b l).toNat % 32))))) ∧
    (∀ k d a b t, ∃ t' h v, exec (.lprev k d a b t) s = .next t' ∧ Done s e t' h ∧
      Wrote { e.g with carry := h.carry } h (e.lanes k) d (tyWide t) v ∧
      let ex := fun l => l < 32 ∧ (e.lanes k).getLsbD l = true
      (∀ l, ex l → (∀ j, ex j → l ≤ j) → v l = t.fix false (t.toInt
        (match b with | some o => e.opd (tyWide t) o l | none => e.g.carry))) ∧
      (∀ j l, ex j → ex l → j < l → (∀ i, ex i → ¬(j < i ∧ i < l)) →
        v l = t.fix false (t.toInt (e.src (tyWide t) a j))) ∧
      (∀ m, ex m → (∀ j, ex j → j ≤ m) → h.carry.toNat = t.pat (e.src (tyWide t) a m)) ∧
      ((∀ l, ¬ex l) → h.carry = e.g.carry)) ∧
    (∀ op x,
      let over_ := fun (p : Nat → Bool) => ((laneList (e.lanes x.k)).filter p).foldl
        (fun acc j => scanStep op x.t x.sat acc (e.src (tyWide x.t) x.a j)) (scanId op x.t)
      (∃ v, Completes s e (.lscan op false x) x.k x.d (tyWide x.t) v ∧
        ∀ l, l < 32 → (e.lanes x.k).getLsbD l = true → v l = over_ fun j => j ≤ l) ∧
      (∃ v, Completes s e (.lscan op true x) x.k x.d (tyWide x.t) v ∧
        ∀ l, l < 32 → (e.lanes x.k).getLsbD l = true → v l = over_ fun j => j < l) ∧
      Completes s e (.lred op x) x.k x.d (tyWide x.t) (fun _ => over_ fun _ => true)) ∧
    (∀ x : IUn,
      let a := fun l => x.t.pat (e.src (tyWide x.t) x.a l)
      let ls := laneList (e.lanes x.k)
      Completes s e (.vote .any x) x.k x.d (tyWide x.t) (fun _ => if ∃ l ∈ ls, a l ≠ 0 then 1 else 0) ∧
      Completes s e (.vote .all x) x.k x.d (tyWide x.t) (fun _ => if ∀ l ∈ ls, a l ≠ 0 then 1 else 0) ∧
      (∃ v : W64, Completes s e (.vote .ballot x) x.k x.d false (fun _ => v) ∧
        ∀ l, v.getLsbD l = decide (l ∈ ls ∧ a l ≠ 0)) ∧
      Completes s e (.vote .uni x) x.k x.d (tyWide x.t) (fun _ => if ∀ l ∈ ls, ∀ j ∈ ls, a l = a j then 1 else 0)) ∧
    (∀ k d, ∃ v, Completes s e (.elect k d) k d false v ∧
      ∀ l l0, lowestLane (e.lanes k) = some l0 → v l = BitVec.ofNat 64 l0)

/-- 02 R28, R31, 03 R67, R107, R108: what comes after a word that completes in order: word 2 again while REP has runs
left; else the next word; else the end of the clause, where every active lane takes the fall-through address. A flag of the
clause with nothing more to wait for clears, at once: the model's own reading of 01 R18 (log 32). REP itself changes nothing else but the issue slots of its class. -/
def Obligations.WordSequence : Prop :=
  (∀ (s : State) (g : Group) (r : Run), (s.group? g.gid).isSome = true →
    let t := s.advance g r
    let runs := match r.rep with | some x => r.idx = 2 ∧ r.runNo + 1 < x.n.toNat | none => False
    let goesOn := fun (r' : Run) => t.group? g.gid =
      some { g with run := some r', since := none, flags := g.flags &&& ~~~s.doneFlags g.gid r' }
    (runs → goesOn { r with runNo := r.runNo + 1, held := false }) ∧
    (¬runs → r.idx < r.hdr.count → goesOn { r with idx := r.idx + 1, runNo := 0, held := false }) ∧
    (¬runs → r.hdr.count ≤ r.idx → ∃ u, t.group? g.gid = some u ∧ u.kept = g.kept ∧ u.run = none ∧
      ∀ l, l < 32 → Store.read u.lpc l = if r.lanes.getLsbD l
        then r.addr + BitVec.ofNat 48 (8 * (r.hdr.count + 1)) else Store.read g.lpc l)) ∧
  (∀ (s : State) (e : Env), s.envOf s.focus = some e → ∀ x : RepX, e.r.idx = 1 → 1 < e.r.hdr.count →
    ∃ t u, exec (.rep x) s = .next t ∧ OnlyFocus { s with budget := t.budget } t ∧ t.budget.reg = s.budget.reg ∧
      t.group? s.focus = some u ∧ u.kept = e.g.kept ∧ u.flags &&& ~~~setMask e.r.hdr = e.g.flags &&& ~~~setMask e.r.hdr ∧
      u.lpc = e.g.lpc ∧ u.run = some { e.r with rep := some x, idx := 2, runNo := 0, held := false })

/-! ## The lane engine: floating point (chapters 04 and 05) -/

/-- 04 R113 to R130: each floating-point instruction, where no executing lane raises an exception that its FPST enables,
writes its result in the executing lanes and adds the exceptions to their FPST; where one does, the exceptions are added,
nothing is written, and the group parks with the FP exception trap. The model's own choice: the special functions inside
their bounds (log 10). -/
def Obligations.FloatResults : Prop :=
  ∀ (s : State) (e : Env), s.envOf s.focus = some e →
    (∀ x : FBin,
      let w := fpWide x.t
      let a := fun l => e.src w x.a l
      let b := fun l => e.fopd x.t x.b l
      FpWord s e (.fadd x) x.k x.d w (fun l => faddVal x.t x.r x.ftz (a l) (b l)) ∧
      FpWord s e (.fsub x) x.k x.d w (fun l => fsubVal x.t x.r x.ftz (a l) (b l)) ∧
      FpWord s e (.fmul x) x.k x.d w (fun l => fmulVal x.t x.r x.ftz (a l) (b l)) ∧
      FpWord s e (.fdiv x) x.k x.d w (fun l => fdivVal x.t x.r x.ftz (a l) (b l)) ∧
      FpWord s e (.fmin x) x.k x.d w (fun l => fminmaxVal false false x.t x.ftz (a l) (b l)) ∧
      FpWord s e (.fmax x) x.k x.d w (fun l => fminmaxVal true false x.t x.ftz (a l) (b l)) ∧
      FpWord s e (.fminn x) x.k x.d w (fun l => fminmaxVal false true x.t x.ftz (a l) (b l)) ∧
      FpWord s e (.fmaxn x) x.k x.d w (fun l => fminmaxVal true true x.t x.ftz (a l) (b l)) ∧
      ∀ p, FpWord s e (.fcmp p x) x.k x.d false (fun l => fcmpVal p x.t x.ftz (a l) (b l))) ∧
    (∀ x : FTer,
      let v := fun f l => e.src (fpWide x.t) f l
      FpWord s e (.ffma x) x.k x.d (fpWide x.t) (fun l => ffmaVal x.t x.r x.ftz (v x.a l) (v x.b l) (v x.c l)) ∧
      FpWord s e (.fdot2 x) x.k x.d false (fun l =>
        fdot2Val x.t x.r x.ftz (e.src32 x.a l) (e.src32 x.b l) (e.src32 x.c l))) ∧
    (∀ x : FUn,
      let w := fpWide x.t
      let a := fun l => e.src w x.a l
      FpWord s e (.fsqrt x) x.k x.d w (fun l => fsqrtVal x.t x.r x.ftz (a l)) ∧
      Completes s e (.fcls x) x.k x.d false (fun l => fclsVal x.t (a l)) ∧
      (∀ b, FpWord s e (.frnd b x) x.k x.d w (fun l => frndVal b x.t x.r x.ftz (a l))) ∧
      FpWord s e (.frcp x) x.k x.d w (fun l => sfuVal frcp32 x.t x.ftz (a l)) ∧
      FpWord s e (.frsq x) x.k x.d w (fun l => sfuVal frsq32 x.t x.ftz (a l)) ∧
      FpWord s e (.fexp2 x) x.k x.d w (fun l => sfuVal fexp232 x.t x.ftz (a l)) ∧
      FpWord s e (.flog2 x) x.k x.d w (fun l => sfuVal flog232 x.t x.ftz (a l)) ∧
      FpWord s e (.fsinp x) x.k x.d w (fun l => sfuVal fsinp32 x.t x.ftz (a l)) ∧
      FpWord s e (.fcosp x) x.k x.d w (fun l => sfuVal fcosp32 x.t x.ftz (a l)) ∧
      FpWord s e (.ftanh x) x.k x.d w (fun l => sfuVal ftanh32 x.t x.ftz (a l))) ∧
    (∀ k d a dt st r ftz, FpWord s e (.cvt k d a dt st r ftz) k d (numWide dt) (fun l =>
      cvtVal dt st r ftz (e.src (numWide st) a l))) ∧
    (∀ k d a b bf w r ftz, FpWord s e (.fpackPack k d a b bf w r ftz) k d false (fun l =>
      fpackVal bf w r ftz (e.src w a l) (e.src w b l))) ∧
    (∀ hi k d a w bf ftz, FpWord s e (.fpackUnpack hi k d a w bf ftz) k d w (fun l =>
      funpackVal hi w bf ftz (e.src32 a l)))

/-- 05 R144 to R157: each variable-length instruction, where no executing lane raises a condition that its PREC enables,
writes its result; where one does, nothing is written and the group parks with the precision-exhausted or the VLF
exception trap. -/
def Obligations.VlfResults : Prop :=
  ∀ (s : State) (e : Env), s.envOf s.focus = some e →
    (∀ x : VBin,
      let p := e.precOf
      let c := e.limbCap x.d
      VlfWord s e (.vadd x) x.k x.d (fun l => vaddVal (p l) c (e.vlf x.a l) (e.vlf x.b l)) ∧
      VlfWord s e (.vsub x) x.k x.d (fun l => vsubVal (p l) c (e.vlf x.a l) (e.vlf x.b l)) ∧
      VlfWord s e (.vmul x) x.k x.d (fun l => vmulVal (p l) c (e.vlf x.a l) (e.vlf x.b l)) ∧
      VlfWord s e (.vdiv x) x.k x.d (fun l => vdivVal (p l) c (e.vlf x.a l) (e.vlf x.b l))) ∧
    (∀ x : VUn,
      let p := e.precOf
      let c := e.limbCap x.d
      VlfWord s e (.vsqrt x) x.k x.d (fun l => vsqrtVal (p l) c (e.vlf x.a l)) ∧
      VlfWord s e (.vrndInt x) x.k x.d (fun l => vrndIntVal (p l) c (e.vlf x.a l)) ∧
      VlfWord s e (.vrndFit x) x.k x.d (fun l => vrndFitVal (p l) c (e.vlf x.a l))) ∧
    (∀ k d a b c, VlfWord s e (.vfma k d a b c) k d (fun l =>
      vfmaVal (e.precOf l) (e.limbCap d) (e.vlf a l) (e.vlf b l) (e.vlf c l))) ∧
    (∀ k d a b, VlfWord s e (.vscale k d a b) k d (fun l =>
      vscaleVal (e.precOf l) (e.limbCap d) (e.vlf a l) ((e.src32 b l).setWidth 32 : W32).toInt)) ∧
    (∀ k d a t, VlfWord s e (.vcvtTov k d a t) k d (fun l =>
      vcvtTovVal (e.precOf l) (e.limbCap d) t (e.src (numWide t) a l))) ∧
    (∀ p k d a b, VlfToLane s e (.vcmp p k d a b) k d false (fun l =>
      (if (Fp.pred p (e.vlf a l) (e.vlf b l)).1 then 1 else 0, (Fp.pred p (e.vlf a l) (e.vlf b l)).2))) ∧
    (∀ k d a t r, VlfToLane s e (.vcvtFromv k d a t r) k d (numWide t) (fun l => vcvtFromvVal t r (e.vlf a l))) ∧
    (∀ k d a, Completes s e (.vexpo k d a) k d false (fun l => vexpoVal (e.vlf a l)) ∧
      Completes s e (.vlen k d a) k d false (fun l => BitVec.ofNat 64 ((e.g.winWord a 0 l).toNat / 2 ^ 24 % 16)) ∧
      Completes s e (.vlenBytes k d a) k d false (fun l =>
        BitVec.ofNat 64 (4 + 4 * ((e.g.winWord a 0 l).toNat / 2 ^ 24 % 16))))

/-- 04 R131, 05 R158: FSTR and PRECR give the registers' contents; FSTW and PRECW give the contents from before and change
the executing lanes' registers: FSTW writes, ORs or clears the low 12 bits; PRECW takes an acceptable candidate, and marks
its result with bit 31 where the candidate is refused. -/
def Obligations.StatusRegisters : Prop :=
  ∀ (s : State) (e : Env), s.envOf s.focus = some e → ∀ (k : BitVec 3) (d : Dst),
    Completes s e (.fstr k d) k d false (fun l => (Store.read e.g.fpst l).setWidth 64) ∧
    Completes s e (.precr k d) k d false (fun l => (Store.read e.g.prec l).setWidth 64) ∧
    (∀ m a, ∃ t h, exec (.fstw m k d a) s = .next t ∧ Done s e t h ∧
      Wrote { e.g with fpst := h.fpst } h (e.lanes k) d false (fun l => (Store.read e.g.fpst l).setWidth 64) ∧
      ∀ l, l < 32 →
        let old := Store.read e.g.fpst l
        let v : W32 := (e.opd false a l).setWidth 32 &&& 0xFFF
        Store.read h.fpst l = if (e.lanes k).getLsbD l
          then (match m with | .w => v | .or => old ||| v | .clr => old &&& ~~~v) else old) ∧
    (∀ (len : Bool) a, ∃ t h, exec (if len then .precwLen k d a else .precw k d a) s = .next t ∧ Done s e t h ∧
      let old := fun l => Store.read e.g.prec l
      let src := fun l => ((e.src32 a l).setWidth 32 : W32)
      let cand := fun l => if len then (old l &&& 0xFFFFFE00) ||| (src l &&& 0x1FF) else src l &&& 0xFFFFFF
      Wrote { e.g with prec := h.prec } h (e.lanes k) d false
        (fun l => (if precOk (cand l) then old l else old l ||| 0x80000000).setWidth 64) ∧
      ∀ l, l < 32 → Store.read h.prec l =
        if (e.lanes k).getLsbD l = true ∧ precOk (cand l) = true then cand l else old l)

/-! ## The memory engine (chapters 06 and 07) -/

/-- 01 R16, R18, R21, 06 R179, R184, R185, R187, R188, R193, R194, 05 R159: every load is accepted as a command bound to
its flag, with one access in each executing lane; a load with a lane result pushes at issue, a VLD and a variable-length
tolerance load do not. No memory and no register of the group changes. -/
def Obligations.LoadsIssue : Prop :=
  ∀ (s : State) (e : Env), s.envOf s.focus = some e → ∀ (k : BitVec 3) (d : Dst) (a b : Src) (w : BitVec 5) (x : MemX),
    let ex := e.lanes k
    let at_ := e.src64 a
    (∀ sx, x.size.bytes ≤ 8 → IssuesPush s e (.ld k d a x sx) ex fun o => OneEach o x.space at_ x.size.bytes) ∧
    (∀ sx, 8 < x.size.bytes → IssuesPush s e (.ld k d a x sx) ex fun o => ∀ l, l < 32 → ex.getLsbD l = true →
      -- an access that crosses a 64-byte block goes in two pieces
      (o.parts.filter fun p => p.lane == l).map (fun p => (p.addr, p.off, p.len)) =
        let room := 64 - (at_ l).toNat % 64
        if x.size.bytes ≤ room then [(at_ l, 0, x.size.bytes)]
        else [(at_ l, 0, room), (at_ l, room, x.size.bytes - room)]) ∧
    -- LDV: executing lane l reads element l of the vector at the lowest executing lane's address
    IssuesPush s e (.ldv k d a x) ex (fun o => ∀ l0, lowestLane ex = some l0 →
      o.base = at_ l0 ∧ o.cap 0 l0 = at_ l0 ∧
        LaneEach o x.space (fun l => at_ l0 + BitVec.ofNat 64 (l * x.size.bytes)) x.size.bytes) ∧
    IssuesPush s e (.ldtol k d a b x) ex (fun o => OneEach o x.space at_ x.size.bytes ∧
      ∀ l, l < 32 → ex.getLsbD l = true → o.cap 1 l = e.src64 b l) ∧
    IssuesPush s e (.ldtolDet k d a x) ex (fun o => OneEach o x.space at_ x.size.bytes) ∧
    IssuesPush s e (.ldbt k d a x) ex (fun o => OneEach o x.space at_ 2) ∧
    IssuesPush s e (.mapq k d a) ex (fun o => OneEach o .g at_ 8) ∧
    -- the first word of the element; PREC is captured
    IssuesFlag s e (.vld k w a x) ex (fun o => OneEach o x.space at_ 4 ∧
      ∀ l, l < 32 → ex.getLsbD l = true → o.cap 3 l = (e.precOf l).setWidth 64) ∧
    IssuesFlag s e (.ldtolV k w a b x) ex (fun o => OneEach o x.space at_ 4 ∧
      ∀ l, l < 32 → ex.getLsbD l = true → o.cap 1 l = e.src64 b l ∧ o.cap 3 l = (e.precOf l).setWidth 64) ∧
    IssuesFlag s e (.ldtolDetV k w a x) ex (fun o => OneEach o x.space at_ 4)

/-- 06 R181, R184, R185, R188, R193, 05 R160, 07 R198: a store whose every access translates is accepted whole into the
group's store queue, with the bytes it will store; memory does not change yet. -/
def Obligations.StoresIssue : Prop :=
  ∀ (s : State) (e : Env), s.envOf s.focus = some e → ∀ (k : BitVec 3) (a b : Src) (x : MemX),
    let ex := e.lanes k
    let at_ := e.src64 a
    let n := x.size.bytes
    -- each lane's part is queued at its place, and its bytes are the operand's
    let stored := fun (o : Op) (key : Nat → Nat) (n : Nat) (v : Nat → Nat) =>
      ∀ l, l < 32 → ex.getLsbD l = true →
        (∃ p ∈ o.parts, p.lane = l ∧ p.st = .queued ∧ p.key = key l ∧ p.off = 0) ∧
        (∀ p ∈ o.parts, p.st = .queued) ∧
        ∀ j, j < n → (Store.read o.buf (64 * l + j)).toNat = v l / 256 ^ j % 256
    ex ≠ 0 → (x.order ≠ .rel ∨ s.ops.all (fun o => o.fault.isNone) = true) →
    (∀ key : Nat → Nat, n ≤ 8 →
      (∀ l, l < 32 → ex.getLsbD l = true →
        s.placePiece e.g e.t e.gr .store (newPart l x.space (at_ l) 0 n .waiting) n n = .at (key l) none) →
      Issues s e (.st k a b x) ex fun o => stored o key n fun l => (e.src64 b l).toNat) ∧
    (∀ (w : BitVec 5) (key : Nat → Nat), (n = 16 ∨ n = 32) →
      (∀ l, l < 32 → ex.getLsbD l = true → (at_ l).toNat % 64 + n ≤ 64 ∧
        s.placePiece e.g e.t e.gr .store (newPart l x.space (at_ l) 0 n .waiting) n 16 = .at (key l) none) →
      Issues s e (.st k a (.w w) x) ex fun o => stored o key n fun l =>
        wordsNat ((List.range (n / 4)).map fun j => e.g.winWord w j l)) ∧
    (∀ (l0 : Nat) (key : Nat → Nat), lowestLane ex = some l0 → (at_ l0).toNat % 8 = 0 → (n = 4 ∨ n = 8) →
      (at_ l0).toNat + 32 * n ≤ 2 ^ 64 →
      (∀ l, l < 32 → ex.getLsbD l = true → s.placePiece e.g e.t e.gr .store
        (newPart l x.space (at_ l0 + BitVec.ofNat 64 (l * n)) 0 n .waiting) n n = .at (key l) none) →
      Issues s e (.stv k a b x) ex fun o => stored o key n fun l => (e.src64 b l).toNat) ∧
    (∀ key : Nat → Nat,
      (∀ l, l < 32 → ex.getLsbD l = true →
        s.placePiece e.g e.t e.gr .stbt (newPart l x.space (at_ l) 0 2 .waiting) 64 64 = .at (key l) none) →
      Issues s e (.stbt k a b x) ex fun o => stored o (fun l => tagKey (key l)) 2 fun l => (e.src32 b l).toNat) ∧
    -- an add's page is commutative, with a region that has elements of the size
    (∀ (key : Nat → Nat) (r : Region), n ≤ 8 → sizeFits r x.size = true → s.region? r.n = some r →
      (∀ l, l < 32 → ex.getLsbD l = true →
        s.placePiece e.g e.t e.gr .stadd (newPart l x.space (at_ l) 0 n .waiting) n n = .at (key l) (some r.n)) →
      Issues s e (.stadd k a b x) ex fun o => stored o key n (fun l => (e.src64 b l).toNat) ∧
        ∀ p ∈ o.parts, p.commut = some r)

/-- 05 R160, 06 R186, R188, R189, R190, R191, R192, 07 R204: the other words of the memory engine. VST stores its lanes'
elements, raising their conditions; STADD.v takes its operand's element as the contribution; DRAIN pushes at issue, PFX
and FENCE are accepted; INVL drops the lines of its core that it names, dirty words going home. The model's own choice:
that INVL.line waits on a quiesced page (log 26). -/
def Obligations.OtherMemoryWords : Prop :=
  ∀ (s : State) (e : Env), s.envOf s.focus = some e → ∀ (k : BitVec 3),
    let ex := e.lanes k
    let noFault := s.ops.all (fun o => o.fault.isNone) = true
    (∀ a b x (key : Nat → Nat → Nat),
      let v := fun l => vstWords (e.limbCap b) (e.g.winWord b 0 l) (e.winLimbs b l)
      ex ≠ 0 → ¬e.vlfTrap ex (fun l => (v l).2) → noFault →
      (∀ l, l < 32 → ex.getLsbD l = true → (v l).1.length ≤ 9 ∧ ∀ j, j < (v l).1.length →
        s.placePiece e.g e.t e.gr .store (newPart l x.space (e.src64 a l) (4 * j) 4 .waiting) (4 * (v l).1.length) 4 =
          .at (key l j) none) →
      ∃ t o h, exec (.vst k a b x) s = .next t ∧ Accepted s e t o h ∧ o.ofWord s e (.vst k a b x) ex ∧ o.flag = none ∧
        { h with fpst := e.g.fpst } = e.g ∧ Raised e.g h.fpst ex (fun l => (v l).2) ∧
        ∀ l, l < 32 → ex.getLsbD l = true →
          (o.parts.filter fun p => p.lane == l).map (fun p => (p.st, p.key, p.off, p.len)) =
            (List.range (v l).1.length).map (fun j => (.queued, key l j, 4 * j, 4)) ∧
          ∀ j, j < (v l).1.length → o.laneWord l j = (v l).1.getD j 0) ∧
    (∀ a b x (key : Nat → Nat) (r : Region),
      let v := fun l => (vstWords (e.limbCap b) (e.g.winWord b 0 l) (e.winLimbs b l)).1
      ex ≠ 0 → noFault → r.fmt = 4 → s.region? r.n = some r →
      (∀ l, l < 32 → ex.getLsbD l = true → (v l).length ≤ 9 ∧ (r.elemAt (key l)).isSome = true ∧
        s.placePiece e.g e.t e.gr .stadd (newPart l x.space (e.src64 a l) 0 4 .waiting) 4 4 = .at (key l) (some r.n)) →
      Issues s e (.staddV k a b x) ex fun o => ∀ l, l < 32 → ex.getLsbD l = true →
        (∃ p, (o.parts.filter fun p => p.lane == l) = [p] ∧ p.st = .queued ∧ p.key = key l ∧ p.commut = some r) ∧
        ∀ j, j < (v l).length → o.laneWord l j = (v l).getD j 0) ∧
    (∀ d, IssuesPush s e (.drain k d) ex fun o => o.parts.length = if ex = 0 then 0 else 1) ∧
    (∀ d a, IssuesPush s e (.drainR k d a) ex fun o => o.parts.length = (if ex = 0 then 0 else 1) ∧
      ∀ l, lowestLane ex = some l → o.base = e.src64 a l) ∧
    (∀ a r, Issues s e (.pfx k a r) ex fun o => OneEach o .g (e.src64 a) 1) ∧
    (∀ m sc, ex ≠ 0 → noFault → Issues s e (.fence m k sc) ex fun o => o.parts = []) ∧
    (∀ m sc, ex = 0 → CompletesAs s e (.fence m k sc) e.g) ∧
    (∃ t, exec (.invlSi k) s = .next t ∧
      Done (if ex = 0 then s else { s with l1 := s.l1.filter fun (ln : L1Line) => !(ln.core == e.t.core && ln.st == LineSt.si) }) e t e.g) ∧
    (∀ a,
      let at_ := fun l => s.global e.t.core .query (e.src64 a l)
      let named := fun b => ∃ l key rn, l < 32 ∧ ex.getLsbD l = true ∧ at_ l = .at key rn ∧ blockOf key = b
      (∀ l page, l < 32 → ex.getLsbD l = true → at_ l ≠ .hold page) →
      ∃ t u, exec (.invlLine k a) s = .next t ∧ Done u e t e.g ∧ u = { s with mem := u.mem, l1 := u.l1, dir := u.dir } ∧
        (∀ b, named b → u.line? e.t.core b = none) ∧
        (∀ c b, c ≠ e.t.core ∨ ¬named b → u.line? c b = s.line? c b) ∧
        (∀ b ln i, named b → s.line? e.t.core b = some ln → i < 64 → ln.dirty.getLsbD (i / 4) = true →
          Store.read u.mem (b + i) = Store.read ln.data i) ∧
        ∀ y, (∀ b ln, named b → s.line? e.t.core b = some ln → (b ≤ y ∧ y < b + 64) → ln.dirty.getLsbD ((y - b) / 4) = false) →
          Store.read u.mem y = Store.read s.mem y)

/-- 06 R171, R173, 07 R198: a piece of a load takes its bytes at its place, once the order of the group's accesses lets it:
in a space other than .g, whose request is .own, or at the home of an .nc load whose line no L1 owns, with no store of its
core on the way, they are the bytes of memory, and nothing else changes. 01 R18, 02 R39, R42, 06 R179: the completion of an LD of 8 bytes or fewer
puts its value in the queue entry that it pushed, wherever that has aged to, and in its destination, in the lanes that
executed; the command is gone; its flag clears when no other command is bound to it and no running clause sets it. The
model's own choice: the step that performs a local access (log 44). -/
def Obligations.LoadsPerformed : Prop :=
  (∀ (s : State) (o : Op) (p : Part) (op i : Nat) (k : BitVec 3) (d : Dst) (a : Src) (x : MemX) (sx : Bool) (g : Group)
     (tm : Team) (gr : Grid) (key : Nat),
     s.op? op = some o → o.parts[i]? = some p → o.instr = .ld k d a x sx → x.order = .relaxed →
     (x.space = .g ∧ x.req = .nc ∨ x.space ≠ .g ∧ x.req = .own ∧ isHbm key = false) → p.sp = x.space →
     s.ownerOf o = some (g, tm, gr) → p.st = .waiting → p.held = none → s.loadClear o = true → s.atomsClear o key = true →
     -- its place, or where its request has gone
     p.site (s.placePiece g tm gr .load p x.size.bytes (sizeAlign x.size)) = .at key none →
     s.scoreHold o.gid o.id key p.len false = false → s.passes o.core p key = true → s.poisoned key = false →
     s.overlays o.core o.gid o.id key p.len = [] →
     (isHbm key = true → s.line? o.core (blockOf key) = none ∧ (s.dirOf (blockOf key)).owner = none) →
     -- no other piece of the command waits with it, and none has taken a byte of it already (06 R182)
     (∀ j q, j ≠ i → o.parts[j]? = some q → q.st ≠ .waiting) →
     (∀ q ∈ o.parts, q.st = .done → key + p.len ≤ q.key ∨ q.key + q.len ≤ key) →
     exec (.homeRequest op i) s = .next (s.setOp { o with
       parts := o.parts.set i { p with st := .done, key := key, asked := false }
       buf := Store.writeList o.buf (64 * p.lane + p.off) (s.bytes key p.len) })) ∧
  (∀ (s : State) (op : Nat) (o : Op) (g : Group) (k : BitVec 3) (d : Dst) (a : Src) (x : MemX) (sx : Bool),
     s.op? op = some o → s.group? o.gid = some g → g.st = .ready → o.instr = .ld k d a x sx → x.size.bytes ≤ 8 →
     o.fault = none → o.stage = 0 → o.allDone = true → g.queue.length = 16 → g.pushes - o.pushAt < 16 →
     let age := g.pushes - o.pushAt
     let n := x.size.bytes
     let v : Nat → W64 := fun l =>
       let bytes := fun i => (Store.read o.buf (64 * l + i)).toNat * 256 ^ i
       let raw : Nat := (List.range n).foldl (fun acc i => acc + bytes i) 0
       if sx then (if n = 1 then ((BitVec.ofNat 8 raw).signExtend 32).setWidth 64 else ((BitVec.ofNat 16 raw).signExtend 32).setWidth 64)
       else BitVec.ofNat 64 raw
     ∃ t u, exec (.operationComplete op) s = .next t ∧ t.op? op = none ∧ t.mem = s.mem ∧ t.group? o.gid = some u ∧
       (∀ l, l < 32 → u.age age l = if o.ex.getLsbD l then v l else g.age age l) ∧
       (∀ b l, b ≠ age → u.age b l = g.age b l) ∧
       (∀ m l, d = .w m → l < 32 → o.ex.getLsbD l = true → u.winWord m 0 l = (v l).setWidth 32) ∧
       (∀ m l, d = .s m → lowestLane o.ex = some l → Store.read u.scal m.toNat = v l) ∧
       (∀ f, o.flag = some f → f.toNat < 12 → g.run = none → (∀ q ∈ s.ops, q.gid = o.gid → q.id ≠ op → q.flag ≠ some f) →
         u.flags.getLsbD f.toNat = false) ∧
       u.lpc = g.lpc ∧ u.live = g.live ∧ u.masks = g.masks ∧ u.prec = g.prec ∧ u.fpst = g.fpst ∧ u.carry = g.carry)

/-- 06 R171, Table 6.2, 07 R198: a departed store is performed at its home: with .nc or .wt, or in the chip scratchpad, and
no other L1 owning the line, its bytes are in memory and every other byte is as before; with .own, its bytes are dirty in
its core's line, which the home names as the owner; the part is done, or with the last part the command gone. 07 R198: the
head of a group's store queue leaves it, once the earlier loads have their values and no fence is before it.
In a local space its bytes are written then; a store to global memory or the chip scratchpad takes its place in the core
store order, and memory does not change yet. -/
def Obligations.StoresPerformed : Prop :=
  (∀ (s : State) (o : Op) (p : Part) (op i n : Nat) (k : BitVec 3) (a b : Src) (x : MemX),
     s.op? op = some o → o.parts[i]? = some p → o.instr = .st k a b x →
     p.st = .departed n → s.inTurn o.requester (blockOf (dataKey p.key)) n = true →
     s.drainAhead n o.core (blockOf (dataKey p.key)) = false → s.passes o.core p (dataKey p.key) = true →
     s.duplicate o.requester p.sent = false →
     (isHbm p.key = true → s.otherOwner o.core (blockOf p.key) = none) →
     ∃ t, exec (.homeRequest op i) s = .next t ∧
       (x.req = .nc ∨ x.req = .wt ∨ isHbm p.key = false →
         (∀ j, j < p.len → Store.read t.mem (p.key + j) = Store.read o.buf (64 * p.lane + p.off + j)) ∧
         (∀ y, (y < p.key ∨ p.key + p.len ≤ y) → Store.read t.mem y = Store.read s.mem y)) ∧
       (x.req = .own → isHbm p.key = true → dpaDevice p.key = s.device → p.key % 64 + p.len ≤ 64 →
         ∃ ln, t.line? o.core (blockOf p.key) = some ln ∧ ln.st = .owned ∧
           (∀ j, j < p.len → Store.read ln.data (p.key % 64 + j) = Store.read o.buf (64 * p.lane + p.off + j) ∧
             ln.dirty.getLsbD ((p.key % 64 + j) / 4) = true) ∧
           ((∀ l, s.line? o.core (blockOf p.key) = some l → l.st ≠ .owned) →
             (t.dirOf (blockOf p.key)).owner = some o.core)) ∧
       t.groups = s.groups ∧ t.msgs = s.msgs ∧
       match t.op? op with
       | some q => (q.parts[i]?).map (·.st) = some .done ∧ q.buf = o.buf
       | none => ∀ j q, j ≠ i → o.parts[j]? = some q → q.st = .done) ∧
  (∀ (s : State) (gid i : Nat) (o : Op) (p : Part), s.queueHead gid = some (o, i, p) → p.held = none → p.sent = none →
     (s.remote o.core (dataKey p.key) = false ∨ s.windowOpen o.requester (destOf s (dataKey p.key)) = true) →
     s.storeClear o = true → s.scoreHold o.gid o.id p.key p.len true = false → o.releases = false →
     (∃ k a b x, o.instr = .st k a b x) →
     ((p.sp = .l ∨ p.sp = .s ∨ p.sp = .c) → ∃ t, exec (.storeQueueDeparture gid) s = .next t ∧
       (∀ j, j < p.len → Store.read t.mem (p.key + j) = Store.read o.buf (64 * p.lane + p.off + j)) ∧
       (∀ y, (y < p.key ∨ p.key + p.len ≤ y) → Store.read t.mem y = Store.read s.mem y) ∧ t.groups = s.groups) ∧
     ((p.sp = .g ∨ p.sp = .p) → ∃ t, exec (.storeQueueDeparture gid) s = .next t ∧ t.mem = s.mem ∧
       s.nextId < t.nextId ∧
       (t.op? o.id).map (fun q => (q.parts[i]?).map (·.st)) = (s.op? o.id).map (fun _ => some (.departed s.nextId))))

/-- 06 R169 to R171: a line leaves its L1, or gives its dirty words to a recall: the dirty words are in memory, other
bytes are as before, and the directory names the core as the request leaves it. -/
def Obligations.LinesComeHome : Prop :=
  ∀ (s : State) (core blk : Nat) (ln : L1Line), s.line? core blk = some ln →
    let home := fun (t : State) => ∀ y, Store.read t.mem y =
      if blk ≤ y ∧ y < blk + 64 ∧ ln.dirty.getLsbD ((y - blk) / 4) = true then Store.read ln.data (y - blk)
      else Store.read s.mem y
    (∃ t, exec (.l1Eviction core blk) s = .next t ∧ home t ∧ t.line? core blk = none ∧ t.ops = s.ops ∧ t.groups = s.groups ∧
      (ln.st ≠ .si → (t.dirOf blk).owner ≠ some core ∧ core ∉ (t.dirOf blk).sharers)) ∧
    (∀ msg m op part drop shared, s.msg? msg = some m → m.body = .recallLine core blk op part drop shared → m.lost = false →
      ln.st ≠ .si →
      ∃ t, exec (.recall msg) s = .next t ∧ home t ∧ t.msg? msg = none ∧ t.groups = s.groups ∧
        (drop = true → t.line? core blk = none ∧ (t.dirOf blk).owner ≠ some core) ∧
        (drop = false → shared = true → t.line? core blk = some { ln with dirty := 0, st := .shared } ∧
          (t.dirOf blk).owner = none ∧ core ∈ (t.dirOf blk).sharers) ∧
        (drop = false → shared = false → t.line? core blk = some { ln with dirty := 0 } ∧ t.dir = s.dir))

/-! ## Block transfer (chapter 09) -/

/-- 09 R255, R256, R260, R264, R268, R269, R278: a copy and a clasp instruction act once, for the lowest executing lane,
and are accepted with their captured operands; with no lane they only advance. -/
def Obligations.BlockCommandsIssue : Prop :=
  ∀ (s : State) (e : Env), s.envOf s.focus = some e →
    (∀ (x : CopyX) (i : Instr) (m : Nat),
      (i = .copy x ∧ m = 2 ∨ i = .copy2d x ∧ m = 3 ∨ i = .copy3d x ∧ m = 4 ∨ i = .copym x ∧ m = 3) →
      (lowestLane (e.lanes x.k) = none → CompletesAs s e i e.g) ∧
      -- with room in the engine, among the group's copies and on the scoreboards (09 R260)
      (∀ l, lowestLane (e.lanes x.k) = some l → s.engineFull e.t.core = false → s.copiesOut s.focus < 32 →
        s.boardFull (copyCommand s e i x m l).ranges = false →
        Issues s e i (laneBit l) fun o => o.cap 0 l = e.src64 x.a l ∧ o.cap 1 l = e.src64 x.b l ∧ o.batch = none ∧
          (∀ j, j < m → o.par j = Store.read e.g.scal (x.n.toNat + j)) ∧
          o.clasp = x.cls.map fun sp => (sp, Store.read e.g.scal x.n.toNat))) ∧
    (∀ (k : BitVec 3) (a b c : Src) (sp : Space) (sc : Scope),
      let is := [Instr.clinit k a b c sp, .clexp k a b sp, .clarr k a b sp sc, .clinv k a sp]
      (lowestLane (e.lanes k) = none → ∀ i ∈ is, CompletesAs s e i e.g) ∧
      (∀ l, lowestLane (e.lanes k) = some l → s.engineFull e.t.core = false →
        s.ops.all (fun o => o.fault.isNone) = true →
        ∀ i ∈ is, Issues s e i (laneBit l) fun o => o.clasp = some (sp, e.src64 a l) ∧ o.parts.length = 1) ∧
      ∀ d acq, (lowestLane (e.lanes k) = none → IssuesPush s e (.cltest k d a sp acq) (e.lanes k) fun o => o.parts = []) ∧
        ∀ l, lowestLane (e.lanes k) = some l → s.engineFull e.t.core = false →
          s.ops.all (fun o => o.fault.isNone) = true →
          IssuesPush s e (.cltest k d a sp acq) (e.lanes k) fun o => o.clasp = some (sp, e.src64 a l) ∧ o.parts.length = 1)

/-- 09 R261 to R263: BSEAL gives the open batch its number, pushes it and opens the next, and holds at 16 sealed and
unfinished; BWAIT goes on when at most n batches are unfinished, and blocks its group otherwise. -/
def Obligations.Batches : Prop :=
  ∀ (s : State) (e : Env), s.envOf s.focus = some e → ∀ (k : BitVec 3) (d : Dst) (n : BitVec 5),
    let ex := e.lanes k
    let open_ := (e.g.sealedCnt - e.g.finishedCnt).toNat
    (ex = 0 → Completes s e (.bseal k d) k d false (fun _ => 0) ∧ CompletesAs s e (.bwait k n) e.g) ∧
    (ex ≠ 0 → open_ < 16 → ∃ t u, exec (.bseal k d) s = .next t ∧ t.group? s.focus = some u ∧
      u.sealedCnt = e.g.sealedCnt + 1 ∧ t.mem = s.mem ∧
      (∀ l, l < 32 → u.age 0 l = if ex.getLsbD l then e.g.sealedCnt.setWidth 64 else e.g.age 0 l) ∧
      (∀ o ∈ t.ops, o.gid = s.focus → o.isCopy = true → o.batch ≠ none) ∧
      (∀ o ∈ s.ops, o.gid = s.focus → o.isCopy = true → o.batch = none →
        ∃ q ∈ t.ops, q = { o with batch := some e.g.sealedCnt })) ∧
    (ex ≠ 0 → 16 ≤ open_ → ∃ t, exec (.bseal k d) s = .next t ∧ t.ops = s.ops ∧
      t.group? s.focus = some { e.g with run := some { e.r with held := true }, since := some (e.g.since.getD s.ctl.ptc) }) ∧
    (ex ≠ 0 → open_ ≤ n.toNat → ∃ t, exec (.bwait k n) s = .next t ∧ Done { s with l1 := t.l1 } e t e.g) ∧
    (ex ≠ 0 → n.toNat < open_ → s.ops.all (fun o => o.fault.isNone) = true →
      ∃ t u, exec (.bwait k n) s = .next t ∧ t.group? s.focus = some u ∧ u.st = .blockedBatch n.toNat ∧
        u.run = some e.r.leavePipe)

/-- 09 R278: CLWAIT returns, as an acquire, when the clasp's phase differs from its operand or the clasp is invalid, with
the phase and a bit that says invalid; otherwise its group is blocked until the clasp is written. -/
def Obligations.ClaspWait : Prop :=
  ∀ (s : State) (e : Env), s.envOf s.focus = some e → ∀ (k : BitVec 3) (d : Dst) (a b : Src) (sp : Space) (scope : Scope),
    let acquires := fun (v : W64) => ∃ t h, exec (.clwait k d a b sp scope) s = .next t ∧
      Done { s with l1 := t.l1, scache := t.scache } e t h ∧ Wrote { e.g with freed := none } h (e.lanes k) d true (fun _ => v)
    (lowestLane (e.lanes k) = none → Completes s e (.clwait k d a b sp scope) k d true (fun _ => 0)) ∧
    -- released by the clasp's owner while it waited, with the value that it returns (09 R269)
    (∀ l v, lowestLane (e.lanes k) = some l → e.g.freed = some v → acquires v) ∧
    ∀ l key r, lowestLane (e.lanes k) = some l → e.g.freed = none → (s.ops.all fun o => o.gid != s.focus) = true →
      (e.src64 a l).toNat % 64 = 0 →
      s.place e.t e.gr e.g.grpid.toNat l .atomic sp (e.src64 a l) 64 1 = .at key r →
      s.remote e.t.core key = false → s.poisoned key = false → (s.dirOf (blockOf key)).owner = none →
      (s.claspAt key).malformed = false →
      let c := s.claspAt key
      if c.state % 2 = 1 ∧ BitVec.ofNat 64 c.phase = e.src32 b l then
        ∃ t, exec (.clwait k d a b sp scope) s = .next t ∧ t.group? s.focus = some { e.g with
          st := .blockedClasp sp (e.src64 a l) key (e.src32 b l) scope
          run := some e.r.leavePipe, since := some (e.g.since.getD s.ctl.ptc) }
      else acquires (BitVec.ofNat 64 (c.phase + if c.state % 2 = 1 then 0 else 2 ^ 32))

/-- 09 R265: update(c, a, d): a malformed, an invalid and an overrun clasp are faults with details 3, 4 and 5; else the
pending arrivals fall by a and the byte count by d modulo 2^64, and when both reach 0 the phase advances and both start
over. -/
def Obligations.ClaspUpdate : Prop :=
  ∀ (c : Clasp) (a d : Nat),
    (c.malformed = true ↔ 2 ≤ c.state ∨ c.rest ≠ 0 ∨ (c.state % 2 = 1 ∧ (c.per = 0 ∨ 2 ^ 31 - 1 < c.per)) ∨
      c.per < c.pending) ∧
    (c.malformed = true → c.update a d = .error 3) ∧
    (c.malformed = false → c.state % 2 = 0 → c.update a d = .error 4) ∧
    (c.malformed = false → c.state % 2 = 1 → c.pending < a → c.update a d = .error 5) ∧
    (c.malformed = false → c.state % 2 = 1 → a ≤ c.pending → c.bytes < 2 ^ 64 →
      ∃ u, c.update a d = .ok u ∧ u.state = c.state ∧ u.per = c.per ∧ u.bytesPer = c.bytesPer ∧ u.rest = c.rest ∧
        let zero := c.pending = a ∧ (c.bytes : Int) % 2 ^ 64 = (d : Int) % 2 ^ 64
        (zero → u.phase = (c.phase + 1) % 2 ^ 32 ∧ u.pending = c.per ∧ u.bytes = c.bytesPer) ∧
        (¬zero → u.phase = c.phase ∧ u.pending = c.pending - a ∧ (u.bytes : Int) = ((c.bytes : Int) - d) % 2 ^ 64))

/-- 09 R256, R274, 07 Table 7.1: a COPY, COPY2D or COPY3D without .tags takes the bytes that it uses of a 64-byte block of its
source, once; when it has all that a block of its destination takes, it writes them there in one piece: those bytes are in
memory, every other byte is as before, and the cursor has moved on. The model's own choice: the cursor's order, which 09
R256 leaves open (log 45), and the step that performs a piece in a local space (log 44). -/
def Obligations.CopyMovesBytes : Prop :=
  ∀ (s : State) (op key : Nat) (o : Op) (x : CopyX) (rd wr : Part) (more : List Part) (g : Group) (tm : Team) (gr : Grid),
    s.op? op = some o → (o.instr = .copy x ∨ o.instr = .copy2d x ∨ o.instr = .copy3d x) → x.tags = false →
    o.stage = 1 → o.parts = rd :: wr :: more → s.ownerOf o = some (g, tm, gr) →
    -- the operands have not been edited since the block began (14 R391)
    o.moved = false → s.engineClear o = true →
    (rd.st = .waiting → rd.held = none → rd.len ≤ 64 →
      rd.site (s.place tm gr g.grpid.toNat rd.lane .copyRead rd.sp rd.addr rd.len 1) = .at key none →
      s.passes o.core rd key = true → s.poisoned key = false → (s.dirOf (blockOf key)).owner = none →
      ∃ t q, exec (.homeRequest op 0) s = .next t ∧ t.mem = s.mem ∧ t.op? op = some q ∧ q.cursor = o.cursor ∧ q.stage = 1 ∧
        ∀ j, j < rd.len → Store.read q.buf (imageKey rd.addr + j) = Store.read s.mem (key + j)) ∧
    (∀ (off : Nat) (bs : List Byte), wr.st = .waiting → wr.held = none → rd.st = .done →
      s.pastReads o [key] = true → s.duplicate o.requester wr.sent = false →
      s.inTurn o.requester (blockOf key) (s.lineOf wr) = true →
      o.pieceBytes = [(off, bs)] → off = wr.addr.toNat % 64 → bs.length = wr.len → off ≤ key →
      wr.site (s.place tm gr g.grpid.toNat wr.lane .copyWrite wr.sp wr.addr wr.len 1) = .at key none →
      s.passes o.core wr key = true → (s.dirOf (blockOf key)).owner = none →
      ∃ t q, exec (.homeRequest op 1) s = .next t ∧
        (∀ j, j < wr.len → some (Store.read t.mem (key + j)) = bs[j]?) ∧
        (∀ y, (y < key ∨ key + wr.len ≤ y) → Store.read t.mem y = Store.read s.mem y) ∧
        t.op? op = some q ∧ q.cursor = o.nextBlock (o.total + 1) (o.cursor + wr.len) ∧ (o.total ≤ q.cursor → q.stage = 2))

/-- 09 R262, R265, R266, R268, R269, R278, Table 9.3: a clasp instruction acts on its clasp at the clasp's home. CLINIT
writes it, CLINV clears its valid bit, CLEXP updates it with no arrival and minus its operand in bytes, CLARR with one
arrival; an update that faults marks the command and changes nothing. The groups that wait on a clasp whose phase is now
another or that is invalid are released, each with the value it returns. CLTEST reads phase and validity. A copy's count,
the bytes it wrote, is applied with no arrival; a copy with no clasp leaves its engine when its last byte has been written.
The model's own choice: the step of a clasp in a core's own memory (log 44). -/
def Obligations.ClaspsAtHome : Prop :=
  ∀ (s : State) (op key : Nat) (o : Op), s.op? op = some o →
    let was := s.claspAt key
    -- the command has come to its clasp, which no L1 owns
    let reached := fun (p : Part) (sp : Space) (addr : W64) => p.held = none ∧ s.claspTurn o = true ∧ addr.toNat % 64 = 0 ∧
      (∃ g tm gr, s.ownerOf o = some (g, tm, gr) ∧
        p.site (s.place tm gr g.grpid.toNat p.lane .atomic sp addr 64 1) = .at key none) ∧
      s.passes o.core p key = true ∧ s.duplicate o.requester p.sent = false ∧
      s.inTurn o.requester (blockOf key) (s.lineOf p) = true ∧ (s.dirOf (blockOf key)).owner = none
    let elsewhere := fun (t : State) => ∀ y, (y < key ∨ key + 64 ≤ y) → Store.read t.mem y = Store.read s.mem y
    -- what becomes of the groups that wait on the clasp, which is now `c`
    let releases := fun (t : State) (c : Clasp) => ∀ h sp' a' phase sc', s.group? h.gid = some h →
      h.st = .blockedClasp sp' a' key phase sc' → (key < 2 ^ 46 ∨ ∃ u, s.team? h.team = some u ∧ u.resident = true) →
      ∃ h', t.group? h.gid = some h' ∧
        (c.state = 1 ∧ BitVec.ofNat 64 c.phase = phase → h'.st = h.st) ∧
        (¬(c.state = 1 ∧ BitVec.ofNat 64 c.phase = phase) → h'.st = .ready ∧
          h'.freed = some (BitVec.ofNat 64 (c.phase + if c.state = 1 then 0 else 2 ^ 32)))
    let ends := fun (i : Instr) (c : Clasp) => ∃ t, exec i s = .next t ∧ t.op? op = none ∧ elsewhere t ∧ t.claspAt key = c ∧
      (c.malformed = false → o.flag = none → releases t c)
    let faults := fun (i : Instr) (part x : Nat) => ∃ t q f, exec i s = .next t ∧ t.mem = s.mem ∧ t.op? op = some q ∧
      (q.parts[part]?).map (·.st) = some .faulted ∧ q.fault = some f ∧ f.cause = 7 ∧ f.detail = BitVec.ofNat 8 x
    let updates := fun (i : Instr) (part a d : Nat) =>
      (∀ c, was.update a d = .ok c → ends i c) ∧ ∀ x, was.update a d = .error x → faults i part x
    (∀ (p : Part) (k : BitVec 3) (a b c : Src) (sp : Space) (sc : Scope),
      let v := o.cap 1 o.low
      let addr := o.cap 0 o.low
      let clear := s.engineClear o = true
      o.parts[0]? = some p → p.st = .waiting → o.fault = none → reached p sp addr →
      (o.instr = .clinit k a b c sp → clear → ends (.homeRequest op 0)
        ⟨0, 1, v.toNat % 2 ^ 32, v.toNat % 2 ^ 32, (o.cap 2 o.low).toNat, (o.cap 2 o.low).toNat, 0⟩) ∧
      (s.poisoned key = false →
        (o.instr = .clinv k a sp → clear → was.malformed = false →
          ends (.homeRequest op 0) { was with state := was.state - was.state % 2 }) ∧
        (o.instr = .clinv k a sp → clear → was.malformed = true → faults (.homeRequest op 0) 0 3) ∧
        (o.instr = .clexp k a b sp → clear → updates (.homeRequest op 0) 0 0 (2 ^ 64 - v.toNat)) ∧
        (o.instr = .clarr k a b sp sc → (s.earlier o).isEmpty = true → s.gathered op = true →
          (scopeFar sc = false ∨ ∀ g, s.group? o.gid = some g → g.touched = []) →
          updates (.homeRequest op 0) 0 1 (2 ^ 64 - v.toNat)) ∧
        (∀ d acq, o.instr = .cltest k d a sp acq → s.loadClear o = true →
          (was.malformed = true → faults (.homeRequest op 0) 0 3) ∧
          (was.malformed = false → ∃ t q, exec (.homeRequest op 0) s = .next t ∧ t.mem = s.mem ∧ t.op? op = some q ∧
            (q.parts[0]?).map (·.st) = some .done ∧
            q.laneNat 0 8 = was.phase + if was.state % 2 = 1 then 0 else 2 ^ 32)))) ∧
    (∀ x sp (p : Part), (o.instr = .copy x ∨ o.instr = .copy2d x ∨ o.instr = .copy3d x ∨ o.instr = .copym x) →
      x.cls = some sp → o.parts[2]? = some p → o.fault = none → o.stage = 2 → scopeFar x.scope = false →
      s.gathered op = true → reached p sp (o.par 0) → s.poisoned key = false →
      updates (.copyComplete op) 2 0 o.counted) ∧
    (∀ x, (o.instr = .copy x ∨ o.instr = .copy2d x ∨ o.instr = .copy3d x ∨ o.instr = .copym x) → x.cls = none →
      o.fault = none → o.stage = 2 → scopeFar x.scope = false → s.gathered op = true →
      ∃ t, exec (.copyComplete op) s = .next t ∧ t.op? op = none ∧ t.mem = s.mem)

/-! ## Synchronisation (chapter 13) -/

/-- 13 R357, R359, R367, R368: the atomics and the bangle operations are accepted as flag-bound commands that push at
issue, one operation in each executing lane, up to 32 of a group; BNGINIT, which is not flag-bound, acts once. -/
def Obligations.AtomicsIssue : Prop :=
  ∀ (s : State) (e : Env), s.envOf s.focus = some e → s.atomicsOut s.focus < 32 →
    s.ops.all (fun o => o.fault.isNone) = true → ∀ (k : BitVec 3) (d : Dst) (a b c : Src) (x : AtomX),
    let ex := e.lanes k
    let at_ := e.src64 a
    let n := if x.wide then 8 else 4
    let caps := fun (o : Op) (j : Nat) (v : Nat → W64) => ∀ l, l < 32 → ex.getLsbD l = true → o.cap j l = v l
    (∀ op, IssuesPush s e (.atom op k d a b x) ex fun o => OneEach o x.space at_ n ∧ caps o 1 (e.src x.wide b)) ∧
    (∀ op, IssuesPush s e (.fatom op k d a b x) ex fun o => OneEach o x.space at_ n ∧ caps o 1 (e.src x.wide b)) ∧
    (∀ op, IssuesPush s e (.atomw op k d a b c x) ex fun o =>
      OneEach o x.space at_ 8 ∧ caps o 1 (e.src32 b) ∧ caps o 2 (e.src32 c)) ∧
    (IssuesPush s e (.acas k d a b c x) ex fun o =>
      OneEach o x.space at_ n ∧ caps o 1 (e.src x.wide b) ∧ caps o 2 (e.src x.wide c)) ∧
    (IssuesPush s e (.enq k d a b x) ex fun o => OneEach o x.space at_ 64 ∧ caps o 1 (e.src64 b)) ∧
    (IssuesPush s e (.deq k d a x) ex fun o => OneEach o x.space at_ 64) ∧
    (lowestLane ex = none → CompletesAs s e (.bnginit k a b c x) e.g) ∧
    (∀ l key r, lowestLane ex = some l → (e.src64 b l).toNat % 8 = 0 → 1 ≤ (e.src32 c l).toNat → (e.src32 c l).toNat ≤ 24 →
      s.place e.t e.gr e.g.grpid.toNat l .atomic x.space (at_ l) 64 64 = .at key r →
      Issues s e (.bnginit k a b c x) (laneBit l) fun o => o.parts.length = 1)

/-- 13 R358 to R365, Tables 13.2, 13.3, 07 R201: an atomic performed at its engine: the word becomes f of its old value and
the operands, every other byte of memory is as before, and the old value is the lane's answer. One that releases is
performed once every earlier access of its group has been, and at die scope or wider sends its markers first; one that
acquires at cluster scope or wider drops the self-invalidating lines of its core. FATOM keeps its flags with the answer,
and its completion adds them to the FPST of the lanes that executed. -/
def Obligations.AtomicsPerform : Prop :=
  (∀ (s : State) (op i : Nat) (o : Op) (p : Part) (x : AtomX) (g : Group), s.op? op = some o → o.parts[i]? = some p →
    p.st = .waiting → p.held = none → o.atomX = some x → (x.order = .rel ∨ x.order = .ar) → (s.ownerOf o).map (·.1) = some g →
    (s.earlier o).isEmpty = true → s.gathered op = true → scopeFar x.scope = true → g.touched ≠ [] →
    ∃ t, exec (.atomicPerform op i) s = .next t ∧ t.mem = s.mem ∧ t.ops = s.ops ∧
      (t.group? o.gid).map (·.touched) = some [] ∧
      ∀ d ∈ g.touched, ∀ path ∈ s.pathsTo o.core d, ∃ m ∈ t.msgs, m.body = .marker op d ∧
        (m.sent.map fun y => (y.home, y.path)) = some (d, path)) ∧
  (∀ (s : State) (op : Nat) (o : Op) (g : Group) (A : FatomOp) (k : BitVec 3) (d : Dst) (a b : Src) (x : AtomX),
    s.op? op = some o → s.group? o.gid = some g → g.st = .ready → o.instr = .fatom A k d a b x → o.fault = none →
    o.stage = 0 → o.allDone = true →
    ∃ t u, exec (.operationComplete op) s = .next t ∧ t.op? op = none ∧ t.mem = s.mem ∧ t.group? o.gid = some u ∧
      ∀ l, l < 32 → Store.read u.fpst l =
        if o.ex.getLsbD l then Store.read g.fpst l ||| o.laneWord l 2 else Store.read g.fpst l) ∧
  ∀ (s : State) (op i key : Nat) (o : Op) (p : Part) (x : AtomX) (g : Group) (tm : Team) (gr : Grid),
    s.op? op = some o → o.parts[i]? = some p → p.st = .waiting → p.held = none → s.duplicate o.requester p.sent = false →
    s.ownerOf o = some (g, tm, gr) →
    (x.order = .relaxed ∨ x.order = .acq ∨ (s.earlier o).isEmpty = true ∧ s.gathered op = true ∧
      (scopeFar x.scope = false ∨ g.touched = [])) →
    s.atomTurn o i key = true → s.passes o.core p key = true → s.poisoned key = false →
    (s.dirOf (blockOf key)).owner = none →
    let n := if x.wide then 8 else 4
    let w := 8 * n
    let old := s.le key n
    let b := (o.cap 1 p.lane).toNat % 2 ^ w
    let c := (o.cap 2 p.lane).toNat % 2 ^ w
    let sgn := fun (v : Nat) => if v < 2 ^ (w - 1) then (v : Int) else (v : Int) - 2 ^ w
    p.site (s.place tm gr g.grpid.toNat p.lane .atomic p.sp p.addr n n) = .at key none →
    let flagged := fun (v : Nat) (flags : W32) => ∃ t q, exec (.atomicPerform op i) s = .next t ∧ t.le key n = v ∧
      (∀ y, (y < key ∨ key + n ≤ y) → Store.read t.mem y = Store.read s.mem y) ∧ t.op? op = some q ∧
      (q.parts[i]?).map (·.st) = some .done ∧ q.laneNat p.lane 8 = old ∧ q.laneWord p.lane 2 = flags ∧
      ((x.order = .acq ∨ x.order = .ar) → scopeWide x.scope = true →
        ∀ blk ln, t.line? o.core blk = some ln → ln.st ≠ .si)
    let becomes := fun (v : Nat) => flagged v 0
    (∀ (k : BitVec 3) (d : Dst) (a b' : Src) (A : AtomOp),
      o.instr = .atom A k d a b' x → becomes (match A with
        | .add => (old + b) % 2 ^ w
        | .min => if sgn b < sgn old then b else old
        | .max => if sgn old < sgn b then b else old
        | .umin => min old b
        | .umax => max old b
        | .and => old &&& b
        | .or => old ||| b
        | .xor => old ^^^ b
        | .xchg => b
        | .incw => if b ≤ old then 0 else old + 1
        | .decw => if old = 0 ∨ b < old then b else old - 1)) ∧
    (∀ (k : BitVec 3) (d : Dst) (a b' c' : Src), o.instr = .acas k d a b' c' x → becomes (if old = b then c else old)) ∧
    (∀ (k : BitVec 3) (d : Dst) (a b' c' : Src) (A : AtomwOp), x.wide = true → o.instr = .atomw A k d a b' c' x →
      let kv := (o.cap 1 p.lane).toNat % 2 ^ 32 * 2 ^ 32 + (o.cap 2 p.lane).toNat % 2 ^ 32
      becomes (match A with | .min => min kv old | .max => max kv old | .xchg => kv)) ∧
    let t : FpTy := if x.wide then .f64 else .f32
    let A := t.fmt.unpack old
    let B := t.fmt.unpack b
    let nv : W32 := if A.isSNan || B.isSNan then xNV else 0
    (∀ (k : BitVec 3) (d : Dst) (a b' : Src), o.instr = .fatom .add k d a b' x →
      let r := faddVal t .rne false (BitVec.ofNat 64 old) (BitVec.ofNat 64 b)
      flagged (r.1.toNat % 2 ^ w) r.2) ∧
    -- of a NaN and a number the number, of two NaNs the canonical one; -0 lies below +0
    (∀ (k : BitVec 3) (d : Dst) (a b' : Src) (isMax : Bool),
      o.instr = .fatom (if isMax then .max else .min) k d a b' x →
      flagged (if A.isNan && B.isNan then t.fmt.qnan else if A.isNan then b else if B.isNan then old
        else if Fp.below A B != isMax then old else b) nv)

/-- 13 R367 to R369: ENQ puts its value in the slot at the tail and advances the tail, unless the bangle is full or the
value is the reserved one; DEQ takes the slot at the head and advances the head, or answers empty. -/
def Obligations.BangleOperations : Prop :=
  ∀ (s : State) (op i key sk : Nat) (o : Op) (p : Part) (x : AtomX) (g : Group) (tm : Team) (gr : Grid) (k : BitVec 3) (d : Dst)
    (a v : Src),
    s.op? op = some o → o.parts[i]? = some p → p.st = .waiting → p.held = none → s.duplicate o.requester p.sent = false →
    s.ownerOf o = some (g, tm, gr) → x.order = .relaxed →
    s.atomTurn o i key = true → s.passes o.core p key = true → s.poisoned key = false → s.poisoned sk = false →
    (s.dirOf (blockOf key)).owner = none → (s.dirOf (blockOf sk)).owner = none →
    s.place tm gr g.grpid.toNat p.lane .atomic p.sp p.addr 64 64 = .at key none →
    let b := s.bangleAt key
    b.detail = 0 → (sk + 8 ≤ key ∨ key + 64 ≤ sk) →
    let answers := fun (t : State) (r : Nat) => ∃ q, t.op? op = some q ∧ (q.parts[i]?).map (·.st) = some .done ∧ q.laneNat p.lane 8 = r
    (o.instr = .enq k d a v x →
      let val := (o.cap 1 p.lane).toNat
      (b.used = 2 ^ b.cap → val ≠ 2 ^ 64 - 1 →
        ∃ t, exec (.atomicPerform op i) s = .next t ∧ t.mem = s.mem ∧ answers t (2 ^ 63 + b.tail % 2 ^ 32)) ∧
      (b.used ≠ 2 ^ b.cap → val ≠ 2 ^ 64 - 1 →
        s.place tm gr g.grpid.toNat p.lane .atomic p.sp (BitVec.ofNat 64 (b.slots + 8 * (b.tail % 2 ^ b.cap))) 8 8 = .at sk none →
        ∃ t, exec (.atomicPerform op i) s = .next t ∧ t.le sk 8 = val ∧
          t.bangleAt key = { b with tail := (b.tail + 1) % 2 ^ 64 } ∧ answers t (b.tail % 2 ^ 32))) ∧
    (o.instr = .deq k d a x →
      (b.head = b.tail → ∃ t, exec (.atomicPerform op i) s = .next t ∧ t.mem = s.mem ∧ answers t (2 ^ 64 - 1)) ∧
      (b.head ≠ b.tail →
        s.place tm gr g.grpid.toNat p.lane .atomic p.sp (BitVec.ofNat 64 (b.slots + 8 * (b.head % 2 ^ b.cap))) 8 8 = .at sk none →
        ∃ t, exec (.atomicPerform op i) s = .next t ∧ answers t (s.le sk 8) ∧
          t.bangleAt key = { b with head := (b.head + 1) % 2 ^ 64 }))

/-! ## The matrix engine and the sampler (chapters 10 to 12) -/

/-- 10 R285, 11 R309 to R314, R317 to R321: a matrix instruction is accepted as a command of its team, with its operands
as they stand before the loop counters that it names advance, when the engine has room; with no executing lane it acts on
nothing. MMA and the transfers are bound to a flag, SCLR, POPLD and PREPLD push as well, TZERO, ACCZ and SCLW do neither.
-/
def Obligations.MatrixIssue : Prop :=
  ∀ (s : State) (e : Env), s.envOf s.focus = some e →
    let counters := fun (h : Group) => { h with lc0 := e.g.lc0, lc1 := e.g.lc1, lc2 := e.g.lc2, lc3 := e.g.lc3 } = e.g
    let accepts := fun (i : Instr) (l : Nat) (flagged : Bool) (P : State → Op → Group → Prop) => ∃ t o h,
      exec i s = .next t ∧ Accepted { s with teams := t.teams } e t o h ∧ o.ofWord s e i (laneBit l) ∧
        o.flag = (if flagged then some e.r.flag else none) ∧ P t o h
    let same := fun (t : State) => ∀ n, t.team? n = s.team? n
    -- with no executing lane
    (∀ x : MmaX, lowestLane (e.lanes x.k) = none →
      CompletesAs s e (.mma x) e.g ∧ CompletesAs s e (.mmat x) e.g ∧ CompletesAs s e (.mmafx x) e.g) ∧
    (∀ x : TileMemX, lowestLane (e.lanes x.k) = none → CompletesAs s e (.tld x) e.g ∧ CompletesAs s e (.tst x) e.g) ∧
    (∀ x : SlotX, lowestLane (e.lanes x.k) = none → ∀ i ∈ [Instr.popld x, .prepld x],
      ∃ t h, exec i s = .next t ∧ Done s e t h ∧ Wrote e.g h 0 .queue false (fun _ => 0)) ∧
    -- with one, and room in the engine
    (s.mxFull e.t.id = false →
      (∀ (x : MmaX) (l : Nat), lowestLane (e.lanes x.k) = some l → ∀ i ∈ [Instr.mma x, .mmat x, .mmafx x],
        accepts i l true fun t o h => same t ∧ counters h ∧ o.block = e.src64 x.c l ∧
          (∀ n, n < 16 → o.sc n = Store.read e.t.sc n) ∧
          (x.ta.lc = none → x.tb.lc = none → x.acc.lc = none → h = e.g)) ∧
      (∀ (x : TileMemX) (l : Nat), lowestLane (e.lanes x.k) = some l → ∀ i ∈ [Instr.tld x, .tst x],
        accepts i l true fun t o h => same t ∧ counters h ∧ o.cap 1 l = e.src64 x.addr l ∧ o.cap 2 l = e.src64 x.geom l) ∧
      (∀ (x : AccMemX) (l : Nat), lowestLane (e.lanes x.k) = some l → ∀ i ∈ [Instr.accld x, .accst x],
        accepts i l true fun t o h => same t ∧ counters h ∧ o.cap 1 l = e.src64 x.addr l ∧ o.cap 2 l = e.src32 x.n l) ∧
      (∀ k f qm l, lowestLane (e.lanes k) = some l → e.g.tileNum f < e.gr.ko.tiles →
        accepts (.tzero k f qm) l false fun t _ h => same t ∧ counters h) ∧
      (∀ k f qm l, lowestLane (e.lanes k) = some l → e.gr.ko.tiles ≤ e.g.tileNum f → e.debugged s →
        HostParks s e (.tzero k f qm) 8 3) ∧
      (∀ k f n l, lowestLane (e.lanes k) = some l → 1 ≤ (e.src32 n l).toNat → (e.src32 n l).toNat ≤ 512 →
        e.g.accNum f + (e.src32 n l).toNat ≤ e.t.accUnits →
        accepts (.accz k f n) l false fun t o h => same t ∧ counters h ∧ o.cap 1 l = e.src32 n l) ∧
      (∀ k a r l, lowestLane (e.lanes k) = some l → accepts (.sclw k a r) l false fun t o h => h = e.g ∧
        o.cap 0 l = e.src64 a l ∧ (t.team? e.t.id).map (fun u => Store.read u.sc r.toNat) =
          some (if r.toNat < 16 then e.src64 a l else Store.read e.t.sc r.toNat)) ∧
      (∀ k d r l, lowestLane (e.lanes k) = some l → accepts (.sclr k d r) l true fun t o h => same t ∧
        Wrote e.g h 0 .queue false (fun _ => 0) ∧ (r.toNat < 16 → o.sc r.toNat = Store.read e.t.sc r.toNat)) ∧
      (∀ (x : SlotX) (l : Nat), lowestLane (e.lanes x.k) = some l → ∀ i ∈ [Instr.popld x, .prepld x],
        accepts i l true fun t _ h => same t ∧ Wrote e.g h 0 .queue false (fun _ => 0)))

/-- 10 R282, R308, 11 R315, R317, R318, R320, R321: a matrix command at its turn in the team's order. TZERO zeroes the
tile's bytes in the quadrants it names and ACCZ its units; SCLW and SCLR complete and are answered; a transfer whose
conditions hold begins its accesses, and an empty program empties its slot. An operation whose conditions fail is a matrix
fault, and changes no register; one whose conditions hold runs the product of its next quadrant, which changes that
quadrant's accumulator units and nothing else of the data, until the last product leaves it to its post program. The
model's own choice: the order of commands of a team (logs 12, 13), that of the products (log 88), and that a count outside 1
to 512 gives detail 11 where detail 10 would hold too (log 20). -/
def Obligations.MatrixAcceptance : Prop :=
  ∀ (s : State) (op : Nat) (o : Op) (g : Group) (tm : Team) (gr : Grid), s.op? op = some o →
    s.ownerOf o = some (g, tm, gr) → s.team? tm.id = some tm → o.fault = none →
    let goes := fun (P : State → Op → Prop) => ∃ t q, exec (.matrixAccept op) s = .next t ∧ t.op? op = some q ∧ P t q
    let ends := fun (P : State → Team → Prop) => ∃ t u, exec (.matrixAccept op) s = .next t ∧ t.op? op = none ∧
      t.mem = s.mem ∧ t.team? tm.id = some u ∧ P t u
    let faults := fun (d : Nat) => goes fun t q => t = { s with ops := t.ops } ∧
      ∃ f, q.fault = some f ∧ f.cause = 8 ∧ f.detail = BitVec.ofNat 8 d
    let begins := goes fun t q => t = { s with ops := t.ops } ∧ q.stage = 1 ∧ q.fault = none
    let multiplies := fun (q : Nat) (m : Mode) => goes fun t x => t.mem = s.mem ∧ t.groups = s.groups ∧
      x.cursor = o.cursor + 1 ∧
      x.stage = (if o.cursor + 1 < o.quads.length then 3 else if o.block.getLsbD 16 then 2 else 1) ∧
      ∃ u, t.team? tm.id = some u ∧ u.tiles = tm.tiles ∧ u.sidecars = tm.sidecars ∧ u.sc = tm.sc ∧
        let base := (o.mxNums.2.2 + o.unitW * q) * 1024
        ∀ b, (b < base ∨ base + (if m = .fx then 4096 else 1024) ≤ b) → Store.read u.acc b = Store.read tm.acc b
    let isMma := ∃ x, o.instr = .mma x ∨ o.instr = .mmat x ∨ o.instr = .mmafx x
    (o.stage = 0 → s.mxTurn tm.id o = true → s.fencesPast o = true →
      (∀ k f qm, o.instr = .tzero k f qm → o.mxNums.1 < 32 → ends fun _ u => u.acc = tm.acc ∧
        ∀ q n b, q < 4 → n < 32 → b < 2048 → Store.read u.tiles (tileKey q n + b) =
          if qm.getLsbD q = true ∧ n = o.mxNums.1 then 0 else Store.read tm.tiles (tileKey q n + b)) ∧
      (∀ k f n, o.instr = .accz k f n → ends fun _ u => u.tiles = tm.tiles ∧ ∀ b, Store.read u.acc b =
        if o.mxNums.2.2 * 1024 ≤ b ∧ b < (o.mxNums.2.2 + o.count) * 1024 then 0 else Store.read tm.acc b) ∧
      (∀ k a r, o.instr = .sclw k a r → ends fun _ u => u.tiles = tm.tiles ∧ u.acc = tm.acc ∧ u.sc = tm.sc) ∧
      (∀ k d r, o.instr = .sclr k d r → goes fun t q => t = { s with ops := t.ops } ∧ q.stage = 2 ∧
        BitVec.ofNat 64 (leNat (Store.readList q.buf 0 8)) = if r = 16 then tm.mxst.setWidth 64 else o.sc r.toNat) ∧
      (∀ x store, (o.instr = .tld x ∧ store = false ∨ o.instr = .tst x ∧ store = true) →
        let geom := o.cap 2 o.low
        (gr.ko.tiles ≤ o.mxNums.1 → faults 3) ∧
        (o.mxNums.1 < gr.ko.tiles → (store = true → tm.tilePoison = []) →
          (fld geom 59 56 ≠ 0 → faults 11) ∧
          (fld geom 59 56 = 0 → (x.tags = false ∨ x.space = .g ∧ (o.cap 1 o.low).toNat % 64 = 0 ∧ fld geom 31 0 % 64 = 0 ∧
            fld geom 55 32 % 64 = 0) → begins))) ∧
      (∀ x store, (o.instr = .accld x ∧ store = false ∨ o.instr = .accst x ∧ store = true) →
        ((o.count = 0 ∨ 512 < o.count) → faults 11) ∧
        (1 ≤ o.count → o.count ≤ 512 → (store = true → tm.accPoison = []) →
          (tm.accUnits < o.mxNums.2.2 + o.count → faults 10) ∧ (o.mxNums.2.2 + o.count ≤ tm.accUnits → begins))) ∧
      (∀ x pre, (o.instr = .prepld x ∧ pre = true ∨ o.instr = .popld x ∧ pre = false) →
        (x.src ≠ none → begins) ∧
        (x.src = none → goes fun t q => t.mem = s.mem ∧ q.stage = 2 ∧ leNat (Store.readList q.buf 0 8) = 0 ∧
          ∃ u, t.team? tm.id = some u ∧ u.program pre x.slot.toNat = none)) ∧
      (isMma → (mmaDetail tm gr.ko.tiles o ≠ 0 → faults (mmaDetail tm gr.ko.tiles o)) ∧
        ∀ da db m q, mmaDetail tm gr.ko.tiles o = 0 → declOf o.preWords false = some da → declOf o.preWords true = some db →
          modeOf da.fmt db.fmt = some m → o.quads[o.cursor]? = some q → multiplies q m)) ∧
    (o.stage = 3 → isMma → ∀ da db m q, declOf o.preWords false = some da → declOf o.preWords true = some db →
      modeOf da.fmt db.fmt = some m → o.quads[o.cursor]? = some q →
      (tm.tilePoison = [] → tm.accPoison = [] → multiplies q m) ∧
      ((∃ u ∈ o.productUnits q, u ∈ tm.accPoison) → faults 7))

/-- 10 R296: an integer K-step sequence leaves, in an accumulator of w bits, the starting value plus the whole dot product
modulo 2^w, with no other flag than its overflow flag; one step raises that flag exactly when its exact sum, from the
accumulator as a signed number, leaves the signed range. -/
def Obligations.IntegerAccumulation : Prop :=
  ∀ (w ks n : Nat) (flag : W32) (a b : List Int) (acc : Nat) (fl : W32), 0 < w → acc < 2 ^ w →
    ((intSteps w ks flag n a b (acc, fl)).1 : Int) = ((acc : Int) + dot (a.take (n * ks)) (b.take (n * ks))) % 2 ^ w ∧
    ((intSteps w ks flag n a b (acc, fl)).2 = fl ∨ (intSteps w ks flag n a b (acc, fl)).2 = fl ||| flag) ∧
    (let sum := (if acc < 2 ^ (w - 1) then (acc : Int) else acc - 2 ^ w) + dot (a.take ks) (b.take ks)
     (intSteps w ks flag 1 a b (acc, fl)).2 = if -2 ^ (w - 1) ≤ sum ∧ sum < 2 ^ (w - 1) then fl else fl ||| flag)

/-- 11 R317 to R319: a part of a TLD puts the bytes it reads in the tile, and a part of a TST stores the tile's bytes: in a
core's or the chip's scratchpad, or in HBM with .nc and no L1 holding the line. The model's own choice: the step that
performs a part in a local space (log 44). -/
def Obligations.TileTransfers : Prop :=
  ∀ (s : State) (op i key : Nat) (o : Op) (p : Part) (x : TileMemX) (g : Group) (tm : Team) (gr : Grid),
    s.op? op = some o → o.parts[i]? = some p → s.ownerOf o = some (g, tm, gr) → s.team? tm.id = some tm → p.st = .waiting →
    p.held = none → x.tags = false → (isHbm key = true → x.nc = true) → p.addr.toNat % 16 = 0 → s.passes o.core p key = true →
    s.poisoned key = false → (isHbm key = true → (s.dirOf (blockOf key)).owner = none ∧ s.line? o.core (blockOf key) = none) →
    (o.instr = .tld x → s.engineClear o = true → s.scoreHold o.gid o.id key p.len false = false →
      p.site (s.place tm gr g.grpid.toNat o.low .matrix p.sp (p.addr + BitVec.ofNat 64 p.off) p.len 1) = .at key none →
      ∃ t u, exec (.homeRequest op i) s = .next t ∧ t.mem = s.mem ∧ t.team? tm.id = some u ∧
        (Store.wf tm.tiles = true → Store.wf u.tiles = true) ∧
        (∀ j, j < p.len → Store.read u.tiles (p.key + j) = Store.read s.mem (key + j)) ∧
        (∀ b, (b < p.key ∨ p.key + p.len ≤ b) → Store.read u.tiles b = Store.read tm.tiles b)) ∧
    (o.instr = .tst x → s.storeClear o = true → o.overlapsEarlier i p = false → s.duplicate o.requester p.sent = false →
      s.inTurn o.requester (blockOf key) (s.lineOf p) = true →
      s.scoreHold o.gid o.id key p.len true = false → Store.wf tm.tiles = true →
      p.site (s.place tm gr g.grpid.toNat o.low .store p.sp (p.addr + BitVec.ofNat 64 p.off) p.len 1) = .at key none →
      ∃ t, exec (.homeRequest op i) s = .next t ∧ t.teams = s.teams ∧
        (∀ j, j < p.len → Store.read t.mem (key + j) = Store.read tm.tiles (p.key + j)) ∧
        (∀ y, (y < key ∨ key + p.len ≤ y) → Store.read t.mem y = Store.read s.mem y))

/-- 01 R18, 10 R302, 11 R316, R320, R321: the post stage runs its program once, and with it the operation has performed; a
fault of the program is the operation's, and a unit poisoned since is a matrix fault. A program of activations, clamps,
quantizations and discards alone touches no memory and no register. A matrix operation or transfer that has performed
leaves the engine, and its flag clears when no other command is bound to it; SCLR, PREPLD and POPLD put their value in the
queue entry that they pushed. -/
def Obligations.MatrixCompletes : Prop :=
  ∀ (s : State) (op : Nat) (o : Op) (g : Group), s.op? op = some o → s.group? o.gid = some g → g.st = .ready → o.fault = none →
    (∀ tm gr da db m, s.ownerOf o = some (g, tm, gr) → o.stage = 1 → o.postWords ≠ [] → s.postBusy tm.id o = false →
      (∀ p ∈ o.parts, p.held = none) →
      s.engineClear o = true → ((s.earlier o).all fun q => !q.untaken) = true →
      declOf o.preWords false = some da → declOf o.preWords true = some db → modeOf da.fmt db.fmt = some m →
      let bad := ∃ q j, q ∈ o.quads ∧ j < o.unitW ∧ o.mxNums.2.2 + o.unitW * q + j ∈ tm.accPoison
      (bad → ∃ t q f, exec (.postStageRun op) s = .next t ∧ t = { s with ops := t.ops } ∧ t.op? op = some q ∧
        q.fault = some f ∧ f.cause = 8 ∧ f.detail = 7) ∧
      (¬bad → (postRun s tm o m).hold = false → ∃ t, exec (.postStageRun op) s = .next t ∧ ∀ q, t.op? op = some q →
        match (postRun s tm o m).fault with
        | none => q.stage = 2 ∧ q.parts = []
        | some f => q.fault = some f) ∧
      (¬bad → s.team? tm.id = some tm → (∀ w ∈ o.postWords, wOp w ∈ [0x10, 0x13, 0x14, 0x15, 0x1D]) →
        ∃ t q u, exec (.postStageRun op) s = .next t ∧ t.op? op = some q ∧ q.stage = 2 ∧ q.parts = [] ∧ t.mem = s.mem ∧
          t.groups = s.groups ∧ t.team? tm.id = some u ∧ u = { tm with mxst := u.mxst })) ∧
    (((∃ x, o.instr = .mma x ∨ o.instr = .mmat x ∨ o.instr = .mmafx x) ∧ o.stage = 2 ∨
        ((∃ x, o.instr = .tld x ∨ o.instr = .tst x) ∨ (∃ x, o.instr = .accld x ∨ o.instr = .accst x)) ∧ o.stage = 1 ∧ o.allDone = true) →
      ∃ t u, exec (.operationComplete op) s = .next t ∧ t.op? op = none ∧ t.mem = s.mem ∧ t.teams = s.teams ∧
        t.group? o.gid = some u ∧
        (∀ f, o.flag = some f → f.toNat < 12 → g.run = none →
          (∀ q ∈ s.ops, q.gid = o.gid → q.id ≠ op → q.flag ≠ some f) → u.flags.getLsbD f.toNat = false)) ∧
    (((∃ k d r, o.instr = .sclr k d r) ∨ ∃ x, o.instr = .popld x ∨ o.instr = .prepld x) → o.stage = 2 →
      g.queue.length = 16 → g.pushes - o.pushAt < 16 →
      ∃ t u, exec (.operationComplete op) s = .next t ∧ t.op? op = none ∧ t.mem = s.mem ∧ t.teams = s.teams ∧
        t.group? o.gid = some u ∧ ∀ l, l < 32 → u.age (g.pushes - o.pushAt) l = if o.ex.getLsbD l
          then BitVec.ofNat 64 (leNat (Store.readList o.buf 0 8)) else g.age (g.pushes - o.pushAt) l)

/-- 12 R329, R335, R346 to R349: a sampler instruction captures its descriptor's address and the coordinates of its lanes,
and pushes at issue; with no executing lane nothing is read, and while the sampler is full the word is held. 12 R346, R351:
a descriptor that is not 64-byte aligned is a sampler fault with detail 1 in every executing lane; an SMPL whose reads are
done pushes its status word and writes its channels, and the command is gone. -/
def Obligations.SamplerCommands : Prop :=
  (∀ (s : State) (e : Env), s.envOf s.focus = some e →
     let issues := fun (i : Instr) (k : BitVec 3) (a : BitVec 5) (b : BitVec 6) (gather : Bool) =>
       (s.samplerFull e gather = true → exec i s = .next (s.hold e)) ∧
       (s.samplerFull e gather = false →
         (lowestLane (e.lanes k) = none → IssuesPush s e i (e.lanes k) fun o => o.parts = []) ∧
         (∀ l, lowestLane (e.lanes k) = some l →
           IssuesPush s e i (e.lanes k) fun o => o.cap 1 l = Store.read e.g.scal b.toNat ∧ o.parts.length = 2 ∧
             ∀ j, j < 32 → (e.lanes k).getLsbD j = true → o.cap 0 j = e.g.win64 a j))
     (∀ x : SmplX, issues (.smpl x) x.k x.a x.b false ∧ (∀ c, issues (.smpllLod x c) x.k x.a x.b false) ∧
       ∀ c, issues (.smpllGrad x c) x.k x.a x.b false) ∧
     (∀ x : SmplgX, issues (.smplg x) x.k x.a x.b true) ∧
     (∀ x : SresX, issues (.sres x) x.k x.a x.b false)) ∧
  (∀ (s : State) (op : Nat) (o : Op) (x : SmplX), s.op? op = some o → o.instr = .smpl x → o.ex ≠ 0 → o.fault = none →
     (∀ p, o.parts[0]? = some p → p.st = .waiting → o.stage = 0 → s.engineClear o = true → (o.cap 1 o.low).toNat % 64 ≠ 0 →
       ∃ t q f, exec (.homeRequest op 0) s = .next t ∧ t.mem = s.mem ∧ t.op? op = some q ∧ q.fault = some f ∧ f.cause = 9 ∧
         f.detail = 1 ∧ f.lanes = o.ex) ∧
     (∀ g, s.group? o.gid = some g → g.st = .ready → g.queue.length = 16 → g.pushes - o.pushAt < 16 → o.stage = 1 →
       o.allDone = true → ∃ t u, exec (.operationComplete op) s = .next t ∧ t.op? op = none ∧ t.mem = s.mem ∧
         t.group? o.gid = some u ∧
         (∀ l, l < 32 → u.age (g.pushes - o.pushAt) l = if o.ex.getLsbD l then o.status l else g.age (g.pushes - o.pushAt) l) ∧
         (x.half = false → ∀ l c, l < 32 → o.ex.getLsbD l = true → c < 4 →
           u.winWord x.d c l = BitVec.ofNat 32 ((o.channels l fmt32).getD c 0))))

/-! ## The work scheduler's words and the system words (chapter 14) -/

/-- 14 R399, R400, Table 14.13: CSRR and PTIME give the group's control registers and the time as its die has it; CSRW sets the
hang limit, up to the launch's, or the trace tag; ACCGROW gives the first new unit or refuses; NOP only advances. -/
def Obligations.SystemRegisters : Prop :=
  ∀ (s : State) (e : Env), s.envOf s.focus = some e → ∀ (k : BitVec 3) (d : Dst) (a : Src),
    CompletesAs s e (.nop k) e.g ∧
    Completes s e (.csrr k d 1) k d true (fun _ => if e.gr.node.isSome = true then e.gr.level.setWidth 64 else 0) ∧
    Completes s e (.csrr k d 2) k d true (fun _ => e.gr.deadline) ∧
    Completes s e (.csrr k d 3) k d true (fun _ => BitVec.ofNat 64 (e.gr.cls.toNat + 16 * e.gr.prio.toNat)) ∧
    Completes s e (.csrr k d 4) k d true (fun _ => e.g.hang.setWidth 64) ∧
    Completes s e (.csrr k d 5) k d true (fun _ => e.g.trace.setWidth 64) ∧
    (∀ l, lowestLane (e.lanes k) = some l →
      CompletesAs s e (.csrw k a 5) { e.g with trace := (e.src64 a l).setWidth 32 } ∧
      CompletesAs s e (.csrw k a 4)
        { e.g with hang := if e.gr.hang.toNat < (e.src64 a l).toNat then e.g.hang else (e.src64 a l).setWidth 32 }) ∧
    (lowestLane (e.lanes k) = none → ∀ csr, CompletesAs s e (.csrw k a csr) e.g) ∧
    Completes s e (.ptime k d) k d true (fun _ => BitVec.ofNat 64
      (s.ctl.ptc - if e.t.core < 288 then s.ctl.ptcLag0 else s.ctl.ptcLag1)) ∧
    Completes s e (.ptimeSkew k d) k d true (fun _ => s.ctl.ptskew) ∧
    (lowestLane (e.lanes k) = none → Completes s e (.accgrow k d a) k d true (fun _ => 0)) ∧
    (∀ l, lowestLane (e.lanes k) = some l →
      let m := (e.src32 a l).toNat
      let used := (s.teams.filter fun t => t.core == e.t.core && t.resident).foldl (fun n t => n + t.accUnits) 0
      -- team numbers are unique, and no start or growth takes the room kept for a node's one team (14 R381)
      (∀ t ∈ s.teams, t.id = e.t.id → t = e.t) → s.nodesHoused none →
      if m = 0 ∨ 512 < used + m ∨ 512 < e.t.accUnits + m then
        Completes s e (.accgrow k d a) k d true (fun _ => 0x8000000000000000)
      else ∃ t h, exec (.accgrow k d a) s = .next t ∧ Done { s with teams := t.teams } e t h ∧
        Wrote e.g h (e.lanes k) d true (fun _ => BitVec.ofNat 64 e.t.accUnits) ∧
        (t.team? e.t.id).map (fun u => (u.accUnits, u.tiles)) = some (e.t.accUnits + m, e.t.tiles))

/-- 14 R390, R400, 12 R356: TRAP and BKPT park the group with their causes, the code and the executing lanes: for the
host's debugger, for the handler, or, where there is neither, with its grid killed. With no executing lane they only
advance, and while the group has a sampler command under way the word is held. -/
def Obligations.SoftwareTraps : Prop :=
  ∀ (s : State) (e : Env), s.envOf s.focus = some e → ∀ (k : BitVec 3) (code : BitVec 16) (i : Instr) (cause : BitVec 8),
    (i = .trap k code ∧ cause = 12 ∨ i = .bkpt k code ∧ cause = 13) →
    (e.lanes k = 0 → CompletesAs s e i e.g) ∧
    (e.lanes k ≠ 0 → s.samplerBusy s.focus = true → exec i s = .next (s.hold e)) ∧
    (e.lanes k ≠ 0 → s.samplerBusy s.focus = false → s.ctxFits = true →
      (∃ t, exec i s = .next t) ∧
      let record := leBytes 2 code.toNat ++ [0, 0] ++ leBytes 4 (e.lanes k).toNat
      (e.debugged s → HostParksWith s e i cause 0 record) ∧
      (e.gr.serves = none → (s.queue e.gr.queue).ctl.getLsbD 8 = false → e.gr.node = none → e.gr.killed = none →
        let killed := fun (t : State) => (t.grid? e.gr.id).map (·.killed) = some (some (cause, 0)) ∧
          (t.group? s.focus).map (fun h => (h.st, h.live)) = some (.exited, 0)
        (e.gr.handler = 0 → ∃ t, exec i s = .next t ∧ killed t) ∧
        (e.gr.handler ≠ 0 → ∃ t, exec i s = .next t ∧ (killed t ∨ ∃ p c,
          t.group? s.focus = some (e.g.parkedWith p) ∧ p.record = record ∧ p.cause = cause ∧ p.route = .handler s.nextGrid ∧ t.grids = s.grids ++ [c] ∧ c.id = s.nextGrid ∧
          c.serves = some s.focus))))

/-- 14 R390, R391, 15 R404, R413: taking a park that the host's debugger serves: the group is parked and otherwise as it
was; QSTAT.park counts it, the queue's vector is raised, and the image in memory, which the ring of the service log does
not meet, holds the cause, the detail, the LPCs, the live set, the masks and the scalars; the log, unless it has no entries
or is full, has an entry of kind 9 with the cause, the image's address and the queue, and raises vector 64. A fault for the memory service writes no image (08 R243). Without a debugger and
without a handler the grid is killed. The model's own choice: the place of the image (log 9) and the number of a handler
grid (log 5). -/
def Obligations.TakingAPark : Prop :=
  ∀ (s : State) (gid word run : Nat) (f : FaultRec) (issuing : BitVec 48) (past : Option (BitVec 48)) (g : Group) (tm : Team)
    (gr : Grid), s.group? gid = some g → s.team? g.team = some tm → s.grid? tm.grid = some gr →
    let dpa := s.imageDpa tm.core g.quad
    let q := s.queue gr.queue
    let parked := g.parkedWith
    let logs := s.logRoom 1
    let names := fun (p : ParkRec) => p.record = packRecord g.current f.fields ∧ p.cause = f.cause ∧ p.detail = f.detail ∧ p.word = BitVec.ofNat 5 word ∧
      p.run = BitVec.ofNat 5 run ∧ p.issuing = issuing ∧ p.lpcs = g.lpc ∧ p.prior = g.st ∧ p.past = past
    (∀ page, f.service = some page → ∃ t p, s.park gid f word run issuing past = .next t ∧ t.mem = s.mem ∧
      t.group? gid = some (parked p) ∧ names p ∧ p.route = .service ∧ p.page = page) ∧
    (f.service = none → s.ctxFits = true → gr.serves = none →
      (q.ctl.getLsbD 8 = true → gr.queue < s.queues.length →
        (logs → s.offLog dpa (dpa + 65536)) →
        ∃ t p, s.park gid f word run issuing past = .next t ∧ t.group? gid = some (parked p) ∧ names p ∧
          p.route = .host gr.queue ∧ p.image = BitVec.ofNat 45 dpa ∧
          fld (t.queue gr.queue).stat 39 32 = (fld q.stat 39 32 + 1) % 256 ∧
          (¬logs → t.ctl.msix = s.ctl.msix ++ [gr.queue] ∧ t.ctl.svctail = s.ctl.svctail) ∧
          (logs → t.ctl.msix = s.ctl.msix ++ [64, gr.queue] ∧ t.ctl.svctail = s.ctl.svctail + 1 ∧
            t.logged (s.logAt 0) 9 f.cause.toNat p.image.toNat (gr.queue % 2 ^ 64) ∧
              t.le (s.logAt 0 + 8) 8 = s.ctl.ptc % 2 ^ 64) ∧
          (∀ y, y < dpa → (logs → s.offLog y (y + 1)) → Store.read t.mem y = Store.read s.mem y) ∧
          t.le dpa 1 = f.cause.toNat ∧ t.le (dpa + 1) 1 = f.detail.toNat ∧
          (∀ l, l < 32 → t.le (dpa + 0x340 + 8 * l) 8 = (Store.read g.lpc l).toNat) ∧
          (∀ n, n < 64 → t.le (dpa + 0x1440 + 8 * n) 8 = (Store.read g.scal n).toNat) ∧
          (∀ n, n < 7 → t.le (dpa + 0x1640 + 4 * n) 4 = (Store.read g.masks (n + 1)).toNat) ∧
          t.le (dpa + 0x165C) 4 = g.live.toNat) ∧
      (q.ctl.getLsbD 8 = false → gr.handler = 0 → gr.node = none → gr.killed = none →
        ∃ t, s.park gid f word run issuing past = .next t ∧
          (t.grid? gr.id).map (·.killed) = some (some (f.cause, f.detail)) ∧
          (t.group? gid).map (fun h => (h.st, h.live)) = some (.exited, 0)) ∧
      (q.ctl.getLsbD 8 = false → gr.handler ≠ 0 → gr.node = none → gr.killed = none →
        ∃ t, s.park gid f word run issuing past = .next t ∧
          ((∃ p c, t.group? gid = some (parked p) ∧ names p ∧ p.route = .handler s.nextGrid ∧ t.grids = s.grids ++ [c] ∧
              c.id = s.nextGrid ∧ c.serves = some gid ∧ c.cls = 4 ∧ c.prio = gr.prio ∧
              c.params = [(Config.imageVa (BitVec.ofNat 45 dpa).toNat).setWidth 64, gr.id]) ∨
            (t.grid? gr.id).map (·.killed) = some (some (f.cause, f.detail)))))

/-- 14 R391, R392, R400, R430: ERET, once the handler's commands have performed, applies its action to the group whose
image it names, and the handler goes on: 0 resumes it with the image's RW fields and LPCs; 1 does so behind the faulted
word: the clause goes on with the next run of REP or the next word, or ends with its lanes at the fall-through address, and
a clause that could not start is passed over; a group with an edited LPC takes a clause anew from its LPCs; 2 ends the
group and 3 its grid. A word that names no such image or no action is a scheduler fault; with no executing lane it
only advances. The model's own choice: the place of the image (log 9). -/
def Obligations.ReturnFromPark : Prop :=
  ∀ (s : State) (e : Env), s.envOf s.focus = some e → ∀ (k : BitVec 3) (a b : Src),
    (lowestLane (e.lanes k) = none → CompletesAs s e (.eret k a b) e.g) ∧
    ∀ l, lowestLane (e.lanes k) = some l →
    let action := (e.src32 b l).toNat
    ((s.imageNamed (e.src64 a l) = none ∨ 4 ≤ action) → e.debugged s → HostParks s e (.eret k a b) 11 4) ∧
    (∀ g p tm gr, s.imageNamed (e.src64 a l) = some g → s.group? g.gid = some g → g.park = some p →
      s.team? g.team = some tm → tm.resident = true → s.grid? tm.grid = some gr → action < 4 →
      ((∃ o ∈ s.ops, o.gid = s.focus ∧ o.fault = none) → exec (.eret k a b) s = .next (s.hold e)) ∧
      ((∀ o ∈ s.ops, o.gid = s.focus → o.fault ≠ none) →
        let d := p.image.toNat
        let u := s.recallRange d (d + 65536)
        let goesOn := fun (t : State) => ∃ x, t.group? s.focus = some x ∧ x.kept = e.g.kept
        -- an image whose PREC words cannot be taken parks the group again
        ((action ≤ 1 → u.imagePrecOk d = true ∨ s.ctxFits = true) → ∃ t, exec (.eret k a b) s = .next t) ∧
        (action ≤ 1 → u.imagePrecOk d = true → p.prior ≠ .parked → (∀ c ∈ gr.ko.caps, c ≤ 9) →
          let image := fun (j : Nat) => BitVec.ofNat 48 (u.le (d + 0x340 + 8 * j) 6)
          let live : W32 := BitVec.ofNat 32 (u.le (d + 0x165C) 4)
          let edited := ∃ j, j < 32 ∧ live.getLsbD j = true ∧ image j ≠ Store.read p.lpcs j
          ∃ t h, exec (.eret k a b) s = .next t ∧ goesOn t ∧ t.group? g.gid = some h ∧ h.st ≠ .parked ∧ h.park = none ∧
            Reloaded u d gr h ∧
            let kept := ∀ j, j < 32 → Store.read h.lpc j = image j
            (edited → h.run = none ∧ kept) ∧
            (action = 0 → ¬edited → h.run = g.run ∧ kept) ∧
            (action = 1 → ¬edited → ∀ r, g.run = some r →
              (¬(p.issuing = r.addr ∧ p.word.toNat = r.idx ∧ p.run.toNat = r.runNo) → h.run = some r ∧ kept) ∧
              (p.issuing = r.addr → p.word.toNat = r.idx → p.run.toNat = r.runNo →
                let again := match r.rep with | some x => r.idx = 2 ∧ r.runNo + 1 < x.n.toNat | none => False
                (again → h.run = some { r.passed with runNo := r.runNo + 1, held := false } ∧ kept) ∧
                (¬again → r.idx < r.hdr.count →
                  h.run = some { r.passed with idx := r.idx + 1, runNo := 0, held := false } ∧ kept) ∧
                (¬again → r.hdr.count ≤ r.idx → h.run = none ∧ ∀ j, j < 32 → Store.read h.lpc j =
                  if r.lanes.getLsbD j then r.addr + BitVec.ofNat 48 (8 * (r.hdr.count + 1)) else image j))) ∧
            (action = 1 → ¬edited → g.run = none →
              (p.past = none → h.run = none ∧ kept) ∧
              -- the clause that could not start is passed over by the lanes that would have run it
              ∀ next, p.past = some next → h.run = none ∧ ∃ x : Group, x.live = live ∧
                (∀ j, j < 32 → Store.read x.lpc j = image j) ∧
                ∀ j, j < 32 → Store.read h.lpc j = if x.activeLanes.getLsbD j then next else image j)) ∧
        (action = 2 → ∃ t h, exec (.eret k a b) s = .next t ∧ goesOn t ∧ t.group? g.gid = some h ∧ h.st = .exited ∧
          h.live = 0) ∧
        (action = 3 → gr.node = none → gr.killed = none → ∃ t, exec (.eret k a b) s = .next t ∧
          (t.grid? gr.id).map (·.killed) = some (some (p.cause, p.detail)) ∧
          (t.group? g.gid).map (fun h => (h.st, h.live)) = some (.exited, 0))))

/-- 14 R375, R376, R397: LAUNCH pushes the child's gridid at issue, and the child stands in the scheduler with its shape,
its parent's class, priority and deadline and one more level of depth; with no lane the result is 0; a depth of 10 is a
scheduler fault. The model's own choice: the number that the child takes (log 5). -/
def Obligations.NestedLaunch : Prop :=
  ∀ (s : State) (e : Env), s.envOf s.focus = some e → ∀ x : LaunchX,
    let blk := fun i => Store.read e.g.scal (x.n.toNat + i)
    (lowestLane (e.lanes x.k) = none → Completes s e (.launch x) x.k x.d true (fun _ => 0)) ∧
    (∀ l, lowestLane (e.lanes x.k) = some l →
      (10 ≤ e.gr.depth → e.debugged s → HostParks s e (.launch x) 11 1) ∧
      (e.gr.depth < 10 → e.gr.ko.flags.getLsbD 1 = true → badShape (blk 0) (blk 2) = false → fld (blk 2) 63 48 = 0 →
        s.pendingLaunches < 65536 →
        ∃ t h c, exec (.launch x) s = .next t ∧ Done { s with grids := t.grids, nextGrid := s.nextGrid + 1 } e t h ∧
          Wrote e.g h (e.lanes x.k) x.d true (fun _ => s.nextGrid) ∧ t.grids = s.grids ++ [c] ∧
          c.id = s.nextGrid ∧ c.depth = e.gr.depth + 1 ∧ c.dimX = fld (blk 0) 31 0 ∧ c.dimY = fld (blk 0) 47 32 ∧
          c.dimZ = fld (blk 0) 63 48 ∧ c.cls = e.gr.cls ∧ c.prio = e.gr.prio ∧ c.deadline = e.gr.deadline ∧
          c.status = blk 3 ∧ c.parentGrid = some e.gr.id ∧ c.pending = some (e.src64 x.a l, e.src64 x.b l)))

/-- 14 R377, R380, R381, R387, R398: EMIT and RELAT put one record for each executing lane into the pool, in ascending
lane order, RELAT's held until its time, and are held while the pool has no room; EMITN issues the read of its records; an
output that the node does not have, a window too small for its record, and a kernel that is no node's are scheduler
faults, with nothing emitted. The model's own choice: that EMITN refuses a present node at issue with detail 3 (log 70), and
that an emission waits for room for all its lanes (log 71). -/
def Obligations.RecordEmission : Prop :=
  ∀ (s : State) (e : Env), s.envOf s.focus = some e → ∀ (k : BitVec 3) (w : BitVec 5) (n : BitVec 3),
    let ex := e.lanes k
    let emits := fun (i : Instr) (t : Graph × Nat × GNode) (st : Nat → RecSt) => ∃ u rs, exec i s = .next u ∧
      Done { s with recs := u.recs, nextId := u.nextId } e u e.g ∧ u.recs = s.recs ++ rs ∧
      rs.map (fun r => (r.graph, r.node, r.data, r.st, r.gid, r.team)) = (laneList ex).map fun l =>
        (t.1.id, t.2.1, (List.range (t.2.2.recBytes / 4)).flatMap (fun j => leBytes 4 (e.g.winWord w j l).toNat), st l,
          s.focus, e.t.id)
    let node := e.gr.ko.flags.getLsbD 2
    let fits := fun (t : Graph × Nat × GNode) => t.2.2.recBytes ≤ 4 * e.gr.ko.caps.getD w.toNat 0
    let room := fun (t : Graph × Nat × GNode) => s.poolUsed t.1.id + t.2.2.recBytes * (laneList ex).length ≤ t.1.pool
    (ex = 0 → CompletesAs s e (.emit k w n) e.g ∧ (∀ b, CompletesAs s e (.relat k w b n) e.g) ∧
      ∀ d a b sp, IssuesPush s e (.emitn k d a b sp n) ex fun o => o.parts = []) ∧
    (ex ≠ 0 →
      (∀ t, s.outputOf e.gr n.toNat = some t → node = true →
        (t.2.2.type ≠ 4 → fits t → (room t → emits (.emit k w n) t fun _ => .sent) ∧
          (¬room t → exec (.emit k w n) s = .next (s.hold e))) ∧
        (fits t → ∀ b, (room t → emits (.relat k w b n) t fun l =>
            if (e.src64 b l).toNat ≤ s.ctl.ptc then .sent else .held (e.src64 b l)) ∧
          (¬room t → exec (.relat k w b n) s = .next (s.hold e))) ∧
        (∀ d a b sp l, t.2.2.type ≠ 4 → lowestLane ex = some l →
          ((e.src32 b l).toNat ≤ 65536 → IssuesPush s e (.emitn k d a b sp n) ex fun o =>
            o.parts.map (fun p => (p.sp, p.addr, p.len)) = [(sp, e.src64 a l, (e.src32 b l).toNat * t.2.2.recBytes)]) ∧
          (65536 < (e.src32 b l).toNat → e.debugged s → HostParks s e (.emitn k d a b sp n) 11 3)) ∧
        (¬fits t → e.debugged s → HostParks s e (.emit k w n) 11 3 ∧ ∀ b, HostParks s e (.relat k w b n) 11 3) ∧
        (t.2.2.type = 4 → e.debugged s → HostParks s e (.emit k w n) 11 3 ∧
          ∀ d a b sp, HostParks s e (.emitn k d a b sp n) 11 3)) ∧
      ((s.outputOf e.gr n.toNat = none ∨ node = false) → e.debugged s → HostParks s e (.emit k w n) 11 3 ∧
        (∀ b, HostParks s e (.relat k w b n) 11 3) ∧ ∀ d a b sp, HostParks s e (.emitn k d a b sp n) 11 3))

/-! ## The work scheduler's events (chapter 14) -/

/-- 14 R371 to R373, Tables 14.1, 14.3, 14.4: the host's doorbell sets a queue's tail, and its write of the halt bit clears
the report, while the part is up. The entries of a live queue, in either format, each at the step for its operation: op 0
only moves QHEAD on; op 3 does so once its word has reached the value; op 4 stores PTC first; op 5 asks for a quiesce
point; a byte that is no format halts the queue and raises its vector. 14 R373, R374, R377: a grid launch entry whose
kernel object and parameters can be read starts a grid of its shape, with the entry's or the queue's class and the queue's
priority, and a graph launch entry its graph with its root records; the hint list of a format 2 entry comes first, as a
quiesce point; a kernel object that breaks 02 R51 halts the queue with its condition. The model's own choice: the numbers
of grids and graphs (log 5), the slot that QSTAT names (log 74), and that root records go to the first root node and are
dropped where there is none (log 72). -/
def Obligations.HostQueues : Prop :=
  ∀ (s : State) (q : Nat), q < 64 → s.queues.length = 64 →
    let h := s.queue q
    let others := fun (t : State) => ∀ r, r ≠ q → t.queue r = s.queue r
    (s.ctl.up = false → exec (.qstatHaltClear q) s = .next s ∧ ∀ tail, exec (.queueDoorbell q tail) s = .next s) ∧
    (s.ctl.up = true →
      (∀ tail, ∃ t, exec (.queueDoorbell q tail) s = .next t ∧ t = { s with queues := t.queues } ∧ others t ∧
        t.queue q = { h with tail := tail.setWidth 64, bell := s.ctl.ptc }) ∧
      ∃ t, exec (.qstatHaltClear q) s = .next t ∧ t = { s with queues := t.queues } ∧ others t ∧
        (t.queue q).stat.getLsbD 63 = false ∧ fld (t.queue q).stat 39 32 = fld h.stat 39 32 ∧ (t.queue q).head = h.head) ∧
    (let on := fun (fmt : Nat) (t : State) => (t.queue q).head = h.head + BitVec.ofNat 32 fmt ∧ others t ∧ t.groups = s.groups
     let halts := fun (i : Instr) (detail cond : Nat) => ∃ t, exec i s = .next t ∧ (t.queue q).stat.getLsbD 63 = true ∧
       fld (t.queue q).stat 47 40 = detail ∧ fld (t.queue q).stat 59 56 = cond ∧ fld (t.queue q).stat 31 0 = s.entrySlot q ∧
       (t.queue q).head = h.head ∧ others t ∧ t.ctl.msix = s.ctl.msix ++ [q] ∧ t.grids = s.grids
     (s.queueLive q = true → queueSizeOk h.size = true → dpaOff (s.entryKey q) + 64 ≤ dieBytes →
       s.poisoned (s.entryKey q) = false → (s.dirOf (s.entryKey q)).owner = none → s.le (s.entryKey q) 1 / 16 = 0 →
       halts (.queueNop q) 1 0) ∧
     ∀ (fmt : Nat) (b : List Byte),
       (EntryReady s q 0 fmt b → ∃ t, exec (.queueNop q) s = .next t ∧ on fmt t ∧ t.grids = s.grids ∧ t.mem = s.mem) ∧
       (∀ w, EntryReady s q 3 fmt b → entryNat b 8 8 % 8 = 0 → s.sysRead (entryNat b 8 8) 8 = .ok w →
         entryNat b 16 8 ≤ leNat w →
         -- a word of a commutative page is read with its holders' partials
         s.commutAt (entryNat b 8 8) = none →
         ∃ t, exec (.queueWaitWord q) s = .next t ∧ on fmt t ∧ t.grids = s.grids ∧ t.mem = s.mem) ∧
       (∀ u, EntryReady s q 4 fmt b → s.sysWrite (entryNat b 8 8) (leBytes 8 s.ctl.ptc) = .ok u →
         ∃ t, exec (.queueWritePtc q) s = .next t ∧ (t.queue q).head = (u.queue q).head + BitVec.ofNat 32 fmt ∧ t.mem = u.mem) ∧
       (∀ hs, EntryReady s q 5 fmt b → s.readHints (entryWord b 8) (entryNat b 16 8) = .ok hs →
         ∃ t j, exec (.queueQuiescePoint q) s = .next t ∧ on fmt t ∧ t.mem = s.mem ∧ t.quiesces = s.quiesces ++ [j] ∧
           j.hints = hs.1 ∧ j.queue = some q ∧ j.stage = 0) ∧
       (let hinted := fmt = 2 ∧ entryNat b 0x50 4 ≠ 0 ∧ h.hinted = false
        let hintsFirst := fun (i : Instr) => ∀ hs, s.readHints (entryWord b 0x48) (entryNat b 0x50 4) = .ok hs →
          ∃ t j, exec i s = .next t ∧ t.queue q = { h with hinted := true } ∧ t.quiesces = s.quiesces ++ [j] ∧
            j.hints = hs.1 ∧ j.queue = some q ∧ t.grids = s.grids ∧ t.graphs = s.graphs
        let cls := (if fmt = 2 ∧ entryNat b 0x55 1 ≠ 255 then entryNat b 0x55 1 else fld h.ctl 6 4) % 8
        (EntryReady s q 1 fmt b → badShape (entryWord b 0x10) (BitVec.ofNat 64 (entryNat b 0x30 4)) = false →
          (∀ c, s.readKObj (entryWord b 8) = .cond c → c < 16 → halts (.queueGridLaunch q) 2 c) ∧
          ∀ ko ps, s.readKObj (entryWord b 8) = .ok ko → s.readParams (entryWord b 0x18) ko.paramSize = .ok ps →
            (hinted → hintsFirst (.queueGridLaunch q)) ∧
            (¬hinted → ∃ t g, exec (.queueGridLaunch q) s = .next t ∧ on fmt t ∧ t.mem = s.mem ∧ t.grids = s.grids ++ [g] ∧
              t.nextGrid = s.nextGrid + 1 ∧ g.id = s.nextGrid ∧ g.ko = ko ∧ g.params = ps ∧
              g.dimX = fld (entryWord b 0x10) 31 0 ∧ g.dimY = fld (entryWord b 0x10) 47 32 ∧
              g.dimZ = fld (entryWord b 0x10) 63 48 ∧ g.cls.toNat = cls ∧ g.prio.toNat = fld h.ctl 3 2 ∧ g.depth = 0 ∧
              g.queue = q ∧ g.nextTeam = 0 ∧ g.deadline = (if fmt = 2 then entryWord b 0x40 else 0) ∧
              t.started = s.started ++ [⟨q, BitVec.ofNat 32 (s.entrySlot q), some s.nextGrid, none⟩])) ∧
        (EntryReady s q 2 fmt b → entryNat b 0x30 2 + entryNat b 0x32 2 ≤ 512 → ∀ pool guardNs ns,
          s.readGraph (entryWord b 8) = .ok (pool, guardNs, ns) → s.variantsRes ns = .cond 0 →
          (hinted → hintsFirst (.queueGraphLaunch q)) ∧
          (¬hinted →
            let starts := fun (rs : List Rec) => ∃ t g, exec (.queueGraphLaunch q) s = .next t ∧ on fmt t ∧ t.mem = s.mem ∧
              t.grids = s.grids ∧ t.graphs = s.graphs ++ [g] ∧ g.id = s.nextGrid.toNat ∧ g.nodes = ns ∧ g.pool = pool ∧
              g.guardNs = guardNs ∧ g.cls.toNat = cls ∧ g.prio.toNat = fld h.ctl 3 2 ∧ g.queue = q ∧ t.recs = s.recs ++ rs
            ((ns.zipIdx.find? fun x => x.1.root) = none → starts []) ∧
            ∀ n i bytes, (ns.zipIdx.find? fun x => x.1.root) = some (n, i) →
              s.sysRead (entryNat b 0x18 8) (n.recBytes * entryNat b 0x10 8) = .ok bytes →
              ∃ rs, starts rs ∧ rs.map (fun r => (r.graph, r.node, r.data)) = (List.range (entryNat b 0x10 8)).map fun j =>
                (s.nextGrid.toNat, i, (bytes.drop (n.recBytes * j)).take n.recBytes)))))

/-- 02 R52, R53, 03 R69, R70, 14 R374, R375: a team that a core has room for starts there: its groups stand at the entry
address with every lane live, the parameters in the scalars, and PREC and FPST from the kernel object. A team whose groups
have exited and whose commands have ended retires. 14 R376: a grid whose teams have all retired, or that was killed and
has none left, retires: its status word is 0, or bit 63 with the cause and the detail that killed it, and the scheduler
knows the grid no longer. The model's own choice: where a team finds room (log 82). -/
def Obligations.TeamsAndGrids : Prop :=
  ((∀ (s : State) (id core : Nat) (gr : Grid) (rm : Room), s.grid? (BitVec.ofNat 64 id) = some gr → gr.pending = none →
     gr.killed = none → gr.nextTeam < gr.dimX * gr.dimY * gr.dimZ → gr.ko.cluster = 1 → s.coreUp core = true →
     s.roomOn core gr.ko (List.range gr.ko.groups) (gr.ko.acc / 1024) = some rm → s.nodesHoused none →
     ∃ t u gs, exec (.teamLaunch id [core]) s = .next t ∧ t.mem = s.mem ∧ t.teams = s.teams ++ [u] ∧ u.grid = gr.id ∧
       u.core = core ∧ u.x = BitVec.ofNat 32 (gr.nextTeam % gr.dimX) ∧
       u.y = BitVec.ofNat 16 (gr.nextTeam / gr.dimX % gr.dimY) ∧ u.z = BitVec.ofNat 16 (gr.nextTeam / (gr.dimX * gr.dimY)) ∧
       u.tiles = [] ∧ u.acc = [] ∧ t.groups = s.groups ++ gs ∧ gs.length = gr.ko.groups ∧
       (∀ g ∈ gs, g.team = u.id ∧ g.st = .ready ∧ g.live = BitVec.allOnes 32 ∧ g.flags = 0 ∧ g.run = none ∧
         (∀ l, l < 32 → Store.read g.lpc l = (gr.ko.base + gr.ko.entry).setWidth 48 ∧ Store.read g.prec l = gr.ko.prec ∧
           Store.read g.fpst l = gr.ko.fpst) ∧
         (∀ n, n < gr.params.length → some (Store.read g.scal n) = gr.params[n]?) ∧ g.queue.length = 16) ∧
       (t.grid? gr.id).map (·.nextTeam) = some (gr.nextTeam + 1)) ∧
   (∀ (s : State) (id : Nat) (tm : Team) (gr : Grid), s.team? id = some tm → s.grid? tm.grid = some gr →
     (∀ g ∈ s.groups, g.team = id → g.st = .exited ∧ ∀ o ∈ s.ops, o.gid ≠ g.gid) → (∀ c ∈ s.grids, c.parentTeam ≠ some id) →
     ∃ t, exec (.teamRetire id) s = .next t ∧ t.team? id = none ∧ (∀ g ∈ t.groups, g.team ≠ id) ∧ t.mem = s.mem ∧
       (t.grid? gr.id).map (·.doneTeams) = some (gr.doneTeams + 1))) ∧
  (∀ (s : State) (id : Nat) (gr : Grid), s.grid? (BitVec.ofNat 64 id) = some gr → gr.clasp = none → gr.parentGrid = none →
     (gr.killed ≠ none ∨ gr.pending = none ∧ gr.doneTeams = gr.dimX * gr.dimY * gr.dimZ) → (∀ t ∈ s.teams, t.grid ≠ gr.id) →
     (∀ c ∈ s.grids, c.parentGrid ≠ some gr.id) →
     (gr.status = 0 → ∃ t, exec (.gridRetire id) s = .next t ∧ t.grid? gr.id = none ∧ t.mem = s.mem) ∧
     (∀ key r, gr.status ≠ 0 → gr.status.toNat % 8 = 0 → s.global noCore .store gr.status = .at key r →
       s.reaches (homeOf s key).1 = true → (∀ x ∈ s.ctl.asks, x.sent.home ≠ destOf s key) →
       ∃ t, exec (.gridRetire id) s = .next t ∧ t.grid? gr.id = none ∧
         t.le key 8 = match gr.killed with | none => 0 | some (c, d) => 2 ^ 63 + c.toNat * 256 + d.toNat))

/-- 14 R395, R400: a team whose groups stand between clauses leaves its core with its scratchpad saved, and everything else
of the team as it is; it comes back on a core that has room, once its die's PTC has reached the one that the team could
last read, with the saved bytes of its scratchpad, its exported part and its lane store in their new places. The model's own
choice: the places that a restored team takes (log 85). -/
def Obligations.Preemption : Prop :=
  ∀ (s : State) (id : Nat) (tm : Team) (gr : Grid), s.team? id = some tm → s.grid? tm.grid = some gr → s.mates tm = [tm] →
    (tm.resident = true → s.ctxFits = true → (∀ g ∈ s.groups, g.team = id → s.savable g = true ∧
        -- its image takes no more than the 64 KiB of 14 R391
        ∀ dpa, ∀ x ∈ imagePieces g tm gr (s.opsOf g.gid) (g.savedRec dpa), x.1 + x.2.length ≤ 65536) →
      ∃ t u, exec (.preempt id) s = .next t ∧ t.ops = s.ops ∧ t.groups.map (·.gid) = s.groups.map (·.gid) ∧
        t.team? id = some u ∧ u.resident = false ∧ u.tiles = tm.tiles ∧ u.acc = tm.acc ∧
        ∀ a, a < gr.ko.spad → Store.read u.savedSpad a = Store.read s.mem (spadKey tm.core tm.spadBase + a)) ∧
    (∀ core rm, tm.resident = false → tm.clustrank = 0 → s.resets = [] → s.coreUp core = true →
      -- no start takes the room of a node's team, and the team's own stores have been acknowledged
      s.nodesHoused gr.node → (core = tm.core ∨ ∀ g ∈ s.groups, g.team = id → ∀ o ∈ s.opsOf g.gid, o.mayMove = true) →
      tm.savedPtc ≤ s.ptcOn (dieOfCore core) →
      s.roomOn core gr.ko (((s.groupsOf id).filter fun g => g.st != .exited).map fun g => g.grpid.toNat) tm.accUnits = some rm →
      Store.wf tm.savedSpad = true → Store.wf tm.savedExp = true → Store.wf tm.savedLane = true →
      (∀ x ∈ tm.savedSpad, x.1 < gr.ko.spad) → (∀ x ∈ tm.savedExp, x.1 < gr.ko.exportBytes) →
      (∀ x ∈ tm.savedLane, x.1 < gr.ko.groups * 32 * gr.ko.laneBytes) →
      -- no action of a debugger waits for the team
      (∀ q, (s.queue q).dbgact.getLsbD 63 = false) →
      ∃ t u, exec (.restore id core) s = .next t ∧ t.team? id = some u ∧ u.resident = true ∧ u.core = core ∧
        u.tiles = tm.tiles ∧ u.acc = tm.acc ∧
        (∀ a, a < gr.ko.spad → Store.read t.mem (spadKey core rm.spad + a) = Store.read tm.savedSpad a) ∧
        (∀ a, a < gr.ko.exportBytes → Store.read t.mem (spadKey core rm.exp + a) = Store.read tm.savedExp a) ∧
        (∀ a, a < gr.ko.groups * 32 * gr.ko.laneBytes →
          Store.read t.mem (laneKey core rm.lane + a) = Store.read tm.savedLane a))

/-- 14 R378 to R380, R387, 15 R412: a record reaches its node once every earlier access of its emitter has performed; a
held record is released by the device's PTC; a present record makes its image current on a display that exists in a known
format, and is dropped otherwise. 14 R378, R379, 11 R327: a node whose records fill a team, whose producers can emit no
more, or whose oldest record has waited the coalesce time, starts a team with its oldest records, which leave the pool; a
raster node with those of tiles that no team has, in the order of their sequence numbers. The model's own choice: which
core and grid number a node team takes (logs 5, 77). -/
def Obligations.WorkGraphs : Prop :=
  (∀ (s : State) (id : Nat) (r : Rec), s.rec? id = some r →
     (r.st = .sent → s.emissionClear r = true → s.firstOfTeam r = true →
       ∃ t, exec (.recordDelivery id) s = .next t ∧ t.rec? id = some { r with st := .pending s.ctl.ptc } ∧ t.mem = s.mem) ∧
     (∀ at_ : W64, r.st = .held at_ → at_.toNat ≤ s.ctl.ptc →
       ∃ t, exec (.recordReleaseAtTime id) s = .next t ∧ t.rec? id = some { r with st := .sent } ∧ t.mem = s.mem) ∧
     (∀ h n since, s.graph? r.graph = some h → h.nodes[r.node]? = some n → n.type = 4 → r.st = .pending since →
       s.ctl.heads.length = 4 →
       let head := entryNat r.data 8 1
       let fmt := entryNat r.data 9 1
       ∃ t, exec (.present id) s = .next t ∧ t.rec? id = none ∧
         (head < 4 → (fmt = 3 ∨ fmt = 6) → t.mem = s.mem ∧
           t.ctl.heads[head]? = some (some (entryWord r.data 0, BitVec.ofNat 8 fmt))) ∧
         (¬(head < 4 ∧ (fmt = 3 ∨ fmt = 6)) → t.ctl.heads = s.ctl.heads))) ∧
  (∀ (s : State) (gid node core : Nat) (h : Graph) (n : GNode) (ko : KObj) (ps : List W64) (rm : Room),
     s.graph? gid = some h → h.nodes[node]? = some n → n.type ≠ 4 → (n.hintCount = 0 ∨ n.hinted = true) → h.killed = none →
     (∀ j ∈ s.quiesces, j.node ≠ some (gid, node)) → s.consumerFirst h node = false →
     let level := match n.level with | some l => l.toNat | none => s.chooseLevel h n
     s.readKObj (if n.type = 0 then n.kernels.getD level 0 else Config.fixedKernel n.type) = .ok ko →
     s.nodeParams n = .ok ps → s.coreUp core = true → s.nodesHoused (some (gid, node)) → s.grid? s.nextGrid = none →
     let rs := s.issuable gid node n
     let mine := rs.take (32 * ko.groups)
     rs ≠ [] →
     ({ s with grids := s.grids ++ [nodeGrid s h node n.type level ko ps] } : State).roomOn core ko
       ((List.range ko.groups).filter fun g => 32 * g < mine.length) (ko.acc / 1024) = some rm →
     let starts := fun (i : Instr) => ∃ t u, exec i s = .next t ∧ t.mem = s.mem ∧ t.teams = s.teams ++ [u] ∧ u.core = core ∧
       u.records = mine.map (fun r => r.data) ∧ t.nextGrid = s.nextGrid + 1 ∧
       t.recs = s.recs.filter fun r => !mine.any fun x => x.id == r.id
     ((32 * ko.groups ≤ rs.length ∨ s.producing h node = false) → starts (.nodeTeamLaunch gid node core)) ∧
     (s.overdue n rs = true → starts (.nodeCoalesceExpiry gid node core)))

/-! ## Groups and their control (chapters 02, 03, 14) -/

/-- 02 R26, R31, R33, R46, R48, 03 R71, 01 R22, 14 R384, R385, R389, R393: the first ready group of a quadrant starts its
clause in its active lanes, with the clause's flags set; where the clause is malformed or cannot be read its group traps
before the start, and on a quiesced page it waits; a fault that its group has reached parks it with the faulted command's
clause and word, and a wait of the hang limit parks it with cause 14, at its clause's end where it waits within one; DBGACT
acts on the image that it names, or waits for its team, and refuses another; a budget period ends the counts, and CLSBUD takes
a legal budget alone. The model's own choice: when a write of DBGACT acts (log 92), what the hang limit counts (log 91), that
a bad header has detail 13 if any of the lanes came by a transfer (log 109), and that a flag with no command outstanding or
to come clears at once (log 32). -/
def Obligations.GroupEvents : Prop :=
  let debugged := fun (s : State) (g : Group) => ∃ tm gr, s.team? g.team = some tm ∧ s.grid? tm.grid = some gr ∧
    gr.serves = none ∧ (s.queue gr.queue).ctl.getLsbD 8 = true ∧ s.ctxFits = true
  let placed := fun (s : State) (g : Group) => ∃ tm gr, s.team? g.team = some tm ∧ s.grid? tm.grid = some gr
  let parks := fun (o : Out) (g : Group) (P : ParkRec → Prop) => ∃ t p, o = .next t ∧
    t.group? g.gid = some (g.parkedWith p) ∧ P p
  (∀ (s : State) (core quad : Nat) (y : Bool) (g : Group) (tm : Team) (gr : Grid) (a : BitVec 48),
    s.pipeBusy core quad = false → s.resets = [] → s.firstReady core quad = some g → s.team? g.team = some tm →
    s.grid? tm.grid = some gr → g.issueAddr = some a → s.group? g.gid = some g →
    let i := Instr.clauseIssue core quad y
    -- a trap before the start, for the debugger, and in any case a next state
    let traps := fun (cause : BitVec 8) (word detail : Nat) => s.samplerBusy g.gid = false →
      (s.ctxFits = true → ∃ t, exec i s = .next t) ∧
      (debugged s g → parks (exec i s) g fun p => p.cause = cause ∧ p.word = BitVec.ofNat 5 word ∧ p.issuing = a ∧
        p.detail = BitVec.ofNat 8 detail)
    let got := match g.fetch with | some f => f.got | none => []
    -- a clause behind a link is fetched by a request to its home
    (∀ home, s.homeToAsk core a got = some home → g.fetch = none → ∃ t u f, exec i s = .next t ∧ t.mem = s.mem ∧
      t.group? g.gid = some u ∧ u.fetch = some f ∧ u.st = g.st ∧ u.run = g.run ∧ f.sent.home = home ∧ f.lost = false) ∧
    (s.homeToAsk core a got = none →
    (∀ hw, s.fetchWord core a = .word hw →
      (∀ d, headerDetail hw = some d → traps 1 0 (if g.jumped &&& g.activeLanes = 0 then d else 13)) ∧
      (headerDetail hw = none → ∀ ws, s.fetchWords core a (Header.ofWord hw).count = .ok ws →
        (∀ w d, clauseDetail (ctxOf gr) hw ws = some (w, d) → traps 1 w d) ∧
        (clauseDetail (ctxOf gr) hw ws = none → ∃ t u r, exec i s = .next t ∧ t.mem = s.mem ∧
          t.ops = s.ops ∧ (∀ j, j ≠ g.gid → t.group? j = s.group? j) ∧ t.group? g.gid = some u ∧
          { u with last := g.last, yielded := g.yielded, fetch := g.fetch }.kept = g.kept ∧ u.lpc = g.lpc ∧ u.st = g.st ∧
          u.flags = (g.flags ||| setMask (Header.ofWord hw)) &&& ~~~s.doneFlags g.gid r ∧ u.run = some r ∧ r.addr = a ∧
          r.hdr = Header.ofWord hw ∧ r.words = ws ∧ r.idx = 1 ∧ r.lanes = g.activeLanes ∧ r.rep = none ∧ r.pipe = true))) ∧
    (∀ k d l st addr, (s.fetchWord core a = .fault k d l st addr ∨ ∃ hw, s.fetchWord core a = .word hw ∧ headerDetail hw = none ∧
      s.fetchWords core a (Header.ofWord hw).count = .error (.fault k d l st addr)) → traps 6 0 k) ∧
    (∀ page, s.fetchWord core a = .wait page → ∃ t u, exec i s = .next t ∧ t = { s with groups := t.groups } ∧
      t.group? g.gid = some u ∧ u.st = .blockedPage page ∧ u.kept = g.kept))) ∧
  (∀ (s : State) (gid : Nat) (g : Group), s.group? gid = some g → s.samplerBusy gid = false →
    (∀ o f, s.dueFault g = some o → o.fault = some f → g.st ≠ .exited → o.isReport = false →
      (placed s g → (s.ctxFits = true ∨ f.service ≠ none) → ∃ t, exec (.faultDelivery gid) s = .next t) ∧
      (f.service = none → debugged s g → parks (exec (.faultDelivery gid) s) g fun p =>
        p.cause = f.cause ∧ p.detail = f.detail ∧ p.word = o.word ∧ p.run = o.run ∧ p.issuing = o.clause) ∧
      (∀ page, f.service = some page → placed s g → parks (exec (.faultDelivery gid) s) g fun p =>
        p.cause = f.cause ∧ p.route = .service ∧ p.page = page)) ∧
    (g.hang ≠ 0 → g.live ≠ 0 →
      let expired := ∃ since, g.since = some since ∧ (g.blocked = true ∨ s.waitsOnFlags g = true) ∧
        since + g.hang.toNat * 1000 ≤ s.ctl.ptc
      (g.between = true → g.hung = true ∨ expired →
        (placed s g → s.ctxFits = true → ∃ t, exec (.hangLimitExpiry gid) s = .next t) ∧
        (debugged s g → parks (exec (.hangLimitExpiry gid) s) g fun p =>
          p.cause = 14 ∧ p.issuing = g.current ∧ p.prior = g.st ∧
          p.word = BitVec.ofNat 5 (match g.run with | some r => r.idx | none => 0))) ∧
      (g.between = false → g.hung = false → expired →
        exec (.hangLimitExpiry gid) s = .next (s.setGroup { g with hung := true })))) ∧
  (∀ (s : State) (q : Nat) (image : BitVec 45), q < 64 → s.queues.length = 64 →
    let all := [Instr.dbgactResume q image, .dbgactSkip q image, .dbgactKillGroup q image, .dbgactKillGrid q image]
    (s.ctl.up = false → ∀ i ∈ all, exec i s = .next s) ∧
    (s.ctl.up = true →
      ((s.queue q).dbgact.getLsbD 63 = true → ∀ i ∈ all, ∃ t, exec i s = .next t ∧ t = { s with queues := t.queues } ∧
        (t.queue q).dbgact.getLsbD 62 = true ∧ (t.queue q).dbgact.getLsbD 63 = true ∧ (t.queue q).stat = (s.queue q).stat) ∧
      ((s.queue q).dbgact.getLsbD 63 = false →
        (s.awaiting q image.toNat = none → ∀ i ∈ all, ∃ t, exec i s = .next t ∧ t = { s with queues := t.queues } ∧
          (t.queue q).dbgact.getLsbD 62 = true ∧ (t.queue q).dbgact.getLsbD 63 = false ∧ (t.queue q).stat = (s.queue q).stat) ∧
        (∀ g p, s.awaiting q image.toNat = some g → s.group? g.gid = some g → g.park = some p →
          (s.residentGroup g = false → ∀ i ∈ all, ∃ t, exec i s = .next t ∧ t = { s with queues := t.queues } ∧
            (t.queue q).dbgact.getLsbD 63 = true ∧ (t.queue q).stat = (s.queue q).stat) ∧
          (s.residentGroup g = true →
            let d := p.image.toNat
            let v := s.recallRange d (d + 65536)
            let released := fun (t : State) => fld (t.queue q).stat 39 32 = (fld (s.queue q).stat 39 32 - 1) % 256 ∧
              (t.queue q).dbgact.getLsbD 63 = false
            (∃ t u, exec (.dbgactKillGroup q image) s = .next t ∧ released t ∧ t.group? g.gid = some u ∧ u.st = .exited ∧
              u.live = 0) ∧
            (∃ t u, exec (.dbgactKillGrid q image) s = .next t ∧ t.group? g.gid = some u ∧ u.st = .exited ∧ u.live = 0) ∧
            ((v.imagePrecOk d = true ∨ s.ctxFits = true) → ∀ i ∈ [Instr.dbgactResume q image, .dbgactSkip q image],
              ∃ t, exec i s = .next t) ∧
            (p.prior ≠ .parked → v.imagePrecOk d = true → ∀ i ∈ [Instr.dbgactResume q image, .dbgactSkip q image],
              ∃ t u, exec i s = .next t ∧ released t ∧ t.group? g.gid = some u ∧ u.st ≠ .parked ∧ u.park = none ∧
                u.live = BitVec.ofNat 32 (v.le (d + 0x165C) 4) ∧
                ∀ n, n < 64 → Store.read u.scal n = BitVec.ofNat 64 (v.le (d + 0x1440 + 8 * n) 8))))))) ∧
  (∀ (s : State), s.ctl.budgetAt + 100000 ≤ s.ctl.ptc → ∃ t, exec .budgetPeriod s = .next t ∧
    t.budget = { s.budget with used := List.replicate 5 0 } ∧ t.groups = s.groups) ∧
  (∀ (s : State) (c : Nat) (v : W64), c < 5 → s.ctl.up = true → s.budget.reg.length = 5 →
    ∃ t, exec (.clsbudWrite c v) s = .next t ∧ t.budget.used = s.budget.used ∧
      t.budget.reg.getD c 0 = if s.budgetOk c v = true then v else s.budget.reg.getD c 0)

/-! ## Commutative memory (chapter 07) -/

/-- 07 R214 to R217, 07 R206: the messages of the hampers. A recalled line leaves with its partials and its share; the
first request for a block receives the whole limit, and a later one a split of the largest share, which of an integer
share loses nothing; the holder of a split takes the share it keeps and acknowledges, and at the acknowledgement the home
grants the rest, or serves the request anew where the holder has left; a grant gives its L1 a line with the share it
names; a drain over a link is numbered and arrives first; a drain of an integer region adds each partial to its element
modulo 2^32 and is acknowledged, and a line that leaves gives up its place among the holders, its sums gathered where the
region's order is ascending until the last recalled holder's are in; a marker is gathered behind what its path carried
before it, or, where that path is lost, once all that was sent on it is acknowledged (15 R417). 07 R217, R218: the holders that a read recalls
leave shares of at most its tolerance outstanding; a read of a block that no L1 holds takes the element in memory, and one
that recalls sends a recall to each line chosen. The model's own choice: how a share is split and rounded (logs 50, 51),
which splits count (log 118) and that a read with an unbounded tolerance recalls nobody (log 52). -/
def Obligations.CommutativeMemory : Prop :=
  (∀ (s : State) (m : Msg) (core blk : Nat), s.msg? m.id = some m →
     let has := fun (t : State) (b : MsgBody) => ∃ x ∈ t.msgs, x.body = b
     (m.lost = false →
       (∀ line, m.body = .recallHamper core blk line →
         (∀ x ∈ s.msgs, m.id ≤ x.id ∨ ∀ r v n, x.body ≠ .grant core blk r v n) →
         (∀ h, s.hamper? core blk = some h → h.line = line →
           ∃ t, exec (.recall m.id) s = .next t ∧ t.hamper? core blk = none ∧ t.mem = s.mem ∧ t.groups = s.groups ∧
             has t (.drain core blk h.region h.line h.sums true false none none)) ∧
         ((∀ h, s.hamper? core blk = some h → h.line ≠ line) →
           ∃ t, exec (.recall m.id) s = .next t ∧ t.hampers = s.hampers ∧ t.mem = s.mem ∧ t.groups = s.groups)) ∧
       (∀ r, m.body = .shareReq core blk r → s.drainAhead m.id core blk = false →
         (∀ x ∈ s.msgs, ∀ c r' n nw y z, x.body ≠ .split c blk r' n nw y z ∧ x.body ≠ .splitAck c blk r' n nw y z) →
         (s.home? blk = none → r.units (r.ofUnits (r.units r.limit)) ≠ 0 →
           let share := r.ofUnits (r.units r.limit)
           ∃ t, exec (.shareRequest m.id) s = .next t ∧ has t (.grant core blk r share s.nextId) ∧ t.mem = s.mem ∧
             t.hampers = s.hampers ∧ t.home? blk = some ⟨blk, r, [⟨core, s.nextId, share, false⟩], []⟩) ∧
         (∀ r' c ln b, s.home? blk = some ⟨blk, r', [⟨c, ln, b, false⟩], []⟩ → r'.isFloat = false → r'.limit = b →
           (r'.splittable b = true → ∃ t keep give, exec (.shareRequest m.id) s = .next t ∧
             has t (.split c blk r' ln core keep give) ∧ keep.toNat + give.toNat = b.toNat ∧ give.toNat ≤ keep.toNat ∧
             t.homes = s.homes ∧ t.mem = s.mem) ∧
           (r'.splittable b = false → ∃ t, exec (.shareRequest m.id) s = .next t ∧ has t (.grant core blk r' 0 0) ∧
             t.homes = s.homes))) ∧
       (∀ r line nw keep give, m.body = .split core blk r line nw keep give → s.firstFor m.id core blk = true →
         (∀ h, s.hamper? core blk = some h → h.line = line → (∀ q ∈ h.track, h.region.within q.2 keep = true) →
           ∃ t, exec (.splitRequest m.id) s = .next t ∧ t.hamper? core blk = some { h with share := keep } ∧
             has t (.splitAck core blk r line nw keep give) ∧ t.homes = s.homes ∧ t.mem = s.mem) ∧
         (s.hamper? core blk = none → ∃ t, exec (.splitRequest m.id) s = .next t ∧ t.hampers = s.hampers ∧
           has t (.splitAck core blk r line nw keep give) ∧ t.homes = s.homes ∧ t.mem = s.mem)) ∧
       (∀ r line nw keep give, m.body = .splitAck core blk r line nw keep give → s.drainAhead m.id core blk = false →
         s.firstAck m.id line blk = true →
         (∀ hb, s.home? blk = some hb → (∃ h ∈ hb.holders, h.line = line) →
           ∃ t, exec (.splitRequest m.id) s = .next t ∧ has t (.grant nw blk hb.region give s.nextId) ∧ t.mem = s.mem ∧
             t.home? blk = some { hb with
               holders := (hb.holders.map fun h => if h.line == line then { h with share := keep } else h) ++
                 [⟨nw, s.nextId, give, false⟩] }) ∧
         ((∀ hb, s.home? blk = some hb → ∀ h ∈ hb.holders, h.line ≠ line) →
           ∃ t, exec (.splitRequest m.id) s = .next t ∧ has t (.shareReq nw blk r) ∧ t.homes = s.homes ∧ t.mem = s.mem)) ∧
       (∀ r v n, m.body = .grant core blk r v n → s.firstFor m.id core blk = true →
         (v = 0 → ∃ t, exec (.shareGrant m.id) s = .next t ∧ t = { s with msgs := t.msgs }) ∧
         (v ≠ 0 → s.hamper? core blk = none → (s.hampers.filter fun h => h.core == core).length < 512 →
           s.l1Used core + 2 ≤ l1Places → ∃ t, exec (.shareGrant m.id) s = .next t ∧
             t.hamper? core blk = some ⟨core, blk, n, r, v, [], 0, [], false⟩ ∧ t.mem = s.mem ∧ t.l1 = s.l1)) ∧
       (∀ r line x leave poisoned op contrib, m.body = .drain core blk r line x leave poisoned op contrib →
         s.remote core blk = true →
         (m.sent = none → s.windowOpen (4 * core) (destOf s blk) = true → ∃ t z, exec (.drainCombine m.id) s = .next t ∧
           t.mem = s.mem ∧ t.homes = s.homes ∧ t.msg? m.id = some { m with sent := some z } ∧ z.home = destOf s blk ∧
           z.arrived = false ∧ z.at_ = s.ctl.ptc ∧ z.seq = (s.filterOf (4 * core) (destOf s blk)).next) ∧
         (∀ z, m.sent = some z → s.arrives z = true → ∃ t, exec (.drainCombine m.id) s = .next t ∧
           t = { s with msgs := t.msgs } ∧ t.msg? m.id = some { m with sent := some { z with arrived := true } })) ∧
       (∀ r line x leave op contrib, m.body = .drain core blk r line x leave false op contrib →
         (s.remote core blk = false ∨ ∃ z, m.sent = some z ∧ z.arrived = true) →
         s.drainAhead m.id core blk = false → s.addAhead m.id core blk = false →
         (leave = false → r.fmt = 2 → (∀ hb, s.home? blk = some hb → hb.region = r) →
           ∃ t, exec (.drainCombine m.id) s = .next t ∧ has t (.drainAck core blk line contrib) ∧ t.groups = s.groups ∧
             (∀ e, e < 16 → t.le (blk + 4 * e) 4 = if x.seen.getLsbD e = true
               then (s.le (blk + 4 * e) 4 + (Store.read x.part e).toNat) % 2 ^ 32 else s.le (blk + 4 * e) 4) ∧
             ∀ y, (y < blk ∨ blk + 64 ≤ y) → Store.read t.mem y = Store.read s.mem y) ∧
         (leave = true → ∀ hb, s.home? blk = some hb → (∀ h ∈ hb.holders, h.line = line → h.recalled = false) →
           ∃ t, exec (.drainCombine m.id) s = .next t ∧ t.groups = s.groups ∧
             ∀ hb', t.home? blk = some hb' → ∀ h ∈ hb'.holders, h ∈ hb.holders ∧ h.line ≠ line) ∧
         (leave = true → ∀ hb, s.home? blk = some hb → (∃ h ∈ hb.holders, h.line = line ∧ h.recalled = true) →
           hb.region.order = 1 →
           (∃ h ∈ hb.holders, h.recalled = true ∧ h.line ≠ line ∧ ∀ y ∈ hb.replies, y.line ≠ h.line) →
           ∃ t, exec (.drainCombine m.id) s = .next t ∧ t.mem = s.mem ∧ t.groups = s.groups ∧
             t.home? blk = some { hb with replies := hb.replies ++ [⟨line, x, op⟩] })) ∧
       (∀ line contrib h, m.body = .drainAck core blk line contrib → s.contribFault core contrib = false →
         s.hamper? core blk = some h → h.line = line → ∃ t, exec (.drainAck m.id) s = .next t ∧
           t.hamper? core blk = some { h with draining := false } ∧ t.mem = s.mem ∧ t.groups = s.groups)) ∧
     (∀ o d x, m.body = .marker o d → m.sent = some x →
       (s.pathUp x = true ∧ m.lost = false ∧ s.pathClear x = true) ∨ (s.pathUp x = false ∧ s.acked x = true) →
       ∃ t, exec (.flushMarkerGather m.id) s = .next t ∧ t.msg? m.id = none ∧ t = { s with msgs := t.msgs })) ∧
  ((∀ (r : Region) (tau : Nat) (hs : List Holder),
     ((hs.filter fun h => !(recallChoice r tau hs.length hs).contains h.line).foldl (fun n h => n + r.units h.share) 0) ≤ tau) ∧
   (∀ (s : State) (op i key : Nat) (o : Op) (p : Part) (g : Group) (tm : Team) (gr : Grid) (rn : BitVec 12) (r : Region)
     (k : BitVec 3) (d : Dst) (a b : Src) (x : MemX),
     s.op? op = some o → o.parts[i]? = some p → o.instr = .ldtol k d a b x → x.order = .relaxed →
     s.ownerOf o = some (g, tm, gr) → p.st = .waiting → p.asked = false → p.held = none → s.loadClear o = true →
     s.atomsClear o key = true → (∀ j q, o.parts[j]? = some q → j ≠ i → q.st ≠ .waiting) →
     (∀ q ∈ o.parts, q.st = .done → q.key + q.len ≤ key ∨ key + r.elemBytes ≤ q.key) →
     p.site (s.placePiece g tm gr o.acc p x.size.bytes (sizeAlign x.size)) = .at key (some rn) → s.region? rn = some r →
     sizeFits r x.size = true → s.addsClear o (blockOf key) = true → s.passes o.core p key = true →
     (s.home? (blockOf key) = none → s.poisoned key = false →
       exec (.toleranceRead op i) s = .next (s.setOp { o with
         parts := o.parts.set i { p with st := .done, key := key, len := r.elemBytes, asked := false }
         buf := Store.writeList o.buf (64 * p.lane) (s.bytes key r.elemBytes) })) ∧
     (∀ hb n ns t, s.home? (blockOf key) = some hb → tolerance r (o.cap 1 p.lane) = some t →
       recallChoice hb.region t hb.holders.length (hb.holders.filter fun h => !h.recalled) = n :: ns →
       ∃ u, exec (.toleranceRead op i) s = .next u ∧ u.mem = s.mem ∧ u.groups = s.groups ∧
         ∀ n' ∈ n :: ns, ∃ h ∈ hb.holders, h.line = n' ∧
           ∃ y ∈ u.msgs, y.body = .recallHamper h.core (blockOf key) n')))

/-! ## Translation (chapter 08) -/

/-- 08 R230, R233 to R236, R240: a miss joins the walk of its 2 MiB region, takes a free slot of the 4,096, or waits in its
die's queue, from which a slot that becomes free is filled, the dies in turn; when its walk ends, the misses of its page end
with it, and the leaf is what its core translates with from then on, and its die keeps it too; the TLBs of no other core
change. An invalidate drops the cached
translations and pointers that overlap its range, and no others, keeps its range as it was started, and reads done once
no access is in flight, when the groups and accesses held on its pages look again. 07 R211, 08 R246, R252: installing a
region adds the descriptor that the table in memory holds, unless it names region 0, one installed, or one that overlaps;
removing it takes it away unless a leaf is bound to it; a refusal names its reason. A write of XLPOOL starts the pool
anew. The model's own choice: the order of the reasons, the moment of a command and what a walk in flight is (logs 93, 94,
95, 123). -/
def Obligations.TranslationBlock : Prop :=
  ((∀ (s : State) (core : Nat) (va : BitVec 48),
     let m : Miss := ⟨core, va.extractLsb' 16 32⟩
     let near := fun (x : Miss) => x.page.toNat / 32 = m.page.toNat / 32
     (m ∈ s.missq → exec (.pageWalk core va) s = .refused .eventNotEnabled) ∧
     (m ∉ s.missq → (∀ w ∈ s.walks, m ∉ w) → ∃ t, exec (.pageWalk core va) s = .next t ∧
       t = { s with walks := t.walks, missq := t.missq } ∧
       ((∃ w ∈ s.walks, ∃ x ∈ w, near x) → t.missq = s.missq ∧ t.walks.length = s.walks.length ∧ ∃ w ∈ t.walks, m ∈ w) ∧
       ((∀ w ∈ s.walks, ∀ x ∈ w, ¬near x) →
         (s.walks.length < 4096 → t.walks = s.walks ++ [[m]] ∧ t.missq = s.missq) ∧
         (4096 ≤ s.walks.length → t.walks = s.walks ∧ t.missq = s.missq ++ [m]))) ∧
     (m ∉ s.missq → (∃ w ∈ s.walks, m ∈ w) → ∃ t, exec (.pageWalk core va) s = .next t ∧
       t = { s with tlb := t.tlb, dtlb := t.dtlb, wcache := t.wcache, walks := t.walks, missq := t.missq, missDie := t.missDie } ∧
       (s.missq = [] → t.missq = [] ∧ ∀ w ∈ t.walks, ∀ x ∈ w, x.page ≠ m.page) ∧
       (let sharer := fun (c : Nat) => ∃ w ∈ s.walks, ∃ x ∈ w, x.page = m.page ∧ x.core = c
        ∀ x, (¬sharer x.core → (x ∈ t.tlb ↔ x ∈ s.tlb)) ∧
          ((∀ c, sharer c → x.core ≠ dieOfCore c) → (x ∈ t.dtlb ↔ x ∈ s.dtlb))) ∧
       (∀ y, s.missq.find? (fun x => dieOfCore x.core == s.missDie) = some y → s.walks = s.walks.filter (fun w => !w.isEmpty) →
         s.walks.length = 4096 → [m] ∈ s.walks → y ∉ t.missq ∧ (∃ w ∈ t.walks, y ∈ w) ∧ t.missDie = 1 - s.missDie) ∧
       (∀ e level, s.translate core va.toNat = .page e level → level ≤ 2 →
         (∀ w ∈ s.walks, ∀ x ∈ w, x.page = m.page → x = m) → (∀ x ∈ s.tlb, x.core = core →
           rangesOverlap x.va.toNat (x.va.toNat + pageBytes x.size.toNat) va.toNat (va.toNat + 1) = false) →
         let new := fun (who : Nat) (x : TlbEntry) => x.core = who ∧ x.leaf = e ∧ x.size.toNat = level ∧
           x.va.toNat = va.toNat / pageBytes level * pageBytes level
         t.translate core va.toNat = .page e level ∧ (∃ x ∈ t.tlb, new core x) ∧
           ∃ x ∈ t.dtlb, new (dieOfCore core) x))) ∧
   (∀ (s : State), s.ctl.up = true →
     let cleared := fun (t : State) (lo hi : Nat) =>
       (∀ x, (x ∈ t.tlb ↔ x ∈ s.tlb ∧ rangesOverlap x.va.toNat (x.va.toNat + pageBytes x.size.toNat) lo hi = false) ∧
         (x ∈ t.dtlb ↔ x ∈ s.dtlb ∧ rangesOverlap x.va.toNat (x.va.toNat + pageBytes x.size.toNat) lo hi = false)) ∧
       ∀ x, x ∈ t.wcache ↔ x ∈ s.wcache ∧ rangesOverlap x.va.toNat (x.va.toNat + levelBytes x.level) lo hi = false
     let starts := fun (i : Instr) (lo hi : Nat) => ∃ t, exec i s = .next t ∧ t.xl.invc.getLsbD 63 = true ∧ cleared t lo hi ∧
       t.xl.invLo = lo ∧ t.xl.invHi = hi ∧ t.mem = s.mem ∧ t.groups = s.groups
     let page := fun (z : BitVec 2) => s.xl.inva.toNat / pageBytes z.toNat * pageBytes z.toNat
     (s.xl.invc.getLsbD 63 = false →
       starts .invalidateAll 0 (2 ^ 48) ∧
       (∀ z : BitVec 2, z.toNat < 3 → starts (.invalidateOnePage z) (page z) (page z + pageBytes z.toNat)) ∧
       (∀ (z : BitVec 2) (n : BitVec 20), z.toNat < 3 → n ≠ 0 →
         starts (.invalidateRange z n) (page z) (page z + n.toNat * pageBytes z.toNat)) ∧
       ∃ t, exec (.invalidateOnePage 3) s = .next t ∧ t.tlb = s.tlb ∧ t.xl.invc.getLsbD 62 = true ∧
         t.xl.invc.getLsbD 63 = false) ∧
     (s.xl.invc.getLsbD 63 = true → ∀ z n, ∀ i ∈ [Instr.invalidateAll, .invalidateOnePage z, .invalidateRange z n],
       ∃ t, exec i s = .next t ∧ t.tlb = s.tlb ∧ t.xl.invc.getLsbD 62 = true ∧ t.xl.invLo = s.xl.invLo ∧
         t.xl.invHi = s.xl.invHi)) ∧
   (∀ (s : State), s.xl.invc.getLsbD 63 = true → s.flying s.xl.invLo s.xl.invHi = false →
     let within := fun (page : BitVec 32) => s.xl.invLo ≤ page.toNat * 65536 ∧ page.toNat * 65536 < s.xl.invHi
     ∃ t, exec .invalidateComplete s = .next t ∧ t.xl.invc.getLsbD 63 = false ∧ t.mem = s.mem ∧
       (∀ g ∈ t.groups, ∀ page, g.st = .blockedPage page → ¬within page) ∧
       ∀ o ∈ t.ops, ∀ p ∈ o.parts, ∀ page, p.held = some page → ¬within page)) ∧
  (∀ (s : State), s.ctl.up = true →
     (∀ (n : BitVec 12) (r : Region),
       let there := s.regions.any fun x => x.n == n
       let key := mkDpa s.device (fld s.xl.regt 38 38) (fld s.xl.regt 37 12 * 4096 + 32 * n.toNat)
       let refused := fun (i : Instr) (reason : Nat) => ∃ t, exec i s = .next t ∧ t.regions = s.regions ∧
         t.xl.regc.getLsbD 62 = true ∧ fld t.xl.regc 61 56 = reason ∧ t.mem = s.mem
       let done := fun (i : Instr) (rs : List Region) => ∃ t, exec i s = .next t ∧ t.regions = rs ∧
         fld t.xl.regc 61 56 = 0 ∧ t.xl.regc.getLsbD 63 = false ∧ t.mem = s.mem
       (n = 0 ∨ there = true → refused (.regionInstall n) 4) ∧
       (n = 0 ∨ there = false → refused (.regionRemove n) 4) ∧
       (n ≠ 0 → there = false → s.poisoned key = true → refused (.regionInstall n) 5) ∧
       (n ≠ 0 → there = false → s.poisoned key = false →
         (parseRegion n ((s.recallNow (blockOf key)).bytes key 32) = none → refused (.regionInstall n) 1) ∧
         (parseRegion n ((s.recallNow (blockOf key)).bytes key 32) = some r →
           (s.regions.any fun x =>
             rangesOverlap x.base.toNat (x.base.toNat + x.len.toNat) r.base.toNat (r.base.toNat + r.len.toNat)) = false →
           done (.regionInstall n) (s.regions ++ [r]))) ∧
       (n ≠ 0 → there = true →
         (s.regionBound n = true → refused (.regionRemove n) 3) ∧
         (s.regionBound n = false → done (.regionRemove n) (s.regions.filter fun x => x.n != n)))) ∧
     (∀ v : W64, ∃ t, exec (.xlpoolWrite v) s = .next t ∧ fld t.xl.pool 38 38 = fld v 38 38 ∧ fld t.xl.pool 37 8 = fld v 37 8 ∧
       fld t.xl.pooln 63 32 = 0 ∧ fld t.xl.pooln 31 0 = fld s.xl.pooln 31 0 ∧ t.mem = s.mem))

/-- 08 R239 to R247, Tables 8.10, 8.11: the memory service locks the page of the oldest fault with room in every pool, and
drops its cached translations; once no access to a locked page is in flight it unlocks it, and no group waits on it any
more. A quiesce point moves through its steps, each when nothing is under way for its frames: the first stores state 5 in
the leaves; in the third the old frames' lines and hampers come home, the dirty words with them; the fourth lasts three link
timeouts more; the fifth fills the new frames with the bytes of the old, and no L1 keeps an earlier line of them; and the
last leaves the new leaves in the tables. The model's own choice: the order of the steps inside a quiesce or a collapse (logs
95, 96). -/
def Obligations.ServiceAndQuiesce : Prop :=
  (∀ (s : State) (gid key level page : Nat) (g : Group) (p : ParkRec) (e : W64), s.group? gid = some g → g.park = some p →
    g.servicePage = some page →
    ((s.locks.find? fun l => l.toNat / 32 == page / 32) = none →
      s.leafOf ⟨BitVec.ofNat 6 s.device, s.xl, s.regions⟩ (page * 65536) = some (key, level, e) →
      (leafState e ≠ 2 → leafState e ≠ 5 → ∃ t, exec (.memoryServiceCollapse gid) s = .next t ∧ t.mem = s.mem ∧
        ∀ h ∈ t.groups, h.servicePage ≠ some page) ∧
      (leafState e = 2 → ((s.mapped (page * 65536) 2).any fun m => m.own && m.dev == leafDevice e) = true →
        s.shortPools (page * 65536) = [] → ∃ t, exec (.memoryServiceCollapse gid) s = .next t ∧
          t.locks = s.locks ++ [BitVec.ofNat 32 page] ∧ t.groups = s.groups ∧
          ∀ x, (x ∈ t.tlb ∨ x ∈ t.dtlb) →
            rangesOverlap x.va.toNat (x.va.toNat + pageBytes x.size.toNat) (page * 65536) (page * 65536 + 65536) = false)) ∧
    (∀ l, (s.locks.find? fun l => l.toNat / 32 == page / 32) = some l →
      s.flying (l.toNat * 65536) (l.toNat * 65536 + 65536) = false → ∃ t, exec (.memoryServiceCollapse gid) s = .next t ∧
        l ∉ t.locks ∧ ∀ h ∈ t.groups, h.servicePage ≠ some l.toNat)) ∧
  (∀ (s : State) (job : Nat) (j : Quiesce), s.quiesces.find? (fun x => x.id == job) = some j →
    let is := fun (t : State) (x : Quiesce) => (t.quiesces.find? fun x => x.id == job) = some x
    let ls := quiesceLeaves s j
    (j.stage = 0 → s.entryTaken j ls = false → ∃ t, exec (.quiescePoint job) s = .next t ∧
      is t { j with leaves := ls, stage := 1 } ∧ t.groups = s.groups ∧
      ((∀ l ∈ ls, l.key % 8 = 0) → ∀ l ∈ ls, leafLive l.old = true → t.le l.key 8 = (setFld l.old 11 9 5).toNat)) ∧
    (s.framesQuiet j = true →
      (j.stage = 1 → ∃ t, exec (.quiescePoint job) s = .next t ∧ is t { j with stage := 2 } ∧ t = { s with quiesces := t.quiesces }) ∧
      (j.stage = 3 → ∃ t, exec (.quiescePoint job) s = .next t ∧ is t { j with stage := 4, since := s.ctl.ptc } ∧
        t = { s with quiesces := t.quiesces })) ∧
    (j.stage = 2 → ∃ t, exec (.quiescePoint job) s = .next t ∧ is t { j with stage := 3 } ∧ t.groups = s.groups ∧
      (∀ ln ∈ t.l1, inFrames j.oldFrames ln.blk = false) ∧ (∀ hb ∈ t.homes, inFrames j.oldFrames hb.blk = false) ∧
      -- an owned line's dirty words are in memory
      ((∀ ln ∈ s.l1, ln.blk % 64 = 0) → (∀ hb ∈ s.homes, hb.blk % 64 = 0) →
        ∀ ln ∈ s.l1, ln.st = .owned → inFrames j.oldFrames ln.blk = true → s.home? ln.blk = none →
          (∀ x ∈ s.l1, x.blk = ln.blk → x = ln) → ∀ i, i < 64 → ln.dirty.getLsbD (i / 4) = true →
          Store.read t.mem (ln.blk + i) = Store.read ln.data i)) ∧
    (j.stage = 4 → s.framesQuiet j = true → j.since + 3 * s.linkTimeout ≤ s.ctl.ptc →
      j.since + 3 * pkgTimeout s.ctl.lnkto ≤ s.ctl.ptc →
      let fills := fun (src dst : Nat) => ∃ l ∈ j.news, l.new ≠ l.old ∧ ∃ i, i < l.bytes / 65536 ∧
        j.source (l.page.toNat + i * 65536) = some src ∧ dst = l.frame l.new + i * 65536 ∧ src ≠ dst
      ∃ t, exec (.quiescePoint job) s = .next t ∧ is t { j with stage := 5 } ∧ t.groups = s.groups ∧
        ∀ src dst, fills src dst → (∀ ln ∈ t.l1, ¬(dst ≤ ln.blk ∧ ln.blk < dst + 65536)) ∧
          -- each 64 KiB of a new frame has its bytes from the old one
          (Memory.wf s.mem = true → dst + 65536 ≤ 2 ^ 48 → src + 65536 ≤ 2 ^ 48 →
            (∀ src' dst', fills src' dst' → (src' = src ∧ dst' = dst) ∨ dst' + 65536 ≤ dst ∨ dst + 65536 ≤ dst') →
            ∀ k, k < 65536 → Store.read t.mem (dst + k) = Store.read s.mem (src + k))) ∧
    (j.stage = 5 → ∃ t, exec (.quiescePoint job) s = .next t ∧ t.quiesces = s.quiesces.filter (fun x => x.id != job) ∧
      -- the new leaves stand in the tables, and nothing cached of the old ones is left
      ((∀ l ∈ j.leaves, l.key % 8 = 0 ∧ s.offLog l.key (l.key + 8) ∧ ∀ x ∈ j.leaves, x.key = l.key → x.new = l.new) →
        ∀ l ∈ j.leaves, t.le l.key 8 = l.new.toNat) ∧
      (∀ x, (x ∈ t.tlb ∨ x ∈ t.dtlb) → ∀ q ∈ j.spans,
        rangesOverlap x.va.toNat (x.va.toNat + pageBytes x.size.toNat) q.1 q.2 = false)))

/-! ## The control die (chapter 15) -/

/-- 15 R416 to R419, R424: a scale-out port's states and keys: enabling and disabling it, a detected peer, training, the
loss of lock, and rekeys: a rekey sends a new key, whose receiver installs it beside the old one; its acknowledgement
flips the epoch and sends markers on every path, again at each timeout until they are acknowledged; and the old key goes
once its markers have come on every path. A certificate or a key that fails puts a training port in error, and what was on
its way on a port that leaves the keyed state is lost. 15 R414 to R416, 07 R207: a request or a message that was lost is sent
again under its number, and a request faults at its third timeout with kind 9, its part standing where it was, but a
prefetch, which is dropped; an answer that fails its check is counted and its request is lost; so with a clause fetch, which
is a request without a number. The model's own choice: the points of the port states that the rules leave open (log 99). -/
def Obligations.PortsAndLinks : Prop :=
  (∀ (s : State) (p : Nat), p < 16 → s.ports.length = 16 → s.ctl.up = true →
     let x := s.port p
     let now := s.ctl.ptc
     let fresh := LinkKey.of (Config.linkKey s.freeCount)
     let alike := fun (t : State) => t.mem = s.mem ∧
       t.groups.map (fun g => { g with fetch := none }) = s.groups.map fun g => { g with fetch := none }
     let goes := fun (i : Instr) (P : Port → Prop) => ∃ t, exec i s = .next t ∧ P (t.port p) ∧
       (∀ q, q ≠ p → t.port q = s.port q) ∧ alike t
     let marks := fun (i : Instr) (P : Port → Prop) => ∃ t, exec i s = .next t ∧ P (t.port p) ∧
       (∀ q, q ≠ p → { t.port q with sent := (s.port q).sent } = s.port q) ∧ alike t
     let bare := fun (y : Port) (n : Nat) => y.state = n ∧ y.outKey = none ∧ y.newKey = none ∧ y.inKey = none ∧
       y.oldKey = none ∧ y.marking = false
     (x.enabled = false → x.state = 0 → goes (.portEnable p) fun y => y.enabled = true ∧ y.state = if x.seen then 1 else 0) ∧
     goes (.portDisable p) (fun y => y.enabled = false ∧ bare y 0) ∧
     (∀ peer, x.enabled = true → x.state = 0 → goes (.peerDetect p peer) fun y => y.state = 1 ∧ y.peer = peer.toNat ∧
       y.seen = true) ∧
     (x.state = 1 →
       (x.outKey.isSome = true → x.inKey.isSome = true →
         goes (.trainingComplete p) fun y => y.state = 2 ∧ y.fails = 0 ∧ y.sent = 0 ∧ y.keyAt = now) ∧
       goes (.trainingFail p true) (fun y => bare y 3) ∧
       goes (.trainingFail p false) (fun y => if 2 ≤ x.fails then bare y 3 else y = { x with fails := x.fails + 1 }) ∧
       ∀ k : PeerKey,
         goes (.keyExchange p true k) (fun y =>
           if Config.peerCertGood k.certs = true then y = { x with outKey := some fresh } else bare y 3) ∧
         goes (.keyExchange p false k) fun y =>
           match Config.transportOpen k.wrapped with
           | some v => y = { x with inKey := some (LinkKey.of v) }
           | none => bare y 3) ∧
     (x.state = 2 →
       goes (.lossOfLock p) (fun y => bare y 1) ∧
       (∀ i ∈ [Instr.lossOfLock p, .portDisable p], ∃ t, exec i s = .next t ∧
         (∀ o ∈ t.ops, ∀ q ∈ o.parts, ∀ z, q.sent = some z → z.path = p → q.st = .done ∨ q.st = .faulted ∨ q.lostReq = true) ∧
         (∀ m ∈ t.msgs, ∀ z, m.sent = some z → z.path = p → m.lost = true) ∧
         ∀ g ∈ t.groups, ∀ f, g.fetch = some f → f.sent.path = p → f.sent.arrived = true ∨ f.lost = true) ∧
       (∀ k : PeerKey, x.oldKey = none → goes (.keyExchange p false k) fun y =>
         match Config.transportOpen k.wrapped with
         | some v => y = { x with inKey := some (LinkKey.of v), oldKey := x.inKey, inEpoch := !x.inEpoch, marks := [] }
         | none => y = x) ∧
       (∀ k : PeerKey, x.newKey.isSome = true →
         (Config.peerCertGood k.certs = true → marks (.keyExchange p true k) fun y => y.outKey = x.newKey ∧ y.newKey = none ∧
           y.marking = true ∧ y.state = 2 ∧ fld y.stat 55 55 = 1 - fld x.stat 55 55 ∧ y.sent = 1 ∧ y.keyAt = now ∧
           y.markAt = now) ∧
         (Config.peerCertGood k.certs = false → exec (.keyExchange p true k) s = .next s)) ∧
       (x.rekeying = false →
         goes (.rekey p) (fun y => y = { x with newKey := some fresh, ctl := setFld x.ctl 1 1 1 }) ∧
         ((fld s.ctl.lnkrekey 31 0 ≠ 0 ∧ x.keyAt + fld s.ctl.lnkrekey 31 0 * 1000000 ≤ now) ∨ 2 ^ 40 ≤ x.sent + 1 →
           goes (.rekeyIntervalExpiry p) fun y => y = { x with newKey := some fresh })) ∧
       (x.marking = true →
         goes (.rekeyComplete p) (fun y => y.marking = false ∧ y.state = 2 ∧ y.ctl.getLsbD 1 = false) ∧
         (x.markAt + s.linkTimeout ≤ now → marks (.rekeyMarkerResend p) fun y =>
           if 3 ≤ x.resends then bare y 3
           else y = { x with resends := x.resends + 1, markAt := now, sent := x.sent + 1 })) ∧
       (∀ q epoch, q < 16 → s.paths q = [p] → (s.port q).oldKey.isSome = true → x.opens epoch = true →
         ∃ t, exec (.flitReceive p true (.marker q epoch)) s = .next t ∧ (t.port q).oldKey = none ∧ t.mem = s.mem))) ∧
  (∀ (s : State) (op i : Nat) (o : Op) (p : Part) (x : Sent), s.op? op = some o → o.parts[i]? = some p → p.sent = some x →
     (p.awaited = true → s.late x = true → (p.lostReq = true ∨ s.canCome x = false) →
       (p.timeouts < 2 → ∃ t q z, exec (.requestTimeout op i) s = .next t ∧ t.op? op = some q ∧ q.fault = o.fault ∧
         q.parts[i]? = some { p with timeouts := p.timeouts + 1, lostReq := false, sent := some z } ∧ z.home = x.home ∧
         z.seq = x.seq ∧ z.at_ = s.ctl.ptc ∧ z.lnkto = x.lnkto ∧ z.arrived = false ∧ t.mem = s.mem ∧ t.groups = s.groups) ∧
       (p.timeouts = 2 → o.isHint = true → ∃ t q, exec (.requestTimeout op i) s = .next t ∧ t.op? op = some q ∧
         q.fault = o.fault ∧ q.parts[i]? = some { p with st := .done, lostReq := false }) ∧
       (p.timeouts = 2 → o.isHint = false → o.fault = none → ∃ t q r f, exec (.requestTimeout op i) s = .next t ∧ t.op? op = some q ∧
         q.parts[i]? = some r ∧ r.timeouts = 3 ∧ q.fault = some f ∧ f.cause = 6 ∧ f.detail = 9 ∧ f.lanes = laneBit p.lane ∧
         t.mem = s.mem ∧ t.groups = s.groups)) ∧
     (∀ port, port < 16 → s.ports.length = 16 → (s.port port).state = 2 → s.carried port o.core x.home = true →
       (x.path = port → exec (.flitReceive port true (.request op i)) s = performPart s o i p false ∧
         (p.awaited = true → p.lostReq = false →
           exec (.flitReceive port false (.request op i)) s =
             .next (s.setOp { o with parts := o.parts.set i { p with lostReq := true } }))) ∧
       (∀ epoch, x.arrived = true → (s.port port).opens epoch = true →
         exec (.flitReceive port true (.answer op i epoch)) s = performPart s o i p false) ∧
       (∀ epoch r, x.arrived = true → performPart s o i p true = .refused r → p.awaited = true → p.lostReq = false →
         -- the port stays in its state
         ((s.port port).auths.filter fun t => s.ctl.ptc < t + 1000000).length < 1024 →
         ∃ u q r, exec (.flitReceive port false (.answer op i epoch)) s = .next u ∧ u.mem = s.mem ∧ u.groups = s.groups ∧
           u.op? op = some q ∧ q.parts[i]? = some r ∧ r.lostReq = true ∧
           fld (u.port port).stat 31 0 = (fld (s.port port).stat 31 0 + 1) % 2 ^ 32))) ∧
  (∀ (s : State) (m : Msg), s.op? m.id = none → s.msg? m.id = some m →
     (∀ x, m.sent = some x → m.lost = true → s.late x = true → s.pathUp x = true → s.drainOwner m.body = none →
       ∃ t y z, exec (.requestTimeout m.id 0) s = .next t ∧ t.mem = s.mem ∧ t.groups = s.groups ∧ t.msg? m.id = some y ∧
         y = { m with lost := false, timeouts := m.timeouts + 1, sent := some z } ∧ z.home = x.home ∧ z.seq = x.seq ∧
         z.at_ = s.ctl.ptc) ∧
     (∀ port core home, port ≤ 18 → (16 ≤ port ∨ (s.port port).state = 2) → s.coreOf m.body = some core →
       s.homeOfMsg m.body = some home → s.carried port core home = true → m.lost = false →
       exec (.flitReceive port true (.message m.id)) s = deliver m s ∧
       ∃ t y, exec (.flitReceive port false (.message m.id)) s = .next t ∧ t.mem = s.mem ∧ t.groups = s.groups ∧
         t.msg? m.id = some y ∧ y.lost = true ∧ y.body = m.body)) ∧
  (∀ (s : State) (g : Group) (f : FetchReq) (tm : Team), s.op? g.gid = none → s.msg? g.gid = none →
     s.group? g.gid = some g → g.fetch = some f → f.sent.arrived = false → s.team? g.team = some tm →
     let now := fun (t : State) (x : FetchReq) => t.group? g.gid = some { g with fetch := some x } ∧ t.mem = s.mem ∧ t.ops = s.ops
     (s.late f.sent = true → (f.lost = true ∨ s.canCome f.sent = false) → f.timeouts < 2 →
       ∃ t z, exec (.requestTimeout g.gid 0) s = .next t ∧
         now t { f with sent := z, timeouts := f.timeouts + 1, lost := false } ∧ z.home = f.sent.home ∧ z.at_ = s.ctl.ptc) ∧
     (∀ port, port ≤ 18 → (16 ≤ port ∨ (s.port port).state = 2) → s.carried port tm.core f.sent.home = true →
       f.sent.path = port ∨ 17 ≤ port → f.lost = false →
       (∃ t, exec (.flitReceive port false (.fetch g.gid)) s = .next t ∧ now t { f with lost := true }) ∧
       (s.arrives f.sent = true → ∃ t x, exec (.flitReceive port true (.fetch g.gid)) s = .next t ∧ now t x ∧
         x.sent.arrived = true ∧ f.sent.home ∈ x.got)))

/-- 15 R404 to R407, R426, Tables 15.3, 15.5, 15.9: an orderly reset halts every queue and marks its die, as a fatal one
does; once the groups stand between clauses the L1s, hampers and commands go and every grid is killed, and it completes, its
vector raised, after three timeouts and 1 µs and when every killed grid has retired. A fatal reset poisons the blocks that
its die's L1s own, and each region that lost a hamper or a share counts up in the region loss table, and is logged. Errors
poison what they lie in: a memory block, a hamper, which goes home poisoned, a tile, a unit, the parameter memory, or a
group's register, which reads as zero and parks its group; an uncorrectable control-die error halts the queues with cause 17,
and the 256th corrected error of a unit is logged. The model's own choice: what a reset waits for (log 100), when the counts
of corrected errors restart (log 102), and that a fatal reset takes the regions of one it meets (log 130). -/
def Obligations.ResetsAndErrors : Prop :=
  ∀ (s : State), s.queues.length = 64 →
    let halted := fun (t : State) (cause detail : Nat) => ∀ q, q < 64 → (t.queue q).stat.getLsbD 63 = true ∧
      fld (t.queue q).stat 55 48 = cause ∧ fld (t.queue q).stat 47 40 = detail ∧ q ∈ t.ctl.msix
    (∀ die, die < 2 → s.ctl.rstctl.getLsbD die = false → ∃ t, exec (.orderlyReset die) s = .next t ∧ halted t 16 die ∧
      t.ctl.rstctl.getLsbD die = true ∧ (if die = 0 then t.ctl.die0 else t.ctl.die1) = true ∧
      t.resets = s.resets ++ [⟨die, false, 0, s.ctl.ptc, [], false⟩] ∧ t.mem = s.mem ∧ t.groups = s.groups) ∧
    (∀ die (cause : BitVec 8), die < 2 → 1 ≤ cause.toNat → cause.toNat ≤ 4 →
      ∃ t, exec (.uncorrectableError (.dieState die cause)) s = .next t ∧ halted t 16 die ∧
        (if die = 0 then t.ctl.die0 else t.ctl.die1) = true ∧ t.mem = s.mem ∧ t.groups = s.groups ∧ t.ops = s.ops ∧
        (t.resets.find? fun x => x.die == die) = some ⟨die, true, cause, s.ctl.ptc, s.lostSoFar die, false⟩) ∧
    (∀ die r, die < 2 → s.resets.find? (fun x => x.die == die) = some r → r.cleared = false → s.storesFlying r = false →
      (∀ g ∈ s.groups, g.midClause = false) →
      ∃ t lost, exec (.resetComplete die) s = .next t ∧ t.l1 = [] ∧ t.hampers = [] ∧ t.homes = [] ∧ t.msgs = [] ∧
        t.ops = [] ∧ t.dir = [] ∧ (∀ g ∈ t.grids, g.killed ≠ none) ∧
        (t.resets.find? fun x => x.die == die) = some { r with cleared := true, lost := lost } ∧
        (r.fatal = false → r.lost = [] → lost = []) ∧
        (r.fatal = true →
          (∀ d ∈ s.dir, ∀ c, d.owner = some c → dieOfCore c = die → isHbm d.blk = true → t.poisoned d.blk = true) ∧
          (∀ h ∈ s.hampers, s.lostWith die h.core h.blk = true → h.region.n ∈ lost) ∧
          ∀ hb ∈ s.homes, ∀ h ∈ hb.holders, s.lostWith die h.core hb.blk = true → hb.region.n ∈ lost)) ∧
    (∀ die r, die < 2 → s.resets.find? (fun x => x.die == die) = some r → r.cleared = true →
      r.start + 3 * s.linkTimeout + 1000 ≤ s.ctl.ptc → (∀ g ∈ s.grids, g.killed = none) → (∀ h ∈ s.graphs, h.killed = none) →
      ∃ t, exec (.resetComplete die) s = .next t ∧ t.ctl.rstctl.getLsbD die = false ∧
        (if die = 0 then t.ctl.die0 else t.ctl.die1) = false ∧ (∀ x ∈ t.resets, x.die ≠ die) ∧ 65 ∈ t.ctl.msix ∧
        t.groups = s.groups ∧ t.grids = s.grids ∧
        (s.logRoom 1 → r.lost = [] → t.ctl.svctail = s.ctl.svctail + 1 ∧
          t.logged (s.logAt 0) 4 (if r.fatal then 128 + die else die) 0 (if r.fatal then r.cause.toNat else 0)) ∧
        (∀ n : BitVec 12, r.lost = [n] →
          let table := mkDpa s.device (fld s.ctl.regloss 38 38) (fld s.ctl.regloss 37 15 * 32768)
          let entry := table + 8 * n.toNat
          (s.dirOf (blockOf entry)).owner = none → (s.logRoom 1 → s.offLog table (table + 32768)) →
            t.le entry 8 = 2 ^ 63 + min (s.le entry 8 % 2 ^ 63 + 1) (2 ^ 63 - 1) ∧
            (s.logRoom 2 → t.ctl.svctail = s.ctl.svctail + 2 ∧ t.logged (s.logAt 1) 5 die 0 n.toNat))) ∧
    (∀ key, ∃ t, exec (.uncorrectableError (.memBlock key 0)) s = .next t ∧ t.poisoned key = true ∧ t.mem = s.mem) ∧
    (∀ core blk h, s.hamper? core blk = some h → ∃ t m, exec (.uncorrectableError (.hamper core blk)) s = .next t ∧
      t.hamper? core blk = none ∧ t.mem = s.mem ∧ m ∈ t.msgs ∧
      m.body = .drain core blk h.region h.line h.sums true true none none) ∧
    (∀ team tm, s.team? team = some tm →
      let now := fun (site : ErrSite) (u : Team) => ∃ t, exec (.uncorrectableError site) s = .next t ∧
        t = { s with teams := t.teams } ∧ t.team? team = some u
      (∀ quad tile, quad < 4 → tile < 32 →
        now (.tile team quad tile) { tm with tilePoison := tm.tilePoison ++ [tileId quad tile] }) ∧
      (∀ u, u < tm.accUnits → now (.accUnit team u) { tm with accPoison := tm.accPoison ++ [u] }) ∧
      now (.param team) { tm with paramPoison := List.range 32 }) ∧
    (∀ gid r g tm gr, s.group? gid = some g → s.team? g.team = some tm → s.grid? tm.grid = some gr → g.st ≠ .parked →
      g.st ≠ .exited → g.between = true → s.samplerBusy gid = false → gr.serves = none →
      (s.queue gr.queue).ctl.getLsbD 8 = true → s.ctxFits = true →
      ∃ t p, exec (.uncorrectableError (.groupReg gid r)) s = .next t ∧ t.group? gid = some ((g.zeroReg r).parkedWith p) ∧
        p.cause = 6 ∧ p.detail = 6 ∧ p.record.getD 2 0 = 4) ∧
    (∃ t, exec (.uncorrectableError .controlSram) s = .next t ∧ halted t 17 0 ∧ t.ctl.halted = true) ∧
    (∀ (unit : BitVec 8) (dpa : Nat), 1 ≤ unit.toNat → unit.toNat ≤ 6 → s.ctl.corrected.length = 7 →
      ∃ t, exec (.correctableError unit dpa) s = .next t ∧
        t.ctl.corrected.getD unit.toNat 0 = (if s.ctl.corrected.getD unit.toNat 0 + 1 = 256 then 0
          else s.ctl.corrected.getD unit.toNat 0 + 1) ∧
        (s.ctl.corrected.getD unit.toNat 0 + 1 ≠ 256 → t = { s with ctl := t.ctl } ∧ t.ctl.svctail = s.ctl.svctail) ∧
        (s.ctl.corrected.getD unit.toNat 0 + 1 = 256 → s.logRoom 1 → t.ctl.svctail = s.ctl.svctail + 1 ∧
          t.ctl.msix = s.ctl.msix ++ [64] ∧ t.logged (s.logAt 0) 3 unit.toNat (blockOf dpa % 2 ^ 64) 256)) ∧
    (∃ t, exec .patrolRead s = .next t ∧ t = { s with ctl := t.ctl } ∧ t.ctl.corrected = List.replicate 7 0)

/-- 15 R402, R403, R408 to R411, R423, R425: the host reads and writes memory as the control die's own requests do: a read
answers the bytes of memory, of a block that an L1 owns with the owner's dirty words, and of a block with a holder with the
holder's partials, which come home; a write puts its enabled bytes there, over the owner's, and clears the mark of a block
that it writes whole; tags likewise; LOSTMAP clears by ones; a write of ATTCMD starts an attestation command or names the
reason for which it does not, and the command's completion writes its report or its chain into the buffer; a register written
while it takes the write reads back the bits that it has, and only aligned 64-bit accesses reach a register. The model's own
choice: the data of firmware and manufacture (log 8), that an attestation command is busy until a later step completes it
(log 93), the alignment of ATTBUF (log 104), and that another access of a register reads 0 and writes nothing (log 106). -/
def Obligations.HostAccesses : Prop :=
  ∀ (s : State), s.ctl.up = true →
    let own := fun (addr n : Nat) => ∀ h ∈ hostBlocks addr n, s.home? (hostKey s h) = none ∧
      s.blockQuiet (hostKey s h) = true ∧ (s.dirOf (hostKey s h)).owner = none
    (∀ addr n, 1 ≤ n → addr + n ≤ 2 * dieBytes → own addr n →
      exec (.hostDataRead addr n) s = .next (s.setCtl { s.ctl with hostReads := s.ctl.hostReads ++
        [(addr, (List.range n).map (fun i => Store.read s.mem (hostKey s (addr + i))),
          (hostBlocks addr n).any fun h => s.poisoned (hostKey s h))] })) ∧
    (∀ addr n, 1 ≤ n → addr % 64 + n ≤ 64 → addr + n ≤ 2 * dieBytes →
      let base := addr / 64 * 64
      let blk := hostKey s base
      s.blockQuiet blk = true →
      let answers := fun (byte : Nat → Byte) => ∃ t, exec (.hostDataRead addr n) s = .next t ∧ t.groups = s.groups ∧
        t.ctl.hostReads = s.ctl.hostReads ++ [(addr, (List.range n).map (fun i => byte (addr + i - base)), s.poisoned blk)]
      (∀ c ln, s.home? blk = none → (s.dirOf blk).owner = some c → s.line? c blk = some ln →
        answers fun i => if ln.dirty.getLsbD (i / 4) then Store.read ln.data i else Store.read s.mem (blk + i)) ∧
      (∀ r h hb y, s.home? blk = some hb → hb.region = r → r.fmt = 2 → hb.holders = [h] →
        s.hamper? h.core blk = some y → y.region = r → (s.dirOf blk).owner = none →
        answers fun i => if y.seen.getLsbD (i / 4)
          then BitVec.ofNat 8 ((s.le (blk + i / 4 * 4) 4 + (Store.read y.part (i / 4)).toNat) / 2 ^ (8 * (i % 4)))
          else Store.read s.mem (blk + i))) ∧
    (∀ addr (bytes : List (Option Byte)), bytes ≠ [] → addr + bytes.length ≤ 2 * dieBytes → own addr bytes.length →
      ∃ t, exec (.hostDataWrite addr bytes) s = .next t ∧ t.groups = s.groups ∧ t.ops = s.ops ∧
        (∀ i b, bytes[i]? = some (some b) → Store.read t.mem (hostKey s (addr + i)) = b) ∧
        (∀ y, (∀ i b, bytes[i]? = some (some b) → y ≠ hostKey s (addr + i)) → Store.read t.mem y = Store.read s.mem y) ∧
        (∀ h ∈ hostBlocks addr bytes.length, addr ≤ h → h + 64 ≤ addr + bytes.length →
          (∀ i, i < 64 → bytes[h - addr + i]? ≠ some none) → hostKey s h ∉ t.poison) ∧
        ∀ ln ∈ t.l1, ∀ h ∈ hostBlocks addr bytes.length, ln.blk ≠ hostKey s h) ∧
    (∀ addr, addr < 2 * dieBytes / 32 → ∃ t, exec (.hostTagRead addr) s = .next t ∧ t = { s with ctl := t.ctl } ∧
      t.ctl.hostReads = s.ctl.hostReads ++ [(addr, s.bytes (tagKey (tagBlock s addr)) 2,
        s.tagPoison.contains (tagBlock s addr) || s.lost (tagBlock s addr))]) ∧
    (∀ addr (v : BitVec 16), addr < 2 * dieBytes / 32 → ∃ t, exec (.hostTagWrite addr v) s = .next t ∧
      t.le (tagKey (tagBlock s addr)) 2 = v.toNat ∧ tagBlock s addr ∉ t.tagPoison ∧
      ∀ y, (y < tagKey (tagBlock s addr) ∨ tagKey (tagBlock s addr) + 2 ≤ y) → Store.read t.mem y = Store.read s.mem y) ∧
    (∀ n (v : W64), n < 8 → s.ctl.lostmap.length = 8 → ∃ t, exec (.lostmapClear n v) s = .next t ∧ t = { s with ctl := t.ctl } ∧
      t.ctl.lostmap.getD n 0 = (s.ctl.lostmap.getD n 0) &&& ~~~v) ∧
    (∀ v : W64, v.getLsbD 63 = true →
      let off := fld s.ctl.attbuf 37 6 * 64
      let cmd := fld v 7 0
      let busy := s.ctl.attcmd.getLsbD 63
      let refused := fun (reason : Nat) => ∃ t, exec (.registerWrite ⟨false, 0x60000, 8⟩ v) s = .next t ∧
        t = { s with ctl := t.ctl } ∧ t.ctl.attcmd.getLsbD 62 = true ∧ fld t.ctl.attcmd 61 56 = reason ∧
        t.ctl.attcmd.getLsbD 63 = busy
      (busy = true → refused 3) ∧
      (busy = false → off % 4096 ≠ 0 ∨ dieBytes ≤ off → refused 1) ∧
      (busy = false → off % 4096 = 0 → off < dieBytes → cmd ≠ 1 → cmd ≠ 2 → refused 2) ∧
      (busy = false → off % 4096 = 0 → off < dieBytes → cmd = 1 ∨ cmd = 2 →
        ∃ t, exec (.registerWrite ⟨false, 0x60000, 8⟩ v) s = .next t ∧ t = { s with ctl := t.ctl } ∧
          t.ctl.attcmd.getLsbD 63 = true ∧ fld t.ctl.attcmd 7 0 = cmd ∧ fld t.ctl.attcmd 61 56 = 0 ∧
          t.ctl.attKey = mkDpa s.device (fld s.ctl.attbuf 38 38) off)) ∧
    (s.ctl.attcmd.getLsbD 63 = true →
      let key := s.ctl.attKey
      (fld s.ctl.attcmd 7 0 = 1 → ∃ t, exec .attestReport s = .next t ∧ t.ctl.attcmd.getLsbD 63 = false ∧
        t.le key 4 = 0x41545357 ∧ t.le (key + 8) 8 = s.ctl.devid.toNat ∧ t.le (key + 16) 8 = Config.serial.toNat ∧
        t.bytes (key + 32) 32 = ((s.recallNow (key + 64)).recallNow key).bytes (key + 32) 32) ∧
      (fld s.ctl.attcmd 7 0 = 2 → ∃ t, exec .attestCertChain s = .next t ∧ t.ctl.attcmd.getLsbD 63 = false ∧
        t.bytes key (4 + Config.certLength.toNat) =
          leBytes 4 Config.certLength.toNat ++ (List.range Config.certLength.toNat).map Config.certByte)) ∧
    (∀ v : W64, s.ctl.boot = 0 →
      (∃ t, exec (.registerWrite ⟨false, 0x20000, 8⟩ v) s = .next t ∧
        t.readReg 0x20000 = keepBits v [(38, 38), (37, 12), (0, 0)] ∧ t.mem = s.mem) ∧
      (s.ctl.enabledOnce = false → ∃ t, exec (.registerWrite ⟨false, 0x10, 8⟩ v) s = .next t ∧
        t.readReg 0x10 = keepBits v [(13, 8), (5, 0)] ∧ t.mem = s.mem) ∧
      (s.ctl.enabledOnce = true → exec (.registerWrite ⟨false, 0x10, 8⟩ v) s = .next s) ∧
      ∃ t, exec (.registerWrite ⟨false, 0x40800, 8⟩ v) s = .next t ∧ t.readReg 0x40800 = keepBits v [(31, 0)]) ∧
    (∀ (a : RegAccess) (v : W64),
      (a.size ≠ 8 ∨ a.addr % 8 ≠ 0 → exec (.registerWrite a v) s = .next s ∧ s.regRead a = 0) ∧
      (a.size = 8 → a.addr % 8 = 0 → a.addr < 0x1000000 →
        exec (.registerWrite { a with mgmt := true, addr := 0x10000000 + a.addr } v) s =
          exec (.registerWrite { a with mgmt := false } v) s ∧
        s.regRead { a with mgmt := true, addr := 0x10000000 + a.addr } = s.readReg a.addr ∧
        s.regRead { a with mgmt := false } = s.readReg a.addr))

/-- 01 R13, 15 R413, R420 to R422, R427, R428: time passes and is corrected without ever going back, the dies' copies
staying within PTSKEW of it; an exchange with a path to the one source gives what is to be slewed, the bound, and
TIMECTL.lost cleared; its loss sets TIMECTL.lost, logs and raises its vector; and PTCSET loads it until a queue has been
enabled; the throttle withholds slots; a monitor is cleared, and ticks once for each microsecond;
power-on leaves the registers as their tables say, up when the boot is good. The model's own choice: that an event without a
class counts as class 4 (log 38), the limits of a correction and an exchange (log 103), the order of the checks of a boot
(log 131), what power-on leaves of memory (log 2) and the registers that its tables give no value (log 4). -/
def Obligations.TimeAndMonitors : Prop :=
  ∀ (s : State),
    (∀ n, s.ctl.ptc ≤ (s.ctl.pass n).ptc ∧ (s.ctl.pass n).ptc ≤ s.ctl.ptc + 2 * n ∧
      (s.ctl.ptcLag0 ≤ s.ctl.ptskew.toNat → (s.ctl.pass n).ptcLag0 ≤ s.ctl.ptskew.toNat) ∧
      (s.ctl.ptcLag1 ≤ s.ctl.ptskew.toNat → (s.ctl.pass n).ptcLag1 ≤ s.ctl.ptskew.toNat)) ∧
    (∀ n, n ≤ 1 →
      (s.ctl.corrAt0 + 10000 ≤ s.ctl.ptc → exec (.ptcCorrection 0 n) s =
        .next { s with ctl := { s.ctl with ptcLag0 := s.ctl.ptcLag0 - n, corrAt0 := s.ctl.ptc } }) ∧
      (s.ctl.corrAt1 + 10000 ≤ s.ctl.ptc → exec (.ptcCorrection 1 n) s =
        .next { s with ctl := { s.ctl with ptcLag1 := s.ctl.ptcLag1 - n, corrAt1 := s.ctl.ptc } })) ∧
    (∀ p t1 t2 t3 t4 (news : TimeNews), p < 16 → s.ports.length = 16 → (s.port p).state = 2 →
      (∀ t, (s.port p).exchAt = some t → t + 1000000 ≤ s.ctl.ptc) →
      (news.reaches = false ∨ (s.ctl.ptcLag0 ≤ news.bound.toNat ∧ s.ctl.ptcLag1 ≤ news.bound.toNat ∧ news.bound.toNat ≤ 60)) →
      ∃ t, exec (.timeExchange p t1 t2 t3 t4 news) s = .next t ∧ t.ctl.ptc = s.ctl.ptc ∧ t.ctl.sources = news.sources ∧
        (t.port p).exchAt = some s.ctl.ptc ∧ t.groups = s.groups ∧
        (news.reaches = false ∨ (if s.ctl.gm then 1 else 0) + news.sources ≠ 1 →
          t.ctl = { s.ctl with sources := news.sources }) ∧
        (news.reaches = true → (if s.ctl.gm then 1 else 0) + news.sources = 1 → t.ctl.ptskew = news.bound ∧
          t.ctl.lost = false ∧ t.ctl.lastExchange = s.ctl.ptc ∧
          t.ctl.slew = if s.ctl.gm then 0 else lagOf t1 t2 t3 t4)) ∧
    (s.ctl.lost = false → fld s.ctl.devcfg 13 8 ≠ 0 →
      let loses := fun (bad : Bool) => ∃ t, exec (.timeSyncLost bad) s = .next t ∧ t.ctl.lost = true ∧
        t.ctl.ptskew = BitVec.allOnes 64 ∧ 66 ∈ t.ctl.msix ∧
        (s.logRoom 1 → t.ctl.svctail = s.ctl.svctail + 1 ∧ t.logged (s.logAt 0) 8 1 0 s.ctl.ptskew.toNat)
      (s.ctl.gm = false → s.ctl.lastExchange + 1000000000 ≤ s.ctl.ptc → loses false) ∧
      ((if s.ctl.gm then 1 else 0) + s.ctl.sources ≠ 1 → loses true)) ∧
    (∀ v : W64, s.ctl.up = true →
      (s.ctl.enabledOnce = false → ∃ t, exec (.ptcsetWrite v) s = .next t ∧ t.ctl.ptc = v.toNat ∧ t.ctl.ptcLag0 = 0 ∧
        t.ctl.ptcLag1 = 0 ∧ t.ctl.ptcset = v) ∧
      (s.ctl.enabledOnce = true → exec (.ptcsetWrite v) s = .next s)) ∧
    (∀ n w, ∃ t, exec (.powerThrottle n w) s = .next t ∧
      t = { s with ctl := { s.ctl with withheld := s.ctl.withheld + n, watts := w } }) ∧
    (∀ m, m < 16 → s.monitors.length = 16 → s.ctl.up = true → ∃ t x, exec (.monitorClear m) s = .next t ∧ t.mem = s.mem ∧
      t.monitors.getD m Monitor.reset = x ∧ x.min = BitVec.allOnes 64 ∧ x.max = 0 ∧ x.cnt = 0 ∧ x.hist = List.replicate 16 0 ∧
      x.ctl = (s.monitors.getD m Monitor.reset).ctl ∧
      ∀ i, i ≠ m → t.monitors.getD i Monitor.reset = s.monitors.getD i Monitor.reset) ∧
    (s.ctl.tickAt + 1000 ≤ s.ctl.ptc → ∃ t, exec .monitorTick s = .next t ∧ t.ctl.tickAt = s.ctl.tickAt + 1000 ∧ t.mem = s.mem ∧
      t.groups = s.groups ∧ ∀ (i : Nat) (m : Monitor), s.monitors[i]? = some m →
        (fld m.ctl 15 8 ≠ 7 → fld m.ctl 15 8 ≠ 8 → t.monitors[i]? = some m) ∧
        (fld m.ctl 15 8 = 7 → m.ctl.getLsbD 31 = true → m.ctl.getLsbD 30 = false → m.ctl.getLsbD 28 = false →
          m.ctl.getLsbD 27 = true → (t.monitors[i]?).map (·.cnt) = some (m.cnt + 1))) ∧
    (∀ b : Boot, b.images.length = 4 → ∃ t, exec (.powerOn b) s = .next t ∧ t.mem = [] ∧ t.groups = [] ∧ t.grids = [] ∧
      t.ctl.boot = bootCode b ∧ t.ctl.up = decide (bootCode b = 0) ∧ t.queues = State.reset.queues ∧
      t.budget = State.reset.budget ∧ t.ports = State.reset.ports ∧ t.monitors = State.reset.monitors ∧ t.xl = State.reset.xl)

/-! ## Decoding, the step and the state (chapters 01, 02) -/

/-- Worked examples of the spec (chapters 01 to 14): the words that it writes out decode to the instructions that it
names. -/
def Obligations.DecodeWords : Prop :=
  decodeWord 0x010022CA00000064 = .ok (.iadd ⟨0, .w 1, .sp .laneid, .lit 100, .i32, false⟩) ∧
  decodeWord 0x3020000200000007 = .ok (.bra 1 7) ∧
  decodeWord 0x43002A444A184000 = .ok (.ffma ⟨0, .w 5, .w 1, .w 2, .s 3, .f32, .rup, false⟩) ∧
  decodeWord 0x6200305054000000 = .ok (.vadd ⟨0, 8, 4, 5⟩) ∧
  decodeWord 0x7000244400044040 = .ok (.ld 0 (.w 2) (.w 1) ⟨.g, .si, .grp, .relaxed, .b32⟩ false) ∧
  decodeWord 0x900001310A542880 =
    .ok (.copy ⟨0, .s 12, .s 2, 10, .g, .s, .core, some .s, false⟩) ∧
  decodeWord 0xA200000002A80000 = .ok (.mmafx ⟨0, ⟨0, none⟩, ⟨0, none⟩, ⟨0, none⟩, .s 21⟩) ∧
  decodeWord 0xC000284900000000 = .ok (.smpl ⟨0, 4, 2, 0, false, 0, 0⟩) ∧
  decodeWord 0xC861010844040040 = .ok (.atom .min 3 .queue (.s 2) (.w 1) ⟨.g, .grp, .relaxed, false⟩) ∧
  decodeWord 0xF10000020000002A = .ok (.trap 0 42)

/-- 02 R34 to R44, Tables 2.2 to 2.6: every well-formed instruction word has an encoding, and decoding it gives the
instruction back, whatever its operands. -/
def Obligations.DecodeEncode : Prop :=
  ∀ i : Instr, i.wf = true → i.isWord = true → ∃ w, encode i = some w ∧ decodeWord w = .ok i

/-- 02 R26, R28, R41, R48: with no planned event before it, a step runs the word that comes next in a started clause,
decoded for its kernel, as the meaning of the instruction it is, after time has passed and with the lane pipe its group's;
a word of a clause is the eight bytes at its address; and a word placed by `withFetchWord` is the next one. The model's
own choice: that a fetched word is memory as it stands (log 42), and where `withFetchWord` places a word (log 11). -/
def Obligations.StepRunsDecoded : Prop :=
  (∀ (s : State) (gid : Nat) (e : Env) (i : Instr), s.agenda = [] → s.tick.runner false = some gid →
    (s.tick.takePipe gid).envOf gid = some e → e.instr? = .ok i →
    step s = exec i { s.tick.takePipe gid with focus := gid } ∧
    s.tick = { s with ctl := s.ctl.pass (Config.timeAdvance s.freeCount), freeCount := s.freeCount + 1 }) ∧
  (∀ (s : State) (core key : Nat) (a : BitVec 48) (r : Option (BitVec 12)), a.toNat % 8 = 0 →
    s.global core .fetch (a.setWidth 64) = .at key r → s.poisoned key = false → (s.dirOf (blockOf key)).owner = none →
    s.fetchWord core a = .word (BitVec.ofNat 64 (s.le key 8))) ∧
  (∀ (s : State) (w : W64) (i : Instr), decodeWord w = .ok i →
    step (s.withFetchWord 64 w.toNat) = exec i { (s.withFetchWord 64 w.toNat).tick with focus := s.nextId })

/-- 15 R428, Tables 15.2, 15.5, 15.7, 15.11, 14 Tables 14.2, 14.8, 08 Table 8.12: the machine after reset has no group,
grid, command or cached line, both compute dies in reset, and each register at the value of its table; memory, of which
the spec gives nothing before the bring-up, lists nothing (log 2), and its form is canonical. -/
def Obligations.ResetState : Prop :=
  let s := State.reset
  Memory.wf s.mem = true ∧ s.mem = [] ∧ s.groups = [] ∧ s.teams = [] ∧ s.grids = [] ∧ s.ops = [] ∧ s.l1 = [] ∧ s.tlb = [] ∧
  s.hampers = [] ∧ s.regions = [] ∧ s.poison = [] ∧
  s.readReg 0x008 = 3 ∧ (∀ o ∈ [0x010, 0x018, 0x020, 0x028, 0x030, 0x038], s.readReg o = 0) ∧
  s.readReg 0x30000 = 0 ∧ s.readReg 0x30008 = 20 ∧ s.readReg 0x40800 = 0x640014 ∧ s.readReg 0x40808 = 60000 ∧
  s.readReg 0x11000 = 0x640A640A640A640A ∧ s.readReg 0x11008 = 0x6428642864286428 ∧
  (∀ q, q < 64 → s.readReg (0x10000 + 0x40 * q + 0x20) = 0) ∧ (∀ p, p < 16 → s.readReg (0x40000 + 0x40 * p) = 0) ∧
  s.readReg 0x20000 = 0

/-- The model's own form of memory (log 2): every step leaves it canonical, so that equal memories are equal data. -/
def Obligations.MemoryStaysCanonical : Prop :=
  ∀ s t : State, Memory.wf s.mem = true → step s = .next t → Memory.wf t.mem = true
end

