-- ==== Sys2Proof/Laws/Int.lean ====
section
/-!
SUPPORT. Laws of integer values: a result depends on its integer modulo the width alone, and the bits and bytes of the
numbers that the bit instructions build.
-/

namespace Sys2Proof

theorem ofInt_congr {n : Nat} {x y : Int} (h : x % 2 ^ n = y % 2 ^ n) : BitVec.ofInt n x = BitVec.ofInt n y := by
  apply BitVec.eq_of_toNat_eq
  rw [BitVec.toNat_ofInt, BitVec.toNat_ofInt]
  push_cast
  rw [h]

/-- A result's pattern is its integer modulo 2^w. -/
theorem IntTy.form_congr (t : IntTy) {x y : Int} (h : x % 2 ^ t.width = y % 2 ^ t.width) : t.form x = t.form y := by
  have h' := ofInt_congr h
  cases t <;> simp only [IntTy.form, IntTy.width] at h' ⊢ <;> rw [h']

theorem IntTy.width_pos (t : IntTy) : 0 < t.width := by cases t <;> decide
theorem IntTy.width_le (t : IntTy) : t.width ≤ 64 := by cases t <;> decide

theorem IntTy.toInt_mod (t : IntTy) (v : W64) : t.toInt v % 2 ^ t.width = (t.pat v : Int) % 2 ^ t.width := by
  unfold IntTy.toInt IntTy.pat
  dsimp only
  split
  · simp
  · rfl

/-- A source read as the type and formed again is its pattern. -/
theorem IntTy.form_toInt (t : IntTy) (v : W64) : t.form (t.toInt v) = t.formN (t.pat v) := t.form_congr (t.toInt_mod v)

theorem IntTy.pat_lt (t : IntTy) (v : W64) : t.pat v < 2 ^ t.width := Nat.mod_lt _ (by positivity)

/-! ## Numbers built bit by bit -/

theorem natOfBits_succ (n : Nat) (f : Nat → Bool) :
    natOfBits (n + 1) f = natOfBits n f + (if f n then 2 ^ n else 0) := by
  unfold natOfBits
  rw [List.range_succ, List.foldl_append]
  simp only [List.foldl_cons, List.foldl_nil]
  split <;> simp

theorem natOfBits_lt (n : Nat) (f : Nat → Bool) : natOfBits n f < 2 ^ n := by
  induction n with
  | zero => simp [natOfBits]
  | succ n ih =>
    rw [natOfBits_succ, pow_succ]
    split <;> omega

theorem testBit_natOfBits (n : Nat) (f : Nat → Bool) (i : Nat) :
    (natOfBits n f).testBit i = (decide (i < n) && f i) := by
  induction n with
  | zero => simp [natOfBits]
  | succ n ih =>
    have hlt := natOfBits_lt n f
    rw [natOfBits_succ]
    cases hf : f n with
    | false =>
      rw [if_neg (by simp), Nat.add_zero, ih]
      by_cases hi : i = n
      · subst hi; simp [hf]
      · have : (i < n + 1) ↔ i < n := by omega
        simp [this]
    | true =>
      have h2 : natOfBits n f + 2 ^ n = 2 ^ n * 1 ||| natOfBits n f := by
        rw [← Nat.two_pow_add_eq_or_of_lt hlt]; omega
      rw [if_pos rfl, h2, Nat.testBit_or, ih, Nat.mul_one, Nat.testBit_two_pow]
      by_cases hi : i = n
      · subst hi; simp [hf]
      · have h3 : (i < n + 1) ↔ i < n := by omega
        simp [h3, show n ≠ i from fun e => hi e.symm]

end Sys2Proof
end

