-- ==== Sys2Proof/Laws/Store.lean ====
section
/-!
SUPPORT. Laws of the sparse store: what a read gives after each operation, and that every operation keeps the canonical
form.
-/

namespace Sys2Proof

variable {w : Nat}

/-! ## Reads -/

@[simp] theorem Store.read_nil (k : Nat) : Store.read ([] : Store w) k = 0 := rfl

theorem Store.read_drop_same (m : Store w) (k : Nat) : Store.read (Store.drop m k) k = 0 := by
  induction m with
  | nil => rfl
  | cons p t ih =>
    obtain ⟨a, v⟩ := p
    by_cases h : a = k <;> simp [Store.drop, Store.read, h, ih]

theorem Store.read_drop_other (m : Store w) {k j : Nat} (h : k ≠ j) :
    Store.read (Store.drop m k) j = Store.read m j := by
  induction m with
  | nil => rfl
  | cons p t ih =>
    obtain ⟨a, v⟩ := p
    by_cases ha : a = k
    · subst ha; simp [Store.drop, Store.read, h, ih]
    · rw [Store.drop, if_neg ha, Store.read, Store.read, ih]

theorem Store.read_place_same (m : Store w) (k : Nat) (v : BitVec w) (h : ∀ p ∈ m, p.1 ≠ k) :
    Store.read (Store.place k v m) k = v := by
  induction m with
  | nil => simp [Store.place, Store.read]
  | cons p t ih =>
    obtain ⟨a, u⟩ := p
    have ha : a ≠ k := h (a, u) (by simp)
    have ht : ∀ p ∈ t, p.1 ≠ k := fun p hp => h p (by simp [hp])
    by_cases hk : k < a <;> simp [Store.place, Store.read, hk, ha, ih ht]

theorem Store.read_place_other (m : Store w) {k j : Nat} (v : BitVec w) (h : k ≠ j) :
    Store.read (Store.place k v m) j = Store.read m j := by
  induction m with
  | nil => simp [Store.place, Store.read, h]
  | cons p t ih =>
    obtain ⟨a, u⟩ := p
    by_cases hk : k < a
    · simp [Store.place, Store.read, hk, h]
    · rw [Store.place, if_neg hk, Store.read, Store.read, ih]

theorem Store.mem_drop {m : Store w} {k : Nat} {p : Nat × BitVec w} (h : p ∈ Store.drop m k) : p ∈ m ∧ p.1 ≠ k := by
  induction m with
  | nil => simp [Store.drop] at h
  | cons q t ih =>
    obtain ⟨a, v⟩ := q
    by_cases ha : a = k
    · simp only [Store.drop, ha, if_true] at h
      exact ⟨List.mem_cons_of_mem _ (ih h).1, (ih h).2⟩
    · simp only [Store.drop, ha, if_false, List.mem_cons] at h
      rcases h with rfl | h
      · exact ⟨by simp, ha⟩
      · exact ⟨List.mem_cons_of_mem _ (ih h).1, (ih h).2⟩

/-- A read of the cell last written. -/
theorem Store.read_write_same (m : Store w) (k : Nat) (v : BitVec w) : Store.read (Store.write m k v) k = v := by
  unfold Store.write
  split
  · next h => rw [Store.read_drop_same, h]
  · exact Store.read_place_same _ _ _ fun p hp => (Store.mem_drop hp).2

/-- A write leaves every other cell alone. -/
theorem Store.read_write_other (m : Store w) {k j : Nat} (v : BitVec w) (h : k ≠ j) :
    Store.read (Store.write m k v) j = Store.read m j := by
  unfold Store.write
  split
  · exact Store.read_drop_other m h
  · rw [Store.read_place_other _ _ h, Store.read_drop_other m h]

theorem Store.read_write (m : Store w) (k j : Nat) (v : BitVec w) :
    Store.read (Store.write m k v) j = if k = j then v else Store.read m j := by
  split
  · next h => subst h; exact Store.read_write_same m k v
  · next h => exact Store.read_write_other m v h

/-- Cells below or above a written run keep their contents. -/
theorem Store.read_writeList_out (l : List (BitVec w)) (m : Store w) (k j : Nat) (h : j < k ∨ k + l.length ≤ j) :
    Store.read (Store.writeList m k l) j = Store.read m j := by
  induction l generalizing m k with
  | nil => rfl
  | cons v vs ih =>
    simp only [List.length_cons] at h
    rw [Store.writeList, ih _ _ (by omega), Store.read_write_other _ _ (by omega)]

/-- The cells of a written run. -/
theorem Store.read_writeList_in (l : List (BitVec w)) (m : Store w) (k i : Nat) (h : i < l.length) :
    Store.read (Store.writeList m k l) (k + i) = l[i] := by
  induction l generalizing m k i with
  | nil => simp at h
  | cons v vs ih =>
    cases i with
    | zero =>
      rw [Store.writeList, Store.read_writeList_out _ _ _ _ (by omega), Nat.add_zero, Store.read_write_same]
      rfl
    | succ i =>
      simp only [List.length_cons] at h
      have : k + (i + 1) = (k + 1) + i := by omega
      rw [Store.writeList, this, ih _ _ _ (by omega)]
      rfl

@[simp] theorem Store.readList_length (m : Store w) (k n : Nat) : (Store.readList m k n).length = n := by
  induction n generalizing k with
  | zero => rfl
  | succ n ih => simp [Store.readList, ih]

theorem Store.readList_congr (m t : Store w) (k n : Nat) (h : ∀ i, i < n → Store.read m (k + i) = Store.read t (k + i)) :
    Store.readList m k n = Store.readList t k n := by
  induction n generalizing k with
  | zero => rfl
  | succ n ih =>
    simp only [Store.readList]
    rw [show Store.read m k = Store.read t k from h 0 (by omega)]
    rw [ih (k + 1) fun i hi => by
      have := h (i + 1) (by omega)
      rwa [show k + (i + 1) = k + 1 + i by omega] at this]

/-- A run read back after it was written. -/
theorem Store.readList_writeList (m : Store w) (k : Nat) (l : List (BitVec w)) :
    Store.readList (Store.writeList m k l) k l.length = l := by
  induction l generalizing m k with
  | nil => rfl
  | cons v vs ih =>
    simp only [List.length_cons, Store.readList, Store.writeList]
    rw [ih, Store.read_writeList_out _ _ _ _ (by omega), Store.read_write_same]

/-! ## The canonical form -/

/-- The canonical form as two conditions: keys rise, and no cell is zero. -/
theorem Store.wf_iff (m : Store w) :
    Store.wf m = true ↔ m.Pairwise (fun p q => p.1 < q.1) ∧ ∀ p ∈ m, p.2 ≠ 0 := by
  induction m with
  | nil => simp [Store.wf]
  | cons p t ih =>
    obtain ⟨a, v⟩ := p
    cases t with
    | nil => simp [Store.wf]
    | cons q u =>
      obtain ⟨b, x⟩ := q
      simp only [Store.wf, Bool.and_eq_true, bne_iff_ne, decide_eq_true_eq, ih, List.pairwise_cons, List.mem_cons,
        forall_eq_or_imp]
      constructor
      · rintro ⟨⟨hv, hab⟩, ⟨hb, hu⟩, hx, hz⟩
        exact ⟨⟨⟨hab, fun p hp => lt_trans hab (hb p hp)⟩, hb, hu⟩, hv, hx, hz⟩
      · rintro ⟨⟨⟨hab, _⟩, hb, hu⟩, hv, hx, hz⟩
        exact ⟨⟨hv, hab⟩, ⟨hb, hu⟩, hx, hz⟩

@[simp] theorem Store.wf_nil : Store.wf ([] : Store w) = true := rfl

/-- Leaving cells out keeps the form. -/
theorem Store.wf_sublist {m t : Store w} (h : t.Sublist m) (hm : Store.wf m = true) : Store.wf t = true := by
  rw [Store.wf_iff] at hm ⊢
  exact ⟨hm.1.sublist h, fun p hp => hm.2 p (h.subset hp)⟩

theorem Store.drop_sublist (m : Store w) (k : Nat) : (Store.drop m k).Sublist m := by
  induction m with
  | nil => exact List.Sublist.slnil
  | cons p t ih =>
    obtain ⟨a, v⟩ := p
    simp only [Store.drop]
    split
    · exact ih.cons _
    · exact ih.cons_cons _

theorem Store.wf_drop (m : Store w) (k : Nat) (h : Store.wf m = true) : Store.wf (Store.drop m k) = true :=
  Store.wf_sublist (Store.drop_sublist m k) h

theorem Store.mem_place {m : Store w} {k : Nat} {v : BitVec w} {p : Nat × BitVec w} :
    p ∈ Store.place k v m ↔ p = (k, v) ∨ p ∈ m := by
  induction m with
  | nil => simp [Store.place]
  | cons q t ih =>
    obtain ⟨a, u⟩ := q
    simp only [Store.place]
    split
    · simp
    · simp only [List.mem_cons, ih]
      tauto

theorem Store.wf_place (m : Store w) (k : Nat) (v : BitVec w) (hv : v ≠ 0) (hk : ∀ p ∈ m, p.1 ≠ k)
    (h : Store.wf m = true) : Store.wf (Store.place k v m) = true := by
  rw [Store.wf_iff] at h ⊢
  obtain ⟨hs, hz⟩ := h
  refine ⟨?_, fun p hp => ?_⟩
  · induction m with
    | nil => simp [Store.place]
    | cons q t ih =>
      obtain ⟨a, u⟩ := q
      rw [List.pairwise_cons] at hs
      have ha : a ≠ k := hk (a, u) (by simp)
      simp only [Store.place]
      split
      · next hlt =>
        refine List.pairwise_cons.2 ⟨fun p hp => ?_, List.pairwise_cons.2 hs⟩
        rcases List.mem_cons.1 hp with rfl | hp
        · exact hlt
        · exact lt_trans hlt (hs.1 p hp)
      · next hge =>
        refine List.pairwise_cons.2 ⟨fun p hp => ?_, ih (fun p hp => hk p (by simp [hp])) hs.2 fun p hp => hz p (by simp [hp])⟩
        rcases Store.mem_place.1 hp with rfl | hp
        · show a < k
          omega
        · exact hs.1 p hp
  · rcases Store.mem_place.1 hp with rfl | hp
    · exact hv
    · exact hz p hp

theorem Store.wf_write (m : Store w) (k : Nat) (v : BitVec w) (h : Store.wf m = true) :
    Store.wf (Store.write m k v) = true := by
  unfold Store.write
  split
  · exact Store.wf_drop m k h
  · next hv => exact Store.wf_place _ _ _ hv (fun p hp => (Store.mem_drop hp).2) (Store.wf_drop m k h)

theorem Store.wf_writeList (l : List (BitVec w)) (m : Store w) (k : Nat) (h : Store.wf m = true) :
    Store.wf (Store.writeList m k l) = true := by
  induction l generalizing m k with
  | nil => exact h
  | cons v vs ih => exact ih _ _ (Store.wf_write m k v h)

theorem Store.wf_ofList (l : List (BitVec w)) : Store.wf (Store.ofList l) = true := Store.wf_writeList l [] 0 rfl

theorem Store.wf_clear (m : Store w) (lo hi : Nat) (h : Store.wf m = true) : Store.wf (Store.clear m lo hi) = true :=
  Store.wf_sublist List.filter_sublist h

theorem Store.mem_cells {l : List (BitVec w)} {k : Nat} {p : Nat × BitVec w} (h : p ∈ Store.cells k l) :
    k ≤ p.1 ∧ p.1 < k + l.length ∧ p.2 ≠ 0 := by
  induction l generalizing k with
  | nil => simp [Store.cells] at h
  | cons v vs ih =>
    simp only [Store.cells] at h
    simp only [List.length_cons]
    split at h
    · obtain ⟨h1, h2, h3⟩ := ih h
      exact ⟨by omega, by omega, h3⟩
    · next hv =>
      rcases List.mem_cons.1 h with rfl | h
      · exact ⟨le_refl _, by simp, hv⟩
      · obtain ⟨h1, h2, h3⟩ := ih h
        exact ⟨by omega, by omega, h3⟩

theorem Store.wf_cells (l : List (BitVec w)) (k : Nat) : Store.wf (Store.cells k l) = true := by
  rw [Store.wf_iff]
  refine ⟨?_, fun p hp => (Store.mem_cells hp).2.2⟩
  induction l generalizing k with
  | nil => simp [Store.cells]
  | cons v vs ih =>
    simp only [Store.cells]
    split
    · exact ih _
    · refine List.pairwise_cons.2 ⟨fun p hp => ?_, ih _⟩
      have := (Store.mem_cells hp).1
      show k < p.1
      omega

theorem Store.wf_blit (m : Store w) (k : Nat) (l : List (BitVec w)) (h : Store.wf m = true) :
    Store.wf (Store.blit m k l) = true := by
  rw [Store.wf_iff] at h ⊢
  have hc := (Store.wf_iff _).1 (Store.wf_cells l k)
  unfold Store.blit
  simp only [List.pairwise_append, List.mem_append, List.mem_filter, decide_eq_true_eq]
  refine ⟨⟨⟨h.1.sublist List.filter_sublist, hc.1, fun p hp q hq => ?_⟩, h.1.sublist List.filter_sublist,
    fun p hp q hq => ?_⟩, fun p hp => ?_⟩
  · have := Store.mem_cells hq; omega
  · rcases hp with hp | hp
    · omega
    · have := Store.mem_cells hp; omega
  · rcases hp with (hp | hp) | hp
    · exact h.2 p hp.1
    · exact (Store.mem_cells hp).2.2
    · exact h.2 p hp.1

theorem Store.wf_slice (m : Store w) (lo hi : Nat) (h : Store.wf m = true) : Store.wf (Store.slice m lo hi) = true := by
  rw [Store.wf_iff] at h ⊢
  unfold Store.slice
  refine ⟨List.pairwise_map.2 ?_, fun p hp => ?_⟩
  · refine List.Pairwise.imp_of_mem ?_ (h.1.sublist List.filter_sublist)
    intro p q hp hq hpq
    simp only [List.mem_filter, Bool.and_eq_true, decide_eq_true_eq] at hp hq
    show p.1 - lo < q.1 - lo
    omega
  · obtain ⟨q, hq, rfl⟩ := List.mem_map.1 hp
    exact h.2 q (List.mem_filter.1 hq).1

theorem Store.wf_overlay (m : Store w) (k : Nat) (t : Store w) (h : Store.wf m = true) :
    Store.wf (Store.overlay m k t) = true := by
  unfold Store.overlay
  induction t generalizing m with
  | nil => exact h
  | cons p t ih => exact ih _ (Store.wf_write _ _ _ h)

theorem Store.wf_ofLanes (f : Nat → BitVec w) : Store.wf (Store.ofLanes f) = true := by
  rw [Store.wf_iff]
  unfold Store.ofLanes
  refine ⟨List.Pairwise.sublist List.filter_sublist (List.pairwise_map.2 ?_), fun p hp => ?_⟩
  · exact List.pairwise_lt_range
  · simpa using (List.mem_filter.1 hp).2

/-- A cell of lanes reads as the lane's value; no cell stands above lane 31. -/
theorem Store.read_ofLanes (f : Nat → BitVec w) (l : Nat) :
    Store.read (Store.ofLanes f) l = if l < 32 then f l else 0 := by
  have key : ∀ (n k : Nat), Store.read ((((List.range' k n).map fun l => (l, f l)).filter fun p => p.2 != 0)) l
      = if k ≤ l ∧ l < k + n then f l else 0 := by
    intro n
    induction n with
    | zero => intro k; simp
    | succ n ih =>
      intro k
      rw [List.range'_succ, List.map_cons]
      by_cases hz : f k = 0
      · rw [List.filter_cons_of_neg (by simp [hz]), ih]
        by_cases hl : l = k
        · subst hl; simp [hz]
        · have : (k + 1 ≤ l ∧ l < k + 1 + n) ↔ (k ≤ l ∧ l < k + (n + 1)) := by omega
          simp only [this]
      · rw [List.filter_cons_of_pos (by simpa using hz)]
        simp only [Store.read]
        split
        · next h => subst h; simp
        · next h =>
          rw [ih]
          have : (k + 1 ≤ l ∧ l < k + 1 + n) ↔ (k ≤ l ∧ l < k + (n + 1)) := by omega
          simp only [this]
  have := key 32 0
  rw [← List.range_eq_range'] at this
  unfold Store.ofLanes
  rw [this]
  simp

end Sys2Proof
end

