-- ==== Sys2Proof/Laws/State.lean ====
section
/-!
SUPPORT. Laws of the state's updates: what each field reads after each update, and the lookups after an update.
-/

namespace Sys2Proof.Machine

/-! ### setGroup -/

@[simp] theorem State.setGroup_groups (s : State) (g : Group) : (s.setGroup g).groups = s.groups.map fun h => if h.gid == g.gid then g else h := rfl
@[simp] theorem State.setGroup_teams (s : State) (g : Group) : (s.setGroup g).teams = s.teams := rfl
@[simp] theorem State.setGroup_grids (s : State) (g : Group) : (s.setGroup g).grids = s.grids := rfl
@[simp] theorem State.setGroup_graphs (s : State) (g : Group) : (s.setGroup g).graphs = s.graphs := rfl
@[simp] theorem State.setGroup_recs (s : State) (g : Group) : (s.setGroup g).recs = s.recs := rfl
@[simp] theorem State.setGroup_started (s : State) (g : Group) : (s.setGroup g).started = s.started := rfl
@[simp] theorem State.setGroup_ops (s : State) (g : Group) : (s.setGroup g).ops = s.ops := rfl
@[simp] theorem State.setGroup_msgs (s : State) (g : Group) : (s.setGroup g).msgs = s.msgs := rfl
@[simp] theorem State.setGroup_filters (s : State) (g : Group) : (s.setGroup g).filters = s.filters := rfl
@[simp] theorem State.setGroup_l1 (s : State) (g : Group) : (s.setGroup g).l1 = s.l1 := rfl
@[simp] theorem State.setGroup_dir (s : State) (g : Group) : (s.setGroup g).dir = s.dir := rfl
@[simp] theorem State.setGroup_hampers (s : State) (g : Group) : (s.setGroup g).hampers = s.hampers := rfl
@[simp] theorem State.setGroup_homes (s : State) (g : Group) : (s.setGroup g).homes = s.homes := rfl
@[simp] theorem State.setGroup_tlb (s : State) (g : Group) : (s.setGroup g).tlb = s.tlb := rfl
@[simp] theorem State.setGroup_dtlb (s : State) (g : Group) : (s.setGroup g).dtlb = s.dtlb := rfl
@[simp] theorem State.setGroup_wcache (s : State) (g : Group) : (s.setGroup g).wcache = s.wcache := rfl
@[simp] theorem State.setGroup_walks (s : State) (g : Group) : (s.setGroup g).walks = s.walks := rfl
@[simp] theorem State.setGroup_missq (s : State) (g : Group) : (s.setGroup g).missq = s.missq := rfl
@[simp] theorem State.setGroup_missDie (s : State) (g : Group) : (s.setGroup g).missDie = s.missDie := rfl
@[simp] theorem State.setGroup_regions (s : State) (g : Group) : (s.setGroup g).regions = s.regions := rfl
@[simp] theorem State.setGroup_peers (s : State) (g : Group) : (s.setGroup g).peers = s.peers := rfl
@[simp] theorem State.setGroup_mem (s : State) (g : Group) : (s.setGroup g).mem = s.mem := rfl
@[simp] theorem State.setGroup_poison (s : State) (g : Group) : (s.setGroup g).poison = s.poison := rfl
@[simp] theorem State.setGroup_tagPoison (s : State) (g : Group) : (s.setGroup g).tagPoison = s.tagPoison := rfl
@[simp] theorem State.setGroup_scache (s : State) (g : Group) : (s.setGroup g).scache = s.scache := rfl
@[simp] theorem State.setGroup_queues (s : State) (g : Group) : (s.setGroup g).queues = s.queues := rfl
@[simp] theorem State.setGroup_budget (s : State) (g : Group) : (s.setGroup g).budget = s.budget := rfl
@[simp] theorem State.setGroup_xl (s : State) (g : Group) : (s.setGroup g).xl = s.xl := rfl
@[simp] theorem State.setGroup_ctl (s : State) (g : Group) : (s.setGroup g).ctl = s.ctl := rfl
@[simp] theorem State.setGroup_ports (s : State) (g : Group) : (s.setGroup g).ports = s.ports := rfl
@[simp] theorem State.setGroup_monitors (s : State) (g : Group) : (s.setGroup g).monitors = s.monitors := rfl
@[simp] theorem State.setGroup_resets (s : State) (g : Group) : (s.setGroup g).resets = s.resets := rfl
@[simp] theorem State.setGroup_quiesces (s : State) (g : Group) : (s.setGroup g).quiesces = s.quiesces := rfl
@[simp] theorem State.setGroup_locks (s : State) (g : Group) : (s.setGroup g).locks = s.locks := rfl
@[simp] theorem State.setGroup_nextGrid (s : State) (g : Group) : (s.setGroup g).nextGrid = s.nextGrid := rfl
@[simp] theorem State.setGroup_agenda (s : State) (g : Group) : (s.setGroup g).agenda = s.agenda := rfl
@[simp] theorem State.setGroup_focus (s : State) (g : Group) : (s.setGroup g).focus = s.focus := rfl
@[simp] theorem State.setGroup_freeCount (s : State) (g : Group) : (s.setGroup g).freeCount = s.freeCount := rfl
@[simp] theorem State.setGroup_nextId (s : State) (g : Group) : (s.setGroup g).nextId = s.nextId := rfl

/-! ### setTeam -/

@[simp] theorem State.setTeam_groups (s : State) (t : Team) : (s.setTeam t).groups = s.groups := rfl
@[simp] theorem State.setTeam_teams (s : State) (t : Team) : (s.setTeam t).teams = s.teams.map fun u => if u.id == t.id then t else u := rfl
@[simp] theorem State.setTeam_grids (s : State) (t : Team) : (s.setTeam t).grids = s.grids := rfl
@[simp] theorem State.setTeam_graphs (s : State) (t : Team) : (s.setTeam t).graphs = s.graphs := rfl
@[simp] theorem State.setTeam_recs (s : State) (t : Team) : (s.setTeam t).recs = s.recs := rfl
@[simp] theorem State.setTeam_started (s : State) (t : Team) : (s.setTeam t).started = s.started := rfl
@[simp] theorem State.setTeam_ops (s : State) (t : Team) : (s.setTeam t).ops = s.ops := rfl
@[simp] theorem State.setTeam_msgs (s : State) (t : Team) : (s.setTeam t).msgs = s.msgs := rfl
@[simp] theorem State.setTeam_filters (s : State) (t : Team) : (s.setTeam t).filters = s.filters := rfl
@[simp] theorem State.setTeam_l1 (s : State) (t : Team) : (s.setTeam t).l1 = s.l1 := rfl
@[simp] theorem State.setTeam_dir (s : State) (t : Team) : (s.setTeam t).dir = s.dir := rfl
@[simp] theorem State.setTeam_hampers (s : State) (t : Team) : (s.setTeam t).hampers = s.hampers := rfl
@[simp] theorem State.setTeam_homes (s : State) (t : Team) : (s.setTeam t).homes = s.homes := rfl
@[simp] theorem State.setTeam_tlb (s : State) (t : Team) : (s.setTeam t).tlb = s.tlb := rfl
@[simp] theorem State.setTeam_dtlb (s : State) (t : Team) : (s.setTeam t).dtlb = s.dtlb := rfl
@[simp] theorem State.setTeam_wcache (s : State) (t : Team) : (s.setTeam t).wcache = s.wcache := rfl
@[simp] theorem State.setTeam_walks (s : State) (t : Team) : (s.setTeam t).walks = s.walks := rfl
@[simp] theorem State.setTeam_missq (s : State) (t : Team) : (s.setTeam t).missq = s.missq := rfl
@[simp] theorem State.setTeam_missDie (s : State) (t : Team) : (s.setTeam t).missDie = s.missDie := rfl
@[simp] theorem State.setTeam_regions (s : State) (t : Team) : (s.setTeam t).regions = s.regions := rfl
@[simp] theorem State.setTeam_peers (s : State) (t : Team) : (s.setTeam t).peers = s.peers := rfl
@[simp] theorem State.setTeam_mem (s : State) (t : Team) : (s.setTeam t).mem = s.mem := rfl
@[simp] theorem State.setTeam_poison (s : State) (t : Team) : (s.setTeam t).poison = s.poison := rfl
@[simp] theorem State.setTeam_tagPoison (s : State) (t : Team) : (s.setTeam t).tagPoison = s.tagPoison := rfl
@[simp] theorem State.setTeam_scache (s : State) (t : Team) : (s.setTeam t).scache = s.scache := rfl
@[simp] theorem State.setTeam_queues (s : State) (t : Team) : (s.setTeam t).queues = s.queues := rfl
@[simp] theorem State.setTeam_budget (s : State) (t : Team) : (s.setTeam t).budget = s.budget := rfl
@[simp] theorem State.setTeam_xl (s : State) (t : Team) : (s.setTeam t).xl = s.xl := rfl
@[simp] theorem State.setTeam_ctl (s : State) (t : Team) : (s.setTeam t).ctl = s.ctl := rfl
@[simp] theorem State.setTeam_ports (s : State) (t : Team) : (s.setTeam t).ports = s.ports := rfl
@[simp] theorem State.setTeam_monitors (s : State) (t : Team) : (s.setTeam t).monitors = s.monitors := rfl
@[simp] theorem State.setTeam_resets (s : State) (t : Team) : (s.setTeam t).resets = s.resets := rfl
@[simp] theorem State.setTeam_quiesces (s : State) (t : Team) : (s.setTeam t).quiesces = s.quiesces := rfl
@[simp] theorem State.setTeam_locks (s : State) (t : Team) : (s.setTeam t).locks = s.locks := rfl
@[simp] theorem State.setTeam_nextGrid (s : State) (t : Team) : (s.setTeam t).nextGrid = s.nextGrid := rfl
@[simp] theorem State.setTeam_agenda (s : State) (t : Team) : (s.setTeam t).agenda = s.agenda := rfl
@[simp] theorem State.setTeam_focus (s : State) (t : Team) : (s.setTeam t).focus = s.focus := rfl
@[simp] theorem State.setTeam_freeCount (s : State) (t : Team) : (s.setTeam t).freeCount = s.freeCount := rfl
@[simp] theorem State.setTeam_nextId (s : State) (t : Team) : (s.setTeam t).nextId = s.nextId := rfl

/-! ### setGrid -/

@[simp] theorem State.setGrid_groups (s : State) (g : Grid) : (s.setGrid g).groups = s.groups := rfl
@[simp] theorem State.setGrid_teams (s : State) (g : Grid) : (s.setGrid g).teams = s.teams := rfl
@[simp] theorem State.setGrid_grids (s : State) (g : Grid) : (s.setGrid g).grids = s.grids.map fun h => if h.id == g.id then g else h := rfl
@[simp] theorem State.setGrid_graphs (s : State) (g : Grid) : (s.setGrid g).graphs = s.graphs := rfl
@[simp] theorem State.setGrid_recs (s : State) (g : Grid) : (s.setGrid g).recs = s.recs := rfl
@[simp] theorem State.setGrid_started (s : State) (g : Grid) : (s.setGrid g).started = s.started := rfl
@[simp] theorem State.setGrid_ops (s : State) (g : Grid) : (s.setGrid g).ops = s.ops := rfl
@[simp] theorem State.setGrid_msgs (s : State) (g : Grid) : (s.setGrid g).msgs = s.msgs := rfl
@[simp] theorem State.setGrid_filters (s : State) (g : Grid) : (s.setGrid g).filters = s.filters := rfl
@[simp] theorem State.setGrid_l1 (s : State) (g : Grid) : (s.setGrid g).l1 = s.l1 := rfl
@[simp] theorem State.setGrid_dir (s : State) (g : Grid) : (s.setGrid g).dir = s.dir := rfl
@[simp] theorem State.setGrid_hampers (s : State) (g : Grid) : (s.setGrid g).hampers = s.hampers := rfl
@[simp] theorem State.setGrid_homes (s : State) (g : Grid) : (s.setGrid g).homes = s.homes := rfl
@[simp] theorem State.setGrid_tlb (s : State) (g : Grid) : (s.setGrid g).tlb = s.tlb := rfl
@[simp] theorem State.setGrid_dtlb (s : State) (g : Grid) : (s.setGrid g).dtlb = s.dtlb := rfl
@[simp] theorem State.setGrid_wcache (s : State) (g : Grid) : (s.setGrid g).wcache = s.wcache := rfl
@[simp] theorem State.setGrid_walks (s : State) (g : Grid) : (s.setGrid g).walks = s.walks := rfl
@[simp] theorem State.setGrid_missq (s : State) (g : Grid) : (s.setGrid g).missq = s.missq := rfl
@[simp] theorem State.setGrid_missDie (s : State) (g : Grid) : (s.setGrid g).missDie = s.missDie := rfl
@[simp] theorem State.setGrid_regions (s : State) (g : Grid) : (s.setGrid g).regions = s.regions := rfl
@[simp] theorem State.setGrid_peers (s : State) (g : Grid) : (s.setGrid g).peers = s.peers := rfl
@[simp] theorem State.setGrid_mem (s : State) (g : Grid) : (s.setGrid g).mem = s.mem := rfl
@[simp] theorem State.setGrid_poison (s : State) (g : Grid) : (s.setGrid g).poison = s.poison := rfl
@[simp] theorem State.setGrid_tagPoison (s : State) (g : Grid) : (s.setGrid g).tagPoison = s.tagPoison := rfl
@[simp] theorem State.setGrid_scache (s : State) (g : Grid) : (s.setGrid g).scache = s.scache := rfl
@[simp] theorem State.setGrid_queues (s : State) (g : Grid) : (s.setGrid g).queues = s.queues := rfl
@[simp] theorem State.setGrid_budget (s : State) (g : Grid) : (s.setGrid g).budget = s.budget := rfl
@[simp] theorem State.setGrid_xl (s : State) (g : Grid) : (s.setGrid g).xl = s.xl := rfl
@[simp] theorem State.setGrid_ctl (s : State) (g : Grid) : (s.setGrid g).ctl = s.ctl := rfl
@[simp] theorem State.setGrid_ports (s : State) (g : Grid) : (s.setGrid g).ports = s.ports := rfl
@[simp] theorem State.setGrid_monitors (s : State) (g : Grid) : (s.setGrid g).monitors = s.monitors := rfl
@[simp] theorem State.setGrid_resets (s : State) (g : Grid) : (s.setGrid g).resets = s.resets := rfl
@[simp] theorem State.setGrid_quiesces (s : State) (g : Grid) : (s.setGrid g).quiesces = s.quiesces := rfl
@[simp] theorem State.setGrid_locks (s : State) (g : Grid) : (s.setGrid g).locks = s.locks := rfl
@[simp] theorem State.setGrid_nextGrid (s : State) (g : Grid) : (s.setGrid g).nextGrid = s.nextGrid := rfl
@[simp] theorem State.setGrid_agenda (s : State) (g : Grid) : (s.setGrid g).agenda = s.agenda := rfl
@[simp] theorem State.setGrid_focus (s : State) (g : Grid) : (s.setGrid g).focus = s.focus := rfl
@[simp] theorem State.setGrid_freeCount (s : State) (g : Grid) : (s.setGrid g).freeCount = s.freeCount := rfl
@[simp] theorem State.setGrid_nextId (s : State) (g : Grid) : (s.setGrid g).nextId = s.nextId := rfl

/-! ### setGraph -/

@[simp] theorem State.setGraph_groups (s : State) (g : Graph) : (s.setGraph g).groups = s.groups := rfl
@[simp] theorem State.setGraph_teams (s : State) (g : Graph) : (s.setGraph g).teams = s.teams := rfl
@[simp] theorem State.setGraph_grids (s : State) (g : Graph) : (s.setGraph g).grids = s.grids := rfl
@[simp] theorem State.setGraph_graphs (s : State) (g : Graph) : (s.setGraph g).graphs = s.graphs.map fun h => if h.id == g.id then g else h := rfl
@[simp] theorem State.setGraph_recs (s : State) (g : Graph) : (s.setGraph g).recs = s.recs := rfl
@[simp] theorem State.setGraph_started (s : State) (g : Graph) : (s.setGraph g).started = s.started := rfl
@[simp] theorem State.setGraph_ops (s : State) (g : Graph) : (s.setGraph g).ops = s.ops := rfl
@[simp] theorem State.setGraph_msgs (s : State) (g : Graph) : (s.setGraph g).msgs = s.msgs := rfl
@[simp] theorem State.setGraph_filters (s : State) (g : Graph) : (s.setGraph g).filters = s.filters := rfl
@[simp] theorem State.setGraph_l1 (s : State) (g : Graph) : (s.setGraph g).l1 = s.l1 := rfl
@[simp] theorem State.setGraph_dir (s : State) (g : Graph) : (s.setGraph g).dir = s.dir := rfl
@[simp] theorem State.setGraph_hampers (s : State) (g : Graph) : (s.setGraph g).hampers = s.hampers := rfl
@[simp] theorem State.setGraph_homes (s : State) (g : Graph) : (s.setGraph g).homes = s.homes := rfl
@[simp] theorem State.setGraph_tlb (s : State) (g : Graph) : (s.setGraph g).tlb = s.tlb := rfl
@[simp] theorem State.setGraph_dtlb (s : State) (g : Graph) : (s.setGraph g).dtlb = s.dtlb := rfl
@[simp] theorem State.setGraph_wcache (s : State) (g : Graph) : (s.setGraph g).wcache = s.wcache := rfl
@[simp] theorem State.setGraph_walks (s : State) (g : Graph) : (s.setGraph g).walks = s.walks := rfl
@[simp] theorem State.setGraph_missq (s : State) (g : Graph) : (s.setGraph g).missq = s.missq := rfl
@[simp] theorem State.setGraph_missDie (s : State) (g : Graph) : (s.setGraph g).missDie = s.missDie := rfl
@[simp] theorem State.setGraph_regions (s : State) (g : Graph) : (s.setGraph g).regions = s.regions := rfl
@[simp] theorem State.setGraph_peers (s : State) (g : Graph) : (s.setGraph g).peers = s.peers := rfl
@[simp] theorem State.setGraph_mem (s : State) (g : Graph) : (s.setGraph g).mem = s.mem := rfl
@[simp] theorem State.setGraph_poison (s : State) (g : Graph) : (s.setGraph g).poison = s.poison := rfl
@[simp] theorem State.setGraph_tagPoison (s : State) (g : Graph) : (s.setGraph g).tagPoison = s.tagPoison := rfl
@[simp] theorem State.setGraph_scache (s : State) (g : Graph) : (s.setGraph g).scache = s.scache := rfl
@[simp] theorem State.setGraph_queues (s : State) (g : Graph) : (s.setGraph g).queues = s.queues := rfl
@[simp] theorem State.setGraph_budget (s : State) (g : Graph) : (s.setGraph g).budget = s.budget := rfl
@[simp] theorem State.setGraph_xl (s : State) (g : Graph) : (s.setGraph g).xl = s.xl := rfl
@[simp] theorem State.setGraph_ctl (s : State) (g : Graph) : (s.setGraph g).ctl = s.ctl := rfl
@[simp] theorem State.setGraph_ports (s : State) (g : Graph) : (s.setGraph g).ports = s.ports := rfl
@[simp] theorem State.setGraph_monitors (s : State) (g : Graph) : (s.setGraph g).monitors = s.monitors := rfl
@[simp] theorem State.setGraph_resets (s : State) (g : Graph) : (s.setGraph g).resets = s.resets := rfl
@[simp] theorem State.setGraph_quiesces (s : State) (g : Graph) : (s.setGraph g).quiesces = s.quiesces := rfl
@[simp] theorem State.setGraph_locks (s : State) (g : Graph) : (s.setGraph g).locks = s.locks := rfl
@[simp] theorem State.setGraph_nextGrid (s : State) (g : Graph) : (s.setGraph g).nextGrid = s.nextGrid := rfl
@[simp] theorem State.setGraph_agenda (s : State) (g : Graph) : (s.setGraph g).agenda = s.agenda := rfl
@[simp] theorem State.setGraph_focus (s : State) (g : Graph) : (s.setGraph g).focus = s.focus := rfl
@[simp] theorem State.setGraph_freeCount (s : State) (g : Graph) : (s.setGraph g).freeCount = s.freeCount := rfl
@[simp] theorem State.setGraph_nextId (s : State) (g : Graph) : (s.setGraph g).nextId = s.nextId := rfl

/-! ### setOp -/

@[simp] theorem State.setOp_groups (s : State) (o : Op) : (s.setOp o).groups = s.groups := rfl
@[simp] theorem State.setOp_teams (s : State) (o : Op) : (s.setOp o).teams = s.teams := rfl
@[simp] theorem State.setOp_grids (s : State) (o : Op) : (s.setOp o).grids = s.grids := rfl
@[simp] theorem State.setOp_graphs (s : State) (o : Op) : (s.setOp o).graphs = s.graphs := rfl
@[simp] theorem State.setOp_recs (s : State) (o : Op) : (s.setOp o).recs = s.recs := rfl
@[simp] theorem State.setOp_started (s : State) (o : Op) : (s.setOp o).started = s.started := rfl
@[simp] theorem State.setOp_ops (s : State) (o : Op) : (s.setOp o).ops = s.ops.map fun p => if p.id == o.id then o else p := rfl
@[simp] theorem State.setOp_msgs (s : State) (o : Op) : (s.setOp o).msgs = s.msgs := rfl
@[simp] theorem State.setOp_filters (s : State) (o : Op) : (s.setOp o).filters = s.filters := rfl
@[simp] theorem State.setOp_l1 (s : State) (o : Op) : (s.setOp o).l1 = s.l1 := rfl
@[simp] theorem State.setOp_dir (s : State) (o : Op) : (s.setOp o).dir = s.dir := rfl
@[simp] theorem State.setOp_hampers (s : State) (o : Op) : (s.setOp o).hampers = s.hampers := rfl
@[simp] theorem State.setOp_homes (s : State) (o : Op) : (s.setOp o).homes = s.homes := rfl
@[simp] theorem State.setOp_tlb (s : State) (o : Op) : (s.setOp o).tlb = s.tlb := rfl
@[simp] theorem State.setOp_dtlb (s : State) (o : Op) : (s.setOp o).dtlb = s.dtlb := rfl
@[simp] theorem State.setOp_wcache (s : State) (o : Op) : (s.setOp o).wcache = s.wcache := rfl
@[simp] theorem State.setOp_walks (s : State) (o : Op) : (s.setOp o).walks = s.walks := rfl
@[simp] theorem State.setOp_missq (s : State) (o : Op) : (s.setOp o).missq = s.missq := rfl
@[simp] theorem State.setOp_missDie (s : State) (o : Op) : (s.setOp o).missDie = s.missDie := rfl
@[simp] theorem State.setOp_regions (s : State) (o : Op) : (s.setOp o).regions = s.regions := rfl
@[simp] theorem State.setOp_peers (s : State) (o : Op) : (s.setOp o).peers = s.peers := rfl
@[simp] theorem State.setOp_mem (s : State) (o : Op) : (s.setOp o).mem = s.mem := rfl
@[simp] theorem State.setOp_poison (s : State) (o : Op) : (s.setOp o).poison = s.poison := rfl
@[simp] theorem State.setOp_tagPoison (s : State) (o : Op) : (s.setOp o).tagPoison = s.tagPoison := rfl
@[simp] theorem State.setOp_scache (s : State) (o : Op) : (s.setOp o).scache = s.scache := rfl
@[simp] theorem State.setOp_queues (s : State) (o : Op) : (s.setOp o).queues = s.queues := rfl
@[simp] theorem State.setOp_budget (s : State) (o : Op) : (s.setOp o).budget = s.budget := rfl
@[simp] theorem State.setOp_xl (s : State) (o : Op) : (s.setOp o).xl = s.xl := rfl
@[simp] theorem State.setOp_ctl (s : State) (o : Op) : (s.setOp o).ctl = s.ctl := rfl
@[simp] theorem State.setOp_ports (s : State) (o : Op) : (s.setOp o).ports = s.ports := rfl
@[simp] theorem State.setOp_monitors (s : State) (o : Op) : (s.setOp o).monitors = s.monitors := rfl
@[simp] theorem State.setOp_resets (s : State) (o : Op) : (s.setOp o).resets = s.resets := rfl
@[simp] theorem State.setOp_quiesces (s : State) (o : Op) : (s.setOp o).quiesces = s.quiesces := rfl
@[simp] theorem State.setOp_locks (s : State) (o : Op) : (s.setOp o).locks = s.locks := rfl
@[simp] theorem State.setOp_nextGrid (s : State) (o : Op) : (s.setOp o).nextGrid = s.nextGrid := rfl
@[simp] theorem State.setOp_agenda (s : State) (o : Op) : (s.setOp o).agenda = s.agenda := rfl
@[simp] theorem State.setOp_focus (s : State) (o : Op) : (s.setOp o).focus = s.focus := rfl
@[simp] theorem State.setOp_freeCount (s : State) (o : Op) : (s.setOp o).freeCount = s.freeCount := rfl
@[simp] theorem State.setOp_nextId (s : State) (o : Op) : (s.setOp o).nextId = s.nextId := rfl

/-! ### dropOp -/

@[simp] theorem State.dropOp_groups (s : State) (id : Nat) : (s.dropOp id).groups = s.groups := rfl
@[simp] theorem State.dropOp_teams (s : State) (id : Nat) : (s.dropOp id).teams = s.teams := rfl
@[simp] theorem State.dropOp_grids (s : State) (id : Nat) : (s.dropOp id).grids = s.grids := rfl
@[simp] theorem State.dropOp_graphs (s : State) (id : Nat) : (s.dropOp id).graphs = s.graphs := rfl
@[simp] theorem State.dropOp_recs (s : State) (id : Nat) : (s.dropOp id).recs = s.recs := rfl
@[simp] theorem State.dropOp_started (s : State) (id : Nat) : (s.dropOp id).started = s.started := rfl
@[simp] theorem State.dropOp_ops (s : State) (id : Nat) : (s.dropOp id).ops = s.ops.filter fun o => o.id != id := rfl
@[simp] theorem State.dropOp_msgs (s : State) (id : Nat) : (s.dropOp id).msgs = s.msgs := rfl
@[simp] theorem State.dropOp_filters (s : State) (id : Nat) : (s.dropOp id).filters = s.filters := rfl
@[simp] theorem State.dropOp_l1 (s : State) (id : Nat) : (s.dropOp id).l1 = s.l1 := rfl
@[simp] theorem State.dropOp_dir (s : State) (id : Nat) : (s.dropOp id).dir = s.dir := rfl
@[simp] theorem State.dropOp_hampers (s : State) (id : Nat) : (s.dropOp id).hampers = s.hampers := rfl
@[simp] theorem State.dropOp_homes (s : State) (id : Nat) : (s.dropOp id).homes = s.homes := rfl
@[simp] theorem State.dropOp_tlb (s : State) (id : Nat) : (s.dropOp id).tlb = s.tlb := rfl
@[simp] theorem State.dropOp_dtlb (s : State) (id : Nat) : (s.dropOp id).dtlb = s.dtlb := rfl
@[simp] theorem State.dropOp_wcache (s : State) (id : Nat) : (s.dropOp id).wcache = s.wcache := rfl
@[simp] theorem State.dropOp_walks (s : State) (id : Nat) : (s.dropOp id).walks = s.walks := rfl
@[simp] theorem State.dropOp_missq (s : State) (id : Nat) : (s.dropOp id).missq = s.missq := rfl
@[simp] theorem State.dropOp_missDie (s : State) (id : Nat) : (s.dropOp id).missDie = s.missDie := rfl
@[simp] theorem State.dropOp_regions (s : State) (id : Nat) : (s.dropOp id).regions = s.regions := rfl
@[simp] theorem State.dropOp_peers (s : State) (id : Nat) : (s.dropOp id).peers = s.peers := rfl
@[simp] theorem State.dropOp_mem (s : State) (id : Nat) : (s.dropOp id).mem = s.mem := rfl
@[simp] theorem State.dropOp_poison (s : State) (id : Nat) : (s.dropOp id).poison = s.poison := rfl
@[simp] theorem State.dropOp_tagPoison (s : State) (id : Nat) : (s.dropOp id).tagPoison = s.tagPoison := rfl
@[simp] theorem State.dropOp_scache (s : State) (id : Nat) : (s.dropOp id).scache = s.scache := rfl
@[simp] theorem State.dropOp_queues (s : State) (id : Nat) : (s.dropOp id).queues = s.queues := rfl
@[simp] theorem State.dropOp_budget (s : State) (id : Nat) : (s.dropOp id).budget = s.budget := rfl
@[simp] theorem State.dropOp_xl (s : State) (id : Nat) : (s.dropOp id).xl = s.xl := rfl
@[simp] theorem State.dropOp_ctl (s : State) (id : Nat) : (s.dropOp id).ctl = s.ctl := rfl
@[simp] theorem State.dropOp_ports (s : State) (id : Nat) : (s.dropOp id).ports = s.ports := rfl
@[simp] theorem State.dropOp_monitors (s : State) (id : Nat) : (s.dropOp id).monitors = s.monitors := rfl
@[simp] theorem State.dropOp_resets (s : State) (id : Nat) : (s.dropOp id).resets = s.resets := rfl
@[simp] theorem State.dropOp_quiesces (s : State) (id : Nat) : (s.dropOp id).quiesces = s.quiesces := rfl
@[simp] theorem State.dropOp_locks (s : State) (id : Nat) : (s.dropOp id).locks = s.locks := rfl
@[simp] theorem State.dropOp_nextGrid (s : State) (id : Nat) : (s.dropOp id).nextGrid = s.nextGrid := rfl
@[simp] theorem State.dropOp_agenda (s : State) (id : Nat) : (s.dropOp id).agenda = s.agenda := rfl
@[simp] theorem State.dropOp_focus (s : State) (id : Nat) : (s.dropOp id).focus = s.focus := rfl
@[simp] theorem State.dropOp_freeCount (s : State) (id : Nat) : (s.dropOp id).freeCount = s.freeCount := rfl
@[simp] theorem State.dropOp_nextId (s : State) (id : Nat) : (s.dropOp id).nextId = s.nextId := rfl

/-! ### dropMsg -/

@[simp] theorem State.dropMsg_groups (s : State) (id : Nat) : (s.dropMsg id).groups = s.groups := rfl
@[simp] theorem State.dropMsg_teams (s : State) (id : Nat) : (s.dropMsg id).teams = s.teams := rfl
@[simp] theorem State.dropMsg_grids (s : State) (id : Nat) : (s.dropMsg id).grids = s.grids := rfl
@[simp] theorem State.dropMsg_graphs (s : State) (id : Nat) : (s.dropMsg id).graphs = s.graphs := rfl
@[simp] theorem State.dropMsg_recs (s : State) (id : Nat) : (s.dropMsg id).recs = s.recs := rfl
@[simp] theorem State.dropMsg_started (s : State) (id : Nat) : (s.dropMsg id).started = s.started := rfl
@[simp] theorem State.dropMsg_ops (s : State) (id : Nat) : (s.dropMsg id).ops = s.ops := rfl
@[simp] theorem State.dropMsg_msgs (s : State) (id : Nat) : (s.dropMsg id).msgs = s.msgs.filter fun m => m.id != id := rfl
@[simp] theorem State.dropMsg_filters (s : State) (id : Nat) : (s.dropMsg id).filters = s.filters := rfl
@[simp] theorem State.dropMsg_l1 (s : State) (id : Nat) : (s.dropMsg id).l1 = s.l1 := rfl
@[simp] theorem State.dropMsg_dir (s : State) (id : Nat) : (s.dropMsg id).dir = s.dir := rfl
@[simp] theorem State.dropMsg_hampers (s : State) (id : Nat) : (s.dropMsg id).hampers = s.hampers := rfl
@[simp] theorem State.dropMsg_homes (s : State) (id : Nat) : (s.dropMsg id).homes = s.homes := rfl
@[simp] theorem State.dropMsg_tlb (s : State) (id : Nat) : (s.dropMsg id).tlb = s.tlb := rfl
@[simp] theorem State.dropMsg_dtlb (s : State) (id : Nat) : (s.dropMsg id).dtlb = s.dtlb := rfl
@[simp] theorem State.dropMsg_wcache (s : State) (id : Nat) : (s.dropMsg id).wcache = s.wcache := rfl
@[simp] theorem State.dropMsg_walks (s : State) (id : Nat) : (s.dropMsg id).walks = s.walks := rfl
@[simp] theorem State.dropMsg_missq (s : State) (id : Nat) : (s.dropMsg id).missq = s.missq := rfl
@[simp] theorem State.dropMsg_missDie (s : State) (id : Nat) : (s.dropMsg id).missDie = s.missDie := rfl
@[simp] theorem State.dropMsg_regions (s : State) (id : Nat) : (s.dropMsg id).regions = s.regions := rfl
@[simp] theorem State.dropMsg_peers (s : State) (id : Nat) : (s.dropMsg id).peers = s.peers := rfl
@[simp] theorem State.dropMsg_mem (s : State) (id : Nat) : (s.dropMsg id).mem = s.mem := rfl
@[simp] theorem State.dropMsg_poison (s : State) (id : Nat) : (s.dropMsg id).poison = s.poison := rfl
@[simp] theorem State.dropMsg_tagPoison (s : State) (id : Nat) : (s.dropMsg id).tagPoison = s.tagPoison := rfl
@[simp] theorem State.dropMsg_scache (s : State) (id : Nat) : (s.dropMsg id).scache = s.scache := rfl
@[simp] theorem State.dropMsg_queues (s : State) (id : Nat) : (s.dropMsg id).queues = s.queues := rfl
@[simp] theorem State.dropMsg_budget (s : State) (id : Nat) : (s.dropMsg id).budget = s.budget := rfl
@[simp] theorem State.dropMsg_xl (s : State) (id : Nat) : (s.dropMsg id).xl = s.xl := rfl
@[simp] theorem State.dropMsg_ctl (s : State) (id : Nat) : (s.dropMsg id).ctl = s.ctl := rfl
@[simp] theorem State.dropMsg_ports (s : State) (id : Nat) : (s.dropMsg id).ports = s.ports := rfl
@[simp] theorem State.dropMsg_monitors (s : State) (id : Nat) : (s.dropMsg id).monitors = s.monitors := rfl
@[simp] theorem State.dropMsg_resets (s : State) (id : Nat) : (s.dropMsg id).resets = s.resets := rfl
@[simp] theorem State.dropMsg_quiesces (s : State) (id : Nat) : (s.dropMsg id).quiesces = s.quiesces := rfl
@[simp] theorem State.dropMsg_locks (s : State) (id : Nat) : (s.dropMsg id).locks = s.locks := rfl
@[simp] theorem State.dropMsg_nextGrid (s : State) (id : Nat) : (s.dropMsg id).nextGrid = s.nextGrid := rfl
@[simp] theorem State.dropMsg_agenda (s : State) (id : Nat) : (s.dropMsg id).agenda = s.agenda := rfl
@[simp] theorem State.dropMsg_focus (s : State) (id : Nat) : (s.dropMsg id).focus = s.focus := rfl
@[simp] theorem State.dropMsg_freeCount (s : State) (id : Nat) : (s.dropMsg id).freeCount = s.freeCount := rfl
@[simp] theorem State.dropMsg_nextId (s : State) (id : Nat) : (s.dropMsg id).nextId = s.nextId := rfl

/-! ### setRec -/

@[simp] theorem State.setRec_groups (s : State) (r : Rec) : (s.setRec r).groups = s.groups := rfl
@[simp] theorem State.setRec_teams (s : State) (r : Rec) : (s.setRec r).teams = s.teams := rfl
@[simp] theorem State.setRec_grids (s : State) (r : Rec) : (s.setRec r).grids = s.grids := rfl
@[simp] theorem State.setRec_graphs (s : State) (r : Rec) : (s.setRec r).graphs = s.graphs := rfl
@[simp] theorem State.setRec_recs (s : State) (r : Rec) : (s.setRec r).recs = s.recs.map fun q => if q.id == r.id then r else q := rfl
@[simp] theorem State.setRec_started (s : State) (r : Rec) : (s.setRec r).started = s.started := rfl
@[simp] theorem State.setRec_ops (s : State) (r : Rec) : (s.setRec r).ops = s.ops := rfl
@[simp] theorem State.setRec_msgs (s : State) (r : Rec) : (s.setRec r).msgs = s.msgs := rfl
@[simp] theorem State.setRec_filters (s : State) (r : Rec) : (s.setRec r).filters = s.filters := rfl
@[simp] theorem State.setRec_l1 (s : State) (r : Rec) : (s.setRec r).l1 = s.l1 := rfl
@[simp] theorem State.setRec_dir (s : State) (r : Rec) : (s.setRec r).dir = s.dir := rfl
@[simp] theorem State.setRec_hampers (s : State) (r : Rec) : (s.setRec r).hampers = s.hampers := rfl
@[simp] theorem State.setRec_homes (s : State) (r : Rec) : (s.setRec r).homes = s.homes := rfl
@[simp] theorem State.setRec_tlb (s : State) (r : Rec) : (s.setRec r).tlb = s.tlb := rfl
@[simp] theorem State.setRec_dtlb (s : State) (r : Rec) : (s.setRec r).dtlb = s.dtlb := rfl
@[simp] theorem State.setRec_wcache (s : State) (r : Rec) : (s.setRec r).wcache = s.wcache := rfl
@[simp] theorem State.setRec_walks (s : State) (r : Rec) : (s.setRec r).walks = s.walks := rfl
@[simp] theorem State.setRec_missq (s : State) (r : Rec) : (s.setRec r).missq = s.missq := rfl
@[simp] theorem State.setRec_missDie (s : State) (r : Rec) : (s.setRec r).missDie = s.missDie := rfl
@[simp] theorem State.setRec_regions (s : State) (r : Rec) : (s.setRec r).regions = s.regions := rfl
@[simp] theorem State.setRec_peers (s : State) (r : Rec) : (s.setRec r).peers = s.peers := rfl
@[simp] theorem State.setRec_mem (s : State) (r : Rec) : (s.setRec r).mem = s.mem := rfl
@[simp] theorem State.setRec_poison (s : State) (r : Rec) : (s.setRec r).poison = s.poison := rfl
@[simp] theorem State.setRec_tagPoison (s : State) (r : Rec) : (s.setRec r).tagPoison = s.tagPoison := rfl
@[simp] theorem State.setRec_scache (s : State) (r : Rec) : (s.setRec r).scache = s.scache := rfl
@[simp] theorem State.setRec_queues (s : State) (r : Rec) : (s.setRec r).queues = s.queues := rfl
@[simp] theorem State.setRec_budget (s : State) (r : Rec) : (s.setRec r).budget = s.budget := rfl
@[simp] theorem State.setRec_xl (s : State) (r : Rec) : (s.setRec r).xl = s.xl := rfl
@[simp] theorem State.setRec_ctl (s : State) (r : Rec) : (s.setRec r).ctl = s.ctl := rfl
@[simp] theorem State.setRec_ports (s : State) (r : Rec) : (s.setRec r).ports = s.ports := rfl
@[simp] theorem State.setRec_monitors (s : State) (r : Rec) : (s.setRec r).monitors = s.monitors := rfl
@[simp] theorem State.setRec_resets (s : State) (r : Rec) : (s.setRec r).resets = s.resets := rfl
@[simp] theorem State.setRec_quiesces (s : State) (r : Rec) : (s.setRec r).quiesces = s.quiesces := rfl
@[simp] theorem State.setRec_locks (s : State) (r : Rec) : (s.setRec r).locks = s.locks := rfl
@[simp] theorem State.setRec_nextGrid (s : State) (r : Rec) : (s.setRec r).nextGrid = s.nextGrid := rfl
@[simp] theorem State.setRec_agenda (s : State) (r : Rec) : (s.setRec r).agenda = s.agenda := rfl
@[simp] theorem State.setRec_focus (s : State) (r : Rec) : (s.setRec r).focus = s.focus := rfl
@[simp] theorem State.setRec_freeCount (s : State) (r : Rec) : (s.setRec r).freeCount = s.freeCount := rfl
@[simp] theorem State.setRec_nextId (s : State) (r : Rec) : (s.setRec r).nextId = s.nextId := rfl

/-! ### setQueue -/

@[simp] theorem State.setQueue_groups (s : State) (q : Nat) (h : HQueue) : (s.setQueue q h).groups = s.groups := rfl
@[simp] theorem State.setQueue_teams (s : State) (q : Nat) (h : HQueue) : (s.setQueue q h).teams = s.teams := rfl
@[simp] theorem State.setQueue_grids (s : State) (q : Nat) (h : HQueue) : (s.setQueue q h).grids = s.grids := rfl
@[simp] theorem State.setQueue_graphs (s : State) (q : Nat) (h : HQueue) : (s.setQueue q h).graphs = s.graphs := rfl
@[simp] theorem State.setQueue_recs (s : State) (q : Nat) (h : HQueue) : (s.setQueue q h).recs = s.recs := rfl
@[simp] theorem State.setQueue_started (s : State) (q : Nat) (h : HQueue) : (s.setQueue q h).started = s.started := rfl
@[simp] theorem State.setQueue_ops (s : State) (q : Nat) (h : HQueue) : (s.setQueue q h).ops = s.ops := rfl
@[simp] theorem State.setQueue_msgs (s : State) (q : Nat) (h : HQueue) : (s.setQueue q h).msgs = s.msgs := rfl
@[simp] theorem State.setQueue_filters (s : State) (q : Nat) (h : HQueue) : (s.setQueue q h).filters = s.filters := rfl
@[simp] theorem State.setQueue_l1 (s : State) (q : Nat) (h : HQueue) : (s.setQueue q h).l1 = s.l1 := rfl
@[simp] theorem State.setQueue_dir (s : State) (q : Nat) (h : HQueue) : (s.setQueue q h).dir = s.dir := rfl
@[simp] theorem State.setQueue_hampers (s : State) (q : Nat) (h : HQueue) : (s.setQueue q h).hampers = s.hampers := rfl
@[simp] theorem State.setQueue_homes (s : State) (q : Nat) (h : HQueue) : (s.setQueue q h).homes = s.homes := rfl
@[simp] theorem State.setQueue_tlb (s : State) (q : Nat) (h : HQueue) : (s.setQueue q h).tlb = s.tlb := rfl
@[simp] theorem State.setQueue_dtlb (s : State) (q : Nat) (h : HQueue) : (s.setQueue q h).dtlb = s.dtlb := rfl
@[simp] theorem State.setQueue_wcache (s : State) (q : Nat) (h : HQueue) : (s.setQueue q h).wcache = s.wcache := rfl
@[simp] theorem State.setQueue_walks (s : State) (q : Nat) (h : HQueue) : (s.setQueue q h).walks = s.walks := rfl
@[simp] theorem State.setQueue_missq (s : State) (q : Nat) (h : HQueue) : (s.setQueue q h).missq = s.missq := rfl
@[simp] theorem State.setQueue_missDie (s : State) (q : Nat) (h : HQueue) : (s.setQueue q h).missDie = s.missDie := rfl
@[simp] theorem State.setQueue_regions (s : State) (q : Nat) (h : HQueue) : (s.setQueue q h).regions = s.regions := rfl
@[simp] theorem State.setQueue_peers (s : State) (q : Nat) (h : HQueue) : (s.setQueue q h).peers = s.peers := rfl
@[simp] theorem State.setQueue_mem (s : State) (q : Nat) (h : HQueue) : (s.setQueue q h).mem = s.mem := rfl
@[simp] theorem State.setQueue_poison (s : State) (q : Nat) (h : HQueue) : (s.setQueue q h).poison = s.poison := rfl
@[simp] theorem State.setQueue_tagPoison (s : State) (q : Nat) (h : HQueue) : (s.setQueue q h).tagPoison = s.tagPoison := rfl
@[simp] theorem State.setQueue_scache (s : State) (q : Nat) (h : HQueue) : (s.setQueue q h).scache = s.scache := rfl
@[simp] theorem State.setQueue_queues (s : State) (q : Nat) (h : HQueue) : (s.setQueue q h).queues = s.queues.set q h := rfl
@[simp] theorem State.setQueue_budget (s : State) (q : Nat) (h : HQueue) : (s.setQueue q h).budget = s.budget := rfl
@[simp] theorem State.setQueue_xl (s : State) (q : Nat) (h : HQueue) : (s.setQueue q h).xl = s.xl := rfl
@[simp] theorem State.setQueue_ctl (s : State) (q : Nat) (h : HQueue) : (s.setQueue q h).ctl = s.ctl := rfl
@[simp] theorem State.setQueue_ports (s : State) (q : Nat) (h : HQueue) : (s.setQueue q h).ports = s.ports := rfl
@[simp] theorem State.setQueue_monitors (s : State) (q : Nat) (h : HQueue) : (s.setQueue q h).monitors = s.monitors := rfl
@[simp] theorem State.setQueue_resets (s : State) (q : Nat) (h : HQueue) : (s.setQueue q h).resets = s.resets := rfl
@[simp] theorem State.setQueue_quiesces (s : State) (q : Nat) (h : HQueue) : (s.setQueue q h).quiesces = s.quiesces := rfl
@[simp] theorem State.setQueue_locks (s : State) (q : Nat) (h : HQueue) : (s.setQueue q h).locks = s.locks := rfl
@[simp] theorem State.setQueue_nextGrid (s : State) (q : Nat) (h : HQueue) : (s.setQueue q h).nextGrid = s.nextGrid := rfl
@[simp] theorem State.setQueue_agenda (s : State) (q : Nat) (h : HQueue) : (s.setQueue q h).agenda = s.agenda := rfl
@[simp] theorem State.setQueue_focus (s : State) (q : Nat) (h : HQueue) : (s.setQueue q h).focus = s.focus := rfl
@[simp] theorem State.setQueue_freeCount (s : State) (q : Nat) (h : HQueue) : (s.setQueue q h).freeCount = s.freeCount := rfl
@[simp] theorem State.setQueue_nextId (s : State) (q : Nat) (h : HQueue) : (s.setQueue q h).nextId = s.nextId := rfl

/-! ### setCtl -/

@[simp] theorem State.setCtl_groups (s : State) (c : Ctl) : (s.setCtl c).groups = s.groups := rfl
@[simp] theorem State.setCtl_teams (s : State) (c : Ctl) : (s.setCtl c).teams = s.teams := rfl
@[simp] theorem State.setCtl_grids (s : State) (c : Ctl) : (s.setCtl c).grids = s.grids := rfl
@[simp] theorem State.setCtl_graphs (s : State) (c : Ctl) : (s.setCtl c).graphs = s.graphs := rfl
@[simp] theorem State.setCtl_recs (s : State) (c : Ctl) : (s.setCtl c).recs = s.recs := rfl
@[simp] theorem State.setCtl_started (s : State) (c : Ctl) : (s.setCtl c).started = s.started := rfl
@[simp] theorem State.setCtl_ops (s : State) (c : Ctl) : (s.setCtl c).ops = s.ops := rfl
@[simp] theorem State.setCtl_msgs (s : State) (c : Ctl) : (s.setCtl c).msgs = s.msgs := rfl
@[simp] theorem State.setCtl_filters (s : State) (c : Ctl) : (s.setCtl c).filters = s.filters := rfl
@[simp] theorem State.setCtl_l1 (s : State) (c : Ctl) : (s.setCtl c).l1 = s.l1 := rfl
@[simp] theorem State.setCtl_dir (s : State) (c : Ctl) : (s.setCtl c).dir = s.dir := rfl
@[simp] theorem State.setCtl_hampers (s : State) (c : Ctl) : (s.setCtl c).hampers = s.hampers := rfl
@[simp] theorem State.setCtl_homes (s : State) (c : Ctl) : (s.setCtl c).homes = s.homes := rfl
@[simp] theorem State.setCtl_tlb (s : State) (c : Ctl) : (s.setCtl c).tlb = s.tlb := rfl
@[simp] theorem State.setCtl_dtlb (s : State) (c : Ctl) : (s.setCtl c).dtlb = s.dtlb := rfl
@[simp] theorem State.setCtl_wcache (s : State) (c : Ctl) : (s.setCtl c).wcache = s.wcache := rfl
@[simp] theorem State.setCtl_walks (s : State) (c : Ctl) : (s.setCtl c).walks = s.walks := rfl
@[simp] theorem State.setCtl_missq (s : State) (c : Ctl) : (s.setCtl c).missq = s.missq := rfl
@[simp] theorem State.setCtl_missDie (s : State) (c : Ctl) : (s.setCtl c).missDie = s.missDie := rfl
@[simp] theorem State.setCtl_regions (s : State) (c : Ctl) : (s.setCtl c).regions = s.regions := rfl
@[simp] theorem State.setCtl_peers (s : State) (c : Ctl) : (s.setCtl c).peers = s.peers := rfl
@[simp] theorem State.setCtl_mem (s : State) (c : Ctl) : (s.setCtl c).mem = s.mem := rfl
@[simp] theorem State.setCtl_poison (s : State) (c : Ctl) : (s.setCtl c).poison = s.poison := rfl
@[simp] theorem State.setCtl_tagPoison (s : State) (c : Ctl) : (s.setCtl c).tagPoison = s.tagPoison := rfl
@[simp] theorem State.setCtl_scache (s : State) (c : Ctl) : (s.setCtl c).scache = s.scache := rfl
@[simp] theorem State.setCtl_queues (s : State) (c : Ctl) : (s.setCtl c).queues = s.queues := rfl
@[simp] theorem State.setCtl_budget (s : State) (c : Ctl) : (s.setCtl c).budget = s.budget := rfl
@[simp] theorem State.setCtl_xl (s : State) (c : Ctl) : (s.setCtl c).xl = s.xl := rfl
@[simp] theorem State.setCtl_ctl (s : State) (c : Ctl) : (s.setCtl c).ctl = c := rfl
@[simp] theorem State.setCtl_ports (s : State) (c : Ctl) : (s.setCtl c).ports = s.ports := rfl
@[simp] theorem State.setCtl_monitors (s : State) (c : Ctl) : (s.setCtl c).monitors = s.monitors := rfl
@[simp] theorem State.setCtl_resets (s : State) (c : Ctl) : (s.setCtl c).resets = s.resets := rfl
@[simp] theorem State.setCtl_quiesces (s : State) (c : Ctl) : (s.setCtl c).quiesces = s.quiesces := rfl
@[simp] theorem State.setCtl_locks (s : State) (c : Ctl) : (s.setCtl c).locks = s.locks := rfl
@[simp] theorem State.setCtl_nextGrid (s : State) (c : Ctl) : (s.setCtl c).nextGrid = s.nextGrid := rfl
@[simp] theorem State.setCtl_agenda (s : State) (c : Ctl) : (s.setCtl c).agenda = s.agenda := rfl
@[simp] theorem State.setCtl_focus (s : State) (c : Ctl) : (s.setCtl c).focus = s.focus := rfl
@[simp] theorem State.setCtl_freeCount (s : State) (c : Ctl) : (s.setCtl c).freeCount = s.freeCount := rfl
@[simp] theorem State.setCtl_nextId (s : State) (c : Ctl) : (s.setCtl c).nextId = s.nextId := rfl

/-! ### setMem -/

@[simp] theorem State.setMem_groups (s : State) (m : Mem) : (s.setMem m).groups = s.groups := rfl
@[simp] theorem State.setMem_teams (s : State) (m : Mem) : (s.setMem m).teams = s.teams := rfl
@[simp] theorem State.setMem_grids (s : State) (m : Mem) : (s.setMem m).grids = s.grids := rfl
@[simp] theorem State.setMem_graphs (s : State) (m : Mem) : (s.setMem m).graphs = s.graphs := rfl
@[simp] theorem State.setMem_recs (s : State) (m : Mem) : (s.setMem m).recs = s.recs := rfl
@[simp] theorem State.setMem_started (s : State) (m : Mem) : (s.setMem m).started = s.started := rfl
@[simp] theorem State.setMem_ops (s : State) (m : Mem) : (s.setMem m).ops = s.ops := rfl
@[simp] theorem State.setMem_msgs (s : State) (m : Mem) : (s.setMem m).msgs = s.msgs := rfl
@[simp] theorem State.setMem_filters (s : State) (m : Mem) : (s.setMem m).filters = s.filters := rfl
@[simp] theorem State.setMem_l1 (s : State) (m : Mem) : (s.setMem m).l1 = s.l1 := rfl
@[simp] theorem State.setMem_dir (s : State) (m : Mem) : (s.setMem m).dir = s.dir := rfl
@[simp] theorem State.setMem_hampers (s : State) (m : Mem) : (s.setMem m).hampers = s.hampers := rfl
@[simp] theorem State.setMem_homes (s : State) (m : Mem) : (s.setMem m).homes = s.homes := rfl
@[simp] theorem State.setMem_tlb (s : State) (m : Mem) : (s.setMem m).tlb = s.tlb := rfl
@[simp] theorem State.setMem_dtlb (s : State) (m : Mem) : (s.setMem m).dtlb = s.dtlb := rfl
@[simp] theorem State.setMem_wcache (s : State) (m : Mem) : (s.setMem m).wcache = s.wcache := rfl
@[simp] theorem State.setMem_walks (s : State) (m : Mem) : (s.setMem m).walks = s.walks := rfl
@[simp] theorem State.setMem_missq (s : State) (m : Mem) : (s.setMem m).missq = s.missq := rfl
@[simp] theorem State.setMem_missDie (s : State) (m : Mem) : (s.setMem m).missDie = s.missDie := rfl
@[simp] theorem State.setMem_regions (s : State) (m : Mem) : (s.setMem m).regions = s.regions := rfl
@[simp] theorem State.setMem_peers (s : State) (m : Mem) : (s.setMem m).peers = s.peers := rfl
@[simp] theorem State.setMem_mem (s : State) (m : Mem) : (s.setMem m).mem = m := rfl
@[simp] theorem State.setMem_poison (s : State) (m : Mem) : (s.setMem m).poison = s.poison := rfl
@[simp] theorem State.setMem_tagPoison (s : State) (m : Mem) : (s.setMem m).tagPoison = s.tagPoison := rfl
@[simp] theorem State.setMem_scache (s : State) (m : Mem) : (s.setMem m).scache = s.scache := rfl
@[simp] theorem State.setMem_queues (s : State) (m : Mem) : (s.setMem m).queues = s.queues := rfl
@[simp] theorem State.setMem_budget (s : State) (m : Mem) : (s.setMem m).budget = s.budget := rfl
@[simp] theorem State.setMem_xl (s : State) (m : Mem) : (s.setMem m).xl = s.xl := rfl
@[simp] theorem State.setMem_ctl (s : State) (m : Mem) : (s.setMem m).ctl = s.ctl := rfl
@[simp] theorem State.setMem_ports (s : State) (m : Mem) : (s.setMem m).ports = s.ports := rfl
@[simp] theorem State.setMem_monitors (s : State) (m : Mem) : (s.setMem m).monitors = s.monitors := rfl
@[simp] theorem State.setMem_resets (s : State) (m : Mem) : (s.setMem m).resets = s.resets := rfl
@[simp] theorem State.setMem_quiesces (s : State) (m : Mem) : (s.setMem m).quiesces = s.quiesces := rfl
@[simp] theorem State.setMem_locks (s : State) (m : Mem) : (s.setMem m).locks = s.locks := rfl
@[simp] theorem State.setMem_nextGrid (s : State) (m : Mem) : (s.setMem m).nextGrid = s.nextGrid := rfl
@[simp] theorem State.setMem_agenda (s : State) (m : Mem) : (s.setMem m).agenda = s.agenda := rfl
@[simp] theorem State.setMem_focus (s : State) (m : Mem) : (s.setMem m).focus = s.focus := rfl
@[simp] theorem State.setMem_freeCount (s : State) (m : Mem) : (s.setMem m).freeCount = s.freeCount := rfl
@[simp] theorem State.setMem_nextId (s : State) (m : Mem) : (s.setMem m).nextId = s.nextId := rfl

/-! ### addOp -/

@[simp] theorem State.addOp_groups (s : State) (o : Op) : (s.addOp o).groups = s.groups := rfl
@[simp] theorem State.addOp_teams (s : State) (o : Op) : (s.addOp o).teams = s.teams := rfl
@[simp] theorem State.addOp_grids (s : State) (o : Op) : (s.addOp o).grids = s.grids := rfl
@[simp] theorem State.addOp_graphs (s : State) (o : Op) : (s.addOp o).graphs = s.graphs := rfl
@[simp] theorem State.addOp_recs (s : State) (o : Op) : (s.addOp o).recs = s.recs := rfl
@[simp] theorem State.addOp_started (s : State) (o : Op) : (s.addOp o).started = s.started := rfl
@[simp] theorem State.addOp_ops (s : State) (o : Op) : (s.addOp o).ops = s.ops ++ [o] := rfl
@[simp] theorem State.addOp_msgs (s : State) (o : Op) : (s.addOp o).msgs = s.msgs := rfl
@[simp] theorem State.addOp_filters (s : State) (o : Op) : (s.addOp o).filters = s.filters := rfl
@[simp] theorem State.addOp_l1 (s : State) (o : Op) : (s.addOp o).l1 = s.l1 := rfl
@[simp] theorem State.addOp_dir (s : State) (o : Op) : (s.addOp o).dir = s.dir := rfl
@[simp] theorem State.addOp_hampers (s : State) (o : Op) : (s.addOp o).hampers = s.hampers := rfl
@[simp] theorem State.addOp_homes (s : State) (o : Op) : (s.addOp o).homes = s.homes := rfl
@[simp] theorem State.addOp_tlb (s : State) (o : Op) : (s.addOp o).tlb = s.tlb := rfl
@[simp] theorem State.addOp_dtlb (s : State) (o : Op) : (s.addOp o).dtlb = s.dtlb := rfl
@[simp] theorem State.addOp_wcache (s : State) (o : Op) : (s.addOp o).wcache = s.wcache := rfl
@[simp] theorem State.addOp_walks (s : State) (o : Op) : (s.addOp o).walks = s.walks := rfl
@[simp] theorem State.addOp_missq (s : State) (o : Op) : (s.addOp o).missq = s.missq := rfl
@[simp] theorem State.addOp_missDie (s : State) (o : Op) : (s.addOp o).missDie = s.missDie := rfl
@[simp] theorem State.addOp_regions (s : State) (o : Op) : (s.addOp o).regions = s.regions := rfl
@[simp] theorem State.addOp_peers (s : State) (o : Op) : (s.addOp o).peers = s.peers := rfl
@[simp] theorem State.addOp_mem (s : State) (o : Op) : (s.addOp o).mem = s.mem := rfl
@[simp] theorem State.addOp_poison (s : State) (o : Op) : (s.addOp o).poison = s.poison := rfl
@[simp] theorem State.addOp_tagPoison (s : State) (o : Op) : (s.addOp o).tagPoison = s.tagPoison := rfl
@[simp] theorem State.addOp_scache (s : State) (o : Op) : (s.addOp o).scache = s.scache := rfl
@[simp] theorem State.addOp_queues (s : State) (o : Op) : (s.addOp o).queues = s.queues := rfl
@[simp] theorem State.addOp_budget (s : State) (o : Op) : (s.addOp o).budget = s.budget := rfl
@[simp] theorem State.addOp_xl (s : State) (o : Op) : (s.addOp o).xl = s.xl := rfl
@[simp] theorem State.addOp_ctl (s : State) (o : Op) : (s.addOp o).ctl = s.ctl := rfl
@[simp] theorem State.addOp_ports (s : State) (o : Op) : (s.addOp o).ports = s.ports := rfl
@[simp] theorem State.addOp_monitors (s : State) (o : Op) : (s.addOp o).monitors = s.monitors := rfl
@[simp] theorem State.addOp_resets (s : State) (o : Op) : (s.addOp o).resets = s.resets := rfl
@[simp] theorem State.addOp_quiesces (s : State) (o : Op) : (s.addOp o).quiesces = s.quiesces := rfl
@[simp] theorem State.addOp_locks (s : State) (o : Op) : (s.addOp o).locks = s.locks := rfl
@[simp] theorem State.addOp_nextGrid (s : State) (o : Op) : (s.addOp o).nextGrid = s.nextGrid := rfl
@[simp] theorem State.addOp_agenda (s : State) (o : Op) : (s.addOp o).agenda = s.agenda := rfl
@[simp] theorem State.addOp_focus (s : State) (o : Op) : (s.addOp o).focus = s.focus := rfl
@[simp] theorem State.addOp_freeCount (s : State) (o : Op) : (s.addOp o).freeCount = s.freeCount := rfl
@[simp] theorem State.addOp_nextId (s : State) (o : Op) : (s.addOp o).nextId = s.nextId + 1 := rfl

/-! ### send -/

/-- A port's count of flits is all that one changes (15 R418). -/
theorem State.countFlit_eq (s : State) (p : Nat) : s.countFlit p = { s with ports := (s.countFlit p).ports } := by
  unfold State.countFlit
  split <;> rfl

/-- The choice of a path takes a free value and counts a flit (15 R416). -/
theorem State.pathOf_eq (s : State) (h : Nat) :
    (s.pathOf h).2 = { s with ports := (s.pathOf h).2.ports, freeCount := (s.pathOf h).2.freeCount } := by
  unfold State.pathOf
  dsimp only
  split
  · rfl
  · split
    · rw [State.countFlit_eq]
      rfl
    · rfl

/-- What a send changes: the newest place besides. -/
theorem State.flit_eq (s : State) (h : Nat) :
    (s.flit h).2 = { s with
      ports := (s.flit h).2.ports, freeCount := (s.flit h).2.freeCount, nextId := (s.flit h).2.nextId } := by
  unfold State.flit
  dsimp only
  rw [State.pathOf_eq]

/-- What a request's number and path change (15 R415, R416). -/
theorem State.number_eq (s : State) (r h : Nat) :
    (s.number r h).2 = { s with
      ports := (s.number r h).2.ports, filters := (s.number r h).2.filters, freeCount := (s.number r h).2.freeCount
      nextId := (s.number r h).2.nextId } := by
  unfold State.number State.setFilter
  dsimp only
  rw [State.flit_eq]

/-- What the reissue of a request changes. -/
theorem State.again_eq (s : State) (x : Sent) :
    (s.again x).2 = { s with
      ports := (s.again x).2.ports, freeCount := (s.again x).2.freeCount, nextId := (s.again x).2.nextId } := by
  unfold State.again
  dsimp only
  rw [State.pathOf_eq]

/-- What a home notes of a request changes the homes' accounts alone. -/
theorem State.noted_eq (s : State) (r : Nat) (x : Option Sent) : s.noted r x = { s with filters := (s.noted r x).filters } := by
  cases x <;> rfl

/-- What the sending of a message changes. -/
theorem State.send_eq (s : State) (b : MsgBody) :
    s.send b = { s with
      msgs := (s.send b).msgs, nextId := (s.send b).nextId, ports := (s.send b).ports, filters := (s.send b).filters
      freeCount := (s.send b).freeCount } := by
  unfold State.send State.post
  dsimp only
  split
  · split
    · rw [State.number_eq]
    · rfl
  · rfl

/-- The message sent is the newest. -/
theorem State.send_msgs (s : State) (b : MsgBody) : ∃ n x, (s.send b).msgs = s.msgs ++ [⟨n, b, false, 0, x⟩] := by
  unfold State.send State.post
  dsimp only
  split
  · split
    · rw [State.number_eq]
      exact ⟨_, _, rfl⟩
    · exact ⟨_, _, rfl⟩
  · exact ⟨_, _, rfl⟩

@[simp] theorem State.send_groups (s : State) (b : MsgBody) : (s.send b).groups = s.groups := by rw [State.send_eq]
@[simp] theorem State.send_teams (s : State) (b : MsgBody) : (s.send b).teams = s.teams := by rw [State.send_eq]
@[simp] theorem State.send_grids (s : State) (b : MsgBody) : (s.send b).grids = s.grids := by rw [State.send_eq]
@[simp] theorem State.send_graphs (s : State) (b : MsgBody) : (s.send b).graphs = s.graphs := by rw [State.send_eq]
@[simp] theorem State.send_recs (s : State) (b : MsgBody) : (s.send b).recs = s.recs := by rw [State.send_eq]
@[simp] theorem State.send_started (s : State) (b : MsgBody) : (s.send b).started = s.started := by rw [State.send_eq]
@[simp] theorem State.send_ops (s : State) (b : MsgBody) : (s.send b).ops = s.ops := by rw [State.send_eq]
@[simp] theorem State.send_l1 (s : State) (b : MsgBody) : (s.send b).l1 = s.l1 := by rw [State.send_eq]
@[simp] theorem State.send_dir (s : State) (b : MsgBody) : (s.send b).dir = s.dir := by rw [State.send_eq]
@[simp] theorem State.send_hampers (s : State) (b : MsgBody) : (s.send b).hampers = s.hampers := by rw [State.send_eq]
@[simp] theorem State.send_homes (s : State) (b : MsgBody) : (s.send b).homes = s.homes := by rw [State.send_eq]
@[simp] theorem State.send_tlb (s : State) (b : MsgBody) : (s.send b).tlb = s.tlb := by rw [State.send_eq]
@[simp] theorem State.send_dtlb (s : State) (b : MsgBody) : (s.send b).dtlb = s.dtlb := by rw [State.send_eq]
@[simp] theorem State.send_wcache (s : State) (b : MsgBody) : (s.send b).wcache = s.wcache := by rw [State.send_eq]
@[simp] theorem State.send_walks (s : State) (b : MsgBody) : (s.send b).walks = s.walks := by rw [State.send_eq]
@[simp] theorem State.send_missq (s : State) (b : MsgBody) : (s.send b).missq = s.missq := by rw [State.send_eq]
@[simp] theorem State.send_missDie (s : State) (b : MsgBody) : (s.send b).missDie = s.missDie := by rw [State.send_eq]
@[simp] theorem State.send_regions (s : State) (b : MsgBody) : (s.send b).regions = s.regions := by rw [State.send_eq]
@[simp] theorem State.send_peers (s : State) (b : MsgBody) : (s.send b).peers = s.peers := by rw [State.send_eq]
@[simp] theorem State.send_mem (s : State) (b : MsgBody) : (s.send b).mem = s.mem := by rw [State.send_eq]
@[simp] theorem State.send_poison (s : State) (b : MsgBody) : (s.send b).poison = s.poison := by rw [State.send_eq]
@[simp] theorem State.send_tagPoison (s : State) (b : MsgBody) : (s.send b).tagPoison = s.tagPoison := by rw [State.send_eq]
@[simp] theorem State.send_scache (s : State) (b : MsgBody) : (s.send b).scache = s.scache := by rw [State.send_eq]
@[simp] theorem State.send_queues (s : State) (b : MsgBody) : (s.send b).queues = s.queues := by rw [State.send_eq]
@[simp] theorem State.send_budget (s : State) (b : MsgBody) : (s.send b).budget = s.budget := by rw [State.send_eq]
@[simp] theorem State.send_xl (s : State) (b : MsgBody) : (s.send b).xl = s.xl := by rw [State.send_eq]
@[simp] theorem State.send_ctl (s : State) (b : MsgBody) : (s.send b).ctl = s.ctl := by rw [State.send_eq]
@[simp] theorem State.send_monitors (s : State) (b : MsgBody) : (s.send b).monitors = s.monitors := by rw [State.send_eq]
@[simp] theorem State.send_resets (s : State) (b : MsgBody) : (s.send b).resets = s.resets := by rw [State.send_eq]
@[simp] theorem State.send_quiesces (s : State) (b : MsgBody) : (s.send b).quiesces = s.quiesces := by rw [State.send_eq]
@[simp] theorem State.send_locks (s : State) (b : MsgBody) : (s.send b).locks = s.locks := by rw [State.send_eq]
@[simp] theorem State.send_nextGrid (s : State) (b : MsgBody) : (s.send b).nextGrid = s.nextGrid := by rw [State.send_eq]
@[simp] theorem State.send_agenda (s : State) (b : MsgBody) : (s.send b).agenda = s.agenda := by rw [State.send_eq]
@[simp] theorem State.send_focus (s : State) (b : MsgBody) : (s.send b).focus = s.focus := by rw [State.send_eq]

/-! ### Group.push -/

@[simp] theorem Group.push_gid (g : Group) (ex : W32) (v : Nat → W64) : (g.push ex v).gid = g.gid := rfl
@[simp] theorem Group.push_team (g : Group) (ex : W32) (v : Nat → W64) : (g.push ex v).team = g.team := rfl
@[simp] theorem Group.push_grpid (g : Group) (ex : W32) (v : Nat → W64) : (g.push ex v).grpid = g.grpid := rfl
@[simp] theorem Group.push_st (g : Group) (ex : W32) (v : Nat → W64) : (g.push ex v).st = g.st := rfl
@[simp] theorem Group.push_lpc (g : Group) (ex : W32) (v : Nat → W64) : (g.push ex v).lpc = g.lpc := rfl
@[simp] theorem Group.push_live (g : Group) (ex : W32) (v : Nat → W64) : (g.push ex v).live = g.live := rfl
@[simp] theorem Group.push_queue (g : Group) (ex : W32) (v : Nat → W64) : (g.push ex v).queue = (Store.ofLanes fun l => if ex.getLsbD l then v l else g.age 0 l) :: g.queue.take 15 := rfl
@[simp] theorem Group.push_win (g : Group) (ex : W32) (v : Nat → W64) : (g.push ex v).win = g.win := rfl
@[simp] theorem Group.push_scal (g : Group) (ex : W32) (v : Nat → W64) : (g.push ex v).scal = g.scal := rfl
@[simp] theorem Group.push_masks (g : Group) (ex : W32) (v : Nat → W64) : (g.push ex v).masks = g.masks := rfl
@[simp] theorem Group.push_lc0 (g : Group) (ex : W32) (v : Nat → W64) : (g.push ex v).lc0 = g.lc0 := rfl
@[simp] theorem Group.push_lc1 (g : Group) (ex : W32) (v : Nat → W64) : (g.push ex v).lc1 = g.lc1 := rfl
@[simp] theorem Group.push_lc2 (g : Group) (ex : W32) (v : Nat → W64) : (g.push ex v).lc2 = g.lc2 := rfl
@[simp] theorem Group.push_lc3 (g : Group) (ex : W32) (v : Nat → W64) : (g.push ex v).lc3 = g.lc3 := rfl
@[simp] theorem Group.push_carry (g : Group) (ex : W32) (v : Nat → W64) : (g.push ex v).carry = g.carry := rfl
@[simp] theorem Group.push_prec (g : Group) (ex : W32) (v : Nat → W64) : (g.push ex v).prec = g.prec := rfl
@[simp] theorem Group.push_fpst (g : Group) (ex : W32) (v : Nat → W64) : (g.push ex v).fpst = g.fpst := rfl
@[simp] theorem Group.push_flags (g : Group) (ex : W32) (v : Nat → W64) : (g.push ex v).flags = g.flags := rfl
@[simp] theorem Group.push_sealedCnt (g : Group) (ex : W32) (v : Nat → W64) : (g.push ex v).sealedCnt = g.sealedCnt := rfl
@[simp] theorem Group.push_finishedCnt (g : Group) (ex : W32) (v : Nat → W64) : (g.push ex v).finishedCnt = g.finishedCnt := rfl
@[simp] theorem Group.push_hang (g : Group) (ex : W32) (v : Nat → W64) : (g.push ex v).hang = g.hang := rfl
@[simp] theorem Group.push_trace (g : Group) (ex : W32) (v : Nat → W64) : (g.push ex v).trace = g.trace := rfl
@[simp] theorem Group.push_since (g : Group) (ex : W32) (v : Nat → W64) : (g.push ex v).since = g.since := rfl
@[simp] theorem Group.push_run (g : Group) (ex : W32) (v : Nat → W64) : (g.push ex v).run = g.run := rfl
@[simp] theorem Group.push_park (g : Group) (ex : W32) (v : Nat → W64) : (g.push ex v).park = g.park := rfl
@[simp] theorem Group.push_order (g : Group) (ex : W32) (v : Nat → W64) : (g.push ex v).order = g.order := rfl
@[simp] theorem Group.push_yielded (g : Group) (ex : W32) (v : Nat → W64) : (g.push ex v).yielded = g.yielded := rfl
@[simp] theorem Group.push_jumped (g : Group) (ex : W32) (v : Nat → W64) : (g.push ex v).jumped = g.jumped := rfl
@[simp] theorem Group.push_pushes (g : Group) (ex : W32) (v : Nat → W64) : (g.push ex v).pushes = g.pushes + 1 := rfl
@[simp] theorem Group.push_touched (g : Group) (ex : W32) (v : Nat → W64) : (g.push ex v).touched = g.touched := rfl
@[simp] theorem Group.push_last (g : Group) (ex : W32) (v : Nat → W64) : (g.push ex v).last = g.last := rfl
@[simp] theorem Group.push_saved (g : Group) (ex : W32) (v : Nat → W64) : (g.push ex v).saved = g.saved := rfl
@[simp] theorem Group.push_freed (g : Group) (ex : W32) (v : Nat → W64) : (g.push ex v).freed = g.freed := rfl
@[simp] theorem Group.push_fetch (g : Group) (ex : W32) (v : Nat → W64) : (g.push ex v).fetch = g.fetch := rfl
@[simp] theorem Group.push_hung (g : Group) (ex : W32) (v : Nat → W64) : (g.push ex v).hung = g.hung := rfl

/-! ### Group.setWin -/

@[simp] theorem Group.setWin_gid (g : Group) (ex : W32) (n : BitVec 5) (w : Nat) (v : Nat → W32) : (g.setWin ex n w v).gid = g.gid := rfl
@[simp] theorem Group.setWin_team (g : Group) (ex : W32) (n : BitVec 5) (w : Nat) (v : Nat → W32) : (g.setWin ex n w v).team = g.team := rfl
@[simp] theorem Group.setWin_grpid (g : Group) (ex : W32) (n : BitVec 5) (w : Nat) (v : Nat → W32) : (g.setWin ex n w v).grpid = g.grpid := rfl
@[simp] theorem Group.setWin_st (g : Group) (ex : W32) (n : BitVec 5) (w : Nat) (v : Nat → W32) : (g.setWin ex n w v).st = g.st := rfl
@[simp] theorem Group.setWin_lpc (g : Group) (ex : W32) (n : BitVec 5) (w : Nat) (v : Nat → W32) : (g.setWin ex n w v).lpc = g.lpc := rfl
@[simp] theorem Group.setWin_live (g : Group) (ex : W32) (n : BitVec 5) (w : Nat) (v : Nat → W32) : (g.setWin ex n w v).live = g.live := rfl
@[simp] theorem Group.setWin_queue (g : Group) (ex : W32) (n : BitVec 5) (w : Nat) (v : Nat → W32) : (g.setWin ex n w v).queue = g.queue := rfl
@[simp] theorem Group.setWin_win (g : Group) (ex : W32) (n : BitVec 5) (w : Nat) (v : Nat → W32) : (g.setWin ex n w v).win = (laneList ex).foldl (fun m l => Store.write m (winKey n w l) (v l)) g.win := rfl
@[simp] theorem Group.setWin_scal (g : Group) (ex : W32) (n : BitVec 5) (w : Nat) (v : Nat → W32) : (g.setWin ex n w v).scal = g.scal := rfl
@[simp] theorem Group.setWin_masks (g : Group) (ex : W32) (n : BitVec 5) (w : Nat) (v : Nat → W32) : (g.setWin ex n w v).masks = g.masks := rfl
@[simp] theorem Group.setWin_lc0 (g : Group) (ex : W32) (n : BitVec 5) (w : Nat) (v : Nat → W32) : (g.setWin ex n w v).lc0 = g.lc0 := rfl
@[simp] theorem Group.setWin_lc1 (g : Group) (ex : W32) (n : BitVec 5) (w : Nat) (v : Nat → W32) : (g.setWin ex n w v).lc1 = g.lc1 := rfl
@[simp] theorem Group.setWin_lc2 (g : Group) (ex : W32) (n : BitVec 5) (w : Nat) (v : Nat → W32) : (g.setWin ex n w v).lc2 = g.lc2 := rfl
@[simp] theorem Group.setWin_lc3 (g : Group) (ex : W32) (n : BitVec 5) (w : Nat) (v : Nat → W32) : (g.setWin ex n w v).lc3 = g.lc3 := rfl
@[simp] theorem Group.setWin_carry (g : Group) (ex : W32) (n : BitVec 5) (w : Nat) (v : Nat → W32) : (g.setWin ex n w v).carry = g.carry := rfl
@[simp] theorem Group.setWin_prec (g : Group) (ex : W32) (n : BitVec 5) (w : Nat) (v : Nat → W32) : (g.setWin ex n w v).prec = g.prec := rfl
@[simp] theorem Group.setWin_fpst (g : Group) (ex : W32) (n : BitVec 5) (w : Nat) (v : Nat → W32) : (g.setWin ex n w v).fpst = g.fpst := rfl
@[simp] theorem Group.setWin_flags (g : Group) (ex : W32) (n : BitVec 5) (w : Nat) (v : Nat → W32) : (g.setWin ex n w v).flags = g.flags := rfl
@[simp] theorem Group.setWin_sealedCnt (g : Group) (ex : W32) (n : BitVec 5) (w : Nat) (v : Nat → W32) : (g.setWin ex n w v).sealedCnt = g.sealedCnt := rfl
@[simp] theorem Group.setWin_finishedCnt (g : Group) (ex : W32) (n : BitVec 5) (w : Nat) (v : Nat → W32) : (g.setWin ex n w v).finishedCnt = g.finishedCnt := rfl
@[simp] theorem Group.setWin_hang (g : Group) (ex : W32) (n : BitVec 5) (w : Nat) (v : Nat → W32) : (g.setWin ex n w v).hang = g.hang := rfl
@[simp] theorem Group.setWin_trace (g : Group) (ex : W32) (n : BitVec 5) (w : Nat) (v : Nat → W32) : (g.setWin ex n w v).trace = g.trace := rfl
@[simp] theorem Group.setWin_since (g : Group) (ex : W32) (n : BitVec 5) (w : Nat) (v : Nat → W32) : (g.setWin ex n w v).since = g.since := rfl
@[simp] theorem Group.setWin_run (g : Group) (ex : W32) (n : BitVec 5) (w : Nat) (v : Nat → W32) : (g.setWin ex n w v).run = g.run := rfl
@[simp] theorem Group.setWin_park (g : Group) (ex : W32) (n : BitVec 5) (w : Nat) (v : Nat → W32) : (g.setWin ex n w v).park = g.park := rfl
@[simp] theorem Group.setWin_order (g : Group) (ex : W32) (n : BitVec 5) (w : Nat) (v : Nat → W32) : (g.setWin ex n w v).order = g.order := rfl
@[simp] theorem Group.setWin_yielded (g : Group) (ex : W32) (n : BitVec 5) (w : Nat) (v : Nat → W32) : (g.setWin ex n w v).yielded = g.yielded := rfl
@[simp] theorem Group.setWin_jumped (g : Group) (ex : W32) (n : BitVec 5) (w : Nat) (v : Nat → W32) : (g.setWin ex n w v).jumped = g.jumped := rfl
@[simp] theorem Group.setWin_pushes (g : Group) (ex : W32) (n : BitVec 5) (w : Nat) (v : Nat → W32) : (g.setWin ex n w v).pushes = g.pushes := rfl
@[simp] theorem Group.setWin_touched (g : Group) (ex : W32) (n : BitVec 5) (w : Nat) (v : Nat → W32) : (g.setWin ex n w v).touched = g.touched := rfl
@[simp] theorem Group.setWin_last (g : Group) (ex : W32) (n : BitVec 5) (w : Nat) (v : Nat → W32) : (g.setWin ex n w v).last = g.last := rfl
@[simp] theorem Group.setWin_saved (g : Group) (ex : W32) (n : BitVec 5) (w : Nat) (v : Nat → W32) : (g.setWin ex n w v).saved = g.saved := rfl
@[simp] theorem Group.setWin_freed (g : Group) (ex : W32) (n : BitVec 5) (w : Nat) (v : Nat → W32) : (g.setWin ex n w v).freed = g.freed := rfl
@[simp] theorem Group.setWin_fetch (g : Group) (ex : W32) (n : BitVec 5) (w : Nat) (v : Nat → W32) : (g.setWin ex n w v).fetch = g.fetch := rfl
@[simp] theorem Group.setWin_hung (g : Group) (ex : W32) (n : BitVec 5) (w : Nat) (v : Nat → W32) : (g.setWin ex n w v).hung = g.hung := rfl

/-! ### Group.setScal -/

@[simp] theorem Group.setScal_gid (g : Group) (n : Nat) (v : W64) : (g.setScal n v).gid = g.gid := rfl
@[simp] theorem Group.setScal_team (g : Group) (n : Nat) (v : W64) : (g.setScal n v).team = g.team := rfl
@[simp] theorem Group.setScal_grpid (g : Group) (n : Nat) (v : W64) : (g.setScal n v).grpid = g.grpid := rfl
@[simp] theorem Group.setScal_st (g : Group) (n : Nat) (v : W64) : (g.setScal n v).st = g.st := rfl
@[simp] theorem Group.setScal_lpc (g : Group) (n : Nat) (v : W64) : (g.setScal n v).lpc = g.lpc := rfl
@[simp] theorem Group.setScal_live (g : Group) (n : Nat) (v : W64) : (g.setScal n v).live = g.live := rfl
@[simp] theorem Group.setScal_queue (g : Group) (n : Nat) (v : W64) : (g.setScal n v).queue = g.queue := rfl
@[simp] theorem Group.setScal_win (g : Group) (n : Nat) (v : W64) : (g.setScal n v).win = g.win := rfl
@[simp] theorem Group.setScal_scal (g : Group) (n : Nat) (v : W64) : (g.setScal n v).scal = Store.write g.scal n v := rfl
@[simp] theorem Group.setScal_masks (g : Group) (n : Nat) (v : W64) : (g.setScal n v).masks = g.masks := rfl
@[simp] theorem Group.setScal_lc0 (g : Group) (n : Nat) (v : W64) : (g.setScal n v).lc0 = g.lc0 := rfl
@[simp] theorem Group.setScal_lc1 (g : Group) (n : Nat) (v : W64) : (g.setScal n v).lc1 = g.lc1 := rfl
@[simp] theorem Group.setScal_lc2 (g : Group) (n : Nat) (v : W64) : (g.setScal n v).lc2 = g.lc2 := rfl
@[simp] theorem Group.setScal_lc3 (g : Group) (n : Nat) (v : W64) : (g.setScal n v).lc3 = g.lc3 := rfl
@[simp] theorem Group.setScal_carry (g : Group) (n : Nat) (v : W64) : (g.setScal n v).carry = g.carry := rfl
@[simp] theorem Group.setScal_prec (g : Group) (n : Nat) (v : W64) : (g.setScal n v).prec = g.prec := rfl
@[simp] theorem Group.setScal_fpst (g : Group) (n : Nat) (v : W64) : (g.setScal n v).fpst = g.fpst := rfl
@[simp] theorem Group.setScal_flags (g : Group) (n : Nat) (v : W64) : (g.setScal n v).flags = g.flags := rfl
@[simp] theorem Group.setScal_sealedCnt (g : Group) (n : Nat) (v : W64) : (g.setScal n v).sealedCnt = g.sealedCnt := rfl
@[simp] theorem Group.setScal_finishedCnt (g : Group) (n : Nat) (v : W64) : (g.setScal n v).finishedCnt = g.finishedCnt := rfl
@[simp] theorem Group.setScal_hang (g : Group) (n : Nat) (v : W64) : (g.setScal n v).hang = g.hang := rfl
@[simp] theorem Group.setScal_trace (g : Group) (n : Nat) (v : W64) : (g.setScal n v).trace = g.trace := rfl
@[simp] theorem Group.setScal_since (g : Group) (n : Nat) (v : W64) : (g.setScal n v).since = g.since := rfl
@[simp] theorem Group.setScal_run (g : Group) (n : Nat) (v : W64) : (g.setScal n v).run = g.run := rfl
@[simp] theorem Group.setScal_park (g : Group) (n : Nat) (v : W64) : (g.setScal n v).park = g.park := rfl
@[simp] theorem Group.setScal_order (g : Group) (n : Nat) (v : W64) : (g.setScal n v).order = g.order := rfl
@[simp] theorem Group.setScal_yielded (g : Group) (n : Nat) (v : W64) : (g.setScal n v).yielded = g.yielded := rfl
@[simp] theorem Group.setScal_jumped (g : Group) (n : Nat) (v : W64) : (g.setScal n v).jumped = g.jumped := rfl
@[simp] theorem Group.setScal_pushes (g : Group) (n : Nat) (v : W64) : (g.setScal n v).pushes = g.pushes := rfl
@[simp] theorem Group.setScal_touched (g : Group) (n : Nat) (v : W64) : (g.setScal n v).touched = g.touched := rfl
@[simp] theorem Group.setScal_last (g : Group) (n : Nat) (v : W64) : (g.setScal n v).last = g.last := rfl
@[simp] theorem Group.setScal_saved (g : Group) (n : Nat) (v : W64) : (g.setScal n v).saved = g.saved := rfl
@[simp] theorem Group.setScal_freed (g : Group) (n : Nat) (v : W64) : (g.setScal n v).freed = g.freed := rfl
@[simp] theorem Group.setScal_fetch (g : Group) (n : Nat) (v : W64) : (g.setScal n v).fetch = g.fetch := rfl
@[simp] theorem Group.setScal_hung (g : Group) (n : Nat) (v : W64) : (g.setScal n v).hung = g.hung := rfl

/-! ### Group.setFlags -/

@[simp] theorem Group.setFlags_gid (g : Group) (m : BitVec 12) : (g.setFlags m).gid = g.gid := rfl
@[simp] theorem Group.setFlags_team (g : Group) (m : BitVec 12) : (g.setFlags m).team = g.team := rfl
@[simp] theorem Group.setFlags_grpid (g : Group) (m : BitVec 12) : (g.setFlags m).grpid = g.grpid := rfl
@[simp] theorem Group.setFlags_st (g : Group) (m : BitVec 12) : (g.setFlags m).st = g.st := rfl
@[simp] theorem Group.setFlags_lpc (g : Group) (m : BitVec 12) : (g.setFlags m).lpc = g.lpc := rfl
@[simp] theorem Group.setFlags_live (g : Group) (m : BitVec 12) : (g.setFlags m).live = g.live := rfl
@[simp] theorem Group.setFlags_queue (g : Group) (m : BitVec 12) : (g.setFlags m).queue = g.queue := rfl
@[simp] theorem Group.setFlags_win (g : Group) (m : BitVec 12) : (g.setFlags m).win = g.win := rfl
@[simp] theorem Group.setFlags_scal (g : Group) (m : BitVec 12) : (g.setFlags m).scal = g.scal := rfl
@[simp] theorem Group.setFlags_masks (g : Group) (m : BitVec 12) : (g.setFlags m).masks = g.masks := rfl
@[simp] theorem Group.setFlags_lc0 (g : Group) (m : BitVec 12) : (g.setFlags m).lc0 = g.lc0 := rfl
@[simp] theorem Group.setFlags_lc1 (g : Group) (m : BitVec 12) : (g.setFlags m).lc1 = g.lc1 := rfl
@[simp] theorem Group.setFlags_lc2 (g : Group) (m : BitVec 12) : (g.setFlags m).lc2 = g.lc2 := rfl
@[simp] theorem Group.setFlags_lc3 (g : Group) (m : BitVec 12) : (g.setFlags m).lc3 = g.lc3 := rfl
@[simp] theorem Group.setFlags_carry (g : Group) (m : BitVec 12) : (g.setFlags m).carry = g.carry := rfl
@[simp] theorem Group.setFlags_prec (g : Group) (m : BitVec 12) : (g.setFlags m).prec = g.prec := rfl
@[simp] theorem Group.setFlags_fpst (g : Group) (m : BitVec 12) : (g.setFlags m).fpst = g.fpst := rfl
@[simp] theorem Group.setFlags_flags (g : Group) (m : BitVec 12) : (g.setFlags m).flags = g.flags ||| m := rfl
@[simp] theorem Group.setFlags_sealedCnt (g : Group) (m : BitVec 12) : (g.setFlags m).sealedCnt = g.sealedCnt := rfl
@[simp] theorem Group.setFlags_finishedCnt (g : Group) (m : BitVec 12) : (g.setFlags m).finishedCnt = g.finishedCnt := rfl
@[simp] theorem Group.setFlags_hang (g : Group) (m : BitVec 12) : (g.setFlags m).hang = g.hang := rfl
@[simp] theorem Group.setFlags_trace (g : Group) (m : BitVec 12) : (g.setFlags m).trace = g.trace := rfl
@[simp] theorem Group.setFlags_since (g : Group) (m : BitVec 12) : (g.setFlags m).since = g.since := rfl
@[simp] theorem Group.setFlags_run (g : Group) (m : BitVec 12) : (g.setFlags m).run = g.run := rfl
@[simp] theorem Group.setFlags_park (g : Group) (m : BitVec 12) : (g.setFlags m).park = g.park := rfl
@[simp] theorem Group.setFlags_order (g : Group) (m : BitVec 12) : (g.setFlags m).order = g.order := rfl
@[simp] theorem Group.setFlags_yielded (g : Group) (m : BitVec 12) : (g.setFlags m).yielded = g.yielded := rfl
@[simp] theorem Group.setFlags_jumped (g : Group) (m : BitVec 12) : (g.setFlags m).jumped = g.jumped := rfl
@[simp] theorem Group.setFlags_pushes (g : Group) (m : BitVec 12) : (g.setFlags m).pushes = g.pushes := rfl
@[simp] theorem Group.setFlags_touched (g : Group) (m : BitVec 12) : (g.setFlags m).touched = g.touched := rfl
@[simp] theorem Group.setFlags_last (g : Group) (m : BitVec 12) : (g.setFlags m).last = g.last := rfl
@[simp] theorem Group.setFlags_saved (g : Group) (m : BitVec 12) : (g.setFlags m).saved = g.saved := rfl
@[simp] theorem Group.setFlags_freed (g : Group) (m : BitVec 12) : (g.setFlags m).freed = g.freed := rfl
@[simp] theorem Group.setFlags_fetch (g : Group) (m : BitVec 12) : (g.setFlags m).fetch = g.fetch := rfl
@[simp] theorem Group.setFlags_hung (g : Group) (m : BitVec 12) : (g.setFlags m).hung = g.hung := rfl

/-! ### Group.clearFlags -/

@[simp] theorem Group.clearFlags_gid (g : Group) (m : BitVec 12) : (g.clearFlags m).gid = g.gid := rfl
@[simp] theorem Group.clearFlags_team (g : Group) (m : BitVec 12) : (g.clearFlags m).team = g.team := rfl
@[simp] theorem Group.clearFlags_grpid (g : Group) (m : BitVec 12) : (g.clearFlags m).grpid = g.grpid := rfl
@[simp] theorem Group.clearFlags_st (g : Group) (m : BitVec 12) : (g.clearFlags m).st = g.st := rfl
@[simp] theorem Group.clearFlags_lpc (g : Group) (m : BitVec 12) : (g.clearFlags m).lpc = g.lpc := rfl
@[simp] theorem Group.clearFlags_live (g : Group) (m : BitVec 12) : (g.clearFlags m).live = g.live := rfl
@[simp] theorem Group.clearFlags_queue (g : Group) (m : BitVec 12) : (g.clearFlags m).queue = g.queue := rfl
@[simp] theorem Group.clearFlags_win (g : Group) (m : BitVec 12) : (g.clearFlags m).win = g.win := rfl
@[simp] theorem Group.clearFlags_scal (g : Group) (m : BitVec 12) : (g.clearFlags m).scal = g.scal := rfl
@[simp] theorem Group.clearFlags_masks (g : Group) (m : BitVec 12) : (g.clearFlags m).masks = g.masks := rfl
@[simp] theorem Group.clearFlags_lc0 (g : Group) (m : BitVec 12) : (g.clearFlags m).lc0 = g.lc0 := rfl
@[simp] theorem Group.clearFlags_lc1 (g : Group) (m : BitVec 12) : (g.clearFlags m).lc1 = g.lc1 := rfl
@[simp] theorem Group.clearFlags_lc2 (g : Group) (m : BitVec 12) : (g.clearFlags m).lc2 = g.lc2 := rfl
@[simp] theorem Group.clearFlags_lc3 (g : Group) (m : BitVec 12) : (g.clearFlags m).lc3 = g.lc3 := rfl
@[simp] theorem Group.clearFlags_carry (g : Group) (m : BitVec 12) : (g.clearFlags m).carry = g.carry := rfl
@[simp] theorem Group.clearFlags_prec (g : Group) (m : BitVec 12) : (g.clearFlags m).prec = g.prec := rfl
@[simp] theorem Group.clearFlags_fpst (g : Group) (m : BitVec 12) : (g.clearFlags m).fpst = g.fpst := rfl
@[simp] theorem Group.clearFlags_flags (g : Group) (m : BitVec 12) : (g.clearFlags m).flags = g.flags &&& ~~~m := rfl
@[simp] theorem Group.clearFlags_sealedCnt (g : Group) (m : BitVec 12) : (g.clearFlags m).sealedCnt = g.sealedCnt := rfl
@[simp] theorem Group.clearFlags_finishedCnt (g : Group) (m : BitVec 12) : (g.clearFlags m).finishedCnt = g.finishedCnt := rfl
@[simp] theorem Group.clearFlags_hang (g : Group) (m : BitVec 12) : (g.clearFlags m).hang = g.hang := rfl
@[simp] theorem Group.clearFlags_trace (g : Group) (m : BitVec 12) : (g.clearFlags m).trace = g.trace := rfl
@[simp] theorem Group.clearFlags_since (g : Group) (m : BitVec 12) : (g.clearFlags m).since = g.since := rfl
@[simp] theorem Group.clearFlags_run (g : Group) (m : BitVec 12) : (g.clearFlags m).run = g.run := rfl
@[simp] theorem Group.clearFlags_park (g : Group) (m : BitVec 12) : (g.clearFlags m).park = g.park := rfl
@[simp] theorem Group.clearFlags_order (g : Group) (m : BitVec 12) : (g.clearFlags m).order = g.order := rfl
@[simp] theorem Group.clearFlags_yielded (g : Group) (m : BitVec 12) : (g.clearFlags m).yielded = g.yielded := rfl
@[simp] theorem Group.clearFlags_jumped (g : Group) (m : BitVec 12) : (g.clearFlags m).jumped = g.jumped := rfl
@[simp] theorem Group.clearFlags_pushes (g : Group) (m : BitVec 12) : (g.clearFlags m).pushes = g.pushes := rfl
@[simp] theorem Group.clearFlags_touched (g : Group) (m : BitVec 12) : (g.clearFlags m).touched = g.touched := rfl
@[simp] theorem Group.clearFlags_last (g : Group) (m : BitVec 12) : (g.clearFlags m).last = g.last := rfl
@[simp] theorem Group.clearFlags_saved (g : Group) (m : BitVec 12) : (g.clearFlags m).saved = g.saved := rfl
@[simp] theorem Group.clearFlags_freed (g : Group) (m : BitVec 12) : (g.clearFlags m).freed = g.freed := rfl
@[simp] theorem Group.clearFlags_fetch (g : Group) (m : BitVec 12) : (g.clearFlags m).fetch = g.fetch := rfl
@[simp] theorem Group.clearFlags_hung (g : Group) (m : BitVec 12) : (g.clearFlags m).hung = g.hung := rfl

/-! ## Lookups -/

theorem find_map_same {α : Type} (key : α → Nat) (l : List α) (x : α) (h : (l.find? fun y => key y == key x).isSome) :
    ((l.map fun y => if key y == key x then x else y).find? fun y => key y == key x) = some x := by
  induction l with
  | nil => simp at h
  | cons y t ih =>
    rw [List.map_cons, List.find?_cons]
    by_cases hy : key y = key x
    · simp [hy]
    · have hb : (key y == key x) = false := by simpa using hy
      rw [List.find?_cons, hb] at h
      simp only [hb, Bool.false_eq_true, if_false]
      exact ih h

theorem find_map_other {α : Type} (key : α → Nat) (l : List α) (x : α) {k : Nat} (h : key x ≠ k) :
    ((l.map fun y => if key y == key x then x else y).find? fun y => key y == k) = l.find? fun y => key y == k := by
  have hx : (key x == k) = false := by simpa using h
  induction l with
  | nil => rfl
  | cons y t ih =>
    rw [List.map_cons, List.find?_cons, List.find?_cons, ih]
    by_cases hy : key y = key x
    · simp only [hy, beq_self_eq_true, if_true, hx]
    · simp only [beq_eq_false_iff_ne.2 hy, Bool.false_eq_true, if_false]

theorem State.group?_setGroup_same {s : State} {g : Group} (h : (s.group? g.gid).isSome) :
    (s.setGroup g).group? g.gid = some g := find_map_same Group.gid s.groups g h

theorem State.group?_setGroup_other {s : State} {g : Group} {k : Nat} (h : g.gid ≠ k) :
    (s.setGroup g).group? k = s.group? k := find_map_other Group.gid s.groups g h

theorem State.group?_gid {s : State} {k : Nat} {g : Group} (h : s.group? k = some g) : g.gid = k := by
  have := List.find?_some h
  simpa using this

theorem State.op?_setOp_same {s : State} {o : Op} (h : (s.op? o.id).isSome) : (s.setOp o).op? o.id = some o :=
  find_map_same Op.id s.ops o h

theorem State.op?_setOp_other {s : State} {o : Op} {k : Nat} (h : o.id ≠ k) : (s.setOp o).op? k = s.op? k :=
  find_map_other Op.id s.ops o h

theorem State.op?_id {s : State} {k : Nat} {o : Op} (h : s.op? k = some o) : o.id = k := by
  have := List.find?_some h
  simpa using this

@[simp] theorem State.team?_setGroup (s : State) (g : Group) (k : Nat) : (s.setGroup g).team? k = s.team? k := rfl
@[simp] theorem State.grid?_setGroup (s : State) (g : Group) (k : W64) : (s.setGroup g).grid? k = s.grid? k := rfl
@[simp] theorem State.op?_setGroup (s : State) (g : Group) (k : Nat) : (s.setGroup g).op? k = s.op? k := rfl
@[simp] theorem State.group?_setOp (s : State) (o : Op) (k : Nat) : (s.setOp o).group? k = s.group? k := rfl
@[simp] theorem State.team?_setOp (s : State) (o : Op) (k : Nat) : (s.setOp o).team? k = s.team? k := rfl
@[simp] theorem State.grid?_setOp (s : State) (o : Op) (k : W64) : (s.setOp o).grid? k = s.grid? k := rfl
@[simp] theorem State.group?_addOp (s : State) (o : Op) (k : Nat) : (s.addOp o).group? k = s.group? k := rfl
@[simp] theorem State.team?_addOp (s : State) (o : Op) (k : Nat) : (s.addOp o).team? k = s.team? k := rfl
@[simp] theorem State.grid?_addOp (s : State) (o : Op) (k : W64) : (s.addOp o).grid? k = s.grid? k := rfl

theorem State.queue_setQueue_same (s : State) (q : Nat) (h : HQueue) (hq : q < s.queues.length) :
    (s.setQueue q h).queue q = h := by
  simp [State.queue, State.setQueue, hq]

theorem State.queue_setQueue_other (s : State) {q k : Nat} (h : HQueue) (hk : q ≠ k) :
    (s.setQueue q h).queue k = s.queue k := by
  simp [State.queue, State.setQueue, List.getD_eq_getElem?_getD, hk]


end Sys2Proof.Machine
end

