-- ==== Sys2Proof/Laws/Lane.lean ====
section
/-!
SUPPORT. Laws of a word's completion in order: what the advance of a clause can change, and what a result writes.
-/

namespace Sys2Proof.Machine

/-! ## The advance -/

theorem find_map_gid (l : List Group) (f : Group → Group) (hf : ∀ g, (f g).gid = g.gid) (k : Nat) :
    (l.map f).find? (fun g => g.gid == k) = (l.find? fun g => g.gid == k).map f := by
  induction l with
  | nil => rfl
  | cons g t ih =>
    rw [List.map_cons, List.find?_cons, List.find?_cons, hf, ih]
    cases g.gid == k <;> rfl

theorem State.group?_requeue (s : State) (gid core quad : Nat) (b : Bool) (k : Nat) :
    ((s.requeue gid core quad b).group? k).map Group.unplaced = (s.group? k).map Group.unplaced := by
  unfold State.requeue
  dsimp only
  split
  · rfl
  · unfold State.group?
    dsimp only
    rw [find_map_gid]
    · rw [Option.map_map]
      congr 1
      funext g
      simp only [Function.comp]
      split
      · rfl
      · split <;> rfl
    · intro g
      split
      · rfl
      · split <;> rfl

theorem State.requeue_only (s : State) (gid core quad : Nat) (b : Bool) :
    s.requeue gid core quad b = { s with groups := (s.requeue gid core quad b).groups } := by
  unfold State.requeue
  dsimp only
  split <;> rfl

theorem State.settleExit_only (s : State) (gid : Nat) :
    s.settleExit gid = { s with groups := (s.settleExit gid).groups } := by
  unfold State.settleExit
  split
  · rfl
  · split <;> rfl

theorem State.group?_settleExit_other (s : State) (gid k : Nat) (h : k ≠ gid) :
    (s.settleExit gid).group? k = s.group? k := by
  unfold State.settleExit
  split
  · rfl
  · next g hg =>
    split
    · exact State.group?_setGroup_other (by rw [State.group?_gid hg]; exact fun e => h e.symm)
    · rfl

theorem State.group?_settleExit_same (s : State) (gid : Nat) (g : Group) (h : s.group? gid = some g) :
    ∃ u, (s.settleExit gid).group? gid = some u ∧ { u with st := g.st, since := g.since } = g := by
  unfold State.settleExit
  rw [h]
  dsimp only
  have hg := State.group?_gid h
  split
  · refine ⟨{ g with st := .exited, since := none }, ?_, rfl⟩
    subst hg
    exact State.group?_setGroup_same (g := { g with st := .exited, since := none }) (by rw [h]; rfl)
  · exact ⟨g, h, rfl⟩

/-- The idle flags are among those the clause sets. -/
theorem State.idleFlags_sub (s : State) (gid : Nat) (h : Header) (f : BitVec 12) :
    (f &&& ~~~s.idleFlags gid h) &&& ~~~setMask h = f &&& ~~~setMask h := by
  unfold State.idleFlags setMask
  generalize flagMask h.setA = a
  generalize flagMask h.setB = b
  ext i hi
  have z : (0 : BitVec 12)[i] = false := by simp
  split <;> split <;>
    simp only [BitVec.getElem_and, BitVec.getElem_not, BitVec.getElem_or, z] <;>
    cases f[i] <;> cases a[i] <;> cases b[i] <;> rfl

/-- So are those of them with nothing more to wait for. -/
theorem State.doneFlags_sub (s : State) (gid : Nat) (r : Run) (f : BitVec 12) :
    (f &&& ~~~s.doneFlags gid r) &&& ~~~setMask r.hdr = f &&& ~~~setMask r.hdr := by
  have h := State.idleFlags_sub s gid r.hdr f
  unfold State.doneFlags
  generalize s.idleFlags gid r.hdr = a at h ⊢
  generalize setMask r.hdr = m at h ⊢
  generalize r.awaited = w
  ext i hi
  have h := congrArg (fun x : BitVec 12 => x[i]) h
  simp only [BitVec.getElem_and, BitVec.getElem_not] at h ⊢
  revert h
  cases f[i] <;> cases a[i] <;> cases m[i] <;> cases w[i] <;> decide

theorem State.endClause_done (s : State) (g : Group) (r : Run) (target : Nat → BitVec 48) (j : W32)
    (hs : (s.group? g.gid).isSome) :
    s.endClause g r target j = { s with groups := (s.endClause g r target j).groups } ∧
    (∀ i, i ≠ g.gid → ((s.endClause g r target j).group? i).map Group.unplaced = (s.group? i).map Group.unplaced) ∧
    ∃ u, (s.endClause g r target j).group? g.gid = some u ∧ u.kept = g.kept ∧
      u.flags &&& ~~~setMask r.hdr = g.flags &&& ~~~setMask r.hdr ∧ u.run = none ∧
      u.lpc = (laneList r.lanes).foldl (fun m l => Store.write m l (target l)) g.lpc := by
  obtain ⟨g1, hg1⟩ : ∃ g1, g1 = Group.clearFlags { g with
    lpc := (laneList r.lanes).foldl (fun m l => Store.write m l (target l)) g.lpc
    run := none
    jumped := (g.jumped &&& ~~~r.lanes) ||| (j &&& r.lanes)
    since := some s.ctl.ptc } (s.idleFlags g.gid r.hdr) := ⟨_, rfl⟩
  have e1 : g1.gid = g.gid := by subst hg1; rfl
  have e2 : g1.kept = g.kept := by subst hg1; rfl
  have e3 : g1.flags &&& ~~~setMask r.hdr = g.flags &&& ~~~setMask r.hdr := by
    subst hg1; exact State.idleFlags_sub s g.gid r.hdr g.flags
  have same : (s.setGroup g1).group? g.gid = some g1 := by
    have := State.group?_setGroup_same (s := s) (g := g1) (by rw [e1]; exact hs)
    rwa [e1] at this
  obtain ⟨s1, hs1⟩ : ∃ s1, s1 = (match (s.setGroup g1).team? g1.team with
    | some t => (s.setGroup g1).requeue g1.gid t.core g1.quad (r.hdr.yield && g1.yielded)
    | none => s.setGroup g1) := ⟨_, rfl⟩
  have hE : s.endClause g r target j = s1.settleExit g.gid := by
    rw [← e1]; subst hs1 hg1; rfl
  have r1 : s1 = { s with groups := s1.groups } := by
    subst hs1
    split
    · exact State.requeue_only _ _ _ _ _
    · rfl
  have r2 : ∀ k, (s1.group? k).map Group.unplaced = ((s.setGroup g1).group? k).map Group.unplaced := by
    intro k
    subst hs1
    split
    · exact State.group?_requeue _ _ _ _ _ _
    · rfl
  obtain ⟨u1, hu1, hk1⟩ : ∃ u, s1.group? g.gid = some u ∧ u.unplaced = g1.unplaced := by
    have h2 := r2 g.gid
    rw [same, Option.map_some] at h2
    cases h : s1.group? g.gid with
    | none => rw [h] at h2; simp at h2
    | some u => rw [h, Option.map_some] at h2; exact ⟨u, rfl, Option.some.inj h2⟩
  rw [hE]
  refine ⟨?_, fun i hi => ?_, ?_⟩
  · exact (State.settleExit_only s1 g.gid).trans
      (congrArg (fun z : State => { z with groups := (s1.settleExit g.gid).groups }) r1)
  · rw [State.group?_settleExit_other _ _ _ hi, r2 i, State.group?_setGroup_other (by rw [e1]; exact fun e => hi e.symm)]
  · obtain ⟨u, hu, hk⟩ := State.group?_settleExit_same s1 g.gid u1 hu1
    have k0 : u.kept = u1.kept := by have := congrArg Group.kept hk; exact this
    have k1 : u1.kept = g1.kept := by have := congrArg Group.kept hk1; exact this
    have f0 : u.flags = u1.flags := by have := congrArg Group.flags hk; exact this
    have f1 : u1.flags = g1.flags := by have := congrArg Group.flags hk1; exact this
    have r0 : u.run = u1.run := by have := congrArg Group.run hk; exact this
    have r1 : u1.run = g1.run := by have := congrArg Group.run hk1; exact this
    have l0 : u.lpc = u1.lpc := by have := congrArg Group.lpc hk; exact this
    have l1 : u1.lpc = g1.lpc := by have := congrArg Group.lpc hk1; exact this
    exact ⟨u, hu, by rw [k0, k1, e2], by rw [f0, f1, e3], by rw [r0, r1, hg1]; rfl, by rw [l0, l1, hg1]; rfl⟩

/-- The advance of a clause changes the groups alone: the group's own sequence, and places in the issue list. -/
theorem State.advance_done (s : State) (g : Group) (r : Run) (hs : (s.group? g.gid).isSome) :
    s.advance g r = { s with groups := (s.advance g r).groups } ∧
    (∀ i, i ≠ g.gid → ((s.advance g r).group? i).map Group.unplaced = (s.group? i).map Group.unplaced) ∧
    ∃ u, (s.advance g r).group? g.gid = some u ∧ u.kept = g.kept ∧
      u.flags &&& ~~~setMask r.hdr = g.flags &&& ~~~setMask r.hdr := by
  have plain : ∀ x : Run, x.hdr = r.hdr → s.goOn g x = { s with groups := (s.goOn g x).groups } ∧
      (∀ i, i ≠ g.gid → ((s.goOn g x).group? i).map Group.unplaced = (s.group? i).map Group.unplaced) ∧
      ∃ u, (s.goOn g x).group? g.gid = some u ∧ u.kept = g.kept ∧
        u.flags &&& ~~~setMask r.hdr = g.flags &&& ~~~setMask r.hdr := fun x hx =>
    let h : Group := ({ g with run := some x, since := none } : Group).clearFlags (s.doneFlags g.gid x)
    ⟨rfl, fun i hi => congrArg _ (State.group?_setGroup_other (g := h) (fun e => hi e.symm)), h,
      State.group?_setGroup_same (g := h) hs, rfl, by rw [← hx]; exact State.doneFlags_sub s g.gid x g.flags⟩
  unfold State.advance
  dsimp only
  repeat' split
  all_goals first
    | exact plain _ rfl
    | (obtain ⟨a1, a2, u, a3, a4, a5, -⟩ := State.endClause_done s g r _ _ hs; exact ⟨a1, a2, u, a3, a4, a5⟩)

/-! ## The running word -/

/-- What the surroundings of a running word are. -/
theorem State.envOf_some {s : State} {gid : Nat} {e : Env} (h : s.envOf gid = some e) :
    s.group? gid = some e.g ∧ e.g.gid = gid ∧ e.g.run = some e.r ∧ s.team? e.g.team = some e.t ∧
      s.grid? e.t.grid = some e.gr ∧ e.g.st = .ready := by
  unfold State.envOf at h
  split at h
  · simp at h
  · next g hg =>
    split at h
    · next r t hr ht =>
      split at h
      · next gr hgr =>
        split at h
        · next hst =>
          obtain rfl := Option.some.inj h
          simp only [Bool.and_eq_true, beq_iff_eq] at hst
          exact ⟨hg, State.group?_gid hg, hr, ht, hgr, hst.1⟩
        · simp at h
      · simp at h
    · simp at h

theorem withEnv_some {s : State} {e : Env} (h : s.envOf s.focus = some e) (f : Env → Out) : withEnv s f = f e := by
  unfold withEnv
  rw [h]

/-- A word that completes in order. -/
theorem wordDone_done {s : State} {e : Env} (he : s.envOf s.focus = some e) (g : Group) (hg : g.gid = e.g.gid)
    (hf : g.flags = e.g.flags) : ∃ t, wordDone s e g = .next t ∧ Done s e t g := by
  obtain ⟨h1, h2, -⟩ := State.envOf_some he
  have hs : (s.group? g.gid).isSome := by rw [hg, h2, h1]; rfl
  obtain ⟨a1, a2, u, a3, a4, a5⟩ := State.advance_done s g e.r hs
  rw [hg, h2] at a2 a3
  exact ⟨_, rfl, ⟨a1, a2⟩, u, a3, a4, by rw [a5, hf]⟩

/-! ## Results -/

theorem mem_laneList {m : W32} {l : Nat} : l ∈ laneList m ↔ l < 32 ∧ m.getLsbD l = true := by
  simp [laneList]

theorem winKey_inj {n m : BitVec 5} {w v l j : Nat} (hw : w < 9) (hv : v < 9) (hl : l < 32) (hj : j < 32)
    (h : winKey n w l = winKey m v j) : n = m ∧ w = v ∧ l = j := by
  unfold winKey at h
  have : n.toNat = m.toNat ∧ w = v ∧ l = j := by omega
  exact ⟨BitVec.eq_of_toNat_eq this.1, this.2⟩

/-- A fold of writes at a key for each lane of a list. -/
theorem Store.read_foldl_write {w : Nat} (ls : List Nat) (key : Nat → Nat) (v : Nat → BitVec w) (m : Store w) (j : Nat)
    (inj : ∀ a ∈ ls, ∀ b ∈ ls, key a = key b → a = b) :
    Store.read (ls.foldl (fun m l => Store.write m (key l) (v l)) m) j =
      match ls.find? fun l => key l == j with
      | some l => v l
      | none => Store.read m j := by
  induction ls generalizing m with
  | nil => rfl
  | cons a t ih =>
    rw [List.foldl_cons, ih _ fun x hx y hy => inj x (by simp [hx]) y (by simp [hy]), List.find?_cons]
    by_cases hj : key a = j
    · rw [show (key a == j) = true by simpa using hj]
      cases hf : t.find? fun l => key l == j with
      | none => subst hj; exact Store.read_write_same _ _ _
      | some b =>
        have hb := List.find?_some hf
        have hm := List.mem_of_find?_eq_some hf
        have : a = b := inj a (by simp) b (by simp [hm]) (by rw [hj]; exact (by simpa using hb : key b = j).symm)
        rw [this]
    · rw [show (key a == j) = false by simpa using hj]
      cases hf : t.find? fun l => key l == j with
      | none => exact Store.read_write_other _ _ hj
      | some b => rfl

theorem Group.winWord_setWin (g : Group) (ex : W32) (n m : BitVec 5) (w u l : Nat) (v : Nat → W32) (hw : w < 9)
    (hu : u < 9) (hl : l < 32) :
    (g.setWin ex n w v).winWord m u l = if m = n ∧ u = w ∧ ex.getLsbD l = true then v l else g.winWord m u l := by
  unfold Group.winWord Group.setWin
  dsimp only
  rw [Store.read_foldl_write]
  · by_cases h : m = n ∧ u = w ∧ ex.getLsbD l = true
    · obtain ⟨rfl, rfl, hx⟩ := h
      have : (laneList ex).find? (fun j => winKey m u j == winKey m u l) = some l := by
        cases hf : (laneList ex).find? (fun j => winKey m u j == winKey m u l) with
        | none =>
          have := List.find?_eq_none.1 hf l (mem_laneList.2 ⟨hl, hx⟩)
          simp at this
        | some j =>
          have h1 := List.find?_some hf
          have h2 := mem_laneList.1 (List.mem_of_find?_eq_some hf)
          rw [(winKey_inj hu hu h2.1 hl (by simpa using h1)).2.2]
      rw [this]
      simp [hx]
    · have : (laneList ex).find? (fun j => winKey n w j == winKey m u l) = none := by
        rw [List.find?_eq_none]
        intro j hj he
        have hj := mem_laneList.1 hj
        obtain ⟨h1, h2, h3⟩ := winKey_inj hw hu hj.1 hl (by simpa using he)
        exact h ⟨h1.symm, h2.symm, h3 ▸ hj.2⟩
      rw [this, if_neg h]
  · intro a ha b hb hk
    exact (winKey_inj hw hw (mem_laneList.1 ha).1 (mem_laneList.1 hb).1 hk).2.2

theorem Group.age_zero_push (g : Group) (ex : W32) (v : Nat → W64) (l : Nat) (hl : l < 32) :
    (g.push ex v).age 0 l = if ex.getLsbD l then v l else g.age 0 l := by
  unfold Group.age
  rw [Group.push_queue, List.getD_cons_zero, Store.read_ofLanes, if_pos hl]
  rfl

theorem Group.age_succ_push (g : Group) (ex : W32) (v : Nat → W64) (a l : Nat) (ha : a < 15) :
    (g.push ex v).age (a + 1) l = g.age a l := by
  show Store.read ((g.queue.take 15).getD a []) l = Store.read (g.queue.getD a []) l
  simp [List.getD_eq_getElem?_getD, ha]

/-- One result, as its readers see it. -/
theorem Group.result_wrote (g : Group) (ex : W32) (d : Dst) (wide : Bool) (v : Nat → W64) :
    Wrote g (g.result ex d wide v) ex d wide v := by
  unfold Group.result Group.writeDst
  cases d with
  | queue =>
    exact { newest := fun l hl => g.age_zero_push ex v l hl
            older := fun a l ha => g.age_succ_push ex v a l ha
            win := fun n w l hw hl => by simp; rfl
            scal := fun n => by cases lowestLane ex <;> simp
            rest := rfl }
  | w m =>
    dsimp only
    have hwin : ∀ n w l, w < 9 → l < 32 →
        (if wide then ((g.push ex v).setWin ex m 0 fun l => (v l).setWidth 32).setWin ex m 1
            fun l => (v l).extractLsb' 32 32
          else (g.push ex v).setWin ex m 0 fun l => (v l).setWidth 32).winWord n w l =
        if Dst.w m = .w n ∧ ex.getLsbD l = true ∧ w = 0 then (v l).setWidth 32
        else if Dst.w m = .w n ∧ ex.getLsbD l = true ∧ w = 1 ∧ wide = true then (v l).extractLsb' 32 32
        else g.winWord n w l := by
      intro n w l hw hl
      have hp : (g.push ex v).winWord n w l = g.winWord n w l := rfl
      have hc : (Dst.w m = Dst.w n) ↔ n = m := by simp [eq_comm]
      simp only [hc]
      cases wide with
      | true =>
        rw [if_pos rfl, Group.winWord_setWin _ _ _ _ _ _ _ _ (by omega) hw hl,
          Group.winWord_setWin _ _ _ _ _ _ _ _ (by omega) hw hl, hp]
        by_cases h0 : w = 0
        · subst h0; simp
        · by_cases h1 : w = 1
          · subst h1; simp
          · simp [h0, h1]
      | false =>
        simp only [Bool.false_eq_true, if_false, and_false]
        rw [Group.winWord_setWin _ _ _ _ _ _ _ _ (by omega) hw hl, hp]
        grind
    refine { newest := fun l hl => ?_, older := fun a l ha => ?_, win := hwin, scal := fun n => ?_, rest := ?_ }
    · rw [← g.age_zero_push ex v l hl]; cases wide <;> rfl
    · rw [← g.age_succ_push ex v a l ha]; cases wide <;> rfl
    · cases wide <;> cases lowestLane ex <;> simp
    · cases wide <;> rfl
  | s m =>
    dsimp only
    cases hl : lowestLane ex with
    | none =>
      exact { newest := fun l hl => g.age_zero_push ex v l hl
              older := fun a l ha => g.age_succ_push ex v a l ha
              win := fun n w l hw hl => by simp; rfl
              scal := fun n => by simp [hl]
              rest := rfl }
    | some j =>
      refine { newest := fun l hl => g.age_zero_push ex v l hl
               older := fun a l ha => g.age_succ_push ex v a l ha
               win := fun n w l hw hl => by simp; rfl
               scal := fun n => ?_
               rest := rfl }
      rw [hl]
      dsimp only
      rw [Group.setScal_scal, Group.push_scal, Store.read_write]
      have : (m.toNat = n.toNat) ↔ (Dst.s m = Dst.s n) := by
        rw [Dst.s.injEq]
        exact ⟨BitVec.eq_of_toNat_eq, congrArg _⟩
      simp only [this]

theorem Group.result_gid (g : Group) (ex : W32) (d : Dst) (wide : Bool) (v : Nat → W64) :
    (g.result ex d wide v).gid = g.gid := by
  have := congrArg Group.gid (g.result_wrote ex d wide v).rest
  exact this

theorem Group.result_flags (g : Group) (ex : W32) (d : Dst) (wide : Bool) (v : Nat → W64) :
    (g.result ex d wide v).flags = g.flags := by
  have := congrArg Group.flags (g.result_wrote ex d wide v).rest
  exact this

theorem read_foldl_lanes {w : Nat} (m : Store w) (ex : W32) (v : Nat → BitVec w) (l : Nat) (hl : l < 32) :
    Store.read ((laneList ex).foldl (fun m j => Store.write m j (v j)) m) l =
      if ex.getLsbD l then v l else Store.read m l := by
  rw [Store.read_foldl_write (laneList ex) (fun j => j) v m l fun a _ b _ h => h]
  cases hf : (laneList ex).find? fun j => j == l with
  | none =>
    have := List.find?_eq_none.1 hf l
    rw [mem_laneList] at this
    simp only [hl, true_and, beq_self_eq_true, not_true_eq_false, imp_false] at this
    rw [if_neg this]
  | some j =>
    have h1 := List.find?_some hf
    have h2 := mem_laneList.1 (List.mem_of_find?_eq_some hf)
    obtain rfl : j = l := by simpa using h1
    rw [if_pos h2.2]

/-- A control transfer, as the readers of the LPCs see it. -/
theorem endClause_transferred {s : State} {e : Env} (he : s.envOf s.focus = some e) (h : Group) (hg : h.gid = e.g.gid)
    (hf : h.flags = e.g.flags) (hl : h.lpc = e.g.lpc) (target : Nat → BitVec 48) (j : W32) :
    Transferred s e (s.endClause h e.r target j) h target := by
  obtain ⟨h1, h2, -⟩ := State.envOf_some he
  obtain ⟨a1, a2, u, a3, a4, a5, a6, a7⟩ := State.endClause_done s h e.r target j (by rw [hg, h2, h1]; rfl)
  rw [hg, h2] at a2 a3
  refine ⟨⟨a1, a2⟩, u, a3, a4, a6, by rw [a5, hf], fun l hl2 => ?_⟩
  rw [a7, hl, read_foldl_lanes _ _ _ _ hl2]

/-- A word whose every executing lane gets a value of its own completes in order. -/
theorem laneOp_completes {s : State} {e : Env} (he : s.envOf s.focus = some e) (k : BitVec 3) (d : Dst) (wide : Bool)
    (v : Env → Nat → W64) :
    ∃ t h, laneOp s k d wide v = .next t ∧ Done s e t h ∧ Wrote e.g h (e.lanes k) d wide (v e) := by
  unfold laneOp
  rw [withEnv_some he]
  obtain ⟨t, h1, h2⟩ := wordDone_done he (e.g.result (e.lanes k) d wide (v e)) (Group.result_gid ..) (Group.result_flags ..)
  exact ⟨t, _, h1, h2, Group.result_wrote ..⟩

end Sys2Proof.Machine
end

