-- ==== Sys2Proof/Laws/Float.lean ====
section
/-!
SUPPORT. Laws of floating-point words: what raising exceptions leaves, and a word of chapter 04 that does not trap.
-/

namespace Sys2Proof.Machine

theorem laneMask_bit (f : Nat → Bool) (l : Nat) : (laneMask f).getLsbD l = (decide (l < 32) && f l) := by
  unfold laneMask
  rw [BitVec.getLsbD_ofNat, testBit_natOfBits]
  cases decide (l < 32) <;> simp

/-- Raising exceptions changes FPST alone, in the lanes of the set. -/
theorem Group.raiseAll_spec (g : Group) (ex : W32) (x : Nat → W32) :
    { g.raiseAll ex x with fpst := g.fpst } = g ∧ Raised g (g.raiseAll ex x).fpst ex x := by
  have key : ∀ (ls : List Nat) (g : Group), ls.Nodup →
      { ls.foldl (fun h l => h.raise l (x l)) g with fpst := g.fpst } = g ∧
      ∀ j, Store.read (ls.foldl (fun h l => h.raise l (x l)) g).fpst j =
        if j ∈ ls then Store.read g.fpst j ||| x j else Store.read g.fpst j := by
    intro ls
    induction ls with
    | nil => intro g _; exact ⟨rfl, fun j => by simp⟩
    | cons l t ih =>
      intro g hn
      obtain ⟨hl, ht⟩ := List.nodup_cons.1 hn
      obtain ⟨h1, h2⟩ := ih (g.raise l (x l)) ht
      have r1 : { g.raise l (x l) with fpst := g.fpst } = g := by unfold Group.raise; split <;> rfl
      have r2 : ∀ j, Store.read (g.raise l (x l)).fpst j = if j = l then Store.read g.fpst j ||| x j else Store.read g.fpst j := by
        intro j
        unfold Group.raise
        split
        · next hz =>
          split
          · next hj => subst hj; rw [hz]; simp
          · rfl
        · dsimp only
          rw [Store.read_write]
          by_cases hj : l = j
          · subst hj; simp
          · rw [if_neg hj, if_neg fun e => hj e.symm]
      rw [List.foldl_cons]
      refine ⟨?_, fun j => ?_⟩
      · have := congrArg (fun z : Group => { z with fpst := g.fpst }) h1
        exact this.trans r1
      · rw [h2, r2]
        by_cases hj : j = l
        · subst hj; simp [hl]
        · simp [hj]
  have hnd : (laneList ex).Nodup := List.Nodup.filter _ List.nodup_range
  obtain ⟨h1, h2⟩ := key (laneList ex) g hnd
  refine ⟨h1, fun l hl => ?_⟩
  unfold Group.raiseAll
  rw [h2]
  simp only [mem_laneList, hl, true_and]

/-- A result depends on the values of the executing lanes alone. -/
theorem Wrote.congr {g h : Group} {ex : W32} {d : Dst} {wide : Bool} {v u : Nat → W64} (w : Wrote g h ex d wide v)
    (e : ∀ l, l < 32 → ex.getLsbD l = true → v l = u l) : Wrote g h ex d wide u where
  newest l hl := by
    rw [w.newest l hl]
    by_cases hx : ex.getLsbD l = true
    · rw [if_pos hx, if_pos hx, e l hl hx]
    · rw [if_neg hx, if_neg hx]
  older := w.older
  win n k l hk hl := by
    rw [w.win n k l hk hl]
    by_cases hx : ex.getLsbD l = true
    · rw [e l hl hx]
    · simp [hx]
  scal n := by
    rw [w.scal n]
    cases hl : lowestLane ex with
    | none => rfl
    | some l =>
      have := mem_laneList.1 (List.mem_of_mem_head? (show l ∈ (laneList ex).head? from hl))
      simp only [e l this.1 this.2]
  rest := w.rest

/-- A word of chapter 04 whose lanes raise no enabled exception. -/
theorem fpWord_completes {s : State} {e : Env} (he : s.envOf s.focus = some e) {i : Instr} {k : BitVec 3} {d : Dst}
    {wide : Bool} {v : Env → Nat → W64 × W32} (hi : exec i s = fpWord s k d wide v)
    (ht : ¬e.fpTrap (e.lanes k) fun l => (v e l).2) :
    ∃ t h, exec i s = .next t ∧ Done s e t h ∧ Raised e.g h.fpst (e.lanes k) (fun l => (v e l).2) ∧
      Wrote { e.g with fpst := h.fpst } h (e.lanes k) d wide fun l => (v e l).1 := by
  unfold fpWord at hi
  rw [withEnv_some he] at hi
  dsimp only at hi
  have h0 : e.lanes k &&& laneMask (fun l => e.g.enabled l (v e l).2 != 0) = 0 := by
    by_contra hc
    apply ht
    have : ∃ l, (e.lanes k &&& laneMask (fun l => e.g.enabled l (v e l).2 != 0)).getLsbD l = true := by
      by_contra hn
      push Not at hn
      apply hc
      ext i hi
      have := hn i
      rw [← BitVec.getLsbD_eq_getElem, Bool.not_eq_true _ |>.mp this]
      simp
    obtain ⟨l, hl⟩ := this
    rw [BitVec.getLsbD_and, laneMask_bit] at hl
    simp only [Bool.and_eq_true, decide_eq_true_eq, bne_iff_ne] at hl
    exact ⟨l, hl.2.1, hl.1, hl.2.2⟩
  rw [if_pos h0] at hi
  obtain ⟨r1, r2⟩ := e.g.raiseAll_spec (e.lanes k) fun l => (v e l).2
  generalize Group.raiseAll e.g (e.lanes k) (fun l => (v e l).2) = g at hi r1 r2
  have w := g.result_wrote (e.lanes k) d wide fun l => (v e l).1
  obtain ⟨t, h1, h2⟩ := wordDone_done he (g.result (e.lanes k) d wide fun l => (v e l).1)
    ((Group.result_gid ..).trans (by have := congrArg Group.gid r1; exact this))
    ((Group.result_flags ..).trans (by have := congrArg Group.flags r1; exact this))
  have hf : (g.result (e.lanes k) d wide fun l => (v e l).1).fpst = g.fpst := by
    have := congrArg Group.fpst w.rest; exact this
  refine ⟨t, _, by rw [hi, h1], h2, by rw [hf]; exact r2, ?_⟩
  have : { e.g with fpst := (g.result (e.lanes k) d wide fun l => (v e l).1).fpst } = g := by
    rw [hf]
    have := congrArg (fun z : Group => { z with fpst := g.fpst }) r1
    exact this.symm
  rw [this]
  exact w

end Sys2Proof.Machine
end

