-- ==== Sys2Proof/Laws/Mem.lean ====
section
/-!
SUPPORT. Laws of memory: the operations that change it keep its canonical form, and what each leaves in every byte.
-/

namespace Sys2Proof.Machine

/-- Folding operations that keep the form keeps it. -/
theorem wf_foldl {α : Type} (f : State → α → State) (hf : ∀ s a, Memory.wf s.mem = true → Memory.wf (f s a).mem = true)
    (l : List α) (s : State) (h : Memory.wf s.mem = true) : Memory.wf (l.foldl f s).mem = true := by
  induction l generalizing s with
  | nil => exact h
  | cons a t ih => exact ih _ (hf s a h)

/-- Folding operations that leave memory alone leaves it alone. -/
theorem mem_foldl {α : Type} (f : State → α → State) (hf : ∀ s a, (f s a).mem = s.mem) (l : List α) (s : State) :
    (l.foldl f s).mem = s.mem := by
  induction l generalizing s with
  | nil => rfl
  | cons a t ih => exact (ih _).trans (hf s a)

theorem reset_mem_wf : Memory.wf State.reset.mem = true := rfl

/-! ## Bytes -/

theorem State.putBytes_wf (s : State) (key : Nat) (l : List Byte) (h : Memory.wf s.mem = true) :
    Memory.wf (s.putBytes key l).mem = true := Store.wf_writeList l s.mem key h

theorem State.putLe_wf (s : State) (key n v : Nat) (h : Memory.wf s.mem = true) : Memory.wf (s.putLe key n v).mem = true :=
  s.putBytes_wf _ _ h

theorem State.putBytes_out (s : State) (key : Nat) (l : List Byte) (y : Nat) (h : y < key ∨ key + l.length ≤ y) :
    Store.read (s.putBytes key l).mem y = Store.read s.mem y := Store.read_writeList_out l s.mem key y h

theorem State.putBytes_in (s : State) (key : Nat) (l : List Byte) (i : Nat) (h : i < l.length) :
    Store.read (s.putBytes key l).mem (key + i) = l[i] := Store.read_writeList_in l s.mem key i h

/-! ## Lines -/

theorem State.writeBack_wf (s : State) (ln : L1Line) (h : Memory.wf s.mem = true) : Memory.wf (s.writeBack ln).mem = true := by
  have aux : ∀ (l : List (Nat × Byte)) (m : Mem), Memory.wf m = true →
      Memory.wf (l.foldl (fun m p => Store.write m (ln.blk + p.1) p.2) m) = true := by
    intro l
    induction l with
    | nil => exact fun _ h => h
    | cons p t ih => exact fun m h => ih _ (Store.wf_write _ _ _ h)
  exact aux _ _ h

@[simp] theorem State.setLine_mem (s : State) (ln : L1Line) : (s.setLine ln).mem = s.mem := rfl
@[simp] theorem State.dropLine_mem (s : State) (core blk : Nat) : (s.dropLine core blk).mem = s.mem := rfl
@[simp] theorem State.setDir_mem (s : State) (d : DirLine) : (s.setDir d).mem = s.mem := rfl
@[simp] theorem State.unmark_mem (s : State) (key : Nat) : (s.unmark key).mem = s.mem := rfl
@[simp] theorem State.mark_mem (s : State) (key : Nat) : (s.mark key).mem = s.mem := by unfold State.mark; split <;> rfl
@[simp] theorem State.dropSharers_mem (s : State) (blk core : Nat) (all : Bool) :
    (s.dropSharers blk core all).mem = s.mem := rfl

theorem State.evictLine_wf (s : State) (ln : L1Line) (h : Memory.wf s.mem = true) : Memory.wf (s.evictLine ln).mem = true := by
  unfold State.evictLine
  split <;> exact s.writeBack_wf ln h

theorem State.recallNow_wf (s : State) (blk : Nat) (h : Memory.wf s.mem = true) : Memory.wf (s.recallNow blk).mem = true := by
  unfold State.recallNow
  split
  · exact h
  · split
    · exact h
    · exact s.writeBack_wf _ h

theorem State.recallNow_none (s : State) (blk : Nat) (h : (s.dirOf blk).owner = none) : s.recallNow blk = s := by
  simp [State.recallNow, h]

theorem State.purge_wf (s : State) (blk : Nat) (h : Memory.wf s.mem = true) : Memory.wf (s.purge blk).mem = true :=
  s.recallNow_wf blk h

theorem State.dropFrame_wf (s : State) (lo n : Nat) (h : Memory.wf s.mem = true) : Memory.wf (s.dropFrame lo n).mem = true := by
  refine wf_foldl _ (fun s ln hs => ?_) _ _ h
  simp only [State.setDir_mem, State.dropLine_mem]
  split
  · exact s.writeBack_wf ln hs
  · exact hs

theorem State.recallRange_wf (s : State) (lo hi : Nat) (h : Memory.wf s.mem = true) :
    Memory.wf (s.recallRange lo hi).mem = true :=
  wf_foldl (fun (s : State) ln => (s.writeBack ln).setLine { ln with dirty := 0 }) (fun s ln hs => s.writeBack_wf ln hs) _ _ h

theorem State.addLine_wf (s : State) (ln : L1Line) (h : Memory.wf s.mem = true) : Memory.wf (s.addLine ln).mem = true := by
  unfold State.addLine
  split
  · exact h
  · rw [State.setLine_mem]
    exact wf_foldl State.evictLine (fun s ln hs => s.evictLine_wf ln hs) _ _ h

/-! ## Stores -/

theorem State.writePiece_wf (s : State) (key : Nat) (l : List Byte) (h : Memory.wf s.mem = true) :
    Memory.wf (s.writePiece key l).mem = true := by
  unfold State.writePiece
  simp only []
  split <;> exact s.putBytes_wf key l h

theorem State.homeStore_wf (s : State) (core key : Nat) (l : List Byte) (r : Req) (h : Memory.wf s.mem = true) :
    Memory.wf (s.homeStore core key l r).mem = true := by
  have keep : ∀ t : State, (State.homeStore.keepClean core key l t).mem = t.mem := by
    intro t; unfold State.homeStore.keepClean; split <;> rfl
  have own : ∀ blk, Memory.wf (State.homeStore.own core key l s blk).mem = true := fun blk =>
    State.addLine_wf _ _ h
  unfold State.homeStore
  simp only []
  split
  · exact s.writePiece_wf _ _ h
  · split
    · split
      · split
        · exact h
        · exact own _
      · exact own _
    · exact State.writePiece_wf _ _ _ (by rw [keep]; exact h)
    · refine State.writePiece_wf _ _ _ ?_
      repeat' split
      all_goals first | exact h | exact State.evictLine_wf _ _ h

theorem State.combineAt_wf (s : State) (r : Region) (key : Nat) (ws : List W32) (h : Memory.wf s.mem = true) :
    Memory.wf (s.combineAt r key ws).mem = true := s.putBytes_wf _ _ h

theorem State.putClasp_wf (s : State) (key : Nat) (c : Clasp) (h : Memory.wf s.mem = true) :
    Memory.wf (s.putClasp key c).mem = true := s.putBytes_wf _ _ h

theorem copyPut_wf (s : State) (o : Op) (p : Part) (key : Nat) (h : Memory.wf s.mem = true) :
    Memory.wf (copyPut s o p key).mem = true := by
  have start : Memory.wf (if isHbm key then s.dropSharers (blockOf key) noCore true else s).mem = true := by
    split <;> exact h
  have runs := wf_foldl (fun (s : State) (q : Nat × List Byte) => s.putBytes (key - p.addr.toNat % 64 + q.1) q.2)
    (fun s q hs => s.putBytes_wf _ _ hs) o.pieceBytes _ start
  have marked : ∀ (t : State) (b : Bool), Memory.wf t.mem = true → Memory.wf (if b then t.unmark key else t).mem = true := by
    intro t b ht; cases b <;> exact ht
  unfold copyPut
  simp only []
  split
  · exact State.putBytes_wf _ _ _ (marked _ _ runs)
  · exact marked _ _ runs

/-! ## The control die's own writes -/

theorem State.putWord_wf (s : State) (key : Nat) (v : W64) (h : Memory.wf s.mem = true) : Memory.wf (s.putWord key v).mem = true :=
  State.putLe_wf _ _ _ _ (s.purge_wf _ h)

theorem State.writeImage_wf (s : State) (dpa : Nat) (ps : List (Nat × List Byte)) (h : Memory.wf s.mem = true) :
    Memory.wf (s.writeImage dpa ps).mem = true :=
  wf_foldl _ (fun s _ hs => s.putBytes_wf _ _ hs) _ _ h

theorem State.writeBuffer_wf (s : State) (key : Nat) (l : List Byte) (h : Memory.wf s.mem = true) :
    Memory.wf (s.writeBuffer key l).mem = true :=
  State.putBytes_wf _ _ _ (wf_foldl _ (fun s _ hs => s.purge_wf _ hs) _ _ h)

theorem State.countLoss_wf (s : State) (n : BitVec 12) (h : Memory.wf s.mem = true) : Memory.wf (s.countLoss n).mem = true :=
  State.putLe_wf _ _ _ _ (s.purge_wf _ h)

theorem State.svcLog_wf (s : State) (kind detail : Nat) (addr arg : W64) (h : Memory.wf s.mem = true) :
    Memory.wf (s.svcLog kind detail addr arg).mem = true := by
  unfold State.svcLog
  simp only []
  split
  · exact h
  · split
    · exact h
    · exact State.putBytes_wf _ _ _ (s.purge_wf _ h)

theorem State.quiescePage_wf (s : State) (page : Nat) (h : Memory.wf s.mem = true) :
    Memory.wf (s.quiescePage page).mem = true :=
  wf_foldl _ (fun s _ hs => s.putWord_wf _ _ hs) _ _ h

theorem State.clearDie_wf (s : State) (die : Nat) (h : Memory.wf s.mem = true) : Memory.wf (s.clearDie die).mem = true :=
  Store.wf_clear _ _ _ (Store.wf_clear _ _ _ (Store.wf_clear _ _ _ h))

theorem State.resetLines_wf (s : State) (die : Nat) (fatal : Bool) (h : Memory.wf s.mem = true) :
    Memory.wf (s.resetLines die fatal).mem = true := by
  refine wf_foldl _ (fun s q hs => ?_) _ _ h
  split
  · exact State.svcLog_wf _ _ _ _ _ (by rw [State.mark_mem]; exact hs)
  · split
    · exact s.writeBack_wf _ hs
    · exact hs

theorem copyFrame_wf (s0 s : State) (src dst n : Nat) (h : Memory.wf s.mem = true) :
    Memory.wf (copyFrame s0 s src dst n).mem = true :=
  Store.wf_overlay _ _ _ (Store.wf_clear _ _ _ (Store.wf_overlay _ _ _ (Store.wf_clear _ _ _ h)))

theorem State.combineAll_wf (s : State) (r : Region) (blk : Nat) (x : Sums) (h : Memory.wf s.mem = true) :
    Memory.wf (s.combineAll r blk x).mem = true := by
  refine wf_foldl _ (fun s e hs => ?_) _ _ h
  split
  · exact s.combineAt_wf _ _ _ hs
  · exact hs

theorem State.combineHolders_wf (s : State) (hb : HomeBlk) (h : Memory.wf s.mem = true) :
    Memory.wf (s.combineHolders hb).mem = true := by
  refine wf_foldl _ (fun s x hs => ?_) _ _ h
  split
  · exact s.combineAll_wf _ _ _ hs
  · exact hs

theorem State.fillFrames_wf (s : State) (j : Quiesce) (h : Memory.wf s.mem = true) :
    Memory.wf (s.fillFrames j).mem = true := by
  refine wf_foldl _ (fun s l hs => ?_) _ _ h
  refine wf_foldl _ (fun s i hs => ?_) _ _ hs
  dsimp only
  split
  · split
    · exact hs
    · exact copyFrame_wf _ _ _ _ _ hs
  · exact hs

/-- What keeps an access of the control die back is no answer. -/
theorem State.askStop_ok {α : Type} (s : State) (key : Nat) (x : α) : s.askStop key ≠ some (.ok x) := by
  unfold State.askStop
  intro h
  split at h
  · simp at h
  · split at h
    · split at h
      · simp at h
      · split at h <;> simp at h
    · simp at h

/-! ## Teams -/

theorem State.saveGroup_wf (t : Team) (gr : Grid) (s : State) (g : Group) (h : Memory.wf s.mem = true) :
    Memory.wf (State.saveGroup t gr s g).mem = true := by
  unfold State.saveGroup
  split
  · exact h
  · exact State.writeImage_wf _ _ _ (s.recallRange_wf _ _ h)

theorem State.saveTeam_wf (s : State) (t : Team) (h : Memory.wf s.mem = true) : Memory.wf (s.saveTeam t).mem = true := by
  unfold State.saveTeam
  split
  · exact h
  · exact wf_foldl _ (fun s p hs => Store.wf_clear _ _ _ hs) _ _ (wf_foldl _ (fun s g hs => State.saveGroup_wf _ _ s g hs) _ _ h)

/-! ## Groups and commands -/

/-- The sequence of a group's words changes no memory. -/
theorem State.advance_mem {s : State} {g : Group} {r : Run} (hs : (s.group? g.gid).isSome) : (s.advance g r).mem = s.mem :=
  (s.advance_done g r hs).1 ▸ rfl

end Sys2Proof.Machine
end

