-- ==== Sys2Proof/Laws/PerInstr.lean ====
section
/-!
SUPPORT. The family of statements made for each instruction: which instructions are the words of a clause.
-/

namespace Sys2Proof.Laws

open Sys2Proof

/-- An instruction has an encoding only if it is a word of a clause, and every well-formed word has one (02 R34, Table
2.7). -/
def Encoded.Statement (i : Instr) : Prop :=
  ((encode i).isSome = true → i.isWord = true) ∧ (i.wf = true → i.isWord = true → (encode i).isSome = true)

theorem Encoded.clauseIssue : ∀ a0 a1 a2, Statement (.clauseIssue a0 a1 a2) :=
  fun _ _ _ => ⟨fun h => Bool.noConfusion h, fun _ h => Bool.noConfusion h⟩
theorem Encoded.iadd : ∀ a0, Statement (.iadd a0) :=
  fun _ => ⟨fun _ => rfl, fun _ _ => rfl⟩
theorem Encoded.isub : ∀ a0, Statement (.isub a0) :=
  fun _ => ⟨fun _ => rfl, fun _ _ => rfl⟩
theorem Encoded.iadc : ∀ a0, Statement (.iadc a0) :=
  fun _ => ⟨fun _ => rfl, fun _ _ => rfl⟩
theorem Encoded.isbc : ∀ a0, Statement (.isbc a0) :=
  fun _ => ⟨fun _ => rfl, fun _ _ => rfl⟩
theorem Encoded.imul : ∀ a0, Statement (.imul a0) :=
  fun _ => ⟨fun _ => rfl, fun _ _ => rfl⟩
theorem Encoded.imulh : ∀ a0, Statement (.imulh a0) :=
  fun _ => ⟨fun _ => rfl, fun _ _ => rfl⟩
theorem Encoded.imad : ∀ a0, Statement (.imad a0) :=
  fun _ => ⟨fun _ => rfl, fun _ _ => rfl⟩
theorem Encoded.idiv : ∀ a0, Statement (.idiv a0) :=
  fun _ => ⟨fun _ => rfl, fun _ _ => rfl⟩
theorem Encoded.irem : ∀ a0, Statement (.irem a0) :=
  fun _ => ⟨fun _ => rfl, fun _ _ => rfl⟩
theorem Encoded.iabs : ∀ a0, Statement (.iabs a0) :=
  fun _ => ⟨fun _ => rfl, fun _ _ => rfl⟩
theorem Encoded.ineg : ∀ a0, Statement (.ineg a0) :=
  fun _ => ⟨fun _ => rfl, fun _ _ => rfl⟩
theorem Encoded.imin : ∀ a0, Statement (.imin a0) :=
  fun _ => ⟨fun _ => rfl, fun _ _ => rfl⟩
theorem Encoded.imax : ∀ a0, Statement (.imax a0) :=
  fun _ => ⟨fun _ => rfl, fun _ _ => rfl⟩
theorem Encoded.icmp : ∀ a0 a1, Statement (.icmp a0 a1) :=
  fun _ _ => ⟨fun _ => rfl, fun _ _ => rfl⟩
theorem Encoded.isel : ∀ a0, Statement (.isel a0) :=
  fun _ => ⟨fun _ => rfl, fun _ _ => rfl⟩
theorem Encoded.and : ∀ a0, Statement (.and a0) :=
  fun _ => ⟨fun _ => rfl, fun _ _ => rfl⟩
theorem Encoded.or : ∀ a0, Statement (.or a0) :=
  fun _ => ⟨fun _ => rfl, fun _ _ => rfl⟩
theorem Encoded.xor : ∀ a0, Statement (.xor a0) :=
  fun _ => ⟨fun _ => rfl, fun _ _ => rfl⟩
theorem Encoded.andn : ∀ a0, Statement (.andn a0) :=
  fun _ => ⟨fun _ => rfl, fun _ _ => rfl⟩
theorem Encoded.not : ∀ a0, Statement (.not a0) :=
  fun _ => ⟨fun _ => rfl, fun _ _ => rfl⟩
theorem Encoded.shl : ∀ a0, Statement (.shl a0) :=
  fun _ => ⟨fun _ => rfl, fun _ _ => rfl⟩
theorem Encoded.shrl : ∀ a0, Statement (.shrl a0) :=
  fun _ => ⟨fun _ => rfl, fun _ _ => rfl⟩
theorem Encoded.shra : ∀ a0, Statement (.shra a0) :=
  fun _ => ⟨fun _ => rfl, fun _ _ => rfl⟩
theorem Encoded.rotl : ∀ a0, Statement (.rotl a0) :=
  fun _ => ⟨fun _ => rfl, fun _ _ => rfl⟩
theorem Encoded.fshl : ∀ a0, Statement (.fshl a0) :=
  fun _ => ⟨fun _ => rfl, fun _ _ => rfl⟩
theorem Encoded.clz : ∀ a0, Statement (.clz a0) :=
  fun _ => ⟨fun _ => rfl, fun _ _ => rfl⟩
theorem Encoded.ctz : ∀ a0, Statement (.ctz a0) :=
  fun _ => ⟨fun _ => rfl, fun _ _ => rfl⟩
theorem Encoded.popc : ∀ a0, Statement (.popc a0) :=
  fun _ => ⟨fun _ => rfl, fun _ _ => rfl⟩
theorem Encoded.brev : ∀ a0, Statement (.brev a0) :=
  fun _ => ⟨fun _ => rfl, fun _ _ => rfl⟩
theorem Encoded.bext : ∀ a0 a1 a2, Statement (.bext a0 a1 a2) :=
  fun _ _ _ => ⟨fun _ => rfl, fun _ _ => rfl⟩
theorem Encoded.bextR : ∀ a0, Statement (.bextR a0) :=
  fun _ => ⟨fun _ => rfl, fun _ _ => rfl⟩
theorem Encoded.bins : ∀ a0 a1 a2 a3 a4 a5 a6, Statement (.bins a0 a1 a2 a3 a4 a5 a6) :=
  fun _ _ _ _ _ _ _ => ⟨fun _ => rfl, fun _ _ => rfl⟩
theorem Encoded.binsR : ∀ a0, Statement (.binsR a0) :=
  fun _ => ⟨fun _ => rfl, fun _ _ => rfl⟩
theorem Encoded.bint : ∀ a0 a1 a2 a3 a4 a5, Statement (.bint a0 a1 a2 a3 a4 a5) :=
  fun _ _ _ _ _ _ => ⟨fun _ => rfl, fun _ _ => rfl⟩
theorem Encoded.bdin : ∀ a0 a1 a2, Statement (.bdin a0 a1 a2) :=
  fun _ _ _ => ⟨fun _ => rfl, fun _ _ => rfl⟩
theorem Encoded.bperm : ∀ a0, Statement (.bperm a0) :=
  fun _ => ⟨fun _ => rfl, fun _ _ => rfl⟩
theorem Encoded.blut : ∀ a0 a1, Statement (.blut a0 a1) :=
  fun _ _ => ⟨fun _ => rfl, fun _ _ => rfl⟩
theorem Encoded.mov : ∀ a0, Statement (.mov a0) :=
  fun _ => ⟨fun _ => rfl, fun _ _ => rfl⟩
theorem Encoded.movl : ∀ a0 a1 a2 a3, Statement (.movl a0 a1 a2 a3) :=
  fun _ _ _ _ => ⟨fun _ => rfl, fun _ _ => rfl⟩
theorem Encoded.movlHi : ∀ a0 a1 a2, Statement (.movlHi a0 a1 a2) :=
  fun _ _ _ => ⟨fun _ => rfl, fun _ _ => rfl⟩
theorem Encoded.movs : ∀ a0, Statement (.movs a0) :=
  fun _ => ⟨fun _ => rfl, fun _ _ => rfl⟩
theorem Encoded.kop : ∀ a0 a1 a2 a3 a4 a5 a6, Statement (.kop a0 a1 a2 a3 a4 a5 a6) :=
  fun _ _ _ _ _ _ _ => ⟨fun _ => rfl, fun _ _ => rfl⟩
theorem Encoded.lcset : ∀ a0 a1 a2 a3, Statement (.lcset a0 a1 a2 a3) :=
  fun _ _ _ _ => ⟨fun _ => rfl, fun _ _ => rfl⟩
theorem Encoded.lcadv : ∀ a0 a1 a2 a3, Statement (.lcadv a0 a1 a2 a3) :=
  fun _ _ _ _ => ⟨fun _ => rfl, fun _ _ => rfl⟩
theorem Encoded.bra : ∀ a0 a1, Statement (.bra a0 a1) :=
  fun _ _ => ⟨fun _ => rfl, fun _ _ => rfl⟩
theorem Encoded.brx : ∀ a0 a1, Statement (.brx a0 a1) :=
  fun _ _ => ⟨fun _ => rfl, fun _ _ => rfl⟩
theorem Encoded.call : ∀ a0 a1 a2, Statement (.call a0 a1 a2) :=
  fun _ _ _ => ⟨fun _ => rfl, fun _ _ => rfl⟩
theorem Encoded.callX : ∀ a0 a1 a2, Statement (.callX a0 a1 a2) :=
  fun _ _ _ => ⟨fun _ => rfl, fun _ _ => rfl⟩
theorem Encoded.ret : ∀ a0 a1, Statement (.ret a0 a1) :=
  fun _ _ => ⟨fun _ => rfl, fun _ _ => rfl⟩
theorem Encoded.exit : ∀ a0, Statement (.exit a0) :=
  fun _ => ⟨fun _ => rfl, fun _ _ => rfl⟩
theorem Encoded.lshf : ∀ a0 a1, Statement (.lshf a0 a1) :=
  fun _ _ => ⟨fun _ => rfl, fun _ _ => rfl⟩
theorem Encoded.lbfl : ∀ a0, Statement (.lbfl a0) :=
  fun _ => ⟨fun _ => rfl, fun _ _ => rfl⟩
theorem Encoded.lprev : ∀ a0 a1 a2 a3 a4, Statement (.lprev a0 a1 a2 a3 a4) :=
  fun a0 a1 a2 a3 a4 => by
    refine ⟨fun _ => rfl, fun _ _ => ?_⟩
    rcases a3 with _ | ⟨_⟩ | ⟨_⟩ <;> rfl
theorem Encoded.lscan : ∀ a0 a1 a2, Statement (.lscan a0 a1 a2) :=
  fun _ _ _ => ⟨fun _ => rfl, fun _ _ => rfl⟩
theorem Encoded.lred : ∀ a0 a1, Statement (.lred a0 a1) :=
  fun _ _ => ⟨fun _ => rfl, fun _ _ => rfl⟩
theorem Encoded.vote : ∀ a0 a1, Statement (.vote a0 a1) :=
  fun _ _ => ⟨fun _ => rfl, fun _ _ => rfl⟩
theorem Encoded.elect : ∀ a0 a1, Statement (.elect a0 a1) :=
  fun _ _ => ⟨fun _ => rfl, fun _ _ => rfl⟩
theorem Encoded.rep : ∀ a0, Statement (.rep a0) :=
  fun _ => ⟨fun _ => rfl, fun _ _ => rfl⟩
theorem Encoded.fadd : ∀ a0, Statement (.fadd a0) :=
  fun _ => ⟨fun _ => rfl, fun _ _ => rfl⟩
theorem Encoded.fsub : ∀ a0, Statement (.fsub a0) :=
  fun _ => ⟨fun _ => rfl, fun _ _ => rfl⟩
theorem Encoded.fmul : ∀ a0, Statement (.fmul a0) :=
  fun _ => ⟨fun _ => rfl, fun _ _ => rfl⟩
theorem Encoded.ffma : ∀ a0, Statement (.ffma a0) :=
  fun _ => ⟨fun _ => rfl, fun _ _ => rfl⟩
theorem Encoded.fmin : ∀ a0, Statement (.fmin a0) :=
  fun _ => ⟨fun _ => rfl, fun _ _ => rfl⟩
theorem Encoded.fmax : ∀ a0, Statement (.fmax a0) :=
  fun _ => ⟨fun _ => rfl, fun _ _ => rfl⟩
theorem Encoded.fminn : ∀ a0, Statement (.fminn a0) :=
  fun _ => ⟨fun _ => rfl, fun _ _ => rfl⟩
theorem Encoded.fmaxn : ∀ a0, Statement (.fmaxn a0) :=
  fun _ => ⟨fun _ => rfl, fun _ _ => rfl⟩
theorem Encoded.fcmp : ∀ a0 a1, Statement (.fcmp a0 a1) :=
  fun _ _ => ⟨fun _ => rfl, fun _ _ => rfl⟩
theorem Encoded.fcls : ∀ a0, Statement (.fcls a0) :=
  fun _ => ⟨fun _ => rfl, fun _ _ => rfl⟩
theorem Encoded.frnd : ∀ a0 a1, Statement (.frnd a0 a1) :=
  fun _ _ => ⟨fun _ => rfl, fun _ _ => rfl⟩
theorem Encoded.fdiv : ∀ a0, Statement (.fdiv a0) :=
  fun _ => ⟨fun _ => rfl, fun _ _ => rfl⟩
theorem Encoded.fsqrt : ∀ a0, Statement (.fsqrt a0) :=
  fun _ => ⟨fun _ => rfl, fun _ _ => rfl⟩
theorem Encoded.cvt : ∀ a0 a1 a2 a3 a4 a5 a6, Statement (.cvt a0 a1 a2 a3 a4 a5 a6) :=
  fun a0 a1 a2 a3 a4 a5 a6 => by
    refine ⟨fun _ => rfl, fun h _ => ?_⟩
    rcases a3 with _ | _ <;> rcases a4 with _ | _ <;> first | rfl | simp [Instr.wf] at h
theorem Encoded.fpackPack : ∀ a0 a1 a2 a3 a4 a5 a6 a7, Statement (.fpackPack a0 a1 a2 a3 a4 a5 a6 a7) :=
  fun _ _ _ _ _ _ _ _ => ⟨fun _ => rfl, fun _ _ => rfl⟩
theorem Encoded.fpackUnpack : ∀ a0 a1 a2 a3 a4 a5 a6, Statement (.fpackUnpack a0 a1 a2 a3 a4 a5 a6) :=
  fun _ _ _ _ _ _ _ => ⟨fun _ => rfl, fun _ _ => rfl⟩
theorem Encoded.fdot2 : ∀ a0, Statement (.fdot2 a0) :=
  fun _ => ⟨fun _ => rfl, fun _ _ => rfl⟩
theorem Encoded.frcp : ∀ a0, Statement (.frcp a0) :=
  fun _ => ⟨fun _ => rfl, fun _ _ => rfl⟩
theorem Encoded.frsq : ∀ a0, Statement (.frsq a0) :=
  fun _ => ⟨fun _ => rfl, fun _ _ => rfl⟩
theorem Encoded.fexp2 : ∀ a0, Statement (.fexp2 a0) :=
  fun _ => ⟨fun _ => rfl, fun _ _ => rfl⟩
theorem Encoded.flog2 : ∀ a0, Statement (.flog2 a0) :=
  fun _ => ⟨fun _ => rfl, fun _ _ => rfl⟩
theorem Encoded.fsinp : ∀ a0, Statement (.fsinp a0) :=
  fun _ => ⟨fun _ => rfl, fun _ _ => rfl⟩
theorem Encoded.fcosp : ∀ a0, Statement (.fcosp a0) :=
  fun _ => ⟨fun _ => rfl, fun _ _ => rfl⟩
theorem Encoded.ftanh : ∀ a0, Statement (.ftanh a0) :=
  fun _ => ⟨fun _ => rfl, fun _ _ => rfl⟩
theorem Encoded.fstr : ∀ a0 a1, Statement (.fstr a0 a1) :=
  fun _ _ => ⟨fun _ => rfl, fun _ _ => rfl⟩
theorem Encoded.fstw : ∀ a0 a1 a2 a3, Statement (.fstw a0 a1 a2 a3) :=
  fun a0 a1 a2 a3 => by
    refine ⟨fun _ => rfl, fun _ _ => ?_⟩
    cases a3 <;> rfl
theorem Encoded.vld : ∀ a0 a1 a2 a3, Statement (.vld a0 a1 a2 a3) :=
  fun _ _ _ _ => ⟨fun _ => rfl, fun _ _ => rfl⟩
theorem Encoded.vst : ∀ a0 a1 a2 a3, Statement (.vst a0 a1 a2 a3) :=
  fun _ _ _ _ => ⟨fun _ => rfl, fun _ _ => rfl⟩
theorem Encoded.vadd : ∀ a0, Statement (.vadd a0) :=
  fun _ => ⟨fun _ => rfl, fun _ _ => rfl⟩
theorem Encoded.vsub : ∀ a0, Statement (.vsub a0) :=
  fun _ => ⟨fun _ => rfl, fun _ _ => rfl⟩
theorem Encoded.vmul : ∀ a0, Statement (.vmul a0) :=
  fun _ => ⟨fun _ => rfl, fun _ _ => rfl⟩
theorem Encoded.vfma : ∀ a0 a1 a2 a3 a4, Statement (.vfma a0 a1 a2 a3 a4) :=
  fun _ _ _ _ _ => ⟨fun _ => rfl, fun _ _ => rfl⟩
theorem Encoded.vdiv : ∀ a0, Statement (.vdiv a0) :=
  fun _ => ⟨fun _ => rfl, fun _ _ => rfl⟩
theorem Encoded.vsqrt : ∀ a0, Statement (.vsqrt a0) :=
  fun _ => ⟨fun _ => rfl, fun _ _ => rfl⟩
theorem Encoded.vcmp : ∀ a0 a1 a2 a3 a4, Statement (.vcmp a0 a1 a2 a3 a4) :=
  fun _ _ _ _ _ => ⟨fun _ => rfl, fun _ _ => rfl⟩
theorem Encoded.vcvtTov : ∀ a0 a1 a2 a3, Statement (.vcvtTov a0 a1 a2 a3) :=
  fun _ _ _ _ => ⟨fun _ => rfl, fun _ _ => rfl⟩
theorem Encoded.vcvtFromv : ∀ a0 a1 a2 a3 a4, Statement (.vcvtFromv a0 a1 a2 a3 a4) :=
  fun _ _ _ _ _ => ⟨fun _ => rfl, fun _ _ => rfl⟩
theorem Encoded.vrndInt : ∀ a0, Statement (.vrndInt a0) :=
  fun _ => ⟨fun _ => rfl, fun _ _ => rfl⟩
theorem Encoded.vrndFit : ∀ a0, Statement (.vrndFit a0) :=
  fun _ => ⟨fun _ => rfl, fun _ _ => rfl⟩
theorem Encoded.vexpo : ∀ a0 a1 a2, Statement (.vexpo a0 a1 a2) :=
  fun _ _ _ => ⟨fun _ => rfl, fun _ _ => rfl⟩
theorem Encoded.vlen : ∀ a0 a1 a2, Statement (.vlen a0 a1 a2) :=
  fun _ _ _ => ⟨fun _ => rfl, fun _ _ => rfl⟩
theorem Encoded.vlenBytes : ∀ a0 a1 a2, Statement (.vlenBytes a0 a1 a2) :=
  fun _ _ _ => ⟨fun _ => rfl, fun _ _ => rfl⟩
theorem Encoded.vscale : ∀ a0 a1 a2 a3, Statement (.vscale a0 a1 a2 a3) :=
  fun _ _ _ _ => ⟨fun _ => rfl, fun _ _ => rfl⟩
theorem Encoded.precr : ∀ a0 a1, Statement (.precr a0 a1) :=
  fun _ _ => ⟨fun _ => rfl, fun _ _ => rfl⟩
theorem Encoded.precw : ∀ a0 a1 a2, Statement (.precw a0 a1 a2) :=
  fun _ _ _ => ⟨fun _ => rfl, fun _ _ => rfl⟩
theorem Encoded.precwLen : ∀ a0 a1 a2, Statement (.precwLen a0 a1 a2) :=
  fun _ _ _ => ⟨fun _ => rfl, fun _ _ => rfl⟩
theorem Encoded.ld : ∀ a0 a1 a2 a3 a4, Statement (.ld a0 a1 a2 a3 a4) :=
  fun _ _ _ _ _ => ⟨fun _ => rfl, fun _ _ => rfl⟩
theorem Encoded.st : ∀ a0 a1 a2 a3, Statement (.st a0 a1 a2 a3) :=
  fun _ _ _ _ => ⟨fun _ => rfl, fun _ _ => rfl⟩
theorem Encoded.ldv : ∀ a0 a1 a2 a3, Statement (.ldv a0 a1 a2 a3) :=
  fun _ _ _ _ => ⟨fun _ => rfl, fun _ _ => rfl⟩
theorem Encoded.stv : ∀ a0 a1 a2 a3, Statement (.stv a0 a1 a2 a3) :=
  fun _ _ _ _ => ⟨fun _ => rfl, fun _ _ => rfl⟩
theorem Encoded.ldtol : ∀ a0 a1 a2 a3 a4, Statement (.ldtol a0 a1 a2 a3 a4) :=
  fun _ _ _ _ _ => ⟨fun _ => rfl, fun _ _ => rfl⟩
theorem Encoded.ldtolDet : ∀ a0 a1 a2 a3, Statement (.ldtolDet a0 a1 a2 a3) :=
  fun _ _ _ _ => ⟨fun _ => rfl, fun _ _ => rfl⟩
theorem Encoded.ldtolV : ∀ a0 a1 a2 a3 a4, Statement (.ldtolV a0 a1 a2 a3 a4) :=
  fun _ _ _ _ _ => ⟨fun _ => rfl, fun _ _ => rfl⟩
theorem Encoded.ldtolDetV : ∀ a0 a1 a2 a3, Statement (.ldtolDetV a0 a1 a2 a3) :=
  fun _ _ _ _ => ⟨fun _ => rfl, fun _ _ => rfl⟩
theorem Encoded.stadd : ∀ a0 a1 a2 a3, Statement (.stadd a0 a1 a2 a3) :=
  fun _ _ _ _ => ⟨fun _ => rfl, fun _ _ => rfl⟩
theorem Encoded.staddV : ∀ a0 a1 a2 a3, Statement (.staddV a0 a1 a2 a3) :=
  fun _ _ _ _ => ⟨fun _ => rfl, fun _ _ => rfl⟩
theorem Encoded.drain : ∀ a0 a1, Statement (.drain a0 a1) :=
  fun _ _ => ⟨fun _ => rfl, fun _ _ => rfl⟩
theorem Encoded.drainR : ∀ a0 a1 a2, Statement (.drainR a0 a1 a2) :=
  fun _ _ _ => ⟨fun _ => rfl, fun _ _ => rfl⟩
theorem Encoded.pfx : ∀ a0 a1 a2, Statement (.pfx a0 a1 a2) :=
  fun _ _ _ => ⟨fun _ => rfl, fun _ _ => rfl⟩
theorem Encoded.invlLine : ∀ a0 a1, Statement (.invlLine a0 a1) :=
  fun _ _ => ⟨fun _ => rfl, fun _ _ => rfl⟩
theorem Encoded.invlSi : ∀ a0, Statement (.invlSi a0) :=
  fun _ => ⟨fun _ => rfl, fun _ _ => rfl⟩
theorem Encoded.fence : ∀ a0 a1 a2, Statement (.fence a0 a1 a2) :=
  fun _ _ _ => ⟨fun _ => rfl, fun _ _ => rfl⟩
theorem Encoded.ldbt : ∀ a0 a1 a2 a3, Statement (.ldbt a0 a1 a2 a3) :=
  fun _ _ _ _ => ⟨fun _ => rfl, fun _ _ => rfl⟩
theorem Encoded.stbt : ∀ a0 a1 a2 a3, Statement (.stbt a0 a1 a2 a3) :=
  fun _ _ _ _ => ⟨fun _ => rfl, fun _ _ => rfl⟩
theorem Encoded.mapq : ∀ a0 a1 a2, Statement (.mapq a0 a1 a2) :=
  fun _ _ _ => ⟨fun _ => rfl, fun _ _ => rfl⟩
theorem Encoded.storeQueueDeparture : ∀ a0, Statement (.storeQueueDeparture a0) :=
  fun _ => ⟨fun h => Bool.noConfusion h, fun _ h => Bool.noConfusion h⟩
theorem Encoded.homeRequest : ∀ a0 a1, Statement (.homeRequest a0 a1) :=
  fun _ _ => ⟨fun h => Bool.noConfusion h, fun _ h => Bool.noConfusion h⟩
theorem Encoded.recall : ∀ a0, Statement (.recall a0) :=
  fun _ => ⟨fun h => Bool.noConfusion h, fun _ h => Bool.noConfusion h⟩
theorem Encoded.l1Eviction : ∀ a0 a1, Statement (.l1Eviction a0 a1) :=
  fun _ _ => ⟨fun h => Bool.noConfusion h, fun _ h => Bool.noConfusion h⟩
theorem Encoded.shareRequest : ∀ a0, Statement (.shareRequest a0) :=
  fun _ => ⟨fun h => Bool.noConfusion h, fun _ h => Bool.noConfusion h⟩
theorem Encoded.splitRequest : ∀ a0, Statement (.splitRequest a0) :=
  fun _ => ⟨fun h => Bool.noConfusion h, fun _ h => Bool.noConfusion h⟩
theorem Encoded.shareGrant : ∀ a0, Statement (.shareGrant a0) :=
  fun _ => ⟨fun h => Bool.noConfusion h, fun _ h => Bool.noConfusion h⟩
theorem Encoded.drainCombine : ∀ a0, Statement (.drainCombine a0) :=
  fun _ => ⟨fun h => Bool.noConfusion h, fun _ h => Bool.noConfusion h⟩
theorem Encoded.drainAck : ∀ a0, Statement (.drainAck a0) :=
  fun _ => ⟨fun h => Bool.noConfusion h, fun _ h => Bool.noConfusion h⟩
theorem Encoded.toleranceRead : ∀ a0 a1, Statement (.toleranceRead a0 a1) :=
  fun _ _ => ⟨fun h => Bool.noConfusion h, fun _ h => Bool.noConfusion h⟩
theorem Encoded.flushMarkerGather : ∀ a0, Statement (.flushMarkerGather a0) :=
  fun _ => ⟨fun h => Bool.noConfusion h, fun _ h => Bool.noConfusion h⟩
theorem Encoded.operationComplete : ∀ a0, Statement (.operationComplete a0) :=
  fun _ => ⟨fun h => Bool.noConfusion h, fun _ h => Bool.noConfusion h⟩
theorem Encoded.faultDelivery : ∀ a0, Statement (.faultDelivery a0) :=
  fun _ => ⟨fun h => Bool.noConfusion h, fun _ h => Bool.noConfusion h⟩
theorem Encoded.pageWalk : ∀ a0 a1, Statement (.pageWalk a0 a1) :=
  fun _ _ => ⟨fun h => Bool.noConfusion h, fun _ h => Bool.noConfusion h⟩
theorem Encoded.copy : ∀ a0, Statement (.copy a0) :=
  fun _ => ⟨fun _ => rfl, fun _ _ => rfl⟩
theorem Encoded.copy2d : ∀ a0, Statement (.copy2d a0) :=
  fun _ => ⟨fun _ => rfl, fun _ _ => rfl⟩
theorem Encoded.copy3d : ∀ a0, Statement (.copy3d a0) :=
  fun _ => ⟨fun _ => rfl, fun _ _ => rfl⟩
theorem Encoded.copym : ∀ a0, Statement (.copym a0) :=
  fun _ => ⟨fun _ => rfl, fun _ _ => rfl⟩
theorem Encoded.bseal : ∀ a0 a1, Statement (.bseal a0 a1) :=
  fun _ _ => ⟨fun _ => rfl, fun _ _ => rfl⟩
theorem Encoded.bwait : ∀ a0 a1, Statement (.bwait a0 a1) :=
  fun _ _ => ⟨fun _ => rfl, fun _ _ => rfl⟩
theorem Encoded.clinit : ∀ a0 a1 a2 a3 a4, Statement (.clinit a0 a1 a2 a3 a4) :=
  fun _ _ _ _ _ => ⟨fun _ => rfl, fun _ _ => rfl⟩
theorem Encoded.clexp : ∀ a0 a1 a2 a3, Statement (.clexp a0 a1 a2 a3) :=
  fun _ _ _ _ => ⟨fun _ => rfl, fun _ _ => rfl⟩
theorem Encoded.clarr : ∀ a0 a1 a2 a3 a4, Statement (.clarr a0 a1 a2 a3 a4) :=
  fun _ _ _ _ _ => ⟨fun _ => rfl, fun _ _ => rfl⟩
theorem Encoded.clwait : ∀ a0 a1 a2 a3 a4 a5, Statement (.clwait a0 a1 a2 a3 a4 a5) :=
  fun _ _ _ _ _ _ => ⟨fun _ => rfl, fun _ _ => rfl⟩
theorem Encoded.cltest : ∀ a0 a1 a2 a3 a4, Statement (.cltest a0 a1 a2 a3 a4) :=
  fun _ _ _ _ _ => ⟨fun _ => rfl, fun _ _ => rfl⟩
theorem Encoded.clinv : ∀ a0 a1 a2, Statement (.clinv a0 a1 a2) :=
  fun _ _ _ => ⟨fun _ => rfl, fun _ _ => rfl⟩
theorem Encoded.copyComplete : ∀ a0, Statement (.copyComplete a0) :=
  fun _ => ⟨fun h => Bool.noConfusion h, fun _ h => Bool.noConfusion h⟩
theorem Encoded.mma : ∀ a0, Statement (.mma a0) :=
  fun _ => ⟨fun _ => rfl, fun _ _ => rfl⟩
theorem Encoded.mmat : ∀ a0, Statement (.mmat a0) :=
  fun _ => ⟨fun _ => rfl, fun _ _ => rfl⟩
theorem Encoded.mmafx : ∀ a0, Statement (.mmafx a0) :=
  fun _ => ⟨fun _ => rfl, fun _ _ => rfl⟩
theorem Encoded.tld : ∀ a0, Statement (.tld a0) :=
  fun _ => ⟨fun _ => rfl, fun _ _ => rfl⟩
theorem Encoded.tst : ∀ a0, Statement (.tst a0) :=
  fun _ => ⟨fun _ => rfl, fun _ _ => rfl⟩
theorem Encoded.tzero : ∀ a0 a1 a2, Statement (.tzero a0 a1 a2) :=
  fun _ _ _ => ⟨fun _ => rfl, fun _ _ => rfl⟩
theorem Encoded.accld : ∀ a0, Statement (.accld a0) :=
  fun _ => ⟨fun _ => rfl, fun _ _ => rfl⟩
theorem Encoded.accst : ∀ a0, Statement (.accst a0) :=
  fun _ => ⟨fun _ => rfl, fun _ _ => rfl⟩
theorem Encoded.accz : ∀ a0 a1 a2, Statement (.accz a0 a1 a2) :=
  fun _ _ _ => ⟨fun _ => rfl, fun _ _ => rfl⟩
theorem Encoded.sclw : ∀ a0 a1 a2, Statement (.sclw a0 a1 a2) :=
  fun _ _ _ => ⟨fun _ => rfl, fun _ _ => rfl⟩
theorem Encoded.sclr : ∀ a0 a1 a2, Statement (.sclr a0 a1 a2) :=
  fun _ _ _ => ⟨fun _ => rfl, fun _ _ => rfl⟩
theorem Encoded.popld : ∀ a0, Statement (.popld a0) :=
  fun _ => ⟨fun _ => rfl, fun _ _ => rfl⟩
theorem Encoded.prepld : ∀ a0, Statement (.prepld a0) :=
  fun _ => ⟨fun _ => rfl, fun _ _ => rfl⟩
theorem Encoded.matrixAccept : ∀ a0, Statement (.matrixAccept a0) :=
  fun _ => ⟨fun h => Bool.noConfusion h, fun _ h => Bool.noConfusion h⟩
theorem Encoded.postStageRun : ∀ a0, Statement (.postStageRun a0) :=
  fun _ => ⟨fun h => Bool.noConfusion h, fun _ h => Bool.noConfusion h⟩
theorem Encoded.smpl : ∀ a0, Statement (.smpl a0) :=
  fun _ => ⟨fun _ => rfl, fun _ _ => rfl⟩
theorem Encoded.smplg : ∀ a0, Statement (.smplg a0) :=
  fun _ => ⟨fun _ => rfl, fun _ _ => rfl⟩
theorem Encoded.smpllLod : ∀ a0 a1, Statement (.smpllLod a0 a1) :=
  fun _ _ => ⟨fun _ => rfl, fun _ _ => rfl⟩
theorem Encoded.smpllGrad : ∀ a0 a1, Statement (.smpllGrad a0 a1) :=
  fun _ _ => ⟨fun _ => rfl, fun _ _ => rfl⟩
theorem Encoded.sres : ∀ a0, Statement (.sres a0) :=
  fun _ => ⟨fun _ => rfl, fun _ _ => rfl⟩
theorem Encoded.atom : ∀ a0 a1 a2 a3 a4 a5, Statement (.atom a0 a1 a2 a3 a4 a5) :=
  fun _ _ _ _ _ _ => ⟨fun _ => rfl, fun _ _ => rfl⟩
theorem Encoded.atomw : ∀ a0 a1 a2 a3 a4 a5 a6, Statement (.atomw a0 a1 a2 a3 a4 a5 a6) :=
  fun _ _ _ _ _ _ _ => ⟨fun _ => rfl, fun _ _ => rfl⟩
theorem Encoded.fatom : ∀ a0 a1 a2 a3 a4 a5, Statement (.fatom a0 a1 a2 a3 a4 a5) :=
  fun _ _ _ _ _ _ => ⟨fun _ => rfl, fun _ _ => rfl⟩
theorem Encoded.acas : ∀ a0 a1 a2 a3 a4 a5, Statement (.acas a0 a1 a2 a3 a4 a5) :=
  fun _ _ _ _ _ _ => ⟨fun _ => rfl, fun _ _ => rfl⟩
theorem Encoded.enq : ∀ a0 a1 a2 a3 a4, Statement (.enq a0 a1 a2 a3 a4) :=
  fun _ _ _ _ _ => ⟨fun _ => rfl, fun _ _ => rfl⟩
theorem Encoded.deq : ∀ a0 a1 a2 a3, Statement (.deq a0 a1 a2 a3) :=
  fun _ _ _ _ => ⟨fun _ => rfl, fun _ _ => rfl⟩
theorem Encoded.bnginit : ∀ a0 a1 a2 a3 a4, Statement (.bnginit a0 a1 a2 a3 a4) :=
  fun _ _ _ _ _ => ⟨fun _ => rfl, fun _ _ => rfl⟩
theorem Encoded.atomicPerform : ∀ a0 a1, Statement (.atomicPerform a0 a1) :=
  fun _ _ => ⟨fun h => Bool.noConfusion h, fun _ h => Bool.noConfusion h⟩
theorem Encoded.launch : ∀ a0, Statement (.launch a0) :=
  fun _ => ⟨fun _ => rfl, fun _ _ => rfl⟩
theorem Encoded.emit : ∀ a0 a1 a2, Statement (.emit a0 a1 a2) :=
  fun _ _ _ => ⟨fun _ => rfl, fun _ _ => rfl⟩
theorem Encoded.emitn : ∀ a0 a1 a2 a3 a4 a5, Statement (.emitn a0 a1 a2 a3 a4 a5) :=
  fun _ _ _ _ _ _ => ⟨fun _ => rfl, fun _ _ => rfl⟩
theorem Encoded.accgrow : ∀ a0 a1 a2, Statement (.accgrow a0 a1 a2) :=
  fun _ _ _ => ⟨fun _ => rfl, fun _ _ => rfl⟩
theorem Encoded.relat : ∀ a0 a1 a2 a3, Statement (.relat a0 a1 a2 a3) :=
  fun _ _ _ _ => ⟨fun _ => rfl, fun _ _ => rfl⟩
theorem Encoded.nop : ∀ a0, Statement (.nop a0) :=
  fun _ => ⟨fun _ => rfl, fun _ _ => rfl⟩
theorem Encoded.trap : ∀ a0 a1, Statement (.trap a0 a1) :=
  fun _ _ => ⟨fun _ => rfl, fun _ _ => rfl⟩
theorem Encoded.eret : ∀ a0 a1 a2, Statement (.eret a0 a1 a2) :=
  fun _ _ _ => ⟨fun _ => rfl, fun _ _ => rfl⟩
theorem Encoded.csrr : ∀ a0 a1 a2, Statement (.csrr a0 a1 a2) :=
  fun _ _ _ => ⟨fun _ => rfl, fun _ _ => rfl⟩
theorem Encoded.csrw : ∀ a0 a1 a2, Statement (.csrw a0 a1 a2) :=
  fun _ _ _ => ⟨fun _ => rfl, fun _ _ => rfl⟩
theorem Encoded.ptime : ∀ a0 a1, Statement (.ptime a0 a1) :=
  fun _ _ => ⟨fun _ => rfl, fun _ _ => rfl⟩
theorem Encoded.ptimeSkew : ∀ a0 a1, Statement (.ptimeSkew a0 a1) :=
  fun _ _ => ⟨fun _ => rfl, fun _ _ => rfl⟩
theorem Encoded.bkpt : ∀ a0 a1, Statement (.bkpt a0 a1) :=
  fun _ _ => ⟨fun _ => rfl, fun _ _ => rfl⟩
theorem Encoded.queueDoorbell : ∀ a0 a1, Statement (.queueDoorbell a0 a1) :=
  fun _ _ => ⟨fun h => Bool.noConfusion h, fun _ h => Bool.noConfusion h⟩
theorem Encoded.queueNop : ∀ a0, Statement (.queueNop a0) :=
  fun _ => ⟨fun h => Bool.noConfusion h, fun _ h => Bool.noConfusion h⟩
theorem Encoded.queueGridLaunch : ∀ a0, Statement (.queueGridLaunch a0) :=
  fun _ => ⟨fun h => Bool.noConfusion h, fun _ h => Bool.noConfusion h⟩
theorem Encoded.queueGraphLaunch : ∀ a0, Statement (.queueGraphLaunch a0) :=
  fun _ => ⟨fun h => Bool.noConfusion h, fun _ h => Bool.noConfusion h⟩
theorem Encoded.queueWaitWord : ∀ a0, Statement (.queueWaitWord a0) :=
  fun _ => ⟨fun h => Bool.noConfusion h, fun _ h => Bool.noConfusion h⟩
theorem Encoded.queueWritePtc : ∀ a0, Statement (.queueWritePtc a0) :=
  fun _ => ⟨fun h => Bool.noConfusion h, fun _ h => Bool.noConfusion h⟩
theorem Encoded.queueQuiescePoint : ∀ a0, Statement (.queueQuiescePoint a0) :=
  fun _ => ⟨fun h => Bool.noConfusion h, fun _ h => Bool.noConfusion h⟩
theorem Encoded.qstatHaltClear : ∀ a0, Statement (.qstatHaltClear a0) :=
  fun _ => ⟨fun h => Bool.noConfusion h, fun _ h => Bool.noConfusion h⟩
theorem Encoded.quiescePoint : ∀ a0, Statement (.quiescePoint a0) :=
  fun _ => ⟨fun h => Bool.noConfusion h, fun _ h => Bool.noConfusion h⟩
theorem Encoded.teamLaunch : ∀ a0 a1, Statement (.teamLaunch a0 a1) :=
  fun _ _ => ⟨fun h => Bool.noConfusion h, fun _ h => Bool.noConfusion h⟩
theorem Encoded.nodeTeamLaunch : ∀ a0 a1 a2, Statement (.nodeTeamLaunch a0 a1 a2) :=
  fun _ _ _ => ⟨fun h => Bool.noConfusion h, fun _ h => Bool.noConfusion h⟩
theorem Encoded.nodeCoalesceExpiry : ∀ a0 a1 a2, Statement (.nodeCoalesceExpiry a0 a1 a2) :=
  fun _ _ _ => ⟨fun h => Bool.noConfusion h, fun _ h => Bool.noConfusion h⟩
theorem Encoded.recordDelivery : ∀ a0, Statement (.recordDelivery a0) :=
  fun _ => ⟨fun h => Bool.noConfusion h, fun _ h => Bool.noConfusion h⟩
theorem Encoded.recordReleaseAtTime : ∀ a0, Statement (.recordReleaseAtTime a0) :=
  fun _ => ⟨fun h => Bool.noConfusion h, fun _ h => Bool.noConfusion h⟩
theorem Encoded.present : ∀ a0, Statement (.present a0) :=
  fun _ => ⟨fun h => Bool.noConfusion h, fun _ h => Bool.noConfusion h⟩
theorem Encoded.teamRetire : ∀ a0, Statement (.teamRetire a0) :=
  fun _ => ⟨fun h => Bool.noConfusion h, fun _ h => Bool.noConfusion h⟩
theorem Encoded.gridRetire : ∀ a0, Statement (.gridRetire a0) :=
  fun _ => ⟨fun h => Bool.noConfusion h, fun _ h => Bool.noConfusion h⟩
theorem Encoded.hangLimitExpiry : ∀ a0, Statement (.hangLimitExpiry a0) :=
  fun _ => ⟨fun h => Bool.noConfusion h, fun _ h => Bool.noConfusion h⟩
theorem Encoded.dbgactResume : ∀ a0 a1, Statement (.dbgactResume a0 a1) :=
  fun _ _ => ⟨fun h => Bool.noConfusion h, fun _ h => Bool.noConfusion h⟩
theorem Encoded.dbgactSkip : ∀ a0 a1, Statement (.dbgactSkip a0 a1) :=
  fun _ _ => ⟨fun h => Bool.noConfusion h, fun _ h => Bool.noConfusion h⟩
theorem Encoded.dbgactKillGroup : ∀ a0 a1, Statement (.dbgactKillGroup a0 a1) :=
  fun _ _ => ⟨fun h => Bool.noConfusion h, fun _ h => Bool.noConfusion h⟩
theorem Encoded.dbgactKillGrid : ∀ a0 a1, Statement (.dbgactKillGrid a0 a1) :=
  fun _ _ => ⟨fun h => Bool.noConfusion h, fun _ h => Bool.noConfusion h⟩
theorem Encoded.preempt : ∀ a0, Statement (.preempt a0) :=
  fun _ => ⟨fun h => Bool.noConfusion h, fun _ h => Bool.noConfusion h⟩
theorem Encoded.restore : ∀ a0 a1, Statement (.restore a0 a1) :=
  fun _ _ => ⟨fun h => Bool.noConfusion h, fun _ h => Bool.noConfusion h⟩
theorem Encoded.budgetPeriod : Statement .budgetPeriod :=
  ⟨fun h => Bool.noConfusion h, fun _ h => Bool.noConfusion h⟩
theorem Encoded.clsbudWrite : ∀ a0 a1, Statement (.clsbudWrite a0 a1) :=
  fun _ _ => ⟨fun h => Bool.noConfusion h, fun _ h => Bool.noConfusion h⟩
theorem Encoded.invalidateOnePage : ∀ a0, Statement (.invalidateOnePage a0) :=
  fun _ => ⟨fun h => Bool.noConfusion h, fun _ h => Bool.noConfusion h⟩
theorem Encoded.invalidateRange : ∀ a0 a1, Statement (.invalidateRange a0 a1) :=
  fun _ _ => ⟨fun h => Bool.noConfusion h, fun _ h => Bool.noConfusion h⟩
theorem Encoded.invalidateAll : Statement .invalidateAll :=
  ⟨fun h => Bool.noConfusion h, fun _ h => Bool.noConfusion h⟩
theorem Encoded.invalidateComplete : Statement .invalidateComplete :=
  ⟨fun h => Bool.noConfusion h, fun _ h => Bool.noConfusion h⟩
theorem Encoded.regionInstall : ∀ a0, Statement (.regionInstall a0) :=
  fun _ => ⟨fun h => Bool.noConfusion h, fun _ h => Bool.noConfusion h⟩
theorem Encoded.regionRemove : ∀ a0, Statement (.regionRemove a0) :=
  fun _ => ⟨fun h => Bool.noConfusion h, fun _ h => Bool.noConfusion h⟩
theorem Encoded.xlpoolWrite : ∀ a0, Statement (.xlpoolWrite a0) :=
  fun _ => ⟨fun h => Bool.noConfusion h, fun _ h => Bool.noConfusion h⟩
theorem Encoded.memoryServiceCollapse : ∀ a0, Statement (.memoryServiceCollapse a0) :=
  fun _ => ⟨fun h => Bool.noConfusion h, fun _ h => Bool.noConfusion h⟩
theorem Encoded.requestTimeout : ∀ a0 a1, Statement (.requestTimeout a0 a1) :=
  fun _ _ => ⟨fun h => Bool.noConfusion h, fun _ h => Bool.noConfusion h⟩
theorem Encoded.flitReceive : ∀ a0 a1 a2, Statement (.flitReceive a0 a1 a2) :=
  fun _ _ _ => ⟨fun h => Bool.noConfusion h, fun _ h => Bool.noConfusion h⟩
theorem Encoded.portEnable : ∀ a0, Statement (.portEnable a0) :=
  fun _ => ⟨fun h => Bool.noConfusion h, fun _ h => Bool.noConfusion h⟩
theorem Encoded.portDisable : ∀ a0, Statement (.portDisable a0) :=
  fun _ => ⟨fun h => Bool.noConfusion h, fun _ h => Bool.noConfusion h⟩
theorem Encoded.peerDetect : ∀ a0 a1, Statement (.peerDetect a0 a1) :=
  fun _ _ => ⟨fun h => Bool.noConfusion h, fun _ h => Bool.noConfusion h⟩
theorem Encoded.trainingComplete : ∀ a0, Statement (.trainingComplete a0) :=
  fun _ => ⟨fun h => Bool.noConfusion h, fun _ h => Bool.noConfusion h⟩
theorem Encoded.trainingFail : ∀ a0 a1, Statement (.trainingFail a0 a1) :=
  fun _ _ => ⟨fun h => Bool.noConfusion h, fun _ h => Bool.noConfusion h⟩
theorem Encoded.lossOfLock : ∀ a0, Statement (.lossOfLock a0) :=
  fun _ => ⟨fun h => Bool.noConfusion h, fun _ h => Bool.noConfusion h⟩
theorem Encoded.keyExchange : ∀ a0 a1 a2, Statement (.keyExchange a0 a1 a2) :=
  fun _ _ _ => ⟨fun h => Bool.noConfusion h, fun _ h => Bool.noConfusion h⟩
theorem Encoded.rekey : ∀ a0, Statement (.rekey a0) :=
  fun _ => ⟨fun h => Bool.noConfusion h, fun _ h => Bool.noConfusion h⟩
theorem Encoded.rekeyIntervalExpiry : ∀ a0, Statement (.rekeyIntervalExpiry a0) :=
  fun _ => ⟨fun h => Bool.noConfusion h, fun _ h => Bool.noConfusion h⟩
theorem Encoded.rekeyMarkerResend : ∀ a0, Statement (.rekeyMarkerResend a0) :=
  fun _ => ⟨fun h => Bool.noConfusion h, fun _ h => Bool.noConfusion h⟩
theorem Encoded.rekeyComplete : ∀ a0, Statement (.rekeyComplete a0) :=
  fun _ => ⟨fun h => Bool.noConfusion h, fun _ h => Bool.noConfusion h⟩
theorem Encoded.orderlyReset : ∀ a0, Statement (.orderlyReset a0) :=
  fun _ => ⟨fun h => Bool.noConfusion h, fun _ h => Bool.noConfusion h⟩
theorem Encoded.resetComplete : ∀ a0, Statement (.resetComplete a0) :=
  fun _ => ⟨fun h => Bool.noConfusion h, fun _ h => Bool.noConfusion h⟩
theorem Encoded.lostmapClear : ∀ a0 a1, Statement (.lostmapClear a0 a1) :=
  fun _ _ => ⟨fun h => Bool.noConfusion h, fun _ h => Bool.noConfusion h⟩
theorem Encoded.hostDataRead : ∀ a0 a1, Statement (.hostDataRead a0 a1) :=
  fun _ _ => ⟨fun h => Bool.noConfusion h, fun _ h => Bool.noConfusion h⟩
theorem Encoded.hostDataWrite : ∀ a0 a1, Statement (.hostDataWrite a0 a1) :=
  fun _ _ => ⟨fun h => Bool.noConfusion h, fun _ h => Bool.noConfusion h⟩
theorem Encoded.hostTagRead : ∀ a0, Statement (.hostTagRead a0) :=
  fun _ => ⟨fun h => Bool.noConfusion h, fun _ h => Bool.noConfusion h⟩
theorem Encoded.hostTagWrite : ∀ a0 a1, Statement (.hostTagWrite a0 a1) :=
  fun _ _ => ⟨fun h => Bool.noConfusion h, fun _ h => Bool.noConfusion h⟩
theorem Encoded.attestReport : Statement .attestReport :=
  ⟨fun h => Bool.noConfusion h, fun _ h => Bool.noConfusion h⟩
theorem Encoded.attestCertChain : Statement .attestCertChain :=
  ⟨fun h => Bool.noConfusion h, fun _ h => Bool.noConfusion h⟩
theorem Encoded.ptcCorrection : ∀ a0 a1, Statement (.ptcCorrection a0 a1) :=
  fun _ _ => ⟨fun h => Bool.noConfusion h, fun _ h => Bool.noConfusion h⟩
theorem Encoded.timeExchange : ∀ a0 a1 a2 a3 a4 a5, Statement (.timeExchange a0 a1 a2 a3 a4 a5) :=
  fun _ _ _ _ _ _ => ⟨fun h => Bool.noConfusion h, fun _ h => Bool.noConfusion h⟩
theorem Encoded.timeSyncLost : ∀ a0, Statement (.timeSyncLost a0) :=
  fun _ => ⟨fun h => Bool.noConfusion h, fun _ h => Bool.noConfusion h⟩
theorem Encoded.ptcsetWrite : ∀ a0, Statement (.ptcsetWrite a0) :=
  fun _ => ⟨fun h => Bool.noConfusion h, fun _ h => Bool.noConfusion h⟩
theorem Encoded.uncorrectableError : ∀ a0, Statement (.uncorrectableError a0) :=
  fun _ => ⟨fun h => Bool.noConfusion h, fun _ h => Bool.noConfusion h⟩
theorem Encoded.correctableError : ∀ a0 a1, Statement (.correctableError a0 a1) :=
  fun _ _ => ⟨fun h => Bool.noConfusion h, fun _ h => Bool.noConfusion h⟩
theorem Encoded.patrolRead : Statement .patrolRead :=
  ⟨fun h => Bool.noConfusion h, fun _ h => Bool.noConfusion h⟩
theorem Encoded.powerThrottle : ∀ a0 a1, Statement (.powerThrottle a0 a1) :=
  fun _ _ => ⟨fun h => Bool.noConfusion h, fun _ h => Bool.noConfusion h⟩
theorem Encoded.monitorClear : ∀ a0, Statement (.monitorClear a0) :=
  fun _ => ⟨fun h => Bool.noConfusion h, fun _ h => Bool.noConfusion h⟩
theorem Encoded.monitorTick : Statement .monitorTick :=
  ⟨fun h => Bool.noConfusion h, fun _ h => Bool.noConfusion h⟩
theorem Encoded.powerOn : ∀ a0, Statement (.powerOn a0) :=
  fun _ => ⟨fun h => Bool.noConfusion h, fun _ h => Bool.noConfusion h⟩
theorem Encoded.registerWrite : ∀ a0 a1, Statement (.registerWrite a0 a1) :=
  fun _ _ => ⟨fun h => Bool.noConfusion h, fun _ h => Bool.noConfusion h⟩

end Sys2Proof.Laws
end

