-- ==== Sys2Proof/Laws/Words.lean ====
section
/-!
SUPPORT. Laws of single words: how a word that ends in one of the shared ways completes, and what the integer and byte
operations give as numbers.
-/

namespace Sys2Proof.Machine

/-! ## What a step can have come through -/

theorem need_next {b : Bool} {o : Out} {t : State} : need b o = .next t ↔ b = true ∧ o = .next t := by
  unfold need; cases b <;> simp

theorem needSome_next {α : Type} {x : Option α} {f : α → Out} {t : State} :
    needSome x f = .next t ↔ ∃ a, x = some a ∧ f a = .next t := by
  unfold needSome; cases x <;> simp

theorem withEnv_next {s : State} {f : Env → Out} {t : State} :
    withEnv s f = .next t ↔ ∃ e, s.envOf s.focus = some e ∧ f e = .next t := by
  unfold withEnv; cases s.envOf s.focus <;> simp

/-! ## Completing -/

/-- An instruction that is one lane result. -/
theorem laneOp_word {s : State} {e : Env} (he : s.envOf s.focus = some e) {i : Instr} {k : BitVec 3} {d : Dst} {w : Bool}
   {f : Env → Nat → W64} {v : Nat → W64} (hi : exec i s = laneOp s k d w f) (hv : f e = v) : Completes s e i k d w v := by
  obtain ⟨t, h, h1, h2, h3⟩ := laneOp_completes he k d w f
  exact ⟨t, h, by rw [hi]; exact h1, h2, by rw [← hv]; exact h3⟩

/-- An instruction that leaves its group as `h`. -/
theorem wordDone_word {s : State} {e : Env} (he : s.envOf s.focus = some e) {i : Instr} {h : Group}
   (hi : exec i s = wordDone s e h) (hg : h.gid = e.g.gid) (hf : h.flags = e.g.flags) : CompletesAs s e i h := by
  obtain ⟨t, h1, h2⟩ := wordDone_done he h hg hf
  exact ⟨t, by rw [hi, h1], h2⟩

/-- An instruction that ends in one result. -/
theorem wordDone_result {s : State} {e : Env} (he : s.envOf s.focus = some e) {i : Instr} {k d w} {v v' : Nat → W64}
   (hi : exec i s = wordDone s e (e.g.result (e.lanes k) d w v')) (hv : v' = v) : Completes s e i k d w v := by
  obtain ⟨t, h1, h2⟩ := wordDone_done he _ (Group.result_gid e.g (e.lanes k) d w v') (Group.result_flags ..)
  exact ⟨t, _, by rw [hi, h1], h2, hv ▸ Group.result_wrote ..⟩

/-- A control transfer. -/
theorem transfer_word {s : State} {e : Env} (he : s.envOf s.focus = some e) {i : Instr} {k : BitVec 3} {h : Group} {target : Nat → BitVec 48}
    (hi : exec i s = transfer s e h (e.lanes k) target) (hg : h.gid = e.g.gid) (hf : h.flags = e.g.flags) (hl : h.lpc = e.g.lpc) :
    Transfers s e i k h target := by
  unfold transfer at hi
  dsimp only at hi
  by_cases hel : e.r.hdr.elect
  · rw [if_pos hel] at hi
    refine ⟨_, hi, ?_⟩
    have := endClause_transferred he h hg hf hl (fun _ => if BitVec.getLsbD (e.lanes k) ((lowestLane e.r.lanes).getD 0) = true then target ((lowestLane e.r.lanes).getD 0) else e.r.fall) (if e.lanes k = 0 then 0 else e.r.lanes)
    simpa [Env.decider, hel] using this
  · rw [if_neg hel] at hi
    refine ⟨_, hi, ?_⟩
    have := endClause_transferred he h hg hf hl (fun l => if BitVec.getLsbD (e.lanes k) l = true then target l else e.r.fall) (e.lanes k)
    simpa [Env.decider, hel] using this

/-- An accepted command stands last among the commands, and the group goes on. -/
theorem accept_accepted {s : State} {e : Env} (he : s.envOf s.focus = some e) (g : Group) (o : Op) (hg : g.gid = e.g.gid)
    (hf : g.flags = e.g.flags) : ∃ t, accept s e g o = .next t ∧ Accepted s e t o g := by
  obtain ⟨h1, h2, -⟩ := State.envOf_some he
  have hs : ((s.addOp o).group? g.gid).isSome := by rw [State.group?_addOp, hg, h2, h1]; rfl
  obtain ⟨a1, a2, u, a3, a4, a5⟩ := State.advance_done (s.addOp o) g e.r hs
  rw [hg, h2] at a2 a3
  exact ⟨_, rfl, a1, a2, u, a3, a4, by rw [a5, hf]⟩

/-- A flag-bound command without a pushed result. -/
theorem acceptFlag_accepted {s : State} {e : Env} (he : s.envOf s.focus = some e) (o : Op) :
    ∃ t, acceptFlag s e o false = .next t ∧
      Accepted s e t { o with flag := some e.r.flag, pushAt := e.g.pushes } e.g := by
  obtain ⟨h1, h2, -⟩ := State.envOf_some he
  have hb : e.r.bind.hdr = e.r.hdr := by unfold Run.bind; split <;> rfl
  have hs : ((s.addOp { o with flag := some e.r.flag, pushAt := e.g.pushes }).group? e.g.gid).isSome := by
    rw [State.group?_addOp, h2, h1]; rfl
  obtain ⟨a1, a2, u, a3, a4, a5⟩ := State.advance_done _ e.g e.r.bind hs
  rw [h2] at a2 a3
  exact ⟨_, rfl, a1, a2, u, a3, a4, by rw [← hb]; exact a5⟩

/-- A flag-bound command with a pushed result: the push ages the queue, and the new entry keeps q0 until completion. -/
theorem acceptFlag_push_accepted {s : State} {e : Env} (he : s.envOf s.focus = some e) (o : Op) :
    ∃ t, acceptFlag s e o true = .next t ∧
      Accepted s e t { o with flag := some e.r.flag, pushAt := e.g.pushes + 1 } (e.g.push 0 fun _ => 0) := by
  obtain ⟨h1, h2, -⟩ := State.envOf_some he
  have hb : e.r.bind.hdr = e.r.hdr := by unfold Run.bind; split <;> rfl
  have hs : ((s.addOp { o with flag := some e.r.flag, pushAt := e.g.pushes + 1 }).group? (e.g.push 0 fun _ => 0).gid).isSome := by
    rw [State.group?_addOp]; show (s.group? e.g.gid).isSome; rw [h2, h1]; rfl
  obtain ⟨a1, a2, u, a3, a4, a5⟩ := State.advance_done _ (e.g.push 0 fun _ => 0) e.r.bind hs
  have h3 : (e.g.push 0 fun _ => 0).gid = s.focus := h2
  rw [h3] at a2 a3
  exact ⟨_, rfl, a1, a2, u, a3, a4, by rw [← hb]; exact a5⟩

theorem Group.push_wrote (g : Group) : Wrote g (g.push 0 fun _ => 0) 0 .queue false fun _ => 0 :=
  Group.result_wrote g 0 .queue false fun _ => 0

/-! ## Branch targets -/

/-- The target of a displacement: the header's address plus 8 times it (03 R97). -/
theorem Run.disp_eq (r : Run) (v : BitVec 32) : r.disp v = r.addr + BitVec.ofInt 48 (8 * v.toInt) := by
  unfold Run.disp
  congr 1
  apply BitVec.eq_of_toNat_eq
  rw [BitVec.toNat_shiftLeft, BitVec.toNat_ofInt, Nat.shiftLeft_eq, BitVec.toNat_signExtend, BitVec.toInt_eq_msb_cond]
  simp only [BitVec.toNat_setWidth]
  split <;> omega

end Sys2Proof.Machine

namespace Sys2Proof

open Machine

/-! ## Integer results as numbers -/

theorem IntTy.fix_false (t : IntTy) (x : Int) : t.fix false x = t.form x := rfl

theorem IntTy.pat_form (t : IntTy) (x : Int) : (t.pat (t.form x) : Int) = x % 2 ^ t.width := by
  cases t <;> simp only [IntTy.pat, IntTy.form, IntTy.width, BitVec.toNat_setWidth, BitVec.toNat_signExtend, BitVec.toNat_ofInt]
  case i16 => split <;> omega
  case i8 => split <;> omega
  all_goals omega

theorem IntTy.form_high (t : IntTy) (x : Int) (h : t.width < 64) : (t.form x).toNat < 2 ^ 32 := by
  cases t <;> simp only [IntTy.form, IntTy.width, BitVec.toNat_setWidth, BitVec.toNat_signExtend, BitVec.toNat_ofInt] at h ⊢
  case i16 => split <;> omega
  case i8 => split <;> omega
  all_goals omega

theorem IntTy.form_extended (t : IntTy) (x : Int) (i : Nat) (h : t.width ≤ i) (h2 : i < 32) :
    (t.form x).getLsbD i = (t.signed && (t.form x).getLsbD (t.width - 1)) := by
  cases t <;> simp only [IntTy.form, IntTy.width, IntTy.signed] at h ⊢
  all_goals try omega
  all_goals simp [BitVec.getLsbD_setWidth, BitVec.getLsbD_signExtend]
  all_goals grind

theorem IntTy.toInt_form (t : IntTy) (x : Int) : t.toInt (t.form x) % 2 ^ t.width = x % 2 ^ t.width := by
  rw [t.toInt_mod, IntTy.pat_form, Int.emod_emod_of_dvd _ (dvd_refl _)]

theorem IntTy.toInt_range (t : IntTy) (v : W64) : t.min ≤ t.toInt v ∧ t.toInt v ≤ t.max := by
  cases t <;> simp only [IntTy.min, IntTy.max, IntTy.toInt, IntTy.width, IntTy.signed, Bool.true_and, Bool.false_and, Bool.false_eq_true, if_false, if_true, Int.ofNat_eq_natCast] <;> (try split) <;> constructor <;> norm_num at * <;> omega

theorem IntTy.clamp_big (t : IntTy) (a : Int) (n : Nat) (h1 : t.min ≤ a) (h2 : a ≤ t.max) (hn : 128 ≤ n) :
    t.clamp (a * 2 ^ 128) = t.clamp (a * 2 ^ n) := by
  have hb : t.min ≤ 0 ∧ -(2^64) ≤ t.min ∧ t.max ≤ 2 ^ 64 ∧ 0 ≤ t.max := by cases t <;> decide
  have hp : (2:Int) ^ 128 ≤ 2 ^ n := pow_le_pow_right₀ (by norm_num) hn
  unfold IntTy.clamp
  rcases lt_trichotomy a 0 with ha | ha | ha
  · have e1 : a * 2 ^ 128 ≤ -(2^128) := by nlinarith [show (0:Int) < 2^128 by positivity]
    have e2 : a * 2 ^ n ≤ -(2^128) := by nlinarith
    rw [if_pos (by norm_num at *; omega), if_pos (by norm_num at *; omega)]
  · subst ha; simp
  · have e1 : (2^128) ≤ a * 2 ^ 128 := by nlinarith [show (0:Int) < 2^128 by positivity]
    have e2 : (2^128) ≤ a * 2 ^ n := by nlinarith
    rw [if_neg (by norm_num at *; omega), if_pos (by norm_num at *; omega), if_neg (by norm_num at *; omega), if_pos (by norm_num at *; omega)]

theorem shlVal_eq (t : IntTy) (sat : Bool) (v : W64) (n : Nat) : shlVal t sat v n = t.fix sat (t.toInt v * 2 ^ n) := by
  unfold shlVal
  by_cases h : n ≤ 128
  · rw [show Nat.min n 128 = n from Nat.min_eq_left h]
  · push Not at h
    rw [show Nat.min n 128 = 128 from Nat.min_eq_right h.le]
    unfold IntTy.fix
    cases sat
    · simp only [Bool.false_eq_true, if_false]
      apply t.form_congr
      have d1 : (2:Int) ^ t.width ∣ 2 ^ 128 := pow_dvd_pow 2 (le_trans t.width_le (by norm_num))
      have d2 : (2:Int) ^ t.width ∣ 2 ^ n := pow_dvd_pow 2 (by have := t.width_le; omega)
      rw [Int.emod_eq_zero_of_dvd (d1.mul_left _), Int.emod_eq_zero_of_dvd (d2.mul_left _)]
    · simp only [if_true]
      rw [IntTy.clamp_big t _ n (t.toInt_range v).1 (t.toInt_range v).2 h.le]

theorem shraVal_eq (t : IntTy) (v : W64) (n : Nat) : shraVal t v n =
    t.fix false ((if 2 ^ (t.width - 1) ≤ t.pat v then (t.pat v : Int) - 2 ^ t.width else t.pat v) / 2 ^ n) := by
  unfold shraVal signedPat
  rw [IntTy.fix_false]
  congr 1
  simp only [Int.ofNat_eq_natCast]
  have hp := t.pat_lt v
  have hb : (2:Int) ^ t.width ≤ 2 ^ 64 := pow_le_pow_right₀ (by norm_num) t.width_le
  generalize hx : (if 2 ^ (t.width - 1) ≤ t.pat v then (t.pat v : Int) - 2 ^ t.width else t.pat v) = x
  have hx1 : -(2^64) ≤ x ∧ x < 2 ^ 64 := by
    have hp' : (t.pat v : Int) < 2 ^ t.width := by exact_mod_cast hp
    subst hx; split <;> constructor <;> omega
  have h2 : ∀ m, 64 ≤ m → x / 2 ^ m = if x < 0 then -1 else 0 := by
    intro m hm
    have hpm : (2:Int) ^ 64 ≤ 2 ^ m := pow_le_pow_right₀ (by norm_num) hm
    split
    · rw [Int.ediv_eq_iff_of_pos (by positivity)]; constructor <;> nlinarith
    · exact Int.ediv_eq_zero_of_lt (by omega) (by omega)
  rw [Int.fdiv_eq_ediv_of_nonneg _ (by positivity)]
  by_cases h : n ≤ 64
  · rw [show Nat.min n 64 = n from Nat.min_eq_left h]
  · push Not at h
    rw [show Nat.min n 64 = 64 from Nat.min_eq_right h.le, h2 64 le_rfl, h2 n h.le]

/-! ## Fields and bytes -/

theorem fld_eq (v : W64) (hi lo : Nat) : fld v hi lo = v.toNat / 2 ^ lo % 2 ^ (hi - lo + 1) := by
  unfold fld; rw [Nat.shiftRight_eq_div_pow]

theorem bextVal_extracts (t : IntTy) (a : W64) (p n : Nat) : ExtractsField t a p n (bextVal t a p n) := by
  unfold ExtractsField bextVal
  dsimp only
  split
  · next h =>
    simp
    cases t <;> rfl
  · next h =>
    generalize hm : min n t.width = m
    have hm' : Nat.min n t.width = m := hm
    rw [hm']
    generalize hf : t.pat a / 2 ^ p % 2 ^ m = f
    have hlt : f < 2 ^ m := by subst hf; exact Nat.mod_lt _ (by positivity)
    show t.form _ = t.form _
    congr 1
    by_cases h0 : m = 0
    · subst h0; simp
    · have hb : f.testBit (m - 1) = decide (2 ^ (m - 1) ≤ f) := by
        rw [Nat.testBit_eq_decide_div_mod_eq]
        have : 2 ^ m = 2 * 2 ^ (m - 1) := by rw [← pow_succ']; congr 1; omega
        have h1 : f / 2 ^ (m - 1) < 2 := Nat.div_lt_of_lt_mul (by omega)
        by_cases hc : 2 ^ (m - 1) ≤ f
        · have := (Nat.one_le_div_iff (by positivity : 0 < 2 ^ (m - 1))).2 hc
          have h3 : f / 2 ^ (m - 1) = 1 := by omega
          simp [hc, h3]
        · have := Nat.div_eq_of_lt (Nat.lt_of_not_le hc)
          simp [hc, this]
      rw [hb]
      have : 0 < m := by omega
      cases t.signed <;> simp [h0, this]

theorem binsVal_inserts (t : IntTy) (a b : W64) (p n : Nat) : ∃ v : Nat, binsVal t a b p n = t.fix false (v : Int) ∧ InsertsField t a b p n v := by
  unfold binsVal
  split
  · next h => exact ⟨t.pat a, rfl, t.pat_lt a, fun i hi => by rw [if_neg (by omega)]⟩
  · next h =>
    refine ⟨_, rfl, natOfBits_lt _ _, fun i hi => ?_⟩
    rw [testBit_natOfBits]
    have : p < t.width := by omega
    simp only [hi, decide_true, Bool.true_and, this, true_and]
    have e : Nat.min n t.width = min n t.width := rfl
    rw [e]
    by_cases h1 : p ≤ i ∧ i < p + min n t.width
    · rw [if_pos h1]; simp [h1]
    · rw [if_neg h1]
      rw [if_neg]
      simpa using h1

theorem natOfBytes_succ (n : Nat) (f : Nat → Nat) : natOfBytes (n + 1) f = natOfBytes n f + f n % 256 * 2 ^ (8 * n) := by
  unfold natOfBytes
  rw [List.range_succ, List.foldl_append]; rfl

theorem natOfBytes_lt (n : Nat) (f : Nat → Nat) : natOfBytes n f < 256 ^ n := by
  induction n with
  | zero => simp [natOfBytes]
  | succ n ih =>
    rw [natOfBytes_succ, show 2 ^ (8 * n) = 256 ^ n by rw [pow_mul]; norm_num, pow_succ]
    have : f n % 256 ≤ 255 := by omega
    nlinarith [Nat.mul_le_mul_right (256 ^ n) this]

theorem natOfBytes_get (n : Nat) (f : Nat → Nat) (i : Nat) (h : i < n) : natOfBytes n f / 256 ^ i % 256 = f i % 256 := by
  induction n with
  | zero => omega
  | succ n ih =>
    rw [natOfBytes_succ, show 2 ^ (8 * n) = 256 ^ n by rw [pow_mul]; norm_num]
    by_cases hi : i = n
    · subst hi
      rw [Nat.add_mul_div_right _ _ (by positivity), Nat.div_eq_of_lt (natOfBytes_lt _ _)]
      omega
    · obtain ⟨j, rfl⟩ : ∃ j, n = i + 1 + j := ⟨n - i - 1, by omega⟩
      have : f (i + 1 + j) % 256 * 256 ^ (i + 1 + j) = (f (i + 1 + j) % 256 * 256 ^ j * 256) * 256 ^ i := by ring
      rw [this, Nat.add_mul_div_right _ _ (by positivity), Nat.add_mul_mod_self_right]
      exact ih (by omega)

theorem byteAt_eq (v : W64) (i : Nat) : byteAt v i = v.toNat / 256 ^ i % 256 := by
  unfold byteAt; rw [pow_mul]; norm_num

end Sys2Proof
end

