-- ==== Sys2Proof/Tests/Slice0.lean ====
section
/-!
SUPPORT. Tests of the model, and for each statement a state and operands that meet its hypotheses.  The words of the
decode tests are the spec's worked examples, or are built by hand from the encoding tables that the comment names.
-/

namespace Sys2Proof.Tests

open Sys2Proof Sys2Proof.Machine

/-! ## Ill-formed terms, refused -/

def ib (t : IntTy) (sat : Bool := false) (b : Opd := .src (.q 0)) : IBin := ⟨0, .queue, .q 0, b, t, sat⟩
def iu (t : IntTy) (sat : Bool := false) : IUn := ⟨0, .queue, .q 0, t, sat⟩
def it (t : IntTy) (sat : Bool := false) : ITer := ⟨0, .queue, .q 0, .q 0, .q 0, t, sat⟩
def fb (t : FpTy) (r : Rnd := .rne) (b : Opd := .src (.q 0)) : FBin := ⟨0, .queue, .q 0, b, t, r, false⟩
def fu (t : FpTy) (r : Rnd := .rne) (ftz : Bool := false) : FUn := ⟨0, .queue, .q 0, t, r, ftz⟩
def mx (sp : Space) (rq : Req) (sz : Size) (o : Order := .relaxed) (sc : Scope := .grp) : MemX := ⟨sp, rq, sc, o, sz⟩
def cx (n : BitVec 6) (cls : Option Space := none) (src dst : Space := .g) : CopyX :=
  ⟨0, .q 0, .q 0, n, src, dst, .grp, cls, false⟩

/-- 02 Table 2.6: a literal's type; 03 Table 3.2: sat, types and field bounds; 03 R96, R108. -/
theorem test_ill_formed_integer : ([.iadd (ib .n32 false (.lit 1)), .isub (ib .i32 true (.lit 1)), .iadc (it .i64),
    .isbc (it .n32 true), .imulh (ib .i16), .imulh (ib .i32 true), .irem (ib .i32 true), .iabs (iu .n32), .isel (it .i32 true),
    .and (ib .i32 true), .not (iu .i32 true), .bext (iu .i32) 32 1, .bext (iu .i32) 0 33, .bextR (ib .i32 true),
    .bins 0 .queue (.q 0) (.q 0) .i8 8 1, .bins 0 .queue (.q 0) (.q 0) .i8 0 9, .binsR (it .i32 true),
    .bint 0 .queue (.q 0) (.q 0) none .i32, .bdin false (iu .n32) 2, .bdin true (iu .n32) 3, .bdin false (iu .i32) 0,
    .bperm (it .i32), .blut false (it .n16), .movs (ib .i32 true), .kop .kand 0 .queue (.q 0) 0 0 0,
    .kop .kand 1 .queue (.q 0) 1 0 0, .kop .knot 0 .queue (.q 0) 1 0 1, .kop .fromv 0 .queue (.q 0) 1 1 0,
    .kop .tov 0 .queue (.q 1) 0 0 0, .kop .froms 0 .queue (.q 0) 0 0 0, .lprev 0 .queue (.q 0) (some (.lit 1)) .n32,
    .lscan .min false (iu .i32 true), .lred .and (iu .i32 true), .vote .any (iu .i32 true), .rep ⟨0, 0, false, false, false, false⟩,
    .rep ⟨33, 0, false, false, false, false⟩, .rep ⟨2, 1, false, false, false, false⟩, .rep ⟨2, 0, false, false, false, true⟩]
      : List Instr).all (fun i => !i.wf) = true := by decide

/-- 04 Table 4.3 and 05 Table 5.9: literals, types and rounding modes. -/
theorem test_ill_formed_float : ([.fadd (fb .f16 .rne (.lit 1)), .fmul (fb .f32 .rtz (.lit 1)), .fmin (fb .f32 .rup),
    .fcmp .eq (fb .f32 .rdn), .fcls (fu .f16x2), .fcls (fu .f32 .rtz), .fcls (fu .f32 .rne true), .fdiv (fb .f16x2),
    .fsqrt (fu .bf16x2), .cvt 0 .queue (.q 0) (.int .i32) (.int .i32) .rne false,
    .cvt 0 .queue (.q 0) (.fp .f16x2) (.fp .f32) .rne false, .cvt 0 .queue (.q 0) (.int .i32) (.fp .f16x2) .rne false,
    .fdot2 ⟨0, .queue, .q 0, .q 0, .q 0, .f32, .rne, false⟩, .frcp (fu .f64), .ftanh (fu .f32 .rtz),
    .vld 0 0 (.q 0) (mx .g .own .b64), .vst 0 (.q 0) 0 (mx .g .own .b64), .vcvtTov 0 0 (.q 0) (.fp .f16x2),
    .vcvtFromv 0 .queue 0 (.fp .bf16x2) .rne] : List Instr).all (fun i => !i.wf) = true := by decide

/-- 06 Table 6.4: spaces, request types, orders, scopes and sizes. -/
theorem test_ill_formed_memory : ([.ld 0 .queue (.q 0) (mx .g .wt .b32) false, .ld 0 .queue (.q 0) (mx .s .si .b32) false,
    .ld 0 .queue (.q 0) (mx .g .own .b32 .rel .die) false, .ld 0 .queue (.q 0) (mx .g .own .b32 .relaxed .die) false,
    .ld 0 .queue (.q 0) (mx .g .own .b32) true, .ld 0 .queue (.q 0) (mx .g .own .b128) false,
    .ld 0 (.w 0) (.q 0) (mx .g .own .b512) false, .st 0 (.q 0) (.q 0) (mx .g .si .b32),
    .st 0 (.q 0) (.q 0) (mx .g .own .b256), .st 0 (.q 0) (.q 0) (mx .g .own .b32 .acq .die), .ldv 0 .queue (.q 0) (mx .l .own .b32),
    .stv 0 (.q 0) (.q 0) (mx .g .own .b16), .ldtol 0 .queue (.q 0) (.q 0) (mx .s .add .b32),
    .ldtolDet 0 .queue (.q 0) (mx .g .add .b8), .ldtolV 0 0 (.q 0) (.q 0) (mx .g .add .b64),
    .stadd 0 (.q 0) (.q 0) (mx .g .add .b32 .acq .die), .staddV 0 (.q 0) 0 (mx .g .own .b32), .pfx 0 (.q 0) .wt,
    .ldbt 0 .queue (.q 0) (mx .g .nc .b32), .stbt 0 (.q 0) (.q 0) (mx .g .own .b16), .l1Eviction 576 0, .pageWalk 576 0,
    .clauseIssue 576 0 false, .clauseIssue 0 4 false] : List Instr).all (fun i => !i.wf) = true := by decide

/-- 09 Table 9.5, 11 Table 11.1, 12 Table 12.5, 13 Table 13.1, 14 Table 14.12. -/
theorem test_ill_formed_engines : ([.copy (cx 63), .copy2d (cx 62), .copy3d (cx 61), .copy (cx 0 (some .l)),
    .copym (cx 0 none .g .g), .copym (cx 0 none .l .c), .bwait 0 17, .clinit 0 (.q 0) (.q 0) (.q 0) .l, .clwait 0 .queue (.q 0) (.q 0) .l .grp,
    .cltest 0 .queue (.q 0) .l none, .clinv 0 (.q 0) .l, .tld ⟨0, ⟨0, none⟩, .q 0, .q 0, .g, false, false, 0, false⟩,
    .tst ⟨0, ⟨0, none⟩, .q 0, .q 0, .s, true, false, 1, false⟩, .tzero 0 ⟨0, none⟩ 0, .accld ⟨0, ⟨0, none⟩, .q 0, .q 0, .s, true⟩,
    .sclw 0 (.q 0) 17, .sclr 0 .queue 17, .popld ⟨0, .queue, some (.q 0, .l), 0⟩,
    .smplg ⟨0, .quad, .queue, 0, 0, none, false, 0, 1, 1, false⟩, .smplg ⟨0, .quad, .queue, 0, 0, some (.q 0), false, 0, 1, 2, false⟩,
    .smplg ⟨0, .grad, .queue, 0, 0, some (.q 0), false, 0, 1, 2, false⟩, .atom .add 0 .queue (.q 0) (.q 0) ⟨.s, .grp, .relaxed, false⟩,
    .fatom .add 0 .queue (.q 0) (.q 0) ⟨.g, .die, .relaxed, false⟩, .atomw .min 0 .queue (.q 0) (.q 0) (.q 0) ⟨.g, .grp, .relaxed, false⟩,
    .bnginit 0 (.q 0) (.q 0) (.q 0) ⟨.g, .die, .acq, true⟩, .launch ⟨0, .queue, .q 0, .q 0, 61, .sys, none⟩,
    .launch ⟨0, .queue, .q 0, .q 0, 0, .sys, some .s⟩, .emitn 0 .queue (.q 0) (.q 0) .l 0, .csrr 0 .queue 0, .csrr 0 .queue 6,
    .csrw 0 (.q 0) 3] : List Instr).all (fun i => !i.wf) = true := by decide

/-- Numbers of queues, cores, classes, ports, dies, registers and monitors that the part does not have (01 R10, 14 R371, 15). -/
theorem test_ill_formed_steps : ([.queueNop 64, .teamLaunch 0 [0, 576], .nodeTeamLaunch 0 0 576, .dbgactSkip 64 0, .restore 0 576,
    .clsbudWrite 5 0, .portEnable 16, .orderlyReset 2, .lostmapClear 8 0, .ptcCorrection 2 0, .timeExchange 16 0 0 0 0 ⟨false, 0, 0⟩,
    .monitorClear 16] : List Instr).all (fun i => !i.wf) = true := by decide

/-! ## Words that the spec writes out -/

/-- 02, 03, 04, 05: the worked examples. -/
theorem test_decode_lane : decodeTableWord 64 0x010022CA00000064 = some (.iadd ⟨0, .w 1, .sp .laneid, .lit 100, .i32, false⟩) ∧
    decodeTableWord 64 0x1500244600000002 = some (.shl ⟨0, .w 2, .w 1, .lit 2, .i32, false⟩) ∧ decodeTableWord 64 0x3400000000000000 = some (.exit 0) ∧
    decodeTableWord 64 0x0E0500CA00000003 = some (.icmp .ge ⟨0, .queue, .sp .laneid, .lit 3, .i32, false⟩) ∧
    decodeTableWord 64 0x2D06000000000001 = some (.kop .fromv 0 .queue (.q 0) 1 0 0) ∧ decodeTableWord 64 0x3020000200000007 = some (.bra 1 7) ∧
    decodeTableWord 64 0x43002A444A184000 = some (.ffma ⟨0, .w 5, .w 1, .w 2, .s 3, .f32, .rup, false⟩) ∧
    decodeTableWord 64 0x6200305054000000 = some (.vadd ⟨0, 8, 4, 5⟩) := by decide

/-- 06: loads, stores, fences and queries. -/
theorem test_decode_memory : decodeTableWord 64 0x7000244400044040 = some (.ld 0 (.w 2) (.w 1) (mx .g .si .b32) false) ∧
    decodeTableWord 64 0x6000284400044040 = some (.vld 0 4 (.w 1) (mx .g .si .b32)) ∧
    decodeTableWord 64 0x7100004478042040 = some (.st 0 (.w 1) (.w 14) (mx .g .wt .b32)) ∧
    decodeTableWord 64 0x7903000000001400 = some (.fence .sc 0 .pkg) ∧
    decodeTableWord 64 0x750000444C048040 = some (.stadd 0 (.w 1) (.w 3) (mx .g .add .b32)) ∧
    decodeTableWord 64 0x7401284400048040 = some (.ldtolDet 0 (.w 4) (.w 1) (mx .g .add .b32)) ∧
    decodeTableWord 64 0x7C002C4400040060 = some (.mapq 0 (.w 6) (.w 1)) := by decide

/-- 09 to 14: copies, matrix, sampler, atomics and system words. -/
theorem test_decode_engines : decodeTableWord 64 0x900001310A542880 = some (.copy ⟨0, .s 12, .s 2, 10, .g, .s, .core, some .s, false⟩) ∧
    decodeTableWord 64 0x99000128C0002800 = some (.clwait 0 .queue (.s 10) (.sp .zero) .s .core) ∧
    decodeTableWord 64 0xA200000002A80000 = some (.mmafx ⟨0, ⟨0, none⟩, ⟨0, none⟩, ⟨0, none⟩, .s 21⟩) ∧
    decodeTableWord 64 0xA900010000000004 = some (.sclw 0 (.s 0) 4) ∧
    decodeTableWord 64 0xC000284900000000 = some (.smpl ⟨0, 4, 2, 0, false, 0, 0⟩) ∧
    decodeTableWord 64 0xC861010844040040 = some (.atom .min 3 .queue (.s 2) (.w 1) ⟨.g, .grp, .relaxed, false⟩) ∧
    decodeTableWord 64 0xF500280000000000 = some (.ptime 0 (.w 4)) ∧ decodeTableWord 64 0xF10000020000002A = some (.trap 0 42) := by decide

/-- 02 Table 2.8: an opcode that Table 2.7 does not assign is refused, whatever its other bits. -/
theorem test_decode_unassigned : (match decodeWord 0xFF00000000000000 with | .ok _ => false | .error _ => true) = true ∧
    decodeTableWord 64 0xFF00000000000000 = none := by decide

theorem test_table_word : decodeTableWord 64 0x010022CA00000064 = some (.iadd ⟨0, .w 1, .sp .laneid, .lit 100, .i32, false⟩) := by
  decide

/-! ## One step -/

def headW (s : State) (n : BitVec 5) (w l : Nat) : W32 := match s.groups with | g :: _ => g.winWord n w l | [] => 0

/-- What lane `l` of window `n` holds after the placed word. -/
def afterWord (w : Nat) (n : BitVec 5) (l : Nat) : Option W32 :=
  match step (State.reset.withFetchWord 64 w) with
  | .next t => some (headW t n 0 l)
  | _ => none

/-- 02's worked example: IADD w1, laneid, 100 gives lane 31 the number 131. -/
theorem test_step_iadd : afterWord 0x010022CA00000064 1 31 = some 131 := by decide
/-- A placed word runs as the first step after reset: EXIT, LD, MMAFX, TRAP, PTIME. -/
theorem test_step_first : [0x3400000000000000, 0x7000244400044040, 0xA200000002A80000, 0xF10000020000002A, 0xF500280000000000].all
    (fun w => isNext (step (State.reset.withFetchWord 64 w))) = true := by decide +kernel

/-! ## States that meet the hypotheses of the statements

Each theorem names the statements whose hypotheses it meets; clauses that differ have a conjunct each. -/

def run1 : Run := oneWordRun 0x010022CA00000064
/-- A group that runs a word, mask k2 naming lane 31 and k1 no lane, with some addresses in its scalars. -/
def g1 : Group :=
  { freshGroup 1 2 run1 with
    queue := List.replicate 16 []
    masks := [(2, 0x80000000)]
    scal := [(1, 0x10000), (2, 0x20000), (3, 0x40), (4, 0x3C), (5, 0xFFFF), (6, 1), (7, 24)] }
def t1 : Team := { freshTeam 2 1 with accUnits := 512 }
def gr1 : Grid := freshGrid 1 roomyKObj
def e1 : Env := ⟨g1, run1, t1, gr1⟩

/-- 07 Table 7.3: regions of INT32 and of VLF elements. -/
def region1 : Region := ⟨1, 0x10000, 0x10000, 2, 0, 0, 16⟩
def region2 : Region := ⟨2, 0x20000, 0x10000, 4, 2, 0, 0⟩

/-- The device with one group `g`, commands `ops`, three cached pages (a normal one, and one of each region). -/
def st (g : Group) (ops : List Op) : State :=
  { State.reset with
    groups := [g], teams := [t1], grids := [gr1], ops := ops, focus := 1, nextId := 9, nextGrid := 2
    tlb := [⟨0, 0, 0, 0x3C0⟩, ⟨0, 0x10000, 0, 0x4004007C0⟩, ⟨0, 0x20000, 0, 0x8008007C0⟩]
    regions := [region1, region2] }

def s1 : State := st g1 []

/-- Queue 0 with a debugger. -/
def dbg (s : State) : State := { s with queues := { HQueue.reset with ctl := 0x100 } :: List.replicate 63 HQueue.reset }

/-- IntegerArithmetic, CarryArithmetic, CompareAndSelect, LogicAndShifts, BitCounts, MaskOperations, StatusRegisters,
SystemRegisters: a group runs a word.  Moves, LoopCounters, CrossLane, BlockCommandsIssue, ClaspWait, MatrixIssue,
SamplerCommands, NestedLaunch, RecordEmission: masks with lane 0, lane 31 and no lane lowest. -/
theorem wit_running_word : s1.envOf s1.focus = some e1 ∧ lowestLane (e1.lanes 0) = some 0 ∧ lowestLane (e1.lanes 2) = some 31 ∧
    lowestLane (e1.lanes 1) = none ∧ e1.lanes 0 ≠ 0 ∧ e1.lanes 1 = 0 := by decide

/-- IntegerArithmetic: bits between a narrow type's width and bit 31. -/
theorem wit_IntegerArithmetic : IntTy.i8.width ≤ 8 ∧ 8 < 32 ∧ IntTy.n16.width ≤ 31 ∧ IntTy.n32.width < 64 := by decide

/-- FloatRounding: three numbers, of which two give a sum other than 0 and two a sum of 0; a PREC of 8 bits, and one of 256
in a window of one limb. -/
theorem wit_FloatRounding : let num := fun (v : Nat) => FpTy.f32.fmt.unpack v
    (num 0x3F800000).finite ∧ (num 0xBF800000).finite ∧ (num 0x40000000).finite ∧
    (num 0x3F800000).value + (num 0x40000000).value ≠ 0 ∧ (num 0x3F800000).value + (num 0xBF800000).value = 0 ∧
    (num 0x3F800000).value * (num 0).value = 0 ∧ precOk 8 = true ∧ precOk 256 = true ∧ 1 ≤ 1 ∧ 8 ≤ 8 ∧ (1 : Nat) < 2 ^ 256 := by
  refine ⟨⟨by decide, by decide⟩, ⟨by decide, by decide⟩, ⟨by decide, by decide⟩, ?_, ?_, ?_, by decide, by decide, by decide,
    by decide, by decide⟩ <;>
    simp [show FpTy.f32.fmt.unpack 0x3F800000 = .fin false 0x800000 (-23) by decide,
      show FpTy.f32.fmt.unpack 0xBF800000 = .fin true 0x800000 (-23) by decide,
      show FpTy.f32.fmt.unpack 0x40000000 = .fin false 0x800000 (-22) by decide,
      show FpTy.f32.fmt.unpack 0 = .fin false 0 (-149) by decide, Fp.value]
  norm_num

/-- BitFields: BPERM's one type; every field bound at its edge. -/
theorem wit_BitFields : (it .n32).t = .n32 ∧ s1.envOf s1.focus = some e1 := by decide

/-- ControlTransfers: aligned register targets in every lane; EXIT of all live lanes with no command left. -/
theorem wit_ControlTransfers : (∀ l, l < 32 → (e1.lanes 0).getLsbD l = true → (e1.src64 (.s 3) l).toNat % 8 = 0) ∧
    e1.g.live &&& ~~~e1.lanes 0 = 0 ∧ (∀ o ∈ s1.ops, o.gid = s1.focus → o.flag = none ∧ o.fault = none) := by decide

/-- ControlTransfers: a misaligned target of lane 31, the lowest of its mask; a debugger; a sampler command under way. -/
theorem wit_ControlTransfers_misaligned : (e1.lanes 2).getLsbD 31 = true ∧ (e1.src64 (.s 4) 31).toNat % 8 ≠ 0 ∧
    (∀ l, l < 31 → (e1.lanes 2).getLsbD l = false) ∧ (dbg s1).envOf 1 = some e1 ∧ e1.gr.serves = none ∧
    ((dbg s1).queue e1.gr.queue).ctl.getLsbD 8 = true ∧ (dbg s1).samplerBusy 1 = false ∧ (dbg s1).ctxFits = true ∧
    (st g1 [{ newOp s1 e1 (.smpl ⟨0, 4, 2, 3, false, 0, 0⟩) 1 [] [] with id := 5 }]).samplerBusy 1 = true := by decide

/-- A clause of two words, REP in force on word 2 with a run left. -/
def runRep : Run := { run1 with hdr := { run1.hdr with count := 2 } }
def gRep : Group := { g1 with run := some runRep }
def run2 : Run := { run1 with hdr := { run1.hdr with count := 2 }, idx := 2, rep := some ⟨2, 0, false, false, false, false⟩ }

/-- WordSequence: a run of REP left; a word left; the last word; REP at word 1. -/
theorem wit_WordSequence : (s1.group? g1.gid).isSome = true ∧ (run2.idx = 2 ∧ run2.runNo + 1 < 2) ∧
    ({ run2 with rep := none, idx := 1 }.idx < run2.hdr.count) ∧ run1.hdr.count ≤ run1.idx ∧
    ((st gRep []).envOf 1 = some ⟨gRep, runRep, t1, gr1⟩ ∧ runRep.idx = 1 ∧ 1 < runRep.hdr.count) := by decide

/-- A group whose lane 31 enables every exception in FPST and in PREC (precision 1, maximum 8). -/
def eTrap : Env := { e1 with g := { g1 with fpst := [(31, 0x3E0)], prec := [(31, 0xFFFFFF)] } }

/-- FloatResults: no enabled exception, and one in lane 31. -/
theorem wit_FloatResults : ¬e1.fpTrap (e1.lanes 0) (fun _ => 0x1F) ∧ eTrap.fpTrap (eTrap.lanes 0) (fun _ => 1) ∧
    (st eTrap.g []).envOf 1 = some eTrap :=
  ⟨by rintro ⟨l, hl, h⟩; revert l; decide, ⟨31, by decide⟩, by decide⟩

/-- VlfResults: no enabled condition with a window of nine words, and an enabled one in lane 31. -/
theorem wit_VlfResults : ¬e1.vlfTrap (e1.lanes 0) (fun _ => 0x1F) ∧ e1.limbCap 31 ≤ 8 ∧
    eTrap.vlfTrap (eTrap.lanes 0) (fun _ => xCF) :=
  ⟨by rintro ⟨l, hl, h⟩; revert l; decide, by decide, ⟨31, by decide⟩⟩

/-- LoadsIssue: sizes of 8 and 16 bytes, an access that ends at its block's end and one that crosses it. -/
theorem wit_LoadsIssue : (mx .s .own .b64).size.bytes ≤ 8 ∧ 8 < (mx .s .own .b128).size.bytes ∧
    ((e1.src64 (.s 3) 0).toNat % 64 + 16 ≤ 64) ∧ 64 < (e1.src64 (.s 4) 0).toNat % 64 + 16 ∧ lowestLane (e1.lanes 0) = some 0 := by
  decide

/-- StoresIssue: every lane's place, in a local space for ST and STV, on a normal page for STBT, on a commutative one for
STADD. -/
theorem wit_StoresIssue : e1.lanes 0 ≠ 0 ∧ s1.ops.all (fun o => o.fault.isNone) = true ∧
    (∀ l, l < 32 → (e1.lanes 0).getLsbD l = true →
      s1.placePiece g1 t1 gr1 .store (newPart l .s (e1.src64 (.s 3) l) 0 8 .waiting) 8 8 = .at (spadKey 0 64) none) ∧
    (∀ l, l < 32 → (e1.lanes 0).getLsbD l = true → (e1.src64 (.s 3) l).toNat % 64 + 32 ≤ 64 ∧
      s1.placePiece g1 t1 gr1 .store (newPart l .s (e1.src64 (.s 3) l) 0 32 .waiting) 32 16 = .at (spadKey 0 64) none) ∧
    (e1.src64 (.s 3) 0).toNat % 8 = 0 ∧
    (∀ l, l < 32 → (e1.lanes 0).getLsbD l = true → s1.placePiece g1 t1 gr1 .store
      (newPart l .s (e1.src64 (.s 3) 0 + BitVec.ofNat 64 (l * 4)) 0 4 .waiting) 4 4 = .at (spadKey 0 (64 + 4 * l)) none) := by
  decide

theorem wit_StoresIssue_global :
    (∀ l, l < 32 → (e1.lanes 0).getLsbD l = true →
      s1.placePiece g1 t1 gr1 .stbt (newPart l .g (e1.src64 (.s 3) l) 0 2 .waiting) 64 64 = .at 64 none) ∧
    sizeFits region1 .b32 = true ∧ s1.region? 1 = some region1 ∧
    (∀ l, l < 32 → (e1.lanes 0).getLsbD l = true →
      s1.placePiece g1 t1 gr1 .stadd (newPart l .g (e1.src64 (.s 1) l) 0 4 .waiting) 4 4 = .at 0x10000 (some 1)) := by decide

/-- OtherMemoryWords: a malformed element, which VST and STADD.v store as a NaN of two words; INVL.line of a page that is
there. -/
theorem wit_OtherMemoryWords :
    ¬e1.vlfTrap (e1.lanes 0) (fun l => (vstWords (e1.limbCap 4) (g1.winWord 4 0 l) (e1.winLimbs 4 l)).2) ∧
    (∀ l, l < 32 → (e1.lanes 0).getLsbD l = true → (vstWords (e1.limbCap 4) (g1.winWord 4 0 l) (e1.winLimbs 4 l)).1.length = 2) ∧
    (∀ l, l < 32 → (e1.lanes 0).getLsbD l = true →
      ∀ j, j < 2 → s1.placePiece g1 t1 gr1 .store (newPart l .s (e1.src64 (.s 3) l) (4 * j) 4 .waiting) 8 4 =
        .at (spadKey 0 (64 + 4 * j)) none) ∧
    region2.fmt = 4 ∧ s1.region? 2 = some region2 ∧ (region2.elemAt 0x20000).isSome = true ∧
    (∀ l, l < 32 → (e1.lanes 0).getLsbD l = true →
      s1.placePiece g1 t1 gr1 .stadd (newPart l .g (e1.src64 (.s 2) l) 0 4 .waiting) 4 4 = .at 0x20000 (some 2)) ∧
    (∀ l, l < 32 → (e1.lanes 0).getLsbD l = true → s1.global 0 .query (e1.src64 (.s 3) l) = .at 64 none) :=
  ⟨by rintro ⟨l, hl, h⟩; revert l; decide, by decide, by decide, by decide, by decide, by decide, by decide, by decide⟩

/-! ### Commands -/

/-- A command of the group: the newest, in lane 0 alone. -/
def op1 (i : Instr) (caps : List Cap) (parts : List Part) : Op := { newOp s1 e1 i 1 caps parts with id := 5 }
def part1 (sp : Space) (addr : W64) (n : Nat) (stt : PartSt) (key : Nat) : Part := { newPart 0 sp addr 0 n stt with key := key }

/-- The group between clauses, with one command. -/
def sOp (o : Op) : State := st { g1 with run := none, pushes := 1 } [o]
def gIdle : Group := { g1 with run := none, pushes := 1 }

def ldX : MemX := mx .g .nc .b32
def ldOp : Op := op1 (.ld 0 (.w 2) (.s 3) ldX false) [⟨0, 0, 0, 0x40⟩] [part1 .g 0x40 4 .waiting 0]
def ldDone : Op := { ldOp with parts := [part1 .g 0x40 4 .done 64], flag := some 0, pushAt := 1 }

def ldLocal : Op := op1 (.ld 0 (.w 2) (.s 3) (mx .s .own .b32) false) [⟨0, 0, 0, 0x40⟩] [part1 .s 0x40 4 .waiting 0]

/-- LoadsPerformed: an .nc load of a normal page, and a load of the scratchpad, both well formed. -/
theorem wit_LoadsPerformed : (Instr.ld 0 (.w 2) (.s 3) ldX false).wf = true ∧
    (Instr.ld 0 (.w 2) (.s 3) (mx .s .own .b32) false).wf = true ∧
    isHbm (spadKey 0 64) = false ∧ isHbm 64 = true ∧
    (∀ c ∈ [(ldOp, Space.g, 64), (ldLocal, .s, spadKey 0 64)], let (o, sp, key) := c
      let s := sOp o
      let p := part1 sp 0x40 4 .waiting 0
      s.op? 5 = some o ∧ o.parts = [p] ∧ s.ownerOf o = some (gIdle, t1, gr1) ∧ s.loadClear o = true ∧ s.atomsClear o key = true ∧
      p.held = none ∧ p.site (s.placePiece gIdle t1 gr1 .load p 4 (sizeAlign .b32)) = .at key none ∧
      s.scoreHold 1 5 key 4 false = false ∧ s.passes 0 p key = true ∧ s.poisoned key = false ∧ s.overlays 0 1 5 key 4 = [] ∧
      s.line? 0 (blockOf key) = none ∧ (s.dirOf (blockOf key)).owner = none) := by decide

theorem wit_LoadsPerformed_completion : (sOp ldDone).op? 5 = some ldDone ∧ (sOp ldDone).group? 1 = some gIdle ∧ gIdle.st = .ready ∧
    ldX.size.bytes ≤ 8 ∧ ldDone.fault = none ∧ ldDone.stage = 0 ∧ ldDone.allDone = true ∧ gIdle.queue.length = 16 ∧
    gIdle.pushes - ldDone.pushAt < 16 ∧ ({ gIdle with pushes := 16 }.pushes - ldDone.pushAt < 16) ∧
    (∀ q ∈ (sOp ldDone).ops, q.gid = 1 → q.id ≠ 5 → q.flag ≠ some 0) := by decide

def stX : MemX := mx .g .wt .b32
def stOp (sp : Space) (p : PartSt) (key : Nat) : Op :=
  { op1 (.st 0 (.s 3) (.s 3) { stX with space := sp, req := if sp == .g then .wt else .own }) [⟨0, 0, 0, 0x40⟩] [part1 sp 0x40 4 p key]
    with buf := [(0, 7)] }

/-- A departed store of a space and request. -/
def goneOp (sp : Space) (rq : Req) (key : Nat) : Op :=
  { op1 (.st 0 (.s 3) (.s 3) (mx sp rq .b32)) [⟨0, 0, 0, 0x40⟩] [part1 sp 0x40 4 (.departed 3) key] with buf := [(0, 7)] }

/-- StoresPerformed: departed stores, .wt and .own in HBM and .own in the chip scratchpad; queued stores of a local and of
a global space. -/
theorem wit_StoresPerformed :
    (∀ c ∈ [(Space.g, Req.wt, 64), (.g, .own, 64), (.p, .own, 2 ^ 45 + 64)], let (sp, rq, key) := c
     let o := goneOp sp rq key
     let s := sOp o
     o.instr.wf = true ∧ s.op? 5 = some o ∧ s.inTurn o.requester (blockOf (dataKey key)) 3 = true ∧
       s.drainAhead 3 0 (blockOf (dataKey key)) = false ∧ s.duplicate o.requester none = false ∧
       (part1 sp 0x40 4 (.departed 3) key).sent = none ∧ s.passes 0 (part1 sp 0x40 4 (.departed 3) key) (dataKey key) = true ∧
       s.otherOwner 0 (blockOf key) = none ∧ (isHbm key = true → dpaDevice key = s.device) ∧ key % 64 + 4 ≤ 64 ∧
       s.line? 0 (blockOf key) = none ∧ (sp = .p → isHbm key = false)) ∧
    (∀ sp ∈ [Space.s, .p, .g], let o := stOp sp .queued 64
     let s := sOp o
     ((s.queueHead 1).all fun h => h.2.2.held.isNone && h.2.2.sent.isNone && !s.remote 0 (dataKey h.2.2.key)) = true ∧
       (s.queueHead 1).isSome = true ∧ s.storeClear o = true ∧ s.scoreHold 1 5 64 4 true = false ∧ o.releases = false) := by decide

/-- LinesComeHome: an owned line with dirty words, a shared one, and a recall of it. -/
theorem wit_LinesComeHome :
    let ln : L1Line := ⟨0, 64, .owned, [(0, 7)], 1⟩
    let s := { s1 with l1 := [ln, ⟨0, 128, .si, [], 0⟩], dir := [⟨64, some 0, []⟩], msgs := [⟨3, .recallLine 0 64 5 0 true false, false, 0, none⟩] }
    s.line? 0 64 = some ln ∧ ln.st ≠ .si ∧ s.msg? 3 = some ⟨3, .recallLine 0 64 5 0 true false, false, 0, none⟩ ∧ (s.line? 0 128).isSome = true := by
  decide


/-! ### Block transfer -/

def cpX (cls : Option Space) : CopyX := ⟨0, .s 3, .s 3, 10, .s, .s, .core, cls, false⟩
def cpCaps : List Cap := [⟨0, 0, 0, 0x84⟩, ⟨0, 1, 0, 0x40⟩, ⟨1, 11, 0, 0x1000100000064⟩]
def cpOp (i : Instr) (parts : List Part) : Op := { op1 i cpCaps parts with ex := 1, stage := 1 }

/-- BlockCommandsIssue: no command out, and 31 copies of the group. -/
theorem wit_BlockCommandsIssue : (∀ s ∈ [s1, st g1 (List.replicate 31 (cpOp (.copy (cpX none)) []))],
    s.envOf s.focus = some e1 ∧ s.engineFull 0 = false ∧ s.copiesOut s.focus < 32 ∧
      (∀ c ∈ [(Instr.copy (cpX none), 2), (.copy2d (cpX none), 3), (.copy3d (cpX none), 4), (.copym (cpX none), 3)],
        s.boardFull (copyCommand s e1 c.1 (cpX none) c.2 0).ranges = false) ∧
      s.ops.all (fun o => o.fault.isNone) = true) := by decide

/-- Batches: 0, 15 and 16 batches open. -/
theorem wit_Batches : (∀ n ∈ [0, 15, 16], let g := { g1 with sealedCnt := BitVec.ofNat 32 n }
    (st g []).envOf 1 = some { e1 with g := g } ∧ (g.sealedCnt - g.finishedCnt).toNat = n) ∧ s1.ops.all (fun o => o.fault.isNone) = true := by decide

def claspMem (state per : Byte) : Mem :=
  (if state = 0 then [] else [(spadKey 0 64 + 4, state)]) ++ (if per = 0 then [] else [(spadKey 0 64 + 8, per)])
def sClasp (state per : Byte) : State := { s1 with mem := claspMem state per }

/-- ClaspWait: an invalid clasp, a valid one in the phase waited on (s8), and one waited on with another phase (s6); a group that the
clasp's owner has released. -/
theorem wit_ClaspWait : (∀ s ∈ [sClasp 0 0, sClasp 1 1], s.envOf s.focus = some e1 ∧ (s.ops.all fun o => o.gid != s.focus) = true ∧
      (e1.src64 (.s 3) 0).toNat % 64 = 0 ∧ s.place t1 gr1 0 0 .atomic .s (e1.src64 (.s 3) 0) 64 1 = .at (spadKey 0 64) none ∧
      s.remote 0 (spadKey 0 64) = false ∧ s.poisoned (spadKey 0 64) = false ∧
      (s.dirOf (blockOf (spadKey 0 64))).owner = none ∧ (s.claspAt (spadKey 0 64)).malformed = false) ∧ e1.g.freed = none ∧
    (st { g1 with freed := some 5 } []).envOf 1 = some { e1 with g := { g1 with freed := some 5 } } ∧
    (let c := (sClasp 1 1).claspAt (spadKey 0 64)
     c.state % 2 = 1 ∧ BitVec.ofNat 64 c.phase = e1.src32 (.s 8) 0 ∧ BitVec.ofNat 64 c.phase ≠ e1.src32 (.s 6) 0) ∧
    ((sClasp 0 0).claspAt (spadKey 0 64)).state = 0 := by decide

/-- ClaspUpdate: malformed, invalid, overrun, the arrivals and bytes both at their end, and one byte short. -/
theorem wit_ClaspUpdate : (⟨0, 2, 1, 1, 0, 0, 0⟩ : Clasp).malformed = true ∧ (⟨0, 0, 1, 1, 0, 0, 0⟩ : Clasp).malformed = false ∧
    (⟨0, 1, 1, 1, 8, 8, 0⟩ : Clasp).malformed = false ∧ (⟨0, 1, 2 ^ 31 - 1, 0, 0, 0, 0⟩ : Clasp).malformed = false ∧
    (⟨0, 1, 2 ^ 31, 0, 0, 0, 0⟩ : Clasp).malformed = true ∧
    ((⟨0, 1, 1, 1, 8, 8, 0⟩ : Clasp).update 1 8).toOption = some ⟨1, 1, 1, 1, 8, 8, 0⟩ ∧
    ((⟨0, 1, 1, 1, 8, 8, 0⟩ : Clasp).update 1 7).toOption = some ⟨0, 1, 1, 0, 8, 1, 0⟩ := by decide

/-- A copy at byte `c`, with the source blocks `read` in its buffer. -/
def cpAt (i : Instr) (c : Nat) (read : List W64) : Op :=
  { cpOp i [part1 .s 0 0 .waiting 0, part1 .s 0 0 .waiting 0] with cursor := c, buf := read.map fun b => (imageFlag b, 1) }.atBlock

/-- CopyMovesBytes: 100 bytes from 64 to 132: the first block of each side, whole, and the last, in part. -/
theorem wit_CopyMovesBytes : ∀ i ∈ [Instr.copy (cpX none), .copy2d (cpX none), .copy3d (cpX none)],
    ∀ c ∈ [((0 : Nat), ([] : List W64), [(64 : W64)], (64 : Nat), (64 : Nat), (132 : Nat), (60 : Nat)), (60, [64], [64, 128], 128, 36, 192, 40)],
      let (at_, had, all_, src, n, dst, m) := c
      (let o := cpAt i at_ had
       let s := sOp o
       let rd := newPart 0 .s (BitVec.ofNat 64 src) 0 n .waiting
       o.parts[0]? = some rd ∧ s.op? 5 = some o ∧ o.stage = 1 ∧ s.ownerOf o = some (gIdle, t1, gr1) ∧ s.engineClear o = true ∧
        s.place t1 gr1 0 0 .copyRead .s rd.addr n 1 = .at (spadKey 0 src) none ∧ s.passes 0 rd (spadKey 0 src) = true ∧
        s.poisoned (spadKey 0 src) = false ∧ (s.dirOf (blockOf (spadKey 0 src))).owner = none) ∧
      (let o := cpAt i at_ all_
       let s := sOp o
       let wr := newPart 0 .s (BitVec.ofNat 64 dst) 0 m .waiting
       o.parts = [newPart 0 .s 0 0 0 .done, wr] ∧ s.engineClear o = true ∧ s.duplicate o.requester wr.sent = false ∧
        o.moved = false ∧ s.pastReads o [spadKey 0 dst] = true ∧
        s.inTurn o.requester (blockOf (spadKey 0 dst)) (s.lineOf wr) = true ∧ dst % 64 ≤ spadKey 0 dst ∧
        o.pieceBytes.map (fun q => (q.1, q.2.length)) = [(dst % 64, m)] ∧
        s.place t1 gr1 0 0 .copyWrite .s wr.addr m 1 = .at (spadKey 0 dst) none ∧ s.passes 0 wr (spadKey 0 dst) = true ∧
        (s.dirOf (blockOf (spadKey 0 dst))).owner = none) := by decide +kernel

/-- ClaspsAtHome: each clasp instruction at the clasp at 64, which is valid with one arrival to come, invalid and malformed;
a copy whose bytes are written, with its count to apply there and without a clasp; a group that waits on the clasp. -/
theorem wit_ClaspsAtHome : (∀ i ∈ [Instr.clinit 0 (.s 3) (.s 6) (.s 8) .s, .clinv 0 (.s 3) .s, .clexp 0 (.s 3) (.s 6) .s,
        .clarr 0 (.s 3) (.s 6) .s .die, .cltest 0 .queue (.s 3) .s none, .copy (cpX (some .s)), .copy2d (cpX (some .s)),
        .copy3d (cpX (some .s)), .copym (cpX (some .s))],
      let copy := (op1 i [] []).isCopy
      let p := part1 .s 0x40 64 .waiting 0
      let o := { op1 i [⟨0, 0, 0, 0x40⟩, ⟨0, 1, 0, 1⟩, ⟨1, 10, 0, 0x40⟩] (if copy then [p, p, p] else [p]) with
        ex := 1, stage := if copy then 2 else 0 }
      let s := { sOp o with mem := [(spadKey 0 64 + 4, 1), (spadKey 0 64 + 8, 1), (spadKey 0 64 + 12, 1)] }
      s.op? 5 = some o ∧ s.ownerOf o = some (gIdle, t1, gr1) ∧ o.fault = none ∧ o.flag = none ∧ p.held = none ∧
        s.claspTurn o = true ∧ (if copy then o.par 0 else o.cap 0 o.low).toNat % 64 = 0 ∧
        p.site (s.place t1 gr1 0 0 .atomic .s 0x40 64 1) = .at (spadKey 0 64) none ∧ s.passes 0 p (spadKey 0 64) = true ∧
        s.duplicate o.requester p.sent = false ∧ s.inTurn o.requester (blockOf (spadKey 0 64)) (s.lineOf p) = true ∧
        (s.dirOf (blockOf (spadKey 0 64))).owner = none ∧ s.poisoned (spadKey 0 64) = false ∧ s.engineClear o = true ∧
        s.loadClear o = true ∧ (s.earlier o).isEmpty = true ∧ s.gathered 5 = true ∧ gIdle.touched = [] ∧
        scopeFar .die = true ∧ scopeFar (cpX none).scope = false ∧
        ((s.claspAt (spadKey 0 64)).update 1 0).toOption.isSome = true) ∧
    ((sClasp 2 1).claspAt (spadKey 0 64)).malformed = true ∧ ((sClasp 0 0).claspAt (spadKey 0 64)).malformed = false ∧
    (let g := { gIdle with st := .blockedClasp .s 0x40 (spadKey 0 64) 0 .grp }
     let s := st g []
     s.group? 1 = some g ∧ s.team? g.team = some t1 ∧ t1.resident = true) ∧
    (let o := { cpOp (.copym (cpX none)) [] with stage := 2 }
     (sOp o).op? 5 = some o ∧ o.fault = none ∧ scopeFar (cpX none).scope = false ∧ (sOp o).gathered 5 = true) := by decide

/-! ### Synchronisation -/

def atX (wide : Bool) : AtomX := ⟨.s, .grp, .relaxed, wide⟩
def atOp (i : Instr) (p : Part) (v w : W64) : Op := op1 i [⟨0, 0, 0, p.addr⟩, ⟨0, 1, 0, v⟩, ⟨0, 2, 0, w⟩] [p]

/-- AtomicsIssue: 31 atomics out; BNGINIT of 2^1 and of 2^24 slots. -/
theorem wit_AtomicsIssue : (let s := st g1 (List.replicate 31 (atOp (.atom .add 0 .queue (.s 3) (.s 6) (atX false)) (part1 .s 0x40 4 .waiting 0) 1 0))
      s.envOf s.focus = some e1 ∧ s.atomicsOut s.focus = 31 ∧ s.ops.all (fun o => o.fault.isNone) = true) ∧
    (∀ c ∈ [Src.s 6, .s 7], 1 ≤ (e1.src32 c 0).toNat ∧ (e1.src32 c 0).toNat ≤ 24) ∧ (e1.src64 (.s 3) 0).toNat % 8 = 0 ∧
    s1.place t1 gr1 0 0 .atomic .s (e1.src64 (.s 3) 0) 64 64 = .at (spadKey 0 64) none := by decide

/-- AtomicsPerform: each instruction, of 4 and of 8 bytes, without an order and with each. -/
theorem wit_AtomicsPerform : ∀ x ∈ [atX false, atX true, ⟨.s, .core, .acq, true⟩, ⟨.s, .die, .ar, true⟩],
    ∀ i ∈ [Instr.atom .add 0 .queue (.s 3) (.s 6) x, .acas 0 .queue (.s 3) (.s 6) (.s 8) x,
      .atomw .min 0 .queue (.s 3) (.s 6) (.s 8) x, .fatom .add 0 .queue (.s 3) (.s 6) x, .fatom .min 0 .queue (.s 3) (.s 6) x,
      .fatom .max 0 .queue (.s 3) (.s 6) x],
    let w := x.wide
    let p := part1 .s 0x40 (if w then 8 else 4) .waiting 0
    let o := atOp i p 7 0
    let s := sOp o
    s.op? 5 = some o ∧ s.ownerOf o = some (gIdle, t1, gr1) ∧ s.atomTurn o 0 (spadKey 0 64) = true ∧ p.held = none ∧ s.duplicate o.requester p.sent = false ∧ s.passes 0 p (spadKey 0 64) = true ∧
      s.poisoned (spadKey 0 64) = false ∧ (s.dirOf (blockOf (spadKey 0 64))).owner = none ∧
      p.site (s.place t1 gr1 0 0 .atomic .s 0x40 p.len p.len) = .at (spadKey 0 64) none ∧ o.atomX = some x ∧
      (s.earlier o).isEmpty = true ∧ s.gathered 5 = true ∧ gIdle.touched = [] := by decide

/-- AtomicsPerform: a release at die scope by a group that has written on die 1; a FATOM whose lanes are all done. -/
theorem wit_AtomicsPerform_ends :
    (let g := { gIdle with touched := [1] }
     let x : AtomX := ⟨.g, .die, .rel, false⟩
     let p := part1 .g 0x40 4 .waiting 0
     let o := atOp (.atom .add 0 .queue (.s 3) (.s 6) x) p 7 0
     let s := st g [o]
     s.op? 5 = some o ∧ o.parts[0]? = some p ∧ o.atomX = some x ∧ (s.ownerOf o).map (·.1) = some g ∧
       (s.earlier o).isEmpty = true ∧ s.gathered 5 = true ∧ scopeFar x.scope = true ∧ g.touched ≠ [] ∧ s.pathsTo 0 1 = [16]) ∧
    (let o := { atOp (.fatom .add 0 .queue (.s 3) (.s 6) (atX true)) (part1 .s 0x40 8 .done 0) 7 0 with flag := some 0 }
     let s := sOp o
     s.op? 5 = some o ∧ s.group? 1 = some gIdle ∧ gIdle.st = .ready ∧ o.fault = none ∧ o.stage = 0 ∧ o.allDone = true) := by
  decide

/-- A bangle of two slots at 256, with its descriptor at 64. -/
def bngMem (head tail : Byte) : Mem :=
  [(spadKey 0 65, 1), (spadKey 0 72, 1), (spadKey 0 73, 1)] ++ (if head = 0 then [] else [(spadKey 0 80, head)]) ++
    (if tail = 0 then [] else [(spadKey 0 88, tail)])

/-- BangleOperations: empty, one of two slots used (the second), and full. -/
theorem wit_BangleOperations : ∀ h ∈ [((0 : Nat), (0 : Nat)), (1, 2), (1, 3)],
    ∀ i ∈ [Instr.enq 0 .queue (.s 3) (.s 6) (atX true), .deq 0 .queue (.s 3) (atX true)],
    let p := part1 .s 0x40 64 .waiting 0
    let o := atOp i p 7 0
    let s := { sOp o with mem := bngMem (BitVec.ofNat 8 h.1) (BitVec.ofNat 8 h.2) }
    let b := s.bangleAt (spadKey 0 64)
    let sk := fun (n : Nat) => 256 + 8 * (n % 2)
    s.op? 5 = some o ∧ s.ownerOf o = some (gIdle, t1, gr1) ∧ s.atomTurn o 0 (spadKey 0 64) = true ∧ p.held = none ∧ s.duplicate o.requester p.sent = false ∧ s.passes 0 p (spadKey 0 64) = true ∧
      s.poisoned (spadKey 0 64) = false ∧ (s.dirOf (blockOf (spadKey 0 64))).owner = none ∧
      s.place t1 gr1 0 0 .atomic .s 0x40 64 64 = .at (spadKey 0 64) none ∧ b.detail = 0 ∧
      b.slots = 256 ∧ b.cap = 1 ∧ (b.used = 2 ↔ h.2 = 3) ∧ (b.head = b.tail ↔ h.2 = 0) ∧
      ∀ n ∈ [b.tail, b.head], s.place t1 gr1 0 0 .atomic .s (BitVec.ofNat 64 (sk n)) 8 8 = .at (spadKey 0 (sk n)) none ∧
        s.poisoned (spadKey 0 (sk n)) = false ∧ (s.dirOf (blockOf (spadKey 0 (sk n)))).owner = none ∧
        spadKey 0 64 + 64 ≤ spadKey 0 (sk n) := by decide +kernel

/-! ### The matrix engine and the sampler -/

def mmx : MmaX := ⟨0, ⟨0, none⟩, ⟨0, none⟩, ⟨1, none⟩, .s 3⟩
def eTiles : Env := { e1 with gr := { gr1 with ko := { roomyKObj with tiles := 31 } } }
def sTiles : State := { dbg s1 with grids := [eTiles.gr] }

/-- MatrixIssue: room with no command and with 15 of the team; tile 30 of 31, and tile 31; units 511 and 512 of 512. -/
theorem wit_MatrixIssue : s1.mxFull 2 = false ∧
    (st g1 (List.replicate 15 (op1 (.sclw 0 (.s 3) 0) [] []))).mxFull 2 = false ∧
    (sTiles.envOf 1 = some eTiles ∧ eTiles.g.tileNum ⟨30, none⟩ < 31 ∧ 31 ≤ eTiles.g.tileNum ⟨31, none⟩ ∧ eTiles.debugged sTiles) ∧
    (1 ≤ (e1.src32 (.s 6) 0).toNat ∧ g1.accNum ⟨511, none⟩ + (e1.src32 (.s 6) 0).toNat ≤ e1.t.accUnits) := by
  refine ⟨by decide, by decide, ⟨by decide, by decide, by decide, ?_⟩, by decide⟩
  exact ⟨by decide, by decide, by decide, by decide⟩

def mxOp (i : Instr) (caps : List Cap) (stage : Nat) : Op := { op1 i caps [] with ex := 1, stage := stage }
/-- Pre-operators that declare INT8 operands (format 6) for A and B, and a post-operator. -/
def preCaps : List Cap := [⟨4, 0, 0, 0x020C0000⟩, ⟨4, 1, 0, 0x030C0000⟩]
def postCap : Cap := ⟨5, 0, 0, 0x20000000⟩

/-- MatrixAcceptance: tile 31, the units at the end, no pre-operator, and an MMA whose conditions hold without and with a
post program; the product of its last quadrant, with nothing poisoned and with its unit poisoned. -/
theorem wit_MatrixAcceptance : (∀ o ∈ [mxOp (.tzero 0 ⟨31, none⟩ 9) [] 0, mxOp (.accz 0 ⟨511, none⟩ (.s 6)) [⟨0, 1, 0, 1⟩] 0,
      mxOp (.sclw 0 (.s 3) 15) [] 0, mxOp (.mma mmx) [⟨0, 2, 0, 0x10100⟩] 0, mxOp (.mma mmx) (⟨0, 2, 0, 0x10100⟩ :: preCaps) 0],
      let s := sOp o
      s.op? 5 = some o ∧ s.ownerOf o = some (gIdle, t1, gr1) ∧ s.team? t1.id = some t1 ∧ s.mxTurn t1.id o = true ∧
        s.fencesPast o = true ∧ o.fault = none) ∧
    (mxOp (.tzero 0 ⟨31, none⟩ 9) [] 0).mxNums.1 < 32 ∧ mmaDetail t1 32 (mxOp (.mma mmx) [⟨0, 2, 0, 0x10100⟩] 0) ≠ 0 ∧
    (∀ o ∈ [mxOp (.mma mmx) (⟨0, 2, 0, 0x10100⟩ :: preCaps) 0, mxOp (.mma mmx) (⟨0, 2, 0, 0x100⟩ :: postCap :: preCaps) 0],
      mmaDetail t1 32 o = 0 ∧ o.quads[0]? = some 0 ∧ (declOf o.preWords false).map (·.fmt) = some .a8 ∧ (declOf o.preWords true).map (·.fmt) = some .a8 ∧
        modeOf .a8 .a8 = some .m8a) ∧
    (let o := { mxOp (.mma mmx) (⟨0, 2, 0, 0xF00⟩ :: preCaps) 3 with cursor := 3 }
     ∀ tm ∈ [t1, { t1 with accPoison := [3] }], let s := { sOp o with teams := [tm] }
      s.op? 5 = some o ∧ s.ownerOf o = some (gIdle, tm, gr1) ∧ s.team? t1.id = some tm ∧ o.fault = none ∧
        (declOf o.preWords false).map (·.fmt) = some .a8 ∧ o.quads[o.cursor]? = some 3 ∧ t1.tilePoison = [] ∧ t1.accPoison = [] ∧ 3 ∈ o.productUnits 3) := by decide +kernel

/-- IntegerAccumulation: the largest 8-bit accumulator. -/
theorem wit_IntegerAccumulation : 0 < 8 ∧ 255 < 2 ^ 8 ∧ (intSteps 8 1 1 1 [1] [1] (255, 0)).1 = 0 ∧
    (intSteps 8 1 1 1 [1] [1] (127, 0)).2 = 1 := by decide

def tmx : TileMemX := ⟨0, ⟨0, none⟩, .s 3, .s 3, .s, false, false, 1, false⟩

/-- TileTransfers: a row of the scratchpad, and one of global memory with .nc, of transfers that are well formed. -/
theorem wit_TileTransfers : ∀ c ∈ [(tmx, spadKey 0 64), ({ tmx with space := .g, nc := true }, 64)],
    ∀ i ∈ [Instr.tld c.1, .tst c.1],
    let (x, key) := c
    let p := part1 x.space 0x40 16 .waiting (tileKey 3 31)
    let o := { mxOp i [] 0 with parts := [p] }
    let s := sOp o
    i.wf = true ∧ s.op? 5 = some o ∧ s.ownerOf o = some (gIdle, t1, gr1) ∧ s.team? t1.id = some t1 ∧ p.addr.toNat % 16 = 0 ∧
      s.passes 0 p key = true ∧ s.poisoned key = false ∧ (isHbm key = true → x.nc = true) ∧ s.engineClear o = true ∧
      (s.dirOf (blockOf key)).owner = none ∧ s.line? 0 (blockOf key) = none ∧ p.held = none ∧
      s.duplicate o.requester p.sent = false ∧ s.inTurn o.requester (blockOf key) (s.lineOf p) = true ∧
      s.scoreHold 1 5 key 16 false = false ∧ s.scoreHold 1 5 key 16 true = false ∧ s.storeClear o = true ∧
      o.overlapsEarlier 0 p = false ∧ Store.wf t1.tiles = true ∧
      p.site (s.place t1 gr1 0 0 .matrix x.space 0x40 16 1) = .at key none ∧
      p.site (s.place t1 gr1 0 0 .store x.space 0x40 16 1) = .at key none := by decide

/-- MatrixCompletes: a post program of one no-operation; an MMA that has performed; a TLD whose parts are done. -/
theorem wit_MatrixCompletes :
    (let o := mxOp (.mma mmx) (⟨0, 2, 0, 0x100⟩ :: postCap :: preCaps) 1
     let s := sOp o
     s.op? 5 = some o ∧ s.group? 1 = some gIdle ∧ gIdle.st = .ready ∧ o.postWords ≠ [] ∧ o.fault = none ∧ s.ownerOf o = some (gIdle, t1, gr1) ∧ s.postBusy 2 o = false ∧
       (∀ p ∈ o.parts, p.held = none) ∧
       s.engineClear o = true ∧ ((s.earlier o).all fun q => !q.untaken) = true ∧ (declOf o.preWords false).map (·.fmt) = some .a8 ∧
       t1.accPoison = [] ∧ (postRun s t1 o .m8a).hold = false ∧ (postRun s t1 o .m8a).fault = none) ∧
    (∀ o ∈ [{ mxOp (.mma mmx) [] 2 with flag := some 11 }, { mxOp (.tld tmx) [] 1 with parts := [part1 .s 0x40 16 .done 0], flag := some 0 }],
      let s := sOp o
      s.op? 5 = some o ∧ s.group? 1 = some gIdle ∧ o.fault = none ∧ o.allDone = true ∧
        ∀ q ∈ s.ops, q.gid = 1 → q.id ≠ 5 → q.flag ≠ o.flag) := by decide +kernel

def smx : SmplX := ⟨0, 4, 2, 3, false, 0, 0⟩

/-- SamplerCommands: room with no command and with seven of the group; a descriptor at 65; an SMPL whose reads are done. -/
theorem wit_SamplerCommands : (∀ s ∈ [s1, st g1 (List.replicate 7 (op1 (.smpl smx) [] []))], ∀ b ∈ [false, true],
      s.envOf s.focus = some e1 ∧ s.samplerFull e1 b = false) ∧
    (let o := op1 (.smpl smx) [⟨0, 1, 0, 65⟩] [part1 .g 65 64 .waiting 0]
     (sOp o).op? 5 = some o ∧ o.ex ≠ 0 ∧ o.fault = none ∧ (sOp o).engineClear o = true ∧ (o.cap 1 o.low).toNat % 64 ≠ 0) ∧
    (let o := { op1 (.smpl smx) [⟨0, 1, 0, 64⟩] [part1 .g 64 64 .done 0] with stage := 1, pushAt := 1 }
     (sOp o).op? 5 = some o ∧ (sOp o).group? 1 = some gIdle ∧ gIdle.queue.length = 16 ∧ gIdle.pushes - o.pushAt < 16 ∧
       o.allDone = true) := by decide

/-! ### System words and parks -/

/-- SystemRegisters: ACCGROW's two sides: 512 units of 512 taken, none, and none asked for. -/
theorem wit_SystemRegisters :
    (let used := (s1.teams.filter fun t => t.core == 0 && t.resident).foldl (fun n t => n + t.accUnits) 0
     512 < used + (e1.src32 (.s 6) 0).toNat) ∧
    (let t : Team := freshTeam 2 1
     let s := { s1 with teams := [t] }
     s.envOf 1 = some { e1 with t := t } ∧ (e1.src32 (.s 6) 0).toNat ≠ 0 ∧ s.graphs = [] ∧ (∀ u ∈ s.teams, u = t) ∧
       (s.teams.filter fun t => t.core == 0 && t.resident).foldl (fun n t => n + t.accUnits) 0 + (e1.src32 (.s 6) 0).toNat ≤ 512) ∧
    (e1.src32 (.s 8) 0).toNat = 0 ∧ lowestLane (e1.lanes 0) = some 0 ∧ lowestLane (e1.lanes 1) = none ∧
    e1.gr.hang.toNat < (e1.src64 (.s 6) 0).toNat := by decide

/-- SoftwareTraps: a group whose queue has a debugger; masks with and without a lane. -/
theorem wit_SoftwareTraps : (dbg s1).envOf 1 = some e1 ∧ e1.lanes 0 ≠ 0 ∧ e1.lanes 1 = 0 ∧
    e1.gr.serves = none ∧ ((dbg s1).queue 0).ctl.getLsbD 8 = true ∧ (dbg s1).samplerBusy 1 = false ∧ (dbg s1).ctxFits = true := by
  decide

def grH : Grid := { gr1 with handler := 0x1000 }

/-- TakingAPark: a fault for the service; a debugger; no debugger, without and with a handler. -/
theorem wit_TakingAPark : (∀ s ∈ [s1, dbg s1, { s1 with grids := [grH] }], s.group? 1 = some g1 ∧ s.team? g1.team = some t1 ∧
      (s.grid? t1.grid).isSome = true ∧ s.ctxFits = true ∧ 0 < s.queues.length) ∧
    ((dbg s1).queue 0).ctl.getLsbD 8 = true ∧ (s1.queue 0).ctl.getLsbD 8 = false ∧
    gr1.handler = 0 ∧ grH.handler ≠ 0 ∧ gr1.serves = none ∧ gr1.node = none ∧ gr1.killed = none ∧ grH.killed = none ∧
    (⟨6, 1, [], 1, some 0x10000⟩ : FaultRec).service = some 0x10000 ∧ (⟨12, 0, [], 1, none⟩ : FaultRec).service = none := by decide

/-- A service log of 64 entries, empty, away from the images. -/
def logged (s : State) : State := { s with ctl := { s.ctl with svclogb := 0x40006, ctxbase := 0x40000000 } }

/-- TakingAPark, ResetsAndErrors, TimeAndMonitors: a log with room, and one without entries. -/
theorem wit_TakingAPark_log : (logged (dbg s1)).logRoom 2 ∧ ¬s1.logRoom 1 ∧
    (let s := logged (dbg s1)
     let dpa := s.imageDpa t1.core g1.quad
     s.offLog dpa (dpa + 65536) ∧ s.ctxFits = true ∧ s.group? 1 = some g1) := by
  refine ⟨⟨by decide, by decide⟩, fun h => h.1 (by decide), ?_, by decide, by decide⟩
  have ring : (logged (dbg s1)).logRing + 32 * (logged (dbg s1)).logSize ≤ 2 ^ 30 := by decide +kernel
  have at_ : ∀ k, 2 ^ 30 ≤ (logged (dbg s1)).imageAt t1.core g1.quad k := fun k => by
    have : fld (logged (dbg s1)).ctl.ctxbase 37 30 = 1 := by decide +kernel
    unfold State.imageAt mkDpa
    rw [this]
    omega
  refine .inr (le_trans ring ?_)
  unfold State.imageDpa
  split
  · exact at_ _
  · exact at_ _

/-- A parked group of another team that a handler serves; its image lists nothing, so that every PREC word is 0. -/
def pk (route : ParkRoute) : ParkRec :=
  { cause := 12, detail := 0, word := 1, run := 0, issuing := 0x80, current := 0x80, record := [], image := 0x4000, recs := [], lpcs := [],
    page := 0, past := none, prior := .ready, route := route }
def gPark (route : ParkRoute) : Group := { gIdle with gid := 8, team := 7, st := .parked, park := some (pk route) }
def sPark (route : ParkRoute) : State :=
  { dbg s1 with groups := [g1, gPark route], teams := [t1, { t1 with id := 7, grid := 6, core := 1 }],
                grids := [gr1, freshGrid 6 roomyKObj] }

/-- ReturnFromPark: an image that is named, and one that is not, whatever the place of images in the address space. -/
theorem wit_ReturnFromPark :
    let g := { g1 with scal := [(10, (Config.imageVa 0x4000).setWidth 64)] }
    let s := { sPark (.handler 6) with groups := [g, gPark (.handler 6)] }
    s.envOf 1 = some { e1 with g := g } ∧ s.imageNamed (Store.read g.scal 10) = some (gPark (.handler 6)) ∧
      s1.imageNamed (Store.read g.scal 10) = none ∧ s.group? 8 = some (gPark (.handler 6)) ∧ (8 : Nat) ≠ s.focus ∧
      (s.team? 7).map (·.resident) = some true ∧ (s.grid? 6).isSome = true ∧ s.ops = [] ∧ (pk (.handler 6)).prior ≠ .parked ∧
      s.imagePrecOk 0x4000 = true ∧ s.l1 = [] := by
  refine ⟨by rfl, ?_, by rfl, by rfl, by decide, by decide, by decide, by rfl, by decide, by decide +kernel, by rfl⟩
  simp [State.imageNamed, gPark, pk, g1, freshGroup, gIdle, Store.read]

/-- ReturnFromPark: a skip past a word of REP with a run left, past a word before the last and past the last, of a clause that
stood elsewhere, and of one that could not start; an image whose LPC has been edited in a live lane. -/
theorem wit_ReturnFromPark_skip :
    (∀ r ∈ [run2, { run2 with rep := none, idx := 1 }, run1],
      let p := { pk (.handler 6) with issuing := r.addr, word := BitVec.ofNat 5 r.idx, run := BitVec.ofNat 5 r.runNo }
      p.issuing = r.addr ∧ p.word.toNat = r.idx ∧ p.run.toNat = r.runNo) ∧
    (run2.idx = 2 ∧ run2.runNo + 1 < 2) ∧ ({ run2 with rep := none, idx := 1 }.idx < run2.hdr.count) ∧
    run1.hdr.count ≤ run1.idx ∧ (pk (.handler 6)).issuing ≠ 0x88 ∧ (gPark (.handler 6)).run = none ∧
    (pk (.handler 6)).past = none ∧ { pk (.handler 6) with past := some 0x90 }.past = some 0x90 ∧
    (∀ c ∈ roomyKObj.caps, c ≤ 9) ∧
    (let s := { sPark (.handler 6) with mem := [(0x4340, 8), (0x565C, 1)] }
     (BitVec.ofNat 32 (s.le (0x4000 + 0x165C) 4)).getLsbD 0 = true ∧
       BitVec.ofNat 48 (s.le (0x4000 + 0x340) 6) ≠ Store.read (pk (.handler 6)).lpcs 0) := by decide

/-- NestedLaunch: a shape of one team; a depth of 10. -/
theorem wit_NestedLaunch :
    (let g := { g1 with scal := [(10, 0x1000100000001)] }
     let s := st g []
     s.envOf 1 = some { e1 with g := g } ∧ gr1.depth < 10 ∧ gr1.ko.flags.getLsbD 1 = true ∧
       badShape (Store.read g.scal 10) (Store.read g.scal 12) = false ∧ fld (Store.read g.scal 12) 63 48 = 0 ∧
       s.pendingLaunches < 65536) ∧
    (let gr := { gr1 with depth := 10 }
     { dbg s1 with grids := [gr] }.envOf 1 = some { e1 with gr := gr }) := by decide

/-! ### The work scheduler's events -/

def gn (type recBytes : Nat) (outs : List Nat) : GNode :=
  { type := type, recBytes := recBytes, variants := 1, ordered := true, root := false, coalesce := 1, outputs := outs,
    kernels := [0x2000, 0, 0, 0], costs := [0, 0, 0, 0], paramAddr := 0, paramSize := 0, hintCount := 0, hintList := 0,
    level := some 0, hinted := true, tiles := [] }
def gph (ns : List GNode) : Graph :=
  { id := 4, queue := 0, slot := 0, nodes := ns, pool := 65536, guardNs := 0, cls := 0, prio := 0, depth := 0, handler := 0,
    deadline := 0, floor := 0, hang := 0, clasp := none, status := 0, winFirst := 0, winCount := 0, killed := none }

/-- RecordEmission: a kernel node with a record of 32 bytes, a display node, a record that fits no window, and an output
that is not there; room in the pool, and none; a group that is in no graph. -/
theorem wit_RecordEmission :
    (let gr := { gr1 with node := some (4, 0), ko := { roomyKObj with flags := 7 } }
     let h := gph [gn 0 4 [1, 2, 3, 255], gn 0 32 [], gn 4 32 [], gn 0 64 []]
     let s := { s1 with grids := [gr], graphs := [h] }
     let e := { e1 with gr := gr }
     s.envOf 1 = some e ∧ s.outputOf gr 0 = some (h, 1, gn 0 32 []) ∧ s.outputOf gr 1 = some (h, 2, gn 4 32 []) ∧
       s.outputOf gr 2 = some (h, 3, gn 0 64 []) ∧ s.outputOf gr 3 = none ∧ gr.ko.flags.getLsbD 2 = true ∧
       32 ≤ 4 * gr.ko.caps.getD 31 0 ∧ ¬64 ≤ 4 * gr.ko.caps.getD 31 0 ∧
       s.poolUsed 4 + 32 * (laneList (e.lanes 0)).length ≤ h.pool ∧ (e1.src32 (.s 5) 0).toNat ≤ 65536 ∧
       65536 < (e1.src32 (.s 2) 0).toNat ∧
       (let h' := { h with pool := 1023 }
        ({ s with graphs := [h'] } : State).outputOf gr 0 = some (h', 1, gn 0 32 []) ∧ ¬s.poolUsed 4 + 32 * 32 ≤ h'.pool)) ∧
    s1.outputOf e1.gr 0 = none := by decide

/-- The device brought up, with these cells below 1 MiB, a page table there whose one leaf maps the first GiB to itself,
writable and executable, and queue 0 enabled with an entry at 4096. -/
def host (mem : Mem) : State :=
  { State.reset with
    mem := mem ++ [(0x100001, 0x08), (0x100003, 0x40), (0x100004, 0x40), (0x101000, 0xC0), (0x101001, 0x03)]
    xl := { XlRegs.reset with root := 0x100001 }
    ctl := { Ctl.reset with up := true, die0 := false, die1 := false, ctxbase := 1, svclogb := 1 }
    queues := { HQueue.reset with base := 0x1000, size := 16, tail := 1, ctl := 1 } :: List.replicate 63 HQueue.reset
    nextId := 9 }

/-- A kernel object at 8192: its entry at 128, 16 bytes of code, one group (02 Table 2.9). -/
def kobjMem : Mem :=
  [(0x2000, 0x32), (0x2001, 0x4F), (0x2002, 0x4B), (0x2003, 0x57), (0x2004, 1), (0x2006, 0x80), (0x2008, 0x80), (0x2010, 16),
   (0x201A, 1), (0x201B, 1)]
def kobj : KObj :=
  { roomyKObj with base := 0x2000, entry := 0x80, codeSize := 16, flags := 0, acc := 0, spad := 0, tiles := 0, laneBytes := 0,
                   caps := List.replicate 32 0 }
/-- A graph at 12288: one reduction node with a pool of 64 KiB (14 Table 14.5). -/
def graphMem : Mem :=
  [(0x3000, 0x32), (0x3001, 0x52), (0x3002, 0x47), (0x3003, 0x57), (0x3004, 1), (0x300A, 1), (0x3040, 1), (0x3041, 0x20),
   (0x3042, 1), (0x3044, 1)] ++ (List.range 8).map fun i => (0x3048 + i, 0xFF)

/-- The device with these cells and an entry whose first byte is `b` at QHEAD. -/
def hostAt (b : Byte) (mem : Mem) : State := host ((0x1000, b) :: mem)

/-- HostQueues: one entry of each operation, in format 1, and a byte that is no format. -/
theorem wit_HostQueues : (∀ op < 6, EntryReady (hostAt (BitVec.ofNat 8 (16 + op)) []) 0 op 1
      ((hostAt (BitVec.ofNat 8 (16 + op)) []).bytes 0x1000 64)) ∧
    (let s := hostAt 1 []
     s.queueLive 0 = true ∧ queueSizeOk (s.queue 0).size = true ∧ dpaOff (s.entryKey 0) + 64 ≤ dieBytes ∧
       s.poisoned (s.entryKey 0) = false ∧ (s.dirOf (s.entryKey 0)).owner = none ∧ s.le (s.entryKey 0) 1 / 16 = 0) := by
  have all : ∀ op < 6, let s := hostAt (BitVec.ofNat 8 (16 + op)) []
      s.queueLive 0 = true ∧ queueSizeOk (s.queue 0).size = true ∧ queueCtlBad (s.queue 0).ctl = false ∧
      1 ≤ ((s.queue 0).tail.setWidth 32 - (s.queue 0).head).toNat ∧ dpaOff (s.entryKey 0) + 64 * 1 ≤ dieBytes ∧
      (∀ i, i < 1 → s.poisoned (s.entryKey 0 + 64 * i) = false ∧ (s.dirOf (s.entryKey 0 + 64 * i)).owner = none) ∧
      s.bytes 0x1000 64 = s.bytes (s.entryKey 0) 64 ∧ s.le (s.entryKey 0) 1 = 16 * 1 + op ∧
      entryBad op 1 (s.bytes 0x1000 64) = false ∧ entryNat (s.bytes 0x1000 64) 1 1 = 0 := by decide +kernel
  refine ⟨fun op h => ?_, by decide +kernel⟩
  obtain ⟨a, b, c, d, e, f, g, i, j, k⟩ := all op h
  exact ⟨a, b, c, .inl rfl, d, nofun, e, f, g, i, j, fun h => absurd (k.symm.trans h) (by decide)⟩

theorem wit_HostQueues_entries :
    (let s := hostAt 17 ([(0x1009, 0x20), (0x1010, 1), (0x1014, 1), (0x1016, 1)] ++ kobjMem)
     let b := s.bytes 0x1000 64
     badShape (entryWord b 0x10) (BitVec.ofNat 64 (entryNat b 0x30 4)) = false ∧
       s.readKObj (entryWord b 8) = .ok (kobj) ∧
       s.readParams (entryWord b 0x18) 0 = .ok []) ∧
    (let s := hostAt 18 ([(0x1009, 0x30)] ++ graphMem)
     (match s.readGraph (entryWord (s.bytes 0x1000 64) 8) with
      | .ok (_, _, ns) => s.variantsRes ns == .cond 0 && ns.length == 1 && ns.all (fun n => !n.root)
      | _ => false) = true) ∧
    (hostAt 19 []).sysRead 0 8 = .ok (List.replicate 8 0) ∧ ((hostAt 19 []).commutAt 0).isNone = true ∧
    (match (hostAt 20 []).sysWrite 0 (leBytes 8 7) with | .ok _ => true | _ => false) = true ∧
    (match (hostAt 17 []).readKObj 0x2000 with | .cond c => c < 16 | _ => false) = true ∧
    (hostAt 21 []).readHints 0 0 = .ok ([], []) := by decide +kernel

/-- The first group of the team, between clauses. -/
def up (s : State) : State := { s with ctl := (host []).ctl }
def grNew : Grid := { gr1 with nextTeam := 0 }

/-- TeamsAndGrids: a grid with a team to start and a core with room; a team whose group has exited; a grid that is done, and
one that was killed, with a status word. -/
theorem wit_TeamsAndGrids :
    (let s := { up (st g1 []) with groups := [], teams := [], grids := [grNew] }
     s.grid? (BitVec.ofNat 64 1) = some grNew ∧ grNew.pending = none ∧ grNew.killed = none ∧ grNew.nextTeam < 1 ∧
       grNew.ko.cluster = 1 ∧ s.coreUp 575 = true ∧ (s.roomOn 575 grNew.ko (List.range grNew.ko.groups) (grNew.ko.acc / 1024)).isSome = true ∧ s.graphs = []) ∧
    (let s := st { gIdle with st := .exited } []
     s.team? 2 = some t1 ∧ s.grid? t1.grid = some gr1 ∧ (∀ g ∈ s.groups, g.st = .exited) ∧ s.ops = [] ∧
       ∀ c ∈ s.grids, c.parentTeam ≠ some 2) ∧
    (∀ gr ∈ [{ gr1 with doneTeams := 1 }, { gr1 with killed := some (16, 1), status := 0x40 }],
      let s := { s1 with groups := [], teams := [], grids := [gr], tlb := [⟨noCore, 0, 0, 0x3C0⟩] }
      s.grid? (BitVec.ofNat 64 1) = some gr ∧ gr.clasp = none ∧ gr.parentGrid = none ∧
        (gr.killed ≠ none ∨ gr.pending = none ∧ gr.doneTeams = gr.dimX * gr.dimY * gr.dimZ) ∧
        gr.status.toNat % 8 = 0 ∧ (gr.status ≠ 0 → s.global noCore .store gr.status = .at 0x40 none ∧
          s.reaches (homeOf s 0x40).1 = true ∧ s.ctl.asks = [])) := by decide +kernel

/-- Preemption: a resident team between clauses, and one that is away. -/
theorem wit_Preemption : (let s := st gIdle []
      s.team? 2 = some t1 ∧ s.grid? t1.grid = some gr1 ∧ s.mates t1 = [t1] ∧ t1.resident = true ∧
        s.ctxFits = true ∧ (∀ g ∈ s.groups, s.savable g = true) ∧
        ∀ x ∈ imagePieces gIdle t1 gr1 (s.opsOf 1) (gIdle.savedRec 0), x.1 + x.2.length ≤ 65536) ∧
    (let tm := { t1 with resident := false, savedSpad := [(393215, 1)] }
     let s := { up (st gIdle []) with teams := [tm] }
     s.team? 2 = some tm ∧ s.mates tm = [tm] ∧ tm.clustrank = 0 ∧ s.resets = [] ∧ s.coreUp 3 = true ∧
       s.graphs = [] ∧ (∀ o ∈ s.opsOf 1, o.mayMove = true) ∧ tm.savedPtc ≤ s.ptcOn (dieOfCore 3) ∧ (∀ q, q < 64 → (s.queue q).dbgact.getLsbD 63 = false) ∧
       (s.roomOn 3 gr1.ko (((s.groupsOf 2).filter fun g => g.st != .exited).map fun g => g.grpid.toNat) tm.accUnits).isSome = true ∧
       Store.wf tm.savedSpad = true ∧ tm.savedExp = [] ∧ tm.savedLane = [] ∧ ∀ x ∈ tm.savedSpad, x.1 < gr1.ko.spad) := by decide +kernel

def rc (node : Nat) (data : List Byte) (r : RecSt) : Rec := { id := 5, graph := 4, node := node, data := data, st := r, gid := 1, gate := 0, team := 2 }

/-- WorkGraphs: a record sent, one held until now, one for head 3 and one for a head that does not exist; a node
with 32 records that have waited. -/
theorem wit_WorkGraphs :
    (∀ r ∈ [rc 0 [] .sent, rc 0 [] (.held 0)], let s := { s1 with graphs := [gph [gn 0 4 []]], recs := [r] }
      s.rec? 5 = some r ∧ s.emissionClear r = true ∧ s.firstOfTeam r = true ∧ (0 : W64).toNat ≤ s.ctl.ptc) ∧
    (∀ d ∈ [leBytes 8 64 ++ [3, 6], leBytes 8 64 ++ [4, 3]],
      let s := { s1 with graphs := [gph [gn 4 32 []]], recs := [rc 0 d (.pending 0)] }
      s.rec? 5 = some (rc 0 d (.pending 0)) ∧ s.graph? 4 = some (gph [gn 4 32 []]) ∧ s.ctl.heads.length = 4) ∧
    entryNat (leBytes 8 64 ++ [3, 6]) 8 1 = 3 ∧ entryNat (leBytes 8 64 ++ [3, 6]) 9 1 = 6 := by decide

theorem wit_WorkGraphs_teams :
    let node := gn 0 4 []
    let h := gph [node]
    let s := { host kobjMem with
      graphs := [h], ctl := { (host []).ctl with ptc := 1000 }
      recs := (List.range 32).map fun i => { rc 0 [1, 0, 0, 0] (.pending 0) with id := i } }
    let ko := kobj
    s.graph? 4 = some h ∧ h.nodes[0]? = some node ∧ s.quiesces = [] ∧ s.readKObj 0x2000 = .ok ko ∧ s.nodeParams node = .ok [] ∧
      s.coreUp 0 = true ∧ (s.issuable 4 0 node).length = 32 ∧ h.killed = none ∧ s.consumerFirst h 0 = false ∧
      (s.grid? s.nextGrid).isNone = true ∧ s.graphs.map (fun g => (g.id, g.nodes.length)) = [(4, 1)] ∧ s.producing h 0 = false ∧
      (({ s with grids := s.grids ++ [nodeGrid s h 0 0 0 ko []] } : State).roomOn 0 ko ((List.range ko.groups).filter fun g => 32 * g < 32) (ko.acc / 1024)).isSome = true ∧
      s.overdue node (s.issuable 4 0 node) = true ∧ 32 * ko.groups ≤ 32 := by decide +kernel

/-! ### Groups and their control -/

def gReady : Group := { gIdle with hang := 1, flags := 0, lpc := List.map (fun l => (l, (0x80 : BitVec 48))) (List.range 32) }
/-- A clause of one IADD at 128, and a header with set-B alone (02 R27). -/
def clauseMem (hw : Nat) : Mem := Store.writeList (Store.writeList [] 0x80 (leBytes 8 hw)) 0x88 (leBytes 8 0x010022CA00000064)
def sClause (hw : Nat) : State := { dbg (st gReady []) with mem := clauseMem hw }

/-- GroupEvents: a clause that starts, and one whose header is malformed. -/
theorem wit_GroupEvents_clause :
    (∀ hw ∈ [0x08000FF000000000, 0x08000F0000000000], let s := sClause hw
      s.pipeBusy 0 0 = false ∧ s.resets = [] ∧ s.firstReady 0 0 = some gReady ∧ s.team? gReady.team = some t1 ∧
        s.grid? t1.grid = some gr1 ∧ gReady.issueAddr = some 0x80 ∧ s.fetchWord 0 0x80 = .word (BitVec.ofNat 64 hw) ∧
        gReady.fetch = none ∧ (s.homeToAsk 0 0x80 []).isNone = true ∧ gReady.jumped &&& gReady.activeLanes = 0 ∧
        s.samplerBusy 1 = false ∧ s.ctxFits = true ∧
        (s.queue 0).ctl.getLsbD 8 = true ∧ gr1.serves = none) ∧
    headerDetail 0x08000FF000000000 = none ∧ headerDetail 0x08000F0000000000 ≠ none ∧
    (match (sClause 0x08000FF000000000).fetchWords 0 0x80 1 with | .ok ws => ws | _ => []) = [0x010022CA00000064] ∧
    clauseDetail (ctxOf gr1) 0x08000FF000000000 [0x010022CA00000064] = none := by decide +kernel

def badOp : Op := { op1 (.st 0 (.s 3) (.s 3) stX) [] [part1 .g 0x40 4 .faulted 64] with fault := some ⟨6, 1, [], 1, none⟩ }

/-- GroupEvents: a fault that an exited group has reached at its end; a wait of the hang limit; images named and not. -/
theorem wit_GroupEvents :
    (let g := { gIdle with live := 0 }
     let s := dbg (st g [badOp])
     s.group? 1 = some g ∧ s.samplerBusy 1 = false ∧ s.dueFault g = some badOp ∧ badOp.isReport = false ∧ g.st ≠ .exited ∧
       s.ctxFits = true ∧ (s.team? g.team).isSome = true ∧ (s.grid? 1).isSome = true) ∧
    (∀ c ∈ [({ gIdle with st := .blockedBatch 0, since := some 5, hang := 1 }, true),
        ({ g1 with run := some { run1 with held := true }, since := some 5, hang := 1 }, false)], let g := c.1
     let s := { dbg (st g []) with ctl := { Ctl.reset with ptc := 1005 } }
     s.group? 1 = some g ∧ g.blocked = true ∧ g.hang ≠ 0 ∧ g.live ≠ 0 ∧ g.hung = false ∧ g.between = c.2 ∧
       5 + g.hang.toNat * 1000 ≤ s.ctl.ptc ∧ s.ctxFits = true) ∧
    (let s := up (sPark (.host 0))
     s.ctl.up = true ∧ s.queues.length = 64 ∧ s.awaiting 0 0x4000 = some (gPark (.host 0)) ∧ s.awaiting 1 0x4000 = none ∧
       s.awaiting 0 0x8000 = none ∧ s.imagePrecOk 0x4000 = true ∧ s.l1 = []) ∧
    ({ Ctl.reset with ptc := 100000 }.budgetAt + 100000 ≤ 100000) ∧
    ((up s1).budget.reg.length = 5 ∧ (up s1).budgetOk 0 0 = true ∧ (up s1).budgetOk 4 100 = false) := by decide +kernel

/-! ### Commutative memory -/

/-- A part of a command of core 0 that reads region 1's block at 64 KiB. -/
def tolOp : Op := op1 (.ldtol 0 .queue (.s 1) (.s 3) (mx .g .add .b32)) [⟨0, 0, 0, 0x10000⟩, ⟨0, 1, 0, 8⟩] [part1 .g 0x10000 4 .waiting 0]
def hamp (share : W64) : Hamper := ⟨0, 0x10000, 7, region1, share, [(15, 3)], 0x8000, [], false⟩
def hbOf (b : W64) : HomeBlk := ⟨0x10000, { region1 with limit := b }, [⟨0, 7, b, false⟩], []⟩
def msg3 (b : MsgBody) : Msg := ⟨3, b, false, 0, none⟩
def sMsg (b : MsgBody) (hampers : List Hamper) (homes : List HomeBlk) : State :=
  { s1 with msgs := [msg3 b], hampers := hampers, homes := homes }
def sums1 : Sums := ⟨0x8000, [(15, 3)]⟩

/-- CommutativeMemory, the messages: a recalled hamper, of the grant named and of another; the first request and a later
one, of shares that can be split and that cannot; a split at its holder, and its acknowledgement; a grant of nothing and of
a share; a drain, and one that leaves; its acknowledgement. -/
theorem wit_CommutativeMemory :
    (let s := sMsg (.recallHamper 0 0x10000 7) [hamp 16] []
     s.msg? 3 = some (msg3 (.recallHamper 0 0x10000 7)) ∧ s.hamper? 0 0x10000 = some (hamp 16) ∧ (hamp 16).line = 7 ∧
       ∀ x ∈ s.msgs, 3 ≤ x.id) ∧
    (let s := sMsg (.shareReq 1 0x10000 region1) [] []
     s.msg? 3 = some (msg3 (.shareReq 1 0x10000 region1)) ∧ s.drainAhead 3 1 0x10000 = false ∧ s.home? 0x10000 = none ∧
       region1.units (region1.ofUnits (region1.units region1.limit)) ≠ 0) ∧
    (sMsg (.shareReq 1 0x10000 region1) [] [hbOf 16]).home? 0x10000 = some (hbOf 16) ∧ region1.isFloat = false ∧
    region1.splittable 16 = true ∧ { region1 with limit := 1 }.splittable 1 = false ∧
    (let s := sMsg (.split 0 0x10000 region1 7 1 8 8) [{ hamp 16 with track := [(0, 8)] }] [hbOf 16]
     s.firstFor 3 0 0x10000 = true ∧ region1.within 8 8 = true ∧ (s.hamper? 0 0x10000).map (·.line) = some 7) ∧
    (let s := sMsg (.splitAck 0 0x10000 region1 7 1 8 8) [] [hbOf 16]
     s.drainAhead 3 0 0x10000 = false ∧ s.home? 0x10000 = some (hbOf 16) ∧ (∃ h ∈ (hbOf 16).holders, h.line = 7) ∧
       ∀ h ∈ (hbOf 16).holders, h.line ≠ 6) ∧
    (let s := sMsg (.grant 0 0x10000 region1 8 7) [] []
     s.firstFor 3 0 0x10000 = true ∧ s.hamper? 0 0x10000 = none ∧ (s.hampers.filter fun h => h.core == 0).length < 512 ∧
       s.l1Used 0 + 2 ≤ l1Places) ∧
    (∀ leave ∈ [false, true], let s := sMsg (.drain 0 0x10000 region1 7 sums1 leave false none none) [] [hbOf 16]
     s.drainAhead 3 0 0x10000 = false ∧ s.addAhead 3 0 0x10000 = false ∧ region1.fmt = 2 ∧
       (hbOf 16).region = region1 ∧ ∀ h ∈ (hbOf 16).holders, h.recalled = false) ∧
    (let s := sMsg (.drainAck 0 0x10000 7 none) [hamp 16] []
     s.contribFault 0 none = false ∧ s.hamper? 0 0x10000 = some (hamp 16)) := by decide +kernel

/-- CommutativeMemory: a marker on a path that is up, and a lost one on a path that is not. -/
theorem wit_CommutativeMemory_marker :
    (∀ lost ∈ [false, true], let x : Sent := ⟨10, 0, 3, 0, 0x640014, 4, false, []⟩
     let m : Msg := ⟨3, .marker 5 10, lost, 0, some x⟩
     let up : Port := { Port.reset with stat := setFld (setFld 0 57 56 2) 63 58 5 }
     let s := { s1 with msgs := [m], ports := List.replicate 16 (if lost then Port.reset else up) }
     s.msg? 3 = some m ∧ s.pathUp x = !lost ∧ s.pathClear x = true ∧ s.acked x = true) := by decide +kernel

/-- CommutativeMemory: the first acknowledgement of a split; a block with two recalled holders of which one has replied, in
a region of ascending order; a drain on a link, before it is sent and as it arrives. -/
theorem wit_CommutativeMemory_more :
    (sMsg (.splitAck 0 0x10000 region1 7 1 8 8) [] [hbOf 16]).firstAck 3 7 0x10000 = true ∧
    (let hb : HomeBlk := ⟨0x10000, { region1 with order := 1 }, [⟨0, 7, 8, true⟩, ⟨1, 9, 8, true⟩], []⟩
     let s := sMsg (.drain 0 0x10000 region1 7 sums1 true false none none) [] [hb]
     s.home? 0x10000 = some hb ∧ (∃ h ∈ hb.holders, h.line = 7 ∧ h.recalled = true) ∧ hb.region.order = 1 ∧
       (∃ h ∈ hb.holders, h.recalled = true ∧ h.line ≠ 7 ∧ ∀ y ∈ hb.replies, y.line ≠ h.line) ∧
       s.remote 0 0x10000 = false) ∧
    (let s := sMsg (.drain 300 0x10000 region1 7 sums1 true false none none) [] []
     s.remote 300 0x10000 = true ∧ s.windowOpen 1200 (destOf s 0x10000) = true ∧
       s.arrives ⟨0, 0, 16, 0, 0x640014, 4, false, []⟩ = true) := by decide +kernel

/-- CommutativeMemory, a read with a tolerance of 8: of a block that no L1 holds, and of one whose holders have more. -/
theorem wit_CommutativeMemory_reads : ∀ homes ∈ [[], [(⟨0x10000, region1, [⟨1, 4, 8, false⟩, ⟨2, 6, 8, false⟩], []⟩ : HomeBlk)]],
    let p := part1 .g 0x10000 4 .waiting 0
    let s := { sOp tolOp with homes := homes }
    s.op? 5 = some tolOp ∧ s.ownerOf tolOp = some (gIdle, t1, gr1) ∧ s.loadClear tolOp = true ∧
      s.atomsClear tolOp 0x10000 = true ∧ p.held = none ∧ p.asked = false ∧ tolOp.parts.length = 1 ∧ s.placePiece gIdle t1 gr1 tolOp.acc p 4 (sizeAlign .b32) = .at 0x10000 (some 1) ∧
      s.region? 1 = some region1 ∧ sizeFits region1 .b32 = true ∧ s.addsClear tolOp 0x10000 = true ∧ s.passes 0 p 0x10000 = true ∧
      s.poisoned 0x10000 = false ∧ tolerance region1 (tolOp.cap 1 0) = some 8 ∧
      (∀ hb ∈ homes, s.home? 0x10000 = some hb ∧ recallChoice region1 8 2 (hb.holders.filter fun h => !h.recalled) = [4]) := by
  decide +kernel

/-! ### Translation -/

def miss0 : Miss := ⟨0, 0⟩

/-- TranslationBlock: a miss with a free slot, with none, with a walk of its 2 MiB in flight, and the end of its walk, of a
page that the tables map, with a miss of the other die's turn waiting; an invalidate of it with no access in flight, done
and not done; a region in the tables to install, to remove, and one with a page bound to it. -/
theorem wit_TranslationBlock :
    (let s := host []
     (BitVec.ofNat 48 0x2000).extractLsb' 16 32 = miss0.page ∧ s.missq = [] ∧ s.walks.length < 4096 ∧ s.ctl.up = true ∧
       s.xl.invc.getLsbD 63 = false ∧ s.regions = [] ∧ s.poisoned 32 = false ∧
       parseRegion 1 ((s.recallNow (blockOf 32)).bytes 32 32) = none) ∧
    4096 ≤ ({ host [] with walks := List.replicate 4096 [⟨1, 64⟩] } : State).walks.length ∧
    (let s := { host [] with walks := [[⟨1, 1⟩]] }
     (∃ w ∈ s.walks, ∃ x ∈ w, x.page.toNat / 32 = miss0.page.toNat / 32) ∧ ∀ w ∈ s.walks, miss0 ∉ w) ∧
    (let s := { host [] with walks := [[miss0]] }
     (∃ w ∈ s.walks, miss0 ∈ w) ∧ (match s.translate 0 0x2000 with | .page e level => e == 0x3C0 && level == 2 | _ => false) = true ∧
       s.tlb = [] ∧ ∀ w ∈ s.walks, ∀ x ∈ w, x.page = miss0.page → x = miss0) ∧
    (let s := { host [] with walks := [miss0] :: List.replicate 4095 [⟨1, 64⟩], missq := [⟨1, 32⟩] }
     (s.missq.find? fun x => dieOfCore x.core == s.missDie) = some ⟨1, 32⟩ ∧ s.walks.length = 4096 ∧ [miss0] ∈ s.walks) ∧
    (let s := { s1 with xl := { XlRegs.reset with invc := 0x8000000000000001, invLo := 0x10000, invHi := 0x20000 } }
     s.xl.invc.getLsbD 63 = true ∧ s.flying s.xl.invLo s.xl.invHi = false) ∧
    (let s := host [(0x20 + 2, 1), (0x20 + 10, 1), (0x20 + 16, 2), (0x20 + 24, 16)]
     parseRegion 1 ((s.recallNow (blockOf 32)).bytes 32 32) = some ⟨1, 0x10000, 0x10000, 2, 0, 0, 16⟩ ∧ s.regions = []) ∧
    (up s1).regionBound 1 = false ∧ ((up s1).regions.any fun x => x.n == 1) = true := by decide +kernel

/-- The page table's leaf in state 3, bound to region 1. -/
theorem wit_TranslationBlock_bound :
    (let s := { host [] with regions := [region1]
                             mem := [(0x100001, 0x08), (0x100003, 0x40), (0x100004, 0x40), (0x101000, 0xC0), (0x101001, 0x07),
                                     (0x101002, 0x40)] }
     s.regionBound 1 = true ∧ (s.regions.any fun x => x.n == 1) = true) := by decide +kernel

/-! ### The service and quiesce points -/

def svcGroup : Group := { gPark .service with park := some { pk .service with page := 0x20000 } }
/-- Two leaf tables: VA 0 to 2 MiB in pages of 64 KiB, page 2 a copy of device 0 in state 2. -/
def svcMem (page2 : Mem) : Mem :=
  [(0x100001, 0x08), (0x100003, 0x40), (0x100004, 0x40), (0x101001, 0x08), (0x101003, 0x80), (0x101004, 0x40),
   (0x102001, 0x08), (0x102003, 0xC0), (0x102004, 0x40)] ++ page2

/-- A group parked on page 2 for the service; the page is mapped in state 1, which needs no service, and in state 2, which
does. -/
def sSvc (page2 : Mem) : State := { host [] with mem := svcMem page2, groups := [svcGroup] }

def job (n : Nat) : Quiesce := ⟨5, [], [], n, [], some 0, none, 0⟩

/-- ServiceAndQuiesce: a page in state 1, in state 2, and one that is locked; a quiesce point at each of its steps. -/
theorem wit_ServiceAndQuiesce :
    svcGroup.servicePage = some 2 ∧
    (let s := sSvc [(0x103010, 0xC0), (0x103011, 0x03)]
     s.group? 8 = some svcGroup ∧ s.locks = [] ∧ (s.leafOf ⟨BitVec.ofNat 6 s.device, s.xl, s.regions⟩ 0x20000) = some (0x103010, 0, 0x3C0)) ∧
    leafState 0x3C0 = 1 ∧
    (let s := sSvc [(0x103010, 0xC0), (0x103011, 0x15)]
     s.leafOf ⟨BitVec.ofNat 6 s.device, s.xl, s.regions⟩ 0x20000 = some (0x103010, 0, 0x15C0) ∧ leafState 0x15C0 = 2 ∧
       ((s.mapped 0x20000 2).any fun m => m.own && m.dev == leafDevice 0x15C0) = true ∧ s.shortPools 0x20000 = []) ∧
    (let s := { sSvc [] with locks := [2] }
     (s.locks.find? fun l => l.toNat / 32 == 2 / 32) = some 2 ∧ s.flying 0x20000 0x30000 = false) ∧
    (∀ n < 6, let s := { s1 with quiesces := [job n], ctl := { Ctl.reset with ptc := 60000000000 } }
      s.quiesces.find? (fun x => x.id == 5) = some (job n) ∧ s.framesQuiet (job n) = true ∧
        s.entryTaken (job n) (quiesceLeaves s (job n)) = false ∧ 3 * s.linkTimeout ≤ s.ctl.ptc ∧
        3 * pkgTimeout s.ctl.lnkto ≤ s.ctl.ptc) := by decide +kernel

/-- A quiesce point that moves page 2 from frame 0 to frame 1 of die 0. -/
def moveJob (n : Nat) : Quiesce := { job n with leaves := [⟨0, 0x103010, 0x3C0, 0x4000003C0, 0x20000, 0, 0⟩] }

/-- ServiceAndQuiesce: an owned line with a dirty word in the old frame, which a step brings home; the frame to fill; the
leaf to store. -/
theorem wit_ServiceAndQuiesce_move :
    (let s := { s1 with l1 := [⟨0, 64, .owned, [(0, 7)], 1⟩], dir := [⟨64, some 0, []⟩], quiesces := [moveJob 2] }
     (∀ ln ∈ s.l1, ln.blk % 64 = 0 ∧ inFrames (moveJob 2).oldFrames ln.blk = true) ∧ s.homes = []) ∧
    (moveJob 4).source 0x20000 = some 0 ∧ ((moveJob 4).news.map fun l => (l.frame l.new, l.bytes)) = [(65536, 65536)] ∧
    (∀ l ∈ (moveJob 5).leaves, l.key % 8 = 0) ∧ (moveJob 5).spans = [(0x20000, 0x30000)] ∧
    (let s := logged s1
     s.logRing + 32 * s.logSize ≤ 0x103010) := by decide +kernel

/-! ### The control die -/

def sPort (x : Port) : State := { up s1 with ports := List.replicate 16 x, ctl := { (host []).ctl with ptc := 60000000000 } }

def key1 : LinkKey := ⟨1, 2⟩
def stateOf (n : Nat) : Port := { Port.reset with ctl := 1, stat := setFld 0 57 56 n }

/-- PortsAndLinks: a port in each state that a clause names. -/
theorem wit_PortsAndLinks : (∀ s ∈ [sPort Port.reset], s.ctl.up = true ∧ s.ports.length = 16 ∧ (s.port 15).enabled = false ∧
      (s.port 15).state = 0) ∧
    (let x := (sPort { Port.reset with ctl := 1 }).port 15
     x.enabled = true ∧ x.state = 0) ∧
    (let x := (sPort { stateOf 1 with outKey := some key1, inKey := some key1 }).port 15
     x.state = 1 ∧ x.outKey.isSome = true ∧ x.inKey.isSome = true) ∧
    (∀ y ∈ [{ stateOf 2 with sent := 2 ^ 40 - 1 }, { stateOf 2 with newKey := some key1 }, { stateOf 2 with marking := true }],
      let s := sPort y
      (s.port 15).state = 2 ∧ (s.port 15).rekeying = (y.sent == 0) ∧ (s.port 15).oldKey = none ∧ fld s.ctl.lnkrekey 31 0 ≠ 0 ∧
        (s.port 15).keyAt + fld s.ctl.lnkrekey 31 0 * 1000000 ≤ s.ctl.ptc ∧ (s.port 15).markAt + s.linkTimeout ≤ s.ctl.ptc) ∧
    2 ^ 40 ≤ { stateOf 2 with sent := 2 ^ 40 - 1 }.sent + 1 ∧
    (let s := { sPort Port.reset with ports := { stateOf 2 with inKey := some key1, oldKey := some key1 } :: List.replicate 15 Port.reset }
     s.paths 0 = [0] ∧ (s.port 0).oldKey.isSome = true ∧ (s.port 0).opens true = true ∧ (s.port 0).opens false = true) := by
  decide +kernel

/-- Device 5, which port 0 leads to. -/
def far5 : Nat := 10
def sent5 : Sent := ⟨far5, 0, 0, 0, 0x640014, 0, true, []⟩
/-- A load of core 0 whose page lies on device 5. -/
def farOp (lost : Bool) (n : Nat) : Op :=
  op1 (.ld 0 (.w 2) (.s 3) ldX false) [⟨0, 0, 0, 0x40⟩]
    [{ part1 .g 0x40 4 .waiting 0 with
      lostReq := lost, timeouts := n, sent := some sent5, way := some ⟨1, mkDpa 5 0 64, none⟩ }]
def sFar (os : List Op) : State :=
  { st { g1 with run := none, pushes := 1 } os with
    tlb := [⟨0, 0, 0, setFld 0x3C0 63 58 5⟩], ctl := { (host []).ctl with ptc := 60000000000 }
    ports := List.replicate 16 { stateOf 2 with stat := setFld (setFld 0 57 56 2) 63 58 5, inKey := some key1 } }

/-- PortsAndLinks: a lost request with no timeout, one and two; a request that its home performs; an answer that the home
cannot give yet, behind an older store of its block. -/
theorem wit_PortsAndLinks_requests : (∀ n ∈ [0, 1, 2], let o := farOp true n
      let s := sFar [o]
      s.op? 5 = some o ∧ o.fault = none ∧ (o.parts[0]?.map fun p => (p.sent, p.awaited, p.lostReq)) = some (some sent5, true, true) ∧
        s.late sent5 = true) ∧
    (let o := farOp false 0
     let s := sFar [o]
     s.ports.length = 16 ∧ (s.port 0).state = 2 ∧ s.carried 0 o.core sent5.home = true ∧ sent5.path = 0 ∧
       (s.port 0).opens false = true ∧
       (match o.parts with | [p] => isNext (performPart s o 0 p false) | _ => false) = true ∧
       (let x := { sent5 with arrived := false }
        s.canCome x = true ∧ (sFar []).late x = true) ∧ s.canCome { sent5 with path := 31 } = false) ∧
    (let p := { part1 .g 0x40 4 (.departed 3) (mkDpa 5 0 64) with sent := some sent5, way := some ⟨3, mkDpa 5 0 64, none⟩ }
     let o := { op1 (.st 0 (.s 3) (.s 3) stX) [⟨0, 0, 0, 0x40⟩] [p] with buf := [(0, 7)] }
     let older := { o with id := 4, parts := [{ p with st := .departed 2, way := some ⟨2, mkDpa 5 0 64, none⟩ }] }
     (match performPart (sFar [older, o]) o 0 p true with | .refused _ => true | _ => false) = true ∧ p.awaited = true) := by
  decide +kernel

/-- PortsAndLinks: a message that was lost, and one on its way between the dies. -/
theorem wit_PortsAndLinks_messages :
    (let x : Sent := ⟨1, 0, 16, 0, 0x640014, 0, false, []⟩
     let m : Msg := ⟨3, .shareReq 1 0x10000 region1, true, 1, some x⟩
     let s := { sPort Port.reset with msgs := [m] }
     s.op? 3 = none ∧ s.msg? 3 = some m ∧ s.late x = true ∧ s.pathUp x = true ∧ (s.drainOwner m.body).isNone = true) ∧
    (let m : Msg := ⟨3, .shareReq 300 0x10000 region1, false, 0, none⟩
     let s := { sPort Port.reset with msgs := [m] }
     s.coreOf m.body = some 300 ∧ s.homeOfMsg m.body = some 0 ∧ s.carried 16 300 0 = true) := by decide +kernel

/-- PortsAndLinks: a clause fetch over a port that is lost, and one that arrives; a hint at its third timeout. -/
theorem wit_PortsAndLinks_fetch :
    (∀ lost ∈ [false, true], let f : FetchReq := ⟨{ sent5 with arrived := false }, 1, lost, []⟩
     let g := { gIdle with fetch := some f }
     let s := { sFar [] with groups := [g] }
     s.op? 1 = none ∧ s.msg? 1 = none ∧ s.group? 1 = some g ∧ s.late f.sent = true ∧ s.arrives f.sent = true ∧
       (s.port 0).state = 2 ∧ s.carried 0 0 f.sent.home = true) ∧
    (let o := { farOp true 2 with instr := .pfx 0 (.s 3) .own }
     o.isHint = true ∧ (o.parts.all fun p => p.awaited) = true) := by decide +kernel

/-- ResetsAndErrors: die 1 to reset; a reset before its clearing, and after it when its time has come; each unit that is
counted. -/
theorem wit_ResetsAndErrors : (up s1).queues.length = 64 ∧ (up s1).ctl.rstctl.getLsbD 1 = false ∧
    (∀ c ∈ [false, true], let s := { sPort Port.reset with groups := [gIdle], resets := [⟨1, false, 0, 0, [], c⟩] }
     s.resets.find? (fun x => x.die == 1) = some ⟨1, false, 0, 0, [], c⟩ ∧ 3 * s.linkTimeout + 1000 ≤ s.ctl.ptc ∧
       s.storesFlying ⟨1, false, 0, 0, [], c⟩ = false ∧ (∀ g ∈ s.groups, g.midClause = false) ∧ (∀ g ∈ s.grids, g.killed = none) ∧ s.graphs = []) ∧
    (up s1).ctl.corrected.length = 7 ∧ 1 ≤ (6 : BitVec 8).toNat ∧ (6 : BitVec 8).toNat ≤ 6 ∧
    ({ Ctl.reset with corrected := List.replicate 7 255 }.corrected.getD 6 0) + 1 = 256 := by decide +kernel

/-- ResetsAndErrors: a fatal reset before its clearing, with a block of the die's L1 and a hamper, and after it with one lost
region, whose table lies away from the log; a group between clauses for its debugger; a hamper, a team and a unit of it. -/
theorem wit_ResetsAndErrors_fatal :
    (let r : DieReset := ⟨0, true, 2, 0, [], false⟩
     let s := { sPort Port.reset with groups := [gIdle], resets := [r], dir := [⟨64, some 0, []⟩], hampers := [hamp 16] }
     s.resets.find? (fun x => x.die == 0) = some r ∧ s.storesFlying r = false ∧ isHbm 64 = true ∧ dieOfCore 0 = 0 ∧
       s.lostWith 0 0 0x10000 = true ∧ s.hamper? 0 0x10000 = some (hamp 16)) ∧
    (let r : DieReset := ⟨0, true, 2, 0, [1], true⟩
     let s := { logged (sPort Port.reset) with
       grids := [], resets := [r], ctl := { (logged (sPort Port.reset)).ctl with regloss := 0x80000 } }
     s.resets.find? (fun x => x.die == 0) = some r ∧ 3 * s.linkTimeout + 1000 ≤ s.ctl.ptc ∧ s.graphs = [] ∧
       s.logRing = 0x40000 ∧ s.logSize = 64 ∧ mkDpa s.device (fld s.ctl.regloss 38 38) (fld s.ctl.regloss 37 15 * 32768) = 0x80000 ∧
       (s.dirOf (blockOf 0x80008)).owner = none) ∧
    (let s := dbg (st gIdle [])
     s.group? 1 = some gIdle ∧ s.team? 2 = some t1 ∧ gIdle.between = true ∧ s.samplerBusy 1 = false ∧ gr1.serves = none ∧
       s.ctxFits = true ∧ 511 < t1.accUnits) := by decide +kernel

/-- HostAccesses: the last byte of memory, the last tag, a buffer that is aligned and one that is not, an attestation
engine that is free and one that works, a register that takes its write before any queue was enabled, and an access of a
size that reaches none. -/
theorem wit_HostAccesses : (up s1).ctl.up = true ∧
    (∀ a ∈ [0, 2 * dieBytes - 1], a + 1 ≤ 2 * dieBytes ∧ ∀ h ∈ hostBlocks a 1,
      (up s1).home? (hostKey (up s1) h) = none ∧ (up s1).blockQuiet (hostKey (up s1) h) = true ∧
        ((up s1).dirOf (hostKey (up s1) h)).owner = none) ∧
    2 * dieBytes / 32 - 1 < 2 * dieBytes / 32 ∧ (up s1).ctl.lostmap.length = 8 ∧
    fld (up s1).ctl.attbuf 37 6 * 64 % 4096 = 0 ∧ fld (up s1).ctl.attbuf 37 6 * 64 < dieBytes ∧
    fld ({ Ctl.reset with attbuf := 0x40 }).attbuf 37 6 * 64 % 4096 ≠ 0 ∧
    (up s1).ctl.attcmd.getLsbD 63 = false ∧ (BitVec.ofNat 64 (2 ^ 63 + 1)).getLsbD 63 = true ∧ fld (2 ^ 63 + 1) 7 0 = 1 ∧
    (up s1).ctl.boot = 0 ∧ (up s1).ctl.enabledOnce = false ∧
    (⟨false, 0x10, 4⟩ : RegAccess).size ≠ 8 ∧ (⟨true, 0xFFFFF8, 8⟩ : RegAccess).addr < 0x1000000 := by decide +kernel

/-- HostAccesses: a block that core 0 owns, and one with a single holder. -/
theorem wit_HostAccesses_held :
    (let s := { up s1 with l1 := [⟨0, 64, .owned, [(0, 7)], 1⟩], dir := [⟨64, some 0, []⟩] }
     hostKey s 64 = 64 ∧ s.blockQuiet 64 = true ∧ s.home? 64 = none ∧ (s.line? 0 64).isSome = true) ∧
    (let s := { up s1 with homes := [hbOf 16], hampers := [hamp 16] }
     hostKey s 0x10000 = 0x10000 ∧ s.blockQuiet 0x10000 = true ∧ s.home? 0x10000 = some (hbOf 16) ∧ (hbOf 16).region = region1 ∧
       region1.fmt = 2 ∧ s.hamper? 0 0x10000 = some (hamp 16) ∧ (s.dirOf 0x10000).owner = none) := by decide +kernel

/-- TimeAndMonitors: a port that leads to a peer, an exchange that reaches the one source, time free and held,
synchronisation lost, a monitor that counts, a boot's images. -/
theorem wit_TimeAndMonitors :
    (let s := sPort (stateOf 2)
     (s.port 15).state = 2 ∧ (s.port 15).exchAt = none ∧ s.ctl.ptcLag0 ≤ 60 ∧ s.ctl.ptcLag1 ≤ (60 : W64).toNat ∧
       s.ctl.ptcLag0 ≤ s.ctl.ptskew.toNat ∧ s.ctl.ptcLag1 ≤ s.ctl.ptskew.toNat ∧
       s.ctl.gm = false ∧ (if s.ctl.gm then 1 else 0) + 1 = 1 ∧ (if s.ctl.gm then 1 else 0) + 2 ≠ 1 ∧ s.ctl.lost = false ∧
       s.ctl.corrAt0 + 10000 ≤ s.ctl.ptc ∧ s.ctl.corrAt1 + 10000 ≤ s.ctl.ptc ∧ fld { s.ctl with devcfg := 0x100 }.devcfg 13 8 ≠ 0 ∧
       s.ctl.lastExchange + 1000000000 ≤ s.ctl.ptc ∧ s.ctl.enabledOnce = false ∧ s.ctl.up = true ∧ s.monitors.length = 16 ∧
       s.ctl.tickAt + 1000 ≤ s.ctl.ptc) ∧
    (let c : W64 := 0x88000700
     fld c 15 8 = 7 ∧ c.getLsbD 31 = true ∧ c.getLsbD 30 = false ∧ c.getLsbD 28 = false ∧ c.getLsbD 27 = true) ∧
    (⟨List.replicate 4 ⟨1, 1, 0, [], [0]⟩, true, true⟩ : Boot).images.length = 4 := by decide +kernel

/-! ### Decoding, the step and the state -/

/-- DecodeEncode: words with their fields at their bounds. -/
theorem wit_DecodeEncode : ([.iadd ⟨7, .w 31, .s 63, .lit (BitVec.allOnes 32), .i32, false⟩, .bra 7 (BitVec.intMin 32),
    .bext ⟨0, .queue, .q 15, .i64, false⟩ 63 64, .tzero 7 ⟨31, some 3⟩ 15, .trap 7 0xFFFF] : List Instr).all
      (fun i => i.wf && i.isWord && (encode i).isSome) = true := by decide

/-- StepRunsDecoded: a placed word is the next one, with no event planned before it; a word of a clause at 128. -/
theorem wit_StepRunsDecoded : (let s := State.reset.withFetchWord 64 0x010022CA00000064
      s.agenda = [] ∧ s.tick.runner false = some 1 ∧ ((s.tick.takePipe 1).envOf 1).isSome = true ∧
        ((s.tick.takePipe 1).envOf 1).bind (fun e => e.instr?.toOption) = decodeTableWord 64 0x010022CA00000064) ∧
    (decodeWord 0x010022CA00000064).toOption.isSome = true ∧
    (let s := sClause 0x08000FF000000000
     (0x80 : BitVec 48).toNat % 8 = 0 ∧ s.global 0 .fetch 0x80 = .at 0x80 none ∧ s.poisoned 0x80 = false ∧
       (s.dirOf (blockOf 0x80)).owner = none) := by decide +kernel

/-- MemoryStaysCanonical: memory after reset, and a step that answers a next state. -/
theorem wit_MemoryStaysCanonical : Memory.wf (State.reset.withFetchWord 64 0x010022CA00000064).mem = true ∧
    isNext (step (State.reset.withFetchWord 64 0x010022CA00000064)) = true := by decide +kernel
end Sys2Proof.Tests
end

namespace Sys2Proof.Machine

/-! ## Captures and parts of the executing lanes (01 R16) -/

/-- The parts of one lane, when each lane of a set contributes its own. -/
theorem filter_lane_flatMap {ls : List Nat} (hn : ls.Nodup) {f : Nat → List Part} (hf : ∀ j, ∀ p ∈ f j, p.lane = j) (l : Nat) :
    (ls.flatMap f).filter (fun p => p.lane == l) = if l ∈ ls then f l else [] := by
  induction ls with
  | nil => rfl
  | cons j t ih =>
    obtain ⟨hj, ht⟩ := List.nodup_cons.1 hn
    rw [List.flatMap_cons, List.filter_append, ih ht]
    by_cases h : j = l
    · subst h
      have : (f j).filter (fun p => p.lane == j) = f j := List.filter_eq_self.2 fun p hp => by simp [hf j p hp]
      simp [this, hj]
    · have : (f j).filter (fun p => p.lane == l) = [] :=
        List.filter_eq_nil_iff.2 fun p hp => by simp [hf j p hp, h]
      simp [this, Ne.symm h]

theorem laneList_nodup (ex : W32) : (laneList ex).Nodup := List.nodup_range.filter _

/-- The parts of a lane are the pieces of its access. -/
theorem filter_lane_laneParts (ex : W32) (sp : Space) (n : Nat) (st : PartSt) (addr : Nat → W64) {l : Nat} (hl : l < 32) :
    (laneParts ex sp n st addr).filter (fun p => p.lane == l) =
      if ex.getLsbD l then (pieces (addr l).toNat n).map fun q => newPart l sp (addr l) q.1 q.2 st else [] := by
  unfold laneParts
  rw [filter_lane_flatMap (laneList_nodup ex) fun j p hp => by obtain ⟨q, -, rfl⟩ := List.mem_map.1 hp; rfl]
  simp [mem_laneList, hl]

/-- The part of a lane is its access. -/
theorem filter_lane_singleParts (ex : W32) (sp : Space) (n : Nat) (st : PartSt) (addr : Nat → W64) {l : Nat} (hl : l < 32) :
    (singleParts ex sp n st addr).filter (fun p => p.lane == l) =
      if ex.getLsbD l then [newPart l sp (addr l) 0 n st] else [] := by
  unfold singleParts
  rw [List.map_eq_flatMap, filter_lane_flatMap (laneList_nodup ex) fun j p hp => by rw [List.mem_singleton.1 hp]; rfl]
  simp [mem_laneList, hl]

theorem capValue_append (a b : List Cap) (kind i l : Nat) :
    capValue (a ++ b) kind i l = (capValue a kind i l).or (capValue b kind i l) := by
  unfold capValue
  rw [List.find?_append]
  cases a.find? _ <;> rfl

/-- The captures of an operand hold its value in each executing lane, and nothing of the other operands. -/
theorem capValue_capLanes (ex : W32) (j : Nat) (f : Nat → W64) (i : Nat) {l : Nat} (hl : l < 32) :
    capValue (capLanes ex j f) 0 i l = if j = i ∧ ex.getLsbD l = true then some (f l) else none := by
  have key : ∀ ls : List Nat, capValue (ls.map fun k => ⟨0, j, k, f k⟩) 0 i l = if j = i ∧ l ∈ ls then some (f l) else none := by
    intro ls
    induction ls with
    | nil => simp [capValue]
    | cons k t ih =>
      unfold capValue at ih ⊢
      rw [List.map_cons, List.find?_cons]
      by_cases h : j = i ∧ k = l
      · obtain ⟨rfl, rfl⟩ := h
        simp
      · have : ((0 : Nat) == 0 && j == i && k == l) = false := by simpa using h
        rw [this, ih]
        grind
  rw [capLanes, key]
  simp [mem_laneList, hl]

/-! ## Words accepted as flag-bound commands (01 R16 to R18, R21) -/

/-- What a record made for a word says of that word. -/
theorem newOp_ofWord {s : State} {e : Env} (he : s.envOf s.focus = some e) (i : Instr) (ex : W32) (caps : List Cap)
    (parts : List Part) (f : Option (BitVec 4)) (n : Nat) :
    ({ newOp s e i ex caps parts with flag := f, pushAt := n } : Op).ofWord s e i ex := by
  obtain ⟨-, hg, -⟩ := State.envOf_some he
  exact ⟨rfl, hg, rfl, rfl, rfl, rfl, rfl, rfl, rfl, rfl⟩

/-- A word whose meaning is to be accepted without a push. -/
theorem issuesFlag_of_acceptFlag {s : State} {e : Env} (he : s.envOf s.focus = some e) {i : Instr} {ex : W32}
    {caps : List Cap} {parts : List Part} {P : Op → Prop} (hi : exec i s = acceptFlag s e (newOp s e i ex caps parts) false)
    (hP : ∀ o : Op, o.ex = ex → o.caps = caps → o.parts = parts → P o) : IssuesFlag s e i ex P := by
  obtain ⟨t, h1, h2⟩ := acceptFlag_accepted he (newOp s e i ex caps parts)
  exact ⟨t, _, hi.trans h1, h2, newOp_ofWord he .., rfl, hP _ rfl rfl rfl⟩

/-- A word whose meaning is to be accepted with a push. -/
theorem issuesPush_of_acceptFlag {s : State} {e : Env} (he : s.envOf s.focus = some e) {i : Instr} {ex : W32}
    {caps : List Cap} {parts : List Part} {P : Op → Prop} (hi : exec i s = acceptFlag s e (newOp s e i ex caps parts) true)
    (hP : ∀ o : Op, o.ex = ex → o.caps = caps → o.parts = parts → P o) : IssuesPush s e i ex P := by
  obtain ⟨t, h1, h2⟩ := acceptFlag_push_accepted he (newOp s e i ex caps parts)
  exact ⟨t, _, _, hi.trans h1, h2, Group.push_wrote _, newOp_ofWord he .., rfl, rfl, hP _ rfl rfl rfl⟩

/-! ## Loads of one access per lane -/

/-- Single parts are one access in each executing lane. -/
theorem laneEach_of_singleParts {o : Op} {sp : Space} {n : Nat} {addr : Nat → W64}
    (hp : o.parts = singleParts o.ex sp n .waiting addr) : LaneEach o sp addr n := fun l hl => by
  rw [hp, filter_lane_singleParts _ _ _ _ _ hl]

/-- Operand A captured first is what every executing lane's capture 0 reads. -/
theorem cap_zero_of_capLanes {o : Op} {f : Nat → W64} {cs : List Cap} (hc : o.caps = capLanes o.ex 0 f ++ cs) {l : Nat}
    (hl : l < 32) (hx : o.ex.getLsbD l = true) : o.cap 0 l = f l := by
  unfold Op.cap
  rw [hc, capValue_append, capValue_capLanes _ _ _ _ hl, if_pos ⟨rfl, hx⟩]
  rfl

theorem oneEach_of_parts {o : Op} {sp : Space} {n : Nat} {addr : Nat → W64} {cs : List Cap}
    (hc : o.caps = capLanes o.ex 0 addr ++ cs) (hp : o.parts = singleParts o.ex sp n .waiting addr) : OneEach o sp addr n :=
  ⟨laneEach_of_singleParts hp, fun _ hl hx => cap_zero_of_capLanes hc hl hx⟩

/-- The accepted record of a load of one access per lane. -/
theorem issueLoad_eq {s : State} {e : Env} (he : s.envOf s.focus = some e) (i : Instr) (k : BitVec 3) (a : Src) (sp : Space)
    (n : Nat) (extra : Env → W32 → List Cap) (push : Bool) :
    issueLoad s i k a sp n extra push = acceptFlag s e (newOp s e i (e.lanes k)
      (capLanes (e.lanes k) 0 (e.src64 a) ++ extra e (e.lanes k)) (singleParts (e.lanes k) sp n .waiting (e.src64 a))) push :=
  withEnv_some he _

section
variable {s : State} {e : Env} (he : s.envOf s.focus = some e) {i : Instr} {k : BitVec 3} {a : Src} {sp : Space} {n : Nat}
  {extra : Env → W32 → List Cap} {P : Op → Prop}
  (hP : ∀ o : Op, OneEach o sp (e.src64 a) n → o.ex = e.lanes k → o.caps = capLanes o.ex 0 (e.src64 a) ++ extra e o.ex → P o)
include he hP

/-- A load of one access per lane that pushes at issue. -/
theorem issueLoad_issuesPush (hi : exec i s = issueLoad s i k a sp n extra true) : IssuesPush s e i (e.lanes k) P :=
  issuesPush_of_acceptFlag he (hi.trans (issueLoad_eq he ..)) fun o hx hc hp => by
    rw [← hx] at hc hp
    exact hP o (oneEach_of_parts hc hp) hx hc

/-- A load of one access per lane that does not push. -/
theorem issueLoad_issuesFlag (hi : exec i s = issueLoad s i k a sp n extra false) : IssuesFlag s e i (e.lanes k) P :=
  issuesFlag_of_acceptFlag he (hi.trans (issueLoad_eq he ..)) fun o hx hc hp => by
    rw [← hx] at hc hp
    exact hP o (oneEach_of_parts hc hp) hx hc
end

/-! ## LD and LDV -/

/-- LD of up to 8 bytes is one access in each executing lane (06 R184). -/
theorem ld_issuesPush {s : State} {e : Env} (he : s.envOf s.focus = some e) (k : BitVec 3) (d : Dst) (a : Src) (x : MemX)
    (sx : Bool) (h : x.size.bytes ≤ 8) :
    IssuesPush s e (.ld k d a x sx) (e.lanes k) fun o => OneEach o x.space (e.src64 a) x.size.bytes :=
  issuesPush_of_acceptFlag he (withEnv_some he _) fun o hx hc hp => by
    rw [if_pos h, ← hx] at hp
    rw [← hx, ← List.append_nil (capLanes ..)] at hc
    exact oneEach_of_parts hc hp

/-- LD of more than 8 bytes goes in the pieces of its blocks (06 R184, 07 R198). -/
theorem ld_wide_issuesPush {s : State} {e : Env} (he : s.envOf s.focus = some e) (k : BitVec 3) (d : Dst) (a : Src) (x : MemX)
    (sx : Bool) (h : 8 < x.size.bytes) :
    IssuesPush s e (.ld k d a x sx) (e.lanes k) fun o => ∀ l, l < 32 → (e.lanes k).getLsbD l = true →
      (o.parts.filter fun p => p.lane == l).map (fun p => (p.addr, p.off, p.len)) =
        let room := 64 - (e.src64 a l).toNat % 64
        if x.size.bytes ≤ room then [(e.src64 a l, 0, x.size.bytes)]
        else [(e.src64 a l, 0, room), (e.src64 a l, room, x.size.bytes - room)] :=
  issuesPush_of_acceptFlag he (withEnv_some he _) fun o hx hc hp l hl hlx => by
    rw [if_neg (by omega)] at hp
    rw [hp, filter_lane_laneParts _ _ _ _ _ hl, if_pos hlx]
    unfold pieces
    dsimp only
    split <;> rfl

/-- The one operand that LDV captures is the lowest executing lane's address, its base (06 R185). -/
theorem ldv_issuesPush {s : State} {e : Env} (he : s.envOf s.focus = some e) (k : BitVec 3) (d : Dst) (a : Src) (x : MemX) :
    IssuesPush s e (.ldv k d a x) (e.lanes k) fun o => ∀ l0, lowestLane (e.lanes k) = some l0 →
      o.base = e.src64 a l0 ∧ o.cap 0 l0 = e.src64 a l0 ∧
        LaneEach o x.space (fun l => e.src64 a l0 + BitVec.ofNat 64 (l * x.size.bytes)) x.size.bytes :=
  issuesPush_of_acceptFlag he (withEnv_some he _) fun o hx hc hp l0 hl0 => by
    have hne : e.lanes k ≠ 0 := by
      intro h
      rw [h, show lowestLane 0 = none by decide] at hl0
      cases hl0
    rw [if_neg hne, hl0] at hc
    rw [hl0, ← hx] at hp
    refine ⟨?_, ?_, laneEach_of_singleParts hp⟩
    · simp [Op.base, hc]
    · simp [Op.cap, capValue, hc]

/-! ## The loads that are issued alike (05 R159, 06 R187, R188, R193, R194) -/

section
variable (k : BitVec 3) (d : Dst) (w : BitVec 5) (a b : Src) (x : MemX) (s : State)

theorem exec_ldtol : exec (.ldtol k d a b x) s =
    issueLoad s (.ldtol k d a b x) k a x.space x.size.bytes (fun e ex => capLanes ex 1 (e.src64 b)) true := rfl

theorem exec_ldtolDet : exec (.ldtolDet k d a x) s =
    issueLoad s (.ldtolDet k d a x) k a x.space x.size.bytes (fun _ _ => []) true := rfl

theorem exec_ldbt : exec (.ldbt k d a x) s = issueLoad s (.ldbt k d a x) k a x.space 2 (fun _ _ => []) true := rfl

theorem exec_mapq : exec (.mapq k d a) s = issueLoad s (.mapq k d a) k a .g 8 (fun _ _ => []) true := rfl

theorem exec_vld : exec (.vld k w a x) s =
    issueLoad s (.vld k w a x) k a x.space 4 (fun e ex => capLanes ex 3 fun l => (e.precOf l).setWidth 64) false := rfl

theorem exec_ldtolV : exec (.ldtolV k w a b x) s = issueLoad s (.ldtolV k w a b x) k a x.space 4
    (fun e ex => capLanes ex 1 (e.src64 b) ++ capLanes ex 3 fun l => (e.precOf l).setWidth 64) false := rfl

theorem exec_ldtolDetV : exec (.ldtolDetV k w a x) s =
    issueLoad s (.ldtolDetV k w a x) k a x.space 4 (fun e ex => capLanes ex 3 fun l => (e.precOf l).setWidth 64) false := rfl

end

/-- Settles O17: each load is one acceptance, whose parts are the accesses of its lanes and whose captures are its operands. -/
theorem loadsIssue : Obligations.LoadsIssue := by
  intro s e he k d a b w x
  refine ⟨fun sx h => ld_issuesPush he k d a x sx h, fun sx h => ld_wide_issuesPush he k d a x sx h, ldv_issuesPush he k d a x,
    issueLoad_issuesPush he (fun o h1 h2 h3 => ⟨h1, ?_⟩) (exec_ldtol ..),
    issueLoad_issuesPush he (fun o h1 _ _ => h1) (exec_ldtolDet ..),
    issueLoad_issuesPush he (fun o h1 _ _ => h1) (exec_ldbt ..),
    issueLoad_issuesPush he (fun o h1 _ _ => h1) (exec_mapq ..),
    issueLoad_issuesFlag he (fun o h1 h2 h3 => ⟨h1, ?_⟩) (exec_vld ..),
    issueLoad_issuesFlag he (fun o h1 h2 h3 => ⟨h1, ?_⟩) (exec_ldtolV ..),
    issueLoad_issuesFlag he (fun o h1 _ _ => h1) (exec_ldtolDetV ..)⟩
  all_goals
    intro l hl hx
    rw [← h2] at hx
    simp [Op.cap, h3, capValue_append, capValue_capLanes _ _ _ _ hl, hx]

end Sys2Proof.Machine

namespace Sys2Proof

/-! ## Runs of cells written together -/

theorem Store.writeList_append {w : Nat} (a b : List (BitVec w)) (m : Store w) (k : Nat) :
    Store.writeList m k (a ++ b) = Store.writeList (Store.writeList m k a) (k + a.length) b := by
  induction a generalizing m k with
  | nil => rfl
  | cons v vs ih =>
    rw [List.cons_append, Store.writeList, ih, List.length_cons, Nat.add_right_comm, Nat.add_assoc]
    rfl

/-- A run read back from the middle of a longer one that was written. -/
theorem Store.readList_writeList_middle {w : Nat} (a b c : List (BitVec w)) (m : Store w) (k : Nat) :
    Store.readList (Store.writeList m k (a ++ b ++ c)) (k + a.length) b.length = b := by
  have out : ∀ i, i < b.length → Store.read (Store.writeList m k (a ++ b ++ c)) (k + a.length + i) =
      Store.read (Store.writeList (Store.writeList m k a) (k + a.length) b) (k + a.length + i) := fun i hi => by
    rw [Store.writeList_append, Store.writeList_append, Store.read_writeList_out _ _ _ _ (by simp; omega)]
  rw [Store.readList_congr _ _ _ _ out, Store.readList_writeList]

namespace Machine

@[simp] theorem leBytes_length (n v : Nat) : (leBytes n v).length = n := by
  unfold leBytes
  induction n generalizing v with
  | zero => rfl
  | succ n ih => simp [bytesOfNat, ih]

theorem leNat_leBytes (n v : Nat) : leNat (leBytes n v) = v % 256 ^ n := by
  unfold leBytes
  induction n generalizing v with
  | zero => simp [bytesOfNat, leNat, Nat.mod_one]
  | succ n ih =>
    have h : leNat (bytesOfNat n (v / 256)) = v / 256 % 256 ^ n := ih _
    rw [bytesOfNat, pow_succ', Nat.mod_mul, ← h]
    rfl

/-- A number read back from among the bytes that were written. -/
theorem State.le_putBytes (s : State) (key n v : Nat) {a c l : List Byte} (h : l = a ++ leBytes n v ++ c) :
    (s.putBytes key l).le (key + a.length) n = v % 256 ^ n := by
  have := Store.readList_writeList_middle a (leBytes n v) c s.mem key
  rw [leBytes_length, ← h] at this
  rw [← leNat_leBytes, ← this]
  rfl

/-- What is read of memory depends on memory alone. -/
theorem State.le_congr {s t : State} (h : s.mem = t.mem) (key n : Nat) : s.le key n = t.le key n := by
  unfold State.le State.bytes
  rw [h]

@[simp] theorem State.msi_mem (s : State) (v : Nat) : (s.msi v).mem = s.mem := rfl

/-! ## The service log (15 R404) -/

@[simp] theorem State.recallNow_ctl (s : State) (blk : Nat) : (s.recallNow blk).ctl = s.ctl := by
  unfold State.recallNow
  split
  · rfl
  · split <;> rfl

@[simp] theorem State.purge_ctl (s : State) (blk : Nat) : (s.purge blk).ctl = s.ctl := s.recallNow_ctl blk

theorem State.recallNow_eq (s : State) (blk : Nat) :
    s.recallNow blk = { s with mem := (s.recallNow blk).mem, l1 := (s.recallNow blk).l1 } := by
  unfold State.recallNow
  split
  · rfl
  · split <;> rfl

theorem State.purge_eq (s : State) (blk : Nat) :
    s.purge blk = { s with mem := (s.purge blk).mem, l1 := (s.purge blk).l1, dir := (s.purge blk).dir } := by
  unfold State.purge
  dsimp only
  rw [State.recallNow_eq]

/-- A log entry changes the control die's registers, memory, and the lines that hold its block. -/
theorem State.svcLog_eq (s : State) (kind detail : Nat) (addr arg : W64) :
    s.svcLog kind detail addr arg = { s with
      ctl := (s.svcLog kind detail addr arg).ctl, mem := (s.svcLog kind detail addr arg).mem
      l1 := (s.svcLog kind detail addr arg).l1, dir := (s.svcLog kind detail addr arg).dir } := by
  unfold State.svcLog State.msi State.putBytes
  dsimp only
  split
  · rfl
  · split
    · rfl
    · rw [State.purge_eq]
      rfl

/-- Of the control die's registers an entry changes the log's tail, its count of dropped entries and the vectors raised. -/
theorem State.svcLog_ctl (s : State) (kind detail : Nat) (addr arg : W64) : ∃ d n v,
    (s.svcLog kind detail addr arg).ctl = { s.ctl with logdrop := d, svctail := n, msix := s.ctl.msix ++ v } := by
  unfold State.svcLog State.msi State.putBytes
  dsimp only
  split
  · exact ⟨_, _, [], by rw [List.append_nil]⟩
  · split
    · exact ⟨_, _, [], by rw [List.append_nil]; rfl⟩
    · exact ⟨s.ctl.logdrop, s.ctl.svctail + 1, [64], by simp⟩

/-- The bytes of a log entry (15 Table 15.3). -/
def State.logBytes (s : State) (kind detail : Nat) (addr arg : W64) : List Byte :=
  leBytes 1 kind ++ leBytes 1 detail ++ leBytes 6 0 ++ leBytes 8 s.ctl.ptc ++ leBytes 8 addr.toNat ++ leBytes 8 arg.toNat

/-- With room in the log, the entry is written at the tail's place, and the tail moves on. -/
theorem State.svcLog_room {s : State} (h : s.logRoom 1) (kind detail : Nat) (addr arg : W64) :
    s.svcLog kind detail addr arg = (((s.purge (blockOf (s.logAt 0))).putBytes (s.logAt 0)
      (s.logBytes kind detail addr arg)).setCtl { s.ctl with svctail := s.ctl.svctail + 1 }).msi 64 := by
  obtain ⟨h0, h1⟩ := h
  have h2 : (s.ctl.svctail - s.ctl.svchead).toNat ≠ 2 ^ s.logOrder := by simpa [State.logSize] using h1 0 Nat.one_pos
  unfold State.svcLog
  dsimp only
  rw [if_neg (by simpa using h0), if_neg (by simpa using h2)]
  simp [State.logAt, State.logRing, State.logSize, State.putBytes, State.logBytes]

theorem State.svcLog_mem {s : State} (h : s.logRoom 1) (kind detail : Nat) (addr arg : W64) :
    (s.svcLog kind detail addr arg).mem =
      ((s.purge (blockOf (s.logAt 0))).putBytes (s.logAt 0) (s.logBytes kind detail addr arg)).mem := by
  rw [State.svcLog_room h, State.msi_mem, State.setCtl_mem]

/-- The entry reads back as Table 15.3 gives it. -/
theorem State.svcLog_logged {s : State} (h : s.logRoom 1) (kind detail : Nat) (addr arg : W64) :
    (s.svcLog kind detail addr arg).logged (s.logAt 0) (kind % 256) (detail % 256) addr.toNat arg.toNat := by
  have read : ∀ i n v (a c : List Byte), a.length = i → s.logBytes kind detail addr arg = a ++ leBytes n v ++ c →
      (s.svcLog kind detail addr arg).le (s.logAt 0 + i) n = v % 256 ^ n := fun i n v a c hi h' => by
    rw [State.le_congr (State.svcLog_mem h kind detail addr arg), ← hi, State.le_putBytes _ _ _ _ h']
  have w64 : ∀ v : W64, v.toNat % 256 ^ 8 = v.toNat := fun v => Nat.mod_eq_of_lt v.isLt
  have r0 := read 0 1 kind [] (leBytes 1 detail ++ leBytes 6 0 ++ leBytes 8 s.ctl.ptc ++ leBytes 8 addr.toNat ++ leBytes 8 arg.toNat)
  have r1 := read 1 1 detail (leBytes 1 kind) (leBytes 6 0 ++ leBytes 8 s.ctl.ptc ++ leBytes 8 addr.toNat ++ leBytes 8 arg.toNat)
  have r16 := read 16 8 addr.toNat (leBytes 1 kind ++ leBytes 1 detail ++ leBytes 6 0 ++ leBytes 8 s.ctl.ptc) (leBytes 8 arg.toNat)
  have r24 := read 24 8 arg.toNat
    (leBytes 1 kind ++ leBytes 1 detail ++ leBytes 6 0 ++ leBytes 8 s.ctl.ptc ++ leBytes 8 addr.toNat) []
  simp only [State.logBytes, List.length_append, leBytes_length, List.append_assoc, List.nil_append, List.append_nil,
    List.length_nil, forall_const, w64, Nat.add_zero, pow_one, Nat.reduceAdd] at r0 r1 r16 r24
  exact ⟨r0, r1, r16, r24⟩

/-! ## Time (15 R420, R421) -/

theorem nat_min_eq (a b : Nat) : Nat.min a b = min a b := rfl

theorem nat_max_eq (a b : Nat) : Nat.max a b = max a b := rfl

/-- PTC goes on, by what passes and at most as much again. -/
theorem Ctl.pass_ptc (c : Ctl) (n : Nat) : c.ptc ≤ (c.pass n).ptc ∧ (c.pass n).ptc ≤ c.ptc + 2 * n := by
  unfold Ctl.pass
  simp only [nat_min_eq]
  split <;> dsimp only <;> omega

/-- A die's copy that is within PTSKEW of PTC stays there. -/
theorem Ctl.pass_lags (c : Ctl) (n : Nat) :
    (c.ptcLag0 ≤ c.ptskew.toNat → (c.pass n).ptcLag0 ≤ c.ptskew.toNat) ∧
      (c.ptcLag1 ≤ c.ptskew.toNat → (c.pass n).ptcLag1 ≤ c.ptskew.toNat) := by
  unfold Ctl.pass
  simp only [nat_min_eq, nat_max_eq]
  split
  · exact ⟨id, id⟩
  · dsimp only
    omega

/-- One bit of a register, written. -/
theorem getLsbD_setFld_bit (v : W64) {i : Nat} (hi : i < 64) (b : Bool) :
    (setFld v i i (if b then 1 else 0)).getLsbD i = b := by
  have key : (BitVec.ofNat 64 (1 <<< i)).getLsbD i = true := by simp [BitVec.getLsbD_ofNat, hi, Nat.testBit_shiftLeft]
  unfold setFld
  cases b <;> simp [hi, key, -BitVec.getLsbD_eq_getElem]

/-- A change of TIMECTL.lost leaves the state but for the log's own changes. -/
theorem State.setLost_groups (s : State) (b : Bool) (w : W64) : (s.setLost b w).groups = s.groups := by
  unfold State.setLost State.msi
  dsimp only [State.setCtl_groups]
  rw [State.svcLog_eq]
  rfl

theorem State.setLost_ports (s : State) (b : Bool) (w : W64) : (s.setLost b w).ports = s.ports := by
  unfold State.setLost State.msi
  dsimp only [State.setCtl_ports]
  rw [State.svcLog_eq]
  rfl

/-- What a change of TIMECTL.lost leaves of the registers, the bit changed and the bound taken. -/
theorem State.setLost_ctl (s : State) (b : Bool) (w : W64) : ∃ d n v, (s.setLost b w).ctl =
    { s.ctl with timectl := setFld s.ctl.timectl 31 31 (if b then 1 else 0), ptskew := w, logdrop := d, svctail := n
                 msix := s.ctl.msix ++ v ++ [66] } := by
  unfold State.setLost State.msi
  dsimp only [State.setCtl_ctl]
  obtain ⟨d, n, v, h⟩ := State.svcLog_ctl
    (s.setCtl { s.ctl with timectl := setFld s.ctl.timectl 31 31 (if b then 1 else 0), ptskew := w }) 8
    (if b then 1 else 2) 0 s.ctl.ptskew
  rw [h]
  exact ⟨d, n, v, rfl⟩

@[simp] theorem State.port_setCtl (s : State) (c : Ctl) (p : Nat) : (s.setCtl c).port p = s.port p := rfl

theorem State.port_setPort (s : State) {p : Nat} (x : Port) (h : p < s.ports.length) : (s.setPort p x).port p = x := by
  simp [State.port, State.setPort, h]

theorem State.port_congr {s t : State} (h : s.ports = t.ports) (p : Nat) : s.port p = t.port p := by
  unfold State.port
  rw [h]

theorem State.logged_congr {s t : State} (h : s.mem = t.mem) {at_ kind detail addr arg : Nat} :
    s.logged at_ kind detail addr arg ↔ t.logged at_ kind detail addr arg := by
  unfold State.logged
  simp only [State.le_congr h]

/-- A change of TIMECTL.lost is logged where the log has room (15 R421). -/
theorem State.setLost_logged {s : State} (h : s.logRoom 1) (b : Bool) (w : W64) :
    (s.setLost b w).ctl.svctail = s.ctl.svctail + 1 ∧
      (s.setLost b w).logged (s.logAt 0) 8 (if b then 1 else 2) 0 s.ctl.ptskew.toNat := by
  obtain ⟨t, ht⟩ : ∃ t, t = s.setCtl { s.ctl with timectl := setFld s.ctl.timectl 31 31 (if b then 1 else 0), ptskew := w } :=
    ⟨_, rfl⟩
  have hr : t.logRoom 1 := by rw [ht]; exact h
  have hat : t.logAt 0 = s.logAt 0 := by rw [ht]; rfl
  have htail : t.ctl.svctail = s.ctl.svctail := by rw [ht]; rfl
  have hs : s.setLost b w = (t.svcLog 8 (if b then 1 else 2) 0 s.ctl.ptskew).msi 66 := by rw [ht]; rfl
  rw [hs, State.logged_congr (State.msi_mem ..), ← hat]
  refine ⟨?_, ?_⟩
  · rw [State.svcLog_room hr, ← htail]
    rfl
  · have hl := State.svcLog_logged hr 8 (if b then 1 else 2) 0 s.ctl.ptskew
    rwa [show (if b then 1 else 2) % 256 = if b then 1 else 2 by cases b <;> rfl] at hl

/-- What every time exchange leaves: its moment at the port, and what is heard of the sources (15 R421). -/
def State.heard (s : State) (p : Nat) (news : TimeNews) : State :=
  (s.setPort p { s.port p with exchAt := some s.ctl.ptc }).setCtl { s.ctl with sources := news.sources }

/-- What an exchange with a path to the one source takes from the peer besides. -/
def State.synced (s : State) (lag : Int) (bound : W64) : State :=
  let t := s.setCtl { s.ctl with slew := lag, slewAt := s.ctl.ptc, lastExchange := s.ctl.ptc }
  if s.ctl.lost then t.setLost false bound else t.setCtl { t.ctl with ptskew := bound }

theorem State.heard_port (s : State) {p : Nat} (news : TimeNews) (h : p < s.ports.length) :
    ((s.heard p news).port p).exchAt = some s.ctl.ptc := by
  rw [State.heard, State.port_setCtl, State.port_setPort _ _ h]

theorem State.heard_oneSource (s : State) (p : Nat) (news : TimeNews) :
    (s.heard p news).ctl.oneSource = true ↔ (if s.ctl.gm then 1 else 0) + news.sources = 1 := beq_iff_eq

theorem State.synced_groups (s : State) (lag : Int) (bound : W64) : (s.synced lag bound).groups = s.groups := by
  unfold State.synced
  dsimp only
  split
  · exact State.setLost_groups ..
  · rfl

theorem State.synced_port (s : State) (lag : Int) (bound : W64) (p : Nat) : (s.synced lag bound).port p = s.port p := by
  unfold State.synced
  dsimp only
  split
  · exact State.port_congr (State.setLost_ports ..) p
  · rfl

/-- The registers after such an exchange, TIMECTL.lost being 0. -/
theorem State.synced_ctl (s : State) (lag : Int) (bound : W64) :
    (s.synced lag bound).ctl.lost = false ∧ ∃ x d n v, (s.synced lag bound).ctl = { s.ctl with
      slew := lag, slewAt := s.ctl.ptc, lastExchange := s.ctl.ptc, ptskew := bound, timectl := x, logdrop := d
      svctail := n, msix := v } := by
  unfold State.synced
  dsimp only
  split
  · obtain ⟨d, n, v, h⟩ := State.setLost_ctl
      (s.setCtl { s.ctl with slew := lag, slewAt := s.ctl.ptc, lastExchange := s.ctl.ptc }) false bound
    rw [h]
    exact ⟨getLsbD_setFld_bit s.ctl.timectl (by decide) false, _, _, _, _, rfl⟩
  · next h => exact ⟨Bool.not_eq_true _ ▸ h, _, _, _, _, rfl⟩

section
variable {s : State} {p : Nat} (t1 t2 t3 t4 : W64) {news : TimeNews} (hp : p < 16) (hst : (s.port p).state = 2)
  (hdue : ∀ t, (s.port p).exchAt = some t → t + 1000000 ≤ s.ctl.ptc)
  (hok : news.reaches = false ∨
    (s.ctl.ptcLag0 ≤ news.bound.toNat ∧ s.ctl.ptcLag1 ≤ news.bound.toNat ∧ news.bound.toNat ≤ 60))
include hp hst hdue hok

/-- An exchange that is due, by whether it has a path to the one source. -/
theorem exec_timeExchange : exec (.timeExchange p t1 t2 t3 t4 news) s =
    if !(news.reaches && (s.heard p news).ctl.oneSource) then .next (s.heard p news)
    else .next ((s.heard p news).synced (if s.ctl.gm then 0 else lagOf t1 t2 t3 t4) news.bound) := by
  refine if_pos ?_
  cases hx : (s.port p).exchAt with
  | none => simpa [hp, hst, and_assoc] using hok
  | some t => simpa [hp, hst, hdue t hx, and_assoc] using hok

/-- What the exchange leaves, in either case (15 R421). -/
theorem timeExchange_spec (hl : s.ports.length = 16) :
    ∃ t, exec (.timeExchange p t1 t2 t3 t4 news) s = .next t ∧ t.ctl.ptc = s.ctl.ptc ∧ t.ctl.sources = news.sources ∧
      (t.port p).exchAt = some s.ctl.ptc ∧ t.groups = s.groups ∧
      (news.reaches = false ∨ (if s.ctl.gm then 1 else 0) + news.sources ≠ 1 →
        t.ctl = { s.ctl with sources := news.sources }) ∧
      (news.reaches = true → (if s.ctl.gm then 1 else 0) + news.sources = 1 → t.ctl.ptskew = news.bound ∧
        t.ctl.lost = false ∧ t.ctl.lastExchange = s.ctl.ptc ∧
        t.ctl.slew = if s.ctl.gm then 0 else lagOf t1 t2 t3 t4) := by
  have hport := s.heard_port news (p := p) (by omega)
  have hone := s.heard_oneSource p news
  rw [exec_timeExchange t1 t2 t3 t4 hp hst hdue hok]
  by_cases hr : (news.reaches && (s.heard p news).ctl.oneSource) = true
  · rw [if_neg (by rw [hr]; decide)]
    rw [Bool.and_eq_true, hone] at hr
    obtain ⟨hreach, h1⟩ := hr
    obtain ⟨hlost, x, d, n, v, hctl⟩ :=
      (s.heard p news).synced_ctl (if s.ctl.gm then 0 else lagOf t1 t2 t3 t4) news.bound
    refine ⟨_, rfl, by rw [hctl]; rfl, by rw [hctl]; rfl, by rw [State.synced_port, hport], State.synced_groups .., ?_,
      fun _ _ => ⟨by rw [hctl], hlost, by rw [hctl]; rfl, by rw [hctl]⟩⟩
    rintro (h | h)
    · rw [hreach] at h
      cases h
    · exact absurd h1 h
  · rw [if_pos (by rw [Bool.not_eq_true] at hr; rw [hr]; rfl)]
    rw [Bool.and_eq_true, hone] at hr
    exact ⟨_, rfl, rfl, rfl, hport, rfl, fun _ => rfl, fun ha hb => absurd ⟨ha, hb⟩ hr⟩
end

/-- TIME_SYNC_LOST sets TIMECTL.lost, with no bound, raises its vector and logs (15 R413, R421). -/
theorem timeSyncLost_loses {s : State} (bad : Bool) (h0 : s.ctl.lost = false) (hd : fld s.ctl.devcfg 13 8 ≠ 0)
    (h : (if bad then !s.ctl.oneSource else !s.ctl.gm && s.ctl.lastExchange + 1000000000 ≤ s.ctl.ptc) = true) :
    ∃ t, exec (.timeSyncLost bad) s = .next t ∧ t.ctl.lost = true ∧ t.ctl.ptskew = BitVec.allOnes 64 ∧ 66 ∈ t.ctl.msix ∧
      (s.logRoom 1 → t.ctl.svctail = s.ctl.svctail + 1 ∧ t.logged (s.logAt 0) 8 1 0 s.ctl.ptskew.toNat) := by
  refine ⟨s.setLost true (BitVec.allOnes 64), need_next.2 ⟨by simp [h0, hd, h], rfl⟩, ?_⟩
  refine ⟨?_, ?_, ?_, fun hr => State.setLost_logged hr true _⟩
  all_goals
    obtain ⟨d, n, v, hc⟩ := State.setLost_ctl s true (BitVec.allOnes 64)
    rw [hc]
  · exact getLsbD_setFld_bit s.ctl.timectl (by decide) true
  · simp

/-! ## Monitors (15 R427) -/

/-- A monitor of another source does not see an event. -/
theorem State.capture_other {s : State} {source : Nat} (cls : Nat) (tag : Option W32) (v : Nat) {i : Nat} {m : Monitor}
    (hm : s.monitors[i]? = some m) (h : fld m.ctl 15 8 ≠ source) : (s.capture source cls tag v).monitors[i]? = some m := by
  simp [State.capture, hm, h]

/-- A monitor that counts its source's events of a class, of any group, takes an event's value. -/
theorem State.capture_takes {s : State} {source cls : Nat} (tag : Option W32) (v : Nat) {i : Nat} {m : Monitor}
    (hm : s.monitors[i]? = some m) (hs : fld m.ctl 15 8 = source) (he : m.ctl.getLsbD 31 = true) (hf : m.ctl.getLsbD 30 = false)
    (ht : m.ctl.getLsbD 28 = false) (hc : m.ctl.getLsbD (23 + cls) = true) :
    (s.capture source cls tag v).monitors[i]? = some (m.take v) := by
  simp [State.capture, hm, hs, he, hf, ht, hc, -BitVec.getLsbD_eq_getElem]

theorem execMonitorTick_eq {s : State} (h : s.ctl.tickAt + 1000 ≤ s.ctl.ptc) : ∃ a b, exec .monitorTick s =
    .next (((s.capture 7 4 none a).capture 8 4 none b).setCtl
      { s.ctl with tickAt := s.ctl.tickAt + 1000, withheldAt := s.ctl.withheld }) :=
  ⟨_, _, need_next.2 ⟨by simpa using h, rfl⟩⟩

theorem monitorTick_counts {s : State} (h : s.ctl.tickAt + 1000 ≤ s.ctl.ptc) :
    ∃ t, exec .monitorTick s = .next t ∧ t.ctl.tickAt = s.ctl.tickAt + 1000 ∧ t.mem = s.mem ∧
      t.groups = s.groups ∧ ∀ (i : Nat) (m : Monitor), s.monitors[i]? = some m →
        (fld m.ctl 15 8 ≠ 7 → fld m.ctl 15 8 ≠ 8 → t.monitors[i]? = some m) ∧
        (fld m.ctl 15 8 = 7 → m.ctl.getLsbD 31 = true → m.ctl.getLsbD 30 = false → m.ctl.getLsbD 28 = false →
          m.ctl.getLsbD 27 = true → (t.monitors[i]?).map (·.cnt) = some (m.cnt + 1)) := by
  obtain ⟨a, b, ht⟩ := execMonitorTick_eq h
  refine ⟨_, ht, rfl, rfl, rfl, fun i m hm => ⟨fun h7 h8 => ?_, fun h7 he hf htag hc => ?_⟩⟩
  · rw [State.setCtl_monitors]
    exact State.capture_other _ _ _ (State.capture_other _ _ _ hm h7) h8
  · have h1 := State.capture_takes (cls := 4) none a hm h7 he hf htag hc
    rw [State.setCtl_monitors, State.capture_other 4 none b h1 (by rw [show (m.take a).ctl = m.ctl from rfl, h7]; decide)]
    rfl

/-- A write to PTCSET while the device is up (15 R420). -/
theorem ptcsetWrite_spec {s : State} (v : W64) (hup : s.ctl.up = true) :
    (s.ctl.enabledOnce = false → ∃ t, exec (.ptcsetWrite v) s = .next t ∧ t.ctl.ptc = v.toNat ∧ t.ctl.ptcLag0 = 0 ∧
      t.ctl.ptcLag1 = 0 ∧ t.ctl.ptcset = v) ∧
    (s.ctl.enabledOnce = true → exec (.ptcsetWrite v) s = .next s) := by
  have load : exec (.ptcsetWrite v) s = .next (s.ptcLoad v) := congrArg Host.Outcome.next (if_pos hup)
  rw [load]
  refine ⟨fun h => ⟨_, rfl, ?_⟩, fun h => congrArg Host.Outcome.next (if_pos h)⟩
  unfold State.ptcLoad
  dsimp only
  rw [if_neg (by rw [h]; decide)]
  exact ⟨rfl, rfl, rfl, rfl⟩

/-- A monitor cleared, and the others as they were. -/
theorem monitorClear_spec {s : State} {m : Nat} (hm : m < 16) (hl : s.monitors.length = 16) (hup : s.ctl.up = true) :
    ∃ t x, exec (.monitorClear m) s = .next t ∧ t.mem = s.mem ∧ t.monitors.getD m Monitor.reset = x ∧
      x.min = BitVec.allOnes 64 ∧ x.max = 0 ∧ x.cnt = 0 ∧ x.hist = List.replicate 16 0 ∧
      x.ctl = (s.monitors.getD m Monitor.reset).ctl ∧
      ∀ i, i ≠ m → t.monitors.getD i Monitor.reset = s.monitors.getD i Monitor.reset := by
  refine ⟨s.clearMonitor m, (s.monitors.getD m Monitor.reset).clear,
    need_next.2 ⟨decide_eq_true hm, congrArg Host.Outcome.next (if_pos hup)⟩, rfl, ?_, rfl, rfl, rfl, rfl, rfl, fun i hi => ?_⟩
  · simp [State.clearMonitor, hl, hm]
  · simp [State.clearMonitor, List.getD_eq_getElem?_getD, List.getElem?_set_ne (Ne.symm hi)]

/-! ## Power-on (15 R428) -/

/-- The registers of the control die that bring-up leaves say how the boot went. -/
theorem State.bringUp_boot (s : State) (code : BitVec 8) (ms : List (BitVec 256)) :
    (s.bringUp code ms).ctl.boot = code ∧ (s.bringUp code ms).ctl.up = decide (code = 0) := by
  unfold State.bringUp
  dsimp only
  split
  · next h => exact ⟨h.symm, (decide_eq_true h).symm⟩
  · next h => exact ⟨rfl, (decide_eq_false h).symm⟩

theorem exec_powerOn {s : State} {b : Boot} (hb : b.images.length = 4) :
    exec (.powerOn b) s = .next (s.bringUp (bootCode b) (bootMeasures b)) :=
  need_next.2 ⟨beq_iff_eq.2 hb, rfl⟩

/-- Settles O55: each step of the control die by its own lemma above, or by evaluation where its guard holds. -/
theorem timeAndMonitors : Obligations.TimeAndMonitors := by
  intro s
  refine ⟨fun n => ⟨(s.ctl.pass_ptc n).1, (s.ctl.pass_ptc n).2, s.ctl.pass_lags n⟩, fun n hn => ⟨fun h => ?_, fun h => ?_⟩,
    fun p t1 t2 t3 t4 news hp hl hst hdue hok => timeExchange_spec t1 t2 t3 t4 hp hst hdue hok hl,
    fun h0 hd => ⟨fun hg hx => ?_, fun hx => ?_⟩, fun v hup => ptcsetWrite_spec v hup, fun n w => ⟨_, rfl, rfl⟩,
    fun m hm hl hup => monitorClear_spec hm hl hup, monitorTick_counts, fun b hb => ?_⟩
  · exact need_next.2 ⟨by simp [hn, h], rfl⟩
  · exact need_next.2 ⟨by simp [hn, h], rfl⟩
  · exact timeSyncLost_loses false h0 hd (by simp [hg, hx])
  · exact timeSyncLost_loses true h0 hd (by simpa [Ctl.oneSource] using hx)
  · obtain ⟨hboot, hup⟩ := s.bringUp_boot (bootCode b) (bootMeasures b)
    exact ⟨_, exec_powerOn hb, rfl, rfl, rfl, hboot, hup, rfl, rfl, rfl, rfl, rfl⟩

end Machine
end Sys2Proof

namespace Sys2Proof.Machine

/-! ## Commands and their completion (01 R18) -/

/-- A record found under the name of the one just set is that one. -/
theorem State.op?_setOp_eq {s : State} {o q : Op} (h : (s.setOp o).op? o.id = some q) : q = o := by
  have hid : q.id = o.id := State.op?_id h
  obtain ⟨p, -, hp⟩ := List.mem_map.1 (List.mem_of_find?_eq_some h)
  by_cases hk : (p.id == o.id) = true
  · rwa [if_pos hk, eq_comm] at hp
  · rw [if_neg hk] at hp
    rw [hp] at hk
    exact absurd (beq_iff_eq.2 hid) hk

/-- A record dropped is found no more. -/
theorem State.op?_dropOp_same (s : State) (id : Nat) : (s.dropOp id).op? id = none :=
  List.find?_eq_none.2 fun o ho => by simpa [State.dropOp] using (List.mem_filter.1 ho).2

theorem getLsbD_flagMask {f : BitVec 4} (hf : f.toNat < 12) : (flagMask f).getLsbD f.toNat = true := by
  simp [flagMask, hf]

theorem Group.getLsbD_clearFlags (g : Group) {f : BitVec 4} (hf : f.toNat < 12) :
    (g.clearFlags (flagMask f)).flags.getLsbD f.toNat = false := by
  rw [Group.clearFlags_flags, BitVec.getLsbD_and, BitVec.getLsbD_not, getLsbD_flagMask hf]
  simp

/-- The release of a flag changes its group alone, and of that the flags and the state; a flag that no other command is
bound to clears outside a clause (01 R18). -/
theorem State.releaseFlag_spec {s : State} {gid : Nat} {g : Group} (hg : s.group? gid = some g) (fl : Option (BitVec 4)) :
    s.releaseFlag gid fl = { s with groups := (s.releaseFlag gid fl).groups } ∧
    ∃ u, (s.releaseFlag gid fl).group? gid = some u ∧ { u with flags := g.flags, st := g.st, since := g.since } = g ∧
      ∀ f, fl = some f → f.toNat < 12 → g.run = none → s.flagBusy gid f = false → u.flags.getLsbD f.toNat = false := by
  cases fl with
  | none => exact ⟨rfl, g, hg, rfl, fun f h => by cases h⟩
  | some f =>
    obtain ⟨toCome, hnone, e⟩ : ∃ toCome : Bool, (g.run = none → toCome = false) ∧ s.releaseFlag gid (some f) =
        if s.flagBusy gid f || toCome then s else (s.setGroup (g.clearFlags (flagMask f))).settleExit gid := by
      unfold State.releaseFlag
      rw [hg]
      exact ⟨_, fun h => by rw [h], rfl⟩
    rw [e]
    by_cases hb : (s.flagBusy gid f || toCome) = true
    · rw [if_pos hb]
      refine ⟨rfl, g, hg, rfl, fun f' hf' _ hrun hbusy => ?_⟩
      cases hf'
      rw [hnone hrun, hbusy] at hb
      exact absurd hb (by decide)
    · rw [if_neg hb]
      have hid : (g.clearFlags (flagMask f)).gid = gid := (g.clearFlags_gid _).trans (State.group?_gid hg)
      have hset : (s.setGroup (g.clearFlags (flagMask f))).group? gid = some (g.clearFlags (flagMask f)) := by
        have := State.group?_setGroup_same (s := s) (g := g.clearFlags (flagMask f)) (by rw [hid, hg]; rfl)
        rwa [hid] at this
      obtain ⟨u, hu, hk⟩ := State.group?_settleExit_same _ _ _ hset
      have hfl : u.flags = (g.clearFlags (flagMask f)).flags := by
        have := congrArg Group.flags hk
        exact this
      refine ⟨?_, u, hu, ?_, fun f' hf' hlt _ _ => ?_⟩
      · rw [State.settleExit_only]
        rfl
      · have := congrArg (fun x : Group => { x with flags := g.flags }) hk
        exact this
      · cases hf'
        rw [hfl]
        exact g.getLsbD_clearFlags hlt

/-- A command that finishes leaves its group as changed, but for the flag that is released and the group's exit. -/
theorem State.finishWith_spec {s : State} {o : Op} {g : Group} (hg : s.group? o.gid = some g) {f : Group → Group}
    (hf : (f g).gid = g.gid) :
    (s.finishWith o f).op? o.id = none ∧
    s.finishWith o f = { s with groups := (s.finishWith o f).groups, ops := (s.dropOp o.id).ops } ∧
    ∃ u, (s.finishWith o f).group? o.gid = some u ∧ { u with flags := (f g).flags, st := (f g).st, since := (f g).since } = f g ∧
      ∀ fl, o.flag = some fl → fl.toNat < 12 → (f g).run = none →
        (∀ q ∈ s.ops, q.gid = o.gid → q.id ≠ o.id → q.flag ≠ some fl) → u.flags.getLsbD fl.toNat = false := by
  have hid : (f g).gid = o.gid := hf.trans (State.group?_gid hg)
  have hset : ((s.setGroup (f g)).dropOp o.id).group? o.gid = some (f g) := by
    have := State.group?_setGroup_same (s := s) (g := f g) (by rw [hid, hg]; rfl)
    rw [hid] at this
    exact this
  obtain ⟨honly, u, hu, hk, hclear⟩ := State.releaseFlag_spec hset o.flag
  have e : s.finishWith o f = ((s.setGroup (f g)).dropOp o.id).releaseFlag o.gid o.flag := by
    unfold State.finishWith
    rw [hg]
  rw [e]
  refine ⟨?_, ?_, u, hu, hk, fun fl h1 h2 h3 h4 => hclear fl h1 h2 h3 ?_⟩
  · rw [honly]
    exact State.op?_dropOp_same _ _
  · rw [honly]
    rfl
  · refine List.any_eq_false.2 fun q hq => ?_
    obtain ⟨hq, hqg⟩ := List.mem_filter.1 hq
    obtain ⟨hq, hqi⟩ := List.mem_filter.1 hq
    simpa using h4 q hq (by simpa using hqg) (by simpa using hqi)

/-- A command without a fault, of a group that is not parked, completes by its own rule; one that no monitor source counts
leaves nothing more. -/
theorem exec_operationComplete {s t : State} {op : Nat} {o : Op} {g : Group} (ho : s.op? op = some o)
    (hg : s.group? o.gid = some g) (hst : g.st = .ready) (hf : o.fault = none) (hstage : o.stage ≠ 99)
    (hcopy : o.isCopy = false) (hsrc : o.source = none) (h : completeOp s o = .next t) :
    exec (.operationComplete op) s = .next t := by
  have takes : s.takesResults o.gid = true := by simp [State.takesResults, hg, hst]
  refine needSome_next.2 ⟨o, ho, need_next.2 ⟨by rw [hf, takes, hcopy]; rfl, ?_⟩⟩
  rw [if_neg (by simpa using hstage), h]
  refine congrArg Host.Outcome.next ?_
  unfold State.captureDone
  rw [hsrc]

/-! ## Matrix commands complete (11 R316) -/

section
variable {s : State} {op : Nat} {o : Op} {g : Group} (ho : s.op? op = some o) (hg : s.group? o.gid = some g)
  (hst : g.st = .ready) (hf : o.fault = none)
include ho hg hst hf

/-- A matrix command that has performed leaves the engine. -/
theorem matrix_leaves (h : (((∃ x, o.instr = .mma x ∨ o.instr = .mmat x ∨ o.instr = .mmafx x) ∧ o.stage = 2) ∨
      ((∃ x, o.instr = .tld x ∨ o.instr = .tst x) ∨ (∃ x, o.instr = .accld x ∨ o.instr = .accst x)) ∧ o.stage = 1 ∧
        o.allDone = true)) :
    exec (.operationComplete op) s = .next (s.finish o) := by
  have plain : o.isCopy = false ∧ o.source = none := by
    rcases h with ⟨⟨x, h | h | h⟩, -⟩ | ⟨⟨x, h | h⟩ | ⟨x, h | h⟩, -⟩ <;>
      simp [Op.isCopy, Op.copyX, Op.source, Op.isAtomic, h]
  refine exec_operationComplete ho hg hst hf (by omega) plain.1 plain.2 ?_
  unfold completeOp matrixComplete
  rcases h with ⟨⟨x, h⟩, hs⟩ | ⟨h, hs, hd⟩
  · rcases h with h | h | h <;> rw [h] <;> exact need_next.2 ⟨by rw [hs]; rfl, rfl⟩
  · rcases h with ⟨x, h | h⟩ | ⟨x, h | h⟩ <;> rw [h] <;> exact need_next.2 ⟨by rw [hs, hd]; rfl, rfl⟩

/-- SCLR, PREPLD and POPLD put their value in the entry that they pushed, and in their destination. -/
theorem matrix_delivers (h : (∃ k d r, o.instr = .sclr k d r) ∨ ∃ x, o.instr = .popld x ∨ o.instr = .prepld x)
    (hs : o.stage = 2) : ∃ d wide, exec (.operationComplete op) s =
      .next (s.finishWith o fun g => g.late o d wide fun _ => BitVec.ofNat 64 (leNat (Store.readList o.buf 0 8))) := by
  obtain ⟨d, wide, hd⟩ : ∃ d wide, completeOp s o =
      .next (s.finishWith o fun g => g.late o d wide fun _ => BitVec.ofNat 64 (leNat (Store.readList o.buf 0 8))) := by
    unfold completeOp matrixComplete
    rcases h with ⟨k, d, r, h⟩ | ⟨x, h | h⟩
    · exact ⟨d, true, by rw [h]; exact need_next.2 ⟨by rw [hs]; rfl, rfl⟩⟩
    · exact ⟨x.d, false, by rw [h]; exact need_next.2 ⟨by rw [hs]; rfl, rfl⟩⟩
    · exact ⟨x.d, false, by rw [h]; exact need_next.2 ⟨by rw [hs]; rfl, rfl⟩⟩
  have plain : o.isCopy = false ∧ o.source = none := by
    rcases h with ⟨k, d, r, h⟩ | ⟨x, h | h⟩ <;> simp [Op.isCopy, Op.copyX, Op.source, Op.isAtomic, h]
  exact ⟨d, wide, exec_operationComplete ho hg hst hf (by omega) plain.1 plain.2 hd⟩
end

/-- A write of a named destination leaves the queue and the group's name. -/
theorem Group.writeDst_queue (g : Group) (ex : W32) (d : Dst) (wide : Bool) (v : Nat → W64) :
    (g.writeDst ex d wide v).queue = g.queue ∧ (g.writeDst ex d wide v).gid = g.gid := by
  unfold Group.writeDst
  cases d with
  | queue => exact ⟨rfl, rfl⟩
  | w n => cases wide <;> exact ⟨rfl, rfl⟩
  | s n => cases lowestLane ex <;> exact ⟨rfl, rfl⟩

theorem Group.late_gid (g : Group) (o : Op) (d : Dst) (wide : Bool) (v : Nat → W64) : (g.late o d wide v).gid = g.gid :=
  (Group.writeDst_queue ..).2

/-- A late result in its queue entry (02 R39). -/
theorem Group.age_late (g : Group) (o : Op) (d : Dst) (wide : Bool) (v : Nat → W64) (hq : g.pushes - o.pushAt < g.queue.length)
    {l : Nat} (hl : l < 32) : (g.late o d wide v).age (g.pushes - o.pushAt) l =
      if o.ex.getLsbD l then v l else g.age (g.pushes - o.pushAt) l := by
  unfold Group.late Group.age
  dsimp only
  rw [(Group.writeDst_queue ..).1]
  rw [List.getD_eq_getElem?_getD, List.getElem?_set_self hq, Option.getD_some, read_foldl_lanes _ _ _ _ hl]

/-! ## The post stage (10 R302) -/

/-- The stage has touched nothing but its own row. -/
structure Post.RowOnly (s : State) (t : Team) (x : Post) : Prop where
  state : x.s = s
  team : x.t = t
  noDepth : x.cz = none
  noColour : x.cc = none
  noFault : x.fault = none
  noHold : x.hold = false

section
variable {s : State} {t : Team} {x : Post}

theorem Post.RowOnly.setVal (h : x.RowOnly s t) (q j : Nat) (v : PV) : (x.setVal q j v).RowOnly s t := { h with }

theorem Post.RowOnly.setMsk (h : x.RowOnly s t) (q j : Nat) (b : Bool) : (x.setMsk q j b).RowOnly s t := { h with }

theorem Post.RowOnly.raise (h : x.RowOnly s t) (fl : W32) : (x.raise fl).RowOnly s t := { h with }

theorem Post.RowOnly.stopped (h : x.RowOnly s t) : x.stopped = false := by
  simp [Post.stopped, h.noFault, h.noHold]

/-- Folding steps that touch only the row touches only the row. -/
theorem Post.RowOnly.foldl {α : Type} {f : Post → α → Post} (l : List α) (h : x.RowOnly s t)
    (hf : ∀ a ∈ l, ∀ y : Post, y.RowOnly s t → (f y a).RowOnly s t) : (l.foldl f x).RowOnly s t :=
  l.foldlRecOn f h fun y hy a ha => hf a ha y hy

theorem Post.RowOnly.each (h : x.RowOnly s t) (w : W32) (f : Nat → Nat → Nat × W32 → Nat × W32) : (x.each w f).RowOnly s t :=
  h.foldl _ fun _ _ _ hy => hy.foldl _ fun _ _ _ hz => (hz.setVal ..).raise _

theorem Post.RowOnly.setMsk_if (h : x.RowOnly s t) (c : Bool) (q j : Nat) (b : Bool) :
    (if c then x.setMsk q j b else x).RowOnly s t := by
  split
  · exact h.setMsk ..
  · exact h

theorem Post.RowOnly.postDiscard (h : x.RowOnly s t) (o : Op) (w : W32) : (postDiscard o w x).RowOnly s t :=
  h.foldl _ fun _ _ _ hy => hy.foldl _ fun _ _ _ hz => hz.setMsk_if ..

theorem Post.RowOnly.rowStart (h : x.RowOnly s t) (tm : Team) (o : Op) (m : Mode) (i : Nat) :
    (rowStart tm o m i x).RowOnly s t := { h with }

/-- An activation, clamp, quantization or discard touches only the row, and so does a load of it. -/
theorem Post.RowOnly.postOp (h : x.RowOnly s t) (o : Op) (i : Nat) {w : W32}
    (hw : wOp w ∈ [0x10, 0x13, 0x14, 0x15, 0x1D]) : (postOp o i x w).RowOnly s t := by
  unfold Machine.postOp
  rw [if_neg (by rw [h.stopped]; decide)]
  simp only [List.mem_cons, List.not_mem_nil, or_false] at hw
  rcases hw with hw | hw | hw | hw | hw <;> simp only [hw]
  · split
    · exact h.each ..
    · exact h
  · exact h.each ..
  · exact h.each ..
  · exact h.each ..
  · exact h.postDiscard ..

theorem Post.RowOnly.writeBack (h : x.RowOnly s t) (o : Op) : (x.writeBack o).RowOnly s t := by
  unfold Post.writeBack
  rw [h.noDepth, h.noColour]
  exact h
end

/-- A program of such micro-ops touches nothing but the stage's rows. -/
theorem postRun_rowOnly (s : State) (t : Team) (o : Op) (m : Mode)
    (hw : ∀ w ∈ o.postWords, wOp w ∈ [0x10, 0x13, 0x14, 0x15, 0x1D]) : (postRun s t o m).RowOnly s t := by
  have start : (postStart s t o.log).RowOnly s t := ⟨rfl, rfl, rfl, rfl, rfl, rfl⟩
  have rows := start.foldl (f := fun (x : Post) i =>
      if x.stopped then x else o.postWords.foldl (postOp o i) (rowStart t o m i x)) (List.range 16) fun i _ y hy => by
    rw [hy.stopped]
    exact (hy.rowStart ..).foldl _ fun w hm z hz => hz.postOp o i (hw w hm)
  unfold postRun
  dsimp only
  rw [rows.stopped]
  exact rows.writeBack o

section
variable {s : State} {op : Nat} {o : Op} {g : Group} {tm : Team} {gr : Grid} {da db : Decl} {m : Mode}

/-- The units of an operation's result blocks. -/
def Op.resultUnits (o : Op) : List Nat := o.quads.flatMap fun q => (List.range o.unitW).map fun j => o.mxNums.2.2 + o.unitW * q + j

theorem Op.resultUnits_poisoned (o : Op) (t : Team) : (o.resultUnits.any fun u => t.accPoison.contains u) = true ↔
    ∃ q j, q ∈ o.quads ∧ j < o.unitW ∧ o.mxNums.2.2 + o.unitW * q + j ∈ t.accPoison := by
  simp only [Op.resultUnits, List.any_eq_true, List.mem_flatMap, List.mem_map, List.mem_range, List.contains_iff_mem]
  constructor
  · rintro ⟨u, ⟨q, hq, j, hj, rfl⟩, hu⟩
    exact ⟨q, j, hq, hj, hu⟩
  · rintro ⟨q, j, hq, hj, hu⟩
    exact ⟨_, ⟨q, hq, j, hj, rfl⟩, hu⟩

/-- What the stage has run, kept for the run that goes on from it. -/
def Op.logged (o : Op) (x : Post) : Op := { o with log := o.log ++ x.new.reverse }

/-- The post stage where it may run: a poisoned unit is a fault; else the program's own end. -/
theorem exec_postStageRun (ho : s.op? op = some o) (how : s.ownerOf o = some (g, tm, gr)) (hst : o.stage = 1)
    (hf : o.fault = none) (hp : o.postWords ≠ []) (hb : s.postBusy tm.id o = false) (hh : ∀ p ∈ o.parts, p.held = none)
    (he : s.engineClear o = true) (hu : ((s.earlier o).all fun q => !q.untaken) = true)
    (ha : declOf o.preWords false = some da) (hd : declOf o.preWords true = some db) (hm : modeOf da.fmt db.fmt = some m) :
    exec (.postStageRun op) s =
      if o.resultUnits.any fun u => tm.accPoison.contains u then mxFault s o 7
      else
        let x := postRun s tm o m
        if x.hold then need (!x.new.isEmpty || x.page.isSome) (.next (x.s.setOp
          { o.logged x with parts := o.parts.map fun p => { p with held := x.page } }))
        else
          match x.fault with
          | some f => .next (x.s.setOp ((o.logged x).stopWith f))
          | none => .next ((x.s.setTeam (x.t.status x.st 0)).setOp { o with stage := 2, parts := [] }) := by
  show execPostStageRun op s = _
  unfold execPostStageRun needSome need
  rw [ho]
  dsimp only
  rw [how]
  dsimp only
  rw [if_pos]
  · rw [ha, hd]
    dsimp only
    rw [hm]
    rfl
  · simpa [hst, hf, hp, hb, he, hu] using hh
end

/-- A command's record stands in the place of the one it was. -/
theorem State.op?_setOp_of {s : State} {op : Nat} {o q : Op} (ho : s.op? op = some o) (hq : q.id = o.id) :
    (s.setOp q).op? op = some q := by
  obtain rfl := State.op?_id ho
  rw [← hq] at ho ⊢
  exact State.op?_setOp_same (by rw [ho]; rfl)

theorem State.team?_setTeam_same {s : State} {t : Team} (h : (s.team? t.id).isSome) : (s.setTeam t).team? t.id = some t :=
  find_map_same Team.id s.teams t h

/-- What a completed matrix command leaves: itself gone, memory and teams as they were, its flag clear. -/
theorem finish_leaves {s : State} {op : Nat} {o : Op} {g : Group} (ho : s.op? op = some o) (hg : s.group? o.gid = some g) :
    ∃ u, (s.finish o).op? op = none ∧ (s.finish o).mem = s.mem ∧ (s.finish o).teams = s.teams ∧
      (s.finish o).group? o.gid = some u ∧
      ∀ f, o.flag = some f → f.toNat < 12 → g.run = none →
        (∀ q ∈ s.ops, q.gid = o.gid → q.id ≠ op → q.flag ≠ some f) → u.flags.getLsbD f.toNat = false := by
  obtain rfl := State.op?_id ho
  obtain ⟨hgone, honly, u, hu, -, hflag⟩ := State.finishWith_spec hg (f := id) rfl
  exact ⟨u, hgone, (congrArg State.mem honly).trans rfl, (congrArg State.teams honly).trans rfl, hu, hflag⟩

/-- What a completed command with a queue entry leaves: its value there besides. -/
theorem finishWith_late_leaves {s : State} {op : Nat} {o : Op} {g : Group} (ho : s.op? op = some o)
    (hg : s.group? o.gid = some g) (hq : g.pushes - o.pushAt < g.queue.length) (d : Dst) (wide : Bool) (v : Nat → W64) :
    let t := s.finishWith o fun g => g.late o d wide v
    ∃ u, t.op? op = none ∧ t.mem = s.mem ∧ t.teams = s.teams ∧ t.group? o.gid = some u ∧
      ∀ l, l < 32 → u.age (g.pushes - o.pushAt) l = if o.ex.getLsbD l then v l else g.age (g.pushes - o.pushAt) l := by
  obtain rfl := State.op?_id ho
  obtain ⟨hgone, honly, u, hu, hk, -⟩ := State.finishWith_spec hg (f := fun g => g.late o d wide v) (g.late_gid o d wide v)
  have hqueue : u.queue = (g.late o d wide v).queue := by
    have := congrArg Group.queue hk
    exact this
  refine ⟨u, hgone, (congrArg State.mem honly).trans rfl, (congrArg State.teams honly).trans rfl, hu, fun l hl => ?_⟩
  rw [← Group.age_late g o d wide v hq hl]
  unfold Group.age
  rw [hqueue]

/-- Settles O36: the post stage by whether a unit is poisoned and by what its run ends with, the completions by what a
finished command leaves. -/
theorem matrixCompletes : Obligations.MatrixCompletes := by
  intro s op o g ho hg hst hf
  have hid := State.op?_id ho
  refine ⟨fun tm gr da db m how hs hp hb hh he hu ha hd hm => ?_, fun h => ?_, fun h hs hl hq => ?_⟩
  · have run := exec_postStageRun ho how hs hf hp hb hh he hu ha hd hm
    dsimp only
    rw [← Op.resultUnits_poisoned, run]
    refine ⟨fun bad => ?_, fun ok hhold => ?_, fun ok ht hw => ?_⟩
    · rw [if_pos bad]
      exact ⟨_, _, _, rfl, rfl, State.op?_setOp_of ho rfl, rfl, rfl, rfl⟩
    · rw [if_neg ok]
      dsimp only
      rw [if_neg (by rw [hhold]; decide)]
      cases (postRun s tm o m).fault with
      | none =>
        refine ⟨_, rfl, fun q hq => ?_⟩
        rw [← hid] at hq
        rw [State.op?_setOp_eq (o := { o with stage := 2, parts := [] }) hq]
        exact ⟨rfl, rfl⟩
      | some f =>
        refine ⟨_, rfl, fun q hq => ?_⟩
        rw [← hid] at hq
        rw [State.op?_setOp_eq (o := (o.logged _).stopWith f) hq]
        rfl
    · have x := postRun_rowOnly s tm o m hw
      rw [if_neg ok]
      dsimp only
      rw [if_neg (by rw [x.noHold]; decide), x.noFault, x.state, x.team]
      refine ⟨_, _, tm.status (postRun s tm o m).st 0, rfl, State.op?_setOp_of (o := o) ho rfl, rfl, rfl, rfl, rfl, ?_, rfl⟩
      exact State.team?_setTeam_same (t := tm.status _ 0) (Option.isSome_iff_exists.2 ⟨tm, ht⟩)
  · obtain ⟨u, hleft⟩ := finish_leaves ho hg
    exact ⟨_, u, matrix_leaves ho hg hst hf h, hleft⟩
  · obtain ⟨d, wide, hx⟩ := matrix_delivers ho hg hst hf h hs
    obtain ⟨u, hleft⟩ := finishWith_late_leaves ho hg (by omega) d wide
      fun _ => BitVec.ofNat 64 (leNat (Store.readList o.buf 0 8))
    exact ⟨_, u, hx, hleft⟩

end Sys2Proof.Machine

namespace Sys2Proof

/-! ## Fields of a concatenation -/

section
variable {v w s l : Nat} {x : BitVec v} {y : BitVec w} {f : BitVec l}

/-- A field of the left part of a concatenation. -/
theorem field_left (h : x.extractLsb' s l = f) : (x ++ y).extractLsb' (s + w) l = f := by
  rw [BitVec.extractLsb'_append_eq_of_le (by omega), Nat.add_sub_cancel, h]

/-- A field of the right part. -/
theorem field_right (h : y.extractLsb' s l = f) (hs : s + l ≤ w) : (x ++ y).extractLsb' s l = f := by
  rw [BitVec.extractLsb'_append_eq_of_add_le hs, h]

theorem field_all : x.extractLsb' 0 v = x := BitVec.extractLsb'_eq_self

/-- A field of one bit. -/
theorem bit_of_field {b : Bool} (h : x.extractLsb' s 1 = BitVec.ofBool b) : x.getLsbD s = b := by
  rw [BitVec.getLsbD_eq_extractLsb', h]
  cases b <;> rfl

/-- The low bits of a widened number are the number. -/
theorem extractLsb'_setWidth_low (h : v ≤ w) : (x.setWidth w).extractLsb' 0 v = x := by
  rw [BitVec.extractLsb'_setWidth_of_le (by omega), field_all]

/-- A widened number fills the low bits alone. -/
theorem extractLsb'_setWidth_above (h : v ≤ s) : (x.setWidth w).extractLsb' s l = 0 := by
  refine BitVec.eq_of_getLsbD_eq fun i hi => ?_
  simp [BitVec.getLsbD_extractLsb', BitVec.getLsbD_setWidth, BitVec.getLsbD_of_ge x (s + i) (by omega)]
end

/-! ## The raw word (02 Table 2.2) -/

/-- The low bits of a word say whether it has a literal, and what stands for sources B and C. -/
theorem Tail.ofBits (t : Tail) : (if t.bits.getLsbD 33 then Tail.lit (t.bits.getLsbD 32) (t.bits.extractLsb' 0 32)
    else .regs (t.bits.extractLsb' 26 7) (t.bits.extractLsb' 19 7) (t.bits.extractLsb' 0 19)) = t := by
  cases t with
  | regs b c x =>
    have h : (Tail.regs b c x).bits.getLsbD 33 = false :=
      bit_of_field (field_left (field_left (field_left field_all)))
    have hb : (Tail.regs b c x).bits.extractLsb' 26 7 = b := field_left (field_left (field_right field_all le_rfl))
    have hc : (Tail.regs b c x).bits.extractLsb' 19 7 = c := field_left (field_right field_all le_rfl)
    have hx : (Tail.regs b c x).bits.extractLsb' 0 19 = x := field_right field_all le_rfl
    rw [h, hb, hc, hx]
    rfl
  | lit e v =>
    have h : (Tail.lit e v).bits.getLsbD 33 = true := bit_of_field (field_left (field_left field_all))
    have he : (Tail.lit e v).bits.getLsbD 32 = e := bit_of_field (field_left (field_right field_all le_rfl))
    have hv : (Tail.lit e v).bits.extractLsb' 0 32 = v := field_right field_all le_rfl
    rw [h, he, hv]
    rfl

/-- The fields of a word are the ones that it was put together from. -/
theorem Raw.ofWord_toWord (r : Raw) : Raw.ofWord r.toWord = r := by
  have hop : r.toWord.extractLsb' 56 8 = r.op := field_left (field_left (field_left (field_left (field_left field_all))))
  have hk : r.toWord.extractLsb' 53 3 = r.k := field_left (field_left
    (field_left (field_left (field_right field_all le_rfl))))
  have hm : r.toWord.extractLsb' 48 5 = r.m := field_left (field_left (field_left (field_right field_all le_rfl)))
  have hd : r.toWord.extractLsb' 41 7 = r.d := field_left (field_left (field_right field_all le_rfl))
  have ha : r.toWord.extractLsb' 34 7 = r.a := field_left (field_right field_all le_rfl)
  have low : ∀ s l, s + l ≤ 34 → r.toWord.extractLsb' s l = r.t.bits.extractLsb' s l := fun s l => field_right rfl
  have bit : ∀ s, s + 1 ≤ 34 → r.toWord.getLsbD s = r.t.bits.getLsbD s := fun s h => by
    rw [BitVec.getLsbD_eq_extractLsb', low s 1 h, ← BitVec.getLsbD_eq_extractLsb']
  unfold Raw.ofWord
  rw [hop, hk, hm, hd, ha, bit 33 (by decide), bit 32 (by decide), low 0 32 (by decide), low 26 7 (by decide),
    low 19 7 (by decide), low 0 19 (by decide), r.t.ofBits]

/-! ## Codes of the operand fields and of the class extensions, and back -/

@[simp] theorem Special.ofCode_code (x : Special) : Special.ofCode x.code = x := by cases x <;> rfl
@[simp] theorem IntTy.ofCode_code (x : IntTy) : IntTy.ofCode x.code = x := by cases x <;> rfl
@[simp] theorem FpTy.ofCode_code (x : FpTy) : FpTy.ofCode x.code = some x := by cases x <;> rfl
@[simp] theorem Rnd.ofCode_code (x : Rnd) : Rnd.ofCode x.code = some x := by cases x <;> rfl
@[simp] theorem IPred.ofCode_code (x : IPred) : IPred.ofCode x.code = some x := by cases x <;> rfl
@[simp] theorem FPred.ofCode_code (x : FPred) : FPred.ofCode x.code = some x := by cases x <;> rfl
@[simp] theorem Space.ofCode_code (x : Space) : Space.ofCode x.code = some x := by cases x <;> rfl
@[simp] theorem Req.ofCode_code (x : Req) : Req.ofCode x.code = some x := by cases x <;> rfl
@[simp] theorem Scope.ofCode_code (x : Scope) : Scope.ofCode x.code = x := by cases x <;> rfl
@[simp] theorem Order.ofCode_code (x : Order) : Order.ofCode x.code = x := by cases x <;> rfl
@[simp] theorem Size.ofCode_code (x : Size) : Size.ofCode x.code = some x := by cases x <;> rfl
@[simp] theorem KOp.ofCode_code (x : KOp) : KOp.ofCode x.code = some x := by cases x <;> rfl
@[simp] theorem LMode.ofCode_code (x : LMode) : LMode.ofCode x.code = some x := by cases x <;> rfl
@[simp] theorem ScanOp.ofCode_code (x : ScanOp) : ScanOp.ofCode x.code = some x := by cases x <;> rfl
@[simp] theorem VoteOp.ofCode_code (x : VoteOp) : VoteOp.ofCode x.code = some x := by cases x <;> rfl
@[simp] theorem FstwOp.ofCode_code (x : FstwOp) : FstwOp.ofCode x.code = some x := by cases x <;> rfl
@[simp] theorem FenceOp.ofCode_code (x : FenceOp) : FenceOp.ofCode x.code = some x := by cases x <;> rfl
@[simp] theorem AtomOp.ofCode_code (x : AtomOp) : AtomOp.ofCode x.code = some x := by cases x <;> rfl
@[simp] theorem AtomwOp.ofCode_code (x : AtomwOp) : AtomwOp.ofCode x.code = some x := by cases x <;> rfl
@[simp] theorem FatomOp.ofCode_code (x : FatomOp) : FatomOp.ofCode x.code = some x := by cases x <;> rfl
@[simp] theorem LodSrc.ofCode_code (x : LodSrc) : LodSrc.ofCode x.code = some x := by cases x <;> rfl

@[simp] theorem NumTy.ofCode_code (x : NumTy) : NumTy.ofCode x.code = some x := by
  cases x with
  | fp t => cases t <;> rfl
  | int t => cases t <;> rfl

@[simp] theorem winOf_winCode (n : BitVec 5) : winOf (winCode n) = n := by revert n; decide
@[simp] theorem sclOf_sclCode (n : BitVec 6) : sclOf (sclCode n) = n := by revert n; decide
@[simp] theorem lcOf_lcX (c : Option (BitVec 2)) : lcOf (lcX c) = c := by
  cases c with
  | none => rfl
  | some c => revert c; decide

/-- Each level of sources has its own codes (02 Table 2.3). -/
@[simp] theorem Src.ofCode_code (x : Src) : Src.ofCode x.code = x := by
  cases x with
  | q n => revert n; decide
  | w n => revert n; decide
  | sp n => cases n <;> rfl
  | s n => revert n; decide

@[simp] theorem Dst.ofCode_code (x : Dst) : Dst.ofCode x.code = x := by
  cases x with
  | queue => rfl
  | w n => revert n; decide
  | s n => revert n; decide

/-- A clasp is in another space than .l, whose code says that there is none (09 Table 9.5). -/
theorem clsOf_clsCode {o : Option Space} (h : o ≠ some .l) : clsOf (clsCode o) = o := by
  cases o with
  | none => rfl
  | some sp =>
    cases sp with
    | l => exact absurd rfl h
    | s | c | p | g => rfl

/-! ## Checks that pass -/

/-- No check of the list fails. -/
def Passes (l : List (Nat × Bool)) : Prop := ∀ p ∈ l, p.2 = false

@[simp] theorem passes_nil : Passes [] := by simp [Passes]
@[simp] theorem passes_cons {n : Nat} {b : Bool} {l : List (Nat × Bool)} :
    Passes ((n, b) :: l) ↔ b = false ∧ Passes l := by simp [Passes]
@[simp] theorem passes_append {l m : List (Nat × Bool)} : Passes (l ++ m) ↔ Passes l ∧ Passes m := by
  simp [Passes, or_imp, forall_and]

theorem lowest_eq_none {l : List (Nat × Bool)} (h : Passes l) : lowest l = none := by
  induction l with
  | nil => rfl
  | cons p l ih =>
    obtain ⟨hp, hl⟩ := passes_cons.mp h
    rw [← ih hl]
    simp [lowest, hp]

/-- The free context refuses no window (02 R41). -/
theorem cap_free {f : BitVec 7} (h : isWinCode f = true) : DecodeCtx.free.cap f = 9 := by
  revert f; decide

theorem capBad_free {f : BitVec 7} {n : Nat} (hn : n ≤ 9) : (isWinCode f && capBad .free f n) = false := by
  cases h : isWinCode f with
  | false => rfl
  | true => simp [capBad, cap_free h, hn]

@[simp] theorem isWinCode_winCode (n : BitVec 5) : isWinCode (winCode n) = true := by revert n; decide

@[simp] theorem srcBad_no : Passes (srcBad .free .no 0) := by simp [srcBad]
@[simp] theorem srcBad_tile {f : BitVec 7} : Passes (srcBad .free .tile f) := by simp [srcBad]
theorem srcBad_val {f : BitVec 7} {n : Nat} (hn : n ≤ 9) : Passes (srcBad .free (.val n) f) := by
  simp [srcBad, capBad_free hn]
theorem srcBad_win {w : BitVec 5} {n : Nat} (hn : n ≤ 9) : Passes (srcBad .free (.win n) (winCode w)) := by
  simp [srcBad, capBad, cap_free, hn]

theorem toNat_sclCode (s : BitVec 6) : (sclCode s).toNat = 64 + s.toNat := by revert s; decide

/-- A run of scalars ends at scalar 63 at the latest (02 Table 2.3). -/
theorem srcBad_scl {s : BitVec 6} {n : Nat} (hn : s.toNat + n ≤ 64) : Passes (srcBad .free (.scl n) (sclCode s)) := by
  have h : (sclCode s).toNat = 64 + s.toNat := toNat_sclCode s
  simp only [srcBad, h, passes_cons, passes_nil, and_true, Bool.or_eq_false_iff, decide_eq_false_iff_not]
  omega

@[simp] theorem dstBad_no : Passes (dstBad .free .no 0) := by simp [dstBad]
theorem dstBad_val {d : Dst} {n : Nat} (hn : n ≤ 9) : Passes (dstBad .free (.val n) d.code) := by
  have h : (decide (0 < d.code.toNat) && decide (d.code.toNat < 0x10)) = false ∧
      (decide (0x30 ≤ d.code.toNat) && decide (d.code.toNat < 0x40)) = false := by
    cases d with
    | queue => decide
    | w n => revert n; decide
    | s n => revert n; decide
  obtain ⟨hlow, hmid⟩ := h
  simp only [dstBad, hlow, hmid, capBad_free hn, Bool.or_self, passes_cons, passes_nil, and_self]
theorem dstBad_win {w : BitVec 5} {n : Nat} (hn : n ≤ 9) : Passes (dstBad .free (.win n) (winCode w)) := by
  simp [dstBad, capBad, cap_free, hn]

theorem ite_words_le {p : Prop} [Decidable p] {m n : Nat} (hm : m ≤ 9) (hn : n ≤ 9) : (if p then m else n) ≤ 9 := by
  split <;> assumption
theorem IntTy.words_le (t : IntTy) : t.words ≤ 9 := by cases t <;> decide
theorem FpTy.words_le (t : FpTy) : t.words ≤ 9 := by cases t <;> decide
theorem NumTy.words_le (t : NumTy) : t.words ≤ 9 := by
  cases t with
  | fp t => exact t.words_le
  | int t => exact t.words_le

/-! ## The fields of a word put together -/

section
variable {op : BitVec 8} {k : BitVec 3} {m : BitVec 5} {d a b c : BitVec 7} {x : BitVec 19} {t : Tail} {e : Bool}
  {v : BitVec 32}

@[simp] theorem k_mkRaw : (mkRaw op k m d a t).k = k := rfl
@[simp] theorem m_mkRaw : (mkRaw op k m d a t).m = m := rfl
@[simp] theorem d_mkRaw : (mkRaw op k m d a t).d = d := rfl
@[simp] theorem a_mkRaw : (mkRaw op k m d a t).a = a := rfl
@[simp] theorem dst_mkRaw : (mkRaw op k m d a t).dst = Dst.ofCode d := rfl
@[simp] theorem srcA_mkRaw : (mkRaw op k m d a t).srcA = Src.ofCode a := rfl
@[simp] theorem wD_mkRaw : (mkRaw op k m d a t).wD = winOf d := rfl
@[simp] theorem wA_mkRaw : (mkRaw op k m d a t).wA = winOf a := rfl

@[simp] theorem x_regs : (mkRaw op k m d a (.regs b c x)).x = x := rfl
@[simp] theorem v_regs : (mkRaw op k m d a (.regs b c x)).v = 0 := rfl
@[simp] theorem isLit_regs : (mkRaw op k m d a (.regs b c x)).isLit = false := rfl
@[simp] theorem b_regs : (mkRaw op k m d a (.regs b c x)).b = b := rfl
@[simp] theorem c_regs : (mkRaw op k m d a (.regs b c x)).c = c := rfl
@[simp] theorem srcB_regs : (mkRaw op k m d a (.regs b c x)).srcB = Src.ofCode b := rfl
@[simp] theorem srcC_regs : (mkRaw op k m d a (.regs b c x)).srcC = Src.ofCode c := rfl
@[simp] theorem wB_regs : (mkRaw op k m d a (.regs b c x)).wB = winOf b := rfl
@[simp] theorem wC_regs : (mkRaw op k m d a (.regs b c x)).wC = winOf c := rfl
@[simp] theorem opd_regs : (mkRaw op k m d a (.regs b c x)).opd = .src (Src.ofCode b) := rfl

@[simp] theorem x_lit : (mkRaw op k m d a (.lit e v)).x = 0 := rfl
@[simp] theorem v_lit : (mkRaw op k m d a (.lit e v)).v = v := rfl
@[simp] theorem ext_lit : (mkRaw op k m d a (.lit e v)).ext = e := rfl
@[simp] theorem isLit_lit : (mkRaw op k m d a (.lit e v)).isLit = true := rfl
@[simp] theorem opd_lit : (mkRaw op k m d a (.lit e v)).opd = .lit v := rfl
@[simp] theorem sat_lit : (mkRaw op k m d a (.lit e v)).sat = false := by simp [Raw.sat]
@[simp] theorem imm7_lit : (mkRaw op k m d a (.lit e v)).imm7 = 0 := by simp [Raw.imm7]
@[simp] theorem imm8_lit : (mkRaw op k m d a (.lit e v)).imm8 = 0 := by simp [Raw.imm8]
@[simp] theorem ity_lit : (mkRaw op k m d a (.lit e v)).ity = if e then .i64 else .i32 := rfl
end

/-! ## From the fields to the word -/

/-- The word of an instruction decodes to it. -/
def Decodes (i : Instr) : Prop := ∃ w, encode i = some w ∧ decodeWord w = .ok i

/-- An instruction decodes when its entry's checks pass and the entry names it. -/
theorem decodes_raw {i : Instr} {r : Raw} {e : Entry} (henc : encodeRaw i = some r) (hent : entry .free r = some e)
    (hi : e.i = some i) (hwf : i.wf = true) (hchk : Passes (wordChecks .free r e)) : Decodes i := by
  refine ⟨r.toWord, by rw [encode, henc, Option.map_some], ?_⟩
  simp only [decodeWord, decodeWith, Raw.ofWord_toWord, decodeRaw, hent, lowest_eq_none hchk, hi, hwf, if_true]

section
variable {i : Instr} {op : BitVec 8} {k : BitVec 3} {m : BitVec 5} {d a b c : BitVec 7} {x : BitVec 19} {e : Entry}

/-- The form with sources and a class extension. -/
theorem decodes_regs (henc : encodeRaw i = some (mkRaw op k m d a (.regs b c x)))
    (hent : entry .free (mkRaw op k m d a (.regs b c x)) = some e) (hi : e.i = some i) (hwf : i.wf = true)
    (hlit : litBad e.lit (mkRaw op k m d a (.regs b c x)) = false) (hchk : Passes e.chk)
    (hd : Passes (dstBad .free e.d d)) (ha : Passes (srcBad .free e.a a)) (hb : Passes (srcBad .free e.b b))
    (hc : Passes (srcBad .free e.c c)) : Decodes i := by
  refine decodes_raw henc hent hi hwf ?_
  have hregs : (mkRaw op k m d a (.regs b c x)).isLit = false := rfl
  simp only [wordChecks, hregs, hlit, Bool.and_false, Bool.false_eq_true, if_false, passes_append, passes_cons,
    passes_nil, and_true]
  exact ⟨⟨⟨hchk, hd⟩, ha⟩, hb, hc⟩

/-- The literal form. -/
theorem decodes_lit {x : Bool} {v : BitVec 32} (henc : encodeRaw i = some (mkRaw op k m d a (.lit x v)))
    (hent : entry .free (mkRaw op k m d a (.lit x v)) = some e) (hi : e.i = some i) (hwf : i.wf = true)
    (hlit : litBad e.lit (mkRaw op k m d a (.lit x v)) = false) (hchk : Passes e.chk)
    (hd : Passes (dstBad .free e.d d)) (ha : Passes (if e.lit == .a then [(4, a != 0)] else srcBad .free e.a a)) :
    Decodes i := by
  refine decodes_raw henc hent hi hwf ?_
  have hislit : (mkRaw op k m d a (.lit x v)).isLit = true := rfl
  simp only [wordChecks, hislit, hlit, Bool.and_false, Bool.and_true, Bool.false_eq_true, if_false, if_true, passes_append,
    passes_cons, passes_nil, and_true]
  exact ⟨⟨hchk, hd⟩, ha⟩
end

/-! ## The integer class extension (02 Table 2.5, 03 Table 3.2) -/

section
variable {t : IntTy} {sat : Bool} {p : BitVec 7} {q : BitVec 8} {op : BitVec 8} {k : BitVec 3} {m : BitVec 5}
  {d a b c : BitVec 7}

theorem intX_ty : (intX t sat p q).extractLsb' 16 3 = t.code := field_left (field_left (field_left field_all))
theorem intX_sat : (intX t sat p q).getLsbD 15 = sat := bit_of_field
    (field_left (field_left (field_right field_all le_rfl)))
theorem intX_imm7 : (intX t sat p q).extractLsb' 8 7 = p := field_left (field_right field_all le_rfl)
theorem intX_imm8 : (intX t sat p q).extractLsb' 0 8 = q := field_right field_all le_rfl
/-- A part of the first immediate. -/
theorem intX_imm7_part {s l : Nat} (h : s + l ≤ 7) : (intX t sat p q).extractLsb' (s + 8) l = p.extractLsb' s l :=
  field_left (field_right rfl h)
/-- A part of the second immediate. -/
theorem intX_imm8_part {s l : Nat} (h : s + l ≤ 8) : (intX t sat p q).extractLsb' s l = q.extractLsb' s l := field_right
    rfl h

@[simp] theorem ity_intX : (mkRaw op k m d a (.regs b c (intX t sat p q))).ity = t := by
  change IntTy.ofCode (BitVec.extractLsb' 16 3 (intX t sat p q)) = t
  rw [intX_ty, IntTy.ofCode_code]
@[simp] theorem sat_intX : (mkRaw op k m d a (.regs b c (intX t sat p q))).sat = sat := intX_sat
@[simp] theorem imm7_intX : (mkRaw op k m d a (.regs b c (intX t sat p q))).imm7 = p := intX_imm7
@[simp] theorem imm8_intX : (mkRaw op k m d a (.regs b c (intX t sat p q))).imm8 = q := intX_imm8

/-- A class extension of zeros is that of I32 without immediates. -/
theorem intX_i32 : intX .i32 false 0 0 = 0#19 := by decide
@[simp] theorem ity_zero : (mkRaw op k m d a (.regs b c 0#19)).ity = .i32 := by rw [← intX_i32, ity_intX]
@[simp] theorem sat_zero : (mkRaw op k m d a (.regs b c 0#19)).sat = false := by rw [← intX_i32, sat_intX]
@[simp] theorem imm7_zero : (mkRaw op k m d a (.regs b c 0#19)).imm7 = 0 := by rw [← intX_i32, imm7_intX]
@[simp] theorem imm8_zero : (mkRaw op k m d a (.regs b c 0#19)).imm8 = 0 := by rw [← intX_i32, imm8_intX]
end

/-! ## Integer instructions -/

theorem ity_boolExt {t : IntTy} (h : (t == .i32 || t == .i64) = true) : (if boolExt t then IntTy.i64 else .i32) = t := by
  cases t with
  | i32 | i64 => rfl
  | _ => cases h

section
variable {op : BitVec 8} {m : BitVec 5} {modOk : Bool} {ty : IntTy → Bool} {sat : Bool} {dw aw bw cw : Nat}
  {i : Option Instr}

theorem ibin_encIBin {x : IBin} (h : x.litOk = true) : (encIBin op x m).ibin = x := by
  obtain ⟨k, d, a, b, t, s⟩ := x
  cases b with
  | src b => simp [encIBin, Raw.ibin]
  | lit v =>
    obtain ⟨ht, hs⟩ : (t == .i32 || t == .i64) = true ∧ s = false := by simpa [IBin.litOk] using h
    simp [encIBin, Raw.ibin, ity_boolExt ht, hs]

theorem ity_encIBin {x : IBin} (h : x.litOk = true) : (encIBin op x m).ity = x.t := congrArg IBin.t (ibin_encIBin h)
theorem sat_encIBin {x : IBin} (h : x.litOk = true) : (encIBin op x m).sat = x.sat := congrArg IBin.sat (ibin_encIBin h)

/-- The checks of an integer entry without immediates. -/
theorem intEntry_passes {r : Raw} {lit : LitRule} {d a b c : Role} (hm : modOk = true) (hty : ty r.ity = true)
    (hsat : (r.sat && !sat) = false) (h7 : r.imm7 = 0) (h8 : r.imm8 = 0) :
    Passes (intEntry r modOk ty sat true lit d a b c i).chk := by
  simp [intEntry, hm, hty, hsat, h7, h8]

theorem decodes_ibin (mk : IBin → Instr) {x : IBin} (henc : encodeRaw (mk x) = some (encIBin op x m))
    (hent : entry .free (encIBin op x m) = some (eIBin (encIBin op x m) modOk ty sat dw bw i))
    (hi : i = some (mk (encIBin op x m).ibin)) (hwf : (mk x).wf = true) (hl : x.litOk = true) (hs : (x.sat && !sat) = false)
    (hm : modOk = true) (hty : ty x.t = true) (hd : dw ≤ 9) (hb : bw ≤ 9) : Decodes (mk x) := by
  rw [ibin_encIBin hl] at hi
  have hty : ty (encIBin op x m).ity = true := by rwa [ity_encIBin hl]
  have hs : ((encIBin op x m).sat && !sat) = false := by rwa [sat_encIBin hl]
  obtain ⟨k, d, a, b, t, s⟩ := x
  cases b with
  | src b =>
    exact decodes_regs henc hent hi hwf rfl (intEntry_passes hm hty hs imm7_intX imm8_intX) (dstBad_val hd)
      (srcBad_val (IntTy.words_le _)) (srcBad_val hb) srcBad_no
  | lit v =>
    exact decodes_lit henc hent hi hwf rfl (intEntry_passes hm hty hs imm7_lit imm8_lit) (dstBad_val hd)
      (srcBad_val (IntTy.words_le _))

theorem iun_encIUn {x : IUn} {p : BitVec 7} {q : BitVec 8} : (encIUn op x m p q).iun = x := by
  simp [encIUn, Raw.iun]

theorem decodes_iun (mk : IUn → Instr) {x : IUn} (henc : encodeRaw (mk x) = some (encIUn op x m))
    (hent : entry .free (encIUn op x m) =
      some (intEntry (encIUn op x m) modOk ty sat true .no (.val dw) (.val (encIUn op x m).ity.words) .no .no i))
    (hi : i = some (mk (encIUn op x m).iun)) (hwf : (mk x).wf = true) (hs : (x.sat && !sat) = false)
    (hm : modOk = true) (hty : ty x.t = true) (hd : dw ≤ 9) : Decodes (mk x) := by
  rw [iun_encIUn] at hi
  have hty : ty (encIUn op x m).ity = true := by rwa [encIUn, ity_intX]
  have hs : ((encIUn op x m).sat && !sat) = false := by rwa [encIUn, sat_intX]
  exact decodes_regs henc hent hi hwf rfl (intEntry_passes hm hty hs imm7_intX imm8_intX) (dstBad_val hd)
    (srcBad_val (IntTy.words_le _)) srcBad_no srcBad_no

theorem iter_encITer {x : ITer} : (encITer op x m).iter = x := by
  simp [encITer, Raw.iter]

theorem decodes_iter (mk : ITer → Instr) {x : ITer} (henc : encodeRaw (mk x) = some (encITer op x m))
    (hent : entry .free (encITer op x m) = some (eITer (encITer op x m) modOk ty sat dw aw bw cw i))
    (hi : i = some (mk (encITer op x m).iter)) (hwf : (mk x).wf = true) (hs : (x.sat && !sat) = false)
    (hm : modOk = true) (hty : ty x.t = true) (hd : dw ≤ 9) (ha : aw ≤ 9) (hb : bw ≤ 9) (hc : cw ≤ 9) :
    Decodes (mk x) := by
  rw [iter_encITer] at hi
  have hty : ty (encITer op x m).ity = true := by rwa [encITer, ity_intX]
  have hs : ((encITer op x m).sat && !sat) = false := by rwa [encITer, sat_intX]
  exact decodes_regs henc hent hi hwf rfl (intEntry_passes hm hty hs imm7_intX imm8_intX) (dstBad_val hd)
    (srcBad_val ha) (srcBad_val hb) (srcBad_val hc)
end

section
variable {k : BitVec 3} {d : Dst} {a b : Src}

theorem decodes_bext {x : IUn} {p : BitVec 7} {n : BitVec 8} (h : (Instr.bext x p n).wf = true) : Decodes (.bext x p n) :=
    by
  refine decodes_regs rfl rfl ?_ h rfl ?_ (dstBad_val (IntTy.words_le _)) (srcBad_val (IntTy.words_le _)) srcBad_no
    srcBad_no
  · simp [intEntry, Raw.iun]
  · simp [Instr.wf] at h
    simp [intEntry, h, Raw.posBad, allTy]

theorem decodes_bins {t : IntTy} {p : BitVec 7} {n : BitVec 8} (h : (Instr.bins k d a b t p n).wf = true) :
    Decodes (.bins k d a b t p n) := by
  refine decodes_regs rfl rfl ?_ h rfl ?_ (dstBad_val (IntTy.words_le _)) (srcBad_val (IntTy.words_le _))
    (srcBad_val (IntTy.words_le _)) srcBad_no
  · simp [intEntry]
  · simp [Instr.wf] at h
    simp [intEntry, h, Raw.posBad, allTy]

theorem decodes_bint {c : Option Src} {t : IntTy} (h : (Instr.bint k d a b c t).wf = true) : Decodes (.bint k d a b c t) :=
    by
  have hty : n3264 t = true := h
  cases c with
  | none =>
    refine decodes_regs rfl rfl ?_ h rfl ?_ (dstBad_val (IntTy.words_le _)) (srcBad_val (IntTy.words_le _))
      (srcBad_val (IntTy.words_le _)) srcBad_no
    · simp [intEntry]
    · simp [intEntry, hty]
  | some c =>
    refine decodes_regs rfl rfl ?_ h rfl ?_ (dstBad_val (IntTy.words_le _)) (srcBad_val (IntTy.words_le _))
      (srcBad_val (IntTy.words_le _)) (srcBad_val (IntTy.words_le _))
    · simp [eITer, intEntry]
    · simp [eITer, intEntry, hty]

theorem bdin_index {t : IntTy} {sat : Bool} {p : BitVec 7} {j : BitVec 2} :
    (intX t sat p (j.setWidth 8)).extractLsb' 0 2 = j := by
  rw [intX_imm8_part (by decide), extractLsb'_setWidth_low (by decide)]

theorem bdin_rest {t : IntTy} {sat : Bool} {p : BitVec 7} {j : BitVec 2} :
    (intX t sat p (j.setWidth 8)).extractLsb' 2 6 = 0 := by
  rw [intX_imm8_part (by decide), extractLsb'_setWidth_above le_rfl]

theorem decodes_bdin {three : Bool} {x : IUn} {j : BitVec 2} (h : (Instr.bdin three x j).wf = true) :
    Decodes (.bdin three x j) := by
  obtain ⟨⟨hs, hty⟩, hj⟩ : (x.sat = false ∧ n3264 x.t = true) ∧ j.toNat < if three then 3 else 2 := by
    simpa [Instr.wf, n3264] using h
  cases three with
  | false =>
    refine decodes_regs rfl rfl ?_ h rfl ?_ (dstBad_val (IntTy.words_le _)) (srcBad_val (IntTy.words_le _)) srcBad_no
      srcBad_no
    · simp [intEntry, Raw.iun, bdin_index]
    · simpa [-BitVec.extractLsb'_toNat, intEntry, hs, hty, bdin_index, bdin_rest, Nat.lt_succ_iff] using hj
  | true =>
    refine decodes_regs rfl rfl ?_ h rfl ?_ (dstBad_val (IntTy.words_le _)) (srcBad_val (IntTy.words_le _)) srcBad_no
      srcBad_no
    · simp [intEntry, Raw.iun, bdin_index]
    · simpa [-BitVec.extractLsb'_toNat, intEntry, hs, hty, bdin_index, bdin_rest] using hj

theorem decodes_movl {wide : Bool} {v : BitVec 32} : Decodes (.movl k d wide v) := by
  cases wide with
  | false =>
    refine decodes_lit rfl rfl ?_ rfl rfl ?_ (dstBad_val (IntTy.words_le _)) srcBad_no
    · simp [intEntry]
    · simp [intEntry]
  | true =>
    refine decodes_lit rfl rfl ?_ rfl rfl ?_ (dstBad_val (IntTy.words_le _)) srcBad_no
    · simp [intEntry]
    · simp [intEntry]

theorem decodes_movlHi {v : BitVec 32} : Decodes (.movlHi k d v) := by
  refine decodes_lit rfl rfl ?_ rfl rfl ?_ (dstBad_val (by decide)) srcBad_no
  · simp [intEntry]
  · simp [intEntry]

end

section
variable {k : BitVec 3} {d : Dst} {a : Src}

/-! ### KOP (03 Table 3.5) -/

section
variable {kd kx ky : BitVec 3}

/-- The class extension of KOP: three mask numbers. -/
def kopX (kd kx ky : BitVec 3) : BitVec 19 := intX .i32 false ((0 : BitVec 1) ++ ky ++ kx) (kd.setWidth 8)

theorem kopX_kd : (kopX kd kx ky).extractLsb' 0 3 = kd := by
  rw [kopX, intX_imm8_part (by decide), extractLsb'_setWidth_low (by decide)]
theorem kopX_kx : (kopX kd kx ky).extractLsb' 8 3 = kx := field_left
    (field_right (field_right field_all le_rfl) (by decide))
theorem kopX_ky : (kopX kd kx ky).extractLsb' 11 3 = ky :=
  field_left (field_right (field_left (field_right field_all le_rfl)) (by decide))
theorem kopX_bit14 : (kopX kd kx ky).getLsbD 14 = false :=
  bit_of_field (field_left (field_right (field_left (field_left field_all)) (by decide)))
theorem kopX_rest : (kopX kd kx ky).extractLsb' 3 5 = 0 := by
  rw [kopX, intX_imm8_part (by decide), extractLsb'_setWidth_above le_rfl]
@[simp] theorem ity_kopX {op : BitVec 8} {m : BitVec 5} {d a b c : BitVec 7} :
    (mkRaw op k m d a (.regs b c (kopX kd kx ky))).ity = .i32 := ity_intX
@[simp] theorem sat_kopX {op : BitVec 8} {m : BitVec 5} {d a b c : BitVec 7} :
    (mkRaw op k m d a (.regs b c (kopX kd kx ky))).sat = false := sat_intX

/-- The operation and the masks of a KOP word. -/
theorem eKop_i {op : KOp} :
    (eKop (mkRaw 0x2D k op.code d.code a.code (.regs 0 0 (kopX kd kx ky)))).i = some (.kop op k d a kd kx ky) := by
  simp [eKop, intEntry, kopX_kd, kopX_kx, kopX_ky]

/-- A KOP word leaves the fields zero that its operation does not use (03 R96). -/
theorem eKop_passes {op : KOp} (h : kopOk op k d a kd kx ky = true) :
    Passes (eKop (mkRaw 0x2D k op.code d.code a.code (.regs 0 0 (kopX kd kx ky)))).chk := by
  cases op with
  | kand | kor | kxor | kandn | knot | kmov | fromv | tov | froms =>
    simp [kopOk] at h
    simp [eKop, intEntry, kopX_kd, kopX_kx, kopX_ky, kopX_bit14, kopX_rest, ty32, -BitVec.getLsbD_eq_getElem, h]

theorem decodes_kop {op : KOp} (h : (Instr.kop op k d a kd kx ky).wf = true) : Decodes (.kop op k d a kd kx ky) := by
  have henc : encodeRaw (.kop op k d a kd kx ky) = some (mkRaw 0x2D k op.code d.code a.code (.regs 0 0 (kopX kd kx ky))) :=
    rfl
  have hchk := eKop_passes h
  cases op with
  | kand | kor | kxor | kandn | knot | kmov =>
    obtain ⟨rfl, rfl⟩ : d = .queue ∧ a = .q 0 := by simp_all [Instr.wf, kopOk]
    exact decodes_regs henc rfl eKop_i h rfl hchk dstBad_no srcBad_no srcBad_no srcBad_no
  | fromv | froms =>
    obtain rfl : d = .queue := by simp_all [Instr.wf, kopOk]
    exact decodes_regs henc rfl eKop_i h rfl hchk dstBad_no (srcBad_val (by decide)) srcBad_no srcBad_no
  | tov =>
    obtain rfl : a = .q 0 := by simp_all [Instr.wf, kopOk]
    exact decodes_regs henc rfl eKop_i h rfl hchk (dstBad_val (by decide)) srcBad_no srcBad_no srcBad_no
end

/-! ### Loop counters, transfers and lane words -/

/-- LCSET and LCADV: the counter's number is the modifier, its operand source B or the literal. -/
theorem decodes_encOpd (mk : BitVec 3 → Dst → BitVec 2 → Opd → Instr) {op : BitVec 8} {lc : BitVec 2} {b : Opd}
    (henc : encodeRaw (mk k d lc b) = some (encOpd op k (lc.setWidth 5) d.code b))
    (hent : let r := encOpd op k (lc.setWidth 5) d.code b
      entry .free r = some (intEntry r (r.m.toNat < 4) ty32 false true .b (.val 1) .no (.val 1) .no
        (some (mk r.k r.dst (r.m.setWidth 2) r.opd))))
    (hwf : (mk k d lc b).wf = true) : Decodes (mk k d lc b) := by
  have hlc : lc.toNat % 32 < 4 := by omega
  cases b with
  | src b =>
    refine decodes_regs henc hent ?_ hwf rfl ?_ (dstBad_val (by decide)) srcBad_no (srcBad_val (by decide)) srcBad_no
    · simp [intEntry, encOpd]
    · simp [intEntry, encOpd, ty32, hlc]
  | lit v =>
    refine decodes_lit henc hent ?_ hwf rfl ?_ (dstBad_val (by decide)) srcBad_no
    · simp [intEntry, encOpd]
    · simp [intEntry, encOpd, ty32, hlc]

theorem decodes_bra {v : BitVec 32} : Decodes (.bra k v) := by
  refine decodes_lit rfl rfl rfl rfl rfl ?_ dstBad_no srcBad_no
  simp [intEntry, ty32]

theorem decodes_brx : Decodes (.brx k a) := by
  refine decodes_regs rfl rfl ?_ rfl rfl ?_ dstBad_no (srcBad_val (by decide)) srcBad_no srcBad_no
  · simp [intEntry]
  · simp [intEntry, ty32]

theorem decodes_call {v : BitVec 32} : Decodes (.call k d v) := by
  refine decodes_lit rfl rfl ?_ rfl rfl ?_ (dstBad_val (by decide)) srcBad_no
  · simp [intEntry]
  · simp [intEntry, ty32]

theorem decodes_callX : Decodes (.callX k d a) := by
  refine decodes_regs rfl rfl ?_ rfl rfl ?_ (dstBad_val (by decide)) (srcBad_val (by decide)) srcBad_no srcBad_no
  · simp [intEntry]
  · simp [intEntry, ty32]

theorem decodes_ret : Decodes (.ret k a) := by
  refine decodes_regs rfl rfl ?_ rfl rfl ?_ dstBad_no (srcBad_val (by decide)) srcBad_no srcBad_no
  · simp [intEntry]
  · simp [intEntry, ty32]

theorem decodes_exit : Decodes (.exit k) := by
  refine decodes_regs rfl rfl rfl rfl rfl ?_ dstBad_no srcBad_no srcBad_no srcBad_no
  simp [intEntry, ty32]

theorem decodes_lprev {b : Option Opd} {t : IntTy} (h : (Instr.lprev k d a b t).wf = true) : Decodes (.lprev k d a b t) :=
    by
  match b with
  | none =>
    refine decodes_regs rfl rfl ?_ h rfl ?_ (dstBad_val (IntTy.words_le _)) (srcBad_val (IntTy.words_le _)) srcBad_no
      srcBad_no
    · simp [intEntry]
    · simp [intEntry, allTy]
  | some (.src b) =>
    refine decodes_regs rfl rfl ?_ h rfl ?_ (dstBad_val (IntTy.words_le _)) (srcBad_val (IntTy.words_le _))
      (srcBad_val (IntTy.words_le _)) srcBad_no
    · simp [intEntry]
    · simp [intEntry, allTy]
  | some (.lit v) =>
    refine decodes_lit rfl rfl ?_ h rfl ?_ (dstBad_val (IntTy.words_le _)) (srcBad_val (IntTy.words_le _))
    · simp [intEntry, ity_boolExt h]
    · simp [intEntry, allTy]

section
variable {op : ScanOp} {e : Bool}

theorem scan_op : (0#1 ++ BitVec.ofBool e ++ op.code).setWidth 3 = op.code := BitVec.setWidth_append_eq_right
theorem scan_excl : (0#1 ++ BitVec.ofBool e ++ op.code).getLsbD 3 = e :=
  bit_of_field (field_left (field_right field_all le_rfl))
theorem scan_bit4 : (0#1 ++ BitVec.ofBool e ++ op.code).getLsbD 4 = false := bit_of_field
    (field_left (field_left field_all))

theorem decodes_lscan {x : IUn} (h : (Instr.lscan op e x).wf = true) : Decodes (.lscan op e x) := by
  have hs : x.sat = true → op = .add := by simpa [Instr.wf, imp_iff_not_or] using h
  refine decodes_iun (.lscan op e) rfl rfl ?_ h ?_ ?_ rfl (IntTy.words_le _)
  · simp [encIUn, scan_op, scan_excl, -BitVec.getLsbD_eq_getElem]
  · simpa [encIUn, scan_op] using hs
  · simp [encIUn, scan_op, scan_bit4, -BitVec.getLsbD_eq_getElem]

theorem decodes_lred {x : IUn} (h : (Instr.lred op x).wf = true) : Decodes (.lred op x) := by
  have hs : x.sat = true → op = .add := by simpa [Instr.wf, imp_iff_not_or] using h
  have hm : (op.code.setWidth 5).toNat < 8 := by simp; omega
  refine decodes_iun (.lred op) rfl rfl ?_ h ?_ ?_ rfl (IntTy.words_le _)
  · simp [encIUn]
  · simpa [encIUn] using hs
  · simpa [encIUn] using hm
end

theorem decodes_vote {op : VoteOp} {x : IUn} (h : (Instr.vote op x).wf = true) : Decodes (.vote op x) := by
  refine decodes_iun (.vote op) rfl rfl ?_ h ?_ ?_ rfl ?_
  · simp [encIUn]
  · simpa [Instr.wf] using h
  · simp [encIUn]
  · split
    · decide
    · exact IntTy.words_le _

theorem decodes_elect : Decodes (.elect k d) := by
  refine decodes_regs rfl rfl ?_ rfl rfl ?_ (dstBad_val (by decide)) srcBad_no srcBad_no srcBad_no
  · simp [intEntry]
  · simp [intEntry, ty32]

/-- The second immediate of REP: the step and the fields it is added to. -/
def repX (x : RepX) : BitVec 8 :=
  (0 : BitVec 1) ++ x.step ++ BitVec.ofBool x.ec ++ BitVec.ofBool x.eb ++ BitVec.ofBool x.ea ++ BitVec.ofBool x.ed

section
variable {x : RepX} {t : IntTy} {s : Bool} {p : BitVec 7}

theorem repX_step : (intX t s p (repX x)).extractLsb' 4 3 = x.step :=
  field_right (field_left (field_left (field_left (field_left (field_right field_all le_rfl))))) (by decide)
theorem repX_ec : (intX t s p (repX x)).getLsbD 3 = x.ec :=
  bit_of_field (field_right (field_left (field_left (field_left (field_right field_all le_rfl)))) (by decide))
theorem repX_eb : (intX t s p (repX x)).getLsbD 2 = x.eb :=
  bit_of_field (field_right (field_left (field_left (field_right field_all le_rfl))) (by decide))
theorem repX_ea : (intX t s p (repX x)).getLsbD 1 = x.ea :=
  bit_of_field (field_right (field_left (field_right field_all le_rfl)) (by decide))
theorem repX_ed : (intX t s p (repX x)).getLsbD 0 = x.ed := bit_of_field
    (field_right (field_right field_all le_rfl) (by decide))
theorem repX_bit7 : (intX t s p (repX x)).getLsbD 7 = false :=
  bit_of_field (field_right (field_left (field_left (field_left (field_left (field_left field_all))))) (by decide))
/-- REP has no type and no saturation. -/
theorem intX_rep_rest {q : BitVec 8} : (intX .i32 false p q).extractLsb' 15 4 = 0 :=
  field_left (field_left (x := IntTy.code .i32 ++ BitVec.ofBool false) (field_all (x := 0#4)))

theorem decodes_rep (h : (Instr.rep x).wf = true) : Decodes (.rep x) := by
  obtain ⟨⟨hlo, hhi⟩, hstep⟩ : (1 ≤ x.n.toNat ∧ x.n.toNat ≤ 32) ∧ (x.ec || x.eb || x.ea || x.ed) = (x.step != 0) := by
    simpa [Instr.wf] using h
  have henc : encodeRaw (.rep x) = some (mkRaw 0x3F 0 0 0 0 (.regs 0 0 (intX .i32 false x.n (repX x)))) := rfl
  refine decodes_regs henc rfl ?_ h rfl ?_ dstBad_no srcBad_no srcBad_no srcBad_no
  · simp [-BitVec.getLsbD_eq_getElem, eRep, repX_step, repX_ec, repX_eb, repX_ea, repX_ed]
  · simp [-BitVec.getLsbD_eq_getElem, eRep, repX_step, repX_ec, repX_eb, repX_ea, repX_ed, repX_bit7, intX_rep_rest, hstep]
    omega
end

end

/-! ## The floating-point class extension (02 Table 2.5, 04 Table 4.3) -/

section
variable {t : FpTy} {r : Rnd} {z : Bool} {ty2 : BitVec 4} {op : BitVec 8} {k : BitVec 3} {m : BitVec 5}
  {d a b c : BitVec 7} {e : Bool} {v : BitVec 32}

@[simp] theorem ftyCode_fpX : (mkRaw op k m d a (.regs b c (fpX t r z ty2))).ftyCode = t.code :=
  field_left (field_left (field_left (field_left field_all)))
@[simp] theorem rnd_fpX : (mkRaw op k m d a (.regs b c (fpX t r z ty2))).rnd = r.code :=
  field_left (field_left (field_left (field_right field_all le_rfl)))
@[simp] theorem ftz_fpX : (mkRaw op k m d a (.regs b c (fpX t r z ty2))).ftz = z :=
  bit_of_field (field_left (field_left (field_right field_all le_rfl)))
@[simp] theorem ty2_fpX : (mkRaw op k m d a (.regs b c (fpX t r z ty2))).ty2 = ty2 := field_left
  (field_right field_all le_rfl)
@[simp] theorem imm8_fpX : (mkRaw op k m d a (.regs b c (fpX t r z ty2))).imm8 = 0 := field_right field_all le_rfl
@[simp] theorem fty_fpX : (mkRaw op k m d a (.regs b c (fpX t r z ty2))).fty = t := by simp [Raw.fty]
@[simp] theorem rmode_fpX : (mkRaw op k m d a (.regs b c (fpX t r z ty2))).rmode = r := by simp [Raw.rmode]

@[simp] theorem rnd_lit : (mkRaw op k m d a (.lit e v)).rnd = 0 := by simp [Raw.rnd]
@[simp] theorem ftz_lit : (mkRaw op k m d a (.lit e v)).ftz = false := by simp [Raw.ftz]
@[simp] theorem ty2_lit : (mkRaw op k m d a (.lit e v)).ty2 = 0 := by simp [Raw.ty2]
@[simp] theorem rmode_lit : (mkRaw op k m d a (.lit e v)).rmode = .rne := by simp [Raw.rmode, Rnd.ofCode]

/-- A literal is of FP64 with the extension bit, else of FP32 (02 Table 2.6). -/
theorem ftyCode_lit (h : (t == .f32 || t == .f64) = true) : (mkRaw op k m d a (.lit (t == .f64) v)).ftyCode = t.code := by
  cases t with
  | f32 | f64 => rfl
  | _ => cases h
theorem fty_lit (h : (t == .f32 || t == .f64) = true) : (mkRaw op k m d a (.lit (t == .f64) v)).fty = t := by
  rw [Raw.fty, ftyCode_lit h, FpTy.ofCode_code, Option.getD_some]

/-- A class extension of zeros is that of FP32, rounded to nearest. -/
theorem fpX_f32 : fpX .f32 .rne false 0 = 0#19 := by decide
end

@[simp] theorem FpTy.ofCode_0 : FpTy.ofCode 0#3 = some .f32 := rfl
@[simp] theorem FpTy.ofCode_1 : FpTy.ofCode 1#3 = some .f64 := rfl
@[simp] theorem FpTy.ofCode_4 : FpTy.ofCode 4#3 = some .f16x2 := rfl
@[simp] theorem FpTy.ofCode_5 : FpTy.ofCode 5#3 = some .bf16x2 := rfl
@[simp] theorem Rnd.ofCode_0 : Rnd.ofCode 0#3 = some .rne := rfl
@[simp] theorem Rnd.code_rne : Rnd.rne.code = 0#3 := rfl

/-! ## Floating-point instructions -/

section
variable {op : BitVec 8} {m : BitVec 5} {modOk : Bool} {ty : FpTy → Bool} {rounds ftz : Bool} {dw : Nat} {i : Option Instr}

theorem fpEntry_passes {w : Raw} {lit : LitRule} {d a b c : Role} {t : FpTy} {r : Rnd} {t2 : Bool} (hm : modOk = true)
    (ht : w.ftyCode = t.code) (hty : ty t = true) (hr : w.rnd = r.code) (hrounds : r = .rne ∨ rounds = true)
    (hz : (w.ftz && !ftz) = false) (h8 : w.imm8 = 0) (h2 : (!t2 && w.ty2 != 0) = false) :
    Passes (fpEntry w modOk ty rounds ftz t2 lit d a b c i).chk := by
  have hrnd : (r.code != 0 && !rounds) = false := by
    rcases hrounds with rfl | rfl
    · rfl
    · exact Bool.and_false _
  simp only [fpEntry, hm, ht, hty, hr, hrnd, hz, h8, h2, FpTy.ofCode_code, Rnd.ofCode_code, passes_cons, passes_nil]
  simp

theorem fbin_encFBin {x : FBin} (h : x.litOk = true) : (encFBin op x m).fbin = x := by
  obtain ⟨k, d, a, b, t, r, z⟩ := x
  cases b with
  | src b => simp [encFBin, Raw.fbin]
  | lit v =>
    obtain ⟨⟨ht, hr⟩, hz⟩ : ((t == .f32 || t == .f64) = true ∧ r = .rne) ∧ z = false := by simpa [FBin.litOk] using h
    simp [encFBin, Raw.fbin, fty_lit ht, hr, hz]

theorem decodes_fbin (mk : FBin → Instr) {x : FBin} (henc : encodeRaw (mk x) = some (encFBin op x m))
    (hent : entry .free (encFBin op x m) = some (eFBin (encFBin op x m) modOk ty rounds dw i))
    (hi : i = some (mk (encFBin op x m).fbin)) (hwf : (mk x).wf = true) (hl : x.litOk = true)
    (hr : x.r = .rne ∨ rounds = true) (hm : modOk = true) (hty : ty x.t = true) (hd : dw ≤ 9) : Decodes (mk x) := by
  rw [fbin_encFBin hl] at hi
  obtain ⟨k, d, a, b, t, r, z⟩ := x
  cases b with
  | src b =>
    exact decodes_regs henc hent hi hwf rfl
      (fpEntry_passes hm ftyCode_fpX hty rnd_fpX hr (Bool.and_false _) imm8_fpX (by simp [encFBin])) (dstBad_val hd)
      (srcBad_val (FpTy.words_le _)) (srcBad_val (FpTy.words_le _)) srcBad_no
  | lit v =>
    obtain ⟨⟨ht, -⟩, -⟩ : ((t == .f32 || t == .f64) = true ∧ r = .rne) ∧ z = false := by simpa [FBin.litOk] using hl
    exact decodes_lit henc hent hi hwf rfl
      (fpEntry_passes (r := .rne) hm (ftyCode_lit ht) hty rnd_lit (.inl rfl) (Bool.and_false _) imm8_lit
          (by simp [encFBin])) (dstBad_val hd)
      (srcBad_val (FpTy.words_le _))

theorem decodes_fun (mk : FUn → Instr) {x : FUn} (henc : encodeRaw (mk x) = some (encFUn op x m))
    (hent : entry .free (encFUn op x m) = some (eFUn (encFUn op x m) modOk ty rounds ftz dw i))
    (hi : i = some (mk (encFUn op x m).fun_)) (hwf : (mk x).wf = true)
    (hr : x.r = .rne ∨ rounds = true) (hz : (x.ftz && !ftz) = false) (hm : modOk = true) (hty : ty x.t = true)
        (hd : dw ≤ 9) :
    Decodes (mk x) := by
  have hx : (encFUn op x m).fun_ = x := by simp [encFUn, Raw.fun_]
  rw [hx] at hi
  exact decodes_regs henc hent hi hwf rfl
    (fpEntry_passes hm ftyCode_fpX hty rnd_fpX hr (by rwa [encFUn, ftz_fpX]) imm8_fpX (by simp [encFUn])) (dstBad_val hd)
    (srcBad_val (FpTy.words_le _)) srcBad_no srcBad_no

theorem decodes_fter (mk : FTer → Instr) {x : FTer} {aw bw cw : Nat} (henc : encodeRaw (mk x) = some (encFTer op x m))
    (hent : entry .free (encFTer op x m) = some (fpEntry (encFTer op x m) modOk ty true true false .no (.val dw) (.val aw)
        (.val bw) (.val cw) i))
    (hi : i = some (mk (encFTer op x m).fter)) (hwf : (mk x).wf = true) (hm : modOk = true) (hty : ty x.t = true)
    (hd : dw ≤ 9) (ha : aw ≤ 9) (hb : bw ≤ 9) (hc : cw ≤ 9) : Decodes (mk x) := by
  have hx : (encFTer op x m).fter = x := by simp [encFTer, Raw.fter]
  rw [hx] at hi
  exact decodes_regs henc hent hi hwf rfl
    (fpEntry_passes hm ftyCode_fpX hty rnd_fpX (.inr rfl) (Bool.and_false _) imm8_fpX (by simp [encFTer])) (dstBad_val hd)
    (srcBad_val ha) (srcBad_val hb) (srcBad_val hc)
end

section
variable {k : BitVec 3} {d : Dst} {a b : Src} {r : Rnd} {z : Bool}

theorem decodes_cvt {dty sty : NumTy} (h : (Instr.cvt k d a dty sty r z).wf = true) : Decodes (.cvt k d a dty sty r z) := by
  match dty, sty with
  | .fp t, s =>
    obtain ⟨ht, hs⟩ : t.scalar = true ∧ s.lane = true := by simpa [Instr.wf] using h
    refine decodes_regs rfl rfl ?_ h rfl ?_ (dstBad_val ?_) (srcBad_val ?_) srcBad_no srcBad_no
    · simp [eCvt, fpEntry]
    · cases s with
      | fp f => simp [eCvt, fpEntry, ht, show f.scalar = true from hs]
      | int f => simp [eCvt, fpEntry, ht]
    · simp [NumTy.words_le]
    · simp [NumTy.words_le]
  | .int t, .fp s =>
    have hs : s.scalar = true := h
    refine decodes_regs rfl rfl ?_ h rfl ?_ (dstBad_val ?_) (srcBad_val ?_) srcBad_no srcBad_no
    · simp [eCvt, fpEntry]
    · simp [eCvt, fpEntry, hs]
    · simp [NumTy.words_le]
    · simp [NumTy.words_le]
  | .int _, .int _ => cases h

theorem decodes_fpackPack {bf w : Bool} : Decodes (.fpackPack k d a b bf w r z) := by
  refine decodes_regs rfl rfl ?_ rfl rfl ?_ (dstBad_val ?_) (srcBad_val ?_) (srcBad_val ?_) srcBad_no
  · cases bf <;> cases w <;> simp [eFpack, fpEntry]
  · cases bf <;> cases w <;> simp [eFpack, fpEntry]
  · decide
  · exact ite_words_le (by decide) (by decide)
  · exact ite_words_le (by decide) (by decide)

theorem decodes_fpackUnpack {hi w bf : Bool} : Decodes (.fpackUnpack hi k d a w bf z) := by
  cases hi with
  | false =>
    refine decodes_regs rfl rfl ?_ rfl rfl ?_ (dstBad_val (FpTy.words_le _)) (srcBad_val (by decide)) srcBad_no srcBad_no
    · cases w <;> cases bf <;> simp [eFpack, fpEntry]
    · cases w <;> cases bf <;> simp [eFpack, fpEntry]
  | true =>
    refine decodes_regs rfl rfl ?_ rfl rfl ?_ (dstBad_val (FpTy.words_le _)) (srcBad_val (by decide)) srcBad_no srcBad_no
    · cases w <;> cases bf <;> simp [eFpack, fpEntry]
    · cases w <;> cases bf <;> simp [eFpack, fpEntry]

theorem decodes_fstr : Decodes (.fstr k d) := by
  refine decodes_regs (x := fpX .f32 .rne false 0) rfl rfl ?_ rfl rfl ?_ (dstBad_val (by decide)) srcBad_no srcBad_no
    srcBad_no
  · simp [fpEntry]
  · simp [fpEntry]

/-- A literal of FSTW stands for source A. -/
theorem decodes_fstw {op : FstwOp} {o : Opd} : Decodes (.fstw op k d o) := by
  cases o with
  | src a =>
    refine decodes_regs (x := fpX .f32 .rne false 0) rfl rfl ?_ rfl rfl ?_ (dstBad_val (by decide)) (srcBad_val (by decide))
      srcBad_no srcBad_no
    · simp [fpEntry]
    · simp [fpEntry]
  | lit v =>
    refine decodes_lit rfl rfl ?_ rfl rfl ?_ (dstBad_val (by decide)) srcBad_no
    · simp [fpEntry]
    · exact fpEntry_passes (t := .f32) (r := .rne) (by simp) rfl rfl rnd_lit (.inl rfl) (by simp) imm8_lit (by simp)
end

/-! ## The memory class extension (02 Table 2.5, 06 Table 6.4) -/

section
variable {x : MemX} {sx : Bool}

theorem memX_space : (memX x sx).extractLsb' 16 3 = x.space.code :=
  field_left (field_left (field_left (field_left (field_left (field_left field_all)))))
theorem memX_req : (memX x sx).extractLsb' 13 3 = x.req.code :=
  field_left (field_left (field_left (field_left (field_left (field_right field_all le_rfl)))))
theorem memX_scope : (memX x sx).extractLsb' 10 3 = x.scope.code :=
  field_left (field_left (field_left (field_left (field_right field_all le_rfl))))
theorem memX_order : (memX x sx).extractLsb' 8 2 = x.order.code :=
  field_left (field_left (field_left (field_right field_all le_rfl)))
theorem memX_size : (memX x sx).extractLsb' 5 3 = x.size.code := field_left (field_left (field_right field_all le_rfl))
theorem memX_sx : (memX x sx).getLsbD 4 = sx := bit_of_field (field_left (field_right field_all le_rfl))
theorem memX_rest : (memX x sx).extractLsb' 0 4 = 0 := field_right field_all le_rfl
end

section
variable {op : BitVec 8} {k : BitVec 3} {m : BitVec 5} {d a b : BitVec 7} {x : MemX} {sx : Bool}

@[simp] theorem memx_encMem : (encMem op k m d a b x sx).memx = some x := by
  simp [Raw.memx, encMem, Raw.x3, memX_space, memX_req, memX_scope, memX_order, memX_size]
@[simp] theorem size_encMem : (encMem op k m d a b x sx).size = x.size := by
  simp [Raw.size, encMem, Raw.x3, memX_size]

/-- A word with the memory class extension. -/
theorem decodes_mem {i : Instr} {modOk : Bool} {ok : MemX → Bool} {sxOk : Bool} {rd ra rb : Role} {mk : MemX → Instr}
    (henc : encodeRaw i = some (encMem op k m d a b x sx))
    (hent : entry .free (encMem op k m d a b x sx) = some (memEntry (encMem op k m d a b x sx) modOk ok sxOk rd ra rb .no
        mk))
    (hi : mk x = i) (hwf : i.wf = true) (hm : modOk = true) (hok : ok x = true) (hsx : (!sxOk && sx) = false)
    (hd : Passes (dstBad .free rd d)) (ha : Passes (srcBad .free ra a)) (hb : Passes (srcBad .free rb b)) : Decodes i := by
  refine decodes_regs henc hent ?_ hwf rfl ?_ hd ha hb srcBad_no
  · simp only [memEntry, memx_encMem, Option.map_some, hi]
  · have hx : (encMem op k m d a b x sx).x = memX x sx := rfl
    simp only [memEntry, memx_encMem, hx, memX_rest, memX_sx, hm, hok, hsx]
    simp

theorem Size.words_le {z : Size} (h : z ≠ .b512) : z.words ≤ 9 := by
  cases z with
  | b512 => exact absurd rfl h
  | _ => decide

/-- The value of a 128-bit or 256-bit access stands in a window, which the free context never refuses. -/
theorem dstBad_memValue {v : Dst} (hz : x.size ≠ .b512) (hv : (v.isWin || !(x.size == .b128 || x.size == .b256)) = true) :
    Passes (dstBad .free (eMemValue (encMem op k m d a b x sx)) v.code) := by
  simp only [eMemValue, size_encMem]
  split
  · cases v with
    | w n => exact dstBad_win (Size.words_le hz)
    | _ => simp_all [Dst.isWin]
  · exact dstBad_val (Size.words_le hz)

theorem srcBad_memValue {v : Src} (hz : x.size ≠ .b512) (hv : (v.isWin || !(x.size == .b128 || x.size == .b256)) = true) :
    Passes (srcBad .free (eMemValue (encMem op k m d a b x sx)) v.code) := by
  simp only [eMemValue, size_encMem]
  split
  · cases v with
    | w n => exact srcBad_win (Size.words_le hz)
    | _ => simp_all [Src.isWin]
  · exact srcBad_val (Size.words_le hz)

/-- A value of at most 64 bits stands at any level. -/
theorem narrow_value {z : Size} {win : Bool} (h : [Size.b16, .b32, .b64].contains z = true) :
    z ≠ .b512 ∧ (win || !(z == .b128 || z == .b256)) = true := by
  cases z with
  | b16 | b32 | b64 => exact ⟨by decide, Bool.or_true _⟩
  | _ => cases h

theorem dstBad_narrow {v : Dst} (h : [Size.b16, .b32, .b64].contains x.size = true) :
    Passes (dstBad .free (eMemValue (encMem op k m d a b x sx)) v.code) :=
  dstBad_memValue (narrow_value (win := v.isWin) h).1 (narrow_value h).2

theorem srcBad_narrow {v : Src} (h : [Size.b16, .b32, .b64].contains x.size = true) :
    Passes (srcBad .free (eMemValue (encMem op k m d a b x sx)) v.code) :=
  srcBad_memValue (narrow_value (win := v.isWin) h).1 (narrow_value h).2
end

/-- The sizes of an add to memory, or of a tolerant load. -/
theorem MemX.addOk_size {x : MemX} {o : Order} {sizes : List Size} (h : x.addOk o sizes = true) : sizes.contains x.size =
    true :=
  (Bool.and_eq_true_iff.mp h).2

section
variable {k : BitVec 3} {d : Dst} {a b : Src} {w v : BitVec 5} {x : MemX}

theorem decodes_vld (h : (Instr.vld k w a x).wf = true) : Decodes (.vld k w a x) :=
  decodes_mem rfl rfl (by simp [encMem]) h rfl h rfl (dstBad_win (by decide)) (srcBad_val (by decide)) srcBad_no

theorem decodes_vst (h : (Instr.vst k a w x).wf = true) : Decodes (.vst k a w x) :=
  decodes_mem rfl rfl (by simp [encMem]) h rfl h rfl dstBad_no (srcBad_val (by decide)) (srcBad_win (by decide))

theorem decodes_ld {sx : Bool} (h : (Instr.ld k d a x sx).wf = true) : Decodes (.ld k d a x sx) := by
  obtain ⟨⟨⟨hok, hz⟩, hsx⟩, hv⟩ : ((x.loadOk = true ∧ x.size ≠ .b512) ∧ (!sx || x.size == .b8 || x.size == .b16) = true) ∧
      (d.isWin || !(x.size == .b128 || x.size == .b256)) = true := by
    simpa [Instr.wf] using h
  have hx : (encMem 0x70 k 0 d.code a.code 0 x sx).x.getLsbD 4 = sx := memX_sx
  refine decodes_mem rfl rfl ?_ h rfl ?_ rfl (dstBad_memValue hz hv) (srcBad_val (by decide)) srcBad_no
  · simp only [hx]
    simp [encMem]
  · simp only [hx, hok, hsx]
    simp [hz]

theorem decodes_st (h : (Instr.st k a b x).wf = true) : Decodes (.st k a b x) := by
  obtain ⟨⟨hok, hz⟩, hv⟩ : (x.storeOk = true ∧ x.size ≠ .b512) ∧
      (b.isWin || !(x.size == .b128 || x.size == .b256)) = true := by
    simpa [Instr.wf] using h
  refine decodes_mem rfl rfl ?_ h rfl ?_ rfl dstBad_no (srcBad_val (by decide)) (srcBad_memValue hz hv)
  · simp [encMem]
  · simp [hok, hz]

theorem decodes_ldv (h : (Instr.ldv k d a x).wf = true) : Decodes (.ldv k d a x) := by
  have hz : x.size = .b32 ∨ x.size = .b64 := by simp_all [Instr.wf]
  exact decodes_mem rfl rfl (by simp [encMem]) h rfl h rfl (dstBad_narrow (by simp [hz])) (srcBad_val (by decide)) srcBad_no

theorem decodes_stv (h : (Instr.stv k a b x).wf = true) : Decodes (.stv k a b x) := by
  have hz : x.size = .b32 ∨ x.size = .b64 := by simp_all [Instr.wf]
  exact decodes_mem rfl rfl (by simp [encMem]) h rfl h rfl dstBad_no (srcBad_val (by decide)) (srcBad_narrow (by simp [hz]))

/-- The instruction that an LDTOL word names. -/
def ldtolForm (r : Raw) (isV det : Bool) (x : MemX) : Instr :=
  match isV, det with
  | false, false => .ldtol r.k r.dst r.srcA r.srcB x
  | false, true => .ldtolDet r.k r.dst r.srcA x
  | true, false => .ldtolV r.k r.wD r.srcA r.srcB x
  | true, true => .ldtolDetV r.k r.wD r.srcA x

/-- The four forms of LDTOL, by the modifier's two bits: whether the values are VLF, and whether there is no fallback. -/
theorem entry_ldtol {m : BitVec 5} {d a b : BitVec 7} {isV det : Bool} (hv : m.getLsbD 1 = isV) (hdet : m.getLsbD 0 = det) :
    let r := encMem 0x74 k m d a b x
    entry .free r = some (memEntry r (m.toNat < 4) (fun x => x.addOk .acq (if isV then [.b32] else [.b16, .b32, .b64]))
      false
      (if isV then .win 2 else eMemValue r) (.val 2) (if det then .no else .val 2) .no
      (ldtolForm r isV det)) := by
  subst hv hdet
  rfl

theorem decodes_ldtol (h : (Instr.ldtol k d a b x).wf = true) : Decodes (.ldtol k d a b x) :=
  decodes_mem rfl (entry_ldtol (isV := false) (det := false) rfl rfl) (by simp [encMem, ldtolForm]) h rfl h rfl
    (dstBad_narrow (MemX.addOk_size h)) (srcBad_val (by decide))
    (srcBad_val (by decide))

theorem decodes_ldtolDet (h : (Instr.ldtolDet k d a x).wf = true) : Decodes (.ldtolDet k d a x) :=
  decodes_mem rfl (entry_ldtol (isV := false) (det := true) rfl rfl) (by simp [encMem, ldtolForm]) h rfl h rfl
    (dstBad_narrow (MemX.addOk_size h)) (srcBad_val (by decide)) srcBad_no

theorem decodes_ldtolV (h : (Instr.ldtolV k w a b x).wf = true) : Decodes (.ldtolV k w a b x) :=
  decodes_mem rfl (entry_ldtol (isV := true) (det := false) rfl rfl) (by simp [encMem, ldtolForm]) h rfl h rfl
    (dstBad_win (by decide)) (srcBad_val (by decide)) (srcBad_val (by decide))

theorem decodes_ldtolDetV (h : (Instr.ldtolDetV k w a x).wf = true) : Decodes (.ldtolDetV k w a x) :=
  decodes_mem rfl (entry_ldtol (isV := true) (det := true) rfl rfl) (by simp [encMem, ldtolForm]) h rfl h rfl
    (dstBad_win (by decide)) (srcBad_val (by decide)) srcBad_no

theorem decodes_stadd (h : (Instr.stadd k a b x).wf = true) : Decodes (.stadd k a b x) :=
  decodes_mem rfl rfl (by simp [encMem]) h rfl h rfl dstBad_no (srcBad_val (by decide)) (srcBad_narrow (MemX.addOk_size h))

theorem decodes_staddV (h : (Instr.staddV k a w x).wf = true) : Decodes (.staddV k a w x) :=
  decodes_mem rfl rfl (by simp [encMem]) h rfl h rfl dstBad_no (srcBad_val (by decide)) (srcBad_win (by decide))

theorem decodes_drain : Decodes (.drain k d) :=
  decodes_mem rfl rfl (by simp [encMem]) rfl rfl rfl rfl (dstBad_val (by decide)) srcBad_no srcBad_no

theorem decodes_drainR : Decodes (.drainR k d a) :=
  decodes_mem rfl rfl (by simp [encMem]) rfl rfl rfl rfl (dstBad_val (by decide)) (srcBad_val (by decide)) srcBad_no

theorem decodes_pfx {r : Req} (h : (Instr.pfx k a r).wf = true) : Decodes (.pfx k a r) :=
  decodes_mem (x := gx r .b8) rfl rfl (by simp [encMem, gx]) h rfl h rfl dstBad_no (srcBad_val (by decide)) srcBad_no

theorem decodes_invlLine : Decodes (.invlLine k a) :=
  decodes_mem rfl rfl (by simp [encMem]) rfl rfl rfl rfl dstBad_no (srcBad_val (by decide)) srcBad_no

theorem decodes_invlSi : Decodes (.invlSi k) :=
  decodes_mem rfl rfl (by simp [encMem]) rfl rfl rfl rfl dstBad_no srcBad_no srcBad_no

theorem decodes_fence {op : FenceOp} {sc : Scope} : Decodes (.fence op k sc) := by
  refine decodes_regs rfl rfl ?_ rfl rfl ?_ dstBad_no srcBad_no srcBad_no srcBad_no
  · simp [Raw.x3, memX_scope]
  · have hx : (encMem 0x79 k op.code 0 0 0 ⟨.l, .own, sc, .relaxed, .b8⟩).memx = some ⟨.l, .own, sc, .relaxed, .b8⟩ :=
    memx_encMem
    simp [encMem] at hx
    simp [memEntry, memX_rest, memX_sx, hx, -BitVec.getLsbD_eq_getElem]

theorem decodes_ldbt (h : (Instr.ldbt k d a x).wf = true) : Decodes (.ldbt k d a x) :=
  decodes_mem rfl rfl (by simp [encMem]) h rfl h rfl (dstBad_val (by decide)) (srcBad_val (by decide)) srcBad_no

theorem decodes_stbt (h : (Instr.stbt k a b x).wf = true) : Decodes (.stbt k a b x) :=
  decodes_mem rfl rfl (by simp [encMem]) h rfl h rfl dstBad_no (srcBad_val (by decide)) (srcBad_val (by decide))

theorem decodes_mapq : Decodes (.mapq k d a) :=
  decodes_mem rfl rfl (by simp [encMem]) rfl rfl rfl rfl (dstBad_val (by decide)) (srcBad_val (by decide)) srcBad_no
end

/-! ## VLF (05 Table 5.9) -/

section
variable {op : BitVec 8} {k : BitVec 3} {d : Dst} {a : Src} {u v w y : BitVec 5}

theorem decodes_vbin (mk : VBin → Instr) {x : VBin} (henc : encodeRaw (mk x) = some (encVBin op x))
    (hent : entry .free (encVBin op x) = some (vlfEntry (encVBin op x) true (.win 2) (.win 2) (.win 2) .no
      (some (mk (encVBin op x).vbin))))
    (hwf : (mk x).wf = true) : Decodes (mk x) := by
  refine decodes_regs henc hent ?_ hwf rfl ?_ (dstBad_win (by decide)) (srcBad_win (by decide)) (srcBad_win (by decide))
    srcBad_no
  · simp [vlfEntry, encVBin, Raw.vbin]
  · simp [vlfEntry, encVBin]

theorem decodes_vun (mk : VUn → Instr) {x : VUn} {m : BitVec 5} {modOk : Bool}
    (henc : encodeRaw (mk x) = some (encVUn op x m))
    (hent : entry .free (encVUn op x m) = some (vlfEntry (encVUn op x m) modOk (.win 2) (.win 2) .no .no
      (some (mk (encVUn op x m).vun)))) (hm : modOk = true)
    (hwf : (mk x).wf = true) : Decodes (mk x) := by
  refine decodes_regs henc hent ?_ hwf rfl ?_ (dstBad_win (by decide)) (srcBad_win (by decide)) srcBad_no srcBad_no
  · simp [vlfEntry, encVUn, Raw.vun]
  · simp [vlfEntry, encVUn, hm]

theorem decodes_vfma : Decodes (.vfma k u v w y) := by
  refine decodes_regs rfl rfl ?_ rfl rfl ?_ (dstBad_win (by decide)) (srcBad_win (by decide)) (srcBad_win (by decide))
    (srcBad_win (by decide))
  · simp [vlfEntry]
  · simp [vlfEntry]

theorem decodes_vcmp {p : FPred} : Decodes (.vcmp p k d u v) := by
  refine decodes_regs rfl rfl ?_ rfl rfl ?_ (dstBad_val (by decide)) (srcBad_win (by decide)) (srcBad_win (by decide))
    srcBad_no
  · simp [vlfEntry]
  · simp [vlfEntry]

section
variable {t : NumTy} {r : Rnd}

/-- VCVT's extension: the type, and a rounding mode, which a conversion to VLF does not have (05 R150). -/
def vcvtX (r : Rnd) (t : NumTy) : BitVec 19 := (0 : BitVec 12) ++ r.code ++ t.code

theorem vcvtX_ty : (vcvtX r t).extractLsb' 0 4 = t.code := field_right field_all le_rfl
theorem vcvtX_rnd : (vcvtX r t).extractLsb' 4 3 = r.code := field_left (field_right field_all le_rfl)
theorem vcvtX_bit7 : (vcvtX r t).getLsbD 7 = false :=
  bit_of_field (field_left (field_left (s := 0) (f := 0) (by decide)))
theorem vcvtX_rest : (vcvtX r t).extractLsb' 8 11 = 0 := field_left (field_left (s := 1) (f := 0) (by decide))
theorem vcvtX_rne : vcvtX .rne t = t.code.setWidth 19 := by
  cases t with
  | fp t => cases t <;> rfl
  | int t => cases t <;> rfl

theorem decodes_vcvtTov (h : (Instr.vcvtTov k w a t).wf = true) : Decodes (.vcvtTov k w a t) := by
  have hl : t.lane = true := h
  have henc : encodeRaw (.vcvtTov k w a t) = some (mkRaw 0x69 k 0 (winCode w) a.code (.regs 0 0 (vcvtX .rne t))) := by
    rw [vcvtX_rne]; rfl
  refine decodes_regs henc rfl ?_ h rfl ?_ (dstBad_win (by decide)) (srcBad_val ?_) srcBad_no srcBad_no
  · simp [eVcvt, Raw.x3, vcvtX_ty, vcvtX_rnd, Option.filter, hl]
  · simp [eVcvt, Raw.x3, vcvtX_ty, vcvtX_rnd, vcvtX_bit7, vcvtX_rest, Option.filter, hl, -BitVec.getLsbD_eq_getElem]
  · simp [vcvtX_ty, Option.filter, hl, NumTy.words_le]

theorem decodes_vcvtFromv (h : (Instr.vcvtFromv k d w t r).wf = true) : Decodes (.vcvtFromv k d w t r) := by
  have hl : t.lane = true := h
  refine decodes_regs (x := vcvtX r t) rfl rfl ?_ h rfl ?_ (dstBad_val ?_) (srcBad_win (by decide)) srcBad_no srcBad_no
  · simp [eVcvt, Raw.x3, vcvtX_ty, vcvtX_rnd, Option.filter, hl]
  · simp [eVcvt, Raw.x3, vcvtX_ty, vcvtX_rnd, vcvtX_bit7, vcvtX_rest, Option.filter, hl, -BitVec.getLsbD_eq_getElem]
  · simp [vcvtX_ty, Option.filter, hl, NumTy.words_le]
end

theorem decodes_vexpo : Decodes (.vexpo k d w) := by
  refine decodes_regs rfl rfl ?_ rfl rfl ?_ (dstBad_val (by decide)) (srcBad_win (by decide)) srcBad_no srcBad_no
  · simp [vlfEntry]
  · simp [vlfEntry]

theorem decodes_vlen : Decodes (.vlen k d w) := by
  refine decodes_regs rfl rfl ?_ rfl rfl ?_ (dstBad_val (by decide)) (srcBad_win (by decide)) srcBad_no srcBad_no
  · simp [vlfEntry]
  · simp [vlfEntry]

theorem decodes_vlenBytes : Decodes (.vlenBytes k d w) := by
  refine decodes_regs rfl rfl ?_ rfl rfl ?_ (dstBad_val (by decide)) (srcBad_win (by decide)) srcBad_no srcBad_no
  · simp [vlfEntry]
  · simp [vlfEntry]

theorem decodes_vscale {b : Src} : Decodes (.vscale k v w b) := by
  refine decodes_regs rfl rfl ?_ rfl rfl ?_ (dstBad_win (by decide)) (srcBad_win (by decide)) (srcBad_val (by decide))
    srcBad_no
  · simp [vlfEntry]
  · simp [vlfEntry]

theorem decodes_precr : Decodes (.precr k d) := by
  refine decodes_regs rfl rfl ?_ rfl rfl ?_ (dstBad_val (by decide)) srcBad_no srcBad_no srcBad_no
  · simp [vlfEntry]
  · simp [vlfEntry]

theorem decodes_precw : Decodes (.precw k d a) := by
  refine decodes_regs rfl rfl ?_ rfl rfl ?_ (dstBad_val (by decide)) (srcBad_val (by decide)) srcBad_no srcBad_no
  · simp [vlfEntry]
  · simp [vlfEntry]

theorem decodes_precwLen : Decodes (.precwLen k d a) := by
  refine decodes_regs rfl rfl ?_ rfl rfl ?_ (dstBad_val (by decide)) (srcBad_val (by decide)) srcBad_no srcBad_no
  · simp [vlfEntry]
  · simp [vlfEntry]

end

/-! ## Block transfers and clasps (09 Table 9.5) -/

section
variable {s d : BitVec 3} {sc : Scope} {low : BitVec 10}

theorem blkX_src : (blkX s d sc low).extractLsb' 16 3 = s := field_left (field_left (field_left field_all))
theorem blkX_dst : (blkX s d sc low).extractLsb' 13 3 = d := field_left (field_left (field_right field_all le_rfl))
theorem blkX_scope : (blkX s d sc low).extractLsb' 10 3 = sc.code := field_left (field_right field_all le_rfl)
theorem blkX_low : (blkX s d sc low).extractLsb' 0 10 = low := field_right field_all le_rfl
/-- A part of the low bits. -/
theorem blkX_part {i l : Nat} (h : i + l ≤ 10) : (blkX s d sc low).extractLsb' i l = low.extractLsb' i l := field_right rfl
    h
theorem blkX_bit0 : (blkX s d sc low).getLsbD 0 = low.getLsbD 0 := by
  rw [BitVec.getLsbD_eq_extractLsb', blkX_part (by decide), ← BitVec.getLsbD_eq_extractLsb']
theorem blkX_rest : (blkX s d sc low).extractLsb' 1 9 = low.extractLsb' 1 9 := blkX_part (by decide)
end

section
variable {s d : BitVec 3} {sc : Scope} {cls : Option Space} {tags : Bool}

/-- The low bits of a copy's extension: the clasp's space, and whether the tags go along. -/
def copyLow (cls : Option Space) (tags : Bool) : BitVec 10 := clsCode cls ++ BitVec.ofBool tags ++ (0 : BitVec 6)

theorem copyLow_cls : (blkX s d sc (copyLow cls tags)).extractLsb' 7 3 = clsCode cls := by
  rw [blkX_part (by decide)]; exact field_left (field_left field_all)
theorem copyLow_tags : (blkX s d sc (copyLow cls tags)).getLsbD 6 = tags :=
  bit_of_field (by rw [blkX_part (by decide)]; exact field_left (field_right field_all le_rfl))
theorem copyLow_rest : (blkX s d sc (copyLow cls tags)).extractLsb' 0 6 = 0 := by
  rw [blkX_part (by decide)]; exact field_right field_all le_rfl

theorem toNat_clsCode_le : (clsCode cls).toNat ≤ 4 := by
  cases cls with
  | none => decide
  | some sp => cases sp <;> decide
end

theorem encCopy_eq {op : BitVec 8} {x : CopyX} : encCopy op x = mkRaw op x.k 0 0 x.a.code (.regs x.b.code (sclCode x.n)
    (blkX x.src.code x.dst.code x.scope (copyLow x.cls x.tags))) := rfl

/-- A copy reads the scalars it names (09 Table 9.5). -/
theorem decodes_copy (mk : CopyX → Instr) {op : BitVec 8} {x : CopyX} {n : Nat} {mc : Bool}
    (henc : encodeRaw (mk x) = some (encCopy op x)) (hent : entry .free (encCopy op x) = some
        (eCopy (encCopy op x) n mc mk))
    (hwf : (mk x).wf = true) (hx : x.wf n = true) (hmc : mc = true → x.src ≠ .l ∧ x.dst = .c) : Decodes (mk x) := by
  obtain ⟨hn, hcls⟩ : x.n.toNat + n ≤ 64 ∧ x.cls ≠ some .l := by simpa [CopyX.wf] using hx
  have hle : (clsCode x.cls).toNat ≤ 4 := toNat_clsCode_le
  rw [encCopy_eq] at henc hent
  refine decodes_regs henc hent ?_ hwf rfl ?_ dstBad_no (srcBad_val (by decide)) (srcBad_val (by decide)) (srcBad_scl hn)
  · simp [eCopy, blkEntry, Raw.x3, blkX_src, blkX_dst, blkX_scope, copyLow_cls, copyLow_tags, clsOf_clsCode hcls,
      -BitVec.getLsbD_eq_getElem]
  · simpa [eCopy, blkEntry, Raw.x3, blkX_src, blkX_dst, copyLow_cls, copyLow_rest, hle, -BitVec.extractLsb'_toNat] using hmc

section
variable {k : BitVec 3} {d : Dst} {a b c : Src} {sp : Space} {sc : Scope} {i : Instr} {op : BitVec 8}
  {dc ac bc cc : BitVec 7}

/-- A clasp instruction names the clasp's space, and a scope where it has one. -/
theorem decodes_clasp {hasScope : Bool} {rd ra rb rc : Role} {mk : Space → Instr} (hsp : sp ≠ .l)
    (hsc : hasScope = true ∨ sc = .grp)
    (henc : encodeRaw i = some (mkRaw op k 0 dc ac (.regs bc cc (blkX 0 sp.code sc 0))))
    (hent : let r := mkRaw op k 0 dc ac (.regs bc cc (blkX 0 sp.code sc 0))
      entry .free r = some (eClasp r hasScope rd ra rb rc mk))
    (hi : mk sp = i) (hwf : i.wf = true)
    (hd : Passes (dstBad .free rd dc)) (ha : Passes (srcBad .free ra ac)) (hb : Passes (srcBad .free rb bc))
    (hc : Passes (srcBad .free rc cc)) : Decodes i := by
  have hscope : (!hasScope && sc.code != 0) = false := by
    rcases hsc with rfl | rfl
    · rfl
    · exact Bool.and_false _
  refine decodes_regs henc hent ?_ hwf rfl ?_ hd ha hb hc
  · simp [eClasp, blkEntry, Raw.x3, blkX_dst, Option.filter, hsp, hi]
  · simpa [eClasp, blkEntry, Raw.x3, Raw.low10, blkX_src, blkX_dst, blkX_scope, blkX_low, Option.filter, hsp] using hscope

theorem decodes_bseal : Decodes (.bseal k d) := by
  refine decodes_regs rfl rfl ?_ rfl rfl ?_ (dstBad_val (by decide)) srcBad_no srcBad_no srcBad_no
  · simp [blkEntry]
  · simp [blkEntry]

theorem decodes_bwait {n : BitVec 5} (h : (Instr.bwait k n).wf = true) : Decodes (.bwait k n) := by
  have hn : n.toNat ≤ 16 := of_decide_eq_true h
  refine decodes_regs rfl rfl ?_ h rfl ?_ dstBad_no srcBad_no srcBad_no srcBad_no
  · simp [blkEntry, extractLsb'_setWidth_low]
  · simpa [blkEntry, extractLsb'_setWidth_low, extractLsb'_setWidth_above, -BitVec.extractLsb'_toNat] using hn

/-- CLTEST with a scope acquires: bit 0 says so. -/
theorem decodes_cltest {acq : Option Scope} (h : (Instr.cltest k d a sp acq).wf = true) : Decodes (.cltest k d a sp acq) :=
    by
  have hsp : sp ≠ .l := by simpa [Instr.wf] using h
  cases acq with
  | none =>
    refine decodes_regs rfl rfl ?_ h rfl ?_ (dstBad_val (by decide)) (srcBad_val (by decide)) srcBad_no srcBad_no
    · simp [blkEntry, Raw.x3, blkX_dst, blkX_bit0, Option.filter, hsp, -BitVec.getLsbD_eq_getElem]
    · simp [blkEntry, Raw.x3, blkX_src, blkX_dst, blkX_scope, blkX_bit0, blkX_rest, Option.filter, hsp, Scope.code,
        -BitVec.getLsbD_eq_getElem]
  | some sc =>
    refine decodes_regs rfl rfl ?_ h rfl ?_ (dstBad_val (by decide)) (srcBad_val (by decide)) srcBad_no srcBad_no
    · simp [blkEntry, Raw.x3, blkX_dst, blkX_scope, blkX_bit0, Option.filter, hsp, -BitVec.getLsbD_eq_getElem]
    · simp [blkEntry, Raw.x3, blkX_src, blkX_dst, blkX_bit0, blkX_rest, Option.filter, hsp, -BitVec.getLsbD_eq_getElem]
end

/-! ## The matrix engine (11 Table 11.1) -/

section
variable {a b d : Option (BitVec 2)} {low : BitVec 10}

theorem mtxX_a : (mtxX a b d low).extractLsb' 16 3 = lcX a := field_left (field_left (field_left field_all))
theorem mtxX_b : (mtxX a b d low).extractLsb' 13 3 = lcX b := field_left (field_left (field_right field_all le_rfl))
theorem mtxX_d : (mtxX a b d low).extractLsb' 10 3 = lcX d := field_left (field_right field_all le_rfl)
/-- A part of the low bits. -/
theorem mtxX_part {i l : Nat} (h : i + l ≤ 10) : (mtxX a b d low).extractLsb' i l = low.extractLsb' i l := field_right rfl h
theorem mtxX_bit {i : Nat} (h : i + 1 ≤ 10) : (mtxX a b d low).getLsbD i = low.getLsbD i := by
  rw [BitVec.getLsbD_eq_extractLsb', mtxX_part h, ← BitVec.getLsbD_eq_extractLsb']
/-- The accumulator number is the low nine bits. -/
theorem mtxX_acc {z : BitVec 1} {n : BitVec 9} : (mtxX a b d (z ++ n)).extractLsb' 0 9 = n := by
  rw [mtxX_part (by decide)]; exact field_right field_all le_rfl
theorem mtxX_acc_bit9 {n : BitVec 9} : (mtxX a b d (0#1 ++ n)).getLsbD 9 = false := by
  rw [mtxX_bit (by decide)]; exact bit_of_field (field_left field_all)
end

@[simp] theorem lcBad_lcX {c : Option (BitVec 2)} : lcBad (lcX c) true = false := by
  cases c with
  | none => rfl
  | some c => revert c; decide
@[simp] theorem lcBad_none {has : Bool} : lcBad (lcX none) has = false := rfl

theorem toNat_tile_lt (n : BitVec 5) : (n.setWidth 7).toNat < 32 := by simp; omega

section
variable {w : Raw} {modOk three four ta tb acc : Bool} {d a b c : Role} {i : Option Instr}

/-- The checks of a matrix word: its tiles are below 32, and its loop counters stand where there is a field. -/
theorem mtxEntry_passes (hm : modOk = true) (h3 : three = false) (h4 : four = false) (hga : lcBad (w.x3 16) ta = false)
    (hgb : lcBad (w.x3 13) tb = false) (hgc : lcBad (w.x3 10) acc = false) (ha : ta = true → w.a.toNat < 32)
    (hb : tb = true → w.b.toNat < 32) : Passes (mtxEntry .free w modOk three four ta tb acc d a b c i).chk := by
  have tile : ∀ {f : BitVec 7} {g : BitVec 3}, f.toNat < 32 → Passes (tileBad .free f g) := by
    intro f g hf
    simp [tileBad, DecodeCtx.free, Nat.not_le.mpr hf]
  simp only [mtxEntry, hm, h3, h4, hga, hgb, hgc, passes_append, passes_cons, passes_nil]
  refine ⟨⟨by decide, ?_⟩, ?_⟩
  · split
    · exact tile (ha ‹_›)
    · exact passes_nil
  · split
    · exact tile (hb ‹_›)
    · exact passes_nil
end

/-- A flag that is encoded as a number. -/
theorem flag_beq_one {w : Nat} {f : Bool} (hw : 0 < w) : ((if f = true then 1#w else 0#w) == 1#w) = f := by
  cases f with
  | false => simp [hw.ne']
  | true => simp

theorem decodes_mma (mk : MmaX → Instr) {op : BitVec 8} {x : MmaX} (henc : encodeRaw (mk x) = some (encMma op x))
    (hent : entry .free (encMma op x) = some (eMma .free (encMma op x) mk)) (hwf : (mk x).wf = true) : Decodes (mk x) := by
  refine decodes_regs henc hent ?_ hwf rfl ?_ dstBad_no srcBad_tile srcBad_tile (srcBad_val (by decide))
  · simp [eMma, mtxEntry, encMma, Raw.accF, Raw.tileA, Raw.tileB, Raw.x3, mtxX_a, mtxX_b, mtxX_d, mtxX_acc]
  · refine mtxEntry_passes rfl rfl mtxX_acc_bit9 ?_ ?_ ?_ (fun _ => toNat_tile_lt _) (fun _ => toNat_tile_lt _)
    · simp [encMma, Raw.x3, mtxX_a]
    · simp [encMma, Raw.x3, mtxX_b]
    · simp [encMma, Raw.x3, mtxX_d]

section
variable {x : TileMemX} {lc : Option (BitVec 2)} 

/-- The low bits of TLD and TST: the space, the request, the tags bit and the quarter mask. -/
def tileLow (x : TileMemX) : BitVec 10 := x.space.code ++ (0 : BitVec 1) ++ BitVec.ofBool x.nc ++ BitVec.ofBool x.tags ++
  x.qm

theorem tileLow_space : (mtxX lc none none (tileLow x)).extractLsb' 7 3 = x.space.code := by
  rw [mtxX_part (by decide)]; exact field_left (field_left (field_left (field_left field_all)))
theorem tileLow_req : (mtxX lc none none (tileLow x)).extractLsb' 5 2 = if x.nc then 1 else 0 := by
  have h : (x.space.code ++ (0 : BitVec 1) ++ BitVec.ofBool x.nc).extractLsb' 0 2 = if x.nc then 1 else 0 := by
    cases x.space <;> cases x.nc <;> rfl
  rw [mtxX_part (by decide)]; exact field_left (field_left h)
theorem tileLow_tags : (mtxX lc none none (tileLow x)).getLsbD 4 = x.tags := by
  rw [mtxX_bit (by decide)]; exact bit_of_field (field_left (field_right field_all le_rfl))
theorem tileLow_qm : (mtxX lc none none (tileLow x)).extractLsb' 0 4 = x.qm := by
  rw [mtxX_part (by decide)]; exact field_right field_all le_rfl
end

theorem encTileMem_eq {op : BitVec 8} {x : TileMemX} : encTileMem op x = mkRaw op x.k (if x.half then 1 else 0) 0
    (x.t.n.setWidth 7)
    (.regs x.addr.code x.geom.code (mtxX x.t.lc none none (tileLow x))) := rfl

theorem decodes_tileMem (mk : TileMemX → Instr) {op : BitVec 8} {x : TileMemX}
    (henc : encodeRaw (mk x) = some (encTileMem op x))
    (hent : entry .free (encTileMem op x) = some (eTileMem .free (encTileMem op x) mk)) (hwf : (mk x).wf = true)
    (hx : (x.qm != 0 && (x.space == .g || !x.nc)) = true) : Decodes (mk x) := by
  obtain ⟨hqm, hnc⟩ : x.qm ≠ 0#4 ∧ (x.space = .g ∨ x.nc = false) := by simpa using hx
  rw [encTileMem_eq] at henc hent
  refine decodes_regs henc hent ?_ hwf rfl ?_ dstBad_no srcBad_tile (srcBad_val (by decide)) (srcBad_val (by decide))
  · simp [eTileMem, mtxEntry, Raw.tileA, Raw.x3, mtxX_a, tileLow_space, tileLow_req, tileLow_tags, tileLow_qm, flag_beq_one,
      -BitVec.getLsbD_eq_getElem]
  · refine mtxEntry_passes ?_ ?_ rfl ?_ ?_ ?_ (fun _ => toNat_tile_lt _) (by simp)
    · cases x.half <;> rfl
    · simp [Raw.x3, tileLow_space, tileLow_req, tileLow_qm, hqm, -BitVec.extractLsb'_toNat]
      cases hn : x.nc <;> simp_all
    · simp [Raw.x3, mtxX_a]
    · simp [Raw.x3, mtxX_b]
    · simp [Raw.x3, mtxX_d]

section
variable {sp : Space} {nc : Bool}

/-- The modifier of ACCLD and ACCST: the space and the request. -/
theorem accMem_space : (0#1 ++ BitVec.ofBool nc ++ sp.code).setWidth 3 = sp.code := BitVec.setWidth_append_eq_right
theorem accMem_req : (0#1 ++ BitVec.ofBool nc ++ sp.code).extractLsb' 3 2 = if nc then 1 else 0 := by
  cases nc with
  | false => exact field_left (y := sp.code) (field_all (x := 0#2))
  | true => exact field_left (y := sp.code) (field_all (x := 1#2))
end

theorem decodes_accMem (mk : AccMemX → Instr) {op : BitVec 8} {x : AccMemX}
    (henc : encodeRaw (mk x) = some (encAccMem op x))
    (hent : entry .free (encAccMem op x) = some (eAccMem .free (encAccMem op x) mk)) (hwf : (mk x).wf = true)
    (hx : (x.space == .g || !x.nc) = true) : Decodes (mk x) := by
  refine decodes_regs henc hent ?_ hwf rfl ?_ dstBad_no srcBad_no (srcBad_val (by decide)) (srcBad_val (by decide))
  · simp [eAccMem, mtxEntry, encAccMem, Raw.accF, Raw.x3, mtxX_d, mtxX_acc, accMem_space, accMem_req, flag_beq_one]
  · refine mtxEntry_passes ?_ rfl mtxX_acc_bit9 ?_ ?_ ?_ (by simp) (by simp)
    · simp [encAccMem, accMem_space, accMem_req, -BitVec.extractLsb'_toNat]
      cases hn : x.nc <;> simp_all
    · simp [encAccMem, Raw.x3, mtxX_a]
    · simp [encAccMem, Raw.x3, mtxX_b]
    · simp [encAccMem, Raw.x3, mtxX_d]

section
variable {slot : BitVec 4} {c : BitVec 3}

/-- The extension of POPLD and PREPLD: the code of the space, which the form without one leaves 0, and the slot. -/
def slotX (c : BitVec 3) (slot : BitVec 4) : BitVec 19 := mtxX none none none ((0 : BitVec 3) ++ c ++ slot)

theorem slotX_space : (slotX c slot).extractLsb' 4 3 = c := by
  rw [slotX, mtxX_part (by decide)]; exact field_left (field_right field_all le_rfl)
theorem slotX_rest : (slotX c slot).extractLsb' 7 3 = 0 := by
  rw [slotX, mtxX_part (by decide)]; exact field_left (field_left field_all)
theorem slotX_slot : (slotX c slot).extractLsb' 0 4 = slot := by
  rw [slotX, mtxX_part (by decide)]; exact field_right field_all le_rfl

theorem slotEntry_passes {op : BitVec 8} {k : BitVec 3} {m : BitVec 5} {d a : BitVec 7} {modOk three : Bool} {rd ra : Role}
    {i : Option Instr} (hm : modOk = true) (h3 : three = false) :
    let w := mkRaw op k m d a (.regs 0 0 (slotX c slot))
    Passes (mtxEntry .free w modOk three (w.x3 7 != 0) false false false rd ra .no .no i).chk := by
  refine mtxEntry_passes hm h3 ?_ ?_ ?_ ?_ (by simp) (by simp)
  · simp [Raw.x3, slotX_rest]
  · simp [Raw.x3, slotX, mtxX_a]
  · simp [Raw.x3, slotX, mtxX_b]
  · simp [Raw.x3, slotX, mtxX_d]
end

theorem encSlot_none {op : BitVec 8} {k : BitVec 3} {d : Dst} {slot : BitVec 4} :
    encSlot op ⟨k, d, none, slot⟩ = mkRaw op k 1 d.code 0 (.regs 0 0 (slotX 0 slot)) := rfl
theorem encSlot_some {op : BitVec 8} {k : BitVec 3} {d : Dst} {a : Src} {sp : Space} {slot : BitVec 4} :
    encSlot op ⟨k, d, some (a, sp), slot⟩ = mkRaw op k 0 d.code a.code (.regs 0 0 (slotX sp.code slot)) := rfl

theorem decodes_slot (mk : SlotX → Instr) {op : BitVec 8} {x : SlotX} (henc : encodeRaw (mk x) = some (encSlot op x))
    (hent : ∀ k m d a t, entry .free (mkRaw op k m d a t) = some (eSlot .free (mkRaw op k m d a t) mk))
        (hwf : (mk x).wf = true)
    (hx : ∀ a sp, x.src = some (a, sp) → (sp == .s || sp == .p || sp == .g) = true) : Decodes (mk x) := by
  obtain ⟨k, d, src, slot⟩ := x
  match src with
  | none =>
    rw [encSlot_none] at henc
    refine decodes_regs henc (hent _ _ _ _ _) ?_ hwf rfl (slotEntry_passes rfl ?_) (dstBad_val (by decide)) srcBad_no
      srcBad_no srcBad_no
    · simp [eSlot, mtxEntry, slotX_slot]
    · simp [Raw.x3, slotX_space]
  | some (a, sp) =>
    have hsp := hx a sp rfl
    rw [encSlot_some] at henc
    refine decodes_regs henc (hent _ _ _ _ _) ?_ hwf rfl (slotEntry_passes rfl ?_) (dstBad_val (by decide))
      (srcBad_val (by decide))
      srcBad_no srcBad_no
    · simp [eSlot, mtxEntry, Raw.x3, slotX_space, slotX_slot, Option.filter, hsp]
    · simp [Raw.x3, slotX_space, Option.filter, hsp]

section
variable {k : BitVec 3} {d : Dst} {a : Src}

theorem decodes_tzero {t : TileF} {qm : BitVec 4} (h : (Instr.tzero k t qm).wf = true) : Decodes (.tzero k t qm) := by
  have hqm : (mtxX t.lc none none (qm.setWidth 10)).extractLsb' 0 4 = qm := by
    rw [mtxX_part (by decide), extractLsb'_setWidth_low (by decide)]
  have hrest : (mtxX t.lc none none (qm.setWidth 10)).extractLsb' 4 6 = 0 := by
    rw [mtxX_part (by decide), extractLsb'_setWidth_above le_rfl]
  have hz : qm ≠ 0 := by simpa [Instr.wf] using h
  refine decodes_regs rfl rfl ?_ h rfl ?_ dstBad_no srcBad_tile srcBad_no srcBad_no
  · simp [mtxEntry, Raw.tileA, Raw.x3, mtxX_a, hqm]
  · refine mtxEntry_passes rfl ?_ ?_ ?_ ?_ ?_ (fun _ => toNat_tile_lt _) (by simp)
    · simpa [hqm] using hz
    · simp [hrest]
    · simp [Raw.x3, mtxX_a]
    · simp [Raw.x3, mtxX_b]
    · simp [Raw.x3, mtxX_d]

theorem decodes_accz {acc : AccF} : Decodes (.accz k acc a) := by
  refine decodes_regs rfl rfl ?_ rfl rfl ?_ dstBad_no srcBad_no (srcBad_val (by decide)) srcBad_no
  · simp [mtxEntry, Raw.accF, Raw.x3, mtxX_d, mtxX_acc]
  · refine mtxEntry_passes rfl rfl mtxX_acc_bit9 ?_ ?_ ?_ (by simp) (by simp)
    · simp [Raw.x3, mtxX_a]
    · simp [Raw.x3, mtxX_b]
    · simp [Raw.x3, mtxX_d]

/-- A lane's sidecar word has a number alone for its extension. -/
theorem scl_passes {op : BitVec 8} {d a b c : BitVec 7} {rd ra : Role} {i : Option Instr} {n : BitVec 5}
    (h : n.toNat ≤ 16) :
    let w := mkRaw op k 0 d a (.regs b c (n.setWidth 19))
    Passes (mtxEntry .free w true (16 < (w.x.extractLsb' 0 5).toNat) (w.x.extractLsb' 5 5 != 0) false false false rd ra .no
      .no i).chk := by
  refine mtxEntry_passes rfl ?_ ?_ ?_ ?_ ?_ (by simp) (by simp)
  · simpa [extractLsb'_setWidth_low, -BitVec.extractLsb'_toNat] using h
  · simp [extractLsb'_setWidth_above]
  · simp [Raw.x3, extractLsb'_setWidth_above, lcBad]
  · simp [Raw.x3, extractLsb'_setWidth_above, lcBad]
  · simp [Raw.x3, extractLsb'_setWidth_above, lcBad]

theorem decodes_sclw {n : BitVec 5} (h : (Instr.sclw k a n).wf = true) : Decodes (.sclw k a n) := by
  refine decodes_regs rfl rfl ?_ h rfl (scl_passes (of_decide_eq_true h)) dstBad_no (srcBad_val (by decide)) srcBad_no
    srcBad_no
  simp [mtxEntry, extractLsb'_setWidth_low]

theorem decodes_sclr {n : BitVec 5} (h : (Instr.sclr k d n).wf = true) : Decodes (.sclr k d n) := by
  refine decodes_regs rfl rfl ?_ h rfl (scl_passes (of_decide_eq_true h)) (dstBad_val (by decide)) srcBad_no srcBad_no
    srcBad_no
  simp [mtxEntry, extractLsb'_setWidth_low]
end

/-! ## The sampler (12 Table 12.5) -/

section
variable {x : SmplX}

theorem smplBits_half : (smplBits x).getLsbD 18 = x.half := bit_of_field (field_left (field_left (field_left field_all)))
theorem smplBits_ou : (smplBits x).extractLsb' 14 4 = x.ou := field_left (field_left (field_right field_all le_rfl))
theorem smplBits_ov : (smplBits x).extractLsb' 10 4 = x.ov := field_left (field_right field_all le_rfl)
theorem smplBits_rest : (smplBits x).extractLsb' 0 10 = 0 := field_right field_all le_rfl

theorem smpl_mkRaw {op : BitVec 8} {m : BitVec 5} {c : BitVec 7} :
    (mkRaw op x.k m (winCode x.d) (winCode x.a) (.regs (sclCode x.b) c (smplBits x))).smpl = x := by
  simp [Raw.smpl, smplBits_half, smplBits_ou, smplBits_ov, -BitVec.getLsbD_eq_getElem]
end

theorem srcBad_scl_one {s : BitVec 6} : Passes (srcBad .free (.scl 1) (sclCode s)) := srcBad_scl (by omega)

theorem decodes_smpl {x : SmplX} : Decodes (.smpl x) := by
  refine decodes_regs rfl rfl ?_ rfl rfl ?_ (dstBad_win (ite_words_le (by decide) (by decide))) (srcBad_win (by decide))
    srcBad_scl_one srcBad_no
  · simp [smpEntry, smpl_mkRaw]
  · simp [smpEntry, Raw.low10, smplBits_rest]

theorem decodes_smpllLod {x : SmplX} {c : Src} : Decodes (.smpllLod x c) := by
  refine decodes_regs rfl rfl ?_ rfl rfl ?_ (dstBad_win (ite_words_le (by decide) (by decide))) (srcBad_win (by decide))
    srcBad_scl_one (srcBad_val (by decide))
  · simp [smpEntry, smpl_mkRaw]
  · simp [smpEntry, Raw.low10, smplBits_rest]

theorem decodes_smpllGrad {x : SmplX} {c : BitVec 5} : Decodes (.smpllGrad x c) := by
  refine decodes_regs rfl rfl ?_ rfl rfl ?_ (dstBad_win (ite_words_le (by decide) (by decide))) (srcBad_win (by decide))
    srcBad_scl_one (srcBad_win (by decide))
  · simp [smpEntry, smpl_mkRaw]
  · simp [smpEntry, Raw.low10, smplBits_rest]

section
variable {x : SmplgX}

/-- The extension of SMPLG. -/
def smplgX (x : SmplgX) : BitVec 19 :=
  BitVec.ofBool x.hi ++ x.g ++ x.texel ++ x.weight ++ BitVec.ofBool x.fp16 ++ (0 : BitVec 2)

theorem smplgX_hi : (smplgX x).getLsbD 18 = x.hi :=
  bit_of_field (field_left (field_left (field_left (field_left (field_left field_all)))))
theorem smplgX_g : (smplgX x).extractLsb' 13 5 = x.g := field_left
    (field_left (field_left (field_left (field_right field_all le_rfl))))
theorem smplgX_texel : (smplgX x).extractLsb' 8 5 = x.texel := field_left
    (field_left (field_left (field_right field_all le_rfl)))
theorem smplgX_weight : (smplgX x).extractLsb' 3 5 = x.weight := field_left (field_left (field_right field_all le_rfl))
theorem smplgX_fp16 : (smplgX x).getLsbD 2 = x.fp16 := bit_of_field (field_left (field_right field_all le_rfl))
theorem smplgX_rest : (smplgX x).extractLsb' 0 2 = 0 := field_right field_all le_rfl

/-- The two tiles of SMPLG are two of the 32. -/
theorem smplg_passes {op : BitVec 8} {k : BitVec 3} {m : BitVec 5} {d a b c : BitVec 7} {modOk : Bool} {rd rc : Role}
    {i : Option Instr} (hm : modOk = true) (ht : x.texel ≠ x.weight) :
    let w := mkRaw op k m d a (.regs b c (smplgX x))
    Passes (smpEntry w modOk (w.x.extractLsb' 8 5 == w.x.extractLsb' 3 5) (w.x.extractLsb' 0 2 != 0)
      (DecodeCtx.free.tiles ≤ (w.x.extractLsb' 8 5).toNat || DecodeCtx.free.tiles ≤ (w.x.extractLsb' 3 5).toNat) rd rc
          i).chk := by
  have htile : ∀ n : BitVec 5, n.toNat < 32 := fun n => n.isLt
  simp [smpEntry, smplgX_texel, smplgX_weight, smplgX_rest, DecodeCtx.free, hm, ht, htile, -BitVec.extractLsb'_toNat]

theorem decodes_smplg (h : (Instr.smplg x).wf = true) : Decodes (.smplg x) := by
  obtain ⟨k, src, d, a, b, c, hi, g, texel, weight, fp16⟩ := x
  have ht : texel ≠ weight := by
    rintro rfl
    simp [Instr.wf] at h
  match src, c with
  | .quad, none =>
    refine decodes_regs (x := smplgX ⟨k, .quad, d, a, b, none, hi, g, texel, weight, fp16⟩) rfl rfl ?_ h rfl
      (smplg_passes rfl ht) (dstBad_val (by decide)) (srcBad_win (by decide)) srcBad_scl_one srcBad_no
    simp [smpEntry, smplgX_texel, smplgX_weight, smplgX_hi, smplgX_g, smplgX_fp16, -BitVec.getLsbD_eq_getElem]
  | .lod, some c =>
    refine decodes_regs (x := smplgX ⟨k, .lod, d, a, b, some c, hi, g, texel, weight, fp16⟩) rfl rfl ?_ h rfl
      (smplg_passes rfl ht) (dstBad_val (by decide)) (srcBad_win (by decide)) srcBad_scl_one (srcBad_val (by decide))
    simp [smpEntry, smplgX_texel, smplgX_weight, smplgX_hi, smplgX_g, smplgX_fp16, -BitVec.getLsbD_eq_getElem]
  | .grad, some (.w c) =>
    refine decodes_regs (x := smplgX ⟨k, .grad, d, a, b, some (.w c), hi, g, texel, weight, fp16⟩) rfl rfl ?_ h rfl
      (smplg_passes rfl ht) (dstBad_val (by decide)) (srcBad_win (by decide)) srcBad_scl_one
          (srcBad_win (w := c) (by decide))
    simp [smpEntry, smplgX_texel, smplgX_weight, smplgX_hi, smplgX_g, smplgX_fp16, -BitVec.getLsbD_eq_getElem]
  | .quad, some _ | .lod, none | .grad, none | .grad, some (.q _) | .grad, some (.sp _) | .grad, some (.s _) =>
    simp [Instr.wf, Src.isWin] at h
end

section
variable {k : BitVec 3} {d a : BitVec 7} {m : BitVec 5} {lod rec : Bool} {ou ov : BitVec 4}

/-- SRES: the modifier says whether the level of detail comes from C, and whether a record is delivered. -/
def sresM (lod rec : Bool) : BitVec 5 := (0 : BitVec 3) ++ BitVec.ofBool lod ++ BitVec.ofBool rec
def sresX (ou ov : BitVec 4) : BitVec 19 := (0 : BitVec 1) ++ ou ++ ov ++ (0 : BitVec 10)

theorem sresX_bit18 : (sresX ou ov).getLsbD 18 = false := bit_of_field (field_left (field_left (field_left field_all)))
theorem sresX_ou : (sresX ou ov).extractLsb' 14 4 = ou := field_left (field_left (field_right field_all le_rfl))
theorem sresX_ov : (sresX ou ov).extractLsb' 10 4 = ov := field_left (field_right field_all le_rfl)
theorem sresX_rest : (sresX ou ov).extractLsb' 0 10 = 0 := field_right field_all le_rfl

theorem sresM_lod : (sresM lod rec).getLsbD 1 = lod := bit_of_field (field_left (field_right field_all le_rfl))
theorem sresM_rec : (sresM lod rec).getLsbD 0 = rec := bit_of_field (field_right field_all le_rfl)
theorem sresM_lt : (sresM lod rec).toNat < 4 := by cases lod <;> cases rec <;> decide

theorem entry_sres {b c : BitVec 7} {x : BitVec 19} (hl : m.getLsbD 1 = lod) (hr : m.getLsbD 0 = rec) :
    let r := mkRaw 0xC3 k m d a (.regs b c x)
    entry .free r = some (smpEntry r (m.toNat < 4) false (r.low10 != 0 || r.x.getLsbD 18) false (.val 2)
      (if lod then .val 1 else .no) (some (.sres ⟨r.k, r.dst, r.wA, sclOf r.b, (if lod then some r.srcC else none), rec,
        r.x.extractLsb' 14 4, r.x.extractLsb' 10 4⟩))) := by
  subst hl hr
  rfl

theorem decodes_sres {x : SresX} : Decodes (.sres x) := by
  obtain ⟨k, d, a, b, c, rec, ou, ov⟩ := x
  cases c with
  | none =>
    refine decodes_regs (m := sresM false rec) (x := sresX ou ov) rfl (entry_sres sresM_lod sresM_rec) ?_ rfl rfl ?_
      (dstBad_val (by decide)) (srcBad_win (by decide)) srcBad_scl_one srcBad_no
    · simp [smpEntry, sresX_ou, sresX_ov]
    · simp [smpEntry, Raw.low10, sresX_bit18, sresX_rest, sresM_lt, -BitVec.getLsbD_eq_getElem]
  | some c =>
    refine decodes_regs (m := sresM true rec) (x := sresX ou ov) rfl (entry_sres sresM_lod sresM_rec) ?_ rfl rfl ?_
      (dstBad_val (by decide)) (srcBad_win (by decide)) srcBad_scl_one (srcBad_val (by decide))
    · simp [smpEntry, sresX_ou, sresX_ov]
    · simp [smpEntry, Raw.low10, sresX_bit18, sresX_rest, sresM_lt, -BitVec.getLsbD_eq_getElem]
end

/-! ## Atomics (13 R361) -/

section
variable {x : AtomX}

theorem atomX_space : (atomX x).extractLsb' 16 3 = x.space.code := field_left
    (field_left (field_left (field_left (field_left field_all))))
theorem atomX_zero : (atomX x).extractLsb' 13 3 = 0 :=
  field_left (field_left (field_left (field_left (field_right field_all le_rfl))))
theorem atomX_scope : (atomX x).extractLsb' 10 3 = x.scope.code := field_left
    (field_left (field_left (field_right field_all le_rfl)))
theorem atomX_order : (atomX x).extractLsb' 8 2 = x.order.code := field_left (field_left (field_right field_all le_rfl))
theorem atomX_size : (atomX x).extractLsb' 5 3 = if x.wide then (3 : BitVec 3) else 2 := field_left
    (field_right field_all le_rfl)
theorem atomX_rest : (atomX x).extractLsb' 0 5 = 0 := field_right field_all le_rfl
end

theorem decodes_atm {i : Instr} {op : BitVec 8} {k : BitVec 3} {m : BitVec 5} {d a b c : BitVec 7} {x : AtomX}
    {modOk wide rel : Bool} {rd ra rb rc : Role} {mk : AtomX → Option Instr}
    (henc : encodeRaw i = some (mkRaw op k m d a (.regs b c (atomX x))))
    (hent : let r := mkRaw op k m d a (.regs b c (atomX x))
      entry .free r = some (atmEntry r modOk wide rel rd ra rb rc mk))
    (hi : mk x = some i) (hwf : i.wf = true) (hm : modOk = true) (hx : x.ok = true) (hwide : (wide && !x.wide) = false)
    (hrel : (rel && !(x.order == .relaxed || x.order == .rel)) = false)
    (hd : Passes (dstBad .free rd d)) (ha : Passes (srcBad .free ra a)) (hb : Passes (srcBad .free rb b))
    (hc : Passes (srcBad .free rc c)) : Decodes i := by
  obtain ⟨sp, sc, o, w⟩ := x
  obtain ⟨hsp, hsc⟩ : (sp == .p || sp == .g) = true ∧ scopeOk o sc = true := by simpa [AtomX.ok] using hx
  refine decodes_regs henc hent ?_ hwf rfl ?_ hd ha hb hc
  · have hw : ((if w = true then 3#3 else 2#3) == 3#3) = w := by cases w <;> rfl
    simp [atmEntry, Raw.x3, atomX_space, atomX_scope, atomX_order, atomX_size, Option.filter, hsp, hw, hi]
  · cases w with
    | true =>
      simpa [atmEntry, Raw.x3, atomX_space, atomX_zero, atomX_scope, atomX_order, atomX_size, atomX_rest, Option.filter,
        hsp, hsc,
        hm] using hrel
    | false =>
      obtain rfl : wide = false := by simpa using hwide
      simpa [atmEntry, Raw.x3, atomX_space, atomX_zero, atomX_scope, atomX_order, atomX_size, atomX_rest, Option.filter,
        hsp, hsc,
        hm] using hrel

section
variable {k : BitVec 3} {d : Dst} {a b c : Src} {x : AtomX}

theorem decodes_atom {o : AtomOp} (h : (Instr.atom o k d a b x).wf = true) : Decodes (.atom o k d a b x) :=
  decodes_atm rfl rfl (by simp) h (by simp) h rfl rfl (dstBad_val (ite_words_le (by decide) (by decide)))
    (srcBad_val (by decide)) (srcBad_val (ite_words_le (by decide) (by decide))) srcBad_no

theorem decodes_fatom {o : FatomOp} (h : (Instr.fatom o k d a b x).wf = true) : Decodes (.fatom o k d a b x) :=
  decodes_atm rfl rfl (by simp) h (by simp) h rfl rfl (dstBad_val (ite_words_le (by decide) (by decide)))
    (srcBad_val (by decide)) (srcBad_val (ite_words_le (by decide) (by decide))) srcBad_no

theorem decodes_acas (h : (Instr.acas k d a b c x).wf = true) : Decodes (.acas k d a b c x) :=
  decodes_atm rfl rfl (by simp) h rfl h rfl rfl (dstBad_val (ite_words_le (by decide) (by decide)))
    (srcBad_val (by decide)) (srcBad_val (ite_words_le (by decide) (by decide)))
    (srcBad_val (ite_words_le (by decide) (by decide)))

theorem decodes_atomw {o : AtomwOp} (h : (Instr.atomw o k d a b c x).wf = true) : Decodes (.atomw o k d a b c x) := by
  obtain ⟨hok, hw⟩ : x.ok = true ∧ x.wide = true := Bool.and_eq_true_iff.mp h
  exact decodes_atm rfl rfl (by simp) h (by simp) hok (by simp [hw]) rfl (dstBad_val (by decide)) (srcBad_val (by decide))
    (srcBad_val (by decide)) (srcBad_val (by decide))

theorem decodes_enq (h : (Instr.enq k d a b x).wf = true) : Decodes (.enq k d a b x) := by
  obtain ⟨hok, hw⟩ : x.ok = true ∧ x.wide = true := Bool.and_eq_true_iff.mp h
  exact decodes_atm rfl rfl (by simp) h rfl hok (by simp [hw]) rfl (dstBad_val (by decide)) (srcBad_val (by decide))
    (srcBad_val (by decide)) srcBad_no

theorem decodes_deq (h : (Instr.deq k d a x).wf = true) : Decodes (.deq k d a x) := by
  obtain ⟨hok, hw⟩ : x.ok = true ∧ x.wide = true := Bool.and_eq_true_iff.mp h
  exact decodes_atm rfl rfl (by simp) h rfl hok (by simp [hw]) rfl (dstBad_val (by decide)) (srcBad_val (by decide))
    srcBad_no srcBad_no

theorem decodes_bnginit (h : (Instr.bnginit k a b c x).wf = true) : Decodes (.bnginit k a b c x) := by
  obtain ⟨⟨hok, hw⟩, ho⟩ : (x.ok = true ∧ x.wide = true) ∧ (x.order == .relaxed || x.order == .rel) = true := by
    simpa [Instr.wf] using h
  exact decodes_atm rfl rfl (by simp) h rfl hok (by simp [hw]) (by simp [ho]) dstBad_no (srcBad_val (by decide))
    (srcBad_val (by decide)) (srcBad_val (by decide))
end

/-! ## The scheduler and the system (14 Table 14.12) -/

section
variable {k : BitVec 3} {d : Dst} {a b : Src} {w : BitVec 5} {n : BitVec 3}

section
variable {s d : BitVec 3} {sc : Scope} {cls : Option Space}

theorem launch_cls : (blkX s d sc (clsCode cls ++ 0#7)).extractLsb' 7 3 = clsCode cls := by
  rw [blkX_part (by decide)]; exact field_left field_all
theorem launch_rest : (blkX s d sc (clsCode cls ++ 0#7)).extractLsb' 0 7 = 0 := by
  rw [blkX_part (by decide)]; exact field_right field_all le_rfl
end

theorem decodes_launch {x : LaunchX} (h : (Instr.launch x).wf = true) : Decodes (.launch x) := by
  obtain ⟨hn, hcls⟩ : x.n.toNat ≤ 60 ∧ (x.cls == none || x.cls == some .p || x.cls == some .g) = true := by
    simpa [Instr.wf] using h
  have hcode : (clsCode x.cls = 0 ∨ clsCode x.cls = 3 ∨ clsCode x.cls = 4) ∧ x.cls ≠ some .l := by
    match hc : x.cls with
    | none | some .p | some .g => simp [clsCode, Space.code]
    | some .l | some .s | some .c => simp [hc] at hcls
  obtain ⟨hcode, hl⟩ := hcode
  refine decodes_regs rfl rfl ?_ h rfl ?_ (dstBad_val (by decide)) (srcBad_val (by decide)) (srcBad_val (by decide))
    (srcBad_scl (by omega))
  · simp [schEntry, Raw.x3, blkX_scope, launch_cls, clsOf_clsCode hl]
  · simp [schEntry, Raw.x3, blkX_src, blkX_dst, launch_cls, launch_rest]
    exact fun h0 h3 => (hcode.resolve_left h0).resolve_left h3

theorem decodes_emit : Decodes (.emit k w n) := by
  refine decodes_regs rfl rfl ?_ rfl rfl ?_ dstBad_no (srcBad_win (by decide)) srcBad_no srcBad_no
  · simp [schEntry, extractLsb'_setWidth_low]
  · simp [schEntry, extractLsb'_setWidth_above]

theorem decodes_relat : Decodes (.relat k w b n) := by
  refine decodes_regs rfl rfl ?_ rfl rfl ?_ dstBad_no (srcBad_win (by decide)) (srcBad_val (by decide)) srcBad_no
  · simp [schEntry, extractLsb'_setWidth_low]
  · simp [schEntry, extractLsb'_setWidth_above]

theorem decodes_emitn {sp : Space} (h : (Instr.emitn k d a b sp n).wf = true) : Decodes (.emitn k d a b sp n) := by
  have hsp : (sp == .s || sp == .p || sp == .g) = true := h
  have hspace : (sp.code ++ 0#13 ++ n).extractLsb' 16 3 = sp.code := field_left (field_left field_all)
  have hrest : (sp.code ++ 0#13 ++ n).extractLsb' 3 13 = 0 := field_left (field_right field_all le_rfl)
  have hn : (sp.code ++ 0#13 ++ n).extractLsb' 0 3 = n := field_right field_all le_rfl
  refine decodes_regs rfl rfl ?_ h rfl ?_ (dstBad_val (by decide)) (srcBad_val (by decide)) (srcBad_val (by decide))
    srcBad_no
  · simp [schEntry, Raw.x3, hspace, hn, Option.filter, hsp]
  · simp [schEntry, Raw.x3, hspace, hrest, Option.filter, hsp]

theorem decodes_accgrow : Decodes (.accgrow k d a) := by
  refine decodes_regs rfl rfl ?_ rfl rfl ?_ (dstBad_val (by decide)) (srcBad_val (by decide)) srcBad_no srcBad_no
  · simp [schEntry]
  · simp [schEntry]

theorem decodes_nop : Decodes (.nop k) := by
  refine decodes_regs rfl rfl rfl rfl rfl ?_ dstBad_no srcBad_no srcBad_no srcBad_no
  simp [schEntry]

theorem decodes_trap {c : BitVec 16} : Decodes (.trap k c) := by
  refine decodes_lit rfl rfl ?_ rfl rfl ?_ dstBad_no srcBad_no
  · simp [schEntry]
  · simp [schEntry, extractLsb'_setWidth_above]

theorem decodes_bkpt {c : BitVec 16} : Decodes (.bkpt k c) := by
  refine decodes_lit rfl rfl ?_ rfl rfl ?_ dstBad_no srcBad_no
  · simp [schEntry]
  · simp [schEntry, extractLsb'_setWidth_above]

theorem decodes_eret : Decodes (.eret k a b) := by
  refine decodes_regs rfl rfl ?_ rfl rfl ?_ dstBad_no (srcBad_val (by decide)) (srcBad_val (by decide)) srcBad_no
  · simp [schEntry]
  · simp [schEntry]

theorem decodes_csrr {c : BitVec 12} (h : (Instr.csrr k d c).wf = true) : Decodes (.csrr k d c) := by
  obtain ⟨hlo, hhi⟩ : 1 ≤ c.toNat ∧ c.toNat ≤ 5 := by simpa [Instr.wf] using h
  refine decodes_regs rfl rfl ?_ h rfl ?_ (dstBad_val (by decide)) srcBad_no srcBad_no srcBad_no
  · simp [schEntry, extractLsb'_setWidth_low]
  · simp [schEntry, extractLsb'_setWidth_low, extractLsb'_setWidth_above, -BitVec.extractLsb'_toNat]
    omega

theorem decodes_csrw {c : BitVec 12} (h : (Instr.csrw k a c).wf = true) : Decodes (.csrw k a c) := by
  have hc : c.toNat = 4 ∨ c.toNat = 5 := by simpa [Instr.wf] using h
  refine decodes_regs rfl rfl ?_ h rfl ?_ dstBad_no (srcBad_val (by decide)) srcBad_no srcBad_no
  · simp [schEntry, extractLsb'_setWidth_low]
  · simp [schEntry, extractLsb'_setWidth_low, extractLsb'_setWidth_above, -BitVec.extractLsb'_toNat]
    omega

theorem decodes_ptime : Decodes (.ptime k d) := by
  refine decodes_regs rfl rfl ?_ rfl rfl ?_ (dstBad_val (by decide)) srcBad_no srcBad_no srcBad_no
  · simp [schEntry]
  · simp [schEntry]

theorem decodes_ptimeSkew : Decodes (.ptimeSkew k d) := by
  refine decodes_regs rfl rfl ?_ rfl rfl ?_ (dstBad_val (by decide)) srcBad_no srcBad_no srcBad_no
  · simp [schEntry]
  · simp [schEntry]
end

/-! ## Every word -/

/-- An integer instruction that does not saturate. -/
theorem decodes_ibin_plain (mk : IBin → Instr) {op : BitVec 8} {m : BitVec 5} {x : IBin} {modOk : Bool} {ty : IntTy → Bool}
    {dw bw : Nat} {i : Option Instr} (henc : encodeRaw (mk x) = some (encIBin op x m))
    (hent : entry .free (encIBin op x m) = some (eIBin (encIBin op x m) modOk ty false dw bw i))
    (hi : i = some (mk (encIBin op x m).ibin)) (hwf : (mk x).wf = true) (hx : x.plain = true) (hm : modOk = true)
    (hty : ty x.t = true) (hd : dw ≤ 9) (hb : bw ≤ 9) : Decodes (mk x) := by
  obtain ⟨hl, hs⟩ := Bool.and_eq_true_iff.mp hx
  exact decodes_ibin mk henc hent hi hwf hl (by simpa using hs) hm hty hd hb

/-- A special function of a single-word type. -/
theorem decodes_sfu (mk : FUn → Instr) {op : BitVec 8} {x : FUn} {i : Option Instr}
    (henc : encodeRaw (mk x) = some (encFUn op x))
    (hent : entry .free (encFUn op x) = some (eFUn (encFUn op x) true sfuTy false true 1 i))
    (hi : i = some (mk (encFUn op x).fun_)) (hwf : (mk x).wf = true)
    (hx : ((x.t == .f32 || x.t == .f16 || x.t == .bf16) && x.r == .rne) = true) : Decodes (mk x) := by
  obtain ⟨hty, hr⟩ := Bool.and_eq_true_iff.mp hx
  exact decodes_fun mk henc hent hi hwf (.inl (eq_of_beq hr)) (Bool.and_false _) rfl hty (by decide)

theorem slot_space_of_wf {x : SlotX} (h : (Instr.popld x).wf = true) (a : Src) (sp : Space) (hs : x.src = some (a, sp)) :
    (sp == .s || sp == .p || sp == .g) = true := by
  simpa [Instr.wf, hs] using h

/-- Every well-formed instruction word decodes to itself. -/
theorem decodes_of_isWord {i : Instr} (h : i.wf = true) (hword : i.isWord = true) : Decodes i := by
  have noSat : ∀ {s : Bool}, (!s) = true → (s && !false) = false := by simp
  cases i with
  | iadd x => exact decodes_ibin .iadd rfl rfl rfl h h (Bool.and_false _) rfl rfl (IntTy.words_le _) (IntTy.words_le _)
  | isub x => exact decodes_ibin .isub rfl rfl rfl h h (Bool.and_false _) rfl rfl (IntTy.words_le _) (IntTy.words_le _)
  | imul x => exact decodes_ibin .imul rfl rfl rfl h h (Bool.and_false _) rfl rfl (IntTy.words_le _) (IntTy.words_le _)
  | idiv x => exact decodes_ibin .idiv rfl rfl rfl h h (Bool.and_false _) rfl rfl (IntTy.words_le _) (IntTy.words_le _)
  | shl x => exact decodes_ibin .shl rfl rfl rfl h h (Bool.and_false _) rfl rfl (IntTy.words_le _) (by decide)
  | iadc x =>
    obtain ⟨hty, hs⟩ := Bool.and_eq_true_iff.mp h
    exact decodes_iter .iadc rfl rfl rfl h (noSat hs) rfl hty (by decide) (by decide) (by decide) (by decide)
  | isbc x =>
    obtain ⟨hty, hs⟩ := Bool.and_eq_true_iff.mp h
    exact decodes_iter .isbc rfl rfl rfl h (noSat hs) rfl hty (by decide) (by decide) (by decide) (by decide)
  | imulh x =>
    obtain ⟨hp, hty⟩ := Bool.and_eq_true_iff.mp h
    exact decodes_ibin_plain .imulh rfl rfl rfl h hp rfl hty (IntTy.words_le _) (IntTy.words_le _)
  | imad x =>
    exact decodes_iter .imad rfl rfl rfl h (Bool.and_false _) rfl rfl (IntTy.words_le _) (IntTy.words_le _)
      (IntTy.words_le _) (IntTy.words_le _)
  | irem x => exact decodes_ibin_plain .irem rfl rfl rfl h h rfl rfl (IntTy.words_le _) (IntTy.words_le _)
  | imin x => exact decodes_ibin_plain .imin rfl rfl rfl h h rfl rfl (IntTy.words_le _) (IntTy.words_le _)
  | imax x => exact decodes_ibin_plain .imax rfl rfl rfl h h rfl rfl (IntTy.words_le _) (IntTy.words_le _)
  | and x => exact decodes_ibin_plain .and rfl rfl rfl h h rfl rfl (IntTy.words_le _) (IntTy.words_le _)
  | or x => exact decodes_ibin_plain .or rfl rfl rfl h h rfl rfl (IntTy.words_le _) (IntTy.words_le _)
  | xor x => exact decodes_ibin_plain .xor rfl rfl rfl h h rfl rfl (IntTy.words_le _) (IntTy.words_le _)
  | andn x => exact decodes_ibin_plain .andn rfl rfl rfl h h rfl rfl (IntTy.words_le _) (IntTy.words_le _)
  | iabs x => exact decodes_iun .iabs rfl rfl rfl h (Bool.and_false _) rfl h (IntTy.words_le _)
  | ineg x => exact decodes_iun .ineg rfl rfl rfl h (Bool.and_false _) rfl h (IntTy.words_le _)
  | icmp p x =>
    exact decodes_ibin_plain (.icmp p) rfl rfl (by simp [encIBin]) h h (by simp [encIBin]) rfl (by decide)
      (IntTy.words_le _)
  | isel x =>
    exact decodes_iter .isel rfl rfl rfl h (noSat h) rfl rfl (IntTy.words_le _) (IntTy.words_le _) (IntTy.words_le _)
      (by decide)
  | fshl x =>
    exact decodes_iter .fshl rfl rfl rfl h (noSat h) rfl rfl (IntTy.words_le _) (IntTy.words_le _) (IntTy.words_le _)
      (by decide)
  | binsR x =>
    exact decodes_iter .binsR rfl rfl rfl h (noSat h) rfl rfl (IntTy.words_le _) (IntTy.words_le _) (IntTy.words_le _)
      (by decide)
  | not x => exact decodes_iun .not rfl rfl rfl h (noSat h) rfl rfl (IntTy.words_le _)
  | brev x => exact decodes_iun .brev rfl rfl rfl h (noSat h) rfl rfl (IntTy.words_le _)
  | mov x => exact decodes_iun .mov rfl rfl rfl h (noSat h) rfl rfl (IntTy.words_le _)
  | clz x => exact decodes_iun .clz rfl rfl rfl h (noSat h) rfl rfl (by decide)
  | ctz x => exact decodes_iun .ctz rfl rfl rfl h (noSat h) rfl rfl (by decide)
  | popc x => exact decodes_iun .popc rfl rfl rfl h (noSat h) rfl rfl (by decide)
  | shrl x => exact decodes_ibin_plain .shrl rfl rfl rfl h h rfl rfl (IntTy.words_le _) (by decide)
  | shra x => exact decodes_ibin_plain .shra rfl rfl rfl h h rfl rfl (IntTy.words_le _) (by decide)
  | rotl x => exact decodes_ibin_plain .rotl rfl rfl rfl h h rfl rfl (IntTy.words_le _) (by decide)
  | bextR x => exact decodes_ibin_plain .bextR rfl rfl rfl h h rfl rfl (IntTy.words_le _) (by decide)
  | movs x => exact decodes_ibin_plain .movs rfl rfl rfl h h rfl rfl (IntTy.words_le _) (by decide)
  | lbfl x => exact decodes_ibin_plain .lbfl rfl rfl rfl h h rfl rfl (IntTy.words_le _) (by decide)
  | lshf p x =>
    exact decodes_ibin_plain (.lshf p) rfl rfl (by simp [encIBin]) h h (by simp [encIBin]) rfl (IntTy.words_le _)
      (by decide)
  | bperm x =>
    obtain ⟨hs, hty⟩ := Bool.and_eq_true_iff.mp h
    exact decodes_iter .bperm rfl rfl rfl h (noSat hs) rfl hty (by decide) (by decide) (by decide) (by decide)
  | blut hi x =>
    obtain ⟨hs, hty⟩ := Bool.and_eq_true_iff.mp h
    exact decodes_iter (.blut hi) (m := if hi then 1 else 0) rfl rfl (by cases hi <;> rfl) h (noSat hs)
      (by cases hi <;> rfl) hty
      (IntTy.words_le _) (IntTy.words_le _) (by decide) (by decide)
  | bext x p n => exact decodes_bext h
  | bins k d a b t p n => exact decodes_bins h
  | bint k d a b c t => exact decodes_bint h
  | bdin three x j => exact decodes_bdin h
  | movl k d wide v => exact decodes_movl
  | movlHi k d v => exact decodes_movlHi
  | kop op k d a kd kx ky => exact decodes_kop h
  | lcset k d lc b => exact decodes_encOpd .lcset rfl rfl rfl
  | lcadv k d lc b => exact decodes_encOpd .lcadv rfl rfl rfl
  | bra k v => exact decodes_bra
  | brx k a => exact decodes_brx
  | call k d v => exact decodes_call
  | callX k d a => exact decodes_callX
  | ret k a => exact decodes_ret
  | exit k => exact decodes_exit
  | elect k d => exact decodes_elect
  | lprev k d a b t => exact decodes_lprev h
  | lscan op e x => exact decodes_lscan h
  | lred op x => exact decodes_lred h
  | vote m x => exact decodes_vote h
  | rep x => exact decodes_rep h
  | fadd x => exact decodes_fbin .fadd rfl rfl rfl h h (.inr rfl) rfl rfl (FpTy.words_le _)
  | fsub x => exact decodes_fbin .fsub rfl rfl rfl h h (.inr rfl) rfl rfl (FpTy.words_le _)
  | fmul x => exact decodes_fbin .fmul rfl rfl rfl h h (.inr rfl) rfl rfl (FpTy.words_le _)
  | ffma x =>
    exact decodes_fter .ffma rfl rfl rfl rfl rfl rfl (FpTy.words_le _) (FpTy.words_le _) (FpTy.words_le _) (FpTy.words_le _)
  | fmin x =>
    obtain ⟨hl, hr⟩ := Bool.and_eq_true_iff.mp h
    exact decodes_fbin .fmin rfl rfl rfl h hl (.inl (eq_of_beq hr)) rfl rfl (FpTy.words_le _)
  | fmax x =>
    obtain ⟨hl, hr⟩ := Bool.and_eq_true_iff.mp h
    exact decodes_fbin .fmax rfl rfl rfl h hl (.inl (eq_of_beq hr)) rfl rfl (FpTy.words_le _)
  | fminn x =>
    obtain ⟨hl, hr⟩ := Bool.and_eq_true_iff.mp h
    exact decodes_fbin .fminn rfl rfl rfl h hl (.inl (eq_of_beq hr)) rfl rfl (FpTy.words_le _)
  | fmaxn x =>
    obtain ⟨hl, hr⟩ := Bool.and_eq_true_iff.mp h
    exact decodes_fbin .fmaxn rfl rfl rfl h hl (.inl (eq_of_beq hr)) rfl rfl (FpTy.words_le _)
  | fcmp p x =>
    obtain ⟨hl, hr⟩ := Bool.and_eq_true_iff.mp h
    exact decodes_fbin (.fcmp p) rfl rfl (by simp [encFBin]) h hl (.inl (eq_of_beq hr)) (by simp [encFBin]) rfl (by decide)
  | fcls x =>
    obtain ⟨⟨hty, hr⟩, hz⟩ : (x.t.scalar = true ∧ x.r = .rne) ∧ x.ftz = false := by simpa [Instr.wf] using h
    exact decodes_fun .fcls rfl rfl rfl h (.inl hr) (by simp [hz]) rfl hty (by decide)
  | frnd e x =>
    exact decodes_fun (.frnd e) (m := if e then 1 else 0) rfl rfl (by cases e <;> rfl) rfl (.inr rfl) (Bool.and_false _)
      (by cases e <;> rfl) rfl (FpTy.words_le _)
  | fdiv x =>
    obtain ⟨hl, hty⟩ := Bool.and_eq_true_iff.mp h
    exact decodes_fbin .fdiv rfl rfl rfl h hl (.inr rfl) rfl hty (FpTy.words_le _)
  | fsqrt x => exact decodes_fun .fsqrt rfl rfl rfl h (.inr rfl) (Bool.and_false _) rfl h (FpTy.words_le _)
  | cvt k d a dt st r z => exact decodes_cvt h
  | fpackPack k d a b bf w r z => exact decodes_fpackPack
  | fpackUnpack hi k d a w bf z => exact decodes_fpackUnpack
  | fdot2 x => exact decodes_fter .fdot2 rfl rfl rfl h rfl h (by decide) (by decide) (by decide) (by decide)
  | frcp x => exact decodes_sfu .frcp rfl rfl rfl h h
  | frsq x => exact decodes_sfu .frsq rfl rfl rfl h h
  | fexp2 x => exact decodes_sfu .fexp2 rfl rfl rfl h h
  | flog2 x => exact decodes_sfu .flog2 rfl rfl rfl h h
  | fsinp x => exact decodes_sfu .fsinp rfl rfl rfl h h
  | fcosp x => exact decodes_sfu .fcosp rfl rfl rfl h h
  | ftanh x => exact decodes_sfu .ftanh rfl rfl rfl h h
  | fstr k d => exact decodes_fstr
  | fstw m k d a => exact decodes_fstw
  | vld k d a x => exact decodes_vld h
  | vst k a b x => exact decodes_vst h
  | vadd x => exact decodes_vbin .vadd rfl rfl rfl
  | vsub x => exact decodes_vbin .vsub rfl rfl rfl
  | vmul x => exact decodes_vbin .vmul rfl rfl rfl
  | vdiv x => exact decodes_vbin .vdiv rfl rfl rfl
  | vsqrt x => exact decodes_vun .vsqrt rfl rfl rfl rfl
  | vrndInt x => exact decodes_vun .vrndInt rfl rfl rfl rfl
  | vrndFit x => exact decodes_vun .vrndFit rfl rfl rfl rfl
  | vfma k d a b c => exact decodes_vfma
  | vcmp p k d a b => exact decodes_vcmp
  | vcvtTov k d a t => exact decodes_vcvtTov h
  | vcvtFromv k d a t r => exact decodes_vcvtFromv h
  | vexpo k d a => exact decodes_vexpo
  | vlen k d a => exact decodes_vlen
  | vlenBytes k d a => exact decodes_vlenBytes
  | vscale k d a b => exact decodes_vscale
  | precr k d => exact decodes_precr
  | precw k d a => exact decodes_precw
  | precwLen k d a => exact decodes_precwLen
  | ld k d a x sx => exact decodes_ld h
  | st k a b x => exact decodes_st h
  | ldv k d a x => exact decodes_ldv h
  | stv k a b x => exact decodes_stv h
  | ldtol k d a b x => exact decodes_ldtol h
  | ldtolDet k d a x => exact decodes_ldtolDet h
  | ldtolV k d a b x => exact decodes_ldtolV h
  | ldtolDetV k d a x => exact decodes_ldtolDetV h
  | stadd k a b x => exact decodes_stadd h
  | staddV k a b x => exact decodes_staddV h
  | pfx k a r => exact decodes_pfx h
  | ldbt k d a x => exact decodes_ldbt h
  | stbt k a b x => exact decodes_stbt h
  | drain k d => exact decodes_drain
  | drainR k d a => exact decodes_drainR
  | invlLine k a => exact decodes_invlLine
  | invlSi k => exact decodes_invlSi
  | fence m k sc => exact decodes_fence
  | mapq k d a => exact decodes_mapq
  | bseal k d => exact decodes_bseal
  | copy x => exact decodes_copy .copy rfl rfl h h (by simp)
  | copy2d x => exact decodes_copy .copy2d rfl rfl h h (by simp)
  | copy3d x => exact decodes_copy .copy3d rfl rfl h h (by simp)
  | copym x =>
    obtain ⟨⟨hx, hs⟩, hd⟩ : (x.wf 3 = true ∧ x.src ≠ .l) ∧ x.dst = .c := by simpa [Instr.wf] using h
    exact decodes_copy .copym rfl rfl h hx (fun _ => ⟨hs, hd⟩)
  | bwait k n => exact decodes_bwait h
  | clinit k a b c sp =>
    exact decodes_clasp (bne_iff_ne.mp h) (.inr rfl) rfl rfl (by simp) h dstBad_no (srcBad_val (by decide))
      (srcBad_val (by decide)) (srcBad_val (by decide))
  | clexp k a b sp =>
    exact decodes_clasp (bne_iff_ne.mp h) (.inr rfl) rfl rfl (by simp) h dstBad_no (srcBad_val (by decide))
      (srcBad_val (by decide)) srcBad_no
  | clarr k a b sp sc =>
    exact decodes_clasp (bne_iff_ne.mp h) (.inl rfl) rfl rfl (by simp [Raw.x3, blkX_scope]) h dstBad_no
      (srcBad_val (by decide)) (srcBad_val (by decide)) srcBad_no
  | clwait k d a b sp sc =>
    exact decodes_clasp (bne_iff_ne.mp h) (.inl rfl) rfl rfl (by simp [Raw.x3, blkX_scope]) h (dstBad_val (by decide))
      (srcBad_val (by decide)) (srcBad_val (by decide)) srcBad_no
  | cltest k d a sp acq => exact decodes_cltest h
  | clinv k a sp =>
    exact decodes_clasp (bne_iff_ne.mp h) (.inr rfl) rfl rfl (by simp) h dstBad_no (srcBad_val (by decide)) srcBad_no
      srcBad_no
  | mma x => exact decodes_mma .mma rfl rfl rfl
  | mmat x => exact decodes_mma .mmat rfl rfl rfl
  | mmafx x => exact decodes_mma .mmafx rfl rfl rfl
  | tld x => exact decodes_tileMem .tld rfl rfl h h
  | tst x => exact decodes_tileMem .tst rfl rfl h h
  | tzero k t qm => exact decodes_tzero h
  | accld x => exact decodes_accMem .accld rfl rfl h h
  | accst x => exact decodes_accMem .accst rfl rfl h h
  | accz k acc n => exact decodes_accz
  | sclw k a r => exact decodes_sclw h
  | sclr k d r => exact decodes_sclr h
  | popld x => exact decodes_slot .popld rfl (fun _ _ _ _ _ => rfl) h (slot_space_of_wf h)
  | prepld x => exact decodes_slot .prepld rfl (fun _ _ _ _ _ => rfl) h (slot_space_of_wf h)
  | smpl x => exact decodes_smpl
  | smplg x => exact decodes_smplg h
  | smpllLod x c => exact decodes_smpllLod
  | smpllGrad x c => exact decodes_smpllGrad
  | sres x => exact decodes_sres
  | atom op k d a b x => exact decodes_atom h
  | atomw op k d a b c x => exact decodes_atomw h
  | fatom op k d a b x => exact decodes_fatom h
  | acas k d a b c x => exact decodes_acas h
  | enq k d a b x => exact decodes_enq h
  | deq k d a x => exact decodes_deq h
  | bnginit k a b c x => exact decodes_bnginit h
  | launch x => exact decodes_launch h
  | emit k a n => exact decodes_emit
  | emitn k d a b sp n => exact decodes_emitn h
  | accgrow k d a => exact decodes_accgrow
  | relat k a b n => exact decodes_relat
  | nop k => exact decodes_nop
  | trap k c => exact decodes_trap
  | eret k a b => exact decodes_eret
  | csrr k d c => exact decodes_csrr h
  | csrw k a c => exact decodes_csrw h
  | ptime k d => exact decodes_ptime
  | ptimeSkew k d => exact decodes_ptimeSkew
  | bkpt k c => exact decodes_bkpt
  | _ => cases hword

/-- Settles O57: the decoder reads back from the word each field that the encoder put there, and finds no check failed. -/
theorem decodeEncode : Obligations.DecodeEncode := by
  unfold Obligations.DecodeEncode
  exact fun _ h hword => decodes_of_isWord h hword

end Sys2Proof

namespace Sys2Proof.Machine

/-! ## What comes after a word (02 R28, R31, 03 R108) -/

/-- Word 2 runs again: REP has runs left. -/
def Run.again (r : Run) : Bool :=
  match r.rep with
  | some x => r.idx == 2 && r.runNo + 1 < x.n.toNat
  | none => false

theorem Run.again_iff (r : Run) :
    r.again = true ↔ match r.rep with | some x => r.idx = 2 ∧ r.runNo + 1 < x.n.toNat | none => False := by
  unfold Run.again
  cases r.rep with
  | none => simp
  | some x => simp

section
variable {s : State} {g : Group} {r : Run}

theorem State.advance_again (h : r.again = true) : s.advance g r = s.goOn g { r with runNo := r.runNo + 1, held := false } :=
  if_pos h

theorem State.advance_next (h : r.again = false) (hi : r.idx < r.hdr.count) :
    s.advance g r = s.goOn g { r with idx := r.idx + 1, runNo := 0, held := false } :=
  (if_neg (Bool.eq_false_iff.mp h)).trans (if_pos hi)

theorem State.advance_end (h : r.again = false) (hi : r.hdr.count ≤ r.idx) :
    s.advance g r = s.endClause g r (fun _ => r.fall) 0 :=
  (if_neg (Bool.eq_false_iff.mp h)).trans (if_neg (Nat.not_lt.mpr hi))

theorem State.group?_goOn (hs : (s.group? g.gid).isSome = true) :
    (s.goOn g r).group? g.gid = some { g with run := some r, since := none, flags := g.flags &&& ~~~s.doneFlags g.gid r } :=
  State.group?_setGroup_same (g := ({ g with run := some r, since := none } : Group).clearFlags (s.doneFlags g.gid r)) hs
end

theorem advance_sequence (s : State) (g : Group) (r : Run) (hs : (s.group? g.gid).isSome = true) :
    let t := s.advance g r
    let goesOn := fun (r' : Run) => t.group? g.gid =
      some { g with run := some r', since := none, flags := g.flags &&& ~~~s.doneFlags g.gid r' }
    (r.again = true → goesOn { r with runNo := r.runNo + 1, held := false }) ∧
    (r.again = false → r.idx < r.hdr.count → goesOn { r with idx := r.idx + 1, runNo := 0, held := false }) ∧
    (r.again = false → r.hdr.count ≤ r.idx → ∃ u, t.group? g.gid = some u ∧ u.kept = g.kept ∧ u.run = none ∧
      ∀ l, l < 32 → Store.read u.lpc l = if r.lanes.getLsbD l
        then r.addr + BitVec.ofNat 48 (8 * (r.hdr.count + 1)) else Store.read g.lpc l) := by
  refine ⟨fun h => ?_, fun h hi => ?_, fun h hi => ?_⟩
  · rw [State.advance_again h]
    exact State.group?_goOn hs
  · rw [State.advance_next h hi]
    exact State.group?_goOn hs
  · rw [State.advance_end h hi]
    obtain ⟨-, -, u, hu, hkept, -, hrun, hlpc⟩ := State.endClause_done s g r (fun _ => r.fall) 0 hs
    refine ⟨u, hu, hkept, hrun, fun l hl => ?_⟩
    rw [hlpc, read_foldl_lanes _ _ _ _ hl]
    rfl

/-- REP charges its class for the runs that are to come, and sets the clause to repeat its next word. -/
theorem execRep_next {s : State} {e : Env} (he : s.envOf s.focus = some e) (x : RepX) (hi : e.r.idx = 1)
    (hc : 1 < e.r.hdr.count) :
    exec (.rep x) s = .next ((s.charge e.gr.cls.toNat (x.n.toNat - 1)).goOn e.g
      { e.r with rep := some x, idx := 2, runNo := 0, held := false }) := by
  have hagain : Run.again { e.r with rep := some x } = false := by simp [Run.again, hi]
  have hidx : ({ e.r with rep := some x } : Run).idx < ({ e.r with rep := some x } : Run).hdr.count := by
    simpa only [hi] using hc
  refine (withEnv_some he _).trans ?_
  rw [State.advance_next hagain hidx, hi]

theorem rep_sequence {s : State} {e : Env} (he : s.envOf s.focus = some e) (x : RepX) (hi : e.r.idx = 1)
    (hc : 1 < e.r.hdr.count) :
    ∃ t u, exec (.rep x) s = .next t ∧ OnlyFocus { s with budget := t.budget } t ∧ t.budget.reg = s.budget.reg ∧
      t.group? s.focus = some u ∧ u.kept = e.g.kept ∧ u.flags &&& ~~~setMask e.r.hdr = e.g.flags &&& ~~~setMask e.r.hdr ∧
      u.lpc = e.g.lpc ∧ u.run = some { e.r with rep := some x, idx := 2, runNo := 0, held := false } := by
  obtain ⟨hg, hgid, -⟩ := State.envOf_some he
  have hs : ((s.charge e.gr.cls.toNat (x.n.toNat - 1)).group? e.g.gid).isSome = true := by
    rw [hgid]
    exact Option.isSome_of_eq_some hg
  refine ⟨_, _, execRep_next he x hi hc, ⟨rfl, fun i hi => ?_⟩, rfl, (congrArg _ hgid.symm).trans (State.group?_goOn hs), rfl,
    ?_, rfl, rfl⟩
  · rw [State.goOn, State.group?_setGroup_other]
    · rfl
    · exact fun h => hi (by rw [← h]; exact hgid)
  · exact State.doneFlags_sub _ e.g.gid { e.r with rep := some x, idx := 2, runNo := 0, held := false } e.g.flags

/-- Settles O13: the advance of a clause is one of three cases, and REP is an advance to word 2. -/
theorem wordSequence : Obligations.WordSequence := by
  unfold Obligations.WordSequence
  refine ⟨fun s g r hs => ?_, fun s e he x hi hc => rep_sequence he x hi hc⟩
  obtain ⟨again, next, last⟩ := advance_sequence s g r hs
  have not_again : ∀ {p : Prop}, (r.again = true ↔ p) → ¬p → r.again = false :=
    fun h hp => Bool.eq_false_iff.mpr fun ha => hp (h.mp ha)
  exact ⟨fun h => again (r.again_iff.mpr h), fun h => next (not_again r.again_iff h), fun h => last (not_again r.again_iff h)⟩

end Sys2Proof.Machine

namespace Sys2Proof.Machine

/-! ## The word that a step runs (02 R26, R28, R41, R48) -/

/-- A step with no planned event runs the word of the first group that has one. -/
theorem step_of_runner {s : State} {gid : Nat} (ha : s.agenda = []) (hr : s.tick.runner false = some gid) :
    step s = stepWord (s.tick.takePipe gid) gid := by
  have hag : s.tick.agenda = [] := ha
  simp only [step, hag, stepFree, hr]

theorem stepWord_decoded {s : State} {gid : Nat} {e : Env} {i : Instr} (he : s.envOf gid = some e) (hi : e.instr? = .ok i) :
    stepWord s gid = exec i { s with focus := gid } := by
  simp only [stepWord, he, hi]

/-- A word of a clause is memory as it stands, where no L1 owns its block. -/
theorem fetchWord_at {s : State} {core key : Nat} {a : BitVec 48} {r : Option (BitVec 12)} (ha : a.toNat % 8 = 0)
    (hg : s.global core .fetch (a.setWidth 64) = .at key r) (hp : s.poisoned key = false)
    (ho : (s.dirOf (blockOf key)).owner = none) : s.fetchWord core a = .word (BitVec.ofNat 64 (s.le key 8)) := by
  have haddr : ((a.setWidth 64).toNat % 8 != 0) = false := by simp [ha]
  simp only [State.fetchWord, haddr, hg, hp, State.look, State.recallNow_none s _ ho, Bool.false_eq_true, if_false]

/-! ## A placed word (log 11) -/

section
variable (s : State) (w : W64)

/-- The group that runs a placed word, with its team and its grid. -/
def placedEnv : Env where
  g := freshGroup s.nextId (s.nextId + 1) (oneWordRun w)
  r := oneWordRun w
  t := { freshTeam (s.nextId + 1) s.nextGrid with accUnits := 512 }
  gr := freshGrid s.nextGrid roomyKObj

theorem group?_placeWord : (s.placeWord w).tick.group? s.nextId = some (placedEnv s w).g :=
  List.find?_cons_of_pos (beq_self_eq_true _)

theorem team?_placeWord : (s.placeWord w).tick.team? (s.nextId + 1) = some (placedEnv s w).t :=
  List.find?_cons_of_pos (beq_self_eq_true _)

theorem grid?_placeWord : (s.placeWord w).tick.grid? s.nextGrid = some (placedEnv s w).gr :=
  List.find?_cons_of_pos (beq_self_eq_true _)

theorem envOf_placeWord : (s.placeWord w).tick.envOf s.nextId = some (placedEnv s w) := by
  have ht : (s.placeWord w).tick.team? (placedEnv s w).g.team = some (placedEnv s w).t := team?_placeWord s w
  have hgr : (s.placeWord w).tick.grid? (placedEnv s w).t.grid = some (placedEnv s w).gr := grid?_placeWord s w
  have hrun : (placedEnv s w).g.run = some (oneWordRun w) := rfl
  simp only [State.envOf, group?_placeWord, ht, hgr, hrun]
  rfl

/-- Its group stands first, and has the pipe. -/
theorem runner_placeWord : (s.placeWord w).tick.runner false = some s.nextId := by
  have hmay : (s.placeWord w).tick.mayRun (placedEnv s w).g = true := by
    have ht : (s.placeWord w).tick.team? (placedEnv s w).g.team = some (placedEnv s w).t := team?_placeWord s w
    have hrun : (placedEnv s w).g.run = some (oneWordRun w) := rfl
    simp only [State.mayRun, hrun, ht]
    rfl
  have hfind : (s.placeWord w).tick.groups.find? (fun g => g.st == .ready &&
      (match g.run with | some r => r.held == false | none => false) && (s.placeWord w).tick.mayRun g) = some (placedEnv s w).g :=
    List.find?_cons_of_pos (Bool.and_eq_true_iff.mpr ⟨rfl, hmay⟩)
  exact congrArg (Option.map fun g => g.gid) hfind

theorem takePipe_placeWord : (s.placeWord w).tick.takePipe s.nextId = (s.placeWord w).tick := by
  have hrun : (placedEnv s w).g.run = some (oneWordRun w) := rfl
  simp only [State.takePipe, group?_placeWord, hrun]
  rfl

theorem instr?_placedEnv : (placedEnv s w).instr? = decodeWord w := rfl
end

theorem withFetchWord_toNat (s : State) (w : W64) : s.withFetchWord 64 w.toNat = s.placeWord w := by
  rw [State.withFetchWord, Nat.mod_eq_of_lt w.isLt, BitVec.ofNat_toNat, BitVec.setWidth_eq]

/-- Settles O58: the planned events come first, then the first started clause with a word, which `withFetchWord` places
before the others. -/
theorem stepRunsDecoded : Obligations.StepRunsDecoded := by
  unfold Obligations.StepRunsDecoded
  refine ⟨fun s gid e i ha hr he hi => ⟨?_, rfl⟩, fun s core key a r ha hg hp ho => fetchWord_at ha hg hp ho, fun s w i hi => ?_⟩
  · rw [step_of_runner ha hr, stepWord_decoded he hi]
  · rw [withFetchWord_toNat]
    have he : ((s.placeWord w).tick.takePipe s.nextId).envOf s.nextId = some (placedEnv s w) := by
      rw [takePipe_placeWord, envOf_placeWord]
    rw [step_of_runner rfl (runner_placeWord s w), stepWord_decoded he ((instr?_placedEnv s w).trans hi), takePipe_placeWord]

end Sys2Proof.Machine

namespace Sys2Proof.Machine

/-! ## Lookups of grids, and runs of a memory -/

theorem need_eq {b : Bool} (o : Out) (h : b = true) : need b o = o := by rw [h]; rfl
theorem needSome_eq {α : Type} {x : Option α} {a : α} (f : α → Out) (h : x = some a) : needSome x f = f a := by rw [h]; rfl

theorem State.grid?_id {s : State} {id : W64} {gr : Grid} (h : s.grid? id = some gr) : gr.id = id := by
  simpa using List.find?_some h

theorem State.grid?_setGrid_same {s : State} {gr : Grid} (h : (s.grid? gr.id).isSome = true) :
    (s.setGrid gr).grid? gr.id = some gr := by
  have hid : ∀ a b : W64, (a == b) = (a.toNat == b.toNat) := fun a b => by
    rw [Bool.eq_iff_iff, beq_iff_eq, beq_iff_eq, BitVec.toNat_inj]
  simp only [State.grid?, State.setGrid, hid] at h ⊢
  exact find_map_same (fun x : Grid => x.id.toNat) s.grids gr h

/-- An entry of a run of a memory. -/
theorem Store.getElem?_readList {w : Nat} (m : Store w) (k n i : Nat) (h : i < n) :
    (Store.readList m k n)[i]? = some (Store.read m (k + i)) := by
  induction n generalizing k i with
  | zero => omega
  | succ n ih =>
    cases i with
    | zero => rfl
    | succ i =>
      rw [Store.readList, List.getElem?_cons_succ, ih (k + 1) i (by omega)]
      congr 2
      omega

theorem Store.read_ofList {w : Nat} (l : List (BitVec w)) (i : Nat) (h : i < l.length) :
    some (Store.read (Store.ofList l) i) = l[i]? := by
  have hrun := Store.getElem?_readList (Store.ofList l) 0 l.length i h
  rw [Store.ofList, Store.readList_writeList, Nat.zero_add] at hrun
  exact hrun.symm

/-! ## The start of a team (02 R52, R53, 03 R69, R70, 14 R374) -/

/-- What the groups of a starting team are. -/
def startsAs (id : Nat) (gr : Grid) (g : Group) : Prop :=
  g.team = id ∧ g.st = .ready ∧ g.live = BitVec.allOnes 32 ∧ g.flags = 0 ∧ g.run = none ∧
    (∀ l, l < 32 → Store.read g.lpc l = (gr.ko.base + gr.ko.entry).setWidth 48 ∧ Store.read g.prec l = gr.ko.prec ∧
      Store.read g.fpst l = gr.ko.fpst) ∧
    (∀ n, n < gr.params.length → some (Store.read g.scal n) = gr.params[n]?) ∧ g.queue.length = 16

theorem startGroup_startsAs (gid id grpid order now : Nat) (gr : Grid) (win : Store 32) :
    startsAs id gr (startGroup gid id grpid order gr (BitVec.allOnes 32) win now) := by
  have lanes : ∀ {w : Nat} (v : BitVec w) (l : Nat), l < 32 → Store.read (readLanes fun _ => v) l = v := fun v l hl => by
    rw [readLanes, Store.read_ofLanes, if_pos hl]
  exact ⟨rfl, rfl, rfl, rfl, rfl, fun l hl => ⟨lanes _ l hl, lanes _ l hl, lanes _ l hl⟩,
    fun n hn => Store.read_ofList gr.params n hn, rfl⟩

/-- A start with every lane live adds all the groups, and changes nothing else but the next name. -/
theorem addGroups_all (s : State) (id core : Nat) (gr : Grid) (n : Nat) :
    let t := s.addGroups id core gr (fun _ => BitVec.allOnes 32) (fun _ => []) n
    t = { s with groups := t.groups, nextId := t.nextId } ∧
      ∃ gs, t.groups = s.groups ++ gs ∧ gs.length = n ∧ ∀ g ∈ gs, startsAs id gr g := by
  induction n with
  | zero => exact ⟨rfl, [], by simp [State.addGroups], rfl, by simp⟩
  | succ n ih =>
    obtain ⟨hrest, gs, hgs, hlen, hall⟩ := ih
    generalize hu : s.addGroups id core gr (fun _ => BitVec.allOnes 32) (fun _ => []) n = u at hrest hgs
    have hlive : ¬ (BitVec.allOnes 32 = 0) := by decide
    simp only [State.addGroups, hu, hlive, if_false]
    refine ⟨by rw [hrest], gs ++ [_], by rw [hgs, List.append_assoc], by simp [hlen], fun g hg => ?_⟩
    rcases List.mem_append.mp hg with hg | hg
    · exact hall g hg
    · rw [List.mem_singleton.mp hg]
      exact startGroup_startsAs ..

/-- A start performs an acquire, which changes caches alone. -/
theorem acquireAt_eq (s : State) (core : Nat) (sc : Scope) :
    s.acquireAt core sc = { s with l1 := (s.acquireAt core sc).l1, scache := (s.acquireAt core sc).scache } := by
  unfold State.acquireAt
  split <;> rfl

/-- The state in which a team has been placed, and before its groups are. -/
def teamAdded (s : State) (gr : Grid) (core : Nat) (rm : Room) (lin base count : Nat) : State :=
  State.acquireAt { s with
    teams := s.teams ++ [startTeam s.nextId core gr rm lin base count []]
    nextId := s.nextId + 1 } core .sys

theorem placeTeam_room {s : State} {gr : Grid} {core lin base count : Nat} {rm : Room}
    (hup : s.coreUp core = true) (hrm : s.roomOn core gr.ko (List.range gr.ko.groups) (gr.ko.acc / 1024) = some rm) :
    s.placeTeam gr core lin base count [] (fun _ => BitVec.allOnes 32) (fun _ => []) =
      some ((teamAdded s gr core rm lin base count).addGroups s.nextId core gr (fun _ => BitVec.allOnes 32) (fun _ => [])
        gr.ko.groups) := by
  have hall : ((List.range gr.ko.groups).filter fun _ => BitVec.allOnes 32 != (0 : W32)) = List.range gr.ko.groups :=
    List.filter_eq_self.mpr fun _ _ => by decide
  simp only [State.placeTeam, hall, hrm, hup]
  rfl

/-- One team has started: memory, grids and graphs are as they were. -/
structure TeamStarted (s t : State) (gr : Grid) (u : Team) : Prop where
  mem : t.mem = s.mem
  grids : t.grids = s.grids
  graphs : t.graphs = s.graphs
  teams : t.teams = s.teams ++ [u]
  groups : ∃ gs, t.groups = s.groups ++ gs ∧ gs.length = gr.ko.groups ∧ ∀ g ∈ gs, startsAs u.id gr g

theorem placeTeam_started {s : State} {gr : Grid} {core lin base count : Nat} {rm : Room}
    (hup : s.coreUp core = true) (hrm : s.roomOn core gr.ko (List.range gr.ko.groups) (gr.ko.acc / 1024) = some rm) :
    ∃ t, s.placeTeam gr core lin base count [] (fun _ => BitVec.allOnes 32) (fun _ => []) = some t ∧
      TeamStarted s t gr (startTeam s.nextId core gr rm lin base count []) := by
  refine ⟨_, placeTeam_room hup hrm, ?_⟩
  obtain ⟨hrest, gs, hgs, hlen, hst⟩ := addGroups_all (teamAdded s gr core rm lin base count) s.nextId core gr gr.ko.groups
  have hadd : teamAdded s gr core rm lin base count = { s with
      teams := s.teams ++ [startTeam s.nextId core gr rm lin base count []], nextId := s.nextId + 1
      l1 := (teamAdded s gr core rm lin base count).l1, scache := (teamAdded s gr core rm lin base count).scache } :=
    acquireAt_eq _ core .sys
  refine ⟨?_, ?_, ?_, ?_, gs, ?_, hlen, hst⟩
  · rw [hrest, hadd]
  · rw [hrest, hadd]
  · rw [hrest, hadd]
  · rw [hrest, hadd]
  · rw [hgs, hadd]

/-! ### The room that is kept for the nodes of graphs (14 R381) -/

/-- The nodes of all graphs. -/
def State.allNodes (s : State) : List (Graph × Nat × GNode) :=
  s.graphs.flatMap fun h => (h.nodes.zipIdx).map fun q => (h, q.2, q.1)

/-- A fold that adds an entry to a list at every element. -/
theorem foldl_collect {α β σ : Type} (f : σ × List β → α → σ × List β) (g : α → β) (l : List α) (r : σ × List β)
    (h : ∀ x ∈ l, ∀ r, f r x = (r.1, r.2 ++ [g x])) : l.foldl f r = (r.1, r.2 ++ l.map g) := by
  induction l generalizing r with
  | nil => simp
  | cons x l ih =>
    rw [List.foldl_cons, h x (by simp), ih _ fun y hy => h y (by simp [hy])]
    simp

/-- Where every node has a team, every node is roomed. -/
theorem roomed_of_housed {s : State} (h : ∀ q ∈ s.allNodes, (q.2.2.type == 4 || s.hasTeam q.1 q.2.1) = true) :
    s.roomed = s.allNodes.map fun q => (q.1.id, q.2.1) := by
  unfold State.roomed
  dsimp only
  rw [foldl_collect _ (fun q : Graph × Nat × GNode => (q.1.id, q.2.1))]
  · rfl
  · intro q hq r
    rw [if_pos (h q hq)]

theorem housed_allNodes {s : State} (hn : s.nodesHoused none) :
    ∀ q ∈ s.allNodes, (q.2.2.type == 4 || s.hasTeam q.1 q.2.1) = true := by
  intro q hq
  obtain ⟨h, hh, hq⟩ := List.mem_flatMap.mp hq
  obtain ⟨⟨n, i⟩, hni, rfl⟩ := List.mem_map.mp hq
  rcases hn h hh i n (List.mem_zipIdx_iff_getElem?.mp hni) with h4 | hbut | ⟨t, ht, g, hres, hg, hnode⟩
  · simp [h4]
  · cases hbut
  · refine Bool.or_eq_true_iff.mpr (.inr (List.any_eq_true.mpr ⟨t, ht, ?_⟩))
    simp [hres, hg, hnode]

/-- A start beside the teams of the nodes takes no node's room. -/
theorem keepsRoom_of_started {s t : State} {gr : Grid} {u : Team} (hn : s.nodesHoused none) (ht : TeamStarted s t gr u) :
    s.keepsRoom t = true := by
  have hs := housed_allNodes hn
  have hteam : ∀ h i, s.hasTeam h i = true → t.hasTeam h i = true := fun h i hh => by
    have hgrid : ∀ id, t.grid? id = s.grid? id := fun id => by rw [State.grid?, ht.grids, State.grid?]
    simp only [State.hasTeam, ht.teams, List.any_append, hgrid]
    exact Bool.or_eq_true_iff.mpr (.inl hh)
  have hnodes : t.allNodes = s.allNodes := by rw [State.allNodes, ht.graphs, State.allNodes]
  have hroomed : t.roomed = s.roomed := by
    rw [roomed_of_housed hs, roomed_of_housed, hnodes]
    intro q hq
    rw [hnodes] at hq
    rcases Bool.or_eq_true_iff.mp (hs q hq) with h4 | hh
    · exact Bool.or_eq_true_iff.mpr (.inl h4)
    · exact Bool.or_eq_true_iff.mpr (.inr (hteam _ _ hh))
  simp [State.keepsRoom, hroomed]

/-- TEAM_LAUNCH of a grid whose clusters are single teams. -/
theorem teamLaunch_next {s : State} {id core : Nat} {gr : Grid} {rm : Room} (hg : s.grid? (BitVec.ofNat 64 id) = some gr)
    (hp : gr.pending = none) (hk : gr.killed = none) (hnext : gr.nextTeam < gr.total) (hcl : gr.ko.cluster = 1)
    (hup : s.coreUp core = true) (hrm : s.roomOn core gr.ko (List.range gr.ko.groups) (gr.ko.acc / 1024) = some rm)
    (hn : s.nodesHoused none) :
    ∃ t, TeamStarted s t gr (startTeam s.nextId core gr rm gr.nextTeam gr.nextTeam 1 []) ∧
      exec (.teamLaunch id [core]) s = .next (t.setGrid { gr with nextTeam := gr.nextTeam + 1 }) := by
  obtain ⟨t, ht, hst⟩ := placeTeam_started (lin := gr.nextTeam) (base := gr.nextTeam) (count := 1) hup hrm
  have hcount : Nat.min gr.ko.cluster (gr.total - gr.nextTeam) = 1 := by
    rw [hcl]
    exact Nat.min_eq_left (by omega)
  refine ⟨t, hst, (needSome_eq _ hg).trans ?_⟩
  simp only [hp, placeCluster, hcount, State.placeAll, Nat.add_zero, ht]
  rw [need_eq _ (by simp [hk, hnext]), needSome_eq _ rfl, need_eq _ (keepsRoom_of_started hn hst)]

/-! ## The retirement of a team (14 R375) -/

theorem teamRetire_next {s : State} {id : Nat} {tm : Team} {gr : Grid} (ht : s.team? id = some tm)
    (hg : s.grid? tm.grid = some gr) (hgs : ∀ g ∈ s.groups, g.team = id → g.st = .exited ∧ ∀ o ∈ s.ops, o.gid ≠ g.gid)
    (hc : ∀ c ∈ s.grids, c.parentTeam ≠ some id) :
    exec (.teamRetire id) s = .next { s.setGrid { gr with doneTeams := gr.doneTeams + 1 } with
      groups := s.groups.filter fun g => g.team != id
      teams := s.teams.filter fun u => u.id != id } := by
  refine (needSome_eq _ ht).trans ((needSome_eq _ hg).trans (need_eq _ ?_))
  have hexit : (s.groupsOf id).all (fun g => g.st == .exited && (s.opsOf g.gid).isEmpty) = true := by
    refine List.all_eq_true.mpr fun g hmem => ?_
    obtain ⟨hmem, hteam⟩ := List.mem_filter.mp hmem
    obtain ⟨hst, hops⟩ := hgs g hmem (eq_of_beq hteam)
    simpa [hst, State.opsOf] using hops
  simpa [hexit] using hc

/-! ## The retirement of a grid (14 R376) -/

/-- The status word of a grid: 0, or the bit of a kill with its cause and detail. -/
def statusWord (killed : Option (BitVec 8 × BitVec 8)) : Nat :=
  match killed with
  | none => 0
  | some (c, d) => 2 ^ 63 + c.toNat * 256 + d.toNat

theorem statusWord_lt (killed : Option (BitVec 8 × BitVec 8)) : statusWord killed < 256 ^ 8 := by
  cases killed with
  | none => decide
  | some p =>
    have hc := p.1.isLt
    have hd := p.2.isLt
    simp only [statusWord]
    omega

theorem gridRetire_eq {s : State} {id : Nat} {gr : Grid} (hg : s.grid? (BitVec.ofNat 64 id) = some gr)
    (hend : gr.killed ≠ none ∨ gr.pending = none ∧ gr.doneTeams = gr.total) (ht : ∀ t ∈ s.teams, t.grid ≠ gr.id)
    (hc : ∀ c ∈ s.grids, c.parentGrid ≠ some gr.id) : exec (.gridRetire id) s = retireGrid s gr := by
  have hdone : (gr.killed.isSome || (gr.pending.isNone && gr.doneTeams == gr.total)) = true := by
    rcases hend with hk | ⟨hp, hd⟩
    · simp [Option.isSome_iff_ne_none.mpr hk]
    · simp [hp, hd]
  refine Eq.trans (b := execGridRetire id s) rfl ?_
  simp only [execGridRetire, hg]
  exact need_eq _ (by simpa [hdone] using ⟨ht, hc⟩)

/-- A grid without a clasp, not nested, whose status word is written without a fault. -/
theorem retireGrid_next {s u : State} {gr : Grid} (hw : s.writeStatus gr.status gr.killed = some (u, [])) (hcl : gr.clasp = none)
    (hp : gr.parentGrid = none) : ∃ t, retireGrid s gr = .next t ∧ t.grid? gr.id = none ∧ t.mem = u.mem := by
  have harr : u.retireArrive (gr.winFirst, gr.winCount) gr.clasp = some (u, []) := by rw [hcl]; rfl
  refine ⟨{ u with
    grids := u.grids.filter fun g => g.id != gr.id
    started := u.started.filter fun x => x.grid != some gr.id }, ?_, ?_, rfl⟩
  · refine (needSome_eq _ hw).trans ((needSome_eq _ harr).trans ?_)
    simp [hp, State.retireHalt]
  · exact List.find?_eq_none.mpr fun g hmem => by simpa using (List.mem_filter.mp hmem).2

/-- The status word goes home where a path leads. -/
theorem writeStatus_at {s : State} {addr : W64} {killed : Option (BitVec 8 × BitVec 8)} {key : Nat} {r : Option (BitVec 12)}
    (h0 : addr ≠ 0) (h8 : addr.toNat % 8 = 0) (hg : s.global noCore .store addr = .at key r)
    (hr : s.reaches (homeOf s key).1 = true) (ha : ∀ x ∈ s.ctl.asks, x.sent.home ≠ destOf s key) :
    s.writeStatus addr killed = some ((s.purge (blockOf key)).putBytes key (leBytes 8 (statusWord killed)), []) := by
  have hasks : (s.ctl.asks.find? fun x => x.sent.home == destOf s key) = none :=
    List.find?_eq_none.mpr fun x hx => by simpa using ha x hx
  have hat : s.retireAt (0, 0) .store .g addr 8 = .at key r := by
    simp [State.retireAt, h8, hg, State.askStop, hr, hasks]
  simp only [State.writeStatus, h0, hat, if_false]
  rfl

/-- Settles O45: a start adds the team and its groups alone, and each retirement has nothing left to wait for. -/
theorem teamsAndGrids : Obligations.TeamsAndGrids := by
  unfold Obligations.TeamsAndGrids
  refine ⟨⟨?launch, ?retire⟩, ?grid⟩
  case launch =>
    intro s id core gr rm hg hp hk hnext hcl hup hrm hn
    obtain ⟨t, hst, hx⟩ := teamLaunch_next hg hp hk hnext hcl hup hrm hn
    obtain ⟨gs, hgs, hlen, hall⟩ := hst.groups
    refine ⟨_, _, gs, hx, hst.mem, hst.teams, rfl, rfl, rfl, rfl, rfl, rfl, rfl, hgs, hlen, hall, ?_⟩
    have hsome : (t.grid? gr.id).isSome = true := by
      rw [State.grid?, hst.grids, State.grid?_id hg, ← State.grid?, hg]
      rfl
    exact congrArg (Option.map fun g => g.nextTeam)
      (State.grid?_setGrid_same (gr := { gr with nextTeam := gr.nextTeam + 1 }) hsome)
  case retire =>
    intro s id tm gr ht hg hgs hc
    have hsome : (s.grid? gr.id).isSome = true := by rw [State.grid?_id hg, hg]; rfl
    refine ⟨_, teamRetire_next ht hg hgs hc, ?_, ?_, rfl, ?_⟩
    · exact List.find?_eq_none.mpr fun u hu => by simpa using (List.mem_filter.mp hu).2
    · exact fun g hmem => by simpa using (List.mem_filter.mp hmem).2
    · exact congrArg (Option.map fun g => g.doneTeams)
        (State.grid?_setGrid_same (gr := { gr with doneTeams := gr.doneTeams + 1 }) hsome)
  case grid =>
    intro s id gr hg hcl hpg hend ht hc
    rw [gridRetire_eq hg hend ht hc]
    refine ⟨fun h0 => ?_, fun key r h0 h8 hat hr ha => ?_⟩
    · exact retireGrid_next (by rw [h0]; rfl) hcl hpg
    · obtain ⟨t, hx, hgone, hmem⟩ := retireGrid_next (writeStatus_at (killed := gr.killed) h0 h8 hat hr ha) hcl hpg
      refine ⟨t, hx, hgone, ?_⟩
      have hle := State.le_putBytes (s.purge (blockOf key)) key 8 (statusWord gr.killed)
        (a := []) (c := []) (l := leBytes 8 (statusWord gr.killed)) (by simp)
      rw [State.le_congr hmem]
      exact hle.trans (Nat.mod_eq_of_lt (statusWord_lt _))

end Sys2Proof.Machine

namespace Sys2Proof.Machine

/-! ## What a park leaves (14 R390, R391) -/

/-- What a park of a group keeps of the fault and of the place where it stands. -/
def State.parkRec (s : State) (g : Group) (t : Team) (gr : Grid) (f : FaultRec) (word run : Nat) (issuing : BitVec 48)
    (past : Option (BitVec 48)) : ParkRec :=
  { cause := f.cause, detail := f.detail, word := BitVec.ofNat 5 word, run := BitVec.ofNat 5 run,
    issuing := issuing, current := g.current, record := packRecord g.current f.fields,
    image := BitVec.ofNat 45 (s.imageDpa t.core g.quad)
    recs := recordPlaces (recordsAt gr.ko.caps + 16) (s.opsOf g.gid), lpcs := g.lpc, page := f.service.getD 0, past := past
    prior := g.st, route := if f.service.isSome then .service else .none }

/-- The state in which a group stands parked, before its image is written. -/
def State.parkStart (s : State) (g : Group) (p : ParkRec) : State :=
  (s.setGroup (g.parkedWith p)).captureFor 9 (g.parkedWith p) p.cause.toNat

/-- The state in which its image is written, and the park has gone its way. -/
def State.parkImaged (s : State) (g : Group) (t : Team) (gr : Grid) (p : ParkRec) : State :=
  ((s.parkStart g p).writeImage (s.imageDpa t.core g.quad) (imagePieces (g.parkedWith p) t gr (s.opsOf g.gid) p)).routePark
    (g.parkedWith p) gr p

section
variable {s : State} {g : Group} {t : Team} {gr : Grid} {f : FaultRec} {word run : Nat} {issuing : BitVec 48}
  {past : Option (BitVec 48)}

theorem park_eq (hg : s.group? g.gid = some g) (ht : s.team? g.team = some t) (hgr : s.grid? t.grid = some gr) :
    s.park g.gid f word run issuing past =
      let p := s.parkRec g t gr f word run issuing past
      if f.service.isSome then .next (s.parkStart g p)
      else if !s.ctxFits then .fault (.noSuchMemory (s.imageDpa t.core g.quad))
      else .next (s.parkImaged g t gr p) := by
  simp only [State.park, needSome, hg, ht, hgr]
  rfl

/-- A park without a page of the memory service writes its image. -/
theorem park_imaged (hg : s.group? g.gid = some g) (ht : s.team? g.team = some t) (hgr : s.grid? t.grid = some gr)
    (hf : f.service = none) (hctx : s.ctxFits = true) :
    s.park g.gid f word run issuing past = .next (s.parkImaged g t gr (s.parkRec g t gr f word run issuing past)) := by
  rw [park_eq hg ht hgr]
  simp only [hf, hctx]
  rfl

/-- A park with one does not. -/
theorem park_paged {page : BitVec 48} (hg : s.group? g.gid = some g) (ht : s.team? g.team = some t)
    (hgr : s.grid? t.grid = some gr) (hf : f.service = some page) :
    s.park g.gid f word run issuing past = .next (s.parkStart g (s.parkRec g t gr f word run issuing past)) := by
  rw [park_eq hg ht hgr]
  simp only [hf]
  rfl

theorem group?_parkStart (hg : s.group? g.gid = some g) (p : ParkRec) :
    (s.parkStart g p).group? g.gid = some (g.parkedWith p) :=
  State.group?_setGroup_same (s := s) (g := g.parkedWith p) (Option.isSome_of_eq_some hg)

/-- An image is bytes of memory. -/
theorem writeImage_eq (s : State) (dpa : Nat) (ps : List (Nat × List Byte)) :
    s.writeImage dpa ps = { s with mem := (s.writeImage dpa ps).mem } := by
  unfold State.writeImage
  induction ps generalizing s with
  | nil => rfl
  | cons q ps ih =>
    rw [List.foldl_cons, ih]
    rfl

theorem park_next (hg : s.group? g.gid = some g) (ht : s.team? g.team = some t) (hgr : s.grid? t.grid = some gr)
    (hfit : s.ctxFits = true ∨ f.service ≠ none) : ∃ u, s.park g.gid f word run issuing past = .next u := by
  cases hf : f.service with
  | some page => exact ⟨_, park_paged hg ht hgr hf⟩
  | none => exact ⟨_, park_imaged hg ht hgr hf (hfit.resolve_right fun h => h hf)⟩

/-- A group's place, and the host's debugger set on its grid's queue. -/
def State.debugged (s : State) (g : Group) : Prop :=
  ∃ t gr, s.team? g.team = some t ∧ s.grid? t.grid = some gr ∧ gr.serves = none ∧
    (s.queue gr.queue).ctl.getLsbD 8 = true ∧ s.ctxFits = true

/-- The route of a park to the host's debugger. -/
theorem group?_routePark {h : Group} {p : ParkRec} (hs : (s.group? h.gid).isSome = true) (hv : gr.serves = none)
    (hq : (s.queue gr.queue).ctl.getLsbD 8 = true) :
    (s.routePark h gr p).group? h.gid = some { h with park := some { p with route := .host gr.queue } } := by
  simp only [State.routePark, hv, hq, if_true]
  rw [State.svcLog_eq]
  exact State.group?_setGroup_same (g := { h with park := some { p with route := .host gr.queue } }) hs

/-- A park for the host's debugger leaves the group as it was but for its state. -/
theorem park_debugged (hg : s.group? g.gid = some g) (hd : s.debugged g) (hf : f.service = none) :
    ∃ u p, s.park g.gid f word run issuing past = .next u ∧ u.group? g.gid = some (g.parkedWith p) ∧
      p.cause = f.cause ∧ p.detail = f.detail ∧ p.word = BitVec.ofNat 5 word ∧ p.run = BitVec.ofNat 5 run ∧
      p.issuing = issuing ∧ p.prior = g.st := by
  obtain ⟨t, gr, ht, hgr, hv, hq, hctx⟩ := hd
  refine ⟨_, { s.parkRec g t gr f word run issuing past with route := .host gr.queue }, park_imaged hg ht hgr hf hctx, ?_, rfl, rfl,
    rfl, rfl, rfl, rfl⟩
  rw [State.parkImaged, writeImage_eq]
  exact group?_routePark (h := g.parkedWith _) (Option.isSome_of_eq_some (group?_parkStart hg _)) hv hq

/-- A park for the memory service names the page, and writes no image. -/
theorem park_service {page : BitVec 48} (hg : s.group? g.gid = some g) (ht : s.team? g.team = some t)
    (hgr : s.grid? t.grid = some gr) (hf : f.service = some page) :
    ∃ u p, s.park g.gid f word run issuing past = .next u ∧ u.group? g.gid = some (g.parkedWith p) ∧ p.cause = f.cause ∧
      p.route = .service ∧ p.page = page := by
  refine ⟨_, s.parkRec g t gr f word run issuing past, park_paged hg ht hgr hf, group?_parkStart hg _, rfl, ?_, ?_⟩
  · simp [State.parkRec, hf]
  · simp [State.parkRec, hf]
end

end Sys2Proof.Machine

namespace Sys2Proof.Machine

/-! ## Clause issue (02 R26, R33, R46, 03 R71) -/

/-- The homes that the group's clause has been fetched from. -/
def Group.gotHomes (g : Group) : List Nat := match g.fetch with | some f => f.got | none => []

/-- A quadrant may issue, and its first ready group, with its team and its grid, stands at an address. -/
structure MayIssue (s : State) (core quad : Nat) (g : Group) (t : Team) (gr : Grid) (a : BitVec 48) : Prop where
  free : s.pipeBusy core quad = false
  calm : s.resets = []
  first : s.firstReady core quad = some g
  team : s.team? g.team = some t
  grid : s.grid? t.grid = some gr
  addr : g.issueAddr = some a
  own : s.group? g.gid = some g

namespace MayIssue
variable {s : State} {core quad : Nat} {y : Bool} {g : Group} {t : Team} {gr : Grid} {a : BitVec 48}

/-- What an issue decision does with the group, its team, its grid and its issue address. -/
theorem issue_eq (h : MayIssue s core quad g t gr a) (f : Group → Team → Grid → BitVec 48 → Out) :
    (need (!s.pipeBusy core quad && s.resets.isEmpty) <| needSome (s.firstReady core quad) fun g =>
      needSome (s.team? g.team) fun t => needSome (s.grid? t.grid) fun gr => needSome g.issueAddr fun a => f g t gr a) =
    f g t gr a := by
  rw [need_eq _ (by simp [h.free, h.calm]), needSome_eq _ h.first, needSome_eq _ h.team, needSome_eq _ h.grid,
    needSome_eq _ h.addr]

theorem asks (h : MayIssue s core quad g t gr a) {home : Nat} (hh : s.homeToAsk core a g.gotHomes = some home) :
    exec (.clauseIssue core quad y) s = fetchOn s g home := by
  refine (h.issue_eq _).trans ?_
  split
  case h_1 x hx => rw [Option.some.inj (hx.symm.trans hh)]
  case h_2 hx => cases hx.symm.trans hh

section
variable (h : MayIssue s core quad g t gr a) (hh : s.homeToAsk core a g.gotHomes = none)
include h hh

theorem bad_header {hw : W64} {d : Nat} (hword : s.fetchWord core a = .word hw) (hd : headerDetail hw = some d) :
    exec (.clauseIssue core quad y) s = need (!s.samplerBusy g.gid) (s.park g.gid
      (if g.jumped &&& g.activeLanes != 0 then illegal a 0 13 d else illegal a 0 d 0) 0 0 a
      (some (a + BitVec.ofNat 48 (8 * ((Header.ofWord hw).count + 1))))) := by
  refine (h.issue_eq _).trans ?_
  split
  case h_1 hx => cases hx.symm.trans hh
  case h_2 => simp only [hword, hd]

theorem bad_words {hw : W64} {f : Fetched} (hword : s.fetchWord core a = .word hw) (hd : headerDetail hw = none)
    (hf : s.fetchWords core a (Header.ofWord hw).count = .error f) :
    exec (.clauseIssue core quad y) s = fetchStop s g a f := by
  refine (h.issue_eq _).trans ?_
  split
  case h_1 hx => cases hx.symm.trans hh
  case h_2 => simp only [hword, hd, hf]

theorem bad_clause {hw : W64} {ws : List W64} {i d : Nat} (hword : s.fetchWord core a = .word hw) (hd : headerDetail hw = none)
    (hws : s.fetchWords core a (Header.ofWord hw).count = .ok ws) (hc : clauseDetail (ctxOf gr) hw ws = some (i, d)) :
    exec (.clauseIssue core quad y) s = need (!s.samplerBusy g.gid) (s.park g.gid (illegal a i d 0) i 0 a
      (some (a + BitVec.ofNat 48 (8 * ((Header.ofWord hw).count + 1))))) := by
  refine (h.issue_eq _).trans ?_
  split
  case h_1 hx => cases hx.symm.trans hh
  case h_2 => simp only [hword, hd, hws, hc]

theorem starts {hw : W64} {ws : List W64} (hword : s.fetchWord core a = .word hw) (hd : headerDetail hw = none)
    (hws : s.fetchWords core a (Header.ofWord hw).count = .ok ws) (hc : clauseDetail (ctxOf gr) hw ws = none) :
    exec (.clauseIssue core quad y) s = .next (s.startClause g a (Header.ofWord hw) ws y) := by
  refine (h.issue_eq _).trans ?_
  split
  case h_1 hx => cases hx.symm.trans hh
  case h_2 => simp only [hword, hd, hws, hc]

theorem stops {f : Fetched} (hf : s.fetchWord core a = f) (hnot : ∀ w, f ≠ .word w) :
    exec (.clauseIssue core quad y) s = fetchStop s g a f := by
  refine (h.issue_eq _).trans ?_
  split
  case h_1 hx => cases hx.symm.trans hh
  case h_2 =>
    cases f with
    | word w => exact absurd rfl (hnot w)
    | fault k d l st addr => simp only [hf]
    | wait page => simp only [hf]
end
end MayIssue

/-! ### What an issue leaves -/

/-- A port's count changes nothing but the ports. -/
theorem countFlit_mem_groups (s : State) (p : Nat) : (s.countFlit p).mem = s.mem ∧ (s.countFlit p).groups = s.groups := by
  unfold State.countFlit
  split <;> exact ⟨rfl, rfl⟩

theorem pathOf_mem_groups (s : State) (home : Nat) :
    (s.pathOf home).2.mem = s.mem ∧ (s.pathOf home).2.groups = s.groups := by
  unfold State.pathOf
  dsimp only
  split
  · exact ⟨rfl, rfl⟩
  · split
    · exact countFlit_mem_groups _ _
    · exact ⟨rfl, rfl⟩

section
variable {s : State} {g : Group}

/-- The request for a clause behind a link names its home. -/
theorem fetchOn_asks (hg : s.group? g.gid = some g) (hf : g.fetch = none) (home : Nat) :
    ∃ t u f, fetchOn s g home = .next t ∧ t.mem = s.mem ∧ t.group? g.gid = some u ∧ u.fetch = some f ∧ u.st = g.st ∧
      u.run = g.run ∧ f.sent.home = home ∧ f.lost = false := by
  obtain ⟨hmem, hgroups⟩ := pathOf_mem_groups s home
  have hsome : ((s.flit home).2.group? g.gid).isSome = true := by
    rw [State.group?, show (s.flit home).2.groups = s.groups from hgroups, ← State.group?, hg]
    rfl
  have hsend : fetchOn s g home = .next ((s.flit home).2.setGroup { g with fetch := some ⟨(s.flit home).1, 0, false, []⟩ }) := by
    simp only [fetchOn, hf]
  exact ⟨_, { g with fetch := some ⟨(s.flit home).1, 0, false, []⟩ }, _, hsend, hmem, State.group?_setGroup_same hsome,
    rfl, rfl, rfl, rfl, rfl⟩

theorem startClause_starts (hg : s.group? g.gid = some g) (a : BitVec 48) (hdr : Header) (ws : List W64) (y : Bool) :
    ∃ u r, (s.startClause g a hdr ws y).group? g.gid = some u ∧
      { u with last := g.last, yielded := g.yielded, fetch := g.fetch }.kept = g.kept ∧ u.lpc = g.lpc ∧ u.st = g.st ∧
      u.flags = (g.flags ||| setMask hdr) &&& ~~~s.doneFlags g.gid r ∧ u.run = some r ∧ r.addr = a ∧ r.hdr = hdr ∧
      r.words = ws ∧ r.idx = 1 ∧ r.lanes = g.activeLanes ∧ r.rep = none ∧ r.pipe = true :=
  ⟨_, _, State.group?_setGroup_same (Option.isSome_of_eq_some hg), rfl, rfl, rfl, rfl, rfl, rfl, rfl, rfl, rfl, rfl, rfl, rfl⟩

theorem startClause_others (a : BitVec 48) (hdr : Header) (ws : List W64) (y : Bool) {j : Nat} (hj : j ≠ g.gid) :
    (s.startClause g a hdr ws y).group? j = s.group? j := by
  rw [State.startClause, State.group?_setGroup_other]
  · rfl
  · exact hj.symm
end

/-! ### Traps before the start -/

/-- An issue that parks its group: a next state in any case, and for the debugger the park's record. -/
def State.Traps (s : State) (o : Out) (g : Group) (a : BitVec 48) (cause : BitVec 8) (word detail : Nat) : Prop :=
  (s.ctxFits = true → ∃ t, o = .next t) ∧
  (s.debugged g → ∃ t p, o = .next t ∧ t.group? g.gid = some (g.parkedWith p) ∧ p.cause = cause ∧
    p.word = BitVec.ofNat 5 word ∧ p.issuing = a ∧ p.detail = BitVec.ofNat 8 detail)

namespace MayIssue
section
variable {s : State} {core quad : Nat} {y : Bool} {g : Group} {t : Team} {gr : Grid} {a : BitVec 48}
variable (h : MayIssue s core quad g t gr a) (hbusy : s.samplerBusy g.gid = false)
include h hbusy

/-- A park before the start is a trap with the fault's cause and detail. -/
theorem traps_of_park {f : FaultRec} {word detail : Nat} {past : Option (BitVec 48)} (hf : f.service = none)
    (hd : f.detail = BitVec.ofNat 8 detail) :
    s.Traps (need (!s.samplerBusy g.gid) (s.park g.gid f word 0 a past)) g a f.cause word detail := by
  rw [need_eq _ (by simp [hbusy])]
  refine ⟨fun hctx => park_next h.own h.team h.grid (.inl hctx), fun hdbg => ?_⟩
  obtain ⟨u, p, hu, hgu, hc, hpd, hw, -, hi, -⟩ := park_debugged (word := word) (run := 0) (issuing := a) (past := past)
    h.own hdbg hf
  exact ⟨u, p, hu, hgu, hc, hw, hi, hpd.trans hd⟩

/-- A fetch that faults is cause 6, with its kind. -/
theorem traps_fetch {k d l st : Nat} {addr : W64} :
    s.Traps (fetchStop s g a (.fault k d l st addr)) g a 6 0 k :=
  h.traps_of_park hbusy (f := fetchFault s.device k d l st a g.activeLanes addr) rfl rfl

variable (hh : s.homeToAsk core a g.gotHomes = none)
include hh

theorem traps_header {hw : W64} {d : Nat} (hword : s.fetchWord core a = .word hw) (hd : headerDetail hw = some d) :
    s.Traps (exec (.clauseIssue core quad y) s) g a 1 0 (if g.jumped &&& g.activeLanes = 0 then d else 13) := by
  rw [h.bad_header hh hword hd]
  split <;> rename_i hj
  · rw [if_neg (by simpa using hj)]
    exact h.traps_of_park hbusy (f := illegal a 0 13 d) rfl rfl
  · rw [if_pos (by simpa using hj)]
    exact h.traps_of_park hbusy (f := illegal a 0 d 0) rfl rfl

theorem traps_clause {hw : W64} {ws : List W64} {i d : Nat} (hword : s.fetchWord core a = .word hw)
    (hd : headerDetail hw = none) (hws : s.fetchWords core a (Header.ofWord hw).count = .ok ws)
    (hc : clauseDetail (ctxOf gr) hw ws = some (i, d)) :
    s.Traps (exec (.clauseIssue core quad y) s) g a 1 i d := by
  rw [h.bad_clause hh hword hd hws hc]
  exact h.traps_of_park hbusy (f := illegal a i d 0) rfl rfl
end

/-- A clause that cannot be read stops its group's issue, in its header's place or in a later word's. -/
theorem unread {s : State} {core quad : Nat} {y : Bool} {g : Group} {t : Team} {gr : Grid} {a : BitVec 48}
    (h : MayIssue s core quad g t gr a) (hh : s.homeToAsk core a g.gotHomes = none) {f : Fetched} (hnot : ∀ w, f ≠ .word w)
    (hf : s.fetchWord core a = f ∨ ∃ hw, s.fetchWord core a = .word hw ∧ headerDetail hw = none ∧
      s.fetchWords core a (Header.ofWord hw).count = .error f) :
    exec (.clauseIssue core quad y) s = fetchStop s g a f := by
  rcases hf with hf | ⟨hw, hword, hd, hf⟩
  · exact h.stops hh hf hnot
  · exact h.bad_words hh hword hd hf
end MayIssue

/-- On a quiesced page the group waits, with nothing else changed. -/
theorem fetchStop_waits {s : State} {g : Group} (hg : s.group? g.gid = some g) (a : BitVec 48) (page : BitVec 32) :
    ∃ t u, fetchStop s g a (.wait page) = .next t ∧ t = { s with groups := t.groups } ∧ t.group? g.gid = some u ∧
      u.st = .blockedPage page ∧ u.kept = g.kept :=
  ⟨_, _, rfl, rfl, State.group?_setGroup_same (g := { g with
    st := .blockedPage page, since := some (g.since.getD s.ctl.ptc) }) (Option.isSome_of_eq_some hg), rfl, rfl⟩

/-- The obligation's first part: the clause issue. -/
theorem clauseIssue_spec {s : State} {core quad : Nat} {y : Bool} {g : Group} {tm : Team} {gr : Grid} {a : BitVec 48}
    (h : MayIssue s core quad g tm gr a) :
    (∀ home, s.homeToAsk core a g.gotHomes = some home → g.fetch = none → ∃ t u f,
      exec (.clauseIssue core quad y) s = .next t ∧ t.mem = s.mem ∧
      t.group? g.gid = some u ∧ u.fetch = some f ∧ u.st = g.st ∧ u.run = g.run ∧ f.sent.home = home ∧ f.lost = false) ∧
    (s.homeToAsk core a g.gotHomes = none →
    (∀ hw, s.fetchWord core a = .word hw →
      (∀ d, headerDetail hw = some d → s.samplerBusy g.gid = false →
        s.Traps (exec (.clauseIssue core quad y) s) g a 1 0 (if g.jumped &&& g.activeLanes = 0 then d else 13)) ∧
      (headerDetail hw = none → ∀ ws, s.fetchWords core a (Header.ofWord hw).count = .ok ws →
        (∀ w d, clauseDetail (ctxOf gr) hw ws = some (w, d) → s.samplerBusy g.gid = false →
          s.Traps (exec (.clauseIssue core quad y) s) g a 1 w d) ∧
        (clauseDetail (ctxOf gr) hw ws = none → ∃ t u r, exec (.clauseIssue core quad y) s = .next t ∧ t.mem = s.mem ∧
          t.ops = s.ops ∧ (∀ j, j ≠ g.gid → t.group? j = s.group? j) ∧ t.group? g.gid = some u ∧
          { u with last := g.last, yielded := g.yielded, fetch := g.fetch }.kept = g.kept ∧ u.lpc = g.lpc ∧ u.st = g.st ∧
          u.flags = (g.flags ||| setMask (Header.ofWord hw)) &&& ~~~s.doneFlags g.gid r ∧ u.run = some r ∧ r.addr = a ∧
          r.hdr = Header.ofWord hw ∧ r.words = ws ∧ r.idx = 1 ∧ r.lanes = g.activeLanes ∧ r.rep = none ∧ r.pipe = true))) ∧
    (∀ k d l st addr, (s.fetchWord core a = .fault k d l st addr ∨ ∃ hw, s.fetchWord core a = .word hw ∧ headerDetail hw = none ∧
      s.fetchWords core a (Header.ofWord hw).count = .error (.fault k d l st addr)) → s.samplerBusy g.gid = false →
      s.Traps (exec (.clauseIssue core quad y) s) g a 6 0 k) ∧
    (∀ page, s.fetchWord core a = .wait page → ∃ t u, exec (.clauseIssue core quad y) s = .next t ∧
      t = { s with groups := t.groups } ∧ t.group? g.gid = some u ∧ u.st = .blockedPage page ∧ u.kept = g.kept)) := by
  refine ⟨fun home hh hf => ?_, fun hh => ⟨fun hw hword => ⟨fun d hd hb => h.traps_header hb hh hword hd,
    fun hd ws hws => ⟨fun w d hc hb => h.traps_clause hb hh hword hd hws hc, fun hc => ?_⟩⟩, fun k d l st addr hf hb => ?_,
    fun page hf => ?_⟩⟩
  · rw [h.asks hh]
    exact fetchOn_asks h.own hf home
  · obtain ⟨u, r, hu⟩ := startClause_starts h.own a (Header.ofWord hw) ws y
    exact ⟨_, u, r, h.starts hh hword hd hws hc, rfl, rfl, fun j => startClause_others a _ ws y, hu⟩
  · rw [h.unread hh (by simp) hf]
    exact h.traps_fetch hb
  · rw [h.unread hh (by simp) (.inl hf)]
    exact fetchStop_waits h.own a page

end Sys2Proof.Machine

namespace Sys2Proof.Machine

/-! ## Fault delivery and the hang limit (01 R22, 14 R389) -/

/-- A group with a team and a grid. -/
def State.placed (s : State) (g : Group) : Prop := ∃ t gr, s.team? g.team = some t ∧ s.grid? t.grid = some gr

section
variable {s : State} {gid : Nat} {g : Group}

/-- The delivery of a fault that a group that has not ended has reached parks the group. -/
theorem faultDelivery_eq {o : Op} {f : FaultRec} (hg : s.group? gid = some g) (hbusy : s.samplerBusy gid = false)
    (ho : s.dueFault g = some o) (hf : o.fault = some f) (hst : g.st ≠ .exited) (hrep : o.isReport = false) :
    exec (.faultDelivery gid) s = (s.setGroup g).park g.gid f o.word.toNat o.run.toNat o.clause none := by
  have hgid := State.group?_gid hg
  change execFaultDelivery gid s = _
  simp only [execFaultDelivery]
  rw [needSome_eq _ hg, needSome_eq _ ho, needSome_eq _ hf]
  simp [hst, hbusy, need, parkOp, hgid, hrep]

theorem faultDelivery_spec {o : Op} {f : FaultRec} (hg : s.group? gid = some g) (hbusy : s.samplerBusy gid = false)
    (ho : s.dueFault g = some o) (hf : o.fault = some f) (hst : g.st ≠ .exited) (hrep : o.isReport = false) :
    (s.placed g → (s.ctxFits = true ∨ f.service ≠ none) → ∃ t, exec (.faultDelivery gid) s = .next t) ∧
    (f.service = none → s.debugged g → ∃ t p, exec (.faultDelivery gid) s = .next t ∧
      t.group? g.gid = some (g.parkedWith p) ∧
      p.cause = f.cause ∧ p.detail = f.detail ∧ p.word = o.word ∧ p.run = o.run ∧ p.issuing = o.clause) ∧
    (∀ page, f.service = some page → s.placed g → ∃ t p, exec (.faultDelivery gid) s = .next t ∧
      t.group? g.gid = some (g.parkedWith p) ∧ p.cause = f.cause ∧ p.route = .service ∧ p.page = page) := by
  have hself : (s.setGroup g).group? g.gid = some g :=
    State.group?_setGroup_same (by rw [State.group?_gid hg, hg]; rfl)
  rw [faultDelivery_eq hg hbusy ho hf hst hrep]
  refine ⟨fun ⟨t, gr, ht, hgr⟩ hfit => park_next hself ht hgr hfit, fun hserv hd => ?_,
    fun page hserv ⟨t, gr, ht, hgr⟩ => park_service hself ht hgr hserv⟩
  obtain ⟨u, p, hu, hgu, hc, hpd, hw, hr, hi, -⟩ := park_debugged (s := s.setGroup g) (word := o.word.toNat) (run := o.run.toNat)
    (issuing := o.clause) (past := none) hself hd hserv
  exact ⟨u, p, hu, hgu, hc, hpd, by simpa using hw, by simpa using hr, hi⟩

/-- The group's wait or block has lasted its limit. -/
def State.expired (s : State) (g : Group) : Prop :=
  ∃ since, g.since = some since ∧ (g.blocked = true ∨ s.waitsOnFlags g = true) ∧ since + g.hang.toNat * 1000 ≤ s.ctl.ptc

/-- A wait that has lasted the limit is over it. -/
theorem overHang_of_expired (h : s.expired g) : s.overHang g = true := by
  obtain ⟨since, hsince, hwait, hle⟩ := h
  simp only [State.overHang, hsince]
  simp only [Bool.and_eq_true, Bool.or_eq_true, decide_eq_true_eq]
  exact ⟨hwait, by omega⟩

/-- The word of the clause that the group runs. -/
def Group.runWord (g : Group) : Nat := match g.run with | some r => r.idx | none => 0

/-- Between clauses, the hang limit parks the group, at the clause that it is in or at its next. -/
theorem hangLimitExpiry_between (hg : s.group? gid = some g) (hbusy : s.samplerBusy gid = false) (hne : g.hang ≠ 0)
    (hlive : g.live ≠ 0) (hb : g.between = true) (hover : g.hung = true ∨ s.overHang g = true) :
    exec (.hangLimitExpiry gid) s = match g.run with
      | some r => s.park gid (hangFault r.addr r.idx r.runNo) r.idx r.runNo r.addr none
      | none => s.park gid (hangFault g.current 0 0) 0 0 g.current none := by
  change execHangLimitExpiry gid s = _
  rw [execHangLimitExpiry, needSome_eq _ hg, if_pos hb]
  refine need_eq _ ?_
  have hover' : (g.hung || s.overHang g) = true := by simpa using hover
  simpa [hover', hbusy] using And.intro hne hlive

theorem current_of_run {r : Run} (hr : g.run = some r) : g.current = r.addr := by
  simp only [Group.current, hr]

theorem hangLimitExpiry_parks (hg : s.group? gid = some g) (hbusy : s.samplerBusy gid = false) (hne : g.hang ≠ 0)
    (hlive : g.live ≠ 0) (hb : g.between = true) (hover : g.hung = true ∨ s.overHang g = true) :
    ∃ n, exec (.hangLimitExpiry gid) s = s.park gid (hangFault g.current g.runWord n) g.runWord n g.current none := by
  rw [hangLimitExpiry_between hg hbusy hne hlive hb hover, Group.runWord]
  cases hr : g.run with
  | some r => exact ⟨r.runNo, by rw [current_of_run hr]⟩
  | none => exact ⟨0, rfl⟩

/-- The hang limit at its expiry. -/
theorem hangLimitExpiry_spec (hg : s.group? gid = some g) (hbusy : s.samplerBusy gid = false) (hne : g.hang ≠ 0)
    (hlive : g.live ≠ 0) :
    (g.between = true → g.hung = true ∨ s.expired g →
      (s.placed g → s.ctxFits = true → ∃ t, exec (.hangLimitExpiry gid) s = .next t) ∧
      (s.debugged g → ∃ t p, exec (.hangLimitExpiry gid) s = .next t ∧ t.group? g.gid = some (g.parkedWith p) ∧
        p.cause = 14 ∧ p.issuing = g.current ∧ p.prior = g.st ∧ p.word = BitVec.ofNat 5 g.runWord)) ∧
    (g.between = false → g.hung = false → s.expired g →
      exec (.hangLimitExpiry gid) s = .next (s.setGroup { g with hung := true })) := by
  obtain rfl := State.group?_gid hg
  refine ⟨fun hb hor => ?_, fun hb hh he => ?_⟩
  · obtain ⟨n, hn⟩ := hangLimitExpiry_parks hg hbusy hne hlive hb (hor.imp_right overHang_of_expired)
    rw [hn]
    refine ⟨fun ⟨t, gr, ht, hgr⟩ hctx => park_next hg ht hgr (.inl hctx), fun hd => ?_⟩
    obtain ⟨u, p, hu, hgu, hc, -, hw, -, hi, hp⟩ := park_debugged (f := hangFault g.current g.runWord n) (word := g.runWord)
      (run := n) (issuing := g.current) (past := none) hg hd rfl
    exact ⟨u, p, hu, hgu, hc, hi, hp, hw⟩
  · change execHangLimitExpiry g.gid s = _
    rw [execHangLimitExpiry, needSome_eq _ hg, if_neg (by simp [hb])]
    exact need_eq _ (by simpa [hh, overHang_of_expired he] using hne)
end

/-! ## Budgets (14 R384, R385) -/

theorem budgetPeriod_spec {s : State} (h : s.ctl.budgetAt + 100000 ≤ s.ctl.ptc) :
    ∃ t, exec .budgetPeriod s = .next t ∧ t.budget = { s.budget with used := List.replicate 5 0 } ∧ t.groups = s.groups :=
  ⟨_, need_eq _ (by simpa using h), rfl, rfl⟩

theorem clsbudWrite_spec {s : State} {c : Nat} {v : W64} (hc : c < 5) (hup : s.ctl.up = true)
    (hlen : s.budget.reg.length = 5) :
    ∃ t, exec (.clsbudWrite c v) s = .next t ∧ t.budget.used = s.budget.used ∧
      t.budget.reg.getD c 0 = if s.budgetOk c v = true then v else s.budget.reg.getD c 0 := by
  refine ⟨_, (need_eq _ (by simpa using hc)).trans (by rw [if_pos hup]), ?_⟩
  unfold State.budgetWrite
  split
  · exact ⟨rfl, by simp [hlen, hc]⟩
  · exact ⟨rfl, rfl⟩

end Sys2Proof.Machine

namespace Sys2Proof.Machine

/-! ## Fields of a register -/

theorem getLsbD_setFld (v : W64) {hi lo : Nat} (hlo : lo ≤ hi) (hhi : hi < 64) (x i : Nat) :
    (setFld v hi lo x).getLsbD i = if lo ≤ i ∧ i ≤ hi then x.testBit (i - lo) else v.getLsbD i := by
  simp only [setFld, BitVec.getLsbD_or, BitVec.getLsbD_and, BitVec.getLsbD_not, BitVec.getLsbD_ofNat, Nat.testBit_shiftLeft,
    Nat.testBit_two_pow_sub_one]
  by_cases hin : lo ≤ i ∧ i ≤ hi
  · have hmask : i - lo < hi - lo + 1 := by omega
    have hlt : i < 64 := by omega
    simp [hin, hmask, hlt]
  · rw [if_neg hin]
    have hmask : (decide (i ≥ lo) && decide (i - lo < hi - lo + 1)) = false := by
      simp only [Bool.and_eq_false_iff, decide_eq_false_iff_not]
      omega
    rw [hmask]
    by_cases hlt : i < 64
    · simp [hlt]
    · simp [hlt, BitVec.getLsbD_of_ge v i (by omega)]

theorem testBit_fld (v : W64) (hi lo j : Nat) :
    (fld v hi lo).testBit j = (decide (j < hi - lo + 1) && v.getLsbD (lo + j)) := by
  rw [fld, Nat.testBit_mod_two_pow, Nat.testBit_shiftRight]
  rfl

/-- A field reads what was written to it. -/
theorem fld_setFld_same (v : W64) {hi lo : Nat} (hlo : lo ≤ hi) (hhi : hi < 64) (x : Nat) :
    fld (setFld v hi lo x) hi lo = x % 2 ^ (hi - lo + 1) := by
  refine Nat.eq_of_testBit_eq fun j => ?_
  rw [testBit_fld, getLsbD_setFld v hlo hhi, Nat.testBit_mod_two_pow]
  by_cases hj : j < hi - lo + 1
  · rw [if_pos (by omega), Nat.add_sub_cancel_left]
  · simp [hj]

/-- A field is as it was after another was written. -/
theorem fld_setFld_other (v : W64) {hi lo hi' lo' : Nat} (hlo : lo ≤ hi) (hhi : hi < 64) (h : hi' < lo ∨ hi < lo')
    (hlo' : lo' ≤ hi') (x : Nat) : fld (setFld v hi lo x) hi' lo' = fld v hi' lo' := by
  refine Nat.eq_of_testBit_eq fun j => ?_
  rw [testBit_fld, testBit_fld, getLsbD_setFld v hlo hhi]
  by_cases hj : j < hi' - lo' + 1
  · rw [if_neg (by omega)]
  · simp [hj]

/-! ## The words of DBGACT (14 Table 14.4) -/

/-- A write of an action has GO, no ERR, its action and its image. -/
theorem dbgAction_fields {action : Nat} (ha : action < 4) (image : BitVec 45) :
    (dbgAction action image).getLsbD 63 = true ∧ (dbgAction action image).getLsbD 62 = false ∧
    fld (dbgAction action image) 51 48 = action ∧ fld (dbgAction action image) 44 0 = image.toNat := by
  refine ⟨?_, ?_, ?_, ?_⟩
  · simp [dbgAction, getLsbD_setFld, -BitVec.getLsbD_eq_getElem]
  · simp [dbgAction, getLsbD_setFld, -BitVec.getLsbD_eq_getElem]
  · rw [dbgAction, fld_setFld_other _ (by omega) (by omega) (by omega) (by omega), fld_setFld_same _ (by omega) (by omega)]
    omega
  · rw [dbgAction, fld_setFld_other _ (by omega) (by omega) (by omega) (by omega),
      fld_setFld_other _ (by omega) (by omega) (by omega) (by omega), fld]
    have := image.isLt
    simp
    omega

/-- The fields that a write leaves have neither GO nor ERR. -/
theorem dbgFields_go_err (v : W64) : (dbgFields v).getLsbD 63 = false ∧ (dbgFields v).getLsbD 62 = false := by
  constructor <;> simp [dbgFields, getLsbD_setFld, -BitVec.getLsbD_eq_getElem]

/-- ERR set: GO stays as it was. -/
theorem setErr_bits (v : W64) : (setFld v 62 62 1).getLsbD 62 = true ∧ (setFld v 62 62 1).getLsbD 63 = v.getLsbD 63 := by
  constructor <;> simp [getLsbD_setFld, -BitVec.getLsbD_eq_getElem]

theorem setGo_bit (v : W64) : (setFld v 63 63 1).getLsbD 63 = true := by
  simp [getLsbD_setFld, -BitVec.getLsbD_eq_getElem]

end Sys2Proof.Machine

namespace Sys2Proof.Machine

/-! ## What a recall of a range, a kill and a settled exit leave -/

theorem writeBack_setLine_eq (s : State) (ln ln' : L1Line) : (s.writeBack ln).setLine ln' =
    { s with mem := ((s.writeBack ln).setLine ln').mem, l1 := ((s.writeBack ln).setLine ln').l1 } := rfl

/-- A recall changes memory and the lines alone. -/
theorem recallRange_eq (s : State) (lo hi : Nat) :
    s.recallRange lo hi = { s with mem := (s.recallRange lo hi).mem, l1 := (s.recallRange lo hi).l1 } := by
  unfold State.recallRange
  generalize s.l1.filter _ = lines
  induction lines generalizing s with
  | nil => rfl
  | cons ln lines ih =>
    rw [List.foldl_cons, ih]
    rfl

/-- What comes home does not turn on the queues or the groups. -/
theorem recallRange_mem_of_eq {s t : State} (ht : t = { s with queues := t.queues, groups := t.groups }) (lo hi : Nat) :
    (t.recallRange lo hi).mem = (s.recallRange lo hi).mem := by
  have key : ∀ (lines : List L1Line) (s t : State), t.mem = s.mem →
      (lines.foldl (fun (s : State) ln => (s.writeBack ln).setLine { ln with dirty := 0 }) t).mem =
      (lines.foldl (fun (s : State) ln => (s.writeBack ln).setLine { ln with dirty := 0 }) s).mem := by
    intro lines
    induction lines with
    | nil => exact fun s t h => h
    | cons ln lines ih =>
      intro s t h
      refine ih _ _ ?_
      rw [State.setLine_mem, State.setLine_mem]
      exact congrArg (fun m => ln.dirtyBytes.foldl (fun m p => Store.write m (ln.blk + p.1) p.2) m) h
  rw [ht]
  exact key _ _ _ rfl

theorem imagePrecOk_congr {s t : State} (h : t.mem = s.mem) (d : Nat) : t.imagePrecOk d = s.imagePrecOk d := by
  simp only [State.imagePrecOk, State.le_congr h]

theorem unpark_eq (s : State) (g : Group) : s.unpark g = { s with queues := (s.unpark g).queues } := by
  unfold State.unpark
  split
  · split <;> rfl
  · rfl

/-- A group that awaits no queue leaves no queue. -/
theorem unpark_of_route_ne {s : State} {g : Group} (h : ∀ p q, g.park = some p → p.route ≠ .host q) : s.unpark g = s := by
  unfold State.unpark
  split
  case h_1 p hp =>
    split
    · exact absurd ‹_› (h p _ hp)
    · rfl
  case h_2 => rfl

/-- A killed group has exited, with no lane live. -/
def State.Killed (s : State) (gid : Nat) : Prop := ∃ u, s.group? gid = some u ∧ u.st = .exited ∧ u.live = 0

theorem killGroup_of_some {s : State} {gid : Nat} {g : Group} (hg : s.group? gid = some g) : s.killGroup gid =
    { s with queues := (s.unpark g).queues, ops := s.ops.filter fun o => !(o.gid == gid && o.fault.isSome) }.setGroup
      { g with st := .exited, live := 0, run := none, park := none, since := none } := by
  unfold State.killGroup
  rw [hg]
  dsimp only
  rw [unpark_eq]

theorem killGroup_kills {s : State} {gid : Nat} (hs : (s.group? gid).isSome = true) : (s.killGroup gid).Killed gid := by
  obtain ⟨g, hg⟩ := Option.isSome_iff_exists.mp hs
  obtain rfl := State.group?_gid hg
  rw [killGroup_of_some hg]
  exact ⟨_, State.group?_setGroup_same (g := { g with st := .exited, live := 0, run := none, park := none, since := none })
    hs, rfl, rfl⟩

theorem group?_killGroup_other {s : State} {gid k : Nat} (h : k ≠ gid) : (s.killGroup k).group? gid = s.group? gid := by
  cases hk : s.group? k with
  | none => simp only [State.killGroup, hk]
  | some g =>
    obtain rfl := State.group?_gid hk
    rw [killGroup_of_some hk]
    exact State.group?_setGroup_other (g := { g with st := .exited, live := 0, run := none, park := none, since := none }) h

/-- Killing groups keeps a killed group killed. -/
theorem killed_foldl {gid : Nat} (ks : List Nat) {s : State} (h : s.Killed gid) : (ks.foldl State.killGroup s).Killed gid := by
  induction ks generalizing s with
  | nil => exact h
  | cons k ks ih =>
    refine ih ?_
    by_cases hk : k = gid
    · obtain ⟨u, hu, -⟩ := h
      rw [hk]
      exact killGroup_kills (Option.isSome_of_eq_some hu)
    · rw [State.Killed, group?_killGroup_other hk]
      exact h

/-- A group among those killed ends killed. -/
theorem foldl_killGroup_kills {gid : Nat} (ks : List Nat) {s : State} (hmem : gid ∈ ks)
    (hs : (s.group? gid).isSome = true) : (ks.foldl State.killGroup s).Killed gid := by
  induction ks generalizing s with
  | nil => cases hmem
  | cons k ks ih =>
    by_cases hk : k = gid
    · rw [List.foldl_cons, hk]
      exact killed_foldl ks (killGroup_kills hs)
    · exact ih ((List.mem_cons.mp hmem).resolve_left fun h => hk h.symm) (by rwa [group?_killGroup_other hk])

/-- The family of some grids has them in it. -/
theorem mem_family {s : State} {id : W64} (n : Nat) {roots : List W64} (h : id ∈ roots) : id ∈ s.family n roots := by
  induction n generalizing roots with
  | zero => exact h
  | succ n ih => exact ih (List.mem_append_left _ h)

theorem killGrids_kills {s : State} {g : Group} {t : Team} {roots : List W64} (hg : s.group? g.gid = some g)
    (hst : g.st = .parked) (ht : s.team? g.team = some t) (hroot : t.grid ∈ roots) (cause detail : BitVec 8) :
    (s.killGrids roots cause detail).Killed g.gid := by
  refine foldl_killGroup_kills _ ?_ (Option.isSome_of_eq_some hg)
  refine List.mem_map.mpr ⟨g, List.mem_filter.mpr ⟨List.mem_of_find?_eq_some hg, ?_⟩, rfl⟩
  have hteam : ({ s with grids := s.grids.map (killMark (s.family 11 roots) (cause, detail)) } : State).team? g.team = some t :=
    ht
  have hlisted : (s.family 11 roots).contains t.grid = true := List.contains_iff_mem.mpr (mem_family 11 hroot)
  rw [hteam, hst]
  simpa using hlisted

/-- A grid's kill kills the groups of its teams, in a graph or not. -/
theorem killGrid_kills {s : State} {g : Group} {t : Team} {gr : Grid} (hg : s.group? g.gid = some g) (hst : g.st = .parked)
    (ht : s.team? g.team = some t) (hgr : s.grid? t.grid = some gr) (cause detail : BitVec 8) :
    (s.killGrid gr.id cause detail).Killed g.gid := by
  have hid : gr.id = t.grid := State.grid?_id hgr
  unfold State.killGrid
  rw [hid, hgr]
  dsimp only
  cases hnode : gr.node with
  | none => exact killGrids_kills hg hst ht (List.mem_singleton_self _) cause detail
  | some n =>
    refine killGrids_kills (s := { s with
      graphs := s.graphs.map fun (h : Graph) =>
        if h.id == n.1 && h.killed.isNone then { h with killed := some (cause, detail) } else h
      recs := s.recs.filter fun (r : Rec) => r.graph != n.1 }) (t := t) hg hst ht ?_ cause detail
    refine List.mem_map.mpr ⟨gr, List.mem_filter.mpr ⟨List.mem_of_find?_eq_some hgr, ?_⟩, hid⟩
    simp only [hnode, beq_self_eq_true]

/-! ## What the return from a park leaves (14 R392) -/

/-- The state stands with the group as `h`, or ended, and with the queues of `s`. -/
def State.Returned (s : State) (h : Group) (t : State) : Prop :=
  t.queues = s.queues ∧ ∃ u, t.group? h.gid = some u ∧ (u.st = h.st ∨ u.st = .exited) ∧ u.park = h.park ∧ u.live = h.live ∧
    u.scal = h.scal

theorem returned_setGroup {s : State} {h : Group} (hs : (s.group? h.gid).isSome = true) : s.Returned h (s.setGroup h) :=
  ⟨rfl, h, State.group?_setGroup_same hs, .inl rfl, rfl, rfl, rfl⟩

theorem returned_settleExit {s : State} {gid : Nat} {h : Group} (hg : s.group? gid = some h) :
    s.Returned h (s.settleExit gid) := by
  obtain rfl := State.group?_gid hg
  unfold State.settleExit
  rw [hg]
  dsimp only
  split
  · exact ⟨rfl, _, State.group?_setGroup_same (g := { h with st := .exited, since := none }) (Option.isSome_of_eq_some hg),
      .inr rfl, rfl, rfl, rfl⟩
  · exact ⟨rfl, h, hg, .inl rfl, rfl, rfl, rfl⟩

theorem returned_setGroup_settleExit {s : State} {h : Group} {gid : Nat} (hgid : h.gid = gid)
    (hs : (s.group? gid).isSome = true) : s.Returned h ((s.setGroup h).settleExit gid) := by
  subst hgid
  exact returned_settleExit (s := s.setGroup h) (State.group?_setGroup_same hs)

/-- The group's place in the issue list does not count. -/
theorem State.Returned.of_unplaced {s s' t : State} {h h' : Group} (hq : s'.queues = s.queues) (hu : h'.unplaced = h.unplaced)
    (ht : s'.Returned h' t) : s.Returned h t := by
  obtain ⟨hqs, u, hu', hst, hpark, hlive, hscal⟩ := ht
  have same : ∀ {α : Type} (f : Group → α), f h'.unplaced = f h.unplaced := fun f => congrArg f hu
  rw [show h'.gid = h.gid from same Group.gid] at hu'
  rw [show h'.st = h.st from same Group.st] at hst
  exact ⟨hqs.trans hq, u, hu', hst, hpark.trans (same Group.park), hlive.trans (same Group.live),
    hscal.trans (same Group.scal)⟩

theorem exists_requeue {s : State} {gid core quad : Nat} {b : Bool} {k : Nat} {h : Group} (hg : s.group? k = some h) :
    ∃ h', (s.requeue gid core quad b).group? k = some h' ∧ h'.unplaced = h.unplaced := by
  have hmap := State.group?_requeue s gid core quad b k
  rw [hg, Option.map_some] at hmap
  exact Option.map_eq_some_iff.mp hmap

/-- The group as the end of its clause writes it. -/
def State.ended (s : State) (g : Group) (r : Run) (target : Nat → BitVec 48) (jumped : W32) : Group :=
  ({ g with
    lpc := (laneList r.lanes).foldl (fun m l => Store.write m l (target l)) g.lpc
    run := none
    jumped := (g.jumped &&& ~~~r.lanes) ||| (jumped &&& r.lanes)
    since := some s.ctl.ptc } : Group).clearFlags (s.idleFlags g.gid r.hdr)

theorem endClause_eq (s : State) (g : Group) (r : Run) (target : Nat → BitVec 48) (jumped : W32) :
    s.endClause g r target jumped =
      (match s.team? g.team with
       | some t => (s.setGroup (s.ended g r target jumped)).requeue g.gid t.core g.quad (r.hdr.yield && g.yielded)
       | none => s.setGroup (s.ended g r target jumped)).settleExit g.gid := rfl

theorem returned_endClause {s : State} {g : Group} {r : Run} {target : Nat → BitVec 48} {j : W32}
    (hs : (s.group? g.gid).isSome = true) : s.Returned g (s.endClause g r target j) := by
  have hended : (s.setGroup (s.ended g r target j)).group? g.gid = some (s.ended g r target j) :=
    State.group?_setGroup_same (g := s.ended g r target j) hs
  rw [endClause_eq]
  have hret : ∀ (s' : State) (h' : Group), s'.group? g.gid = some h' → s'.queues = s.queues → h'.unplaced = (s.ended g r target j).unplaced →
      s.Returned (s.ended g r target j) (s'.settleExit g.gid) :=
    fun s' h' hg hq hu => State.Returned.of_unplaced hq hu (returned_settleExit hg)
  split
  · obtain ⟨h', hg', hu⟩ := exists_requeue hended
    exact hret _ h' hg' (by rw [State.requeue_only]; rfl) hu
  · exact hret _ _ hended rfl rfl

theorem returned_advance {s : State} {g : Group} {r : Run} (hs : (s.group? g.gid).isSome = true) :
    s.Returned g (s.advance g r) := by
  have hgoOn : ∀ r', s.Returned g (s.goOn g r') := fun r' =>
    returned_setGroup (h := ({ g with run := some r', since := none } : Group).clearFlags (s.doneFlags g.gid r')) hs
  cases hagain : r.again with
  | true => rw [State.advance_again hagain]; exact hgoOn _
  | false =>
    by_cases hi : r.idx < r.hdr.count
    · rw [State.advance_next hagain hi]
      exact hgoOn _
    · rw [State.advance_end hagain (Nat.not_lt.mp hi)]
      exact returned_endClause hs

end Sys2Proof.Machine

namespace Sys2Proof.Machine

/-! ## The return from a park (14 R392) -/

/-- A wait that the park ended runs its word again. -/
def GState.rerun : GState → GState
  | .blockedBatch _ | .blockedClasp .. | .blockedPage _ => .ready
  | x => x

/-- The group as its image gives it back, at time `now`; `s` is the state that the image is read in. -/
def State.reloaded (s : State) (g : Group) (gr : Grid) (p : ParkRec) (now : Nat) : Group :=
  { s.reload g gr p.image.toNat with st := p.prior.rerun, park := none, since := some now }

/-- The lanes whose LPC was edited in the image. -/
def ParkRec.edits (p : ParkRec) (h : Group) : W32 :=
  laneMask fun l => h.live.getLsbD l && Store.read h.lpc l != Store.read p.lpcs l

/-- The group's commands as the image gives them back; a skip completes those that faulted. -/
def State.reloadedOps (s : State) (gid : Nat) (p : ParkRec) (action : Nat) : List Op :=
  let faulted := (s.opsOf gid).filter fun o => o.fault.isSome && !o.isReport
  let os := reloadOps s p.image.toNat p.recs (s.opsOf gid)
  if action == 1 then os.map fun o => if faulted.any (fun f => f.id == o.id) then o.skip else o else os

/-- A group whose LPCs were edited: it stands at them, out of its clause. -/
def State.edited (s : State) (gid : Nat) (h : Group) (edits : W32) : Group :=
  { (match h.run with | some r => h.clearFlags (s.idleFlags gid r.hdr) | none => h) with
    run := none, st := .ready, jumped := (match h.run with
      | some r => h.clearFlags (s.idleFlags gid r.hdr) | none => h).jumped &&& ~~~edits }

/-- A group that passes its faulted clause: its lanes stand past it. -/
def Group.passedTo (h : Group) (a : BitVec 48) : Group :=
  { h with
    st := .ready
    lpc := (laneList h.activeLanes).foldl (fun m l => Store.write m l a) h.lpc
    jumped := h.jumped &&& ~~~h.activeLanes }

/-- How the reloaded group goes on: from its edited LPCs, as it was, or past the word that trapped. -/
def State.goesOn (s : State) (gid : Nat) (h : Group) (p : ParkRec) (action : Nat) (edits : W32) : Out :=
  if edits != 0 then .next ((s.setGroup (s.edited gid h edits)).settleExit gid)
  else if action == 0 then .next ((s.setGroup h).settleExit gid)
  else match h.run with
    | some r =>
      if p.issuing == r.addr && p.word.toNat == r.idx && p.run.toNat == r.runNo then
        .next (s.advance { h with st := .ready } r.passed)
      else .next (s.setGroup h)
    | none => match p.past with
      | some a => .next (s.setGroup (h.passedTo a))
      | none => .next ((s.setGroup h).settleExit gid)

/-- The fault of an image whose PREC words are not legal. -/
def imageFault (p : ParkRec) : FaultRec :=
  { cause := 11, detail := 6, fields := plainFields p.issuing p.word.toNat p.run.toNat, lanes := 0, service := none }

/-- What a group's return from its park does with its image, read in `v`. -/
def State.returnIn (v : State) (g : Group) (gr : Grid) (p : ParkRec) (action : Nat) : Out :=
  let os := v.reloadedOps g.gid p action
  if action == 3 then .next (v.killGrid gr.id p.cause p.detail)
  else if action == 2 then .next (v.killGroup g.gid)
  else if !v.imagePrecOk p.image.toNat then
    (v.setGroup { g with st := p.prior, park := none }).park g.gid (imageFault p) p.word.toNat p.run.toNat p.issuing p.past
  else (v.putOps os).goesOn g.gid (v.reloaded g gr p (v.putOps os).ctl.ptc) p action (p.edits (v.reload g gr p.image.toNat))

theorem resume_eq {s : State} {g : Group} {p : ParkRec} {t : Team} {gr : Grid} (hp : g.park = some p)
    (ht : s.team? g.team = some t) (hgr : s.grid? t.grid = some gr) (action : Nat) :
    s.resume g action = (s.recallRange p.image.toNat (p.image.toNat + 65536)).returnIn g gr p action := by
  unfold State.resume
  rw [needSome_eq _ hp, needSome_eq _ ht, needSome_eq _ hgr]
  rfl

/-! ### What the return leaves -/

/-- The state stands with the group as `h`, ready for its next clause, or ended. -/
def State.Resumed (s : State) (h : Group) (t : State) : Prop :=
  t.queues = s.queues ∧ ∃ u, t.group? h.gid = some u ∧ (u.st = h.st ∨ u.st = .ready ∨ u.st = .exited) ∧ u.park = h.park ∧
    u.live = h.live ∧ u.scal = h.scal

/-- A group as `h'` is one as `h`, where only its place in its clauses differs. -/
theorem State.Returned.resumed {s t : State} {h' h : Group} (hr : s.Returned h' t) (hgid : h'.gid = h.gid)
    (hst : h'.st = h.st ∨ h'.st = .ready) (hpark : h'.park = h.park) (hlive : h'.live = h.live) (hscal : h'.scal = h.scal) :
    s.Resumed h t := by
  obtain ⟨hq, u, hu, hust, hup, hul, husc⟩ := hr
  refine ⟨hq, u, hgid ▸ hu, ?_, hup.trans hpark, hul.trans hlive, husc.trans hscal⟩
  rcases hust with hust | hust
  · rcases hst with hst | hst
    · exact .inl (hust.trans hst)
    · exact .inr (.inl (hust.trans hst))
  · exact .inr (.inr hust)

section
variable {s : State} {h : Group} (hs : (s.group? h.gid).isSome = true)
include hs

/-- With edited LPCs the group stands between clauses. -/
theorem resumed_edited (edits : W32) : s.Resumed h ((s.setGroup (s.edited h.gid h edits)).settleExit h.gid) := by
  have hfields : (s.edited h.gid h edits).gid = h.gid ∧ (s.edited h.gid h edits).park = h.park ∧
      (s.edited h.gid h edits).live = h.live ∧ (s.edited h.gid h edits).scal = h.scal := by
    unfold State.edited
    cases h.run with
    | some r => exact ⟨rfl, rfl, rfl, rfl⟩
    | none => exact ⟨rfl, rfl, rfl, rfl⟩
  obtain ⟨hgid, hpark, hlive, hscal⟩ := hfields
  exact (returned_setGroup_settleExit hgid hs).resumed hgid (.inr rfl) hpark hlive hscal

theorem resumed_settled : s.Resumed h ((s.setGroup h).settleExit h.gid) :=
  (returned_setGroup_settleExit rfl hs).resumed rfl (.inl rfl) rfl rfl rfl

theorem goesOn_resumes (p : ParkRec) (action : Nat) (edits : W32) :
    ∃ u, s.goesOn h.gid h p action edits = .next u ∧ s.Resumed h u := by
  unfold State.goesOn
  split
  · exact ⟨_, rfl, resumed_edited hs edits⟩
  split
  · exact ⟨_, rfl, resumed_settled hs⟩
  split
  case h_1 r hrun =>
    split
    · exact ⟨_, rfl, (returned_advance (g := { h with st := .ready }) hs).resumed rfl (.inr rfl) rfl rfl rfl⟩
    · exact ⟨_, rfl, (returned_setGroup hs).resumed rfl (.inl rfl) rfl rfl rfl⟩
  case h_2 =>
    split
    case h_1 a hpast => exact ⟨_, rfl, (returned_setGroup (h := h.passedTo a) hs).resumed rfl (.inr rfl) rfl rfl rfl⟩
    case h_2 => exact ⟨_, rfl, resumed_settled hs⟩
end

/-- Commands put back change the commands alone. -/
theorem putOps_eq (s : State) (os : List Op) : s.putOps os = { s with ops := (s.putOps os).ops } := by
  unfold State.putOps
  induction os generalizing s with
  | nil => rfl
  | cons o os ih =>
    rw [List.foldl_cons, ih]
    rfl

theorem rerun_ne_parked {st : GState} (h : st ≠ .parked) : st.rerun ≠ .parked := by
  unfold GState.rerun
  split
  · exact GState.noConfusion
  · exact GState.noConfusion
  · exact GState.noConfusion
  · exact h

section
variable {v : State} {g : Group} {gr : Grid} {p : ParkRec}

theorem reloaded_gid (v : State) (g : Group) (gr : Grid) (p : ParkRec) (now : Nat) : (v.reloaded g gr p now).gid = g.gid := by
  dsimp only [State.reloaded, State.reload]

theorem reloaded_scal (v : State) (g : Group) (gr : Grid) (p : ParkRec) (now : Nat) : (v.reloaded g gr p now).scal =
    Store.ofList ((List.range 64).map fun n => BitVec.ofNat 64 (v.le (p.image.toNat + 0x1440 + 8 * n) 8)) := by
  dsimp only [State.reloaded, State.reload]

theorem returnIn_legal {action : Nat} (ha : action < 2) (hok : v.imagePrecOk p.image.toNat = true) :
    v.returnIn g gr p action = (v.putOps (v.reloadedOps g.gid p action)).goesOn g.gid
      (v.reloaded g gr p (v.putOps (v.reloadedOps g.gid p action)).ctl.ptc) p action
      (p.edits (v.reload g gr p.image.toNat)) := by
  have h3 : ¬(action == 3) = true := by simp only [beq_iff_eq]; omega
  have h2 : ¬(action == 2) = true := by simp only [beq_iff_eq]; omega
  rw [State.returnIn, if_neg h3, if_neg h2, if_neg (by simp [hok])]

theorem returnIn_illegal {action : Nat} (ha : action < 2) (hok : v.imagePrecOk p.image.toNat = false) :
    v.returnIn g gr p action = (v.setGroup { g with st := p.prior, park := none }).park g.gid (imageFault p) p.word.toNat
      p.run.toNat p.issuing p.past := by
  have h3 : ¬(action == 3) = true := by simp only [beq_iff_eq]; omega
  have h2 : ¬(action == 2) = true := by simp only [beq_iff_eq]; omega
  rw [State.returnIn, if_neg h3, if_neg h2, if_pos (by simp [hok])]

/-- A resume or a skip of an image with legal PREC words. -/
theorem returnIn_resumes {action : Nat} (ha : action < 2) (hg : (v.group? g.gid).isSome = true)
    (hok : v.imagePrecOk p.image.toNat = true) :
    ∃ u now, v.returnIn g gr p action = .next u ∧ v.Resumed (v.reloaded g gr p now) u := by
  rw [returnIn_legal ha hok]
  obtain ⟨w, hw⟩ : ∃ w, w = v.putOps (v.reloadedOps g.gid p action) := ⟨_, rfl⟩
  rw [← hw, ← reloaded_gid v g gr p w.ctl.ptc]
  have hput : (w.group? (v.reloaded g gr p w.ctl.ptc).gid).isSome = true := by
    rw [reloaded_gid, hw, putOps_eq]
    exact hg
  obtain ⟨u, hu, hq, hr⟩ := goesOn_resumes hput p action (p.edits (v.reload g gr p.image.toNat))
  exact ⟨u, w.ctl.ptc, hu, hq.trans (by rw [hw, putOps_eq]), hr⟩

/-- An image with other PREC words parks its group once more. -/
theorem returnIn_next {action : Nat} {t : Team} (ha : action < 2) (hg : (v.group? g.gid).isSome = true)
    (ht : v.team? g.team = some t) (hgr : v.grid? t.grid = some gr)
    (hfit : v.imagePrecOk p.image.toNat = true ∨ v.ctxFits = true) : ∃ u, v.returnIn g gr p action = .next u := by
  cases hok : v.imagePrecOk p.image.toNat with
  | true =>
    obtain ⟨u, _, hu, -⟩ := returnIn_resumes (gr := gr) ha hg hok
    exact ⟨u, hu⟩
  | false =>
    rw [returnIn_illegal ha hok]
    exact park_next (g := { g with st := p.prior, park := none }) (State.group?_setGroup_same hg) ht hgr
      (.inl (hfit.resolve_left (by simp [hok])))
end

end Sys2Proof.Machine

namespace Sys2Proof.Machine

/-! ## DBGACT (14 R393) -/

/-- A group that awaits an action of a queue stands parked, with its place and its park's route to that queue. -/
theorem awaiting_some {s : State} {q image : Nat} {g : Group} (h : s.awaiting q image = some g) :
    g.st = .parked ∧ ∃ p t gr, g.park = some p ∧ p.route = .host q ∧ s.team? g.team = some t ∧ s.grid? t.grid = some gr := by
  unfold State.awaiting at h
  split at h
  case h_1 => cases h
  case h_2 x hx =>
    split at h
    case h_2 => cases h
    case h_1 p gr hp hgr =>
      obtain ⟨t, ht, hgr⟩ := Option.bind_eq_some_iff.mp hgr
      split at h
      case isFalse => cases h
      case isTrue hroute =>
        obtain rfl := Option.some.inj h
        simp only [Bool.and_eq_true, beq_iff_eq] at hroute
        have hst := List.find?_some hx
        simp only [Bool.and_eq_true, beq_iff_eq] at hst
        exact ⟨hst.1, p, t, gr, hp, hroute.1, ht, hgr⟩

/-- The group whose park awaits no queue any longer. -/
def Group.unhosted (g : Group) : Group := { g with park := g.park.map fun p => { p with route := .none } }

/-- The state in which an action is applied to a group: the queue counts one group less. -/
def State.dbgStart (s : State) (q : Nat) (g : Group) (v : W64) : State :=
  ((s.setQueue q { s.queue q with dbgact := dbgFields v }).unpark g).setGroup g.unhosted

theorem dbgApply_eq (s : State) (q : Nat) (g : Group) (v : W64) (action : Nat) :
    (s.setQueue q { s.queue q with dbgact := dbgFields v }).dbgApply q g action =
      (s.dbgStart q g v).resume g.unhosted action := rfl

theorem dbgStart_eq (s : State) (q : Nat) (g : Group) (v : W64) : s.dbgStart q g v =
    { s with queues := (s.dbgStart q g v).queues, groups := (s.dbgStart q g v).groups } := by
  unfold State.dbgStart
  rw [unpark_eq]
  rfl

/-- An action's queue after it: one group less waits for the host, and GO reads 0. -/
def State.Released (s : State) (q : Nat) (t : State) : Prop :=
  fld (t.queue q).stat 39 32 = (fld (s.queue q).stat 39 32 - 1) % 256 ∧ (t.queue q).dbgact.getLsbD 63 = false

section
variable {s : State} {q : Nat} {g : Group} {p : ParkRec} {v : W64}

theorem dbgStart_released (hq : q < s.queues.length) (hp : g.park = some p) (hroute : p.route = .host q) :
    s.Released q (s.dbgStart q g v) := by
  have hset : (s.setQueue q { s.queue q with dbgact := dbgFields v }).queue q = { s.queue q with dbgact := dbgFields v } :=
    State.queue_setQueue_same _ _ _ hq
  have hqueue : (s.dbgStart q g v).queue q = { s.queue q with
      stat := setFld (s.queue q).stat 39 32 (fld (s.queue q).stat 39 32 - 1), dbgact := dbgFields v } := by
    have hlen : q < (s.setQueue q { s.queue q with dbgact := dbgFields v }).queues.length := by
      simpa [State.setQueue] using hq
    change ((s.setQueue q _).unpark g).queue q = _
    simp only [State.unpark, hp, hroute]
    rw [State.queue_setQueue_same _ _ _ hlen, hset]
    simp only [(dbgFields_go_err v).1, Bool.false_and, Bool.false_eq_true, if_false]
  rw [State.Released, hqueue]
  exact ⟨fld_setFld_same _ (by omega) (by omega) _, (dbgFields_go_err v).1⟩

theorem State.Released.of_queues {t u : State} (h : s.Released q t) (hq : u.queues = t.queues) : s.Released q u := by
  have hqueue : u.queue q = t.queue q := congrArg (fun l => List.getD l q HQueue.reset) hq
  rw [State.Released, hqueue]
  exact h

theorem group?_dbgStart (hg : s.group? g.gid = some g) : (s.dbgStart q g v).group? g.gid = some g.unhosted := by
  have hsome : (((s.setQueue q { s.queue q with dbgact := dbgFields v }).unpark g).group? g.unhosted.gid).isSome = true := by
    rw [unpark_eq]
    exact Option.isSome_of_eq_some hg
  exact State.group?_setGroup_same hsome
end

/-! ### The actions on a group in place -/

/-- The state in which an action reads the image. -/
def State.dbgRead (s : State) (q : Nat) (g : Group) (v : W64) (d : Nat) : State :=
  (s.dbgStart q g v).recallRange d (d + 65536)

section
variable {s : State} {q : Nat} {g : Group} {p : ParkRec} {t : Team} {gr : Grid} {v : W64}

theorem dbgRead_only (d : Nat) : s.dbgRead q g v d = { s with
    mem := (s.dbgRead q g v d).mem, l1 := (s.dbgRead q g v d).l1
    queues := (s.dbgStart q g v).queues, groups := (s.dbgStart q g v).groups } := by
  unfold State.dbgRead
  rw [recallRange_eq, dbgStart_eq]

theorem dbgRead_mem (d : Nat) : (s.dbgRead q g v d).mem = (s.recallRange d (d + 65536)).mem :=
  recallRange_mem_of_eq (dbgStart_eq s q g v) d (d + 65536)

theorem group?_dbgRead (hg : s.group? g.gid = some g) (d : Nat) :
    (s.dbgRead q g v d).group? g.gid = some g.unhosted := by
  rw [dbgRead_only]
  exact group?_dbgStart hg

theorem dbgApply_returnIn (hp : g.park = some p) (ht : s.team? g.team = some t) (hgr : s.grid? t.grid = some gr) (action : Nat) :
    (s.setQueue q { s.queue q with dbgact := dbgFields v }).dbgApply q g action =
      (s.dbgRead q g v p.image.toNat).returnIn g.unhosted gr { p with route := .none } action := by
  rw [dbgApply_eq]
  refine resume_eq (p := { p with route := .none }) (t := t) (by simp only [Group.unhosted, hp, Option.map_some]) ?_ ?_ action
  · rw [dbgStart_eq]
    exact ht
  · rw [dbgStart_eq]
    exact hgr
end

section
variable {s : State} {q : Nat} {g : Group} {p : ParkRec} {t : Team} {gr : Grid} {v : W64}

theorem dbgRead_released (hq : q < s.queues.length) (hp : g.park = some p) (hroute : p.route = .host q) {d : Nat} {u : State}
    (hu : u.queues = (s.dbgRead q g v d).queues) : s.Released q u := by
  refine (dbgStart_released (v := v) hq hp hroute).of_queues (hu.trans ?_)
  rw [dbgRead_only]

theorem unhosted_route {r : Nat} : ∀ p', g.unhosted.park = some p' → p'.route ≠ .host r := by
  intro p' hp'
  obtain ⟨p, -, rfl⟩ := Option.map_eq_some_iff.mp hp'
  simp

theorem returnIn_killGroup {w : State} (hg : w.group? g.gid = some g.unhosted) :
    ∃ u, w.returnIn g.unhosted gr p 2 = .next u ∧ u.queues = w.queues ∧ u.Killed g.gid := by
  refine ⟨w.killGroup g.gid, rfl, ?_, killGroup_kills (Option.isSome_of_eq_some hg)⟩
  rw [killGroup_of_some hg, unpark_of_route_ne fun p' r => unhosted_route p']
  rfl

theorem returnIn_killGrid {w : State} (hg : w.group? g.gid = some g.unhosted) (hst : g.st = .parked)
    (ht : w.team? g.team = some t) (hgr : w.grid? t.grid = some gr) :
    ∃ u, w.returnIn g.unhosted gr p 3 = .next u ∧ u.Killed g.gid :=
  ⟨_, rfl, killGrid_kills (g := g.unhosted) hg hst ht hgr p.cause p.detail⟩

/-- The group as an image gives it back, by what its RW fields read. -/
def State.Reloaded (s : State) (q : Nat) (g : Group) (w : State) (d : Nat) (t : State) : Prop :=
  ∃ u, s.Released q t ∧ t.group? g.gid = some u ∧ u.st ≠ .parked ∧ u.park = none ∧
    u.live = BitVec.ofNat 32 (w.le (d + 0x165C) 4) ∧
    ∀ n, n < 64 → Store.read u.scal n = BitVec.ofNat 64 (w.le (d + 0x1440 + 8 * n) 8)

theorem read_reloaded_scal (w : State) (now : Nat) {n : Nat} (hn : n < 64) :
    Store.read (w.reloaded g gr p now).scal n = BitVec.ofNat 64 (w.le (p.image.toNat + 0x1440 + 8 * n) 8) := by
  have hread := Store.read_ofList
    ((List.range 64).map fun n => BitVec.ofNat 64 (w.le (p.image.toNat + 0x1440 + 8 * n) 8)) n (by simpa using hn)
  simp only [List.getElem?_map, List.getElem?_range hn, Option.map_some] at hread
  rw [reloaded_scal]
  exact Option.some.inj hread

theorem dbgApply_next {action : Nat} (hg : s.group? g.gid = some g) (hp : g.park = some p) (ht : s.team? g.team = some t)
    (hgr : s.grid? t.grid = some gr) (ha : action < 2)
    (hfit : (s.recallRange p.image.toNat (p.image.toNat + 65536)).imagePrecOk p.image.toNat = true ∨ s.ctxFits = true) :
    ∃ u, (s.setQueue q { s.queue q with dbgact := dbgFields v }).dbgApply q g action = .next u := by
  rw [dbgApply_returnIn hp ht hgr]
  have hctx : (s.dbgRead q g v p.image.toNat).ctxFits = s.ctxFits := by
    rw [dbgRead_only]
    rfl
  have hteam : (s.dbgRead q g v p.image.toNat).team? g.unhosted.team = some t := by
    rw [dbgRead_only]
    exact ht
  have hgrid : (s.dbgRead q g v p.image.toNat).grid? t.grid = some gr := by
    rw [dbgRead_only]
    exact hgr
  exact returnIn_next (g := g.unhosted) ha (Option.isSome_of_eq_some (group?_dbgRead hg _)) hteam hgrid
    (hfit.imp (fun h => (imagePrecOk_congr (dbgRead_mem _) _).trans h) hctx.trans)

theorem dbgApply_reloads {action : Nat} (hq : q < s.queues.length) (hg : s.group? g.gid = some g) (hp : g.park = some p)
    (hroute : p.route = .host q) (ht : s.team? g.team = some t) (hgr : s.grid? t.grid = some gr) (ha : action < 2)
    (hprior : p.prior ≠ .parked)
    (hok : (s.recallRange p.image.toNat (p.image.toNat + 65536)).imagePrecOk p.image.toNat = true) :
    ∃ u, (s.setQueue q { s.queue q with dbgact := dbgFields v }).dbgApply q g action = .next u ∧
      s.Reloaded q g (s.recallRange p.image.toNat (p.image.toNat + 65536)) p.image.toNat u := by
  rw [dbgApply_returnIn hp ht hgr]
  have hmem := dbgRead_mem (s := s) (q := q) (g := g) (v := v) p.image.toNat
  obtain ⟨u, now, hu, hqueues, x, hx, hst, hpark, hlive, hscal⟩ := returnIn_resumes (g := g.unhosted) (gr := gr)
    (p := { p with route := .none }) ha (Option.isSome_of_eq_some (group?_dbgRead hg _))
    ((imagePrecOk_congr hmem _).trans hok)
  rw [reloaded_gid] at hx
  refine ⟨u, hu, x, dbgRead_released hq hp hroute hqueues, hx, ?_, hpark, ?_, fun n hn => ?_⟩
  · rcases hst with hst | hst | hst
    · exact hst ▸ rerun_ne_parked hprior
    · simp [hst]
    · simp [hst]
  · rw [← State.le_congr hmem]
    exact hlive
  · rw [hscal, read_reloaded_scal _ _ hn, State.le_congr hmem]

theorem dbgApply_killGroup (hq : q < s.queues.length) (hg : s.group? g.gid = some g) (hp : g.park = some p)
    (hroute : p.route = .host q) (ht : s.team? g.team = some t) (hgr : s.grid? t.grid = some gr) :
    ∃ u, (s.setQueue q { s.queue q with dbgact := dbgFields v }).dbgApply q g 2 = .next u ∧ s.Released q u ∧
      u.Killed g.gid := by
  rw [dbgApply_returnIn hp ht hgr]
  obtain ⟨u, hu, hqueues, hkilled⟩ := returnIn_killGroup (gr := gr) (p := { p with route := .none })
    (group?_dbgRead (q := q) (v := v) hg p.image.toNat)
  exact ⟨u, hu, dbgRead_released hq hp hroute hqueues, hkilled⟩

theorem dbgApply_killGrid (hg : s.group? g.gid = some g) (hst : g.st = .parked) (hp : g.park = some p)
    (ht : s.team? g.team = some t) (hgr : s.grid? t.grid = some gr) :
    ∃ u, (s.setQueue q { s.queue q with dbgact := dbgFields v }).dbgApply q g 3 = .next u ∧ u.Killed g.gid := by
  rw [dbgApply_returnIn hp ht hgr]
  refine returnIn_killGrid (t := t) (group?_dbgRead hg _) hst ?_ ?_
  · rw [dbgRead_only]
    exact ht
  · rw [dbgRead_only]
    exact hgr
end

/-! ### The write -/

/-- The host's writes of the four actions. -/
def dbgInstrs (q : Nat) (image : BitVec 45) : List Instr :=
  [.dbgactResume q image, .dbgactSkip q image, .dbgactKillGroup q image, .dbgactKillGrid q image]

/-- The word `v` written with GO, where its fields name an action and an image. -/
def State.dbgGo (s : State) (q image action : Nat) (v : W64) : Out :=
  match s.awaiting q image with
  | none => .next (s.setQueue q { s.queue q with dbgact := setFld (dbgFields v) 62 62 1 })
  | some g =>
    if s.residentGroup g then (s.setQueue q { s.queue q with dbgact := dbgFields v }).dbgApply q g action
    else .next (s.setQueue q { s.queue q with dbgact := setFld (dbgFields v) 63 63 1 })

section
variable {s : State} {q : Nat} {image : BitVec 45}

/-- A write of an action, to a running part. -/
theorem dbgact_up (hq : q < 64) (hup : s.ctl.up = true) (action : Nat) :
    dbgact q action image s = s.dbgWrite q (dbgAction action image) :=
  (need_eq _ (by simpa using hq)).trans (if_pos hup)

theorem dbgact_down (hq : q < 64) (hup : s.ctl.up = false) (action : Nat) : dbgact q action image s = .next s :=
  (need_eq _ (by simpa using hq)).trans (if_neg (by simp [hup]))

/-- Each of the four instructions is the write of its action. -/
theorem exec_dbgInstr {i : Instr} (hi : i ∈ dbgInstrs q image) : ∃ action, action < 4 ∧ exec i = dbgact q action image := by
  simp only [dbgInstrs, List.mem_cons, List.not_mem_nil, or_false] at hi
  rcases hi with rfl | rfl | rfl | rfl
  · exact ⟨0, by omega, rfl⟩
  · exact ⟨1, by omega, rfl⟩
  · exact ⟨2, by omega, rfl⟩
  · exact ⟨3, by omega, rfl⟩

/-- A resume and a skip are the actions below 2. -/
theorem exec_dbgReturn {i : Instr} (hi : i ∈ [Instr.dbgactResume q image, .dbgactSkip q image]) :
    ∃ action, action < 2 ∧ exec i = dbgact q action image := by
  simp only [List.mem_cons, List.not_mem_nil, or_false] at hi
  rcases hi with rfl | rfl
  · exact ⟨0, by omega, rfl⟩
  · exact ⟨1, by omega, rfl⟩

variable (hq : q < 64) (hup : s.ctl.up = true)
include hq hup

/-- A write while GO reads 1 sets ERR. -/
theorem dbgact_busy (hgo : (s.queue q).dbgact.getLsbD 63 = true) (action : Nat) :
    dbgact q action image s = .next (s.setQueue q { s.queue q with dbgact := setFld (s.queue q).dbgact 62 62 1 }) := by
  rw [dbgact_up hq hup, State.dbgWrite, if_pos hgo]

variable (hgo : (s.queue q).dbgact.getLsbD 63 = false)
include hgo

/-- A write with GO, of an action of the table, finds its group or not. -/
theorem dbgact_go {action : Nat} (ha : action < 4) :
    dbgact q action image s = s.dbgGo q image.toNat action (dbgAction action image) := by
  obtain ⟨h63, -, haction, himage⟩ := dbgAction_fields ha image
  rw [dbgact_up hq hup, State.dbgWrite, haction, himage, if_neg (by rw [hgo]; decide), if_neg (by rw [h63]; decide),
    if_neg (Nat.not_le.mpr ha)]
  rfl

theorem dbgact_refused {action : Nat} (ha : action < 4) (hnone : s.awaiting q image.toNat = none) :
    dbgact q action image s =
      .next (s.setQueue q { s.queue q with dbgact := setFld (dbgFields (dbgAction action image)) 62 62 1 }) := by
  rw [dbgact_go hq hup hgo ha, State.dbgGo, hnone]

theorem dbgact_waits {action : Nat} {g : Group} (ha : action < 4) (hsome : s.awaiting q image.toNat = some g)
    (hres : s.residentGroup g = false) : dbgact q action image s =
      .next (s.setQueue q { s.queue q with dbgact := setFld (dbgFields (dbgAction action image)) 63 63 1 }) := by
  rw [dbgact_go hq hup hgo ha, State.dbgGo, hsome]
  exact if_neg (by simp [hres])

theorem dbgact_applies {action : Nat} {g : Group} (ha : action < 4) (hsome : s.awaiting q image.toNat = some g)
    (hres : s.residentGroup g = true) : dbgact q action image s =
      (s.setQueue q { s.queue q with dbgact := dbgFields (dbgAction action image) }).dbgApply q g action := by
  rw [dbgact_go hq hup hgo ha, State.dbgGo, hsome]
  exact if_pos hres
end

end Sys2Proof.Machine

namespace Sys2Proof.Machine

/-! ## The events of a group together -/

/-- A state that differs in its queues alone, where queue `q` keeps its counts and has the DBGACT `v`. -/
theorem queue_dbgact {s : State} {q : Nat} (hq : q < s.queues.length) (v : W64) :
    (s.setQueue q { s.queue q with dbgact := v }).queue q = { s.queue q with dbgact := v } :=
  State.queue_setQueue_same _ _ _ hq

/-- The obligation's third part, for a part that is up and a DBGACT without GO whose image names a group in place. -/
theorem dbgact_resident {s : State} {q : Nat} {image : BitVec 45} {g : Group} {p : ParkRec} (hq : q < 64)
    (hlen : q < s.queues.length) (hup : s.ctl.up = true) (hgo : (s.queue q).dbgact.getLsbD 63 = false)
    (hsome : s.awaiting q image.toNat = some g) (hg : s.group? g.gid = some g) (hp : g.park = some p)
    (hres : s.residentGroup g = true) :
    (∃ t u, exec (.dbgactKillGroup q image) s = .next t ∧ s.Released q t ∧ t.group? g.gid = some u ∧ u.st = .exited ∧
      u.live = 0) ∧
    (∃ t u, exec (.dbgactKillGrid q image) s = .next t ∧ t.group? g.gid = some u ∧ u.st = .exited ∧ u.live = 0) ∧
    (((s.recallRange p.image.toNat (p.image.toNat + 65536)).imagePrecOk p.image.toNat = true ∨ s.ctxFits = true) →
      ∀ i ∈ [Instr.dbgactResume q image, .dbgactSkip q image], ∃ t, exec i s = .next t) ∧
    (p.prior ≠ .parked → (s.recallRange p.image.toNat (p.image.toNat + 65536)).imagePrecOk p.image.toNat = true →
      ∀ i ∈ [Instr.dbgactResume q image, .dbgactSkip q image], ∃ t u, exec i s = .next t ∧ s.Released q t ∧
        t.group? g.gid = some u ∧ u.st ≠ .parked ∧ u.park = none ∧
        u.live = BitVec.ofNat 32 ((s.recallRange p.image.toNat (p.image.toNat + 65536)).le (p.image.toNat + 0x165C) 4) ∧
        ∀ n, n < 64 → Store.read u.scal n = BitVec.ofNat 64
          ((s.recallRange p.image.toNat (p.image.toNat + 65536)).le (p.image.toNat + 0x1440 + 8 * n) 8)) := by
  obtain ⟨hst, p', t, gr, hp', hroute, ht, hgr⟩ := awaiting_some hsome
  obtain rfl := Option.some.inj (hp.symm.trans hp')
  refine ⟨?_, ?_, fun hfit i hi => ?_, fun hprior hok i hi => ?_⟩
  · obtain ⟨u, hu, hrel, x, hx⟩ := dbgApply_killGroup (v := dbgAction 2 image) hlen hg hp hroute ht hgr
    exact ⟨u, x, (dbgact_applies hq hup hgo (by omega) hsome hres).trans hu, hrel, hx⟩
  · obtain ⟨u, hu, x, hx⟩ := dbgApply_killGrid (q := q) (v := dbgAction 3 image) hg hst hp ht hgr
    exact ⟨u, x, (dbgact_applies hq hup hgo (by omega) hsome hres).trans hu, hx⟩
  · obtain ⟨action, ha, hexec⟩ := exec_dbgReturn hi
    rw [hexec, dbgact_applies hq hup hgo (by omega) hsome hres]
    exact dbgApply_next hg hp ht hgr ha hfit
  · obtain ⟨action, ha, hexec⟩ := exec_dbgReturn hi
    rw [hexec, dbgact_applies hq hup hgo (by omega) hsome hres]
    obtain ⟨u, hu, x, hx⟩ := dbgApply_reloads (v := dbgAction action image) hlen hg hp hroute ht hgr ha hprior hok
    exact ⟨u, x, hu, hx⟩

section
variable {s : State} {q : Nat} {image : BitVec 45} (hq : q < 64) (hlen : q < s.queues.length) (hup : s.ctl.up = true)
include hq hlen hup

/-- While GO reads 1, a write sets ERR alone. -/
theorem dbgInstr_busy (hgo : (s.queue q).dbgact.getLsbD 63 = true) : ∀ i ∈ dbgInstrs q image, ∃ t, exec i s = .next t ∧
    t = { s with queues := t.queues } ∧ (t.queue q).dbgact.getLsbD 62 = true ∧ (t.queue q).dbgact.getLsbD 63 = true ∧
    (t.queue q).stat = (s.queue q).stat := by
  intro i hi
  obtain ⟨action, ha, hexec⟩ := exec_dbgInstr hi
  obtain ⟨herr, hgo'⟩ := setErr_bits (s.queue q).dbgact
  rw [hexec, dbgact_busy hq hup hgo]
  refine ⟨_, rfl, rfl, ?_⟩
  rw [queue_dbgact hlen]
  exact ⟨herr, hgo'.trans hgo, rfl⟩

variable (hgo : (s.queue q).dbgact.getLsbD 63 = false)
include hgo

/-- An image that no group awaits an action for: a write sets ERR, and GO reads 0. -/
theorem dbgInstr_refused (hnone : s.awaiting q image.toNat = none) : ∀ i ∈ dbgInstrs q image, ∃ t, exec i s = .next t ∧
    t = { s with queues := t.queues } ∧ (t.queue q).dbgact.getLsbD 62 = true ∧ (t.queue q).dbgact.getLsbD 63 = false ∧
    (t.queue q).stat = (s.queue q).stat := by
  intro i hi
  obtain ⟨action, ha, hexec⟩ := exec_dbgInstr hi
  obtain ⟨herr, hgo'⟩ := setErr_bits (dbgFields (dbgAction action image))
  rw [hexec, dbgact_refused hq hup hgo ha hnone]
  refine ⟨_, rfl, rfl, ?_⟩
  rw [queue_dbgact hlen]
  exact ⟨herr, hgo'.trans (dbgFields_go_err _).1, rfl⟩

/-- A group of a saved team: GO stays set. -/
theorem dbgInstr_waits {g : Group} (hsome : s.awaiting q image.toNat = some g) (hres : s.residentGroup g = false) :
    ∀ i ∈ dbgInstrs q image, ∃ t, exec i s = .next t ∧ t = { s with queues := t.queues } ∧
      (t.queue q).dbgact.getLsbD 63 = true ∧ (t.queue q).stat = (s.queue q).stat := by
  intro i hi
  obtain ⟨action, ha, hexec⟩ := exec_dbgInstr hi
  rw [hexec, dbgact_waits hq hup hgo ha hsome hres]
  refine ⟨_, rfl, rfl, ?_⟩
  rw [queue_dbgact hlen]
  exact ⟨setGo_bit _, rfl⟩
end

/-- Settles O48: each event is decided once by an equation of its own, and what it leaves is what a park, the start of a
clause, or the return from a park leaves. -/
theorem groupEvents : Obligations.GroupEvents := by
  unfold Obligations.GroupEvents
  refine ⟨fun s core quad y g tm gr a hfree hcalm hfirst hteam hgrid haddr hown => ?_,
    fun s gid g hg hbusy => ⟨fun o f ho hf hst hrep => faultDelivery_spec hg hbusy ho hf hst hrep,
      fun hne hlive => hangLimitExpiry_spec hg hbusy hne hlive⟩,
    fun s q image hq hlen => ?_, fun s h => budgetPeriod_spec h, fun s c v hc hup hlen => clsbudWrite_spec hc hup hlen⟩
  · exact clauseIssue_spec ⟨hfree, hcalm, hfirst, hteam, hgrid, haddr, hown⟩
  · have hqlen : q < s.queues.length := hlen ▸ hq
    refine ⟨fun hup i hi => ?_, fun hup => ⟨dbgInstr_busy hq hqlen hup, fun hgo => ⟨dbgInstr_refused hq hqlen hup hgo,
      fun g p hsome hg hp => ⟨dbgInstr_waits hq hqlen hup hgo hsome, dbgact_resident hq hqlen hup hgo hsome hg hp⟩⟩⟩⟩
    obtain ⟨action, -, hexec⟩ := exec_dbgInstr hi
    rw [hexec, dbgact_down hq hup]

end Sys2Proof.Machine

namespace Sys2Proof

/-! ## What fix gives (03 R79) -/

theorem IntTy.min_le_max (t : IntTy) : t.min ≤ t.max := by cases t <;> decide

theorem clamp_eq_max_min (t : IntTy) (x : Int) : t.clamp x = max t.min (min x t.max) := by
  have := t.min_le_max
  unfold IntTy.clamp
  split
  · omega
  · split <;> omega

/-- A number in the range of a type is read back from its result. -/
theorem IntTy.toInt_form_of_range (t : IntTy) {x : Int} (hmin : t.min ≤ x) (hmax : x ≤ t.max) :
    t.toInt (t.form x) = x := by
  obtain ⟨h1, h2⟩ := t.toInt_range (t.form x)
  have hspan : t.max - t.min < 2 ^ t.width := by cases t <;> decide
  have hdvd : (2 : Int) ^ t.width ∣ t.toInt (t.form x) - x := Int.ModEq.dvd (t.toInt_form x).symm
  have := Int.eq_zero_of_abs_lt_dvd hdvd (abs_lt.mpr ⟨by omega, by omega⟩)
  omega

theorem toInt_fix_sat (t : IntTy) (x : Int) : t.toInt (t.fix true x) = max t.min (min x t.max) := by
  rw [← clamp_eq_max_min]
  exact t.toInt_form_of_range (by rw [clamp_eq_max_min]; exact le_max_left ..)
    (by rw [clamp_eq_max_min]; exact max_le t.min_le_max (min_le_right ..))

/-- What fix(x, t) is, with and without sat, by its value and by its bits. -/
theorem fix_spec (t : IntTy) (sat : Bool) (x : Int) :
    let v := t.fix sat x
    t.min ≤ t.toInt v ∧ t.toInt v ≤ t.max ∧
    (sat = true → t.toInt v = max t.min (min x t.max)) ∧
    (sat = false → t.toInt v % 2 ^ t.width = x % 2 ^ t.width) ∧
    (∀ i, t.width ≤ i → i < 32 → v.getLsbD i = (t.signed && v.getLsbD (t.width - 1))) ∧
    (t.width < 64 → v.toNat < 2 ^ 32) := by
  obtain ⟨hmin, hmax⟩ := t.toInt_range (t.fix sat x)
  refine ⟨hmin, hmax, ?_, ?_, fun i => t.form_extended _ i, t.form_high _⟩
  · rintro rfl
    exact toInt_fix_sat t x
  · rintro rfl
    exact t.toInt_form x

theorem idivExact_eq (t : IntTy) (a b : Int) :
    idivExact t a b = if b = 0 then (if t.signed then -1 else 2 ^ t.width - 1) else Int.tdiv a b := by
  unfold idivExact IntTy.max
  cases t.signed <;> rfl

end Sys2Proof

namespace Sys2Proof.Machine

section
variable {s : State} {e : Env} (he : s.envOf s.focus = some e)
include he

/-- An arithmetic instruction completes with fix of its exact result. -/
theorem arithBin_word {i : Instr} {x : IBin} {f : Int → Int → Int} {r : Nat → Int} (hi : exec i s = arithBin s x f)
    (hr : ∀ l, f (x.t.toInt (e.src (tyWide x.t) x.a l)) (x.t.toInt (e.opd (tyWide x.t) x.b l)) = r l) :
    Completes s e i x.k x.d (tyWide x.t) fun l => x.t.fix x.sat (r l) :=
  laneOp_word he hi (funext fun l => congrArg (x.t.fix x.sat) (hr l))

end

/-- Settles O1: what fix gives is decided by the range of the type, and each exact result is that of Table 3.3. -/
theorem integerArithmetic : Obligations.IntegerArithmetic := by
  unfold Obligations.IntegerArithmetic
  refine ⟨fix_spec, fun s e he => ⟨fun x => ?_, fun x => laneOp_word he rfl rfl,
    fun x => ⟨laneOp_word he rfl (funext fun l => ?_), laneOp_word he rfl rfl⟩⟩⟩
  · exact ⟨arithBin_word he rfl fun _ => rfl, arithBin_word he rfl fun _ => rfl, arithBin_word he rfl fun _ => rfl,
      arithBin_word he rfl fun _ => rfl, arithBin_word he rfl fun _ => idivExact_eq .., arithBin_word he rfl fun _ => rfl,
      arithBin_word he (f := fun a b => if a ≤ b then a else b) rfl fun _ => (min_def ..).symm,
      arithBin_word he (f := fun a b => if a ≤ b then b else a) rfl fun _ => (max_def ..).symm⟩
  · rw [Int.abs_eq_natAbs]
    rfl

/-! ## Carry and borrow (03 R83) -/

theorem bit32_toNat (c : W64) : (if c.getLsbD 32 then 1 else 0 : Nat) = c.toNat / 2 ^ 32 % 2 := by
  rw [BitVec.getLsbD, Nat.testBit_eq_decide_div_mod_eq]
  have := Nat.mod_two_eq_zero_or_one (c.toNat / 2 ^ 32)
  split <;> simp_all

/-- The sum stands in bits 31:0 and its carry in bit 32. -/
theorem iadcVal_toNat (a b c : W64) (ha : a.toNat < 2 ^ 32) (hb : b.toNat < 2 ^ 32) :
    let x : Int := a.toNat + b.toNat + (c.toNat / 2 ^ 32 % 2 : Nat)
    ((iadcVal a b c).toNat : Int) = (if 2 ^ 32 ≤ x then 2 ^ 32 else 0) + x % 2 ^ 32 := by
  intro x
  have hc := bit32_toNat c
  unfold iadcVal
  rw [hc, BitVec.toNat_ofNat]
  split <;> omega

/-- The difference modulo 2^32 stands in bits 31:0 and its borrow in bit 32. -/
theorem isbcVal_toNat (a b c : W64) (ha : a.toNat < 2 ^ 32) (hb : b.toNat < 2 ^ 32) :
    let x : Int := a.toNat - b.toNat - (c.toNat / 2 ^ 32 % 2 : Nat)
    ((isbcVal a b c).toNat : Int) = (if x < 0 then 2 ^ 32 else 0) + x % 2 ^ 32 := by
  intro x
  have hc : (if c.getLsbD 32 then 1 else 0 : Int) = (c.toNat / 2 ^ 32 % 2 : Nat) := by rw [← bit32_toNat]; split <;> rfl
  have hx : Int.ofNat (a.toNat % 2 ^ 32) - Int.ofNat (b.toNat % 2 ^ 32) - (c.toNat / 2 ^ 32 % 2 : Nat) = x := by
    rw [Nat.mod_eq_of_lt ha, Nat.mod_eq_of_lt hb]
    rfl
  unfold isbcVal
  rw [hc]
  dsimp only
  rw [hx, BitVec.toNat_ofNat]
  split <;> omega

theorem src32_toNat_lt (e : Env) (f : Src) (l : Nat) : (e.src32 f l).toNat < 2 ^ 32 := by
  unfold Env.src32
  split <;> exact (BitVec.toNat_setWidth _ _ ▸ Nat.lt_of_le_of_lt (Nat.mod_le ..) (BitVec.isLt _))

/-- Settles O3: the exact sum and difference of two 32-bit numbers and a carry fit in 33 bits. -/
theorem carryArithmetic : Obligations.CarryArithmetic := by
  unfold Obligations.CarryArithmetic
  exact fun s e he x =>
    ⟨⟨_, laneOp_word he rfl rfl, fun l => iadcVal_toNat _ _ _ (src32_toNat_lt ..) (src32_toNat_lt ..)⟩,
      ⟨_, laneOp_word he rfl rfl, fun l => isbcVal_toNat _ _ _ (src32_toNat_lt ..) (src32_toNat_lt ..)⟩⟩

/-! ## Compare and select (03 R84) -/

theorem boolVal_of_iff {b : Bool} {p : Prop} [Decidable p] (h : b = true ↔ p) : boolVal b = if p then 1 else 0 := by
  simp only [boolVal, h]

theorem boolVal_decide (p : Prop) [Decidable p] : boolVal (decide p) = if p then 1 else 0 :=
  boolVal_of_iff decide_eq_true_iff

theorem boolVal_bne (a b : Int) : boolVal (a != b) = if a = b then 0 else 1 := by simp [boolVal]

/-- A source read as the type and written again. -/
theorem formN_pat (t : IntTy) (v : W64) : t.formN (t.pat v) = t.fix false (t.toInt v) := (t.form_toInt v).symm

/-- ISEL forms the source that C chooses. -/
theorem isel_word {s : State} {e : Env} (he : s.envOf s.focus = some e) (x : ITer) :
    Completes s e (.isel x) x.k x.d (tyWide x.t) fun l =>
      if e.src32 x.c l = 0 then x.t.fix false (x.t.toInt (e.src (tyWide x.t) x.b l))
      else x.t.fix false (x.t.toInt (e.src (tyWide x.t) x.a l)) :=
  laneOp_word he rfl (funext fun l => by
    rw [← formN_pat, ← formN_pat]
    exact apply_ite ..)

/-- Settles O4: each predicate is decided on the integers of the type. -/
theorem compareAndSelect : Obligations.CompareAndSelect := by
  unfold Obligations.CompareAndSelect
  exact fun s e he => ⟨fun x =>
    ⟨laneOp_word he rfl (funext fun _ => boolVal_decide _), laneOp_word he rfl (funext fun _ => boolVal_bne ..),
      laneOp_word he rfl (funext fun _ => boolVal_decide _), laneOp_word he rfl (funext fun _ => boolVal_decide _),
      laneOp_word he rfl (funext fun _ => boolVal_decide _), laneOp_word he rfl (funext fun _ => boolVal_decide _)⟩,
    isel_word he⟩

/-! ## Logic and shifts (03 R85 to R87) -/

section
variable {s : State} {e : Env} (he : s.envOf s.focus = some e)
include he

/-- A logic instruction combines the patterns of its sources. -/
theorem logicBin_word {i : Instr} {x : IBin} {f : Nat → Nat → Nat} (hi : exec i s = logicBin s x f) :
    Completes s e i x.k x.d (tyWide x.t) fun l =>
      x.t.fix false (f (x.t.pat (e.src (tyWide x.t) x.a l)) (x.t.pat (e.opd (tyWide x.t) x.b l)) : Nat) :=
  laneOp_word he hi rfl

/-- A shift takes its count from source B as N32. -/
theorem shiftBin_word {i : Instr} {x : IBin} {f : W64 → Nat → W64} {v : Nat → W64} (hi : exec i s = shiftBin s x f)
    (hv : ∀ l, f (e.src (tyWide x.t) x.a l) (e.opd false x.b l).toNat = v l) : Completes s e i x.k x.d (tyWide x.t) v :=
  laneOp_word he hi (funext hv)
end

/-- A pattern shifted right by the width or more is 0. -/
theorem shrlVal_eq (t : IntTy) (a : W64) (n : Nat) : shrlVal t a n = t.fix false ((t.pat a >>> n : Nat) : Int) := by
  unfold shrlVal
  rw [Nat.shiftRight_eq_div_pow]
  split
  case isTrue h =>
    rw [Nat.div_eq_of_lt ((t.pat_lt a).trans_le (Nat.pow_le_pow_right (by decide) h))]
    rfl
  case isFalse => rfl

theorem rotlVal_eq (t : IntTy) (a : W64) (n : Nat) : rotlVal t a n = t.fix false
    (((t.pat a <<< (n % t.width)) % 2 ^ t.width + t.pat a >>> (t.width - n % t.width) : Nat) : Int) := by
  rw [Nat.shiftLeft_eq, Nat.shiftRight_eq_div_pow]
  rfl

theorem fshlVal_eq (t : IntTy) (a b : W64) (n : Nat) : fshlVal t a b n = t.fix false
    ((((t.pat a * 2 ^ t.width + t.pat b) <<< (n % t.width)) >>> t.width % 2 ^ t.width : Nat) : Int) := by
  rw [Nat.shiftLeft_eq, Nat.shiftRight_eq_div_pow]
  rfl

/-- Settles O5: logic on patterns, and each shift by the equation of its value. -/
theorem logicAndShifts : Obligations.LogicAndShifts := by
  unfold Obligations.LogicAndShifts
  exact fun s e he => ⟨fun x => ⟨logicBin_word he rfl, logicBin_word he rfl, logicBin_word he rfl,
      logicBin_word he (f := fun a b => a &&& (2 ^ x.t.width - 1 - b)) rfl,
      shiftBin_word he rfl fun l => shlVal_eq .., shiftBin_word he rfl fun l => shrlVal_eq ..,
      shiftBin_word he rfl fun l => shraVal_eq .., shiftBin_word he rfl fun l => rotlVal_eq ..⟩,
    fun x => laneOp_word he rfl rfl, fun x => laneOp_word he rfl (funext fun l => fshlVal_eq ..)⟩

/-! ## Counts of bits (03 R88) -/

/-- CLZ is the number of bits above the highest one. -/
theorem clzVal_spec (t : IntTy) (a : W64) : ∃ n, clzVal t a = BitVec.ofNat 64 n ∧ n ≤ t.width ∧
    (∀ i, t.width - n ≤ i → i < t.width → (t.pat a).testBit i = false) ∧
    (n < t.width → (t.pat a).testBit (t.width - 1 - n) = true) := by
  have hlt := t.pat_lt a
  refine ⟨_, rfl, ?_⟩
  split
  case isTrue h0 => simp [h0]
  case isFalse h0 =>
    have hlog : Nat.log2 (t.pat a) < t.width := (Nat.log2_lt h0).mpr hlt
    refine ⟨by omega, fun i hi _ => ?_, fun _ => ?_⟩
    · exact Nat.testBit_lt_two_pow ((Nat.log2_lt h0).mp (by omega))
    · rw [show t.width - 1 - (t.width - 1 - Nat.log2 (t.pat a)) = Nat.log2 (t.pat a) by omega]
      exact Nat.testBit_log2 h0

/-- CTZ is the place of the lowest one. -/
theorem ctzVal_spec (t : IntTy) (a : W64) : ∃ n, ctzVal t a = BitVec.ofNat 64 n ∧ n ≤ t.width ∧
    (∀ i, i < n → (t.pat a).testBit i = false) ∧ (n < t.width → (t.pat a).testBit n = true) := by
  refine ⟨_, rfl, ?_⟩
  cases hf : (List.range t.width).find? fun i => (t.pat a).testBit i with
  | none =>
    rw [List.find?_range_eq_none] at hf
    exact ⟨le_refl _, fun i hi => by simpa using hf i hi, fun h => absurd h (lt_irrefl _)⟩
  | some n =>
    rw [List.find?_range_eq_some] at hf
    obtain ⟨hbit, hmem, hlow⟩ := hf
    exact ⟨(List.mem_range.mp hmem).le, fun i hi => by simpa using hlow i hi, fun _ => hbit⟩

theorem popcVal_eq (t : IntTy) (a : W64) :
    popcVal t a = BitVec.ofNat 64 ((Finset.range t.width).filter fun i => (t.pat a).testBit i = true).card := by
  simp only [popcVal, Finset.card, Finset.filter, Finset.range, Multiset.range, Multiset.filter_coe, Multiset.coe_card,
    Bool.decide_eq_true]

/-- BREV is built bit by bit from the other end. -/
theorem brevVal_spec (t : IntTy) (a : W64) : ∃ r : Nat, brevVal t a = t.fix false (r : Int) ∧ r < 2 ^ t.width ∧
    ∀ i, i < t.width → r.testBit i = (t.pat a).testBit (t.width - 1 - i) :=
  ⟨_, rfl, natOfBits_lt .., fun i hi => by simp [testBit_natOfBits, hi]⟩

/-- Settles O6: each count and the reversal by the bits of the pattern. -/
theorem bitCounts : Obligations.BitCounts := by
  unfold Obligations.BitCounts
  choose clz hclz clz_spec using clzVal_spec
  choose ctz hctz ctz_spec using ctzVal_spec
  choose rev hrev rev_spec using brevVal_spec
  exact fun s e he x => ⟨⟨_, laneOp_word he rfl (funext fun l => hclz ..), fun l => clz_spec ..⟩,
    ⟨_, laneOp_word he rfl (funext fun l => hctz ..), fun l => ctz_spec ..⟩,
    laneOp_word he rfl (funext fun l => popcVal_eq ..),
    ⟨_, laneOp_word he rfl (funext fun l => hrev ..), fun l => rev_spec ..⟩⟩

/-! ## Numbers built of bits and of bytes (03 R89 to R93) -/

theorem natOfBits_spec (n : Nat) (f : Nat → Bool) :
    natOfBits n f < 2 ^ n ∧ ∀ i, i < n → (natOfBits n f).testBit i = f i :=
  ⟨natOfBits_lt n f, fun i hi => by rw [testBit_natOfBits, decide_eq_true hi, Bool.true_and]⟩

theorem natOfBytes_spec (n : Nat) {f : Nat → Nat} (hf : ∀ i, f i < 256) :
    natOfBytes n f < 256 ^ n ∧ ∀ i, i < n → natOfBytes n f / 256 ^ i % 256 = f i :=
  ⟨natOfBytes_lt n f, fun i hi => (natOfBytes_get n f i hi).trans (Nat.mod_eq_of_lt (hf i))⟩

/-- A field from bit 0 up. -/
theorem fld_low (v : W64) (hi : Nat) : fld v hi 0 = v.toNat % 2 ^ (hi + 1) := by
  rw [fld_eq, pow_zero, Nat.div_one, Nat.sub_zero]

/-- Position and width of a register field (03 R89). -/
theorem fld_position (v : W64) : fld v 6 0 = v.toNat % 128 := fld_low ..

theorem fld_width (v : W64) : fld v 14 8 = v.toNat / 256 % 128 := fld_eq ..

theorem bintVal_two (t : IntTy) (a b : W64) : ∃ v : Nat, bintVal t a b none = t.fix false (v : Int) ∧ v < 2 ^ t.width ∧
    ∀ i, i < t.width → v.testBit i = if i % 2 = 0 then a.getLsbD (i / 2) else b.getLsbD (i / 2) :=
  ⟨_, rfl, natOfBits_spec ..⟩

theorem bintVal_three (t : IntTy) (a b c : W64) : ∃ v : Nat, bintVal t a b (some c) = t.fix false (v : Int) ∧
    v < 2 ^ (if t.width = 64 then 63 else 30) ∧ ∀ i, i < (if t.width = 64 then 63 else 30) → v.testBit i =
      if i % 3 = 0 then a.getLsbD (i / 3) else if i % 3 = 1 then b.getLsbD (i / 3) else c.getLsbD (i / 3) :=
  ⟨_, rfl, natOfBits_spec ..⟩

theorem bdinVal_spec (three : Bool) (t : IntTy) (a : W64) (j : Nat) : ∃ v : Nat,
    bdinVal three t a j = t.fix false (v : Int) ∧
    let m := if three then (if t.width = 64 then 21 else 10) else t.width / 2
    v < 2 ^ m ∧ ∀ i, i < m → v.testBit i = a.getLsbD ((if three then 3 else 2) * i + j) := by
  cases three <;> exact ⟨_, rfl, natOfBits_spec ..⟩

theorem byteAt_lt (v : W64) (i : Nat) : byteAt v i < 256 := Nat.mod_lt _ (by decide)

/-- BPERM byte by byte. -/
theorem bpermVal_spec (a b c : W64) : (bpermVal a b c).toNat < 2 ^ 32 ∧ ∀ i, i < 4 →
    let sel := b.toNat / 16 ^ i % 16
    let m := sel % 8
    let byte := if m < 4 then a.toNat / 256 ^ m % 256 else c.toNat / 256 ^ (m - 4) % 256
    (bpermVal a b c).toNat / 256 ^ i % 256 = if sel < 8 then byte else if 128 ≤ byte then 255 else 0 := by
  have htoNat : ∀ f, (BitVec.ofNat 64 (natOfBytes 4 f)).toNat = natOfBytes 4 f := fun f =>
    (BitVec.toNat_ofNat ..).trans (Nat.mod_eq_of_lt ((natOfBytes_lt 4 f).trans (by decide)))
  unfold bpermVal
  rw [htoNat]
  simp only [← byteAt_eq, pow_mul, show 2 ^ 4 = 16 from rfl]
  refine natOfBytes_spec 4 fun i => ?_
  have ha := byteAt_lt a
  have hc := byteAt_lt c
  grind

/-- BLUT byte by byte. -/
theorem blutVal_spec (hi : Bool) (t : IntTy) (a b c : W64) : ∃ v : Nat, blutVal hi t a b c = t.fix false (v : Int) ∧
    v < 2 ^ t.width ∧ ∀ i, i < t.width / 8 →
      let byte := a.toNat / 256 ^ i % 256
      let m := if hi then byte / 16 else byte % 16
      v / 256 ^ i % 256 = if m < 8 then b.toNat / 256 ^ m % 256 else c.toNat / 256 ^ (m - 8) % 256 := by
  have hwidth : 256 ^ (t.width / 8) = 2 ^ t.width := by cases t <;> rfl
  rw [← hwidth]
  simp only [← byteAt_eq]
  refine ⟨_, rfl, natOfBytes_spec _ fun i => ?_⟩
  dsimp only
  split <;> split <;> exact byteAt_lt ..

/-- Settles O7: each value by the bits or bytes it is built of. -/
theorem bitFields : Obligations.BitFields := by
  unfold Obligations.BitFields
  choose bins hbins bins_spec using binsVal_inserts
  choose two htwo two_spec using bintVal_two
  choose three hthree three_spec using bintVal_three
  choose bdin hbdin bdin_spec using bdinVal_spec
  choose blut hblut blut_spec using blutVal_spec
  refine fun s e he => ⟨fun x p n => ⟨_, laneOp_word he rfl rfl, fun l => bextVal_extracts ..⟩,
    fun x => ⟨_, laneOp_word he rfl rfl, fun l => fld_position _ ▸ fld_width _ ▸ bextVal_extracts ..⟩,
    fun k d a b t p n => ⟨_, laneOp_word he rfl (funext fun l => hbins ..), fun l => bins_spec ..⟩,
    fun x => ⟨_, laneOp_word he rfl (funext fun l => hbins ..), fun l => fld_position _ ▸ fld_width _ ▸ bins_spec ..⟩,
    fun k d a b t => ⟨_, laneOp_word he rfl (funext fun l => htwo ..), fun l => two_spec ..⟩,
    fun k d a b c t => ⟨_, laneOp_word he rfl (funext fun l => hthree ..), fun l => ⟨(three_spec ..).1, fun i hi => ?_⟩⟩,
    fun z x j => ⟨_, laneOp_word he rfl (funext fun l => hbdin ..), fun l => bdin_spec ..⟩,
    fun x hx => ?_,
    fun hi x => ⟨_, laneOp_word he rfl (funext fun l => hblut ..), fun l => blut_spec ..⟩⟩
  · rw [(three_spec ..).2 i hi]
    split
    · rfl
    · split <;> rfl
  · obtain ⟨k, d, a, b, c, t, sat⟩ := x
    obtain rfl : t = .n32 := hx
    exact ⟨_, laneOp_word he rfl rfl, fun l => bpermVal_spec ..⟩

/-! ## Moves (03 R94, R95) -/

/-- The value of an operand in the lowest executing lane. -/
theorem lowOpd_of_lowestLane {ex : W32} {l0 : Nat} (h : lowestLane ex = some l0) (e : Env) (b : Opd) :
    e.lowOpd ex b = e.opd false b l0 := by
  unfold Env.lowOpd
  rw [h]
  rfl

theorem win64_low (g : Group) (n : BitVec 5) (l : Nat) : (g.win64 n l).setWidth 32 = g.winWord n 0 l :=
  BitVec.setWidth_append_eq_right

section
variable {s : State} {e : Env} (he : s.envOf s.focus = some e)
include he

/-- MOVS reads one lane of source A for all. -/
theorem movs_word (x : IBin) : Completes s e (.movs x) x.k x.d (tyWide x.t) fun _ => x.t.fix false
    (x.t.toInt (e.src (tyWide x.t) x.a ((e.lowOpd (e.lanes x.k) x.b).toNat % 32))) :=
  wordDone_result he (withEnv_some he _) (funext fun _ => formN_pat ..)
end

/-- Settles O8: each move's value in a lane, and MOVS's from the lane that the lowest executing one names. -/
theorem moves : Obligations.Moves := by
  unfold Obligations.Moves
  refine fun s e he => ⟨fun x => laneOp_word he rfl (funext fun l => formN_pat ..), fun k d v => laneOp_word he rfl rfl,
    fun k d v => laneOp_word he rfl rfl, fun k v => laneOp_word he rfl rfl,
    fun k n v => laneOp_word he rfl (funext fun l => congrArg (v ++ ·) (win64_low ..)),
    fun k n v => laneOp_word he rfl rfl, fun x l0 hl0 => ?_, fun x _ => ⟨_, movs_word he x⟩⟩
  rw [← lowOpd_of_lowestLane hl0]
  exact movs_word he x

/-! ## Masks (03 R96) -/

theorem maskSrc_eq (e : Env) (k : BitVec 3) :
    e.maskSrc k = if k = 0 then e.active else Store.read e.g.masks k.toNat := by
  unfold Env.maskSrc Group.mask
  split <;> split <;> simp_all

section
variable {s : State} {e : Env} (he : s.envOf s.focus = some e) {i : Instr}
include he

/-- An instruction that leaves the group with other masks. -/
theorem masks_word {m : Store 32} (hi : exec i s = wordDone s e { e.g with masks := m }) :
    CompletesAs s e i { e.g with masks := m } := wordDone_word he hi rfl rfl

/-- A KOP that writes a whole mask does so when a lane is active. -/
theorem wholeMask_word {kd : BitVec 3} {v : W32}
    (hi : exec i s = wordDone s e (if e.active = 0 then e.g else e.g.setMask kd v)) :
    ∃ m : Store 32, CompletesAs s e i { e.g with masks := m } ∧
      ∀ n, Store.read m n = if n = kd.toNat ∧ e.active ≠ 0 then v else Store.read e.g.masks n := by
  by_cases ha : e.active = 0
  · rw [if_pos ha] at hi
    exact ⟨e.g.masks, masks_word he hi, fun n => by simp [ha]⟩
  · rw [if_neg ha] at hi
    refine ⟨_, masks_word he hi, fun n => ?_⟩
    rw [Store.read_write]
    simp only [ne_eq, ha, not_false_eq_true, and_true, eq_comm (a := n)]
end

/-- FROMV's mask: the executing lanes' bits are new, the others stay. -/
theorem merge_bit (old ex : W32) (f : Nat → Bool) {l : Nat} (hl : l < 32) :
    ((old &&& ~~~ex) ||| (laneMask f &&& ex)).getLsbD l = if ex.getLsbD l then f l else old.getLsbD l := by
  simp only [BitVec.getLsbD_or, BitVec.getLsbD_and, BitVec.getLsbD_not, laneMask_bit, hl, decide_true, Bool.true_and]
  cases ex.getLsbD l <;> simp

theorem bne_zero {w : Nat} (v : BitVec w) : (v != 0) = decide (v ≠ 0) := by simp [bne, Bool.beq_eq_decide_eq]

/-- Settles O9: the mask forms write one mask whole, FROMV the executing lanes' bits of it, and TOV is a result. -/
theorem maskOperations : Obligations.MaskOperations := by
  unfold Obligations.MaskOperations
  intro s e he k d a kd kx ky
  simp only [← maskSrc_eq]
  refine ⟨wholeMask_word he (withEnv_some he _), wholeMask_word he (withEnv_some he _), wholeMask_word he (withEnv_some he _),
    wholeMask_word he (withEnv_some he _), wholeMask_word he (withEnv_some he _), wholeMask_word he (withEnv_some he _),
    ⟨_, masks_word he (withEnv_some he _), fun n hn => Store.read_write_other _ _ hn.symm, fun l hl => ?_⟩,
    wordDone_result he (withEnv_some he _) rfl, ?_⟩
  · rw [Store.read_write_same, merge_bit _ _ _ hl, bne_zero]
  · have hexec : exec (.kop .froms k d a kd kx ky) s = _ := withEnv_some he _
    dsimp only at hexec
    split
    case h_1 l hl =>
      rw [hl] at hexec
      exact wholeMask_word he hexec
    case h_2 hl =>
      rw [hl] at hexec
      exact wordDone_word he hexec rfl rfl

/-! ## Loop counters (03 R106) -/

theorem lowestLane_eq_none {ex : W32} : lowestLane ex = none ↔ ex = 0 := by
  refine ⟨fun h => BitVec.eq_of_getLsbD_eq fun l hl => ?_, fun h => by rw [h]; decide⟩
  have hmem : l ∉ laneList ex := by rw [List.head?_eq_none_iff.mp h]; exact List.not_mem_nil
  simpa [mem_laneList, hl] using hmem

/-- A counter as LCSET takes it: the ring from 1 to 32, the value below it. -/
theorem loopOf_spec (val ring : Nat) :
    let r := if ring = 0 ∨ 32 < ring then 32 else ring
    (loopOf val ring).ring.toNat = r ∧ (loopOf val ring).val.toNat = val % r := by
  intro r
  have hr : (if ring == 0 || 33 ≤ ring then 32 else ring) = r := by simp [r, Nat.lt_iff_add_one_le]
  have hpos : 0 < r ∧ r ≤ 32 := by simp only [r]; split <;> omega
  have hval : val % r < r := Nat.mod_lt _ hpos.1
  unfold loopOf
  rw [hr]
  exact ⟨Nat.mod_eq_of_lt (by omega), Nat.mod_eq_of_lt (by omega)⟩

/-- Value and ring of a counter's word. -/
theorem fld_lcVal (v : W64) : fld v 4 0 = v.toNat % 32 := fld_low ..

theorem fld_lcRing (v : W64) : fld v 13 8 = v.toNat / 256 % 64 := fld_eq ..

theorem toNat_ofInt_five (x : Int) : ((BitVec.ofInt 5 x).toNat : Int) = x % 32 := by
  rw [BitVec.toNat_ofInt]
  exact Int.toNat_of_nonneg (Int.emod_nonneg _ (by decide))

theorem setLc_gid (g : Group) (n : BitVec 2) (c : LoopCtr) : (g.setLc n c).gid = g.gid := by
  unfold Group.setLc
  repeat' split
  all_goals rfl

theorem setLc_flags (g : Group) (n : BitVec 2) (c : LoopCtr) : (g.setLc n c).flags = g.flags := by
  unfold Group.setLc
  repeat' split
  all_goals rfl

theorem exec_lcset (k : BitVec 3) (d : Dst) (lc : BitVec 2) (b : Opd) (s : State) :
    exec (.lcset k d lc b) s = lcOp s k d lc b fun _ v => loopOf (fld v 4 0) (fld v 13 8) := rfl

theorem exec_lcadv (k : BitVec 3) (d : Dst) (lc : BitVec 2) (b : Opd) (s : State) :
    exec (.lcadv k d lc b) s = lcOp s k d lc b fun c v => c.add (v.setWidth 32).toInt := rfl

section
variable {s : State} {e : Env} (he : s.envOf s.focus = some e)
include he

/-- A loop-counter instruction completes with the counter changed, or kept when no lane executes, and pushed. -/
theorem lcOp_word {i : Instr} {k : BitVec 3} {d : Dst} {lc : BitVec 2} {b : Opd} {f : LoopCtr → W64 → LoopCtr} {c : LoopCtr}
    (hi : exec i s = lcOp s k d lc b f)
    (hc : (if e.lanes k = 0 then e.g.lc lc else f (e.g.lc lc) (e.lowOpd (e.lanes k) b)) = c) :
    ∃ t h, exec i s = .next t ∧ Done s e t h ∧
      Wrote (e.g.setLc lc c) h (e.lanes k) d false (fun _ => BitVec.ofNat 64 (c.ring.toNat * 256 + c.val.toNat)) := by
  subst hc
  obtain ⟨t, hnext, hdone⟩ := wordDone_done he _ ((Group.result_gid ..).trans (setLc_gid ..))
    ((Group.result_flags ..).trans (setLc_flags ..))
  exact ⟨t, _, (hi.trans (withEnv_some he _)).trans hnext, hdone, Group.result_wrote ..⟩
end

/-- Settles O10: the counter that each instruction leaves, with a lowest lane and with none. -/
theorem loopCounters : Obligations.LoopCounters := by
  unfold Obligations.LoopCounters
  intro s e he k d lc b changes
  split
  case h_1 l hl =>
    have hne : ¬e.lanes k = 0 := fun h => by rw [lowestLane_eq_none.mpr h] at hl; cases hl
    have hopd := lowOpd_of_lowestLane hl e b
    obtain ⟨hring, hval⟩ := loopOf_spec ((e.opd false b l).toNat % 32) ((e.opd false b l).toNat / 256 % 64)
    refine ⟨⟨_, lcOp_word he (exec_lcset ..) ?_, hring, hval⟩,
      ⟨(e.g.lc lc).add ((e.opd false b l).setWidth 32).toInt, lcOp_word he (exec_lcadv ..) ?_, rfl, toNat_ofInt_five _⟩⟩
    · rw [if_neg hne, hopd, fld_lcVal, fld_lcRing]
    · rw [if_neg hne, hopd]
  case h_2 hl =>
    have h0 := lowestLane_eq_none.mp hl
    exact ⟨lcOp_word he (exec_lcset ..) (if_pos h0), lcOp_word he (exec_lcadv ..) (if_pos h0)⟩

/-! ## What a kill and the route of a park leave of the LPCs (14 R390, R392) -/

/-- Every group has kept its LPCs. -/
def State.SameLpcs (s t : State) : Prop := ∀ k, (t.group? k).map Group.lpc = (s.group? k).map Group.lpc

theorem State.SameLpcs.trans {s t u : State} (h : s.SameLpcs t) (h' : t.SameLpcs u) : s.SameLpcs u :=
  fun k => (h' k).trans (h k)

/-- A group written back with its LPCs. -/
theorem sameLpcs_setGroup {s : State} {g h : Group} (hg : s.group? h.gid = some g) (hl : h.lpc = g.lpc) :
    s.SameLpcs (s.setGroup h) := by
  intro k
  by_cases hk : h.gid = k
  · rw [← hk, State.group?_setGroup_same (Option.isSome_of_eq_some hg), hg]
    exact congrArg some hl
  · rw [State.group?_setGroup_other hk]

theorem sameLpcs_killGroup (s : State) (gid : Nat) : s.SameLpcs (s.killGroup gid) := by
  cases hg : s.group? gid with
  | none => simp only [State.killGroup, hg]; exact fun _ => rfl
  | some g =>
    obtain rfl := State.group?_gid hg
    rw [killGroup_of_some hg]
    exact sameLpcs_setGroup (h := { g with st := .exited, live := 0, run := none, park := none, since := none }) hg rfl

theorem sameLpcs_killGroups (gids : List Nat) (s : State) : s.SameLpcs (gids.foldl State.killGroup s) := by
  induction gids generalizing s with
  | nil => exact fun _ => rfl
  | cons gid gids ih => exact (sameLpcs_killGroup s gid).trans (ih _)

theorem sameLpcs_killGrid (s : State) (id : W64) (cause detail : BitVec 8) : s.SameLpcs (s.killGrid id cause detail) := by
  unfold State.killGrid
  split
  · exact fun _ => rfl
  · split <;> exact sameLpcs_killGroups _ _

theorem group?_svcLog (s : State) (kind detail : Nat) (addr arg : W64) (k : Nat) :
    (s.svcLog kind detail addr arg).group? k = s.group? k := by
  rw [State.svcLog_eq]
  rfl

theorem sameLpcs_launchHandler (s : State) (gr : Grid) (gid image : Nat) (cause detail : BitVec 8) :
    s.SameLpcs (s.launchHandler gr gid image cause detail) := by
  have failed : s.SameLpcs (s.handlerFailed gr cause detail) := fun k => by
    rw [State.handlerFailed, group?_svcLog]
    exact sameLpcs_killGrid s gr.id cause detail k
  unfold State.launchHandler
  split
  · split
    · exact fun _ => rfl
    · exact failed
  · exact fun _ => rfl
  · exact failed

/-- Whichever way a park goes. -/
theorem sameLpcs_routePark {s : State} {g : Group} (hg : s.group? g.gid = some g) (gr : Grid) (p : ParkRec) :
    s.SameLpcs (s.routePark g gr p) := by
  have noted : ∀ p', s.SameLpcs (s.setGroup { g with park := some p' }) := fun p' =>
    sameLpcs_setGroup (h := { g with park := some p' }) hg rfl
  unfold State.routePark
  dsimp only
  split
  · split
    · split
      · exact (sameLpcs_killGrid _ _ _ _).trans (sameLpcs_killGrid _ _ _ _)
      · exact sameLpcs_killGrid _ _ _ _
    · exact sameLpcs_killGrid _ _ _ _
  · split
    · intro k
      show ((State.svcLog ..).group? k).map Group.lpc = _
      rw [group?_svcLog]
      exact noted _ k
    · split
      · exact sameLpcs_killGrid _ _ _ _
      · exact (noted _).trans (sameLpcs_launchHandler _ _ _ _ _ _)

/-! ## A park of the running word (03 R72, 14 R390) -/

section
variable {s : State} {e : Env} (he : s.envOf s.focus = some e) {f : FaultRec}
include he

/-- While a sampler command is under way the word is held. -/
theorem parkWord_busy (hbusy : s.samplerBusy s.focus = true) : parkWord s e e.g f = .next (s.hold e) := by
  obtain ⟨-, hgid, -⟩ := State.envOf_some he
  exact if_pos (hgid ▸ hbusy)

/-- The group written back is the group, so the park is that of the state itself. -/
theorem parkWord_parks (hbusy : s.samplerBusy s.focus = false) (hf : f.service = none) (hctx : s.ctxFits = true) :
    let s' := s.setGroup e.g
    s'.group? e.g.gid = some e.g ∧ parkWord s e e.g f = .next (s'.parkImaged e.g e.t e.gr
      (s'.parkRec e.g e.t e.gr f e.r.idx e.r.runNo e.r.addr none)) := by
  obtain ⟨hg, hgid, -, ht, hgr, -⟩ := State.envOf_some he
  have hg' : (s.setGroup e.g).group? e.g.gid = some e.g := State.group?_setGroup_same (by rw [hgid, hg]; rfl)
  refine ⟨hg', (if_neg ?_).trans (park_imaged hg' ht hgr hf hctx)⟩
  rw [hgid, hbusy]
  exact Bool.false_ne_true

/-- With the host's debugger set, the word parks for it. -/
theorem parkWord_hostParks (hd : e.debugged s) (hf : f.service = none) {i : Instr} (hi : exec i s = parkWord s e e.g f) :
    HostParksWith s e i f.cause f.detail (packRecord e.g.current f.fields) := by
  obtain ⟨hv, hq, hbusy, hctx⟩ := hd
  obtain ⟨-, hgid, -⟩ := State.envOf_some he
  obtain ⟨hg', hpark⟩ := parkWord_parks he hbusy hf hctx
  refine ⟨_, { (s.setGroup e.g).parkRec e.g e.t e.gr f e.r.idx e.r.runNo e.r.addr none with route := .host e.gr.queue },
    hi.trans hpark, ?_, rfl, rfl, rfl, rfl, rfl, rfl, rfl, rfl⟩
  rw [State.parkImaged, writeImage_eq, ← hgid]
  exact group?_routePark (h := e.g.parkedWith _) (Option.isSome_of_eq_some (group?_parkStart hg' _)) hv hq

/-- Wherever the park goes, no LPC changes. -/
theorem parkWord_keeps_lpc (hbusy : s.samplerBusy s.focus = false) (hctx : s.ctxFits = true) (hf : f.service = none) :
    ∃ t, parkWord s e e.g f = .next t ∧ ∀ h, t.group? s.focus = some h → h.lpc = e.g.lpc := by
  obtain ⟨-, hgid, -⟩ := State.envOf_some he
  obtain ⟨hg', hpark⟩ := parkWord_parks he hbusy hf hctx
  generalize (s.setGroup e.g).parkRec e.g e.t e.gr f e.r.idx e.r.runNo e.r.addr none = p at hpark
  have hstart := group?_parkStart hg' p
  have hroute : (((s.setGroup e.g).parkImaged e.g e.t e.gr p).group? e.g.gid).map Group.lpc = some e.g.lpc := by
    rw [State.parkImaged, writeImage_eq]
    exact (sameLpcs_routePark (s := { (s.setGroup e.g).parkStart e.g p with mem := _ }) hstart e.gr p e.g.gid).trans
      (congrArg (Option.map Group.lpc) hstart)
  refine ⟨_, hpark, fun h hh => ?_⟩
  rw [hgid, hh] at hroute
  exact Option.some.inj hroute
end

/-! ## The end of a group (03 R101) -/

theorem settleExit_exits {s : State} {gid : Nat} {g : Group} (hg : s.group? gid = some g) (hlive : g.live = 0)
    (hst : g.st = .ready) (hrun : g.run = none) (hops : ∀ o ∈ s.ops, o.gid = gid → o.flag = none ∧ o.fault = none) :
    ((s.settleExit gid).group? gid).map (·.st) = some .exited := by
  have hidle : ((s.opsOf gid).any fun o => o.flag.isSome || o.fault.isSome) = false := by
    refine List.any_eq_false.mpr fun o ho => ?_
    obtain ⟨hmem, hgid⟩ := List.mem_filter.mp ho
    obtain ⟨hflag, hfault⟩ := hops o hmem (by simpa using hgid)
    simp [hflag, hfault]
  obtain rfl := State.group?_gid hg
  unfold State.settleExit
  rw [hg]
  dsimp only
  rw [if_pos (by simp [hlive, hst, hrun, hidle]),
    State.group?_setGroup_same (g := { g with st := .exited, since := none }) (Option.isSome_of_eq_some hg)]
  rfl

/-- A clause that ends settles its group, with its place in the issue list taken. -/
theorem endClause_settles (s : State) (g : Group) (r : Run) (target : Nat → BitVec 48) (j : W32)
    (hs : (s.group? g.gid).isSome = true) : ∃ (s1 : State) (u : Group), s.endClause g r target j = s1.settleExit g.gid ∧
      s1.ops = s.ops ∧ s1.group? g.gid = some u ∧ u.st = g.st ∧ u.live = g.live ∧ u.run = none := by
  obtain ⟨g1, hg1⟩ : ∃ g1, g1 = Group.clearFlags { g with
    lpc := (laneList r.lanes).foldl (fun m l => Store.write m l (target l)) g.lpc
    run := none
    jumped := (g.jumped &&& ~~~r.lanes) ||| (j &&& r.lanes)
    since := some s.ctl.ptc } (s.idleFlags g.gid r.hdr) := ⟨_, rfl⟩
  have hgid : g1.gid = g.gid := by rw [hg1]; rfl
  have hset : (s.setGroup g1).group? g1.gid = some g1 := State.group?_setGroup_same (hgid ▸ hs)
  have hend : s.endClause g r target j = (match (s.setGroup g1).team? g1.team with
    | some t => (s.setGroup g1).requeue g1.gid t.core g1.quad (r.hdr.yield && g1.yielded)
    | none => s.setGroup g1).settleExit g.gid := by rw [hg1]; rfl
  split at hend
  · next t ht =>
    have hplace := State.group?_requeue (s.setGroup g1) g1.gid t.core g1.quad (r.hdr.yield && g1.yielded) g1.gid
    rw [hset] at hplace
    obtain ⟨u, hu, hun⟩ := Option.map_eq_some_iff.mp hplace
    refine ⟨_, u, hend, ?_, hgid ▸ hu, ?_, ?_, ?_⟩
    · rw [State.requeue_only]
      rfl
    · exact (congrArg Group.st hun).trans (by rw [hg1]; rfl)
    · exact (congrArg Group.live hun).trans (by rw [hg1]; rfl)
    · exact (congrArg Group.run hun).trans (by rw [hg1]; rfl)
  · exact ⟨_, g1, hend, rfl, hgid ▸ hset, by rw [hg1]; rfl, by rw [hg1]; rfl, by rw [hg1]; rfl⟩

/-- The last clause of a group without a live lane ends the group, when no command of it is outstanding. -/
theorem endClause_exits {s : State} {g : Group} {r : Run} {target : Nat → BitVec 48} {j : W32}
    (hs : (s.group? g.gid).isSome = true) (hst : g.st = .ready) (hlive : g.live = 0)
    (hops : ∀ o ∈ s.ops, o.gid = g.gid → o.flag = none ∧ o.fault = none) :
    ((s.endClause g r target j).group? g.gid).map (·.st) = some .exited := by
  obtain ⟨s1, u, hend, hs1, hu, hust, hulive, hurun⟩ := endClause_settles s g r target j hs
  rw [hend]
  exact settleExit_exits hu (hulive.trans hlive) (hust.trans hst) hurun (hs1 ▸ hops)

/-- The group with the executing lanes out of its live set. -/
def Env.exited (e : Env) (k : BitVec 3) : Group := { e.g with live := e.g.live &&& ~~~e.lanes k }

/-! ## Control transfers (03 R97 to R101) -/

/-- A target's low three bits. -/
theorem target_misaligned (v : W64) : ((v.setWidth 48).extractLsb' 0 3 != 0) = decide (v.toNat % 8 ≠ 0) := by
  have h : (v.setWidth 48).extractLsb' 0 3 = 0 ↔ v.toNat % 8 = 0 := by
    rw [← BitVec.toNat_inj, BitVec.extractLsb'_toNat, BitVec.toNat_setWidth, Nat.shiftRight_zero]
    simp only [BitVec.ofNat_eq_ofNat, BitVec.toNat_ofNat]
    omega
  simp only [bne, Bool.beq_eq_decide_eq, h, decide_not, ne_eq]

/-- The lowest executing lane of which something holds. -/
theorem find?_laneList {ex : W32} {P : Nat → Bool} {l : Nat} (hl : l < 32) (hex : ex.getLsbD l = true) (hP : P l = true)
    (hlow : ∀ j, j < l → ex.getLsbD j = true → P j = false) : (laneList ex).find? P = some l := by
  unfold laneList
  rw [List.find?_filter, List.find?_range_eq_some]
  refine ⟨by simp [hex, hP], List.mem_range.mpr hl, fun j hj => ?_⟩
  cases hj' : ex.getLsbD j with
  | false => simp
  | true => simp [hlow j hj hj']

section
variable {s : State} {e : Env} (he : s.envOf s.focus = some e) (k : BitVec 3)

/-- Aligned register targets are taken. -/
theorem jumpReg_aligned {a : Src}
    (ha : ∀ l, l < 32 → (e.lanes k).getLsbD l = true → (e.src64 a l).toNat % 8 = 0) (g : Group) :
    jumpReg s e g (e.lanes k) a = transfer s e g (e.lanes k) fun l => (e.src64 a l).setWidth 48 := by
  have hnone : (laneList (e.lanes k)).find? (fun l => ((e.src64 a l).setWidth 48).extractLsb' 0 3 != 0) = none := by
    refine List.find?_eq_none.mpr fun l hl => ?_
    obtain ⟨hl, hex⟩ := mem_laneList.mp hl
    exact Bool.eq_false_iff.mp ((target_misaligned _).trans (decide_eq_false (not_not.mpr (ha l hl hex))))
  unfold jumpReg
  dsimp only
  rw [hnone]

/-- A misaligned one parks the group, whatever the group was to be left as. -/
theorem jumpReg_misaligned {a : Src} {bad : Nat} (hbad : bad < 32) (hex : (e.lanes k).getLsbD bad = true)
    (hmis : (e.src64 a bad).toNat % 8 ≠ 0)
    (hlow : ∀ l, l < bad → (e.lanes k).getLsbD l = true → (e.src64 a l).toNat % 8 = 0) (g : Group) :
    jumpReg s e g (e.lanes k) a = parkWord s e e.g (misalignedTarget e bad) := by
  have hsome : (laneList (e.lanes k)).find? (fun l => ((e.src64 a l).setWidth 48).extractLsb' 0 3 != 0) = some bad :=
    find?_laneList hbad hex ((target_misaligned _).trans (decide_eq_true hmis)) fun l hl hlex =>
      (target_misaligned _).trans (decide_eq_false (not_not.mpr (hlow l hl hlex)))
  unfold jumpReg
  dsimp only
  rw [hsome]

include he

/-- A jump that leaves the group as it was. -/
theorem plain_transfers {i : Instr} {target : Nat → BitVec 48} (hi : exec i s = transfer s e e.g (e.lanes k) target) :
    Transfers s e i k e.g target := transfer_word he hi rfl rfl rfl

/-- A call writes the fall-through address, then jumps. -/
theorem linked_transfers (d : Dst) {i : Instr} {target : Nat → BitVec 48}
    (hi : exec i s = transfer s e (e.linked (e.lanes k) d) (e.lanes k) target) :
    ∃ h, Wrote e.g h (e.lanes k) d true (fun _ => e.r.fall.setWidth 64) ∧ Transfers s e i k h target := by
  have hw : Wrote e.g (e.linked (e.lanes k) d) (e.lanes k) d true fun _ => e.r.fall.setWidth 64 := Group.result_wrote ..
  have hlpc := congrArg Group.lpc hw.rest
  exact ⟨_, hw, transfer_word he hi (Group.result_gid ..) (Group.result_flags ..) hlpc⟩

theorem exec_exit : exec (.exit k) s = .next (s.endClause (e.exited k) e.r (fun _ => e.r.fall) 0) := withEnv_some he _

/-- EXIT: the executing lanes leave the live set, and the last to go ends the group. -/
theorem exit_word : ∃ t, exec (.exit k) s = .next t ∧ Transferred s e t (e.exited k) (fun _ => e.r.fall) ∧
    (e.g.live &&& ~~~e.lanes k = 0 → (∀ o ∈ s.ops, o.gid = s.focus → o.flag = none ∧ o.fault = none) →
      (t.group? s.focus).map (·.st) = some .exited) := by
  obtain ⟨hg, hgid, -, -, -, hst⟩ := State.envOf_some he
  have hexited : (e.exited k).gid = s.focus := hgid
  refine ⟨_, exec_exit he k, endClause_transferred he (e.exited k) rfl rfl rfl _ _, fun hlive hops => ?_⟩
  rw [← hexited] at hops ⊢
  exact endClause_exits (Option.isSome_of_eq_some (hexited ▸ hg)) hst hlive hops
end

/-- Settles O11: a transfer once its targets are known to be aligned, a park where one is not, and EXIT as the end of a clause
with fewer live lanes. -/
theorem controlTransfers : Obligations.ControlTransfers := by
  unfold Obligations.ControlTransfers
  intro s e he k fall
  refine ⟨fun disp => ?_, fun d disp => ?_, fun a ha => ⟨plain_transfers he k ?_, plain_transfers he k ?_, fun d =>
    linked_transfers he k d ?_⟩, fun a bad hbad hex hmis hlow i hi => ?_, exit_word he k⟩
  · rw [← Run.disp_eq]
    exact plain_transfers he k (withEnv_some he _)
  · rw [← Run.disp_eq]
    exact linked_transfers he k d (withEnv_some he _)
  iterate 3 exact (withEnv_some he _).trans (jumpReg_aligned k ha _)
  · have hexec : exec i s = parkWord s e e.g (misalignedTarget e bad) := by
      rcases hi with rfl | rfl | ⟨d, rfl⟩ <;> exact (withEnv_some he _).trans (jumpReg_misaligned k hbad hex hmis hlow _)
    exact ⟨fun hbusy => hexec.trans (parkWord_busy he hbusy), fun hd => parkWord_hostParks he hd rfl hexec,
      fun hbusy hctx => hexec ▸ parkWord_keeps_lpc he hbusy hctx rfl⟩

/-! ## Shuffles (03 R102) -/

theorem lshfLane_up (l n : Nat) (hl : l < 32) :
    (lshfLane .up l n).getD l = if (if n ≤ l then l - n else 32) < 32 then (if n ≤ l then l - n else 32) else l := by
  simp only [lshfLane]
  split
  · exact (if_pos (by omega)).symm
  · rfl

theorem lshfLane_down (l n : Nat) : (lshfLane .down l n).getD l = if l + n < 32 then l + n else l := by
  simp only [lshfLane]
  split <;> rfl

theorem lshfLane_rot (l n : Nat) : (lshfLane .rot l n).getD l = if (l + n) % 32 < 32 then (l + n) % 32 else l :=
  (if_pos (Nat.mod_lt _ (by decide))).symm

theorem lshfLane_xor (l n : Nat) (hl : l < 32) : (lshfLane .xor l n).getD l =
    if (if l < 32 then l ^^^ (n % 32) else 0) < 32 then (if l < 32 then l ^^^ (n % 32) else 0) else l := by
  rw [if_pos hl, if_pos (Nat.xor_lt_two_pow (n := 5) hl (Nat.mod_lt _ (by decide)))]
  rfl

section
variable {s : State} {e : Env} (he : s.envOf s.focus = some e)
include he

/-- A meaning that ends in one result, given by its values in the executing lanes. -/
theorem result_word {i : Instr} {k : BitVec 3} {d : Dst} {w : Bool} {v v' : Nat → W64}
    (hi : exec i s = wordDone s e (e.g.result (e.lanes k) d w v'))
    (hv : ∀ l, l < 32 → (e.lanes k).getLsbD l = true → v' l = v l) : Completes s e i k d w v := by
  obtain ⟨t, h, hnext, hdone, hwrote⟩ := wordDone_result he hi rfl
  exact ⟨t, h, hnext, hdone, hwrote.congr hv⟩

/-- LSHF gives each executing lane the source of the lane that its mode names, or its own. -/
theorem lshf_word (m : LMode) (x : IBin) {l0 : Nat} (hl0 : lowestLane (e.lanes x.k) = some l0) (from_ : Nat → Nat)
    (hfrom : ∀ l, l < 32 → (lshfLane m l (e.opd false x.b l0).toNat).getD l = if from_ l < 32 then from_ l else l) :
    Completes s e (.lshf m x) x.k x.d (tyWide x.t) fun l =>
      x.t.fix false (x.t.toInt (e.src (tyWide x.t) x.a (if from_ l < 32 then from_ l else l))) :=
  result_word he (withEnv_some he _) fun l hl _ => by rw [lowOpd_of_lowestLane hl0, hfrom l hl, formN_pat]
end

/-! ## The executing lanes in ascending order -/

theorem laneList_ascending (ex : W32) : (laneList ex).Pairwise (· < ·) := List.pairwise_lt_range.filter _

/-- The last of an ascending list is its greatest member. -/
theorem getLast?_of_greatest {ls : List Nat} (hs : ls.Pairwise (· < ·)) {m : Nat} (hm : m ∈ ls) (hmax : ∀ j ∈ ls, j ≤ m) :
    ls.getLast? = some m := by
  obtain ⟨a, ha⟩ := Option.isSome_iff_exists.mp (List.getLast?_isSome.mpr (List.ne_nil_of_mem hm))
  obtain ⟨ys, rfl⟩ := List.getLast?_eq_some_iff.mp ha
  have hle := hmax a (by simp)
  rcases List.mem_append.mp hm with hy | hy
  · have := (List.pairwise_append.mp hs).2.2 m hy a (by simp)
    omega
  · rw [ha, List.mem_singleton.mp hy]

/-- A lane of the list stands between the lower lanes and the higher ones. -/
theorem laneList_split {ex : W32} {l : Nat} (hl : l < 32) (hex : ex.getLsbD l = true) : ∃ below above,
    laneList ex = below ++ l :: above ∧ ((laneList ex).filter fun j => j < l) = below ∧
      ((laneList ex).filter fun j => j ≤ l) = below ++ [l] := by
  obtain ⟨below, above, h⟩ := List.append_of_mem (mem_laneList.mpr ⟨hl, hex⟩)
  have hs := laneList_ascending ex
  rw [h, List.pairwise_append, List.pairwise_cons] at hs
  obtain ⟨-, ⟨habove, -⟩, hbelow⟩ := hs
  have hb : ∀ j ∈ below, j < l := fun j hj => hbelow j hj l (by simp)
  refine ⟨below, above, h, ?_, ?_⟩ <;> rw [h, List.filter_append]
  · rw [List.filter_eq_self.mpr (by simpa using hb), List.filter_eq_nil_iff.mpr ?_, List.append_nil]
    intro j hj
    rcases List.mem_cons.mp hj with rfl | hj
    · simp
    · simpa using (habove j hj).le
  · rw [List.filter_eq_self.mpr fun j hj => by simpa using (hb j hj).le, List.filter_cons_of_pos (by simp),
      List.filter_eq_nil_iff.mpr fun j hj => by simpa using habove j hj]

/-! ## LPREV (03 R103) -/

theorem prevLane_first {ex : W32} {l : Nat} (hmin : ∀ j, j < 32 → ex.getLsbD j = true → l ≤ j) :
    prevLane ex l = none := by
  unfold prevLane
  rw [List.filter_eq_nil_iff.mpr, List.getLast?_nil]
  intro j hj
  obtain ⟨hj, hex⟩ := mem_laneList.mp hj
  simpa using hmin j hj hex

theorem prevLane_next {ex : W32} {j l : Nat} (hj : j < 32) (hex : ex.getLsbD j = true) (hlt : j < l)
    (hbetween : ∀ i, i < 32 → ex.getLsbD i = true → ¬(j < i ∧ i < l)) : prevLane ex l = some j := by
  refine getLast?_of_greatest ((laneList_ascending ex).filter _) ?_ fun i hi => ?_
  · exact List.mem_filter.mpr ⟨mem_laneList.mpr ⟨hj, hex⟩, by simpa using hlt⟩
  · obtain ⟨hmem, hil⟩ := List.mem_filter.mp hi
    obtain ⟨hi, hiex⟩ := mem_laneList.mp hmem
    have := hbetween i hi hiex
    have : i < l := by simpa using hil
    omega

theorem toNat_ofNat_pat (t : IntTy) (v : W64) : (BitVec.ofNat 64 (t.pat v)).toNat = t.pat v :=
  (BitVec.toNat_ofNat ..).trans (Nat.mod_eq_of_lt ((t.pat_lt v).trans_le (Nat.pow_le_pow_right (by decide) t.width_le)))

/-- What LPREV takes for the first executing lane: B, or the carry. -/
def Env.prevSeed (e : Env) (b : Option Opd) (t : IntTy) (l : Nat) : W64 :=
  match b with
  | some o => e.opd (tyWide t) o l
  | none => e.g.carry

/-- LPREV's value in a lane: the executing lane before it, or the seed. -/
def Env.prevVal (e : Env) (ex : W32) (a : Src) (b : Option Opd) (t : IntTy) (l : Nat) : W64 :=
  match prevLane ex l with
  | some j => t.formN (t.pat (e.src (tyWide t) a j))
  | none => t.formN (t.pat (e.prevSeed b t l))

/-- The carry that LPREV leaves: the last executing lane's value. -/
def Env.prevCarry (e : Env) (ex : W32) (a : Src) (t : IntTy) : W64 :=
  match (laneList ex).getLast? with
  | some m => BitVec.ofNat 64 (t.pat (e.src (tyWide t) a m))
  | none => e.g.carry

/-- The group that LPREV leaves. -/
def Env.prevGroup (e : Env) (ex : W32) (d : Dst) (a : Src) (b : Option Opd) (t : IntTy) : Group :=
  Group.result { e.g with carry := e.prevCarry ex a t } ex d (tyWide t) (e.prevVal ex a b t)

theorem exec_lprev {s : State} {e : Env} (he : s.envOf s.focus = some e) (k : BitVec 3) (d : Dst) (a : Src) (b : Option Opd)
    (t : IntTy) : exec (.lprev k d a b t) s = wordDone s e (e.prevGroup (e.lanes k) d a b t) := withEnv_some he _

/-- A result leaves the carry that it found. -/
theorem Wrote.with_carry {g h : Group} {c : W64} {ex : W32} {d : Dst} {w : Bool} {v : Nat → W64}
    (hw : Wrote { g with carry := c } h ex d w v) : h.carry = c ∧ Wrote { g with carry := h.carry } h ex d w v := by
  have hc : h.carry = c := by have := congrArg Group.carry hw.rest; exact this
  rw [hc]
  exact ⟨rfl, hw⟩

/-- LPREV by its lanes: the first, each later one, the carry. -/
theorem lprev_word {s : State} {e : Env} (he : s.envOf s.focus = some e) (k : BitVec 3) (d : Dst) (a : Src) (b : Option Opd)
    (t : IntTy) : ∃ t' h v, exec (.lprev k d a b t) s = .next t' ∧ Done s e t' h ∧
      Wrote { e.g with carry := h.carry } h (e.lanes k) d (tyWide t) v ∧
      let ex := fun l => l < 32 ∧ (e.lanes k).getLsbD l = true
      (∀ l, ex l → (∀ j, ex j → l ≤ j) → v l = t.fix false (t.toInt (e.prevSeed b t l))) ∧
      (∀ j l, ex j → ex l → j < l → (∀ i, ex i → ¬(j < i ∧ i < l)) →
        v l = t.fix false (t.toInt (e.src (tyWide t) a j))) ∧
      (∀ m, ex m → (∀ j, ex j → j ≤ m) → h.carry.toNat = t.pat (e.src (tyWide t) a m)) ∧
      ((∀ l, ¬ex l) → h.carry = e.g.carry) := by
  obtain ⟨t', hnext, hdone⟩ := wordDone_done he (e.prevGroup (e.lanes k) d a b t) (Group.result_gid ..)
    (Group.result_flags ..)
  obtain ⟨hcarry, hwrote⟩ : (e.prevGroup (e.lanes k) d a b t).carry = e.prevCarry (e.lanes k) a t ∧ _ :=
    (Group.result_wrote ..).with_carry
  refine ⟨t', _, _, (exec_lprev he k d a b t).trans hnext, hdone, hwrote, fun l _ hmin => ?_, fun j l hj _ hlt hno => ?_,
    fun m hm hmax => ?_, fun hnone => ?_⟩
  · rw [Env.prevVal, prevLane_first fun j hj hex => hmin j ⟨hj, hex⟩]
    exact formN_pat ..
  · rw [Env.prevVal, prevLane_next hj.1 hj.2 hlt fun i hi hex => hno i ⟨hi, hex⟩]
    exact formN_pat ..
  · rw [hcarry, Env.prevCarry, getLast?_of_greatest (laneList_ascending _) (mem_laneList.mpr hm) fun j hj =>
      hmax j (mem_laneList.mp hj)]
    exact toNat_ofNat_pat ..
  · have hnil : laneList (e.lanes k) = [] := List.eq_nil_iff_forall_not_mem.mpr fun l hl => hnone l (mem_laneList.mp hl)
    rw [hcarry, Env.prevCarry, hnil]
    rfl

/-! ## Scans and reductions (03 R104) -/

/-- A scan's values, its first accumulator before them: each is the fold of so many of the values. -/
theorem scanList_getElem? (op : ScanOp) (t : IntTy) (sat : Bool) (vs : List W64) (acc : W64) {i : Nat} (hi : i ≤ vs.length) :
    (acc :: scanList op t sat acc vs)[i]? = some ((vs.take i).foldl (scanStep op t sat) acc) := by
  induction vs generalizing acc i with
  | nil =>
    obtain rfl : i = 0 := Nat.le_zero.mp hi
    rfl
  | cons a vs ih =>
    cases i with
    | zero => rfl
    | succ i => exact ih _ (Nat.le_of_succ_le_succ hi)

theorem scanList_getLastD (op : ScanOp) (t : IntTy) (sat : Bool) (vs : List W64) (acc : W64) :
    (scanList op t sat acc vs).getLastD acc = vs.foldl (scanStep op t sat) acc := by
  induction vs generalizing acc with
  | nil => rfl
  | cons a vs ih => rw [scanList, List.getLastD_cons, ih]; rfl

/-- The fold of a scan's operation over the executing lanes that satisfy `p`, in ascending order. -/
def Env.scanOver (e : Env) (op : ScanOp) (x : IUn) (p : Nat → Bool) : W64 :=
  ((laneList (e.lanes x.k)).filter p).foldl
    (fun acc j => scanStep op x.t x.sat acc (e.src (tyWide x.t) x.a j)) (scanId op x.t)

section
variable {s : State} {e : Env} (he : s.envOf s.focus = some e) (op : ScanOp) (x : IUn)

/-- The scan's values as folds over the first so many executing lanes. -/
theorem scan_getElem? {i : Nat} (hi : i ≤ (laneList (e.lanes x.k)).length) :
    (scanId op x.t :: scanList op x.t x.sat (scanId op x.t) (laneVals (e.lanes x.k) (e.src (tyWide x.t) x.a)))[i]? =
      some (((laneList (e.lanes x.k)).take i).foldl
        (fun acc j => scanStep op x.t x.sat acc (e.src (tyWide x.t) x.a j)) (scanId op x.t)) := by
  rw [scanList_getElem? _ _ _ _ _ (by simpa [laneVals] using hi), laneVals, ← List.map_take, List.foldl_map]

/-- An executing lane's place in the scan is the number of executing lanes below it. -/
theorem scan_laneNth {l : Nat} (hl : l < 32) (hex : (e.lanes x.k).getLsbD l = true) :
    let incl := scanList op x.t x.sat (scanId op x.t) (laneVals (e.lanes x.k) (e.src (tyWide x.t) x.a))
    laneNth (e.lanes x.k) incl l = e.scanOver op x (fun j => j ≤ l) ∧
      laneNth (e.lanes x.k) (scanId op x.t :: incl) l = e.scanOver op x fun j => j < l := by
  obtain ⟨below, above, hsplit, hbelow, hupto⟩ := laneList_split hl hex
  have hincl := scan_getElem? (e := e) op x (i := below.length + 1) (by simp [hsplit])
  have hexcl := scan_getElem? (e := e) op x (i := below.length) (by simp [hsplit])
  rw [hsplit, List.append_cons, List.take_left' (by simp), List.getElem?_cons_succ] at hincl
  rw [hsplit, List.take_left' rfl] at hexcl
  simp only [laneNth, Env.scanOver, hbelow, hupto, List.getD_eq_getElem?_getD]
  exact ⟨by rw [hincl]; rfl, by rw [hexcl]; rfl⟩

theorem scan_last : (scanList op x.t x.sat (scanId op x.t) (laneVals (e.lanes x.k) (e.src (tyWide x.t) x.a))).getLastD
    (scanId op x.t) = e.scanOver op x fun _ => true := by
  rw [scanList_getLastD, laneVals, List.foldl_map, Env.scanOver, List.filter_true]

include he

theorem lscan_word : (∃ v, Completes s e (.lscan op false x) x.k x.d (tyWide x.t) v ∧
      ∀ l, l < 32 → (e.lanes x.k).getLsbD l = true → v l = e.scanOver op x fun j => j ≤ l) ∧
    ∃ v, Completes s e (.lscan op true x) x.k x.d (tyWide x.t) v ∧
      ∀ l, l < 32 → (e.lanes x.k).getLsbD l = true → v l = e.scanOver op x fun j => j < l :=
  ⟨⟨_, wordDone_result he (withEnv_some he _) rfl, fun _ hl hex => (scan_laneNth op x hl hex).1⟩,
    ⟨_, wordDone_result he (withEnv_some he _) rfl, fun _ hl hex => (scan_laneNth op x hl hex).2⟩⟩

theorem lred_word : Completes s e (.lred op x) x.k x.d (tyWide x.t) fun _ => e.scanOver op x fun _ => true :=
  wordDone_result he (withEnv_some he _) (funext fun _ => scan_last op x)
end

/-! ## Votes (03 R105) -/

theorem voteVal_any (ex : W32) (a : Nat → Nat) : voteVal .any ex a = if ∃ l ∈ laneList ex, a l ≠ 0 then 1 else 0 :=
  boolVal_of_iff (by simp)

theorem voteVal_all (ex : W32) (a : Nat → Nat) : voteVal .all ex a = if ∀ l ∈ laneList ex, a l ≠ 0 then 1 else 0 :=
  boolVal_of_iff (by simp)

/-- All agree with the lowest, so with each other. -/
theorem voteVal_uni (ex : W32) (a : Nat → Nat) :
    voteVal .uni ex a = if ∀ l ∈ laneList ex, ∀ j ∈ laneList ex, a l = a j then 1 else 0 := by
  refine boolVal_of_iff ?_
  cases h : lowestLane ex with
  | none =>
    have hnil := List.head?_eq_none_iff.mp h
    simp [hnil]
  | some l0 =>
    have hmem : l0 ∈ laneList ex := List.mem_of_head? h
    simp only [List.all_eq_true, beq_iff_eq]
    exact ⟨fun hall l hl j hj => (hall l hl).trans (hall j hj).symm, fun hall l hl => hall l hl l0 hmem⟩

theorem voteVal_ballot_bit (ex : W32) (a : Nat → Nat) (l : Nat) :
    (voteVal .ballot ex a).getLsbD l = decide (l ∈ laneList ex ∧ a l ≠ 0) := by
  simp only [voteVal, BitVec.getLsbD_setWidth, BitVec.getLsbD_and, laneMask_bit, mem_laneList]
  by_cases hl : l < 32
  · simp [hl, show l < 64 by omega, bne, Bool.beq_eq_decide_eq]
  · simp [hl]

/-- Settles O12: LSHF and LBFL by the lane they read, LPREV by its lanes, scans as folds over the lanes so far, votes by what
holds of the lanes. -/
theorem crossLane : Obligations.CrossLane := by
  unfold Obligations.CrossLane
  refine fun s e he => ⟨fun x l0 hl0 => ⟨?_, ?_, ?_, ?_⟩, fun m x _ => ⟨_, wordDone_result he (withEnv_some he _) rfl⟩,
    fun x => laneOp_word he rfl (funext fun l => formN_pat ..), lprev_word he,
    fun op x => ⟨(lscan_word he op x).1, (lscan_word he op x).2, lred_word he op x⟩,
    fun x => ⟨?_, ?_, ⟨_, wordDone_result he (withEnv_some he _) rfl, voteVal_ballot_bit _ _⟩, ?_⟩, fun k d =>
      ⟨_, wordDone_result he (withEnv_some he _) rfl, fun l l0 hl0 => by rw [hl0]; rfl⟩⟩
  · exact lshf_word he .up x hl0 _ fun l hl => lshfLane_up l _ hl
  · exact lshf_word he .down x hl0 _ fun l _ => lshfLane_down l _
  · exact lshf_word he .rot x hl0 _ fun l _ => lshfLane_rot l _
  · exact lshf_word he .xor x hl0 _ fun l hl => lshfLane_xor l _ hl
  · exact wordDone_result he (withEnv_some he _) (funext fun _ => voteVal_any ..)
  · exact wordDone_result he (withEnv_some he _) (funext fun _ => voteVal_all ..)
  · exact wordDone_result he (withEnv_some he _) (funext fun _ => voteVal_uni ..)

end Sys2Proof.Machine

namespace Sys2Proof.Machine

/-! ## FPST and PREC (04 R131, 05 R158) -/

/-- A fold of guarded writes by lane, as the readers of the lanes see it. -/
theorem read_foldl_lanes_if {w : Nat} (m : Store w) (ex : W32) (P : Nat → Bool) (v : Nat → BitVec w) {l : Nat} (hl : l < 32) :
    Store.read ((laneList ex).foldl (fun m j => if P j then Store.write m j (v j) else m) m) l =
      if ex.getLsbD l = true ∧ P l = true then v l else Store.read m l := by
  have key : ∀ (ls : List Nat) (m : Store w),
      Store.read (ls.foldl (fun m j => if P j then Store.write m j (v j) else m) m) l =
        if l ∈ ls ∧ P l = true then v l else Store.read m l := by
    intro ls
    induction ls with
    | nil => simp
    | cons a ls ih =>
      intro m
      rw [List.foldl_cons, ih]
      by_cases ha : a = l
      · subst ha; by_cases hP : P a = true <;> simp [hP, Store.read_write_same]
      · have hread : Store.read (if P a then Store.write m a (v a) else m) l = Store.read m l := by
          split
          · exact Store.read_write_other _ _ ha
          · rfl
        simp [hread, Ne.symm ha]
  simp [key, mem_laneList, hl]

/-- A result is no matter of FPST … -/
theorem Wrote.set_fpst {g h : Group} {ex : W32} {d : Dst} {w : Bool} {v : Nat → W64} (hw : Wrote g h ex d w v) (p : Store 32) :
    Wrote { g with fpst := p } { h with fpst := p } ex d w v where
  newest := hw.newest
  older := hw.older
  win := hw.win
  scal := hw.scal
  rest := congrArg (fun z : Group => { z with fpst := p }) hw.rest

/-- … nor of PREC. -/
theorem Wrote.set_prec {g h : Group} {ex : W32} {d : Dst} {w : Bool} {v : Nat → W64} (hw : Wrote g h ex d w v) (p : Store 32) :
    Wrote { g with prec := p } { h with prec := p } ex d w v where
  newest := hw.newest
  older := hw.older
  win := hw.win
  scal := hw.scal
  rest := congrArg (fun z : Group => { z with prec := p }) hw.rest

/-- The group that FSTW leaves. -/
def Env.fstwGroup (e : Env) (m : FstwOp) (k : BitVec 3) (d : Dst) (a : Opd) : Group :=
  { e.g.result (e.lanes k) d false (fun l => (Store.read e.g.fpst l).setWidth 64) with
    fpst := (laneList (e.lanes k)).foldl (fun p l =>
      Store.write p l (fstwVal m (Store.read e.g.fpst l) ((e.opd false a l).setWidth 32))) e.g.fpst }

/-- The result of PRECW in a lane. -/
def Env.precResult (e : Env) (cand : Nat → W32) (l : Nat) : W64 :=
  (if precOk (cand l) then Store.read e.g.prec l else Store.read e.g.prec l ||| 0x80000000).setWidth 64

/-- The group that PRECW leaves. -/
def Env.precGroup (e : Env) (k : BitVec 3) (d : Dst) (cand : Nat → W32) : Group :=
  { e.g.result (e.lanes k) d false (e.precResult cand) with
    prec := (laneList (e.lanes k)).foldl (fun m l => if precOk (cand l) then Store.write m l (cand l) else m) e.g.prec }

section
variable {s : State} {e : Env} (he : s.envOf s.focus = some e) {k : BitVec 3} {d : Dst}
include he

theorem exec_fstw (m : FstwOp) (a : Opd) : exec (.fstw m k d a) s = wordDone s e (e.fstwGroup m k d a) := withEnv_some he _

/-- FSTW: the result, and the new FPST by its lanes. -/
theorem fstw_word (m : FstwOp) (a : Opd) : ∃ t h, exec (.fstw m k d a) s = .next t ∧ Done s e t h ∧
    Wrote { e.g with fpst := h.fpst } h (e.lanes k) d false (fun l => (Store.read e.g.fpst l).setWidth 64) ∧
    ∀ l, l < 32 → Store.read h.fpst l = if (e.lanes k).getLsbD l
      then fstwVal m (Store.read e.g.fpst l) ((e.opd false a l).setWidth 32) else Store.read e.g.fpst l := by
  obtain ⟨t, hnext, hdone⟩ := wordDone_done he (e.fstwGroup m k d a) (Group.result_gid ..) (Group.result_flags ..)
  exact ⟨t, _, (exec_fstw he m a).trans hnext, hdone, (Group.result_wrote ..).set_fpst _,
    fun l hl => read_foldl_lanes _ _ _ _ hl⟩

/-- PRECW: the result by the candidate's fate, and the new PREC by its lanes. -/
theorem precWrite_word {i : Instr} {cand : Env → Nat → W32} (hi : exec i s = precWrite s k d cand) :
    ∃ t h, exec i s = .next t ∧ Done s e t h ∧
    Wrote { e.g with prec := h.prec } h (e.lanes k) d false (e.precResult (cand e)) ∧
    ∀ l, l < 32 → Store.read h.prec l =
      if (e.lanes k).getLsbD l = true ∧ precOk (cand e l) = true then cand e l else Store.read e.g.prec l := by
  obtain ⟨t, hnext, hdone⟩ := wordDone_done he (e.precGroup k d (cand e)) (Group.result_gid ..) (Group.result_flags ..)
  exact ⟨t, _, hi.trans ((withEnv_some he _).trans hnext), hdone, (Group.result_wrote ..).set_prec _,
    fun l hl => read_foldl_lanes_if _ _ _ _ hl⟩
end

/-- Settles O16: FSTR and PRECR by their one result, FSTW and PRECW by their folds over the executing lanes. -/
theorem statusRegisters : Obligations.StatusRegisters := by
  unfold Obligations.StatusRegisters
  refine fun s e he k d => ⟨laneOp_word he rfl rfl, laneOp_word he rfl rfl, fun m a => ?_, fun len a => ?_⟩
  · exact fstw_word he m a
  · cases len with
    | false => exact precWrite_word he (cand := fun e l => (e.src32 a l).setWidth 32 &&& 0xFFFFFF) rfl
    | true => exact precWrite_word he (cand := fun e l => (e.precOf l &&& 0xFFFFFE00) ||| ((e.src32 a l).setWidth 32 &&& 0x1FF)) rfl

/-! ## The words of chapter 04 (04 R115, R116) -/

/-- Raising no exception changes nothing. -/
theorem Group.raiseAll_zero (g : Group) (ex : W32) : g.raiseAll ex (fun _ => 0) = g := by
  unfold Group.raiseAll Group.raise
  simp

section
variable {s : State} {e : Env} (he : s.envOf s.focus = some e) {i : Instr} {k : BitVec 3} {d : Dst} {w : Bool}
include he

/-- A word of chapter 04 with a lane that raises an enabled exception. -/
theorem fpWord_traps {v : Env → Nat → W64 × W32} (hi : exec i s = fpWord s k d w v)
    (ht : e.fpTrap (e.lanes k) fun l => (v e l).2) :
    ∃ g f, exec i s = parkWord s e g f ∧ { g with fpst := e.g.fpst } = e.g ∧
      Raised e.g g.fpst (e.lanes k) (fun l => (v e l).2) ∧ f.cause = 3 ∧
      ∀ l, l < 32 → f.lanes.getLsbD l =
        ((e.lanes k).getLsbD l && decide ((v e l).2 &&& (Store.read e.g.fpst l >>> 5) &&& 0x1F ≠ 0)) := by
  have hbit : ∀ l, l < 32 → (e.lanes k &&& laneMask fun l => e.g.enabled l (v e l).2 != 0).getLsbD l =
      ((e.lanes k).getLsbD l && decide ((v e l).2 &&& (Store.read e.g.fpst l >>> 5) &&& 0x1F ≠ 0)) := fun l hl => by
    rw [BitVec.getLsbD_and, laneMask_bit, decide_eq_true hl, Bool.true_and, bne_zero]
    rfl
  have htrap : e.lanes k &&& laneMask (fun l => e.g.enabled l (v e l).2 != 0) ≠ 0 := by
    obtain ⟨l, hl, hex, hen⟩ := ht
    intro h0
    have := hbit l hl
    rw [h0, hex, decide_eq_true hen] at this
    simp at this
  obtain ⟨hframe, hraised⟩ := e.g.raiseAll_spec (e.lanes k) fun l => (v e l).2
  exact ⟨_, _, hi.trans ((withEnv_some he _).trans (if_neg htrap)), hframe, hraised, rfl, hbit⟩

/-- An instruction whose meaning is a word of chapter 04. -/
theorem fpWord_word {f : Env → Nat → W64 × W32} (hi : exec i s = fpWord s k d w f) : FpWord s e i k d w (f e) :=
  ⟨fpWord_completes he hi, fpWord_traps he hi⟩

theorem fpBin_word {x : FBin} {f : W64 → W64 → W64 × W32} (hi : exec i s = fpBin s x f) :
    FpWord s e i x.k x.d (fpWide x.t) fun l => f (e.src (fpWide x.t) x.a l) (e.fopd x.t x.b l) := fpWord_word he hi

theorem fpUn_word {x : FUn} {f : W64 → W64 × W32} (hi : exec i s = fpUn s x f) :
    FpWord s e i x.k x.d (fpWide x.t) fun l => f (e.src (fpWide x.t) x.a l) := fpWord_word he hi

/-- A word of chapter 04 without exceptions. -/
theorem fpWord_quiet {f : Env → Nat → W64} (hi : exec i s = fpWord s k d w fun e l => (f e l, 0)) :
    Completes s e i k d w (f e) := by
  have hz : e.lanes k &&& laneMask (fun l => e.g.enabled l 0 != 0) = 0 := BitVec.eq_of_getLsbD_eq fun l _ => by
    simp [laneMask_bit, Group.enabled]
  refine wordDone_result he (hi.trans ((withEnv_some he _).trans ((if_pos hz).trans ?_))) rfl
  rw [Group.raiseAll_zero]
end

/-! The words that are neither one function of operand A nor one of operands A and B at the type: their meanings. -/

theorem exec_fcmp (p : FPred) (x : FBin) (s : State) : exec (.fcmp p x) s = fpWord s x.k x.d false fun e l =>
    fcmpVal p x.t x.ftz (e.src (fpWide x.t) x.a l) (e.fopd x.t x.b l) := rfl

theorem exec_ffma (x : FTer) (s : State) : exec (.ffma x) s = fpWord s x.k x.d (fpWide x.t) fun e l =>
    ffmaVal x.t x.r x.ftz (e.src (fpWide x.t) x.a l) (e.src (fpWide x.t) x.b l) (e.src (fpWide x.t) x.c l) := rfl

theorem exec_fdot2 (x : FTer) (s : State) : exec (.fdot2 x) s = fpWord s x.k x.d false fun e l =>
    fdot2Val x.t x.r x.ftz (e.src32 x.a l) (e.src32 x.b l) (e.src32 x.c l) := rfl

theorem exec_fcls (x : FUn) (s : State) : exec (.fcls x) s = fpWord s x.k x.d false fun e l =>
    (fclsVal x.t (e.src (fpWide x.t) x.a l), 0) := rfl

theorem exec_cvt (k : BitVec 3) (d : Dst) (a : Src) (dt st : NumTy) (r : Rnd) (ftz : Bool) (s : State) :
    exec (.cvt k d a dt st r ftz) s = fpWord s k d (numWide dt) fun e l =>
      cvtVal dt st r ftz (e.src (numWide st) a l) := rfl

theorem exec_fpackPack (k : BitVec 3) (d : Dst) (a b : Src) (bf w : Bool) (r : Rnd) (ftz : Bool) (s : State) :
    exec (.fpackPack k d a b bf w r ftz) s = fpWord s k d false fun e l =>
      fpackVal bf w r ftz (e.src w a l) (e.src w b l) := rfl

theorem exec_fpackUnpack (hi : Bool) (k : BitVec 3) (d : Dst) (a : Src) (w bf ftz : Bool) (s : State) :
    exec (.fpackUnpack hi k d a w bf ftz) s = fpWord s k d w fun e l => funpackVal hi w bf ftz (e.src32 a l) := rfl

/-- Settles O14: each word is the common word of chapter 04 at its value function; FCLS raises nothing. -/
theorem floatResults : Obligations.FloatResults := by
  unfold Obligations.FloatResults
  intro s e he
  refine ⟨fun x => ?_, fun x => ?_, fun x => ?_, fun k d a dt st r ftz => ?_, fun k d a b bf w r ftz => ?_,
    fun hi k d a w bf ftz => ?_⟩
  · exact ⟨fpBin_word he rfl, fpBin_word he rfl, fpBin_word he rfl, fpBin_word he rfl, fpBin_word he rfl,
      fpBin_word he rfl, fpBin_word he rfl, fpBin_word he rfl, fun p => (fpWord_word he (exec_fcmp ..) :)⟩
  · exact ⟨(fpWord_word he (exec_ffma ..) :), (fpWord_word he (exec_fdot2 ..) :)⟩
  · exact ⟨fpUn_word he rfl, (fpWord_quiet he (exec_fcls ..) :), fun b => fpUn_word he rfl, fpUn_word he rfl, fpUn_word he rfl,
      fpUn_word he rfl, fpUn_word he rfl, fpUn_word he rfl, fpUn_word he rfl, fpUn_word he rfl⟩
  · exact (fpWord_word he (exec_cvt ..) :)
  · exact (fpWord_word he (exec_fpackPack ..) :)
  · exact (fpWord_word he (exec_fpackUnpack ..) :)

end Sys2Proof.Machine

namespace Sys2Proof

open Machine

/-! ## Rounding of a magnitude (02 R54, Table 2.11)

The model rounds a significand in units of a power of two, and keeps what lies too far below as a last bit of 1.  Here a
rounding is a function of the magnitude in units alone, and the model's `roundAt` is shown to be that function, of the
significand's value and of every magnitude that the significand stands for. -/

/-- The factor of a sign. -/
def sgn (neg : Bool) : ℚ := if neg then -1 else 1

theorem Fp.value_fin (n : Bool) (m : Nat) (e : Int) : (Fp.fin n m e).value = sgn n * (m * 2 ^ e) := by
  unfold Fp.value sgn; ring

/-- Whether a magnitude that lies between `hi` and `hi + 1` units goes up, by how twice what is above `hi` compares to a
unit. -/
def roundsUp (mode : RMode) (neg : Bool) (hi : Nat) (twice : Ordering) : Bool :=
  match mode with
  | .rne => twice == .gt || (twice == .eq && hi % 2 == 1)
  | .rtz => false
  | .rup => !neg
  | .rdn => neg
  | .rna => twice != .lt
  | .rto => hi % 2 == 0

/-- `hi + f` units rounded to whole units, and whether anything was lost. -/
def roundParts (mode : RMode) (neg : Bool) (hi : Nat) (f : ℚ) : Nat × Bool :=
  if f = 0 then (hi, false) else (if roundsUp mode neg hi (compare (2 * f) 1) then hi + 1 else hi, true)

/-- A magnitude in units, rounded to whole units. -/
def roundMag (mode : RMode) (neg : Bool) (v : ℚ) : Nat × Bool := roundParts mode neg ⌊v⌋₊ (v - ⌊v⌋₊)

theorem roundMag_parts {hi : Nat} {f : ℚ} (h0 : 0 ≤ f) (h1 : f < 1) (mode : RMode) (neg : Bool) :
    roundMag mode neg (hi + f) = roundParts mode neg hi f := by
  have hfloor : ⌊(hi : ℚ) + f⌋₊ = hi := by
    rw [Nat.floor_eq_iff (by positivity)]
    exact ⟨by linarith, by linarith⟩
  rw [roundMag, hfloor, add_sub_cancel_left]

/-- A magnitude is its floor and a fraction. -/
theorem exists_parts {v : ℚ} (hv : 0 ≤ v) : ∃ (hi : Nat) (f : ℚ), 0 ≤ f ∧ f < 1 ∧ v = hi + f :=
  ⟨⌊v⌋₊, v - ⌊v⌋₊, sub_nonneg.2 (Nat.floor_le hv), by linarith [Nat.lt_floor_add_one v], by ring⟩

/-- A rounding falls in the closed range of whole numbers that its magnitude falls in. -/
theorem roundParts_range {hi : Nat} {f : ℚ} (h0 : 0 ≤ f) (h1 : f < 1) (mode : RMode) (neg : Bool) (n : Nat) :
    ((n : ℚ) ≤ hi + f → n ≤ (roundParts mode neg hi f).1) ∧ (hi + f ≤ (n : ℚ) → (roundParts mode neg hi f).1 ≤ n) := by
  have hle : (n : ℚ) ≤ hi + f → n ≤ hi := fun h => by
    have : (n : ℚ) < (hi + 1 : ℕ) := by push_cast; linarith
    exact Nat.lt_succ_iff.1 (by exact_mod_cast this)
  unfold roundParts
  split
  · next hf => subst hf; simp
  · next hf =>
    have hpos : 0 < f := lt_of_le_of_ne h0 (Ne.symm hf)
    have hlt : hi + f ≤ (n : ℚ) → hi + 1 ≤ n := fun h => by
      have : (hi : ℚ) < n := by linarith
      exact_mod_cast this
    refine ⟨fun h => ?_, fun h => ?_⟩
    · have := hle h; dsimp only; split <;> omega
    · have := hlt h; dsimp only; split <;> omega

/-- A rounding loses nothing exactly where it is the magnitude. -/
theorem roundParts_exact {hi : Nat} {f : ℚ} (h1 : f < 1) (mode : RMode) (neg : Bool) :
    (roundParts mode neg hi f).2 = false ↔ ((roundParts mode neg hi f).1 : ℚ) = hi + f := by
  unfold roundParts
  split
  · next hf => simp [hf]
  · next hf =>
    simp only [Bool.true_eq_false, false_iff]
    split
    · push_cast; intro h; linarith
    · intro h; exact hf (by linarith)

theorem abs_sgn_sub (neg : Bool) (x y : ℚ) : |sgn neg * y - sgn neg * x| = |y - x| := by
  rw [← mul_sub, abs_mul]
  cases neg <;> simp [sgn]

theorem abs_sgn_mul (neg : Bool) (x : ℚ) : |sgn neg * x| = |x| := by
  rw [abs_mul]
  cases neg <;> simp [sgn]

/-- A signed multiple of a unit is one. -/
theorem exists_sgn_mul (neg : Bool) (c h : Nat) : ∃ k : ℤ, sgn neg * ((c * h : ℕ) : ℚ) = c * k * 1 := by
  cases neg with
  | false => exact ⟨h, by simp [sgn]⟩
  | true => exact ⟨-h, by simp [sgn]⟩

/-- What a mode asks for where the magnitude `v`, of that sign, goes to `h` units at a distance `d`. -/
def ModeAsks (mode : RMode) (neg : Bool) (v d : ℚ) (h : Nat) : Prop :=
  match mode with
  | .rne => 2 * d ≤ 1 ∧ (2 * d = 1 → h % 2 = 0)
  | .rna => 2 * d ≤ 1 ∧ (2 * d = 1 → v ≤ h)
  | .rtz => (h : ℚ) ≤ v
  | .rup => if neg then (h : ℚ) ≤ v else v ≤ h
  | .rdn => if neg then v ≤ h else (h : ℚ) ≤ v
  | .rto => d ≠ 0 → h % 2 = 1

theorem rounds_of_distance {mode : RMode} {neg : Bool} {v d : ℚ} {h : Nat} (hd : |(h : ℚ) - v| = d) (h1 : d < 1)
    (hmode : ModeAsks mode neg v d h) (hv : 0 ≤ v) : Rounds mode (sgn neg * v) 1 (sgn neg * h) := by
  refine ⟨by simpa using exists_sgn_mul neg 1 h, by rwa [abs_sgn_sub, hd], ?_⟩
  cases mode with
  | rne =>
    dsimp only at hmode ⊢
    rw [abs_sgn_sub, hd]
    refine ⟨by linarith [hmode.1], fun htie => ?_⟩
    obtain ⟨j, rfl⟩ := Nat.dvd_of_mod_eq_zero (hmode.2 (by linarith))
    exact_mod_cast exists_sgn_mul neg 2 j
  | rna =>
    dsimp only at hmode ⊢
    rw [abs_sgn_sub, hd, abs_sgn_mul, abs_sgn_mul, abs_of_nonneg hv, Nat.abs_cast]
    exact ⟨by linarith [hmode.1], fun htie => hmode.2 (by linarith)⟩
  | rtz =>
    dsimp only at hmode ⊢
    rwa [abs_sgn_mul, abs_sgn_mul, abs_of_nonneg hv, Nat.abs_cast]
  | rup => cases neg <;> simpa [sgn, ModeAsks] using hmode
  | rdn => cases neg <;> simpa [sgn, ModeAsks] using hmode
  | rto =>
    intro hne
    have hd0 : d ≠ 0 := fun h0 => hne (by rw [sub_eq_zero.1 (abs_eq_zero.1 (hd.trans h0))])
    obtain ⟨j, hj⟩ : ∃ j, h = 2 * j + 1 := ⟨h / 2, by have := hmode hd0; omega⟩
    subst hj
    cases neg with
    | false => exact ⟨j, by simp [sgn]⟩
    | true => exact ⟨-j - 1, by simp [sgn]; ring⟩

/-- What goes up, and what goes down, is what the mode asks for. -/
theorem modeAsks_up {mode : RMode} {neg : Bool} {hi : Nat} {f : ℚ} (h1 : f < 1)
    (hup : roundsUp mode neg hi (compare (2 * f) 1) = true) : ModeAsks mode neg (hi + f) (1 - f) (hi + 1) := by
  have hle : (hi : ℚ) + f ≤ (hi + 1 : ℕ) := by push_cast; linarith
  cases mode with
  | rne =>
    simp only [roundsUp, Bool.or_eq_true, Bool.and_eq_true, beq_iff_eq, compare_gt_iff_gt, compare_eq_iff_eq] at hup
    rcases hup with hgt | ⟨heq, hodd⟩
    · exact ⟨by linarith, fun h => by linarith⟩
    · exact ⟨by linarith, fun _ => by omega⟩
  | rtz => simp [roundsUp] at hup
  | rup => simpa [roundsUp, ModeAsks, show neg = false by simpa [roundsUp] using hup] using hle
  | rdn => simpa [roundsUp, ModeAsks, show neg = true by simpa [roundsUp] using hup] using hle
  | rna =>
    simp only [roundsUp, bne_iff_ne, ne_eq, compare_lt_iff_lt, not_lt] at hup
    exact ⟨by linarith, fun _ => hle⟩
  | rto => simp only [roundsUp, beq_iff_eq] at hup; exact fun _ => by omega

theorem modeAsks_down {mode : RMode} {neg : Bool} {hi : Nat} {f : ℚ} (h0 : 0 ≤ f)
    (hdown : ¬roundsUp mode neg hi (compare (2 * f) 1) = true) : ModeAsks mode neg (hi + f) f hi := by
  have hle : (hi : ℚ) ≤ hi + f := by linarith
  cases mode with
  | rne =>
    simp only [roundsUp, Bool.or_eq_true, Bool.and_eq_true, beq_iff_eq, compare_gt_iff_gt, compare_eq_iff_eq, not_or,
      not_and] at hdown
    exact ⟨by linarith [hdown.1], fun h => by have := hdown.2 h; omega⟩
  | rtz => exact hle
  | rup => simpa [ModeAsks, show neg = true by simpa [roundsUp] using hdown] using h0
  | rdn => simpa [ModeAsks, show neg = false by simpa [roundsUp] using hdown] using h0
  | rna =>
    simp only [roundsUp, bne_iff_ne, ne_eq, compare_lt_iff_lt, not_not] at hdown
    exact ⟨hdown.le, fun h => by linarith⟩
  | rto => simp only [roundsUp, beq_iff_eq] at hdown; exact fun _ => by omega

/-- A rounding is the one that the mode asks for of the signed magnitude. -/
theorem roundParts_rounds {hi : Nat} {f : ℚ} (h0 : 0 ≤ f) (h1 : f < 1) (mode : RMode) (neg : Bool) :
    Rounds mode (sgn neg * (hi + f)) 1 (sgn neg * (roundParts mode neg hi f).1) := by
  have hv : (0 : ℚ) ≤ hi + f := by positivity
  unfold roundParts
  split
  · next hf =>
    subst hf
    refine rounds_of_distance (d := 0) (by simp) one_pos ?_ hv
    cases mode <;> simp [ModeAsks]
  · next hf =>
    dsimp only
    split
    · next hup =>
      refine rounds_of_distance ?_ (sub_lt_self 1 (lt_of_le_of_ne h0 (Ne.symm hf))) (modeAsks_up h1 hup) hv
      push_cast; rw [abs_of_pos (by linarith)]; ring
    · next hdown =>
      refine rounds_of_distance ?_ h1 (modeAsks_down h0 hdown) hv
      rw [sub_add_cancel_left, abs_neg, abs_of_nonneg h0]

/-! ### The model's rounding -/

theorem topExp_eq (m : Nat) (e : ℤ) : topExp m e = Nat.log2 m + e := rfl

/-- A dyadic significand and a magnitude that it stands for: its value, or one strictly between its odd significand's
neighbours, which are further down than any rounding looks. -/
def Reads (m : Nat) (e : ℤ) (x : ℚ) : Prop :=
  x = m * 2 ^ e ∨ 258 ≤ Nat.log2 m ∧ m % 2 = 1 ∧ ((m : ℚ) - 1) * 2 ^ e < x ∧ x < ((m : ℚ) + 1) * 2 ^ e

theorem compare_congr {α β : Type} [LinearOrder α] [LinearOrder β] {a b : α} {c d : β} (hlt : a < b ↔ c < d)
    (heq : a = b ↔ c = d) : compare a b = compare c d := by
  rcases lt_trichotomy a b with h | h | h
  · rw [compare_lt_iff_lt.2 h, compare_lt_iff_lt.2 (hlt.1 h)]
  · rw [compare_eq_iff_eq.2 h, compare_eq_iff_eq.2 (heq.1 h)]
  · have hc : d < c := lt_of_le_of_ne (not_lt.1 fun hc => h.asymm (hlt.2 hc)) fun hc => h.ne (heq.2 hc.symm).symm
    rw [compare_gt_iff_gt.2 h, compare_gt_iff_gt.2 hc]

/-- A significand in units of 2^k, k above 0: the whole units and the rest. -/
theorem roundAt_below (mode : RMode) (neg : Bool) (m : Nat) {e q : ℤ} {k : Nat} (hk : q = e + k) (h0 : 0 < k) :
    roundAt mode neg m e q = roundParts mode neg (m / 2 ^ k) ((m % 2 ^ k : ℕ) / 2 ^ k : ℚ) := by
  have hpos : (0 : ℚ) < 2 ^ k := by positivity
  have hzero : ((m % 2 ^ k : ℕ) / 2 ^ k : ℚ) = 0 ↔ m % 2 ^ k = 0 := by
    rw [div_eq_zero_iff, or_iff_left hpos.ne', Nat.cast_eq_zero]
  have hcompare : compare (2 * ((m % 2 ^ k : ℕ) / 2 ^ k : ℚ)) 1 = compare (2 * (m % 2 ^ k)) (2 ^ k) := by
    refine compare_congr ?_ ?_
    · rw [← mul_div_assoc, div_lt_one hpos]; exact_mod_cast Iff.rfl
    · rw [← mul_div_assoc, div_eq_one_iff_eq hpos.ne']; exact_mod_cast Iff.rfl
  simp only [roundAt, show ¬q ≤ e by omega, if_false, show (q - e).toNat = k by omega, roundParts, hzero, hcompare]
  by_cases htiny : Nat.log2 m + 2 < k
  · have hm : 2 * m < 2 ^ k := calc
      2 * m < 2 * 2 ^ (Nat.log2 m + 1) := by have := @Nat.lt_log2_self m; omega
      _ = 2 ^ (Nat.log2 m + 2) := by ring
      _ ≤ 2 ^ k := Nat.pow_le_pow_right (by omega) htiny.le
    have hcmp : compare (2 * m) (2 ^ k) = .lt := compare_lt_iff_lt.2 hm
    simp only [htiny, decide_true, if_true, Nat.div_eq_of_lt (show m < 2 ^ k by omega),
      Nat.mod_eq_of_lt (show m < 2 ^ k by omega), hcmp]
    rfl
  · simp only [htiny, decide_false, Bool.false_eq_true, if_false]
    rfl

/-- What is left of a significand above a place, in units of the place. -/
theorem mul_zpow_div (m : ℚ) (e : ℤ) (k : Nat) : m * 2 ^ e / 2 ^ (e + k) = m / 2 ^ k := by
  rw [zpow_add₀ two_ne_zero, zpow_natCast]
  field_simp

theorem nat_div_add_mod_pow (m k : Nat) : (m : ℚ) / 2 ^ k = (m / 2 ^ k : ℕ) + (m % 2 ^ k : ℕ) / 2 ^ k := by
  rw [← mul_div_cancel_right₀ ((m / 2 ^ k : ℕ) : ℚ) (by positivity : (2 : ℚ) ^ k ≠ 0), ← add_div]
  congr 1
  exact_mod_cast (Nat.div_add_mod' m (2 ^ k)).symm

theorem mod_pow_div_lt_one (m k : Nat) : ((m % 2 ^ k : ℕ) / 2 ^ k : ℚ) < 1 := by
  rw [div_lt_one (by positivity)]
  exact_mod_cast Nat.mod_lt m (by positivity)

theorem roundAt_eq_roundMag (mode : RMode) (neg : Bool) (m : Nat) (e q : ℤ) :
    roundAt mode neg m e q = roundMag mode neg (m * 2 ^ e / 2 ^ q) := by
  by_cases hq : q ≤ e
  · obtain ⟨k, rfl⟩ : ∃ k : Nat, e = q + k := ⟨(e - q).toNat, by omega⟩
    have hval : (m * 2 ^ (q + (k : ℤ)) / 2 ^ q : ℚ) = (m * 2 ^ k : ℕ) + 0 := by
      rw [zpow_add₀ two_ne_zero, zpow_natCast]
      push_cast
      field_simp
      ring
    rw [hval, roundMag_parts le_rfl one_pos]
    simp [roundAt, roundParts, shl]
  · obtain ⟨k, rfl⟩ : ∃ k : Nat, q = e + k := ⟨(q - e).toNat, by omega⟩
    rw [mul_zpow_div, nat_div_add_mod_pow, roundMag_parts (by positivity) (mod_pow_div_lt_one m k),
      roundAt_below mode neg m rfl (by omega)]

/-- An odd number of parts in 2^k is not half of them, and a fraction within one part of it lies on its side of the half. -/
theorem compare_half {lo k : Nat} (hodd : lo % 2 = 1) (hk : 2 ≤ k) {g : ℚ} (hlo : (lo : ℚ) - 1 < g * 2 ^ k)
    (hhi : g * 2 ^ k < lo + 1) : compare (2 * g) 1 = compare (2 * (lo / 2 ^ k : ℚ)) 1 := by
  have hpow : 2 ^ k = 2 * 2 ^ (k - 1) := by rw [← pow_succ', Nat.sub_add_cancel (by omega)]
  have heven : 2 ^ (k - 1) % 2 = 0 := Nat.mod_eq_zero_of_dvd (dvd_pow_self 2 (by omega))
  have hhalf : (2 : ℚ) ^ k = 2 * (2 ^ (k - 1) : ℕ) := by exact_mod_cast hpow
  have hpos : (0 : ℚ) < 2 ^ k := by positivity
  rcases lt_or_gt_of_ne (show lo ≠ 2 ^ (k - 1) by omega) with h | h
  · have h' : (lo : ℚ) + 1 ≤ (2 ^ (k - 1) : ℕ) := by exact_mod_cast h
    rw [compare_lt_iff_lt.2 (by nlinarith), compare_lt_iff_lt.2]
    rw [← mul_div_assoc, div_lt_one hpos]; linarith
  · have h' : ((2 ^ (k - 1) : ℕ) : ℚ) + 1 ≤ lo := by exact_mod_cast h
    rw [compare_gt_iff_gt.2 (by nlinarith), compare_gt_iff_gt.2]
    rw [← mul_div_assoc, one_lt_div hpos]; linarith

/-- The neighbours of an odd significand above a place of two bits or more bound it to the same unit, and to the same side
of the unit's half. -/
theorem roundMag_between {m k : Nat} (hm : m % 2 = 1) (hk : 2 ≤ k) {v : ℚ} (hlo : ((m : ℚ) - 1) / 2 ^ k < v)
    (hhi : v < ((m : ℚ) + 1) / 2 ^ k) (mode : RMode) (neg : Bool) :
    roundMag mode neg v = roundMag mode neg (m / 2 ^ k) := by
  have hpow : 2 ^ k = 2 * 2 ^ (k - 1) := by rw [← pow_succ', Nat.sub_add_cancel (by omega)]
  have hpos : (0 : ℚ) < 2 ^ k := by positivity
  obtain ⟨hi, lo, hlt, hm'⟩ : ∃ hi lo : Nat, lo < 2 ^ k ∧ m = hi * 2 ^ k + lo :=
    ⟨m / 2 ^ k, m % 2 ^ k, Nat.mod_lt _ (by positivity), (Nat.div_add_mod' m _).symm⟩
  have hodd : lo % 2 = 1 := by rw [hm', hpow, mul_left_comm] at hm; omega
  have hval : (m : ℚ) = hi * 2 ^ k + lo := by exact_mod_cast hm'
  -- the two fractions, in units of the significand's last place
  have hg : v = hi + (v - hi) := by ring
  have hglo : (lo : ℚ) - 1 < (v - hi) * 2 ^ k := by
    rw [div_lt_iff₀ hpos, hval] at hlo; linarith
  have hghi : (v - hi) * 2 ^ k < (lo : ℚ) + 1 := by
    rw [lt_div_iff₀ hpos, hval] at hhi; linarith
  have hlo1 : (1 : ℚ) ≤ lo := by exact_mod_cast (show 1 ≤ lo by omega)
  have hlo2 : (lo : ℚ) + 1 ≤ 2 ^ k := by exact_mod_cast hlt
  have hg0 : 0 < v - hi := pos_of_mul_pos_left (by linarith) hpos.le
  have hg1 : v - hi < 1 := lt_of_mul_lt_mul_right (by linarith) hpos.le
  have hmid : (m : ℚ) / 2 ^ k = hi + lo / 2 ^ k := by rw [hval]; field_simp
  rw [hg, hmid, roundMag_parts hg0.le hg1, roundMag_parts (by positivity) (by rw [div_lt_one hpos]; linarith), roundParts,
    roundParts, if_neg hg0.ne', if_neg (div_ne_zero (by linarith) hpos.ne'), compare_half hodd hk hglo hghi]

/-- A magnitude that a significand stands for is rounded as the significand, at every place at most 255 bits below its
top. -/
theorem roundAt_of_reads {m : Nat} {e : ℤ} {x : ℚ} (hx : Reads m e x) {q : ℤ} (hq : topExp m e ≤ q + 255) (mode : RMode)
    (neg : Bool) : roundAt mode neg m e q = roundMag mode neg (x / 2 ^ q) := by
  rw [roundAt_eq_roundMag]
  rcases hx with rfl | ⟨hlog, hodd, hlo, hhi⟩
  · rfl
  · rw [topExp_eq] at hq
    obtain ⟨k, rfl⟩ : ∃ k : Nat, q = e + k := ⟨(q - e).toNat, by omega⟩
    have hk : 2 ≤ k := by omega
    rw [mul_zpow_div]
    refine (roundMag_between hodd hk ?_ ?_ mode neg).symm
    · rw [← mul_zpow_div _ e, div_lt_div_iff_of_pos_right (by positivity)]; exact hlo
    · rw [← mul_zpow_div _ e, div_lt_div_iff_of_pos_right (by positivity)]; exact hhi

/-! ### The top of a significand -/

theorem zpow_topExp (m : Nat) (e : ℤ) : (2 : ℚ) ^ topExp m e = 2 ^ Nat.log2 m * 2 ^ e := by
  rw [topExp_eq, zpow_add₀ two_ne_zero, zpow_natCast]

theorem zpow_topExp_succ (m : Nat) (e : ℤ) : (2 : ℚ) ^ (topExp m e + 1) = 2 ^ (Nat.log2 m + 1) * 2 ^ e := by
  rw [zpow_add_one₀ two_ne_zero, zpow_topExp, pow_succ, mul_right_comm]

theorem topExp_bounds {m : Nat} (hm : m ≠ 0) (e : ℤ) :
    (2 : ℚ) ^ topExp m e ≤ m * 2 ^ e ∧ (m : ℚ) * 2 ^ e < 2 ^ (topExp m e + 1) := by
  have hlo : ((2 ^ Nat.log2 m : ℕ) : ℚ) ≤ m := by exact_mod_cast Nat.log2_self_le hm
  have hhi : (m : ℚ) < ((2 ^ (Nat.log2 m + 1) : ℕ) : ℚ) := by exact_mod_cast Nat.lt_log2_self
  rw [zpow_topExp, zpow_topExp_succ]
  push_cast at hlo hhi ⊢
  exact ⟨mul_le_mul_of_nonneg_right hlo (by positivity), mul_lt_mul_of_pos_right hhi (by positivity)⟩

theorem le_topExp {m : Nat} (hm : m ≠ 0) {e n : ℤ} : n ≤ topExp m e ↔ (2 : ℚ) ^ n ≤ m * 2 ^ e := by
  obtain ⟨hlo, hhi⟩ := topExp_bounds hm e
  refine ⟨fun h => (zpow_le_zpow_right₀ one_le_two h).trans hlo, fun h => ?_⟩
  exact Int.lt_add_one_iff.1 ((zpow_lt_zpow_iff_right₀ one_lt_two).1 (h.trans_lt hhi))

theorem topExp_lt {m : Nat} (hm : m ≠ 0) {e n : ℤ} : topExp m e < n ↔ (m : ℚ) * 2 ^ e < 2 ^ n := by
  rw [← not_le, le_topExp hm, not_le]

/-- The magnitude that a significand stands for has its top. -/
theorem Reads.bounds {m : Nat} {e : ℤ} {x : ℚ} (hx : Reads m e x) (hm : m ≠ 0) :
    (2 : ℚ) ^ topExp m e ≤ x ∧ x < 2 ^ (topExp m e + 1) := by
  rcases hx with rfl | ⟨hlog, hodd, hlo, hhi⟩
  · exact topExp_bounds hm e
  · have heven : 2 ^ Nat.log2 m % 2 = 0 := Nat.mod_eq_zero_of_dvd (dvd_pow_self 2 (by omega))
    have hle : 2 ^ Nat.log2 m + 1 ≤ m := by have := Nat.log2_self_le hm; omega
    have hlt : m + 1 ≤ 2 ^ (Nat.log2 m + 1) := Nat.lt_log2_self
    have hle' : (2 : ℚ) ^ Nat.log2 m ≤ m - 1 := by
      have : (2 : ℚ) ^ Nat.log2 m + 1 ≤ m := by exact_mod_cast hle
      linarith
    have hlt' : (m : ℚ) + 1 ≤ 2 ^ (Nat.log2 m + 1) := by exact_mod_cast hlt
    rw [zpow_topExp, zpow_topExp_succ]
    exact ⟨(mul_le_mul_of_nonneg_right hle' (by positivity)).trans hlo.le,
      hhi.trans_le (mul_le_mul_of_nonneg_right hlt' (by positivity))⟩

theorem Reads.topExp_unique {m : Nat} {e n : ℤ} {x : ℚ} (hx : Reads m e x) (hm : m ≠ 0) (hlo : (2 : ℚ) ^ n ≤ x)
    (hhi : x < 2 ^ (n + 1)) : n = topExp m e := by
  obtain ⟨hlo', hhi'⟩ := hx.bounds hm
  have h1 := (zpow_lt_zpow_iff_right₀ (one_lt_two (α := ℚ))).1 (hlo.trans_lt hhi')
  have h2 := (zpow_lt_zpow_iff_right₀ (one_lt_two (α := ℚ))).1 (hlo'.trans_lt hhi)
  omega

theorem Reads.ne_zero {m : Nat} {e : ℤ} {x : ℚ} (hx : Reads m e x) (h0 : 0 < x) : m ≠ 0 := by
  rintro rfl
  rcases hx with rfl | ⟨-, hodd, -⟩
  · simp at h0
  · simp at hodd

/-! ### What a rounding at a place answers -/

theorem Machine.Rounds.scale {mode : RMode} {x y u : ℚ} (h : Rounds mode x 1 y) (hu : 0 < u) : Rounds mode (x * u) u (y * u) := by
  obtain ⟨⟨k, hk⟩, hlt, hmode⟩ := h
  have habs : |y * u - x * u| = |y - x| * u := by rw [← sub_mul, abs_mul, abs_of_pos hu]
  refine ⟨⟨k, by rw [hk, mul_one]⟩, by rw [habs]; nlinarith, ?_⟩
  cases mode with
  | rne =>
    dsimp only at hmode ⊢
    rw [habs]
    refine ⟨by nlinarith [hmode.1], fun htie => ?_⟩
    obtain ⟨j, hj⟩ := hmode.2 (mul_right_cancel₀ hu.ne' (by linarith))
    exact ⟨j, by rw [hj]; ring⟩
  | rna =>
    dsimp only at hmode ⊢
    rw [habs, abs_mul, abs_mul]
    refine ⟨by nlinarith [hmode.1], fun htie => ?_⟩
    exact mul_le_mul_of_nonneg_right (hmode.2 (mul_right_cancel₀ hu.ne' (by linarith))) (abs_nonneg u)
  | rtz =>
    dsimp only at hmode ⊢
    rw [abs_mul, abs_mul]
    exact mul_le_mul_of_nonneg_right hmode (abs_nonneg u)
  | rup => exact mul_le_mul_of_nonneg_right hmode hu.le
  | rdn => exact mul_le_mul_of_nonneg_right hmode hu.le
  | rto =>
    intro hne
    obtain ⟨j, hj⟩ := hmode fun h => hne (by rw [h])
    exact ⟨j, by rw [hj]; ring⟩

/-- `r` is the signed magnitude `x` rounded to units of 2^q, and says whether anything was lost. -/
structure RoundsAt (mode : RMode) (neg : Bool) (x : ℚ) (q : ℤ) (r : Nat × Bool) : Prop where
  rounds : Rounds mode (sgn neg * x) (2 ^ q) (sgn neg * (r.1 * 2 ^ q))
  exact_iff : r.2 = false ↔ (r.1 : ℚ) * 2 ^ q = x
  ge : ∀ n : ℕ, (n : ℚ) * 2 ^ q ≤ x → n ≤ r.1
  le : ∀ n : ℕ, x ≤ (n : ℚ) * 2 ^ q → r.1 ≤ n

theorem roundMag_roundsAt {x : ℚ} (hx : 0 ≤ x) (mode : RMode) (neg : Bool) (q : ℤ) :
    RoundsAt mode neg x q (roundMag mode neg (x / 2 ^ q)) := by
  have hq : (0 : ℚ) < 2 ^ q := by positivity
  obtain ⟨hi, f, h0, h1, hv⟩ := exists_parts (div_nonneg hx hq.le)
  have hxv : x = (hi + f) * 2 ^ q := (div_eq_iff hq.ne').1 hv
  rw [hv, roundMag_parts h0 h1]
  refine ⟨?_, ?_, fun n h => ?_, fun n h => ?_⟩
  · rw [hxv, ← mul_assoc, ← mul_assoc]
    exact (roundParts_rounds h0 h1 mode neg).scale hq
  · rw [roundParts_exact h1, hxv, mul_left_inj' hq.ne']
  · exact (roundParts_range h0 h1 mode neg n).1 (le_of_mul_le_mul_right (hxv ▸ h) hq)
  · exact (roundParts_range h0 h1 mode neg n).2 (le_of_mul_le_mul_right (hxv ▸ h) hq)

theorem roundAt_roundsAt {m : Nat} {e : ℤ} {x : ℚ} (hx : Reads m e x) (h0 : 0 ≤ x) {q : ℤ} (hq : topExp m e ≤ q + 255)
    (mode : RMode) (neg : Bool) : RoundsAt mode neg x q (roundAt mode neg m e q) := by
  rw [roundAt_of_reads hx hq]
  exact roundMag_roundsAt h0 mode neg q

/-- Rounded to `p` bits, a significand keeps its top or carries to the next power of two. -/
theorem RoundsAt.full {mode : RMode} {neg : Bool} {x : ℚ} {t q : ℤ} {p : Nat} {r : Nat × Bool} (h : RoundsAt mode neg x q r)
    (hlo : (2 : ℚ) ^ t ≤ x) (hhi : x < 2 ^ (t + 1)) (hq : t = q + p) : 2 ^ p ≤ r.1 ∧ r.1 ≤ 2 ^ (p + 1) := by
  subst hq
  refine ⟨h.ge _ ?_, h.le _ ?_⟩
  · rw [Nat.cast_pow, ← zpow_natCast, Nat.cast_ofNat, ← zpow_add₀ two_ne_zero, add_comm]; exact hlo
  · rw [Nat.cast_pow, ← zpow_natCast, Nat.cast_ofNat, ← zpow_add₀ two_ne_zero]
    refine hhi.le.trans_eq (congrArg _ ?_)
    push_cast; ring

/-! ## Binary interchange formats (04 Table 4.1) -/

/-- The formats whose rounding this file states: an exponent and a fraction, of at most 256 bits with the hidden one. -/
structure Fmt.Proper (f : Fmt) : Prop where
  exp : 2 ≤ f.eb
  frac : 1 ≤ f.fb
  short : f.fb ≤ 255

theorem FpTy.fmt_proper (t : FpTy) : t.fmt.Proper := by cases t <;> exact ⟨by decide, by decide, by decide⟩

theorem Fmt.width_eq (f : Fmt) : f.width = f.eb + f.fb + 1 := by unfold Fmt.width; omega

theorem Fmt.bias_eq {f : Fmt} (hf : f.Proper) : 2 * f.bias + 2 = 2 ^ f.eb := by
  have hpow : 2 ^ f.eb = 2 * 2 ^ (f.eb - 1) := by rw [← pow_succ', Nat.sub_add_cancel (by have := hf.exp; omega)]
  unfold Fmt.bias
  zify at hpow
  rw [hpow]
  simp
  ring

/-- The parts of a pattern given by its fields. -/
theorem Fmt.pattern_fields {a b s ex frac : Nat} (hex : ex < 2 ^ a) (hfrac : frac < 2 ^ b) :
    (s * 2 ^ (a + b) + (ex * 2 ^ b + frac)) % 2 ^ b = frac ∧
    (s * 2 ^ (a + b) + (ex * 2 ^ b + frac)) / 2 ^ b % 2 ^ a = ex ∧
    (s * 2 ^ (a + b) + (ex * 2 ^ b + frac)) / 2 ^ (a + b) = s := by
  have hb : s * 2 ^ (a + b) + (ex * 2 ^ b + frac) = frac + (ex + s * 2 ^ a) * 2 ^ b := by ring
  have hdiv : (frac + (ex + s * 2 ^ a) * 2 ^ b) / 2 ^ b = ex + s * 2 ^ a := by
    rw [Nat.add_mul_div_right _ _ (by positivity), Nat.div_eq_of_lt hfrac, zero_add]
  rw [hb]
  refine ⟨?_, ?_, ?_⟩
  · rw [Nat.add_mul_mod_self_right, Nat.mod_eq_of_lt hfrac]
  · rw [hdiv, Nat.add_mul_mod_self_right, Nat.mod_eq_of_lt hex]
  · rw [add_comm a b, pow_add, ← Nat.div_div_eq_div_mul, hdiv, Nat.add_mul_div_right _ _ (by positivity), Nat.div_eq_of_lt hex,
      zero_add]

/-- The value of a pattern, by its fields. -/
theorem Fmt.unpack_fields {f : Fmt} (neg : Bool) {ex frac : Nat} (hex : ex < f.expOnes) (hfrac : frac < 2 ^ f.fb) :
    f.unpack (f.signBit neg + (ex * 2 ^ f.fb + frac)) =
      if ex = 0 then .fin neg frac (f.emin - f.fb) else .fin neg (2 ^ f.fb + frac) (ex - f.bias - f.fb) := by
  have hsign : f.signBit neg = (if neg then 1 else 0) * 2 ^ (f.eb + f.fb) := by cases neg <;> simp [Fmt.signBit]
  have hex' : ex < 2 ^ f.eb := by unfold Fmt.expOnes at hex; omega
  obtain ⟨h1, h2, h3⟩ := Fmt.pattern_fields (s := if neg then 1 else 0) hex' hfrac
  rw [hsign, Fmt.unpack, h1, h2, h3]
  simp only [hex.ne, if_false]
  cases neg <;> rfl

theorem Fmt.fields_lt {f : Fmt} (neg : Bool) {body : Nat} (h : body < 2 ^ (f.eb + f.fb)) :
    f.signBit neg + body < 2 ^ f.width := by
  rw [Fmt.width_eq, pow_succ]
  unfold Fmt.signBit
  split <;> omega

/-- The fields that a rounded significand in range is packed into. -/
theorem Fmt.pack_fields {f : Fmt} (hf : f.Proper) (neg : Bool) {n : Nat} {q : ℤ} (hq : f.emin - f.fb ≤ q)
    (hsub : n < 2 ^ f.fb → q = f.emin - f.fb) (hn : n ≤ 2 ^ (f.fb + 1)) (hmax : (n : ℚ) * 2 ^ q < 2 ^ (f.bias + 1)) :
    ∃ ex frac : Nat, f.pack neg n q = f.signBit neg + (ex * 2 ^ f.fb + frac) ∧ ex < f.expOnes ∧ frac < 2 ^ f.fb ∧
      if ex = 0 then n = frac ∧ q = f.emin - f.fb
      else (2 ^ f.fb + frac : ℚ) * 2 ^ ((ex : ℤ) - f.bias - f.fb) = n * 2 ^ q := by
  have hbias := Fmt.bias_eq hf
  have hones : (f.expOnes : ℤ) = 2 ^ f.eb - 1 := by unfold Fmt.expOnes; push_cast [Nat.one_le_two_pow]; rfl
  have hemin : f.emin = 1 - f.bias := rfl
  -- a power of two at or below the significand is in range
  have hrange : ∀ j : Nat, 2 ^ j ≤ n → (j : ℤ) + q ≤ f.bias := fun j hj => by
    have hle : (2 : ℚ) ^ ((j : ℤ) + q) ≤ n * 2 ^ q := by
      rw [zpow_add₀ two_ne_zero, zpow_natCast]
      exact mul_le_mul_of_nonneg_right (by exact_mod_cast hj) (by positivity)
    exact Int.lt_add_one_iff.1 ((zpow_lt_zpow_iff_right₀ one_lt_two).1 (hle.trans_lt hmax))
  have hpow : 2 ^ (f.fb + 1) = 2 * 2 ^ f.fb := pow_succ' ..
  rcases lt_or_ge n (2 ^ f.fb) with hlt | hge
  · exact ⟨0, n, by simp [Fmt.pack, hlt], by
      have := Nat.pow_le_pow_right (n := 2) (by omega) hf.exp; unfold Fmt.expOnes; omega, hlt, by simp [hsub hlt]⟩
  · obtain ⟨d, rfl⟩ : ∃ d : Nat, q = f.emin - f.fb + d := ⟨(q - (f.emin - f.fb)).toNat, by omega⟩
    have hpack : f.pack neg n (f.emin - f.fb + d) = f.signBit neg + (d * 2 ^ f.fb + n) := by
      simp [Fmt.pack, not_lt.2 hge]
    rcases lt_or_eq_of_le hn with hlt | rfl
    · have := hrange f.fb hge
      refine ⟨d + 1, n - 2 ^ f.fb, ?_, by omega, by omega, ?_⟩
      · rw [hpack, add_mul, one_mul]; omega
      · rw [if_neg (by omega), Nat.cast_sub hge]
        push_cast
        rw [add_sub_cancel, hemin]
        congr 2; ring
    · have := hrange (f.fb + 1) le_rfl
      refine ⟨d + 2, 0, ?_, by push_cast at this; omega, by positivity, ?_⟩
      · rw [hpack, add_mul]; omega
      · rw [if_neg (by omega), hemin, show ((d + 2 : ℕ) : ℤ) - f.bias - f.fb = 1 - f.bias - f.fb + d + 1 by push_cast; ring,
          zpow_add_one₀ two_ne_zero]
        push_cast
        ring

/-- The bits of a rounded significand that is in range: a pattern of the format that holds its value. -/
theorem Fmt.pack_spec {f : Fmt} (hf : f.Proper) (neg : Bool) {n : Nat} {q : ℤ} (hq : f.emin - f.fb ≤ q)
    (hsub : n < 2 ^ f.fb → q = f.emin - f.fb) (hn : n ≤ 2 ^ (f.fb + 1)) (hmax : (n : ℚ) * 2 ^ q < 2 ^ (f.bias + 1)) :
    f.pack neg n q < 2 ^ f.width ∧ ∃ m k, f.unpack (f.pack neg n q) = .fin neg m k ∧ (m : ℚ) * 2 ^ k = n * 2 ^ q := by
  obtain ⟨ex, frac, hpack, hex, hfrac, hval⟩ := Fmt.pack_fields hf neg hq hsub hn hmax
  rw [hpack]
  refine ⟨Fmt.fields_lt neg ?_, ?_⟩
  · calc ex * 2 ^ f.fb + frac < (ex + 1) * 2 ^ f.fb := by rw [add_mul, one_mul]; omega
      _ ≤ 2 ^ f.eb * 2 ^ f.fb := Nat.mul_le_mul_right _ (by unfold Fmt.expOnes at hex; omega)
      _ = _ := (pow_add ..).symm
  · rw [Fmt.unpack_fields neg hex hfrac]
    split
    · next h0 =>
      rw [if_pos h0] at hval
      exact ⟨_, _, rfl, by rw [hval.1, hval.2]⟩
    · next h0 =>
      rw [if_neg h0] at hval
      exact ⟨_, _, rfl, by exact_mod_cast hval⟩

/-! ## Rounding into a format (02 R54, 04 R110, R111) -/

/-- Whether a result past the largest finite value becomes an infinity. -/
def overInf (mode : RMode) (neg : Bool) : Bool :=
  match mode with
  | .rne | .rna => true
  | .rtz | .rto => false
  | .rup => !neg
  | .rdn => neg

/-- The unit of the last place of a full significand of the format, and the unit that the subnormals leave of it. -/
def Fmt.fullUnit (f : Fmt) (m : Nat) (e : ℤ) : ℤ := topExp m e - f.fb
def Fmt.unit (f : Fmt) (m : Nat) (e : ℤ) : ℤ := max (topExp m e) f.emin - f.fb

theorem fround_over {f : Fmt} {mode : RMode} {neg : Bool} {m : Nat} {e : ℤ} (hm : m ≠ 0)
    (h : f.bias < topExp (roundAt mode neg m e (f.fullUnit m e)).1 (f.fullUnit m e)) (ftz : Bool) :
    fround f mode ftz neg m e = (if overInf mode neg then f.infBits neg else f.maxBits neg, xOF ||| xNX) := by
  have hq : topExp m e - (Int.ofNat (f.fb + 1) - 1) = f.fullUnit m e := by unfold Fmt.fullUnit; simp
  simp only [fround, roundTo, if_neg hm, hq, if_pos h]
  rfl

theorem fround_within {f : Fmt} {mode : RMode} {neg : Bool} {m : Nat} {e : ℤ} (hm : m ≠ 0)
    (h : ¬f.bias < topExp (roundAt mode neg m e (f.fullUnit m e)).1 (f.fullUnit m e)) (ftz : Bool) :
    let r := roundAt mode neg m e (f.unit m e)
    let bits := f.pack neg r.1 (f.unit m e)
    let tiny := decide (topExp (roundAt mode neg m e (f.fullUnit m e)).1 (f.fullUnit m e) < f.emin)
    fround f mode ftz neg m e = if ftz && f.isSub bits then (f.signBit neg, xUF ||| xNX)
      else (bits, (if r.2 then xNX else 0) ||| if tiny && r.2 then xUF else 0) := by
  have hq : topExp m e - (Int.ofNat (f.fb + 1) - 1) = f.fullUnit m e := by unfold Fmt.fullUnit; simp
  have hunit : max (topExp m e - Int.ofNat f.fb) (f.emin - Int.ofNat f.fb) = f.unit m e := max_sub_sub_right ..
  simp only [fround, roundTo, if_neg hm, hq, if_neg h, hunit]

theorem Fmt.infBits_lt {f : Fmt} (neg : Bool) : f.infBits neg < 2 ^ f.width := by
  refine Fmt.fields_lt neg ?_
  rw [pow_add]
  exact Nat.mul_lt_mul_of_pos_right (Nat.sub_lt (by positivity) one_pos) (by positivity)

theorem Fmt.maxBits_lt {f : Fmt} (neg : Bool) : f.maxBits neg < 2 ^ f.width :=
  (Nat.sub_le ..).trans_lt (Fmt.infBits_lt neg)

theorem decide_sgn_mul_neg {neg : Bool} {x : ℚ} (h0 : 0 < x) : decide (sgn neg * x < 0) = neg := by
  cases neg
  · simpa [sgn] using h0.le
  · simpa [sgn] using h0

theorem decide_sgn_mul_pos {neg : Bool} {x : ℚ} (h0 : 0 < x) : decide (0 < sgn neg * x) = !neg := by
  cases neg
  · simpa [sgn] using h0
  · simpa [sgn] using h0.le

theorem sgn_mul_inj {neg : Bool} {x y : ℚ} : sgn neg * x = sgn neg * y ↔ x = y := by
  cases neg <;> simp [sgn]

section
variable {f : Fmt} (hf : f.Proper) {mode : RMode} {neg : Bool} {m : Nat} {e : ℤ} {x : ℚ} (hx : Reads m e x) (h0 : 0 < x)
include hf hx h0

/-- The rounding to full significands. -/
theorem full_roundsAt (mode : RMode) (neg : Bool) :
    RoundsAt mode neg x (f.fullUnit m e) (roundAt mode neg m e (f.fullUnit m e)) :=
  roundAt_roundsAt hx h0.le (by have := hf.short; unfold Fmt.fullUnit; omega) mode neg

theorem full_bounds : 2 ^ f.fb ≤ (roundAt mode neg m e (f.fullUnit m e)).1 ∧
    (roundAt mode neg m e (f.fullUnit m e)).1 ≤ 2 ^ (f.fb + 1) := by
  obtain ⟨hlo, hhi⟩ := hx.bounds (hx.ne_zero h0)
  exact (full_roundsAt hf hx h0 mode neg).full hlo hhi (by unfold Fmt.fullUnit; ring)

/-- The rounding to the places that the format has. -/
theorem unit_roundsAt (mode : RMode) (neg : Bool) :
    RoundsAt mode neg x (f.unit m e) (roundAt mode neg m e (f.unit m e)) :=
  roundAt_roundsAt hx h0.le (by have := hf.short; unfold Fmt.unit; omega) mode neg

/-- A result in range packs. -/
theorem pack_unit (h : ((roundAt mode neg m e (f.fullUnit m e)).1 : ℚ) * 2 ^ f.fullUnit m e < 2 ^ (f.bias + 1)) :
    f.pack neg (roundAt mode neg m e (f.unit m e)).1 (f.unit m e) < 2 ^ f.width ∧
    ∃ n k, f.unpack (f.pack neg (roundAt mode neg m e (f.unit m e)).1 (f.unit m e)) = .fin neg n k ∧
      (n : ℚ) * 2 ^ k = (roundAt mode neg m e (f.unit m e)).1 * 2 ^ f.unit m e := by
  obtain ⟨hlo, hhi⟩ := full_bounds hf hx h0 (mode := mode) (neg := neg)
  rcases le_or_gt f.emin (topExp m e) with htop | htop
  · have hunit : f.unit m e = f.fullUnit m e := by unfold Fmt.unit Fmt.fullUnit; rw [max_eq_left htop]
    rw [hunit]
    exact Fmt.pack_spec hf neg (by unfold Fmt.fullUnit; omega) (fun hlt => absurd hlt (not_lt.2 hlo)) hhi h
  · have hunit : f.unit m e = f.emin - f.fb := by unfold Fmt.unit; rw [max_eq_right htop.le]
    -- below the least normal value the rounding reaches it at most
    have hle : (roundAt mode neg m e (f.unit m e)).1 ≤ 2 ^ f.fb := by
      refine (unit_roundsAt hf hx h0 mode neg).le _ ?_
      rw [hunit, Nat.cast_pow, ← zpow_natCast, Nat.cast_ofNat, ← zpow_add₀ two_ne_zero, add_sub_cancel]
      exact (hx.bounds (hx.ne_zero h0)).2.le.trans (zpow_le_zpow_right₀ one_le_two (by omega))
    refine Fmt.pack_spec hf neg hunit.ge (fun _ => hunit) (hle.trans (Nat.pow_le_pow_right (by omega) (by omega))) ?_
    have hbias : f.emin < f.bias + 1 := by
      have := Fmt.bias_eq hf
      have : (2 : ℤ) ^ 2 ≤ 2 ^ f.eb := pow_le_pow_right₀ (by omega) hf.exp
      unfold Fmt.emin; omega
    calc ((roundAt mode neg m e (f.unit m e)).1 : ℚ) * 2 ^ f.unit m e
        ≤ 2 ^ f.fb * 2 ^ f.unit m e := mul_le_mul_of_nonneg_right (by exact_mod_cast hle) (by positivity)
      _ = 2 ^ f.emin := by rw [hunit, ← zpow_natCast, ← zpow_add₀ two_ne_zero, add_sub_cancel]
      _ < 2 ^ (f.bias + 1) := zpow_lt_zpow_right₀ one_lt_two hbias

/-- The model's rounding of what a significand stands for is the rounding that 04 R110 and R111 ask for. -/
theorem fround_roundedOnce : (fround f mode false neg m e).1 < 2 ^ f.width ∧
    RoundedOnce f mode (sgn neg * x) (fround f mode false neg m e).1 (fround f mode false neg m e).2 := by
  have hm := hx.ne_zero h0
  have hfull := full_roundsAt hf hx h0 mode neg
  have hunit := unit_roundsAt hf hx h0 mode neg
  have hne : (roundAt mode neg m e (f.fullUnit m e)).1 ≠ 0 := by
    have := (full_bounds hf hx h0 (mode := mode) (neg := neg)).1
    have := Nat.one_le_two_pow (n := f.fb); omega
  by_cases hover : f.bias < topExp (roundAt mode neg m e (f.fullUnit m e)).1 (f.fullUnit m e)
  · have hbig := (le_topExp hne).1 (Int.add_one_le_iff.2 hover)
    rw [fround_over hm hover]
    refine ⟨by dsimp only; split <;> [exact Fmt.infBits_lt neg; exact Fmt.maxBits_lt neg], fun n hlo hhi => ?_⟩
    rw [abs_sgn_mul, abs_of_pos h0] at hlo hhi
    obtain rfl := hx.topExp_unique hm hlo hhi
    refine ⟨_, _, hunit.rounds, hfull.rounds, fun hin => ?_, fun _ => ⟨rfl, ?_⟩⟩
    · rw [abs_sgn_mul, abs_of_nonneg (by positivity)] at hin
      exact absurd hbig (not_le.2 hin)
    · rw [decide_sgn_mul_neg h0, decide_sgn_mul_pos h0]
      rfl
  · have hsmall := (topExp_lt hne).1 (Int.lt_add_one_iff.2 (not_lt.1 hover))
    obtain ⟨hlt, n', k, hunpack, hval⟩ := pack_unit hf hx h0 hsmall
    rw [fround_within hm hover]
    refine ⟨hlt, fun n hlo hhi => ?_⟩
    rw [abs_sgn_mul, abs_of_pos h0] at hlo hhi
    obtain rfl := hx.topExp_unique hm hlo hhi
    refine ⟨_, _, hunit.rounds, hfull.rounds, fun _ => ⟨⟨n', k, ?_⟩, ?_, ?_⟩, fun hbig => ?_⟩
    · rw [decide_sgn_mul_neg h0]; exact hunpack
    · exact (congrArg Fp.value hunpack).trans (by rw [Fp.value_fin, hval])
    · have habs : |sgn neg * ((roundAt mode neg m e (f.fullUnit m e)).1 * 2 ^ f.fullUnit m e)| =
          (roundAt mode neg m e (f.fullUnit m e)).1 * 2 ^ f.fullUnit m e := by
        rw [abs_sgn_mul, abs_of_nonneg (by positivity)]
      simp only [sgn_mul_inj, ← hunit.exact_iff, habs, ← topExp_lt hne]
      cases (roundAt mode neg m e (f.unit m e)).2 with
      | false => simp
      | true =>
        simp only [Bool.false_and, Bool.false_eq_true, Bool.true_eq_false, if_true, if_false, Bool.and_true, decide_eq_true_eq]
        split <;> rfl
    · rw [abs_sgn_mul, abs_of_nonneg (by positivity)] at hbig
      exact absurd hbig (not_le.2 hsmall)
end

theorem Fmt.signBit_lt {f : Fmt} (neg : Bool) : f.signBit neg < 2 ^ f.width := Fmt.fields_lt neg (by positivity)

theorem Fmt.qnan_lt {f : Fmt} (hf : f.Proper) : f.qnan < 2 ^ f.width := by
  have hpow : 2 ^ (f.fb - 1) < 2 ^ f.fb := Nat.pow_lt_pow_right (by omega) (by have := hf.frac; omega)
  have hbody : f.qnan < 2 ^ (f.eb + f.fb) := calc
    f.expOnes * 2 ^ f.fb + 2 ^ (f.fb - 1) < (f.expOnes + 1) * 2 ^ f.fb := by rw [add_mul, one_mul]; omega
    _ = 2 ^ f.eb * 2 ^ f.fb := by unfold Fmt.expOnes; rw [Nat.sub_add_cancel Nat.one_le_two_pow]
    _ = _ := (pow_add ..).symm
  exact hbody.trans (Nat.pow_lt_pow_right (by omega) (by rw [Fmt.width_eq]; omega))

/-- Every rounding into a format is a pattern of the format … -/
theorem fround_lt {f : Fmt} (hf : f.Proper) (mode : RMode) (ftz neg : Bool) (m : Nat) (e : ℤ) :
    (fround f mode ftz neg m e).1 < 2 ^ f.width := by
  by_cases hm : m = 0
  · simpa [fround, hm] using Fmt.signBit_lt neg
  · have h0 : (0 : ℚ) < m * 2 ^ e := by positivity
    by_cases hover : f.bias < topExp (roundAt mode neg m e (f.fullUnit m e)).1 (f.fullUnit m e)
    · rw [fround_over hm hover]
      dsimp only
      split
      · exact Fmt.infBits_lt neg
      · exact Fmt.maxBits_lt neg
    · have hlo := (full_bounds hf (.inl rfl) h0 (mode := mode) (neg := neg)).1
      have hne : (roundAt mode neg m e (f.fullUnit m e)).1 ≠ 0 := by have := Nat.one_le_two_pow (n := f.fb); omega
      have hpack := (pack_unit hf (.inl rfl) h0 ((topExp_lt hne).1 (Int.lt_add_one_iff.2 (not_lt.1 hover)))).1
      rw [fround_within hm hover]
      split
      · exact Fmt.signBit_lt neg
      · exact hpack

/-- … and so is everything delivered in it. -/
theorem deliver_lt {f : Fmt} (hf : f.Proper) (mode : RMode) (ftz : Bool) (v : Fp × W32) :
    (deliver f mode ftz v).1 < 2 ^ f.width := by
  obtain ⟨v, exc⟩ := v
  cases v with
  | nan => exact Fmt.qnan_lt hf
  | inf n => exact Fmt.infBits_lt n
  | fin n m e => exact fround_lt hf mode ftz n m e

/-! ## Exact results (04 R121, 05 R152) -/

/-- A number that every rounding of 256 bits or fewer reads as it would read `x`. -/
def Fp.Stands (v : Fp) (x : ℚ) : Prop := ∃ n m e y, v = .fin n m e ∧ 0 < y ∧ x = sgn n * y ∧ Reads m e y

/-- What an operation answers for the exact result `x`: a number that stands for it, and no exception. -/
def Exactly (r : Fp × W32) (x : ℚ) : Prop := ∃ v, r = (v, 0) ∧ v.Stands x

theorem Fp.stands_value {n : Bool} {m : Nat} {e : ℤ} (hm : m ≠ 0) : (Fp.fin n m e).Stands (sgn n * (m * 2 ^ e)) :=
  ⟨n, m, e, _, rfl, by positivity, rfl, .inl rfl⟩

theorem deliver_roundedOnce {f : Fmt} (hf : f.Proper) {r : Fp × W32} {x : ℚ} (h : Exactly r x) (mode : RMode) :
    RoundedOnce f mode x (deliver f mode false r).1 (deliver f mode false r).2 := by
  obtain ⟨v, rfl, n, m, e, y, rfl, h0, rfl, hy⟩ := h
  simpa [deliver] using (fround_roundedOnce hf hy h0 (mode := mode) (neg := n)).2

theorem deliver_zero (f : Fmt) (mode : RMode) (ftz n : Bool) (e : ℤ) :
    deliver f mode ftz (.fin n 0 e, 0) = (f.signBit n, 0) := by simp [deliver, fround]

/-! ### Sums -/

/-- The sum of two numbers with significands `a` and `b` of one exponent. -/
def sumOf (n1 : Bool) (a : Nat) (n2 : Bool) (b : Nat) (e : ℤ) : Bool × Nat × ℤ :=
  if n1 == n2 then (n1, a + b, e) else if b ≤ a then (n1, a - b, e) else (n2, b - a, e)

theorem dyAdd_far {n1 n2 : Bool} {m1 m2 : Nat} {e1 e2 : ℤ} (h1 : m1 ≠ 0) (h2 : m2 ≠ 0) (h : 4000 < topExp m1 e1 - topExp m2 e2) :
    dyAdd n1 m1 e1 n2 m2 e2 = (n1, if n1 == n2 then shl m1 2701 + 1 else shl m1 2701 - 1, e1 - 2701) := by
  simp [dyAdd, h1, h2, h]

theorem dyAdd_far_swap {n1 n2 : Bool} {m1 m2 : Nat} {e1 e2 : ℤ} (h1 : m1 ≠ 0) (h2 : m2 ≠ 0)
    (h : 4000 < topExp m2 e2 - topExp m1 e1) : dyAdd n1 m1 e1 n2 m2 e2 = dyAdd n2 m2 e2 n1 m1 e1 := by
  rw [dyAdd_far h2 h1 h]
  simp [dyAdd, h1, h2, h, show ¬4000 < topExp m1 e1 - topExp m2 e2 by omega]

theorem dyAdd_near {n1 n2 : Bool} {m1 m2 : Nat} {e1 e2 : ℤ} (h1 : m1 ≠ 0) (h2 : m2 ≠ 0)
    (h : ¬4000 < topExp m1 e1 - topExp m2 e2) (h' : ¬4000 < topExp m2 e2 - topExp m1 e1) :
    dyAdd n1 m1 e1 n2 m2 e2 =
      sumOf n1 (shl m1 (e1 - min e1 e2).toNat) n2 (shl m2 (e2 - min e1 e2).toNat) (min e1 e2) := by
  simp [dyAdd, h1, h2, h, h', sumOf]

theorem sumOf_value (n1 : Bool) (a : Nat) (n2 : Bool) (b : Nat) (e : ℤ) :
    (Fp.fin (sumOf n1 a n2 b e).1 (sumOf n1 a n2 b e).2.1 (sumOf n1 a n2 b e).2.2).value =
      sgn n1 * (a * 2 ^ e) + sgn n2 * (b * 2 ^ e) := by
  have hopposite : n1 ≠ n2 → sgn n2 = -sgn n1 := by cases n1 <;> cases n2 <;> simp [sgn]
  unfold sumOf
  split
  · next h => rw [Fp.value_fin, ← eq_of_beq h]; push_cast; ring
  · next h =>
    rw [hopposite (by simpa using h)]
    split
    · next hle => rw [Fp.value_fin, Nat.cast_sub hle]; ring
    · next hle => rw [Fp.value_fin, hopposite (by simpa using h), Nat.cast_sub (by omega)]; ring

theorem sgn_ne_zero (n : Bool) : sgn n ≠ 0 := by cases n <;> simp [sgn]

/-- What a sum's number is to the exact sum. -/
def SumsTo (r : Bool × Nat × ℤ) (x : ℚ) : Prop := (x ≠ 0 → (Fp.fin r.1 r.2.1 r.2.2).Stands x) ∧ (x = 0 → r.2.1 = 0)

theorem sumsTo_of_value {r : Bool × Nat × ℤ} {x : ℚ} (h : (Fp.fin r.1 r.2.1 r.2.2).value = x) : SumsTo r x := by
  rw [Fp.value_fin] at h
  subst h
  refine ⟨fun hne => Fp.stands_value fun h0 => hne (by simp [h0]), fun h0 => ?_⟩
  simpa [sgn_ne_zero, zpow_ne_zero] using h0

theorem shl_min (m : Nat) {e e0 : ℤ} (h : e0 ≤ e) : (shl m (e - e0).toNat : ℚ) * 2 ^ e0 = m * 2 ^ e := by
  obtain ⟨k, rfl⟩ : ∃ k : Nat, e = e0 + k := ⟨(e - e0).toNat, by omega⟩
  rw [add_sub_cancel_left, Int.toNat_natCast, zpow_add₀ two_ne_zero, zpow_natCast, shl]
  push_cast
  ring

theorem shl_pos {m : Nat} (hm : m ≠ 0) (k : Nat) : 1 ≤ shl m k := Nat.mul_pos (Nat.pos_of_ne_zero hm) (Nat.two_pow_pos k)

theorem shl_neighbours {m k i : Nat} (hm : m ≠ 0) (hk : i < k) :
    shl m k % 2 = 0 ∧ i ≤ Nat.log2 (shl m k + 1) ∧ i ≤ Nat.log2 (shl m k - 1) := by
  obtain ⟨j, rfl⟩ : ∃ j, k = j + 1 := ⟨k - 1, by omega⟩
  have hshl : shl m (j + 1) = 2 * shl m j := by rw [shl, pow_succ', mul_left_comm, shl]
  have hle : 2 ^ i ≤ shl m j :=
    (Nat.pow_le_pow_right (by omega) (by omega)).trans (Nat.le_mul_of_pos_left _ (Nat.pos_of_ne_zero hm))
  have hpos := shl_pos hm j
  rw [hshl]
  exact ⟨by omega, (Nat.le_log2 (by omega)).2 (by omega), (Nat.le_log2 (by omega)).2 (by omega)⟩

/-- A magnitude below one unit beside a significand that goes far above it: a last bit of 1 stands for it. -/
theorem reads_sticky {m k : Nat} {e : ℤ} {y : ℚ} (hm : m ≠ 0) (hk : 258 < k) (h0 : 0 < y) (hy : y < 2 ^ e) (same : Bool) :
    Reads (if same then shl m k + 1 else shl m k - 1) e (shl m k * 2 ^ e + (if same then y else -y)) := by
  obtain ⟨heven, hlog, hlog'⟩ := shl_neighbours hm hk
  have hone := shl_pos hm k
  cases same with
  | true =>
    simp only [if_true]
    exact .inr ⟨hlog, by omega, by push_cast; linarith, by push_cast; linarith⟩
  | false =>
    have hcast : ((shl m k - 1 : ℕ) : ℚ) = shl m k - 1 := by rw [Nat.cast_sub hone, Nat.cast_one]
    simp only [Bool.false_eq_true, if_false]
    exact .inr ⟨hlog', by omega, by rw [hcast]; linarith, by rw [hcast]; linarith⟩

theorem dyAdd_far_sumsTo {n1 n2 : Bool} {m1 m2 : Nat} {e1 e2 : ℤ} (h1 : m1 ≠ 0) (h2 : m2 ≠ 0) (hlog : Nat.log2 m1 < 512)
    (h : 4000 < topExp m1 e1 - topExp m2 e2) :
    SumsTo (dyAdd n1 m1 e1 n2 m2 e2) (sgn n1 * (m1 * 2 ^ e1) + sgn n2 * (m2 * 2 ^ e2)) := by
  have hy : (m2 : ℚ) * 2 ^ e2 < 2 ^ (e1 - 2701) :=
    (topExp_bounds h2 e2).2.trans_le (zpow_le_zpow_right₀ one_le_two (by rw [topExp_eq m1] at h; omega))
  have hread := reads_sticky h1 (show 258 < 2701 by omega) (show (0 : ℚ) < m2 * 2 ^ e2 by positivity) hy (n1 == n2)
  have hbig : (shl m1 2701 : ℚ) * 2 ^ (e1 - 2701) = m1 * 2 ^ e1 := by
    have := shl_min m1 (show e1 - 2701 ≤ e1 by omega)
    rwa [sub_sub_cancel] at this
  have hone := shl_pos h1 2701
  rw [dyAdd_far h1 h2 h, ← hbig]
  generalize shl m1 2701 = big at hread hone ⊢
  have hpos : (0 : ℚ) < big * 2 ^ (e1 - 2701) + if n1 == n2 then (m2 : ℚ) * 2 ^ e2 else -(m2 * 2 ^ e2) := by
    have hle : (2 : ℚ) ^ (e1 - 2701) ≤ big * 2 ^ (e1 - 2701) :=
      le_mul_of_one_le_left (by positivity) (Nat.one_le_cast.2 hone)
    split
    · positivity
    · linarith
  have hsum : sgn n1 * (big * 2 ^ (e1 - 2701)) + sgn n2 * (m2 * 2 ^ e2) =
      sgn n1 * (big * 2 ^ (e1 - 2701) + if n1 == n2 then (m2 : ℚ) * 2 ^ e2 else -(m2 * 2 ^ e2)) := by
    cases n1 <;> cases n2 <;> simp [sgn] <;> ring
  rw [hsum]
  exact ⟨fun _ => ⟨_, _, _, _, rfl, hpos, rfl, hread⟩, fun hzero => absurd hzero (mul_ne_zero (sgn_ne_zero n1) hpos.ne')⟩

/-- The model's sum of two numbers of at most 512 bits stands for the exact sum. -/
theorem dyAdd_sumsTo (n1 n2 : Bool) {m1 m2 : Nat} (e1 e2 : ℤ) (hlog1 : Nat.log2 m1 < 512) (hlog2 : Nat.log2 m2 < 512) :
    SumsTo (dyAdd n1 m1 e1 n2 m2 e2) (sgn n1 * (m1 * 2 ^ e1) + sgn n2 * (m2 * 2 ^ e2)) := by
  by_cases h1 : m1 = 0
  · exact sumsTo_of_value (by simp [dyAdd, h1, Fp.value_fin])
  by_cases h2 : m2 = 0
  · exact sumsTo_of_value (by simp [dyAdd, h1, h2, Fp.value_fin])
  by_cases hfar : 4000 < topExp m1 e1 - topExp m2 e2
  · exact dyAdd_far_sumsTo h1 h2 hlog1 hfar
  by_cases hfar' : 4000 < topExp m2 e2 - topExp m1 e1
  · rw [dyAdd_far_swap h1 h2 hfar', add_comm]
    exact dyAdd_far_sumsTo h2 h1 hlog2 hfar'
  · refine sumsTo_of_value ?_
    rw [dyAdd_near h1 h2 hfar hfar', sumOf_value, shl_min m1 (min_le_left ..), shl_min m2 (min_le_right ..)]

/-! ### The operations on numbers -/

theorem Fp.exists_fin {a : Fp} (h : a.finite) : ∃ n m e, a = .fin n m e := by
  obtain ⟨hnan, hinf⟩ := h
  cases a with
  | nan => simp [Fp.isNan] at hnan
  | inf => simp [Fp.isInf] at hinf
  | fin n m e => exact ⟨n, m, e, rfl⟩

/-- The sign that an exact zero sum takes. -/
def zeroSign (mode : RMode) (n1 n2 : Bool) : Bool := if n1 = n2 then n1 else mode == .rdn

section
variable {n1 n2 n3 : Bool} {m1 m2 m3 : Nat} {e1 e2 e3 : ℤ}

theorem Fp.add_fin (mode : RMode) : Fp.add mode (.fin n1 m1 e1) (.fin n2 m2 e2) = (addExact mode n1 m1 e1 n2 m2 e2, 0) := rfl

theorem Fp.mul_fin : Fp.mul (.fin n1 m1 e1) (.fin n2 m2 e2) = (.fin (n1 != n2) (m1 * m2) (e1 + e2), 0) := by
  simp [Fp.mul, Fp.isNan, Fp.isInf, Fp.sign]

theorem Fp.fma_fin (mode : RMode) : Fp.fma mode (.fin n1 m1 e1) (.fin n2 m2 e2) (.fin n3 m3 e3) =
    Fp.add mode (.fin (n1 != n2) (m1 * m2) (e1 + e2)) (.fin n3 m3 e3) := by
  simp [Fp.fma, Fp.mul_fin, Fp.isNan]

theorem Fp.value_neg : (Fp.fin (!n1) m1 e1).value = -(Fp.fin n1 m1 e1).value := by
  rw [Fp.value_fin, Fp.value_fin]; cases n1 <;> simp [sgn]

theorem Fp.value_mul : (Fp.fin (n1 != n2) (m1 * m2) (e1 + e2)).value = (Fp.fin n1 m1 e1).value * (Fp.fin n2 m2 e2).value := by
  rw [Fp.value_fin, Fp.value_fin, Fp.value_fin, zpow_add₀ two_ne_zero]
  push_cast
  cases n1 <;> cases n2 <;> simp [sgn] <;> ring

theorem Fp.value_eq_zero : (Fp.fin n1 m1 e1).value = 0 ↔ m1 = 0 := by
  rw [Fp.value_fin]; simp [sgn_ne_zero, zpow_ne_zero]

theorem Fp.add_exactly (mode : RMode) (hlog1 : Nat.log2 m1 < 512) (hlog2 : Nat.log2 m2 < 512)
    (h : (Fp.fin n1 m1 e1).value + (Fp.fin n2 m2 e2).value ≠ 0) :
    Exactly (Fp.add mode (.fin n1 m1 e1) (.fin n2 m2 e2)) ((Fp.fin n1 m1 e1).value + (Fp.fin n2 m2 e2).value) := by
  have hboth : ¬(m1 = 0 ∧ m2 = 0) := fun ⟨h1, h2⟩ => h (by rw [Fp.value_eq_zero.2 h1, Fp.value_eq_zero.2 h2, add_zero])
  rw [Fp.value_fin, Fp.value_fin] at h ⊢
  have hsum := (dyAdd_sumsTo n1 n2 e1 e2 hlog1 hlog2).1 h
  have hne : (dyAdd n1 m1 e1 n2 m2 e2).2.1 ≠ 0 := by
    obtain ⟨n, m, e, y, heq, h0, -, hread⟩ := hsum
    rw [(Fp.fin.inj heq).2.1]
    exact hread.ne_zero h0
  refine ⟨_, ?_, hsum⟩
  rw [Fp.add_fin, addExact, if_neg (by simpa using hboth)]
  simp only [hne, if_false]

theorem Fp.add_zero_sum (mode : RMode) (hlog1 : Nat.log2 m1 < 512) (hlog2 : Nat.log2 m2 < 512)
    (h : (Fp.fin n1 m1 e1).value + (Fp.fin n2 m2 e2).value = 0) :
    Fp.add mode (.fin n1 m1 e1) (.fin n2 m2 e2) = (.fin (zeroSign mode n1 n2) 0 0, 0) := by
  rw [Fp.add_fin, addExact]
  split
  · cases n1 <;> cases n2 <;> rfl
  · next hboth =>
    -- numbers other than 0 with a zero sum have opposite signs
    have hsign : n1 ≠ n2 := by
      rintro rfl
      rw [Fp.value_fin, Fp.value_fin, ← mul_add, mul_eq_zero, or_iff_right (sgn_ne_zero n1),
        add_eq_zero_iff_of_nonneg (by positivity) (by positivity)] at h
      have hm1 : m1 = 0 := by simpa [zpow_ne_zero] using h.1
      have hm2 : m2 = 0 := by simpa [zpow_ne_zero] using h.2
      simp [hm1, hm2] at hboth
    rw [Fp.value_fin, Fp.value_fin] at h
    simp only [(dyAdd_sumsTo n1 n2 e1 e2 hlog1 hlog2).2 h, if_true, zeroSign, hsign, if_false]

theorem Fp.mul_exactly (h : (Fp.fin n1 m1 e1).value * (Fp.fin n2 m2 e2).value ≠ 0) :
    Exactly (Fp.mul (.fin n1 m1 e1) (.fin n2 m2 e2)) ((Fp.fin n1 m1 e1).value * (Fp.fin n2 m2 e2).value) := by
  rw [← Fp.value_mul] at h ⊢
  refine ⟨_, Fp.mul_fin, ?_⟩
  rw [Fp.value_fin]
  exact Fp.stands_value fun h0 => h (Fp.value_eq_zero.2 h0)

theorem Fp.div_fin (h1 : m1 ≠ 0) (h2 : m2 ≠ 0) : Fp.div (.fin n1 m1 e1) (.fin n2 m2 e2) =
    (.fin (n1 != n2) (dyDiv m1 e1 m2 e2).1 (dyDiv m1 e1 m2 e2).2, 0) := by
  simp [Fp.div, Fp.isNan, Fp.isInf, Fp.isZero, Fp.sign, h1, h2]

theorem le_log2_quotient {k i : Nat} (h1 : m1 ≠ 0) (h2 : m2 ≠ 0) (h : Nat.log2 m2 + i < k) :
    i ≤ Nat.log2 (2 * (shl m1 k / m2) + 1) := by
  have hle : 2 ^ i ≤ shl m1 k / m2 := by
    rw [Nat.le_div_iff_mul_le (Nat.pos_of_ne_zero h2)]
    calc 2 ^ i * m2 ≤ 2 ^ i * 2 ^ (Nat.log2 m2 + 1) := Nat.mul_le_mul_left _ Nat.lt_log2_self.le
      _ = 2 ^ (i + (Nat.log2 m2 + 1)) := (pow_add ..).symm
      _ ≤ 2 ^ k := Nat.pow_le_pow_right (by omega) (by omega)
      _ ≤ shl m1 k := Nat.le_mul_of_pos_left _ (Nat.pos_of_ne_zero h1)
  exact (Nat.le_log2 (by omega)).2 (by omega)

/-- The model's quotient of two magnitudes stands for the exact quotient. -/
theorem dyDiv_reads (h1 : m1 ≠ 0) (h2 : m2 ≠ 0) :
    Reads (dyDiv m1 e1 m2 e2).1 (dyDiv m1 e1 m2 e2).2 (m1 * 2 ^ e1 / (m2 * 2 ^ e2)) := by
  have hlog := le_log2_quotient h1 h2 (show Nat.log2 m2 + 258 < 300 + Nat.log2 m2 by omega)
  have hpos : (0 : ℚ) < m2 := by positivity
  have hquot : (m1 * 2 ^ e1 / (m2 * 2 ^ e2) : ℚ) =
      shl m1 (300 + Nat.log2 m2) / m2 * 2 ^ (e1 - e2 - Int.ofNat (300 + Nat.log2 m2)) := by
    rw [zpow_sub₀ two_ne_zero, zpow_sub₀ two_ne_zero, shl, Int.ofNat_eq_natCast, zpow_natCast]
    push_cast
    field_simp
  have hdivmod : (shl m1 (300 + Nat.log2 m2) : ℚ) = m2 * (shl m1 (300 + Nat.log2 m2) / m2 : ℕ) +
      (shl m1 (300 + Nat.log2 m2) % m2 : ℕ) := by exact_mod_cast (Nat.div_add_mod _ m2).symm
  rw [hquot]
  simp only [dyDiv]
  generalize shl m1 (300 + Nat.log2 m2) = n at hlog hdivmod ⊢
  generalize e1 - e2 - Int.ofNat (300 + Nat.log2 m2) = e
  split
  · next hmod =>
    left
    rw [hmod, Nat.cast_zero, add_zero] at hdivmod
    rw [hdivmod, mul_div_cancel_left₀ _ hpos.ne']
  · next hmod =>
    have hrem : 0 < ((n % m2 : ℕ) : ℚ) := by exact_mod_cast Nat.pos_of_ne_zero hmod
    have hrem' : ((n % m2 : ℕ) : ℚ) < m2 := by exact_mod_cast Nat.mod_lt n (Nat.pos_of_ne_zero h2)
    have hstep : (2 : ℚ) ^ e = 2 * 2 ^ (e - 1) := by rw [mul_comm, ← zpow_add_one₀ two_ne_zero, sub_add_cancel]
    refine .inr ⟨hlog, by omega, ?_, ?_⟩
    · calc _ = ((n / m2 : ℕ) : ℚ) * 2 ^ e := by rw [hstep]; push_cast; ring
        _ < n / m2 * 2 ^ e := mul_lt_mul_of_pos_right (by rw [lt_div_iff₀ hpos]; linarith) (by positivity)
    · calc (n / m2 * 2 ^ e : ℚ) < ((n / m2 : ℕ) + 1) * 2 ^ e :=
            mul_lt_mul_of_pos_right (by rw [div_lt_iff₀ hpos]; linarith) (by positivity)
        _ = _ := by rw [hstep]; push_cast; ring

theorem Fp.value_div : (Fp.fin n1 m1 e1).value / (Fp.fin n2 m2 e2).value =
    sgn (n1 != n2) * (m1 * 2 ^ e1 / (m2 * 2 ^ e2)) := by
  rw [Fp.value_fin, Fp.value_fin, mul_div_mul_comm]
  cases n1 <;> cases n2 <;> simp [sgn]

theorem Fp.div_exactly (h1 : (Fp.fin n1 m1 e1).value ≠ 0) (h2 : (Fp.fin n2 m2 e2).value ≠ 0) :
    Exactly (Fp.div (.fin n1 m1 e1) (.fin n2 m2 e2)) ((Fp.fin n1 m1 e1).value / (Fp.fin n2 m2 e2).value) := by
  rw [Ne, Fp.value_eq_zero] at h1 h2
  exact ⟨_, Fp.div_fin h1 h2, _, _, _, _, rfl, by positivity, Fp.value_div, dyDiv_reads h1 h2⟩
end

/-- A number of at most 256 bits. -/
def Fp.Short (a : Fp) : Prop := ∃ n m e, a = .fin n m e ∧ Nat.log2 m < 256

/-- A zero, and no exception. -/
def ExactZero (r : Fp × W32) (n : Bool) : Prop := ∃ e, r = (.fin n 0 e, 0)

theorem log2_mul_lt {m1 m2 j : Nat} (h1 : Nat.log2 m1 < j) (h2 : Nat.log2 m2 < j) : Nat.log2 (m1 * m2) < j + j := by
  rcases Nat.eq_zero_or_pos m1 with rfl | hpos1
  · simp; omega
  rcases Nat.eq_zero_or_pos m2 with rfl | hpos2
  · simp; omega
  rw [Nat.log2_lt (by positivity), pow_add]
  exact Nat.mul_lt_mul'' ((Nat.log2_lt hpos1.ne').1 h1) ((Nat.log2_lt hpos2.ne').1 h2)

section
variable {a b c : Fp} (ha : a.Short) (hb : b.Short) (hc : c.Short)
include ha hb

/-- Each operation on short numbers delivers its exact result, or the zero of the sign that 04 R113 and 05 R141 give. -/
theorem Fp.add_spec (mode : RMode) : (a.value + b.value ≠ 0 → Exactly (Fp.add mode a b) (a.value + b.value)) ∧
    (a.value + b.value = 0 → ExactZero (Fp.add mode a b) (zeroSign mode a.sign b.sign)) := by
  obtain ⟨n1, m1, e1, rfl, h1⟩ := ha
  obtain ⟨n2, m2, e2, rfl, h2⟩ := hb
  exact ⟨Fp.add_exactly mode (by omega) (by omega), fun h => ⟨0, Fp.add_zero_sum mode (by omega) (by omega) h⟩⟩

theorem Fp.sub_spec (mode : RMode) : (a.value - b.value ≠ 0 → Exactly (Fp.sub mode a b) (a.value - b.value)) ∧
    (a.value - b.value = 0 → ExactZero (Fp.sub mode a b) (zeroSign mode a.sign (!b.sign))) := by
  obtain ⟨n2, m2, e2, rfl, h2⟩ := hb
  have := Fp.add_spec ha (b := .fin (!n2) m2 e2) ⟨_, _, _, rfl, h2⟩ mode
  rwa [Fp.value_neg, ← sub_eq_add_neg] at this

theorem Fp.mul_spec : (a.value * b.value ≠ 0 → Exactly (Fp.mul a b) (a.value * b.value)) ∧
    (a.value * b.value = 0 → ExactZero (Fp.mul a b) (a.sign != b.sign)) := by
  obtain ⟨n1, m1, e1, rfl, h1⟩ := ha
  obtain ⟨n2, m2, e2, rfl, h2⟩ := hb
  refine ⟨Fp.mul_exactly, fun h => ⟨e1 + e2, ?_⟩⟩
  rw [← Fp.value_mul, Fp.value_eq_zero] at h
  rw [Fp.mul_fin, h]
  rfl

theorem Fp.div_spec (hx : a.value ≠ 0) (hy : b.value ≠ 0) : Exactly (Fp.div a b) (a.value / b.value) := by
  obtain ⟨n1, m1, e1, rfl, h1⟩ := ha
  obtain ⟨n2, m2, e2, rfl, h2⟩ := hb
  exact Fp.div_exactly hx hy

include hc
theorem Fp.fma_spec (mode : RMode) :
    (a.value * b.value + c.value ≠ 0 → Exactly (Fp.fma mode a b c) (a.value * b.value + c.value)) ∧
    (a.value * b.value + c.value = 0 → ExactZero (Fp.fma mode a b c) (zeroSign mode (a.sign != b.sign) c.sign)) := by
  obtain ⟨n1, m1, e1, rfl, h1⟩ := ha
  obtain ⟨n2, m2, e2, rfl, h2⟩ := hb
  obtain ⟨n3, m3, e3, rfl, h3⟩ := hc
  have h12 : Nat.log2 (m1 * m2) < 512 := log2_mul_lt h1 h2
  rw [Fp.fma_fin, ← Fp.value_mul]
  exact ⟨Fp.add_exactly mode h12 (by omega), fun h => ⟨0, Fp.add_zero_sum mode h12 (by omega) h⟩⟩
end

/-! ## The scalar and the packed types (04 R109, R110, R113) -/

theorem Fmt.unpack_short {f : Fmt} (hf : f.Proper) {b : Nat} (h : (f.unpack b).finite) : (f.unpack b).Short := by
  obtain ⟨n, m, e, heq⟩ := Fp.exists_fin h
  refine ⟨n, m, e, heq, ?_⟩
  have hfrac : b % 2 ^ f.fb < 2 ^ f.fb := Nat.mod_lt _ (by positivity)
  have hm : m < 2 ^ (f.fb + 1) := by
    rw [pow_succ']
    unfold Fmt.unpack at heq
    dsimp only at heq
    split at heq
    · split at heq <;> simp at heq
    · split at heq <;> obtain ⟨-, rfl, -⟩ := Fp.fin.inj heq <;> omega
  rcases Nat.eq_zero_or_pos m with rfl | hpos
  · simp
  · exact (Nat.log2_lt hpos.ne').2 (hm.trans_le (Nat.pow_le_pow_right (by omega) (by have := hf.short; omega)))

theorem FpTy.width_le (t : FpTy) : t.fmt.width ≤ 64 := by cases t <;> decide

/-- A delivered pattern as a lane's value. -/
def asLane (r : Nat × W32) : W64 × W32 := (BitVec.ofNat 64 r.1, r.2)

/-- The number that a lane's value is in a scalar type. -/
def FpTy.num (t : FpTy) (v : W64) : Fp := t.fmt.unpack (v.toNat % 2 ^ t.fmt.width)

section
variable {t : FpTy} (ht : t ≠ .f16x2) (ht' : t ≠ .bf16x2)
include ht ht'

theorem fpMap2_scalar (f : Fmt → Nat → Nat → Nat × W32) (a b : W64) :
    fpMap2 t f a b = asLane (f t.fmt (a.toNat % 2 ^ t.fmt.width) (b.toNat % 2 ^ t.fmt.width)) := by
  cases t with
  | f16x2 => exact absurd rfl ht
  | bf16x2 => exact absurd rfl ht'
  | _ => rfl

theorem fpMap3_scalar (f : Fmt → Nat → Nat → Nat → Nat × W32) (a b c : W64) : fpMap3 t f a b c =
    asLane (f t.fmt (a.toNat % 2 ^ t.fmt.width) (b.toNat % 2 ^ t.fmt.width) (c.toNat % 2 ^ t.fmt.width)) := by
  cases t with
  | f16x2 => exact absurd rfl ht
  | bf16x2 => exact absurd rfl ht'
  | _ => rfl

theorem fArith2_scalar (op : RMode → Fp → Fp → Fp × W32) (r : Rnd) (a b : W64) :
    fArith2 op t r false a b = asLane (deliver t.fmt r.mode false (op r.mode (t.num a) (t.num b))) := by
  rw [fArith2, fpMap2_scalar ht ht']
  rfl

theorem ffmaVal_scalar (r : Rnd) (a b c : W64) :
    ffmaVal t r false a b c = asLane (deliver t.fmt r.mode false (Fp.fma r.mode (t.num a) (t.num b) (t.num c))) := by
  rw [ffmaVal, fpMap3_scalar ht ht']
  rfl
end

theorem asLane_toNat (t : FpTy) (mode : RMode) (ftz : Bool) (r : Fp × W32) :
    (asLane (deliver t.fmt mode ftz r)).1.toNat = (deliver t.fmt mode ftz r).1 :=
  Nat.mod_eq_of_lt ((deliver_lt t.fmt_proper mode ftz r).trans_le (Nat.pow_le_pow_right (by omega) t.width_le))

/-- An exact result delivered in a scalar type. -/
theorem asLane_once (t : FpTy) (mode : RMode) {r : Fp × W32} {x : ℚ} (h : Exactly r x) :
    (asLane (deliver t.fmt mode false r)).1.toNat < 2 ^ t.fmt.width ∧
    RoundedOnce t.fmt mode x (asLane (deliver t.fmt mode false r)).1.toNat (asLane (deliver t.fmt mode false r)).2 := by
  rw [asLane_toNat]
  exact ⟨deliver_lt t.fmt_proper mode false r, deliver_roundedOnce t.fmt_proper h mode⟩

/-- A zero delivered in a scalar type. -/
theorem asLane_zero (t : FpTy) (mode : RMode) {r : Fp × W32} {n : Bool} (h : ExactZero r n) :
    asLane (deliver t.fmt mode false r) = (BitVec.ofNat 64 (t.fmt.signBit n), 0) := by
  obtain ⟨e, rfl⟩ := h
  rw [deliver_zero]
  rfl

theorem zeroSign_rnd (r : Rnd) (n1 n2 : Bool) : zeroSign r.mode n1 n2 = if n1 = n2 then n1 else r == .rdn := by
  unfold zeroSign; cases r <;> rfl

/-! ### Packed types -/

/-- A packed result and the results of its two elements. -/
def Both (v l h : W64 × W32) : Prop := v.1.toNat = l.1.toNat + 2 ^ 16 * h.1.toNat ∧ v.2 = l.2 ||| h.2

theorem both_asLane {l h : Nat × W32} (hl : l.1 < 2 ^ 16) (hh : h.1 < 2 ^ 16) :
    Both (BitVec.ofNat 64 (l.1 + h.1 * 2 ^ 16), l.2 ||| h.2) (asLane l) (asLane h) := by
  refine ⟨?_, rfl⟩
  simp only [asLane, BitVec.toNat_ofNat]
  omega

/-- The low and the high element of a packed value. -/
def loElem (v : W64) : W64 := BitVec.ofNat 64 (v.toNat % 2 ^ 16)
def hiElem (v : W64) : W64 := BitVec.ofNat 64 (v.toNat / 2 ^ 16 % 2 ^ 16)

theorem loElem_mod (v : W64) : (loElem v).toNat % 2 ^ 16 = v.toNat % 2 ^ 16 := by
  rw [loElem, BitVec.toNat_ofNat]; omega

theorem hiElem_mod (v : W64) : (hiElem v).toNat % 2 ^ 16 = v.toNat / 2 ^ 16 % 2 ^ 16 := by
  rw [hiElem, BitVec.toNat_ofNat]; omega

/-- A packed type and the type of its elements. -/
def Packs (t u : FpTy) : Prop := t = .f16x2 ∧ u = .f16 ∨ t = .bf16x2 ∧ u = .bf16

theorem Packs.elem {t u : FpTy} (h : Packs t u) : u ≠ .f16x2 ∧ u ≠ .bf16x2 ∧ u.fmt.width = 16 := by
  obtain ⟨-, rfl⟩ | ⟨-, rfl⟩ := h <;> decide

theorem fpMap2_packed {t u : FpTy} (h : Packs t u) (f : Fmt → Nat → Nat → Nat × W32) (a b : W64) : fpMap2 t f a b =
    let r0 := f u.fmt (a.toNat % 2 ^ 16) (b.toNat % 2 ^ 16)
    let r1 := f u.fmt (a.toNat / 2 ^ 16 % 2 ^ 16) (b.toNat / 2 ^ 16 % 2 ^ 16)
    (BitVec.ofNat 64 (r0.1 + r1.1 * 2 ^ 16), r0.2 ||| r1.2) := by
  obtain ⟨rfl, rfl⟩ | ⟨rfl, rfl⟩ := h <;> rfl

theorem fpMap3_packed {t u : FpTy} (h : Packs t u) (f : Fmt → Nat → Nat → Nat → Nat × W32) (a b c : W64) : fpMap3 t f a b c =
    let r0 := f u.fmt (a.toNat % 2 ^ 16) (b.toNat % 2 ^ 16) (c.toNat % 2 ^ 16)
    let r1 := f u.fmt (a.toNat / 2 ^ 16 % 2 ^ 16) (b.toNat / 2 ^ 16 % 2 ^ 16) (c.toNat / 2 ^ 16 % 2 ^ 16)
    (BitVec.ofNat 64 (r0.1 + r1.1 * 2 ^ 16), r0.2 ||| r1.2) := by
  obtain ⟨rfl, rfl⟩ | ⟨rfl, rfl⟩ := h <;> rfl

theorem fpMap2_both {t u : FpTy} (h : Packs t u) {f : Fmt → Nat → Nat → Nat × W32}
    (hf : ∀ x y, (f u.fmt x y).1 < 2 ^ u.fmt.width) (a b : W64) :
    Both (fpMap2 t f a b) (fpMap2 u f (loElem a) (loElem b)) (fpMap2 u f (hiElem a) (hiElem b)) := by
  obtain ⟨hu, hu', hwidth⟩ := h.elem
  rw [hwidth] at hf
  rw [fpMap2_packed h, fpMap2_scalar hu hu', fpMap2_scalar hu hu', hwidth]
  simp only [loElem_mod, hiElem_mod]
  exact both_asLane (hf ..) (hf ..)

theorem fpMap3_both {t u : FpTy} (h : Packs t u) {f : Fmt → Nat → Nat → Nat → Nat × W32}
    (hf : ∀ x y z, (f u.fmt x y z).1 < 2 ^ u.fmt.width) (a b c : W64) :
    Both (fpMap3 t f a b c) (fpMap3 u f (loElem a) (loElem b) (loElem c)) (fpMap3 u f (hiElem a) (hiElem b) (hiElem c)) := by
  obtain ⟨hu, hu', hwidth⟩ := h.elem
  rw [hwidth] at hf
  rw [fpMap3_packed h, fpMap3_scalar hu hu', fpMap3_scalar hu hu', hwidth]
  simp only [loElem_mod, hiElem_mod]
  exact both_asLane (hf ..) (hf ..)

theorem fArith2_both {t u : FpTy} (h : Packs t u) (op : RMode → Fp → Fp → Fp × W32) (r : Rnd) (ftz : Bool) (a b : W64) :
    Both (fArith2 op t r ftz a b) (fArith2 op u r ftz (loElem a) (loElem b)) (fArith2 op u r ftz (hiElem a) (hiElem b)) :=
  fpMap2_both h (fun _ _ => deliver_lt u.fmt_proper ..) a b

theorem ffmaVal_both {t u : FpTy} (h : Packs t u) (r : Rnd) (ftz : Bool) (a b c : W64) :
    Both (ffmaVal t r ftz a b c) (ffmaVal u r ftz (loElem a) (loElem b) (loElem c))
      (ffmaVal u r ftz (hiElem a) (hiElem b) (hiElem c)) :=
  fpMap3_both h (fun _ _ _ => deliver_lt u.fmt_proper ..) a b c

/-! ## Variable-length results (05 R132 to R140) -/

/-! ### Limbs and headers -/

theorem limbNat_append (ls : List W32) (w : W32) : limbNat (ls ++ [w]) = limbNat ls * 2 ^ 32 + w.toNat := by
  simp [limbNat]

theorem natLimbs_succ (n m : Nat) : natLimbs (n + 1) m = natLimbs n (m / 2 ^ 32) ++ [BitVec.ofNat 32 m] := by
  rw [natLimbs, List.range_succ, List.map_append, List.map_singleton]
  congr 1
  · refine List.map_congr_left fun i hi => ?_
    have hi' := List.mem_range.1 hi
    rw [Nat.div_div_eq_div_mul, ← pow_add, show 32 + 32 * (n - 1 - i) = 32 * (n + 1 - 1 - i) by omega]
  · simp

@[simp] theorem natLimbs_length (n m : Nat) : (natLimbs n m).length = n := by simp [natLimbs]

theorem limbNat_natLimbs (n m : Nat) : limbNat (natLimbs n m) = m % 2 ^ (32 * n) := by
  induction n generalizing m with
  | zero => simp [natLimbs, limbNat, Nat.mod_one]
  | succ n ih =>
    rw [natLimbs_succ, limbNat_append, ih, BitVec.toNat_ofNat, Nat.mul_succ, Nat.add_comm (32 * n), pow_add,
      Nat.mod_mul, Nat.add_comm, Nat.mul_comm]

theorem vlfHdr_toNat (s : Bool) {c n : Nat} (hc : c < 8) (hn : n < 16) (ex : Nat) :
    (vlfHdr s c n ex).toNat = (if s then 1 else 0) * 2 ^ 31 + (c * 2 ^ 28 + (n * 2 ^ 24 + ex % 2 ^ 24)) := by
  have hex : ex % 2 ^ 24 < 2 ^ 24 := Nat.mod_lt _ (by positivity)
  rw [vlfHdr, BitVec.toNat_ofNat, Nat.mod_eq_of_lt]
  · cases s <;> simp [add_assoc]
  · cases s <;> simp <;> omega

section
variable (s : Bool) {c n : Nat} (hc : c < 8) (hn : n < 16) (ex : Nat)
include hc hn

theorem hdrSign_vlfHdr : hdrSign (vlfHdr s c n ex) = s := by
  have hdiv : (vlfHdr s c n ex).toNat / 2 ^ 31 = if s then 1 else 0 := by
    rw [vlfHdr_toNat s hc hn]; omega
  rw [hdrSign, BitVec.getLsbD, Nat.testBit_eq_decide_div_mod_eq, hdiv]
  cases s <;> rfl

theorem hdrClass_vlfHdr : hdrClass (vlfHdr s c n ex) = c := by
  rw [hdrClass, BitVec.extractLsb'_toNat, Nat.shiftRight_eq_div_pow, vlfHdr_toNat s hc hn]
  omega

theorem hdrL_vlfHdr : hdrL (vlfHdr s c n ex) = n := by
  rw [hdrL, BitVec.extractLsb'_toNat, Nat.shiftRight_eq_div_pow, vlfHdr_toNat s hc hn]
  omega

theorem hdrExp_vlfHdr : ((vlfHdr s c n ex).extractLsb' 0 24).toNat = ex % 2 ^ 24 := by
  rw [BitVec.extractLsb'_toNat, Nat.shiftRight_eq_div_pow, vlfHdr_toNat s hc hn]
  omega
end

/-- The significand of a normal value with its leading bit in place. -/
def vlfSig (m n : Nat) : Nat :=
  if Nat.log2 m + 1 ≤ 32 * n then shl m (32 * n - (Nat.log2 m + 1)) else m / 2 ^ (Nat.log2 m + 1 - 32 * n)

theorem vlfNormal_eq (s : Bool) (m n : Nat) (e : ℤ) :
    vlfNormal s m e n = vlfHdr s 1 n (topExp m e + vlfBias).toNat :: natLimbs n (vlfSig m n) := rfl

theorem vlfSig_spec {m n : Nat} (hm : m ≠ 0) (hn : 1 ≤ n) (hfit : m ≤ 2 ^ (32 * n)) (e : ℤ) :
    2 ^ (32 * n - 1) ≤ vlfSig m n ∧ vlfSig m n < 2 ^ (32 * n) ∧
      (vlfSig m n : ℚ) * 2 ^ (topExp m e - (32 * n - 1)) = m * 2 ^ e := by
  have hlo := Nat.log2_self_le hm
  have hhi := @Nat.lt_log2_self m
  unfold vlfSig
  split
  · next h =>
    obtain ⟨d, hd⟩ : ∃ d, 32 * n = Nat.log2 m + 1 + d := ⟨_, (Nat.add_sub_cancel' h).symm⟩
    have hexp : topExp m e - (32 * n - 1) = e - d := by
      have : (32 * n : ℤ) = Nat.log2 m + 1 + d := by exact_mod_cast hd
      rw [topExp_eq, this]; ring
    rw [hexp, hd, Nat.add_sub_cancel_left, shl, Nat.add_right_comm, Nat.add_sub_cancel, pow_add, Nat.add_right_comm, pow_add]
    refine ⟨Nat.mul_le_mul_right _ hlo, Nat.mul_lt_mul_of_pos_right hhi (by positivity), ?_⟩
    rw [zpow_sub₀ two_ne_zero, zpow_natCast]
    push_cast
    field_simp
  · next h =>
    -- a carry past the window's limbs leaves a power of two
    have hpow : 2 ^ (32 * n) ≤ 2 ^ Nat.log2 m := Nat.pow_le_pow_right (by omega) (by omega)
    obtain rfl : m = 2 ^ (32 * n) := by omega
    obtain ⟨d, hd⟩ : ∃ d, 32 * n = d + 1 := ⟨32 * n - 1, by omega⟩
    have hexp : topExp (2 ^ (32 * n)) e - (32 * n - 1) = e + 1 := by
      rw [topExp_eq, Nat.log2_two_pow]; push_cast; ring
    rw [hexp, Nat.log2_two_pow, Nat.add_sub_cancel_left, hd, pow_one, pow_succ, Nat.mul_div_cancel _ (by omega),
      Nat.add_sub_cancel, zpow_add_one₀ two_ne_zero]
    refine ⟨le_rfl, by have := Nat.two_pow_pos d; omega, ?_⟩
    push_cast; ring

/-- The words of a normal value are read back as that value. -/
theorem vlfNormal_value (s : Bool) {m n : Nat} {e : ℤ} (hm : m ≠ 0) (hn : 1 ≤ n) (hn8 : n ≤ 8) (hfit : m ≤ 2 ^ (32 * n))
    (hlo : vlfEmin ≤ topExp m e) (hhi : topExp m e ≤ vlfEmax) :
    ∃ sig k, vlfValue 8 ((vlfNormal s m e n).getD 0 0) ((vlfNormal s m e n).drop 1) = .fin s sig k ∧
      (sig : ℚ) * 2 ^ k = m * 2 ^ e := by
  obtain ⟨htop, hlt, hval⟩ := vlfSig_spec hm hn hfit e
  have hsig : limbNat ((natLimbs n (vlfSig m n)).take n) = vlfSig m n := by
    rw [List.take_of_length_le (natLimbs_length ..).le, limbNat_natLimbs, Nat.mod_eq_of_lt hlt]
  have hexp : (((topExp m e + vlfBias).toNat % 2 ^ 24 : ℕ) : ℤ) = topExp m e + vlfBias := by
    unfold vlfEmin at hlo; unfold vlfEmax at hhi; unfold vlfBias; omega
  refine ⟨vlfSig m n, topExp m e - (32 * n - 1), ?_, hval⟩
  rw [vlfNormal_eq, List.getD_cons_zero, List.drop_succ_cons, List.drop_zero]
  have h16 : n < 16 := by omega
  have hsign := hdrSign_vlfHdr s (show 1 < 8 by omega) h16 (topExp m e + vlfBias).toNat
  have hclass := hdrClass_vlfHdr s (show 1 < 8 by omega) h16 (topExp m e + vlfBias).toNat
  have hL := hdrL_vlfHdr s (show 1 < 8 by omega) h16 (topExp m e + vlfBias).toNat
  have hex := hdrExp_vlfHdr s (show 1 < 8 by omega) h16 (topExp m e + vlfBias).toNat
  rw [vlfValue, if_neg (by simp [hdrBad, hclass, hL]; omega), hclass, hL]
  simp only [hsig, hsign, hex, if_neg (not_lt.2 htop), Int.ofNat_eq_natCast, hexp, add_sub_cancel_right]

/-! ### Rounding a result (05 R139, R140) -/

/-- The exponent of the last place at a working length. -/
def vlfUnit (m : Nat) (e : ℤ) (wr : Nat) : ℤ := topExp m e - (wr - 1)

section
variable {s : Bool} {m : Nat} {e : ℤ} {wr : Nat} {mode : RMode} (hm : m ≠ 0)
include hm

/-- A rounded result by the exponent that the rounding leaves: above the range, below it, or in it. -/
theorem vlfRound_over (h : vlfEmax < topExp (roundAt mode s m e (vlfUnit m e wr)).1 (vlfUnit m e wr)) :
    (vlfRound (.fin s m e) wr mode).words = vlfOverflow s wr mode ∧ (vlfRound (.fin s m e) wr mode).exc = xOF ||| xNX := by
  have hunit : topExp m e - (Int.ofNat wr - 1) = vlfUnit m e wr := rfl
  simp only [vlfRound, roundTo, if_neg hm, hunit, if_pos h, true_and]
  cases (roundAt mode s m e (vlfUnit m e wr)).2 <;> rfl

theorem vlfRound_under (h : topExp (roundAt mode s m e (vlfUnit m e wr)).1 (vlfUnit m e wr) < vlfEmin) :
    (vlfRound (.fin s m e) wr mode).words = vlfSpecial (.fin s 0 0) (limbsOf wr) ∧
      (vlfRound (.fin s m e) wr mode).exc = xUF ||| xNX := by
  have hunit : topExp m e - (Int.ofNat wr - 1) = vlfUnit m e wr := rfl
  have hnot : ¬vlfEmax < topExp (roundAt mode s m e (vlfUnit m e wr)).1 (vlfUnit m e wr) :=
    not_lt.2 (h.le.trans (by decide))
  simp only [vlfRound, roundTo, if_neg hm, hunit, if_neg hnot, if_pos h, true_and]
  cases (roundAt mode s m e (vlfUnit m e wr)).2 <;> rfl

theorem vlfRound_within (h : vlfEmin ≤ topExp (roundAt mode s m e (vlfUnit m e wr)).1 (vlfUnit m e wr))
    (h' : topExp (roundAt mode s m e (vlfUnit m e wr)).1 (vlfUnit m e wr) ≤ vlfEmax) :
    (vlfRound (.fin s m e) wr mode).words =
      vlfNormal s (roundAt mode s m e (vlfUnit m e wr)).1 (vlfUnit m e wr) (limbsOf wr) ∧
    (vlfRound (.fin s m e) wr mode).exc = if (roundAt mode s m e (vlfUnit m e wr)).2 then xNX else 0 := by
  have hunit : topExp m e - (Int.ofNat wr - 1) = vlfUnit m e wr := rfl
  simp only [vlfRound, roundTo, if_neg hm, hunit, if_neg (not_lt.2 h'), if_neg (not_lt.2 h), and_self]
end

/-- The length that a result is rounded to: the working length, or what the window holds. -/
def fitLen (p : W32) (cap : Nat) : Nat := if limbsOf (workLen p) ≤ cap then workLen p else 32 * cap

theorem vdeliver_eq (v : Fp) (p : W32) (cap : Nat) : vdeliver v p cap =
    let r := vlfRound v (fitLen p cap) (precMode p)
    { r with exc := r.exc ||| if cap < limbsOf (workLen p) then xWF else 0 } := by
  unfold vdeliver fitLen
  by_cases h : cap < limbsOf (workLen p)
  · simp [h, not_le.2 h]
  · simp [h, not_lt.1 h]

/-- Of the conditions, a rounding raises overflow and underflow, each with inexact, or inexact alone. -/
theorem vlfRound_exc (v : Fp) (wr : Nat) (mode : RMode) : (vlfRound v wr mode).exc = 0 ∨ (vlfRound v wr mode).exc = xNX ∨
    (vlfRound v wr mode).exc = xOF ||| xNX ∨ (vlfRound v wr mode).exc = xUF ||| xNX := by
  cases v with
  | nan => exact .inl rfl
  | inf => exact .inl rfl
  | fin s m e =>
    by_cases hm : m = 0
    · exact .inl (by simp [vlfRound, hm])
    by_cases hover : vlfEmax < topExp (roundAt mode s m e (vlfUnit m e wr)).1 (vlfUnit m e wr)
    · exact .inr (.inr (.inl (vlfRound_over hm hover).2))
    by_cases hunder : topExp (roundAt mode s m e (vlfUnit m e wr)).1 (vlfUnit m e wr) < vlfEmin
    · exact .inr (.inr (.inr (vlfRound_under hm hunder).2))
    · rw [(vlfRound_within hm (not_lt.1 hunder) (not_lt.1 hover)).2]
      split
      · exact .inr (.inl rfl)
      · exact .inl rfl

/-- What the conditions of a delivery add to those of its rounding. -/
theorem exc_delivered {x : W32} (hx : x = 0 ∨ x = xNX ∨ x = xOF ||| xNX ∨ x = xUF ||| xNX) (wf cf : Bool) :
    (x ||| (if wf then xWF else 0) ||| 0 ||| if cf then xCF else 0) &&& (xOF ||| xUF ||| xNX) = x ∧
    ((x ||| (if wf then xWF else 0) ||| 0 ||| if cf then xCF else 0) &&& xWF ≠ 0 ↔ wf = true) := by
  rcases hx with rfl | rfl | rfl | rfl <;> revert wf cf <;> decide

/-- A delivery's words and conditions. -/
theorem vfinish_out (v : Fp) (contrib : List Fp) (p : W32) (cap : Nat) :
    (vfinish (v, 0) contrib p cap).out.words = (vlfRound v (fitLen p cap) (precMode p)).words ∧
    (vfinish (v, 0) contrib p cap).out.exc &&& (xOF ||| xUF ||| xNX) = (vlfRound v (fitLen p cap) (precMode p)).exc ∧
    ((vfinish (v, 0) contrib p cap).out.exc &&& xWF ≠ 0 ↔ cap < limbsOf (workLen p)) := by
  have hexc := exc_delivered (vlfRound_exc v (fitLen p cap) (precMode p)) (decide (cap < limbsOf (workLen p)))
    (losesPrec p (cancelDelta contrib v (vdeliver v p cap).yexp (!vlfNotFinite (vdeliver v p cap).words)))
  simp only [decide_eq_true_eq] at hexc
  refine ⟨by simp only [vfinish, vdeliver_eq], ?_⟩
  simpa only [vfinish, vdeliver_eq] using hexc

/-- The lengths of an acceptable PREC and of its fit in a window (05 R137). -/
theorem fitLen_bounds {p : W32} (hp : precOk p = true) {cap : Nat} (h1 : 1 ≤ cap) (h8 : cap ≤ 8) :
    1 ≤ fitLen p cap ∧ fitLen p cap ≤ 256 := by
  have hwork : 1 ≤ workLen p ∧ workLen p ≤ 256 := by
    simp only [precOk, Bool.and_eq_true, Bool.or_eq_true, beq_iff_eq, decide_eq_true_eq] at hp
    unfold workLen
    split <;> omega
  unfold fitLen
  split <;> omega

theorem limbsOf_bounds {wr : Nat} (h1 : 1 ≤ wr) (h256 : wr ≤ 256) : 1 ≤ limbsOf wr ∧ limbsOf wr ≤ 8 ∧ wr ≤ 32 * limbsOf wr := by
  unfold limbsOf; omega

section
variable {s : Bool} {m : Nat} {e : ℤ} {x : ℚ} (hx : Reads m e x) (h0 : 0 < x) {wr : Nat} (h1 : 1 ≤ wr) (h256 : wr ≤ 256)
include hx h0 h1 h256

theorem vlfUnit_roundsAt (mode : RMode) (s : Bool) : RoundsAt mode s x (vlfUnit m e wr) (roundAt mode s m e (vlfUnit m e wr)) :=
  roundAt_roundsAt hx h0.le (by unfold vlfUnit; omega) mode s

theorem vlfUnit_bounds (mode : RMode) (s : Bool) :
    (roundAt mode s m e (vlfUnit m e wr)).1 ≠ 0 ∧ (roundAt mode s m e (vlfUnit m e wr)).1 ≤ 2 ^ wr := by
  obtain ⟨hlo, hhi⟩ := hx.bounds (hx.ne_zero h0)
  obtain ⟨hge, hle⟩ := (vlfUnit_roundsAt hx h0 h1 h256 mode s).full hlo hhi (p := wr - 1) (by unfold vlfUnit; omega)
  rw [Nat.sub_add_cancel h1] at hle
  exact ⟨by have := Nat.one_le_two_pow (n := wr - 1); omega, hle⟩
end

/-- The delivery of what a significand stands for is the rounding that 05 R139 asks for. -/
theorem vfinish_roundedOnce {v : Fp} {x : ℚ} (hv : v.Stands x) {p : W32} (hp : precOk p = true) {cap : Nat} (hcap1 : 1 ≤ cap)
    (hcap8 : cap ≤ 8) (contrib : List Fp) : VlfRoundedOnce p cap x (vfinish (v, 0) contrib p cap).out := by
  obtain ⟨hwords, hexc, hwf⟩ := vfinish_out v contrib p cap
  obtain ⟨h1, h256⟩ := fitLen_bounds hp hcap1 hcap8
  obtain ⟨hlimb1, hlimb8, hlimbs⟩ := limbsOf_bounds h1 h256
  obtain ⟨s, m, e, y, rfl, h0, rfl, hread⟩ := hv
  have hm := hread.ne_zero h0
  have hround := vlfUnit_roundsAt hread h0 h1 h256 (precMode p) s
  obtain ⟨hne, hfit⟩ := vlfUnit_bounds hread h0 h1 h256 (precMode p) s
  refine ⟨hwf, fun n hlo hhi => ?_⟩
  rw [abs_sgn_mul, abs_of_pos h0] at hlo hhi
  obtain rfl := hread.topExp_unique hm hlo hhi
  rw [hwords, hexc, decide_sgn_mul_neg h0]
  change ∃ z, Rounds _ _ (2 ^ (topExp m e + 1 - fitLen p cap)) z ∧ _
  have hunit : topExp m e + 1 - fitLen p cap = vlfUnit m e (fitLen p cap) := by unfold vlfUnit; ring
  rw [hunit]
  refine ⟨_, hround.rounds, ?_⟩
  rw [abs_sgn_mul, abs_of_nonneg (by positivity), ← le_topExp hne, ← topExp_lt hne, ← le_topExp hne, ← topExp_lt hne]
  refine ⟨fun hmin hmax => ?_, fun hmax => ?_, fun hmin => ?_⟩
  · obtain ⟨hnormal, hnx⟩ := vlfRound_within hm hmin (Int.lt_add_one_iff.1 hmax)
    obtain ⟨sig, k, hvalue, hsig⟩ := vlfNormal_value s hne hlimb1 hlimb8
      (hfit.trans (Nat.pow_le_pow_right (by omega) hlimbs)) hmin (Int.lt_add_one_iff.1 hmax)
    rw [hnormal, hvalue, hnx]
    refine ⟨by rw [vlfNormal_eq, List.length_cons, natLimbs_length, add_comm]; rfl, ⟨rfl, rfl⟩, by rw [Fp.value_fin, hsig], ?_⟩
    simp only [sgn_mul_inj, ← hround.exact_iff]
    cases (roundAt (precMode p) s m e (vlfUnit m e (fitLen p cap))).2 <;> rfl
  · exact vlfRound_over hm (Int.add_one_le_iff.1 hmax)
  · exact vlfRound_under hm hmin

/-- The operations of 05 R152 on short numbers, delivered from an exact result. -/
theorem vfinish_exactly {r : Fp × W32} {x : ℚ} (h : Exactly r x) {p : W32} (hp : precOk p = true) {cap : Nat} (hcap1 : 1 ≤ cap)
    (hcap8 : cap ≤ 8) (contrib : List Fp) : VlfRoundedOnce p cap x (vfinish r contrib p cap).out := by
  obtain ⟨v, rfl, hv⟩ := h
  exact vfinish_roundedOnce hv hp hcap1 hcap8 contrib

theorem Fp.short_of_lt {a : Fp} (ha : a.finite) (h : ∀ neg m e, a = .fin neg m e → m < 2 ^ 256) : a.Short := by
  obtain ⟨n, m, e, rfl⟩ := Fp.exists_fin ha
  refine ⟨n, m, e, rfl, ?_⟩
  rcases Nat.eq_zero_or_pos m with rfl | hpos
  · simp
  · exact (Nat.log2_lt hpos.ne').2 (h n m e rfl)

/-- Settles O2: every operation stands for its exact result (`Fp.add_spec` and its like), and a rounding of what stands for a
result is the result's (`fround_roundedOnce`, `vfinish_roundedOnce`); packed types by their elements. -/
theorem floatRounding : Obligations.FloatRounding := by
  unfold Obligations.FloatRounding
  refine ⟨fun t r a b c ht ht' => ?_, fun t u r ftz a b c h => ?_, fun p cap a b c hp h1 h8 ha hb hc hlt => ?_⟩
  · intro num once zero x y z sums ha hb hc
    have ha' : (t.num a).Short := Fmt.unpack_short t.fmt_proper ha
    have hb' : (t.num b).Short := Fmt.unpack_short t.fmt_proper hb
    have hc' : (t.num c).Short := Fmt.unpack_short t.fmt_proper hc
    have hsums : ∀ sa sb, zeroSign r.mode sa sb = sums sa sb := zeroSign_rnd r
    have hadd : faddVal t r false a b = _ := fArith2_scalar ht ht' Fp.add r a b
    have hsub : fsubVal t r false a b = _ := fArith2_scalar ht ht' Fp.sub r a b
    have hmul : fmulVal t r false a b = _ := fArith2_scalar ht ht' (fun _ => Fp.mul) r a b
    have hdiv : fdivVal t r false a b = _ := fArith2_scalar ht ht' (fun _ => Fp.div) r a b
    rw [hadd, hsub, hmul, hdiv, ffmaVal_scalar ht ht', ← hsums, ← hsums, ← hsums]
    obtain ⟨add, add0⟩ := Fp.add_spec ha' hb' r.mode
    obtain ⟨sub, sub0⟩ := Fp.sub_spec ha' hb' r.mode
    obtain ⟨mul, mul0⟩ := Fp.mul_spec ha' hb'
    obtain ⟨fma, fma0⟩ := Fp.fma_spec ha' hb' hc' r.mode
    exact ⟨fun h => asLane_once t r.mode (add h), fun h => asLane_zero t r.mode (add0 h),
      fun h => asLane_once t r.mode (sub h), fun h => asLane_zero t r.mode (sub0 h),
      fun h => asLane_once t r.mode (mul h), fun h => asLane_zero t r.mode (mul0 h),
      fun h => asLane_once t r.mode (fma h), fun h => asLane_zero t r.mode (fma0 h),
      fun hx hy => asLane_once t r.mode (Fp.div_spec ha' hb' hx hy)⟩
  · exact ⟨fArith2_both h _ r ftz a b, fArith2_both h _ r ftz a b, fArith2_both h _ r ftz a b, ffmaVal_both h r ftz a b c,
      fArith2_both h _ r ftz a b⟩
  · have ha' := Fp.short_of_lt ha fun n m e heq => hlt n m e (.inl heq)
    have hb' := Fp.short_of_lt hb fun n m e heq => hlt n m e (.inr (.inl heq))
    have hc' := Fp.short_of_lt hc fun n m e heq => hlt n m e (.inr (.inr heq))
    exact ⟨fun h => vfinish_exactly ((Fp.add_spec ha' hb' _).1 h) hp h1 h8 _,
      fun h => vfinish_exactly ((Fp.sub_spec ha' hb' _).1 h) hp h1 h8 _,
      fun h => vfinish_exactly ((Fp.mul_spec ha' hb').1 h) hp h1 h8 _,
      fun h => vfinish_exactly ((Fp.fma_spec ha' hb' hc' _).1 h) hp h1 h8 _,
      fun hx hy => vfinish_exactly (Fp.div_spec ha' hb' hx hy) hp h1 h8 _⟩

end Sys2Proof

namespace Sys2Proof

/-! ## Words of a variable-length result (05 R139, R144) -/

theorem vlfSpecial_length (x : Fp) (n : Nat) : (vlfSpecial x n).length = 1 + n := by
  simp [vlfSpecial, Nat.add_comm]

theorem vlfNormal_length (s : Bool) (m n : Nat) (e : ℤ) : (vlfNormal s m e n).length = 1 + n := by
  simp [vlfNormal_eq, Nat.add_comm]

theorem vlfOverflow_length (s : Bool) (wr : Nat) (mode : RMode) : (vlfOverflow s wr mode).length = 1 + limbsOf wr := by
  have hinf := vlfSpecial_length (.inf s) (limbsOf wr)
  have hbig : (vlfLargest s wr).length = 1 + limbsOf wr := vlfNormal_length ..
  cases mode <;> cases s <;> assumption

/-- A rounded result has its header and the limbs of its length. -/
theorem vlfRound_length (x : Fp) (wr : Nat) (mode : RMode) : (vlfRound x wr mode).words.length = 1 + limbsOf wr := by
  cases x with
  | nan sig => exact vlfSpecial_length (.nan sig) _
  | inf s => exact vlfSpecial_length (.inf s) _
  | fin s m e =>
    simp only [vlfRound]
    split
    · exact vlfSpecial_length (.fin s m e) _
    · split
      · exact vlfOverflow_length ..
      · split
        · exact vlfSpecial_length (.fin s 0 0) _
        · exact vlfNormal_length ..

/-- A delivery stays in the window it is made for. -/
theorem vfinish_length (x : Fp × W32) (contrib : List Fp) (p : W32) (cap : Nat) :
    (vfinish x contrib p cap).out.words.length ≤ 1 + cap := by
  have hfit : limbsOf (fitLen p cap) ≤ cap := by
    unfold fitLen
    split
    · assumption
    · unfold limbsOf; omega
  have hlen := vlfRound_length x.1 (fitLen p cap) (precMode p)
  simp only [vfinish, vdeliver_eq]
  omega

theorem vrndIntVal_length (p : W32) (cap : Nat) (a : Fp) : (vrndIntVal p cap a).out.words.length ≤ 1 + cap := by
  unfold vrndIntVal
  split
  · dsimp only
    split <;> exact vfinish_length ..
  · exact vfinish_length ..

theorem vscaleVal_length (p : W32) (cap : Nat) (a : Fp) (n : Int) : (vscaleVal p cap a n).out.words.length ≤ 1 + cap := by
  unfold vscaleVal
  split <;> exact vfinish_length ..

/-- The cells that a list is written to by place are those of its keys. -/
theorem Store.read_foldl_zipIdx {w : Nat} (ls : List (BitVec w)) (key : Nat → Nat) (m : Store w) {n u : Nat}
    (hn : ls.length ≤ n) (inj : ∀ a, a < n → key a = key u → a = u) :
    Store.read (ls.zipIdx.foldl (fun m q => Store.write m (key q.2) q.1) m) (key u) = ls.getD u (Store.read m (key u)) := by
  induction ls using List.reverseRecOn with
  | nil => rfl
  | append_singleton ls v ih =>
    rw [List.length_append, List.length_singleton] at hn
    rw [List.zipIdx_append, List.foldl_append, Nat.zero_add, List.zipIdx_cons, List.zipIdx_nil, List.foldl_cons, List.foldl_nil]
    by_cases hu : ls.length = u
    · subst hu
      simp [Store.read_write_same]
    · rw [Store.read_write_other _ _ fun h => hu (inj _ (by omega) h), ih (by omega)]
      simp only [List.getD_eq_getElem?_getD]
      by_cases hlt : u < ls.length
      · rw [List.getElem?_append_left hlt]
      · rw [List.getElem?_eq_none (by omega), List.getElem?_eq_none (by simp; omega)]

/-- Writes elsewhere leave a cell alone. -/
theorem Store.read_foldl_write_out {α : Type} {w : Nat} (ls : List α) (key : α → Nat) (v : α → BitVec w) (m : Store w) {k : Nat}
    (h : ∀ a ∈ ls, key a ≠ k) : Store.read (ls.foldl (fun m a => Store.write m (key a) (v a)) m) k = Store.read m k := by
  induction ls generalizing m with
  | nil => rfl
  | cons a ls ih =>
    rw [List.foldl_cons, ih _ fun b hb => h b (by simp [hb]), Store.read_write_other _ _ (h a (by simp))]

namespace Machine

/-- A window after a variable-length result, as its readers see it. -/
theorem Group.winWord_setVlf (g : Group) (ex : W32) (d : BitVec 5) {v : Nat → List W32} (hv : ∀ l, (v l).length ≤ 9)
    (n : BitVec 5) {w l : Nat} (hw : w < 9) (hl : l < 32) : (g.setVlf ex d v).winWord n w l =
      if n = d ∧ ex.getLsbD l = true then (v l).getD w (g.winWord n w l) else g.winWord n w l := by
  have lane : ∀ (m : Store 32) (j : Nat), j < 32 →
      Store.read ((v j).zipIdx.foldl (fun m q => Store.write m (winKey d q.2 j) q.1) m) (winKey n w l) =
        if n = d ∧ l = j then (v l).getD w (Store.read m (winKey n w l)) else Store.read m (winKey n w l) := by
    intro m j hj
    by_cases h : n = d ∧ l = j
    · obtain ⟨rfl, rfl⟩ := h
      rw [if_pos ⟨rfl, rfl⟩]
      exact Store.read_foldl_zipIdx (v l) (fun i => winKey n i l) m (hv l) fun a ha hk => (winKey_inj ha hw hl hl hk).2.1
    · rw [if_neg h]
      refine Store.read_foldl_write_out _ _ _ _ fun q hq hk => h ?_
      obtain ⟨hn, -, hj'⟩ := winKey_inj (by have := List.snd_lt_of_mem_zipIdx hq; have := hv j; omega) hw hj hl hk
      exact ⟨hn.symm, hj'.symm⟩
  have lanes : ∀ (ls : List Nat) (m : Store 32), (∀ j ∈ ls, j < 32) →
      Store.read (ls.foldl (fun m j => (v j).zipIdx.foldl (fun m q => Store.write m (winKey d q.2 j) q.1) m) m) (winKey n w l) =
        if n = d ∧ l ∈ ls then (v l).getD w (Store.read m (winKey n w l)) else Store.read m (winKey n w l) := by
    intro ls
    induction ls with
    | nil => simp
    | cons j ls ih =>
      intro m hls
      rw [List.foldl_cons, ih _ fun i hi => hls i (by simp [hi]), lane m j (hls j (by simp))]
      grind
  refine (lanes (laneList ex) g.win fun j hj => (mem_laneList.1 hj).1).trans ?_
  simp only [mem_laneList, hl, true_and]
  rfl

/-! ## The traps of chapter 05 (05 R146 to R148) -/

@[simp] theorem Group.raiseAll_gid (g : Group) (ex : W32) (x : Nat → W32) : (g.raiseAll ex x).gid = g.gid :=
  (congrArg Group.gid (g.raiseAll_spec ex x).1 :)

@[simp] theorem Group.raiseAll_flags (g : Group) (ex : W32) (x : Nat → W32) : (g.raiseAll ex x).flags = g.flags :=
  (congrArg Group.flags (g.raiseAll_spec ex x).1 :)

/-- The group that raising leaves, by its FPST. -/
theorem Group.raiseAll_eq (g : Group) (ex : W32) (x : Nat → W32) :
    { g with fpst := (g.raiseAll ex x).fpst } = g.raiseAll ex x :=
  (congrArg (fun z : Group => { z with fpst := (g.raiseAll ex x).fpst }) (g.raiseAll_spec ex x).1).symm

theorem vlfTraps_bit (e : Env) (ex : W32) (x : Nat → W32) {l : Nat} (hl : l < 32) :
    (e.vlfTraps ex x).getLsbD l = (ex.getLsbD l && decide (x l &&& precEnables (e.precOf l) ≠ 0)) := by
  unfold Env.vlfTraps
  rw [BitVec.getLsbD_and, laneMask_bit, decide_eq_true hl, Bool.true_and, bne_zero]

theorem vlfTraps_eq_zero {e : Env} {ex : W32} {x : Nat → W32} : e.vlfTraps ex x = 0 ↔ ¬e.vlfTrap ex x := by
  constructor
  · rintro h0 ⟨l, hl, hex, hen⟩
    have hbit := vlfTraps_bit e ex x hl
    rw [h0, hex, decide_eq_true hen] at hbit
    simp at hbit
  · intro hn
    refine BitVec.eq_of_getLsbD_eq fun l hl => ?_
    rw [vlfTraps_bit e ex x hl]
    refine (Bool.eq_false_iff.2 fun h => ?_).trans BitVec.getLsbD_zero.symm
    rw [Bool.and_eq_true, decide_eq_true_eq] at h
    exact hn ⟨l, hl, h⟩

/-- A trap is of exhausted precision when one of its lanes has an enabled CF or WF (05 R147). -/
theorem vlfRecord_cause (e : Env) (lanes : W32) (cap : Nat) (v : Nat → Nat × W32) :
    ((∃ l, l < 32 ∧ lanes.getLsbD l = true ∧ (v l).2 &&& precEnables (e.precOf l) &&& (xCF ||| xWF) ≠ 0) →
      (vlfRecord e lanes cap v).cause = 4) ∧
    ((∀ l, l < 32 → lanes.getLsbD l = true → (v l).2 &&& precEnables (e.precOf l) &&& (xCF ||| xWF) = 0) →
      (vlfRecord e lanes cap v).cause = 5) := by
  unfold vlfRecord
  constructor
  · rintro ⟨l, hl, hlane, hx⟩
    have hany : ((laneList lanes).any fun l => (v l).2 &&& precEnables (e.precOf l) &&& (xCF ||| xWF) != 0) = true :=
      List.any_eq_true.2 ⟨l, mem_laneList.2 ⟨hl, hlane⟩, bne_iff_ne.2 hx⟩
    simp only [hany, if_true]
    rfl
  · intro hx
    have hany : ((laneList lanes).any fun l => (v l).2 &&& precEnables (e.precOf l) &&& (xCF ||| xWF) != 0) = false :=
      List.any_eq_false.2 fun l hl => by simp [hx l (mem_laneList.1 hl).1 (mem_laneList.1 hl).2]
    simp only [hany]
    rfl

section
variable {s : State} {e : Env} {ex : W32} {cap : Nat} {v : Nat → Nat × W32} {f : Group → Out}

/-- Where no lane traps, the conditions are raised and the word has its effect. -/
theorem vlfTrapOr_quiet (h : ¬e.vlfTrap ex fun l => (v l).2) :
    vlfTrapOr s e ex cap v f = f (e.g.raiseAll ex fun l => (v l).2) := if_pos (vlfTraps_eq_zero.2 h)

/-- Where a lane traps, the word parks with the record of the lanes that do. -/
theorem vlfTrapOr_traps {i : Instr} {k : BitVec 3} (hi : exec i s = vlfTrapOr s e (e.lanes k) cap v f) :
    VlfTraps s e i k fun l => (v l).2 := by
  intro ht
  have htrap : e.vlfTraps (e.lanes k) (fun l => (v l).2) ≠ 0 := fun h => vlfTraps_eq_zero.1 h ht
  obtain ⟨hframe, hraised⟩ := e.g.raiseAll_spec (e.lanes k) fun l => (v l).2
  obtain ⟨hfour, hfive⟩ := vlfRecord_cause e (e.vlfTraps (e.lanes k) fun l => (v l).2) cap v
  refine ⟨_, _, hi.trans (if_neg htrap), hframe, hraised, fun l hl => vlfTraps_bit e _ _ hl, ?_,
    fun hno => hfive fun l hl hlane => ?_⟩
  · rintro ⟨l, hl, hex, hx⟩
    refine hfour ⟨l, hl, ?_, hx⟩
    have hen : (v l).2 &&& precEnables (e.precOf l) ≠ 0 := fun h0 => hx (by simp [h0])
    rw [vlfTraps_bit e _ _ hl, hex, decide_eq_true hen]
    rfl
  · rw [vlfTraps_bit e _ _ hl, Bool.and_eq_true] at hlane
    exact hno l hl hlane.1
end

/-! ## The words of chapter 05 (05 R144, R145) -/

section
variable {s : State} {e : Env} (he : s.envOf s.focus = some e) {i : Instr} {k : BitVec 3}
include he

/-- A word whose result goes to a window. -/
theorem vlfWord_word {d : BitVec 5} {v : Env → W32 → Nat → Nat → VLane} (hi : exec i s = vlfWord s k d v)
    (hlen : ∀ p cap l, (v e p cap l).out.words.length ≤ 1 + cap) :
    VlfWord s e i k d fun l => v e (e.precOf l) (e.limbCap d) l := by
  have hi := hi.trans (withEnv_some he _)
  refine ⟨fun hquiet hcap => ?_, vlfTrapOr_traps hi⟩
  have hlen' : ∀ l, (v e (e.precOf l) (e.limbCap d) l).out.words.length ≤ 9 := fun l => (hlen _ _ l).trans (by omega)
  obtain ⟨hframe, hraised⟩ := e.g.raiseAll_spec (e.lanes k) fun l => (v e (e.precOf l) (e.limbCap d) l).out.exc
  obtain ⟨t, hnext, hdone⟩ := wordDone_done he
    ((e.g.raiseAll (e.lanes k) fun l => (v e (e.precOf l) (e.limbCap d) l).out.exc).setVlf (e.lanes k) d
      fun l => (v e (e.precOf l) (e.limbCap d) l).out.words) (Group.raiseAll_gid ..) (Group.raiseAll_flags ..)
  refine ⟨t, _, hi.trans ((vlfTrapOr_quiet hquiet).trans hnext), hdone, hraised,
    congrArg (fun z : Group => { z with win := e.g.win }) hframe, fun n w l hw hl => ?_⟩
  rw [Group.winWord_setVlf _ _ _ hlen' _ hw hl, ← Group.raiseAll_eq]
  rfl

/-- A word whose result is an ordinary one. -/
theorem vlfToLane_word {d : Dst} {w : Bool} {v : Env → Nat → W64 × W32} (hi : exec i s = vlfToLane s k d w v) :
    VlfToLane s e i k d w (v e) := by
  have hi := hi.trans (withEnv_some he _)
  refine ⟨fun hquiet => ?_, vlfTrapOr_traps hi⟩
  obtain ⟨-, hraised⟩ := e.g.raiseAll_spec (e.lanes k) fun l => (v e l).2
  have hwrote := (e.g.raiseAll (e.lanes k) fun l => (v e l).2).result_wrote (e.lanes k) d w fun l => (v e l).1
  have hfpst := congrArg Group.fpst hwrote.rest
  obtain ⟨t, hnext, hdone⟩ := wordDone_done he
    ((e.g.raiseAll (e.lanes k) fun l => (v e l).2).result (e.lanes k) d w fun l => (v e l).1)
    ((Group.result_gid ..).trans (Group.raiseAll_gid ..)) ((Group.result_flags ..).trans (Group.raiseAll_flags ..))
  refine ⟨t, _, hi.trans ((vlfTrapOr_quiet hquiet).trans hnext), hdone, hfpst ▸ hraised, ?_⟩
  rw [hfpst, Group.raiseAll_eq]
  exact hwrote

theorem vlfBin_word {x : VBin} {f : W32 → Nat → Fp → Fp → VLane} (hi : exec i s = vlfBin s x f)
    (hlen : ∀ p cap a b, (f p cap a b).out.words.length ≤ 1 + cap) :
    VlfWord s e i x.k x.d fun l => f (e.precOf l) (e.limbCap x.d) (e.vlf x.a l) (e.vlf x.b l) :=
  vlfWord_word he hi fun _ _ _ => hlen ..

theorem vlfUn_word {x : VUn} {f : W32 → Nat → Fp → VLane} (hi : exec i s = vlfUn s x f)
    (hlen : ∀ p cap a, (f p cap a).out.words.length ≤ 1 + cap) :
    VlfWord s e i x.k x.d fun l => f (e.precOf l) (e.limbCap x.d) (e.vlf x.a l) :=
  vlfWord_word he hi fun _ _ _ => hlen ..
end

/-- A number of I32 is the low half of its lane. -/
theorem toInt_i32 (v : W64) : IntTy.i32.toInt v = (v.setWidth 32 : W32).toInt := by
  rw [BitVec.toInt_eq_toNat_cond, BitVec.toNat_setWidth]
  by_cases h : 2 ^ 31 ≤ v.toNat % 2 ^ 32
  · rw [if_neg (by omega)]
    exact if_pos (decide_eq_true h)
  · rw [if_pos (by omega)]
    exact if_neg fun hd => h (of_decide_eq_true hd)

theorem hdrL_eq (h : W32) : hdrL h = h.toNat / 2 ^ 24 % 16 := by
  rw [hdrL, BitVec.extractLsb'_toNat, Nat.shiftRight_eq_div_pow]

/-- Settles O15: each word delivers within its destination's window, and traps as the words of chapter 05 do. -/
theorem vlfResults : Obligations.VlfResults := by
  unfold Obligations.VlfResults
  intro s e he
  refine ⟨fun x => ?_, fun x => ?_, fun k d a b c => ?_, fun k d a b => ?_, fun k d a t => ?_, fun p k d a b => ?_,
    fun k d a t r => ?_, fun k d a => ?_⟩
  · exact ⟨vlfBin_word he rfl fun _ _ _ _ => vfinish_length .., vlfBin_word he rfl fun _ _ _ _ => vfinish_length ..,
      vlfBin_word he rfl fun _ _ _ _ => vfinish_length .., vlfBin_word he rfl fun _ _ _ _ => vfinish_length ..⟩
  · exact ⟨vlfUn_word he rfl fun _ _ _ => vfinish_length .., vlfUn_word he rfl vrndIntVal_length,
      vlfUn_word he rfl fun _ _ _ => vfinish_length ..⟩
  · exact vlfWord_word he (v := fun e p cap l => vfmaVal p cap (e.vlf a l) (e.vlf b l) (e.vlf c l)) rfl
      fun _ _ _ => vfinish_length ..
  · simp only [← toInt_i32]
    exact vlfWord_word he (v := fun e p cap l => vscaleVal p cap (e.vlf a l) (IntTy.i32.toInt (e.src32 b l))) rfl
      fun _ _ _ => vscaleVal_length ..
  · exact vlfWord_word he (v := fun e p cap l => vcvtTovVal p cap t (e.src (numWide t) a l)) rfl
      fun _ _ _ => vfinish_length ..
  · exact vlfToLane_word he (v := fun e l =>
      (boolVal (Fp.pred p (e.vlf a l) (e.vlf b l)).1, (Fp.pred p (e.vlf a l) (e.vlf b l)).2)) rfl
  · exact vlfToLane_word he (v := fun e l => vcvtFromvVal t r (e.vlf a l)) rfl
  · simp only [← hdrL_eq]
    exact ⟨laneOp_word he rfl rfl, laneOp_word he rfl rfl, laneOp_word he rfl rfl⟩

end Machine

end Sys2Proof

namespace Sys2Proof.Machine

/-! ## Numbers in bytes and words -/

theorem leBytes_getElem (n v : Nat) {i : Nat} (hi : i < (leBytes n v).length) :
    (leBytes n v)[i] = BitVec.ofNat 8 (v / 256 ^ i) := by
  induction n generalizing v i with
  | zero => simp at hi
  | succ n ih =>
    cases i with
    | zero => simp [leBytes, bytesOfNat]
    | succ i =>
      have hi' : i < (leBytes n (v / 256)).length := by simp at hi ⊢; omega
      rw [pow_succ', ← Nat.div_div_eq_div_mul]
      exact ih _ hi'

/-- Cells that hold a number's bytes read as that number. -/
theorem leNat_readList {m : Store 8} {k n v : Nat} (h : ∀ i, i < n → (Store.read m (k + i)).toNat = v / 256 ^ i % 256) :
    leNat (Store.readList m k n) = v % 256 ^ n := by
  induction n generalizing k v with
  | zero => simp [Store.readList, leNat, Nat.mod_one]
  | succ n ih =>
    have hrest : leNat (Store.readList m (k + 1) n) = v / 256 % 256 ^ n := ih fun i hi => by
      rw [Nat.add_assoc, Nat.add_comm 1, h (i + 1) (by omega), pow_succ', Nat.div_div_eq_div_mul]
    have hfirst : (Store.read m k).toNat = v % 256 := by simpa using h 0 (by omega)
    rw [pow_succ', Nat.mod_mul, ← hrest, ← hfirst]
    rfl

/-- A word of a number that is made of words. -/
theorem wordsNat_word (ws : List W32) (j : Nat) : BitVec.ofNat 32 (wordsNat ws / 256 ^ (4 * j)) = ws.getD j 0 := by
  induction ws generalizing j with
  | nil => simp [wordsNat]
  | cons w ws ih =>
    have hcons : wordsNat (w :: ws) = w.toNat + 2 ^ 32 * wordsNat ws := rfl
    cases j with
    | zero =>
      refine BitVec.eq_of_toNat_eq ?_
      rw [BitVec.toNat_ofNat, hcons, Nat.mul_zero, pow_zero, Nat.div_one, Nat.add_mul_mod_self_left, Nat.mod_eq_of_lt w.isLt]
      rfl
    | succ j =>
      have hword : wordsNat (w :: ws) / 2 ^ 32 = wordsNat ws := by
        have := w.isLt
        omega
      rw [List.getD_cons_succ, ← ih, Nat.mul_succ, pow_add, Nat.mul_comm (256 ^ (4 * j)), ← Nat.div_div_eq_div_mul,
        show 256 ^ 4 = 2 ^ 32 by norm_num, hword]

/-! ## A store's bytes (log 144) -/

/-- A lane's data captures, one after the other, fill its row. -/
theorem foldl_writeList_captures (cs : List Cap) (base i : Nat) (m : Store 8) :
    (cs.zipIdx i).foldl (fun m q => Store.writeList m (base + 8 * q.2) (leBytes 8 q.1.value.toNat)) m =
      Store.writeList m (base + 8 * i) (cs.flatMap fun c => leBytes 8 c.value.toNat) := by
  induction cs generalizing i m with
  | nil => rfl
  | cons c cs ih =>
    rw [List.zipIdx_cons, List.foldl_cons, ih, List.flatMap_cons, Store.writeList_append, leBytes_length, Nat.mul_succ,
      Nat.add_assoc]

/-- The cells of rows 64 apart. -/
theorem read_foldl_rows {b : Nat → List Byte} (hb : ∀ l, (b l).length ≤ 64) {n l i : Nat} (hl : l < n)
    (hi : i < (b l).length) :
    Store.read ((List.range n).foldl (fun m l => Store.writeList m (64 * l) (b l)) []) (64 * l + i) = (b l)[i] := by
  induction n with
  | zero => omega
  | succ n ih =>
    rw [List.range_succ, List.foldl_append, List.foldl_cons, List.foldl_nil]
    by_cases h : l = n
    · subst h
      exact Store.read_writeList_in ..
    · have := hb l
      rw [Store.read_writeList_out _ _ _ _ (.inl (by omega)), ih (by omega)]

/-- Of what each of some sources contributes, the part that a test picks is that of one source. -/
theorem filter_flatMap_source {α : Type} {ls : List Nat} (hn : ls.Nodup) {f : Nat → List α} {p : α → Bool} {l : Nat}
    (hp : ∀ j, ∀ c ∈ f j, p c = (j == l)) : (ls.flatMap f).filter p = if l ∈ ls then f l else [] := by
  induction ls with
  | nil => rfl
  | cons j t ih =>
    obtain ⟨hj, ht⟩ := List.nodup_cons.1 hn
    rw [List.flatMap_cons, List.filter_append, ih ht]
    by_cases h : j = l
    · subst h
      rw [List.filter_eq_self.2 fun c hc => by simp [hp j c hc]]
      simp [hj]
    · rw [List.filter_eq_nil_iff.2 fun c hc => by simp [hp j c hc, h]]
      simp [Ne.symm h]

/-- The data captures of a lane. -/
def laneData (n v l : Nat) : List Cap :=
  (List.range ((n + 7) / 8)).map fun j => ⟨0, 1, l, BitVec.ofNat 64 (v / 2 ^ (64 * j))⟩

theorem filter_dataCaps {cs : List Cap} (hcs : ∀ c ∈ cs, c.index ≠ 1) (ex : W32) (n v : Nat → Nat) (l : Nat) :
    (cs ++ dataCaps ex n v).filter (fun c => c.kind == 0 && c.index == 1 && c.lane == l) =
      if l ∈ laneList ex then laneData (n l) (v l) l else [] := by
  have hnone : cs.filter (fun c => c.kind == 0 && c.index == 1 && c.lane == l) = [] :=
    List.filter_eq_nil_iff.2 fun c hc => by simp [hcs c hc]
  rw [List.filter_append, hnone, List.nil_append]
  refine filter_flatMap_source (laneList_nodup ex) (f := fun l => laneData (n l) (v l) l) fun j c hc => ?_
  obtain ⟨i, -, rfl⟩ := List.mem_map.1 hc
  rfl

theorem leBytes_add (a b v : Nat) : leBytes (a + b) v = leBytes a v ++ leBytes b (v / 256 ^ a) := by
  induction a generalizing v with
  | zero => simp [leBytes, bytesOfNat]
  | succ a ih =>
    rw [Nat.add_right_comm, pow_succ', ← Nat.div_div_eq_div_mul]
    exact congrArg (BitVec.ofNat 8 v :: ·) (ih _)

theorem leBytes_mod (n v : Nat) : leBytes n (v % 256 ^ n) = leBytes n v := by
  refine List.ext_getElem (by simp) fun i hi _ => ?_
  have hi' : i < n := by simpa using hi
  obtain ⟨d, rfl⟩ := Nat.exists_eq_add_of_lt hi'
  rw [leBytes_getElem, leBytes_getElem, Nat.add_assoc, pow_add, Nat.mod_mul_right_div_self]
  refine BitVec.eq_of_toNat_eq ?_
  rw [BitVec.toNat_ofNat, BitVec.toNat_ofNat, pow_succ', Nat.mod_mod_of_dvd _ (Dvd.intro _ rfl)]

/-- The bytes of a lane's data captures are those of its value. -/
theorem laneData_bytes (n v l : Nat) :
    ((laneData n v l).flatMap fun c => leBytes 8 c.value.toNat) = leBytes (8 * ((n + 7) / 8)) v := by
  unfold laneData
  induction (n + 7) / 8 with
  | zero => rfl
  | succ j ih =>
    rw [List.range_succ, List.map_append, List.flatMap_append, ih, Nat.mul_succ, leBytes_add, List.map_singleton,
      List.flatMap_singleton, BitVec.toNat_ofNat, show 2 ^ (64 * j) = 256 ^ (8 * j) by rw [Nat.pow_mul, Nat.pow_mul],
      show 2 ^ 64 = 256 ^ 8 by norm_num, leBytes_mod]

/-- A store's buffer holds the bytes of each executing lane's value. -/
theorem read_storeBuf {cs : List Cap} (hcs : ∀ c ∈ cs, c.index ≠ 1) {ex : W32} {n : Nat → Nat} (v : Nat → Nat)
    (hn : ∀ l, l < 32 → ex.getLsbD l = true → n l ≤ 64) {l i : Nat} (hl : l < 32) (hx : ex.getLsbD l = true) (hi : i < n l) :
    (Store.read (storeBuf (cs ++ dataCaps ex n v)) (64 * l + i)).toNat = v l / 256 ^ i % 256 := by
  have hbuf : storeBuf (cs ++ dataCaps ex n v) = (List.range 32).foldl (fun m l => Store.writeList m (64 * l)
      ((if l ∈ laneList ex then laneData (n l) (v l) l else []).flatMap fun c => leBytes 8 c.value.toNat)) [] := by
    unfold storeBuf
    simp only [filter_dataCaps hcs, foldl_writeList_captures, Nat.mul_zero, Nat.add_zero]
  have hrow : (if l ∈ laneList ex then laneData (n l) (v l) l else []) = laneData (n l) (v l) l :=
    if_pos (mem_laneList.2 ⟨hl, hx⟩)
  rw [hbuf, read_foldl_rows (fun j => ?_) hl (by rw [hrow, laneData_bytes, leBytes_length]; omega)]
  · simp only [hrow, laneData_bytes, leBytes_getElem, BitVec.toNat_ofNat]
  · split
    · next hj =>
      have := hn j (mem_laneList.1 hj).1 (mem_laneList.1 hj).2
      rw [laneData_bytes, leBytes_length]
      omega
    · simp

/-- A lane's words, when its bytes are those of a list of words. -/
theorem laneWord_of_bytes {o : Op} {ws : List W32} {l j : Nat}
    (h : ∀ i, i < 4 * ws.length → (Store.read o.buf (64 * l + i)).toNat = wordsNat ws / 256 ^ i % 256) (hj : j < ws.length) :
    o.laneWord l j = ws.getD j 0 := by
  have hnat : leNat (Store.readList o.buf (64 * l + 4 * j) 4) = wordsNat ws / 256 ^ (4 * j) % 256 ^ 4 :=
    leNat_readList fun i hi => by rw [Nat.add_assoc, h _ (by omega), pow_add, Nat.div_div_eq_div_mul]
  rw [Op.laneWord, hnat, ← wordsNat_word]
  exact BitVec.eq_of_toNat_eq (by simp)

/-! ## Stores accepted whole (06 R181) -/

/-- Where no command of a group has a fault, none is in the way of a release. -/
theorem State.linkFaulted_eq_none {s : State} (h : s.ops.all (fun o => o.fault.isNone) = true) (gid : Nat) (sc : Scope) :
    s.linkFaulted gid sc = none := by
  unfold State.linkFaulted
  refine List.findSome?_eq_none_iff.2 fun o ho => ?_
  rw [Option.isNone_iff_eq_none.1 (List.all_eq_true.1 h o ho)]
  simp

/-- The key at which a store-class word leaves a part: a tag's, for STBT. -/
def partKey (i : Instr) (key : Nat) : Nat :=
  match i with
  | .stbt .. => tagKey key
  | _ => key

/-- A part in the store queue, at its place. -/
def Part.queuedAt (s : State) (i : Instr) (p : Part) (key : Nat) (rn : Option (BitVec 12)) : Part :=
  { p with st := .queued, key := partKey i key, commut := rn.bind s.region? }

/-- A store-class word whose every part has its place is accepted. -/
theorem storeWord_accepts {s : State} {e : Env} {g : Group} {i : Instr} {ex : W32} {acc size : Nat} {caps : List Cap}
    {parts : List Part} {chk : Part → Where} {key : Part → Nat} {rn : Part → Option (BitVec 12)} (hne : parts ≠ [])
    (hclean : s.ops.all (fun o => o.fault.isNone) = true) (hat : ∀ p ∈ parts, chk p = .at (key p) (rn p)) :
    storeWord s e g i ex acc size caps parts chk = accept s e g { newOp s e i ex caps (parts.map fun p =>
      p.queuedAt s i (key p) (rn p)) with buf := storeBuf caps } := by
  have hws : parts.map (fun p => (p, chk p)) = parts.map fun p => (p, .at (key p) (rn p)) :=
    List.map_congr_left fun p hp => by rw [hat p hp]
  unfold storeWord
  rw [hws]
  simp only [List.filterMap_map, List.findSome?_map, List.map_map, Function.comp_def, s.linkFaulted_eq_none hclean]
  have hempty : parts.isEmpty = false := by simpa using hne
  have hfaults : parts.filterMap (fun _ => (none : Option FaultRec)) = [] := List.filterMap_eq_nil_iff.2 fun _ _ => rfl
  have hholds : parts.findSome? (fun _ => (none : Option (BitVec 32))) = none := List.findSome?_eq_none_iff.2 fun _ _ => rfl
  simp only [hempty, hfaults, hholds, ite_self, Bool.false_eq_true, if_false]
  congr 2
  refine List.map_congr_left fun p _ => ?_
  unfold Part.queuedAt partKey
  cases rn p <;> rfl

/-- A command that is not bound to a flag is accepted by its word. -/
theorem issues_of_accept {s : State} {e : Env} (he : s.envOf s.focus = some e) {i : Instr} {ex : W32} {caps : List Cap}
    {parts : List Part} {buf : Store 8} {P : Op → Prop}
    (hi : exec i s = accept s e e.g { newOp s e i ex caps parts with buf := buf })
    (hP : ∀ o : Op, o.ex = ex → o.caps = caps → o.parts = parts → o.buf = buf → P o) : Issues s e i ex P := by
  obtain ⟨-, hgid, -⟩ := State.envOf_some he
  obtain ⟨t, hnext, hacc⟩ := accept_accepted he e.g { newOp s e i ex caps parts with buf := buf } rfl rfl
  exact ⟨t, _, hi.trans hnext, hacc, ⟨rfl, hgid, rfl, rfl, rfl, rfl, rfl, rfl, rfl, rfl⟩, rfl, hP _ rfl rfl rfl rfl⟩

theorem laneList_ne_nil {ex : W32} (h : ex ≠ 0) : laneList ex ≠ [] := fun hnil =>
  h (lowestLane_eq_none.1 (by rw [lowestLane, hnil]; rfl))

/-- The queued parts of a lane. -/
theorem filter_lane_queuedAt (s : State) (i : Instr) (key : Part → Nat) (rn : Part → Option (BitVec 12)) (ps : List Part)
    (l : Nat) :
    (ps.map fun p => p.queuedAt s i (key p) (rn p)).filter (fun p => p.lane == l) =
      (ps.filter fun p => p.lane == l).map fun p => p.queuedAt s i (key p) (rn p) := List.filter_map

/-! ## VST (05 R160) -/

/-- The words that VST or STADD.v takes of a lane's operand, and the condition. -/
def Env.element (e : Env) (b : BitVec 5) (l : Nat) : List W32 × W32 :=
  vstWords (e.limbCap b) (e.g.winWord b 0 l) (e.winLimbs b l)

theorem vstWords_ne_nil (room : Nat) (h : W32) (ls : List W32) : (vstWords room h ls).1 ≠ [] := by
  unfold vstWords
  dsimp only
  split <;> simp [vlfSpecial]

/-- The accesses of a VST: each word of each executing lane's element. -/
def Env.vstParts (e : Env) (ex : W32) (a : Src) (b : BitVec 5) (x : MemX) : List Part :=
  (laneList ex).flatMap fun l =>
    (List.range (e.element b l).1.length).map fun j => newPart l x.space (e.src64 a l) (4 * j) 4 .waiting

theorem mem_vstParts {e : Env} {ex : W32} {a : Src} {b : BitVec 5} {x : MemX} {p : Part} : p ∈ e.vstParts ex a b x ↔
    ∃ l, l < 32 ∧ ex.getLsbD l = true ∧ ∃ j, j < (e.element b l).1.length ∧
      p = newPart l x.space (e.src64 a l) (4 * j) 4 .waiting := by
  simp only [Env.vstParts, List.mem_flatMap, mem_laneList, List.mem_map, List.mem_range, and_assoc, eq_comm]

theorem vstParts_ne_nil {ex : W32} (h : ex ≠ 0) (e : Env) (a : Src) (b : BitVec 5) (x : MemX) :
    e.vstParts ex a b x ≠ [] := by
  obtain ⟨l, hmem⟩ := List.exists_mem_of_ne_nil _ (laneList_ne_nil h)
  obtain ⟨hl, hx⟩ := mem_laneList.1 hmem
  exact List.ne_nil_of_mem (mem_vstParts.2 ⟨l, hl, hx, 0, List.length_pos_iff.2 (vstWords_ne_nil _ _ _), rfl⟩)

/-- What the queue has of a VST's lane: the words of its element, in order. -/
theorem vstParts_queued (s : State) (e : Env) {ex : W32} (k : BitVec 3) (a : Src) (b : BitVec 5) (x : MemX)
    (key : Nat → Nat → Nat) {l : Nat} (hl : l < 32) (hx : ex.getLsbD l = true) :
    ((((e.vstParts ex a b x).map fun p => p.queuedAt s (.vst k a b x) (key p.lane (p.off / 4)) none).filter fun p =>
      p.lane == l).map fun p => (p.st, p.key, p.off, p.len)) =
      (List.range (e.element b l).1.length).map fun j => (.queued, key l j, 4 * j, 4) := by
  have hlane : (e.vstParts ex a b x).filter (fun p => p.lane == l) =
      (List.range (e.element b l).1.length).map fun j => newPart l x.space (e.src64 a l) (4 * j) 4 .waiting := by
    unfold Env.vstParts
    rw [filter_lane_flatMap (laneList_nodup _) fun j p hp => by obtain ⟨i, -, rfl⟩ := List.mem_map.1 hp; rfl]
    exact if_pos (mem_laneList.2 ⟨hl, hx⟩)
  rw [filter_lane_queuedAt, hlane, List.map_map, List.map_map]
  refine List.map_congr_left fun j _ => ?_
  have hword : key l (4 * j / 4) = key l j := by rw [Nat.mul_div_cancel_left j (by omega)]
  exact congrArg (fun y => (PartSt.queued, y, 4 * j, 4)) hword

/-- The captures of a store of elements. -/
def Env.elementCaps (e : Env) (ex : W32) (a : Src) (b : BitVec 5) : List Cap :=
  capLanes ex 0 (e.src64 a) ++ dataCaps ex (fun l => 4 * (e.element b l).1.length) fun l => wordsNat (e.element b l).1

/-- The check of a VST's part. -/
def Env.vstCheck (e : Env) (s : State) (b : BitVec 5) (p : Part) : Where :=
  s.placePiece e.g e.t e.gr .store p (4 * (e.element b p.lane).1.length) 4

/-- A VST whose parts all have their places raises its conditions before it is accepted. -/
theorem exec_vst {s : State} {e : Env} (he : s.envOf s.focus = some e) (k : BitVec 3) (a : Src) (b : BitVec 5) (x : MemX)
    (hat : ∀ p ∈ e.vstParts (e.lanes k) a b x, ∃ key rn, e.vstCheck s b p = .at key rn) :
    exec (.vst k a b x) s = vlfTrapOr s e (e.lanes k) 0 (fun l => (0, (e.element b l).2)) fun g =>
      storeWord s e g (.vst k a b x) (e.lanes k) 1 x.size.code.toNat (e.elementCaps (e.lanes k) a b)
        (e.vstParts (e.lanes k) a b x) (e.vstCheck s b) := by
  refine (withEnv_some he _).trans (if_neg ?_)
  rw [Bool.not_eq_true, List.any_eq_false]
  intro p hp hbad
  obtain ⟨key, rn, hkey⟩ := hat p hp
  split at hbad
  · cases hbad
  · next hnot => exact hnot _ _ hkey

/-- A store of elements holds in its buffer each executing lane's words. -/
theorem laneWord_elementCaps {e : Env} {ex : W32} {a : Src} {b : BitVec 5} {o : Op}
    (hbuf : o.buf = storeBuf (e.elementCaps ex a b))
    (hlen : ∀ l, l < 32 → ex.getLsbD l = true → (e.element b l).1.length ≤ 9) {l j : Nat} (hl : l < 32)
    (hx : ex.getLsbD l = true) (hj : j < (e.element b l).1.length) : o.laneWord l j = (e.element b l).1.getD j 0 := by
  have hcs : ∀ c ∈ capLanes ex 0 (e.src64 a), c.index ≠ 1 := fun c hc => by
    obtain ⟨i, -, rfl⟩ := List.mem_map.1 hc
    exact Nat.zero_ne_one
  refine laneWord_of_bytes (fun i hi => ?_) hj
  rw [hbuf]
  exact read_storeBuf hcs (fun l => wordsNat (e.element b l).1) (fun l hl hx => by have := hlen l hl hx; omega) hl hx hi

section
variable {s : State} {e : Env} (he : s.envOf s.focus = some e) {k : BitVec 3}
  (hne : e.lanes k ≠ 0) (hclean : s.ops.all (fun o => o.fault.isNone) = true)
include he hne hclean

theorem vst_word (a : Src) (b : BitVec 5) (x : MemX) (key : Nat → Nat → Nat)
    (hquiet : ¬e.vlfTrap (e.lanes k) fun l => (e.element b l).2)
    (hat : ∀ l, l < 32 → (e.lanes k).getLsbD l = true → (e.element b l).1.length ≤ 9 ∧ ∀ j, j < (e.element b l).1.length →
      s.placePiece e.g e.t e.gr .store (newPart l x.space (e.src64 a l) (4 * j) 4 .waiting) (4 * (e.element b l).1.length) 4 =
        .at (key l j) none) :
    ∃ t o h, exec (.vst k a b x) s = .next t ∧ Accepted s e t o h ∧ o.ofWord s e (.vst k a b x) (e.lanes k) ∧ o.flag = none ∧
      { h with fpst := e.g.fpst } = e.g ∧ Raised e.g h.fpst (e.lanes k) (fun l => (e.element b l).2) ∧
      ∀ l, l < 32 → (e.lanes k).getLsbD l = true →
        (o.parts.filter fun p => p.lane == l).map (fun p => (p.st, p.key, p.off, p.len)) =
          (List.range (e.element b l).1.length).map (fun j => (.queued, key l j, 4 * j, 4)) ∧
        ∀ j, j < (e.element b l).1.length → o.laneWord l j = (e.element b l).1.getD j 0 := by
  obtain ⟨-, hgid, -⟩ := State.envOf_some he
  have hplace : ∀ p ∈ e.vstParts (e.lanes k) a b x, e.vstCheck s b p = .at (key p.lane (p.off / 4)) none := fun p hp => by
    obtain ⟨l, hl, hx, j, hj, rfl⟩ := mem_vstParts.1 hp
    have hoff : (newPart l x.space (e.src64 a l) (4 * j) 4 .waiting).off / 4 = j := Nat.mul_div_cancel_left j (by omega)
    rw [hoff]
    exact (hat l hl hx).2 j hj
  obtain ⟨hframe, hraised⟩ := e.g.raiseAll_spec (e.lanes k) fun l => (e.element b l).2
  obtain ⟨t, hnext, hacc⟩ := accept_accepted he (e.g.raiseAll (e.lanes k) fun l => (e.element b l).2)
    { newOp s e (.vst k a b x) (e.lanes k) (e.elementCaps (e.lanes k) a b) ((e.vstParts (e.lanes k) a b x).map fun p =>
        p.queuedAt s (.vst k a b x) (key p.lane (p.off / 4)) none) with buf := storeBuf (e.elementCaps (e.lanes k) a b) }
    (Group.raiseAll_gid ..) (Group.raiseAll_flags ..)
  refine ⟨t, _, _, ?_, hacc, ⟨rfl, hgid, rfl, rfl, rfl, rfl, rfl, rfl, rfl, rfl⟩, rfl, hframe, hraised,
    fun l hl hx => ⟨?_, ?_⟩⟩
  · rw [exec_vst he k a b x fun p hp => ⟨_, _, hplace p hp⟩, vlfTrapOr_quiet hquiet,
      storeWord_accepts (vstParts_ne_nil hne e a b x) hclean hplace]
    exact hnext
  · exact vstParts_queued s e k a b x key hl hx
  · exact fun j hj => laneWord_elementCaps rfl (fun l hl hx => (hat l hl hx).1) hl hx hj

/-- STADD.v: the contribution of a lane is its element, bound for the region of its page. -/
theorem staddV_issues (a : Src) (b : BitVec 5) (x : MemX) (key : Nat → Nat) (r : Region) (hfmt : r.fmt = 4)
    (hr : s.region? r.n = some r)
    (hat : ∀ l, l < 32 → (e.lanes k).getLsbD l = true →
      (e.element b l).1.length ≤ 9 ∧ (r.elemAt (key l)).isSome = true ∧
        s.placePiece e.g e.t e.gr .stadd (newPart l x.space (e.src64 a l) 0 4 .waiting) 4 4 = .at (key l) (some r.n)) :
    Issues s e (.staddV k a b x) (e.lanes k) fun o => ∀ l, l < 32 → (e.lanes k).getLsbD l = true →
      (∃ p, (o.parts.filter fun p => p.lane == l) = [p] ∧ p.st = .queued ∧ p.key = key l ∧ p.commut = some r) ∧
      ∀ j, j < (e.element b l).1.length → o.laneWord l j = (e.element b l).1.getD j 0 := by
  have hplace : ∀ p ∈ singleParts (e.lanes k) x.space 4 .waiting (e.src64 a),
      addCheck s e x.size true 4 p = .at (key p.lane) (some r.n) := fun p hp => by
    obtain ⟨l, hmem, rfl⟩ := List.mem_map.1 hp
    obtain ⟨hl, hx⟩ := mem_laneList.1 hmem
    obtain ⟨-, helem, hpl⟩ := hat l hl hx
    unfold addCheck
    simp only [hpl, hr, hfmt, helem, if_true, beq_self_eq_true, Bool.and_self]
    rfl
  have hparts : singleParts (e.lanes k) x.space 4 .waiting (e.src64 a) ≠ [] := fun hnil =>
    laneList_ne_nil hne (List.map_eq_nil_iff.1 hnil)
  refine issues_of_accept he ((withEnv_some he _).trans (storeWord_accepts hparts hclean hplace)) ?_
  intro o _ _ hops hbuf l hl hx
  refine ⟨⟨(newPart l x.space (e.src64 a l) 0 4 .waiting).queuedAt s (.staddV k a b x) (key l) (some r.n), ?_, rfl, rfl, hr⟩,
    fun j hj => laneWord_elementCaps hbuf (fun l hl hx => (hat l hl hx).1) hl hx hj⟩
  rw [hops, filter_lane_queuedAt s _ (fun p => key p.lane) fun _ => some r.n, filter_lane_singleParts _ _ _ _ _ hl, if_pos hx]
  rfl

theorem fence_issues (m : FenceOp) (sc : Scope) : Issues s e (.fence m k sc) (e.lanes k) fun o => o.parts = [] :=
  issues_of_accept he ((withEnv_some he _).trans (by rw [if_neg hne, s.linkFaulted_eq_none hclean])) fun _ _ _ hp _ => hp
end

section
variable {s : State} {e : Env} (he : s.envOf s.focus = some e) (k : BitVec 3)
include he

/-! ## DRAIN, PFX and FENCE (06 R189, R190, R192) -/

theorem drain_issuesPush (d : Dst) :
    IssuesPush s e (.drain k d) (e.lanes k) fun o => o.parts.length = if e.lanes k = 0 then 0 else 1 :=
  issuesPush_of_acceptFlag he (withEnv_some he _) fun o _ _ hp => by rw [hp]; split <;> rfl

/-- The one operand that DRAIN.r captures is the lowest executing lane's address. -/
theorem drainR_issuesPush (d : Dst) (a : Src) : IssuesPush s e (.drainR k d a) (e.lanes k) fun o =>
    o.parts.length = (if e.lanes k = 0 then 0 else 1) ∧ ∀ l, lowestLane (e.lanes k) = some l → o.base = e.src64 a l :=
  issuesPush_of_acceptFlag he (withEnv_some he _) fun o _ hc hp => by
    refine ⟨by rw [hp]; split <;> rfl, fun l hl => ?_⟩
    have hne : e.lanes k ≠ 0 := fun h => by simp [lowestLane_eq_none.2 h] at hl
    rw [if_neg hne, hl] at hc
    simp [Op.base, hc]

theorem pfx_issues (a : Src) (r : Req) : Issues s e (.pfx k a r) (e.lanes k) fun o => OneEach o .g (e.src64 a) 1 :=
  issues_of_accept he (withEnv_some he _) fun o hx hc hp _ => by
    rw [← hx] at hc hp
    exact oneEach_of_parts (cs := []) (hc.trans (List.append_nil _).symm) hp

theorem fence_completes (h : e.lanes k = 0) (m : FenceOp) (sc : Scope) : CompletesAs s e (.fence m k sc) e.g :=
  wordDone_word he ((withEnv_some he _).trans (if_pos h)) rfl rfl
end

/-! ## Lines that leave an L1 (06 R169, R191) -/

theorem State.line?_some {s : State} {core blk : Nat} {ln : L1Line} (h : s.line? core blk = some ln) :
    ln.core = core ∧ ln.blk = blk := by
  have := List.find?_some h
  simpa using this

@[simp] theorem State.evictLine_l1 (s : State) (ln : L1Line) :
    (s.evictLine ln).l1 = s.l1.filter fun l => !(l.core == ln.core && l.blk == ln.blk) := by
  unfold State.evictLine
  dsimp only
  split <;> rfl

@[simp] theorem State.evictLine_mem (s : State) (ln : L1Line) : (s.evictLine ln).mem = (s.writeBack ln).mem := by
  unfold State.evictLine
  dsimp only
  split <;> rfl

/-- An eviction changes memory, the lines and the directory alone. -/
theorem State.evictLine_eq (s : State) (ln : L1Line) : s.evictLine ln =
    { s with mem := (s.evictLine ln).mem, l1 := (s.evictLine ln).l1, dir := (s.evictLine ln).dir } := by
  unfold State.evictLine
  dsimp only
  split <;> rfl

/-- A line written back leaves its dirty words in memory, and nothing else. -/
theorem State.read_writeBack (s : State) (ln : L1Line) (y : Nat) : Store.read (s.writeBack ln).mem y =
    if ln.blk ≤ y ∧ y < ln.blk + 64 ∧ ln.dirty.getLsbD ((y - ln.blk) / 4) = true then Store.read ln.data (y - ln.blk)
    else Store.read s.mem y := by
  have key : ∀ (is : List Nat) (m : Mem),
      Store.read ((is.filterMap fun i => if ln.dirty.getLsbD (i / 4) then some (i, Store.read ln.data i) else none).foldl
        (fun m p => Store.write m (ln.blk + p.1) p.2) m) y =
      if ln.blk ≤ y ∧ y - ln.blk ∈ is ∧ ln.dirty.getLsbD ((y - ln.blk) / 4) = true then Store.read ln.data (y - ln.blk)
      else Store.read m y := by
    intro is
    induction is with
    | nil => simp
    | cons i is ih =>
      intro m
      by_cases hd : ln.dirty.getLsbD (i / 4) = true
      · rw [List.filterMap_cons_some (by rw [if_pos hd]), List.foldl_cons, ih, Store.read_write]
        grind
      · rw [List.filterMap_cons_none (by rw [if_neg hd]), ih]
        grind
  refine (key (List.range 64) s.mem).trans ?_
  have hrange : (ln.blk ≤ y ∧ y - ln.blk ∈ List.range 64 ∧ ln.dirty.getLsbD ((y - ln.blk) / 4) = true) ↔
      (ln.blk ≤ y ∧ y < ln.blk + 64 ∧ ln.dirty.getLsbD ((y - ln.blk) / 4) = true) := by
    rw [List.mem_range]
    exact ⟨fun ⟨hlo, hi, hd⟩ => ⟨hlo, by omega, hd⟩, fun ⟨hlo, hhi, hd⟩ => ⟨hlo, by omega, hd⟩⟩
  simp only [hrange]

/-- The line of a block, if a core has one, leaves that core's L1. -/
def State.evictBlock (core : Nat) (s : State) (blk : Nat) : State :=
  match s.line? core blk with
  | some ln => s.evictLine ln
  | none => s

/-- The byte that a core's L1 holds dirty at a key. -/
def State.dirtyByte (s : State) (core y : Nat) : Option Byte :=
  (s.line? core (blockOf y)).bind fun ln =>
    if ln.dirty.getLsbD ((y - blockOf y) / 4) then some (Store.read ln.data (y - blockOf y)) else none

@[simp] theorem blockOf_add {blk i : Nat} (hb : 64 ∣ blk) (hi : i < 64) : blockOf (blk + i) = blk := by
  unfold blockOf; omega

theorem State.dirtyByte_of_dirty {s : State} {core blk i : Nat} {ln : L1Line} (hb : 64 ∣ blk) (hi : i < 64)
    (hln : s.line? core blk = some ln) (hd : ln.dirty.getLsbD (i / 4) = true) :
    s.dirtyByte core (blk + i) = some (Store.read ln.data i) := by
  unfold State.dirtyByte
  rw [blockOf_add hb hi, hln, Nat.add_sub_cancel_left]
  exact if_pos hd

theorem State.dirtyByte_of_clean {s : State} {core y : Nat}
    (h : ∀ ln, s.line? core (blockOf y) = some ln → ln.dirty.getLsbD ((y - blockOf y) / 4) = false) :
    s.dirtyByte core y = none := by
  unfold State.dirtyByte
  cases hln : s.line? core (blockOf y) with
  | none => rfl
  | some ln => exact if_neg (by rw [h ln hln]; exact Bool.false_ne_true)

theorem State.evictBlock_eq (core : Nat) (s : State) (blk : Nat) : s.evictBlock core blk =
    { s with mem := (s.evictBlock core blk).mem, l1 := (s.evictBlock core blk).l1, dir := (s.evictBlock core blk).dir } := by
  unfold State.evictBlock
  split
  · exact State.evictLine_eq ..
  · rfl

theorem State.line?_evictBlock (core : Nat) (s : State) (blk c b : Nat) : (s.evictBlock core blk).line? c b =
    if c = core ∧ b = blk then none else s.line? c b := by
  unfold State.evictBlock
  split
  case h_1 ln hln =>
    obtain ⟨rfl, rfl⟩ := State.line?_some hln
    unfold State.line?
    rw [State.evictLine_l1, List.find?_filter]
    split
    next h =>
      obtain ⟨rfl, rfl⟩ := h
      exact List.find?_eq_none.2 fun l _ => by cases l.core == ln.core && l.blk == ln.blk <;> simp
    next h =>
      congr 1
      funext l
      by_cases hl : l.core = c ∧ l.blk = b
      · obtain ⟨rfl, rfl⟩ := hl
        have hother : (l.core == ln.core && l.blk == ln.blk) = false := Bool.eq_false_iff.2 fun hs => h (by simpa using hs)
        simp [hother]
      · have hother : (l.core == c && l.blk == b) = false := Bool.eq_false_iff.2 fun hs => hl (by simpa using hs)
        simp [hother]
  case h_2 hln =>
    split
    next h => obtain ⟨rfl, rfl⟩ := h; exact hln
    next => rfl

theorem State.read_evictBlock (core : Nat) (s : State) {blk : Nat} (hblk : 64 ∣ blk) (y : Nat) :
    Store.read (s.evictBlock core blk).mem y =
      if blockOf y = blk then (s.dirtyByte core y).getD (Store.read s.mem y) else Store.read s.mem y := by
  unfold State.evictBlock State.dirtyByte
  split
  case h_1 ln hln =>
    obtain ⟨rfl, rfl⟩ := State.line?_some hln
    rw [State.evictLine_mem, State.read_writeBack]
    by_cases h : blockOf y = ln.blk
    · obtain ⟨hlo, hhi⟩ : ln.blk ≤ y ∧ y < ln.blk + 64 := by unfold blockOf at h; omega
      rw [if_pos h, h, hln]
      by_cases hd : ln.dirty.getLsbD ((y - ln.blk) / 4) = true
      · simp [hlo, hhi, hd]
      · simp [hd]
    · rw [if_neg h, if_neg]
      rintro ⟨hlo, hhi, -⟩
      exact h (by unfold blockOf; omega)
  case h_2 hln =>
    split
    next h => rw [h, hln]; rfl
    next => rfl

section
variable (core : Nat) (bs : List Nat)

theorem evictBlocks_eq (s : State) : bs.foldl (State.evictBlock core) s = { s with
    mem := (bs.foldl (State.evictBlock core) s).mem
    l1 := (bs.foldl (State.evictBlock core) s).l1
    dir := (bs.foldl (State.evictBlock core) s).dir } := by
  induction bs generalizing s with
  | nil => rfl
  | cons b bs ih =>
    exact (ih _).trans (congrArg (fun u : State => { u with
      mem := (bs.foldl (State.evictBlock core) (s.evictBlock core b)).mem
      l1 := (bs.foldl (State.evictBlock core) (s.evictBlock core b)).l1
      dir := (bs.foldl (State.evictBlock core) (s.evictBlock core b)).dir }) (State.evictBlock_eq core s b))

theorem line?_evictBlocks (s : State) (c b : Nat) : (bs.foldl (State.evictBlock core) s).line? c b =
    if c = core ∧ b ∈ bs then none else s.line? c b := by
  induction bs generalizing s with
  | nil => simp
  | cons b' bs ih =>
    rw [List.foldl_cons, ih, State.line?_evictBlock]
    grind

theorem read_evictBlocks (s : State) (hbs : ∀ b ∈ bs, 64 ∣ b) (y : Nat) :
    Store.read (bs.foldl (State.evictBlock core) s).mem y =
      if blockOf y ∈ bs then (s.dirtyByte core y).getD (Store.read s.mem y) else Store.read s.mem y := by
  induction bs generalizing s with
  | nil => simp
  | cons b bs ih =>
    have hb : 64 ∣ b := hbs b (by simp)
    rw [List.foldl_cons, ih _ fun b hb => hbs b (by simp [hb]), State.read_evictBlock core s hb]
    by_cases h : blockOf y = b
    · have hdirty : (s.evictBlock core b).dirtyByte core y = none := by
        unfold State.dirtyByte
        rw [State.line?_evictBlock, if_pos ⟨rfl, h⟩]
        rfl
      rw [hdirty]
      simp [h]
    · have hdirty : (s.evictBlock core b).dirtyByte core y = s.dirtyByte core y := by
        unfold State.dirtyByte
        rw [State.line?_evictBlock, if_neg fun hb => h hb.2]
      simp [h, hdirty]
end

/-! ## INVL (06 R191) -/

/-- The block that a place names. -/
def Where.block? : Where → Option Nat
  | .at key _ => some (blockOf key)
  | _ => none

/-- The blocks that INVL.line names. -/
def Env.namedBlocks (e : Env) (s : State) (ex : W32) (a : Src) : List Nat :=
  (laneList ex).filterMap fun l => (s.global e.t.core .query (e.src64 a l)).block?

theorem mem_namedBlocks {e : Env} {s : State} {ex : W32} {a : Src} {b : Nat} : b ∈ e.namedBlocks s ex a ↔
    ∃ l key rn, l < 32 ∧ ex.getLsbD l = true ∧ s.global e.t.core .query (e.src64 a l) = .at key rn ∧ blockOf key = b := by
  have hblock : ∀ w : Where, w.block? = some b ↔ ∃ key rn, w = .at key rn ∧ blockOf key = b := fun w => by
    cases w <;> simp [Where.block?]
  simp only [Env.namedBlocks, List.mem_filterMap, mem_laneList, hblock]
  grind

theorem dvd_of_mem_namedBlocks {e : Env} {s : State} {ex : W32} {a : Src} {b : Nat} (h : b ∈ e.namedBlocks s ex a) :
    64 ∣ b := by
  obtain ⟨l, key, rn, -, -, -, rfl⟩ := mem_namedBlocks.1 h
  exact Dvd.intro_left _ rfl

section
variable {s : State} {e : Env} (he : s.envOf s.focus = some e) (k : BitVec 3)
include he

theorem exec_invlLine (a : Src)
    (hnone : ∀ l page, l < 32 → (e.lanes k).getLsbD l = true → s.global e.t.core .query (e.src64 a l) ≠ .hold page) :
    exec (.invlLine k a) s = wordDone ((e.namedBlocks s (e.lanes k) a).foldl (State.evictBlock e.t.core) s) e e.g := by
  refine (withEnv_some he _).trans ?_
  dsimp only
  split
  case h_1 page hfind =>
    obtain ⟨w, hw, hpage⟩ := List.exists_of_findSome?_eq_some hfind
    obtain ⟨l, hmem, rfl⟩ := List.mem_map.1 hw
    obtain ⟨hl, hx⟩ := mem_laneList.1 hmem
    split at hpage
    · next page' hhold => exact absurd hhold (hnone l page' hl hx)
    · cases hpage
  case h_2 =>
    refine congrArg (fun u => wordDone u e e.g) ?_
    unfold Env.namedBlocks
    rw [List.foldl_filterMap, List.foldl_map]
    congr 1
    funext u l
    cases s.global e.t.core .query (e.src64 a l) <;> rfl

theorem invlLine_word (a : Src)
    (hnone : ∀ l page, l < 32 → (e.lanes k).getLsbD l = true → s.global e.t.core .query (e.src64 a l) ≠ .hold page) :
    ∃ t u, exec (.invlLine k a) s = .next t ∧ Done u e t e.g ∧ u = { s with mem := u.mem, l1 := u.l1, dir := u.dir } ∧
      (∀ c b, u.line? c b = if c = e.t.core ∧ b ∈ e.namedBlocks s (e.lanes k) a then none else s.line? c b) ∧
      ∀ y, Store.read u.mem y = if blockOf y ∈ e.namedBlocks s (e.lanes k) a
        then (s.dirtyByte e.t.core y).getD (Store.read s.mem y) else Store.read s.mem y := by
  have hframe := evictBlocks_eq e.t.core (e.namedBlocks s (e.lanes k) a) s
  have he' : ((e.namedBlocks s (e.lanes k) a).foldl (State.evictBlock e.t.core) s).envOf
      ((e.namedBlocks s (e.lanes k) a).foldl (State.evictBlock e.t.core) s).focus = some e := by
    rw [hframe]
    exact he
  obtain ⟨t, hnext, hdone⟩ := wordDone_done he' e.g rfl rfl
  exact ⟨t, _, (exec_invlLine he k a hnone).trans hnext, hdone, hframe, line?_evictBlocks _ _ s,
    read_evictBlocks _ _ s fun b hb => dvd_of_mem_namedBlocks hb⟩

theorem invlSi_word : ∃ t, exec (.invlSi k) s = .next t ∧
    Done (if e.lanes k = 0 then s else { s with
      l1 := s.l1.filter fun (ln : L1Line) => !(ln.core == e.t.core && ln.st == LineSt.si) })
      e t e.g := by
  have he' : (if e.lanes k = 0 then s else s.dropSi e.t.core).envOf
      (if e.lanes k = 0 then s else s.dropSi e.t.core).focus = some e := by
    split <;> exact he
  obtain ⟨t, hnext, hdone⟩ := wordDone_done he' e.g rfl rfl
  exact ⟨t, (withEnv_some he _).trans hnext, hdone⟩

end

/-- Settles O19: VST and STADD.v as stores of elements, the commands by their records, and INVL by the lines that leave. -/
theorem otherMemoryWords : Obligations.OtherMemoryWords := by
  unfold Obligations.OtherMemoryWords
  intro s e he k
  refine ⟨fun a b x key hne hquiet hclean hat => vst_word he hne hclean a b x key hquiet hat,
    fun a b x key r hne hclean hfmt hr hat => staddV_issues he hne hclean a b x key r hfmt hr hat,
    drain_issuesPush he k, drainR_issuesPush he k, pfx_issues he k, fun m sc hne hclean => fence_issues he hne hclean m sc,
    fun m sc h => fence_completes he k h m sc, invlSi_word he k, fun a hnone => ?_⟩
  obtain ⟨t, u, hnext, hdone, hframe, hline, hread⟩ := invlLine_word he k a hnone
  refine ⟨t, u, hnext, hdone, hframe, fun b hb => ?_, fun c b hcb => ?_, fun b ln i hb hln hi hdirty => ?_, fun y hclean => ?_⟩
  · exact (hline _ b).trans (if_pos ⟨rfl, mem_namedBlocks.2 hb⟩)
  · exact (hline c b).trans (if_neg fun ⟨hc, hb⟩ => hcb.elim (fun hne => hne hc) fun hnot => hnot (mem_namedBlocks.1 hb))
  · have hmem := mem_namedBlocks.2 hb
    have hdvd := dvd_of_mem_namedBlocks hmem
    rw [hread, blockOf_add hdvd hi, if_pos hmem, State.dirtyByte_of_dirty hdvd hi hln hdirty]
    rfl
  · rw [hread]
    split
    · next hmem =>
      have hin : blockOf y ≤ y ∧ y < blockOf y + 64 := by unfold blockOf; omega
      rw [State.dirtyByte_of_clean fun ln hln => hclean (blockOf y) ln (mem_namedBlocks.1 hmem) hln hin]
      rfl
    · rfl

end Sys2Proof.Machine

namespace Sys2Proof.Machine

/-! ## A store that acquires and releases (06 R181, 07 R201, R207) -/

/-- A part that lane 0 has stored to global memory, and whose third send a link has lost (15 R415). -/
def lostPart : Part := { newPart 0 .g 0 0 4 (.departed 0) with timeouts := 3, lostReq := true }

/-- A group about to run a word, its earlier .wt store waiting for the delivery of its link fault. -/
def lostStoreState : State :=
  let s := { State.reset.placeWord 0 with focus := 1 }
  let o := { newOp s (placedEnv State.reset 0) (.st 0 (.sp .zero) (.sp .zero) ⟨.g, .wt, .grp, .relaxed, .b32⟩) 1 [] [lostPart]
    with id := 0 }
  { s with ops := [o.addFault (linkFault s o 0 lostPart)] }

/-- A store of a word of the scratchpad by every lane, with the order .ar at the scope of the domain. -/
def acquireReleaseX : MemX := ⟨.s, .own, .dom, .ar, .b32⟩

theorem lostStoreState_env : lostStoreState.envOf lostStoreState.focus = some (placedEnv State.reset 0) := by decide

theorem acquireRelease_places : ∀ l, l < 32 → ((placedEnv State.reset 0).lanes 0).getLsbD l = true →
    lostStoreState.placePiece (placedEnv State.reset 0).g (placedEnv State.reset 0).t (placedEnv State.reset 0).gr .store
      (newPart l .s ((placedEnv State.reset 0).src64 (.sp .zero) l) 0 4 .waiting) 4 4 = .at (spadKey 0 0) none := by decide

/-- The commands of the state that a step leaves. -/
def opsAfter : Out → List Op
  | .next t => t.ops
  | _ => []

/-- The store releases, so its group takes the link fault of the earlier store in its scope (07 R207): the group's grid,
without a handler, is killed, and with it the faulted command goes. -/
theorem acquireRelease_not_accepted :
    opsAfter (exec (.st 0 (.sp .zero) (.sp .zero) acquireReleaseX) lostStoreState) = [] := by rfl

/-- Refutes O18: where the order is not .rel the statement asks for no group without faults, but a store with .ar releases
too.  .ar exists for atomics only (13 R361), which the statement's `x` does not say. -/
theorem not_storesIssue : ¬ Obligations.StoresIssue := by
  intro h
  obtain ⟨hst, -⟩ := h lostStoreState (placedEnv State.reset 0) lostStoreState_env 0 (.sp .zero) (.sp .zero) acquireReleaseX
    (by decide) (.inl (by decide))
  obtain ⟨t, o, hexec, hacc, -⟩ := hst (fun _ => spadKey 0 0) (by decide) acquireRelease_places
  have hops : t.ops = lostStoreState.ops ++ [o] := (congrArg State.ops hacc.rest).trans rfl
  have hnone := acquireRelease_not_accepted
  rw [hexec] at hnone
  exact absurd (hops.symm.trans hnone) (by simp)

end Sys2Proof.Machine

namespace Sys2Proof.Machine

/-! ## A piece of a load at its place (06 R171, R173, R182, 07 R198) -/

theorem applyOverlays_nil (base : List Byte) : applyOverlays base [] = base := by
  unfold applyOverlays
  exact List.zipIdx_map_fst 0 base

/-- Bytes of which a load has taken none are given it as they are read (06 R182). -/
theorem Op.alike_eq {o : Op} {key : Nat} {l : List Byte}
    (h : ∀ q ∈ o.parts, q.st = .done → key + l.length ≤ q.key ∨ q.key + q.len ≤ key) : o.alike key l = l := by
  have hnone : ∀ q ∈ l.zipIdx, o.parts.find? (fun x => x.st == .done && x.key ≤ key + q.2 && key + q.2 < x.key + x.len) = none := by
    intro q hq
    have hlt : q.2 < l.length := by have := List.snd_lt_of_mem_zipIdx hq; omega
    refine List.find?_eq_none.2 fun x hx hfound => ?_
    simp only [Bool.and_eq_true, beq_iff_eq, decide_eq_true_eq] at hfound
    have := h x hx hfound.1.1
    omega
  unfold Op.alike
  calc (l.zipIdx).map _ = (l.zipIdx).map Prod.fst := List.map_congr_left fun q hq => by rw [hnone q hq]
    _ = l := List.zipIdx_map_fst 0 l

/-- A load that acquires nothing leaves the caches alone. -/
theorem State.acquireFor_eq (s : State) {o : Op} (h : o.acquires = false) : s.acquireFor o = s := by
  unfold State.acquireFor
  rw [h]
  rfl

/-- The bytes that a load takes at the home, with no store of its core on the way: outside .g, or of an .nc load whose
line its L1 does not hold, those of memory. -/
theorem State.loadBytes_memory {s : State} {o : Op} {key n : Nat} {r : Req} (hov : s.overlays o.core o.gid o.id key n = [])
    (hbm : isHbm key = true → s.line? o.core (blockOf key) = none ∧ r = .nc) :
    s.loadBytes o key n r = (s.bytes key n, s) := by
  unfold State.loadBytes
  rw [hov]
  dsimp only
  rw [applyOverlays_nil]
  cases hk : isHbm key with
  | false => rfl
  | true =>
    obtain ⟨hline, rfl⟩ := hbm hk
    rw [hline]
    rfl

/-- A part that alone waits has no companions. -/
theorem State.companions_nil {s : State} {o : Op} {i blk : Nat} {p : Part} {size : Part → Nat × Nat} {ok : Part → Bool}
    (h : ∀ j q, j ≠ i → o.parts[j]? = some q → q.st ≠ .waiting) : s.companions o i blk p size ok = [] := by
  unfold State.companions
  split
  · rfl
  · refine List.filterMap_eq_nil_iff.2 fun q hq => if_neg fun hw => ?_
    simp only [Bool.and_eq_true, bne_iff_ne, ne_eq, beq_iff_eq] at hw
    exact h q.2 q.1 hw.1.1 (List.mem_zipIdx_iff_getElem?.1 hq) hw.1.2

/-- A piece that waits alone takes the bytes of memory, and nothing else changes. -/
theorem takePiece_memory {s : State} {o : Op} {i key : Nat} {p : Part} {r : Req} {size : Part → Nat × Nat} {ok : Part → Bool}
    (hacq : o.acquires = false) (hhold : s.scoreHold o.gid o.id key p.len false = false) (hpass : s.passes o.core p key = true)
    (hpoison : s.poisoned key = false) (hov : s.overlays o.core o.gid o.id key p.len = [])
    (hbm : isHbm key = true → s.line? o.core (blockOf key) = none ∧ (s.dirOf (blockOf key)).owner = none ∧ r = .nc)
    (halone : ∀ j q, j ≠ i → o.parts[j]? = some q → q.st ≠ .waiting)
    (hfresh : ∀ q ∈ o.parts, q.st = .done → key + p.len ≤ q.key ∨ q.key + q.len ≤ key) :
    takePiece s o i p key r size ok = .next (s.setOp { o with
      parts := o.parts.set i { p with st := .done, key := key, asked := false }
      buf := Store.writeList o.buf (64 * p.lane + p.off) (s.bytes key p.len) }) := by
  have howner : (if isHbm key && !s.lineHit o.core key r then s.otherOwner o.core (blockOf key) else none) = none := by
    split
    · next h =>
      have hnone := (hbm (Bool.and_eq_true_iff.1 h).1).2.1
      unfold State.otherOwner
      rw [hnone]
    · rfl
  have htake : takeOne r (s, o) (i, p, key) = (s, { o with
      parts := o.parts.set i { p with st := .done, key := key, asked := false }
      buf := Store.writeList o.buf (64 * p.lane + p.off) (s.bytes key p.len) }) := by
    have hbytes := State.loadBytes_memory hov fun h => ⟨(hbm h).1, (hbm h).2.2⟩
    unfold takeOne
    dsimp only
    rw [hbytes, Op.alike_eq (l := s.bytes key p.len) (by simpa [State.bytes] using hfresh)]
    rfl
  unfold takePiece request
  rw [s.acquireFor_eq hacq]
  dsimp only
  rw [hhold, hpass, hpoison, howner, State.companions_nil halone]
  exact congrArg (fun t : State × Op => Host.Outcome.next (t.1.setOp t.2)) htake

/-- The home answers one part of a command. -/
theorem exec_homeRequest {s : State} {op i : Nat} {o : Op} {p : Part} (ho : s.op? op = some o) (hp : o.parts[i]? = some p) :
    exec (.homeRequest op i) s = homePart s o i p false := by
  change execHomeRequest op i s = _
  unfold execHomeRequest
  rw [needSome_eq _ ho, needSome_eq _ hp]

/-- A part of an LD whose place is not commutative takes its piece there. -/
theorem homePart_ld {s : State} {o : Op} {i key : Nat} {p : Part} {k : BitVec 3} {d : Dst} {a : Src} {x : MemX} {sx : Bool}
    {g : Group} {tm : Team} {gr : Grid} (hi : o.instr = .ld k d a x sx) (how : s.ownerOf o = some (g, tm, gr))
    (hst : p.st = .waiting) (hheld : p.held = none) (hclear : s.loadClear o = true) (hatoms : s.atomsClear o key = true)
    (hplace : p.site (s.placePiece g tm gr .load p x.size.bytes (sizeAlign x.size)) = .at key none) :
    homePart s o i p false =
      takePiece s o i p key (o.reqAt s p key) (fun _ => (x.size.bytes, sizeAlign x.size)) fun _ => true := by
  have hacc : o.acc = .load := by unfold Op.acc; rw [hi]
  unfold homePart
  rw [hi]
  change loadPart s o i p _ _ = _
  unfold loadPart atPlace
  rw [needSome_eq _ how, need_eq _ (by rw [hst, hheld, hclear]; rfl), hacc, hplace]
  exact need_eq _ hatoms

/-! ## The completion of a load (01 R18, 02 R39, R42, 06 R179) -/

/-- The capture of a completion changes the monitors alone (15 R427). -/
theorem State.captureDone_eq (s : State) (o : Op) : s.captureDone o = { s with monitors := (s.captureDone o).monitors } := by
  unfold State.captureDone
  split
  · split <;> rfl
  · rfl

/-- A command without a fault, of a group that is not parked, completes by its own rule, and the completion is captured. -/
theorem exec_operationComplete_captured {s t : State} {op : Nat} {o : Op} {g : Group} (ho : s.op? op = some o)
    (hg : s.group? o.gid = some g) (hst : g.st = .ready) (hf : o.fault = none) (hstage : o.stage ≠ 99)
    (hcopy : o.isCopy = false) (h : completeOp s o = .next t) : exec (.operationComplete op) s = .next (t.captureDone o) := by
  have takes : s.takesResults o.gid = true := by simp [State.takesResults, hg, hst]
  refine needSome_next.2 ⟨o, ho, need_next.2 ⟨by rw [hf, takes, hcopy]; rfl, ?_⟩⟩
  rw [if_neg (by simpa using hstage), h]
  rfl

theorem Group.writeDst_eq (g : Group) (ex : W32) (d : Dst) (wide : Bool) (v : Nat → W64) :
    g.writeDst ex d wide v = { g with win := (g.writeDst ex d wide v).win, scal := (g.writeDst ex d wide v).scal } := by
  unfold Group.writeDst
  cases d with
  | queue => rfl
  | w n => cases wide <;> rfl
  | s n => cases lowestLane ex <;> rfl

theorem Group.winWord_writeDst (g : Group) {ex : W32} (m : BitVec 5) (wide : Bool) (v : Nat → W64) {l : Nat} (hl : l < 32)
    (hx : ex.getLsbD l = true) : (g.writeDst ex (.w m) wide v).winWord m 0 l = (v l).setWidth 32 := by
  have hlow : (g.setWin ex m 0 fun l => (v l).setWidth 32).winWord m 0 l = (v l).setWidth 32 := by
    rw [Group.winWord_setWin _ _ _ _ _ _ _ _ (by omega) (by omega) hl, if_pos ⟨rfl, rfl, hx⟩]
  cases wide with
  | false => exact hlow
  | true => exact (Group.winWord_setWin _ _ _ _ _ _ _ _ (by omega) (by omega) hl).trans ((if_neg (by simp)).trans hlow)

theorem Group.scal_writeDst (g : Group) {ex : W32} (m : BitVec 6) (wide : Bool) (v : Nat → W64) {l : Nat}
    (hl : lowestLane ex = some l) : Store.read (g.writeDst ex (.s m) wide v).scal m.toNat = v l := by
  unfold Group.writeDst
  rw [hl]
  exact Store.read_write_same _ _ _

section
variable (g : Group) (o : Op) (d : Dst) (wide : Bool) (v : Nat → W64)

/-- A late result changes the queue, the windows and the scalars alone. -/
theorem Group.late_eq : g.late o d wide v = { g with
    queue := (g.late o d wide v).queue, win := (g.late o d wide v).win, scal := (g.late o d wide v).scal } := by
  unfold Group.late
  dsimp only
  rw [Group.writeDst_eq]

theorem Group.late_keeps : (g.late o d wide v).run = g.run ∧ (g.late o d wide v).lpc = g.lpc ∧
    (g.late o d wide v).live = g.live ∧ (g.late o d wide v).masks = g.masks ∧ (g.late o d wide v).prec = g.prec ∧
    (g.late o d wide v).fpst = g.fpst ∧ (g.late o d wide v).carry = g.carry := by
  rw [Group.late_eq]
  exact ⟨rfl, rfl, rfl, rfl, rfl, rfl, rfl⟩

/-- A late result leaves the other queue entries as they are (02 R39). -/
theorem Group.age_late_other {b : Nat} (hb : b ≠ g.pushes - o.pushAt) (l : Nat) : (g.late o d wide v).age b l = g.age b l := by
  unfold Group.late Group.age
  dsimp only
  rw [(Group.writeDst_queue ..).1, List.getD_eq_getElem?_getD, List.getElem?_set_ne (Ne.symm hb), ← List.getD_eq_getElem?_getD]
end

/-- The bytes of a run of cells as a number, added up one by one. -/
theorem leNat_readList_eq_foldl (m : Store 8) (k n : Nat) :
    leNat (Store.readList m k n) = (List.range n).foldl (fun acc i => acc + (Store.read m (k + i)).toNat * 256 ^ i) 0 := by
  have hsum : ∀ (f : Nat → Nat) (n : Nat), (List.range n).foldl (fun acc i => acc + f i) 0 = ∑ i ∈ Finset.range n, f i := by
    intro f n
    induction n with
    | zero => rfl
    | succ n ih => rw [List.range_succ, List.foldl_append, ih, Finset.sum_range_succ]; rfl
  rw [hsum fun i => (Store.read m (k + i)).toNat * 256 ^ i]
  induction n generalizing k with
  | zero => rfl
  | succ n ih =>
    have hcons : leNat (Store.readList m k (n + 1)) = (Store.read m k).toNat + 256 * leNat (Store.readList m (k + 1) n) := rfl
    rw [hcons, ih, Finset.sum_range_succ', Finset.mul_sum, Nat.add_comm]
    refine congrArg₂ (· + ·) (Finset.sum_congr rfl fun i _ => ?_) (by simp)
    rw [Nat.add_assoc, Nat.add_comm 1 i, pow_succ]
    ring

/-- An LD of 8 bytes or fewer completes with its value in its queue entry and its destination. -/
theorem ld_completes {s : State} {op : Nat} {o : Op} {g : Group} {k : BitVec 3} {d : Dst} {a : Src} {x : MemX} {sx : Bool}
    (ho : s.op? op = some o) (hg : s.group? o.gid = some g) (hst : g.st = .ready) (hi : o.instr = .ld k d a x sx)
    (hn : x.size.bytes ≤ 8) (hf : o.fault = none) (hstage : o.stage = 0) (hdone : o.allDone = true) :
    exec (.operationComplete op) s = .next ((s.finishWith o fun g => g.late o d (x.size.bytes == 8) fun l =>
      loadValue x.size.bytes sx (o.laneNat l x.size.bytes)).captureDone o) := by
  refine exec_operationComplete_captured ho hg hst hf (by omega) (by simp [Op.isCopy, Op.copyX, hi]) ?_
  have hres : o.loadResult d x.size.bytes sx = fun g => g.late o d (x.size.bytes == 8) fun l =>
      loadValue x.size.bytes sx (o.laneNat l x.size.bytes) := funext fun g => if_pos hn
  unfold completeOp
  rw [hi]
  dsimp only
  rw [need_eq _ hdone, hres]

/-- Settles O20: the piece by `takePiece_memory` at its place, the completion by what a late result leaves. -/
theorem loadsPerformed : Obligations.LoadsPerformed := by
  refine ⟨?_, ?_⟩
  · intro s o p op i k d a x sx g tm gr key ho hp hi hord hspace _ how hst hheld hclear hatoms hplace hhold hpass hpoison hov hline
      halone hfresh
    have hacq : o.acquires = false := by simp [Op.acquires, Op.order, hi, hord]
    have hreq : isHbm key = true → o.reqAt s p key = .nc := fun hk => by
      rcases hspace with ⟨-, hnc⟩ | ⟨-, -, hlocal⟩
      · simp [Op.reqAt, Op.reqType, Op.memx, hi, hnc, effLoadReq]
      · rw [hlocal] at hk
        cases hk
    rw [exec_homeRequest ho hp, homePart_ld hi how hst hheld hclear hatoms hplace]
    exact takePiece_memory hacq hhold hpass hpoison hov (fun hk => ⟨(hline hk).1, (hline hk).2, hreq hk⟩) halone hfresh
  · intro s op o g k d a x sx ho hg hst hi hn hf hstage hdone hq hage age n v
    obtain rfl := State.op?_id ho
    have hv : (fun l => loadValue n sx (o.laneNat l n)) = v := funext fun l => by
      unfold loadValue Op.laneNat
      rw [leNat_readList_eq_foldl]
      simp only [beq_iff_eq]
      rfl
    obtain ⟨hgone, honly, u, hu, hk, hflag⟩ := State.finishWith_spec hg (f := fun g => g.late o d (n == 8) v) (Group.late_gid ..)
    have hlate : u = { g.late o d (n == 8) v with flags := u.flags, st := u.st, since := u.since } := by rw [← hk]
    have hkeeps := Group.late_keeps g o d (n == 8) v
    have hexec := ld_completes ho hg hst hi hn hf hstage hdone
    rw [hv, State.captureDone_eq] at hexec
    refine ⟨_, u, hexec, hgone, (congrArg State.mem honly).trans rfl, hu, fun l hl => ?_, fun b l hb => ?_, fun m l hd hl hx => ?_,
      fun m l hd hl => ?_, fun f hfl hf12 hrun hother => hflag f hfl hf12 (hkeeps.1.trans hrun) hother, ?_⟩
    · rw [hlate]
      exact Group.age_late g o d (n == 8) v (by omega) hl
    · rw [hlate]
      exact Group.age_late_other g o d (n == 8) v hb l
    · rw [hlate, hd]
      exact Group.winWord_writeDst _ m (n == 8) v hl hx
    · rw [hlate, hd]
      exact Group.scal_writeDst _ m (n == 8) v hl
    · rw [hlate]
      exact hkeeps.2

end Sys2Proof.Machine

namespace Sys2Proof.Machine

/-! ## Lines and their directory entries (06 R168, R169) -/

/-- None of what a test leaves out is found by it. -/
theorem find?_filter_not {α : Type} (p : α → Bool) (l : List α) : (l.filter fun x => !p x).find? p = none :=
  List.find?_eq_none.2 fun x hx => by simpa using (List.mem_filter.1 hx).2

/-- The entry set for a block is the one found; an empty entry is kept by its absence. -/
theorem State.dirOf_setDir_same (s : State) (d : DirLine) : (s.setDir d).dirOf d.blk = d := by
  have hrest : (s.dir.filter fun e => e.blk != d.blk).find? (fun e => e.blk == d.blk) = none := find?_filter_not _ _
  obtain ⟨blk, owner, sharers⟩ := d
  unfold State.dirOf State.setDir
  rw [List.find?_append, hrest]
  cases owner <;> cases sharers <;> simp

/-- A line set in its L1 is the one found. -/
theorem State.line?_setLine_same (s : State) (ln : L1Line) : (s.setLine ln).line? ln.core ln.blk = some ln := by
  unfold State.line? State.setLine
  rw [List.find?_append, find?_filter_not]
  simp

/-- An evicted line is found no more. -/
theorem State.line?_evictLine_same (s : State) (ln : L1Line) : (s.evictLine ln).line? ln.core ln.blk = none := by
  unfold State.line?
  rw [State.evictLine_l1, find?_filter_not]

@[simp] theorem State.evictLine_ops (s : State) (ln : L1Line) : (s.evictLine ln).ops = s.ops := by rw [State.evictLine_eq]
@[simp] theorem State.evictLine_groups (s : State) (ln : L1Line) : (s.evictLine ln).groups = s.groups := by
  rw [State.evictLine_eq]
@[simp] theorem State.evictLine_msgs (s : State) (ln : L1Line) : (s.evictLine ln).msgs = s.msgs := by rw [State.evictLine_eq]

/-- The directory forgets the core whose registered line is evicted (06 R169). -/
theorem State.dirOf_evictLine (s : State) {ln : L1Line} (h : ln.st ≠ .si) :
    ((s.evictLine ln).dirOf ln.blk).owner ≠ some ln.core ∧ ln.core ∉ ((s.evictLine ln).dirOf ln.blk).sharers := by
  have hset : (s.evictLine ln).dirOf ln.blk = ⟨ln.blk,
      if (s.dirOf ln.blk).owner == some ln.core then none else (s.dirOf ln.blk).owner,
      (s.dirOf ln.blk).sharers.filter fun c => c != ln.core⟩ := by
    unfold State.evictLine
    rw [if_neg (by simpa using h)]
    exact State.dirOf_setDir_same _ ⟨ln.blk, _, _⟩
  rw [hset]
  refine ⟨?_, by simp⟩
  by_cases ho : (s.dirOf ln.blk).owner = some ln.core <;> simp [ho]

/-! ## Evictions and recalls (06 R169 to R171) -/

theorem exec_l1Eviction {s : State} {core blk : Nat} {ln : L1Line} (hln : s.line? core blk = some ln) :
    exec (.l1Eviction core blk) s = .next (s.evictLine ln) := by
  change execL1Eviction core blk s = _
  unfold execL1Eviction
  rw [hln]

/-- A line as a recall leaves it: gone, shared or kept (06 R171). -/
def State.answerRecall (s : State) (ln : L1Line) (drop shared : Bool) : State :=
  if drop then s.evictLine ln
  else if shared then
    ((s.writeBack ln).setLine { ln with dirty := 0, st := .shared }).setDir
      ⟨ln.blk, none, if (s.dirOf ln.blk).sharers.contains ln.core then (s.dirOf ln.blk).sharers
        else (s.dirOf ln.blk).sharers ++ [ln.core]⟩
  else (s.writeBack ln).setLine { ln with dirty := 0 }

/-- The return of a recall changes the commands alone. -/
theorem State.recallReturned_eq (s : State) (op part : Nat) :
    s.recallReturned op part = { s with ops := (s.recallReturned op part).ops } := by
  unfold State.recallReturned
  split
  · rfl
  · split <;> rfl

theorem exec_recall {s : State} {msg core blk op part : Nat} {drop shared : Bool} {m : Msg} {ln : L1Line}
    (hm : s.msg? msg = some m) (hb : m.body = .recallLine core blk op part drop shared) (hlost : m.lost = false)
    (hln : s.line? core blk = some ln) (hst : ln.st ≠ .si) :
    exec (.recall msg) s = .next (((s.dropMsg msg).answerRecall ln drop shared).recallReturned op part) := by
  obtain ⟨rfl, rfl⟩ := State.line?_some hln
  have hline : (s.dropMsg msg).line? ln.core ln.blk = some ln := hln
  have hsi : ¬(ln.st == LineSt.si) = true := by simpa using hst
  change execRecall msg s = _
  unfold execRecall
  rw [needSome_eq _ hm, hb]
  dsimp only
  rw [need_eq _ (by rw [hlost]; rfl), hline]
  dsimp only
  rw [if_neg hsi]
  unfold State.answerRecall
  cases drop
  · cases shared <;> rfl
  · rfl

/-- A recall that leaves the line shared takes it from its owner and keeps the core among the sharers. -/
theorem State.dirOf_recallShared (s : State) (ln : L1Line) :
    ((s.answerRecall ln false true).dirOf ln.blk).owner = none ∧
      ln.core ∈ ((s.answerRecall ln false true).dirOf ln.blk).sharers := by
  have hset : (s.answerRecall ln false true).dirOf ln.blk = ⟨ln.blk, none,
      if (s.dirOf ln.blk).sharers.contains ln.core then (s.dirOf ln.blk).sharers
      else (s.dirOf ln.blk).sharers ++ [ln.core]⟩ := State.dirOf_setDir_same _ ⟨ln.blk, none, _⟩
  rw [hset]
  refine ⟨rfl, ?_⟩
  dsimp only
  split
  · next h => simpa using h
  · simp

section
variable (s : State) (ln : L1Line) (drop shared : Bool)

/-- What a recall brings home is what a line written back brings. -/
theorem State.answerRecall_mem : (s.answerRecall ln drop shared).mem = (s.writeBack ln).mem := by
  cases drop
  · cases shared <;> rfl
  · exact s.evictLine_mem ln

theorem State.answerRecall_groups : (s.answerRecall ln drop shared).groups = s.groups := by
  cases drop
  · cases shared <;> rfl
  · exact s.evictLine_groups ln

theorem State.answerRecall_msgs : (s.answerRecall ln drop shared).msgs = s.msgs := by
  cases drop
  · cases shared <;> rfl
  · exact s.evictLine_msgs ln
end

/-- A message dropped is found no more. -/
theorem State.msg?_dropMsg_same (s : State) (id : Nat) : (s.dropMsg id).msg? id = none :=
  find?_filter_not _ _

/-- Settles O22: both steps leave the memory of a line written back, and the line and its entry are those set last. -/
theorem linesComeHome : Obligations.LinesComeHome := by
  intro s core blk ln hln
  obtain ⟨rfl, rfl⟩ := State.line?_some hln
  refine ⟨⟨_, exec_l1Eviction hln, fun y => ?_, s.line?_evictLine_same ln, s.evictLine_ops ln, s.evictLine_groups ln,
    s.dirOf_evictLine⟩, fun msg m op part drop shared hm hb hlost hst => ?_⟩
  · rw [State.evictLine_mem, State.read_writeBack]
  · refine ⟨_, exec_recall hm hb hlost hln hst, ?_⟩
    rw [State.recallReturned_eq]
    refine ⟨fun y => ?_, ?_, State.answerRecall_groups .., ?_, ?_, ?_⟩
    · dsimp only
      rw [State.answerRecall_mem]
      exact (s.dropMsg msg).read_writeBack ln y
    · have hgone := s.msg?_dropMsg_same msg
      unfold State.msg? at hgone ⊢
      rwa [State.answerRecall_msgs]
    · rintro rfl
      exact ⟨(s.dropMsg msg).line?_evictLine_same ln, ((s.dropMsg msg).dirOf_evictLine hst).1⟩
    · rintro rfl rfl
      exact ⟨State.line?_setLine_same _ { ln with dirty := 0, st := .shared }, (s.dropMsg msg).dirOf_recallShared ln⟩
    · rintro rfl rfl
      exact ⟨State.line?_setLine_same _ { ln with dirty := 0 }, rfl⟩

end Sys2Proof.Machine

namespace Sys2Proof.Machine

/-! ## Stores at their home (06 R171, Table 6.2) -/

/-- A line without dirty words brings nothing home. -/
theorem State.writeBack_clean (s : State) {ln : L1Line} (h : ln.dirty = 0) : (s.writeBack ln).mem = s.mem := by
  have hnone : ln.dirtyBytes = [] := by
    unfold L1Line.dirtyBytes
    rw [h]
    exact List.filterMap_eq_nil_iff.2 fun i _ => by simp
  unfold State.writeBack
  rw [hnone]
  rfl

theorem State.writePiece_eq (s : State) (key : Nat) (l : List Byte) : s.writePiece key l =
    { s with mem := Store.writeList s.mem key l, poison := (s.writePiece key l).poison } := by
  unfold State.writePiece
  dsimp only
  split <;> rfl

/-- Evictions change memory, the lines and the directory alone. -/
theorem foldl_evictLine_eq (lns : List L1Line) (s : State) : lns.foldl State.evictLine s = { s with
    mem := (lns.foldl State.evictLine s).mem, l1 := (lns.foldl State.evictLine s).l1
    dir := (lns.foldl State.evictLine s).dir } := by
  induction lns generalizing s with
  | nil => rfl
  | cons ln lns ih =>
    rw [List.foldl_cons, ih]
    rw [State.evictLine_eq s ln]

theorem State.addLine_eq (s : State) (ln : L1Line) : s.addLine ln =
    { s with mem := (s.addLine ln).mem, l1 := (s.addLine ln).l1, dir := (s.addLine ln).dir } := by
  unfold State.addLine State.makeRoom
  split
  · rfl
  · have hroom := foldl_evictLine_eq ((s.l1.filter fun l => l.core == ln.core).take (s.l1Used ln.core + 1 - l1Places)) s
    generalize ((s.l1.filter fun l => l.core == ln.core).take (s.l1Used ln.core + 1 - l1Places)).foldl State.evictLine s = t
      at hroom ⊢
    exact congrArg (fun u : State => u.setLine ln) hroom

/-- A line that enters an L1 is the one found. -/
theorem State.line?_addLine_same (s : State) (ln : L1Line) : (s.addLine ln).line? ln.core ln.blk = some ln := by
  unfold State.addLine
  split <;> exact State.line?_setLine_same _ _

section
variable (s : State) (core key : Nat) (l : List Byte)

/-- A store at its home changes memory, the lines, the directory and the poison marks alone. -/
theorem State.homeStore_eq (r : Req) : s.homeStore core key l r = { s with
    mem := (s.homeStore core key l r).mem, l1 := (s.homeStore core key l r).l1
    dir := (s.homeStore core key l r).dir, poison := (s.homeStore core key l r).poison } := by
  have hown : ∀ blk, State.homeStore.own core key l s blk = { s with
      mem := (State.homeStore.own core key l s blk).mem, l1 := (State.homeStore.own core key l s blk).l1
      dir := (State.homeStore.own core key l s blk).dir } := fun blk => by
    unfold State.homeStore.own
    dsimp only
    rw [State.addLine_eq]
    rfl
  have hkeep : ∀ t, State.homeStore.keepClean core key l t = { t with l1 := (State.homeStore.keepClean core key l t).l1 } :=
    fun t => by unfold State.homeStore.keepClean; split <;> rfl
  unfold State.homeStore
  dsimp only
  split
  · rw [State.writePiece_eq]
  · split
    · split
      · split
        · rfl
        · rw [hown]
      · rw [hown]
    · rw [State.writePiece_eq, hkeep]
      rfl
    · rw [State.writePiece_eq]
      split
      · split
        · rfl
        · rw [State.evictLine_eq]
          rfl
      · rfl

/-- A store with .nc or .wt, or out of HBM, is in memory once its home has performed it. -/
theorem State.homeStore_mem {r : Req} (h : r = .nc ∨ r = .wt ∨ isHbm key = false) :
    (s.homeStore core key l r).mem = Store.writeList s.mem key l := by
  unfold State.homeStore
  dsimp only
  cases hk : isHbm key with
  | false => exact congrArg State.mem (s.writePiece_eq key l)
  | true =>
    rcases h with rfl | rfl | h
    · refine (congrArg State.mem (State.writePiece_eq _ key l)).trans (congrArg (Store.writeList · key l) ?_)
      split
      · split
        · rfl
        · next hclean => exact (State.evictLine_mem ..).trans (State.writeBack_clean _ (by simpa using hclean))
      · rfl
    · refine (congrArg State.mem (State.writePiece_eq _ key l)).trans (congrArg (Store.writeList · key l) ?_)
      unfold State.homeStore.keepClean
      split <;> rfl
    · rw [hk] at h
      cases h
end

/-! ### The line of a store with .own -/

theorem L1Line.read_patch (ln : L1Line) (off : Nat) (l : List Byte) (dirty : Bool) {j : Nat} (hj : j < l.length) :
    Store.read (ln.patch off l dirty).data (off + j) = l[j] := Store.read_writeList_in l ln.data off j hj

/-- A patched line's words are dirty. -/
theorem L1Line.dirty_patch (ln : L1Line) {off : Nat} {l : List Byte} (h : off + l.length ≤ 64) {j : Nat} (hj : j < l.length) :
    (ln.patch off l true).dirty.getLsbD ((off + j) / 4) = true := by
  have key : ∀ n, n ≤ l.length → j < n →
      ((List.range n).foldl (fun d j => d ||| (1#16 <<< ((off + j) / 4))) ln.dirty).getLsbD ((off + j) / 4) = true := by
    intro n hn hjn
    induction n with
    | zero => omega
    | succ n ih =>
      rw [List.range_succ, List.foldl_append, List.foldl_cons, List.foldl_nil, BitVec.getLsbD_or]
      by_cases h' : j = n
      · subst h'
        have : (off + j) / 4 < 16 := by omega
        simp [this]
      · rw [ih (by omega) (by omega), Bool.true_or]
  exact key l.length le_rfl hj

/-- A line's data at a block's offset, its words and its owner: what a store with .own leaves in its core's L1 (06 R170). -/
structure Owned (t : State) (core key : Nat) (l : List Byte) (ln : L1Line) : Prop where
  found : t.line? core (blockOf key) = some ln
  owned : ln.st = .owned
  bytes : ∀ j (hj : j < l.length), Store.read ln.data (key % 64 + j) = l[j] ∧ ln.dirty.getLsbD ((key % 64 + j) / 4) = true

theorem sub_blockOf (key : Nat) : key - blockOf key = key % 64 := by unfold blockOf; omega

theorem owned_patch {t : State} {core key : Nat} {l : List Byte} {ln : L1Line} (hfit : key % 64 + l.length ≤ 64)
    (hst : ln.st = .owned) (hfound : t.line? core (blockOf key) = some (ln.patch (key - blockOf key) l true)) :
    Owned t core key l (ln.patch (key - blockOf key) l true) where
  found := hfound
  owned := hst
  bytes j hj := by
    rw [sub_blockOf]
    exact ⟨ln.read_patch _ l true hj, ln.dirty_patch hfit hj⟩

/-- A store with .own leaves its bytes dirty in its core's line; where the core had not owned the line, the home names it as
the owner. -/
theorem State.homeStore_own (s : State) {core key : Nat} {l : List Byte} (hk : isHbm key = true)
    (hfit : key % 64 + l.length ≤ 64) : ∃ ln, Owned (s.homeStore core key l .own) core key l ln ∧
      ((∀ x, s.line? core (blockOf key) = some x → x.st ≠ .owned) →
        ((s.homeStore core key l .own).dirOf (blockOf key)).owner = some core) := by
  have hfill : s.homeStore core key l .own = State.homeStore.own core key l s (blockOf key) → ∃ ln,
      Owned (s.homeStore core key l .own) core key l ln ∧
        ((s.homeStore core key l .own).dirOf (blockOf key)).owner = some core := fun h => by
    rw [h]
    have hline := State.line?_addLine_same (s.dropSharers (blockOf key) core false)
      (L1Line.patch ⟨core, blockOf key, .owned, blockData (s.dropSharers (blockOf key) core false) (blockOf key), 0⟩
        (key - blockOf key) l true)
    exact ⟨_, owned_patch hfit rfl hline,
      congrArg DirLine.owner (State.dirOf_setDir_same _ ⟨blockOf key, some core, []⟩)⟩
  unfold State.homeStore at hfill ⊢
  dsimp only at hfill ⊢
  rw [hk] at hfill ⊢
  cases hln : s.line? core (blockOf key) with
  | none =>
    rw [hln] at hfill
    obtain ⟨ln, howned, hdir⟩ := hfill rfl
    exact ⟨ln, howned, fun _ => hdir⟩
  | some ln =>
    obtain ⟨rfl, hblk⟩ := State.line?_some hln
    rw [hln] at hfill
    dsimp only at hfill ⊢
    by_cases hst : (ln.st == LineSt.owned) = true
    · rw [if_pos hst]
      refine ⟨_, owned_patch hfit (by simpa using hst) ?_, fun h => absurd (by simpa using hst) (h ln rfl)⟩
      rw [← hblk]
      exact State.line?_setLine_same _ (ln.patch _ l true)
    · rw [if_neg hst] at hfill ⊢
      obtain ⟨ln, howned, hdir⟩ := hfill rfl
      exact ⟨ln, howned, fun _ => hdir⟩

/-! ### A departed store at its home -/

@[simp] theorem Op.partBytes_length (o : Op) (p : Part) : (o.partBytes p).length = p.len := Store.readList_length ..

theorem Op.partBytes_getElem (o : Op) (p : Part) {j : Nat} (hj : j < (o.partBytes p).length) :
    (o.partBytes p)[j] = Store.read o.buf (64 * p.lane + p.off + j) := by
  have hread := Store.getElem?_readList o.buf (64 * p.lane + p.off) p.len j (by simpa using hj)
  exact (List.getElem?_eq_some_iff.1 hread).2

/-- The bytes of a part written at its place, and no others. -/
theorem Op.read_writeParts (o : Op) (p : Part) (m : Mem) :
    (∀ j, j < p.len → Store.read (Store.writeList m p.key (o.partBytes p)) (p.key + j) =
      Store.read o.buf (64 * p.lane + p.off + j)) ∧
    ∀ y, (y < p.key ∨ p.key + p.len ≤ y) → Store.read (Store.writeList m p.key (o.partBytes p)) y = Store.read m y := by
  refine ⟨fun j hj => ?_, fun y hy => Store.read_writeList_out _ _ _ _ (by simpa using hy)⟩
  rw [Store.read_writeList_in _ _ _ _ (by simpa using hj), Op.partBytes_getElem]

theorem Op.getElem?_mapParts (o : Op) (js : List Nat) (f : Part → Part) (j : Nat) :
    (o.mapParts js f).parts[j]? = (o.parts[j]?).map fun q => if js.contains j then f q else q := by
  unfold Op.mapParts
  rw [List.getElem?_map, List.getElem?_zipIdx, Option.map_map, Nat.zero_add]
  rfl

/-- A store command is found with its parts as they stand, but once they have all been performed (07 R198). -/
theorem State.op?_settleStore {s : State} {op : Nat} {o q : Op} (ho : s.op? op = some o) (hid : q.id = o.id) :
    (s.settleStore q).op? op = if q.allDone then none else some q := by
  unfold State.settleStore
  split
  · rw [hid, State.op?_id ho]
    exact State.op?_dropOp_same s op
  · exact State.op?_setOp_of ho hid

theorem State.settleStore_eq (s : State) (o : Op) : s.settleStore o = { s with ops := (s.settleStore o).ops } := by
  unfold State.settleStore
  split <;> rfl

theorem State.settleMark_eq (s : State) (o : Op) (js : List Nat) (key : Nat) :
    s.settleMark o js key = { s with poison := (s.settleMark o js key).poison } := by
  unfold State.settleMark
  split <;> rfl

/-- A command whose part `i` has been performed. -/
def Op.performed (o : Op) (i : Nat) : Op := o.mapParts [i] fun q => { q with st := .done, asked := false }

theorem Op.performed_part {o : Op} {i : Nat} {p : Part} (hp : o.parts[i]? = some p) :
    ((o.performed i).parts[i]?).map (·.st) = some .done := by
  unfold Op.performed
  rw [Op.getElem?_mapParts, hp]
  simp

/-- With its last part the command is done: the other parts have been performed before. -/
theorem Op.done_of_performed {o : Op} {i j : Nat} {q : Part} (hall : (o.performed i).allDone = true) (hj : j ≠ i)
    (hq : o.parts[j]? = some q) : q.st = .done := by
  have hmem : q ∈ (o.performed i).parts :=
    List.mem_of_getElem? (i := j) (by unfold Op.performed; rw [Op.getElem?_mapParts, hq]; simp [hj])
  simpa using List.all_eq_true.1 hall q hmem

/-- A departed store once its home has performed and acknowledged it. -/
def State.storePerformed (s : State) (o : Op) (i : Nat) (p : Part) : State :=
  (((s.homeStore o.core p.key (o.partBytes p) (o.storeReq s p.key)).settleMark o [i] p.key).noted o.requester p.sent).settleStore
    (o.performed i)

theorem State.storePerformed_eq (s : State) (o : Op) (i : Nat) (p : Part) :
    s.storePerformed o i p = { s.homeStore o.core p.key (o.partBytes p) (o.storeReq s p.key) with
      poison := (s.storePerformed o i p).poison, filters := (s.storePerformed o i p).filters
      ops := (s.storePerformed o i p).ops } := by
  unfold State.storePerformed
  rw [State.settleStore_eq, State.noted_eq, State.settleMark_eq]

theorem Op.storeReq_st {s : State} {o : Op} {k : BitVec 3} {a b : Src} {x : MemX} (hi : o.instr = .st k a b x) (key : Nat) :
    o.storeReq s key = effStoreReq s key (if x.req == .add then .nc else x.req) := by
  unfold Op.storeReq Op.reqType Op.memx
  rw [hi]

theorem homePart_st {s : State} {o : Op} {p : Part} {i n : Nat} {k : BitVec 3} {a b : Src} {x : MemX}
    (hp : o.parts[i]? = some p) (hi : o.instr = .st k a b x) (hst : p.st = .departed n)
    (hturn : s.inTurn o.requester (blockOf (dataKey p.key)) n = true)
    (hahead : s.drainAhead n o.core (blockOf (dataKey p.key)) = false) (hpass : s.passes o.core p (dataKey p.key) = true)
    (hdup : s.duplicate o.requester p.sent = false) (howner : isHbm p.key = true → s.otherOwner o.core (blockOf p.key) = none) :
    homePart s o i p false = .next (s.storePerformed o i p) := by
  have hadd : o.isAdd = false := by unfold Op.isAdd; rw [hi]
  have hmates : o.mates i p = [i] := by unfold Op.mates; rw [hi]
  have hnone : (if isHbm p.key then s.otherOwner o.core (blockOf p.key) else none) = none := by
    split
    · next h => exact howner h
    · rfl
  have hfold : [i].foldl (fun (s : State) j => match o.parts[j]? with
      | some q => s.homeStore o.core q.key (o.partBytes q) (o.storeReq s q.key)
      | none => s) s = s.homeStore o.core p.key (o.partBytes p) (o.storeReq s p.key) := by
    rw [List.foldl_cons, List.foldl_nil, hp]
  unfold homePart
  rw [hi]
  change storePart s o i p false = _
  unfold storePart
  rw [hst]
  dsimp only
  rw [hpass, hturn, hahead, hdup, hadd, hmates, hi]
  dsimp only [Bool.not_true, Bool.or_false]
  rw [hnone]
  exact congrArg (fun u : State => Host.Outcome.next (((u.settleMark o [i] p.key).noted o.requester p.sent).settleStore
    (o.performed i))) hfold

theorem Op.storeReq_own {s : State} {o : Op} {k : BitVec 3} {a b : Src} {x : MemX} {key : Nat} (hi : o.instr = .st k a b x)
    (hx : x.req = .own) (hdev : dpaDevice key = s.device) : o.storeReq s key = .own := by
  rw [Op.storeReq_st hi, hx]
  simp [effStoreReq, hdev]

theorem Op.storeReq_plain {s : State} {o : Op} {k : BitVec 3} {a b : Src} {x : MemX} {key : Nat} (hi : o.instr = .st k a b x)
    (h : x.req = .nc ∨ x.req = .wt ∨ isHbm key = false) :
    o.storeReq s key = .nc ∨ o.storeReq s key = .wt ∨ isHbm key = false := by
  rw [Op.storeReq_st hi]
  rcases h with h | h | h
  · left; simp [h, effStoreReq]
  · right; left; simp [h, effStoreReq]
  · exact .inr (.inr h)

theorem State.op?_storePerformed {s : State} {op : Nat} {o : Op} (ho : s.op? op = some o) (i : Nat) (p : Part) :
    (s.storePerformed o i p).op? op = if (o.performed i).allDone then none else some (o.performed i) := by
  have hkept : (((s.homeStore o.core p.key (o.partBytes p) (o.storeReq s p.key)).settleMark o [i] p.key).noted o.requester
      p.sent).op? op = some o := by
    rw [State.noted_eq, State.settleMark_eq, State.homeStore_eq]
    exact ho
  exact State.op?_settleStore hkept rfl

/-! ## Departures from the store queue (07 R198) -/

/-- The head of a group's store queue is a queued part of one of its commands. -/
theorem State.queueHead_some {s : State} {gid i : Nat} {o : Op} {p : Part} (h : s.queueHead gid = some (o, i, p)) :
    o ∈ s.ops ∧ o.parts[i]? = some p := by
  obtain ⟨q, hq, hfound⟩ := List.exists_of_findSome?_eq_some h
  split at hfound
  · obtain ⟨x, hx, hpair⟩ := Option.map_eq_some_iff.1 hfound
    cases hpair
    exact ⟨hq, List.mem_zipIdx_iff_getElem?.1 (List.mem_of_find?_eq_some hx)⟩
  · cases hfound

theorem State.writeParts_one (s : State) {o : Op} {i : Nat} {p : Part} (hp : o.parts[i]? = some p) :
    s.writeParts o [i] = s.putBytes p.key (o.partBytes p) := by
  unfold State.writeParts
  rw [List.foldl_cons, List.foldl_nil, hp]

theorem State.touch_eq (s : State) (gid key : Nat) : s.touch gid key = { s with groups := (s.touch gid key).groups } := by
  unfold State.touch
  split
  · rfl
  · split <;> rfl

/-- Parts depart under their place in the core store order, over a link with a number besides. -/
theorem State.depart_spec (s : State) (o : Op) (js : List Nat) (key order : Nat) :
    ∃ (u : State) (x : Option Sent), s.depart o js key order = u.setOp (o.mapParts js fun q => { q with st := .departed order, sent := x }) ∧
      u.mem = s.mem ∧ u.ops = s.ops ∧ s.nextId ≤ u.nextId := by
  have hnumber : ∀ r home, (s.number r home).2.mem = s.mem ∧ (s.number r home).2.ops = s.ops ∧
      s.nextId ≤ (s.number r home).2.nextId := fun r home => by
    refine ⟨by rw [State.number_eq], by rw [State.number_eq], Nat.le_succ _⟩
  have hagain : ∀ x, (s.again x).2.mem = s.mem ∧ (s.again x).2.ops = s.ops ∧ s.nextId ≤ (s.again x).2.nextId := fun x => by
    refine ⟨by rw [State.again_eq], by rw [State.again_eq], Nat.le_succ _⟩
  unfold State.depart
  dsimp only
  split
  · exact ⟨s, none, rfl, rfl, rfl, le_rfl⟩
  · split
    · split
      · exact ⟨_, _, rfl, hagain _⟩
      · exact ⟨_, _, rfl, hnumber ..⟩
    · exact ⟨_, _, rfl, hnumber ..⟩

/-- A store that leaves its queue: to its home, in a place of the core store order, or at once to its bytes in a local
space. -/
def State.storeLeaves (s : State) (gid : Nat) (o : Op) (i : Nat) (p : Part) : State :=
  match p.sp with
  | .p | .g => ({ s with nextId := s.nextId + 1 }.touch gid (dataKey p.key)).depart o [i] (dataKey p.key) s.nextId
  | _ => ((s.writeParts o [i]).settleMark o [i] p.key).settleStore (o.mapParts [i] fun q => { q with st := .done })

theorem State.storeLeaves_local {s : State} {gid i : Nat} {o : Op} {p : Part} (h : p.sp = .l ∨ p.sp = .s ∨ p.sp = .c) :
    s.storeLeaves gid o i p =
      ((s.writeParts o [i]).settleMark o [i] p.key).settleStore (o.mapParts [i] fun q => { q with st := .done }) := by
  unfold State.storeLeaves
  rcases h with h | h | h <;> rw [h]

theorem State.storeLeaves_shared {s : State} {gid i : Nat} {o : Op} {p : Part} (h : p.sp = .g ∨ p.sp = .p) :
    ∃ (u : State) (x : Option Sent), s.storeLeaves gid o i p =
        u.setOp (o.mapParts [i] fun q => { q with st := .departed s.nextId, sent := x }) ∧
      u.mem = s.mem ∧ u.ops = s.ops ∧ s.nextId < u.nextId := by
  have hleaves : s.storeLeaves gid o i p =
      ({ s with nextId := s.nextId + 1 }.touch gid (dataKey p.key)).depart o [i] (dataKey p.key) s.nextId := by
    unfold State.storeLeaves
    rcases h with h | h <;> rw [h]
  rw [hleaves, State.touch_eq]
  exact State.depart_spec _ o [i] (dataKey p.key) s.nextId

theorem exec_storeQueueDeparture_st {s : State} {gid i : Nat} {o : Op} {p : Part} {k : BitVec 3} {a b : Src} {x : MemX}
    (hhead : s.queueHead gid = some (o, i, p)) (hheld : p.held = none) (hsent : p.sent = none)
    (hway : s.remote o.core (dataKey p.key) = false ∨ s.windowOpen o.requester (destOf s (dataKey p.key)) = true)
    (hclear : s.storeClear o = true) (hhold : s.scoreHold o.gid o.id p.key p.len true = false) (hrel : o.releases = false)
    (hi : o.instr = .st k a b x) : exec (.storeQueueDeparture gid) s = .next (s.storeLeaves gid o i p) := by
  have hadd : o.isAdd = false := by unfold Op.isAdd; rw [hi]
  have hmates : o.mates i p = [i] := by unfold Op.mates; rw [hi]
  have hsame : o.setPart i p = o := by
    obtain ⟨hlt, hget⟩ := List.getElem?_eq_some_iff.1 (State.queueHead_some hhead).2
    unfold Op.setPart
    rw [← hget, List.set_getElem_self]
  have hopen : (!s.remote o.core (dataKey p.key) || s.windowOpen o.requester (destOf s (dataKey p.key))) = true := by
    rcases hway with h | h <;> simp [h]
  change execStoreQueueDeparture gid s = _
  unfold execStoreQueueDeparture replaced
  rw [needSome_eq _ hhead]
  dsimp only
  rw [need_eq _ (by rw [hheld]; rfl), if_pos (by rw [hsent]; rfl), hsame, need_eq _ (by rw [hclear, hhold, hopen]; rfl), hrel,
    hadd, hmates]
  unfold State.storeLeaves
  cases p.sp <;> rfl

/-- Settles O21: at its home by what `homeStore` leaves in memory or in the line, from its queue by the space it goes to. -/
theorem storesPerformed : Obligations.StoresPerformed := by
  refine ⟨?_, ?_⟩
  · intro s o p op i n k a b x ho hp hi hst hturn hahead hpass hdup howner
    have hexec := homePart_st hp hi hst hturn hahead hpass hdup howner
    rw [← exec_homeRequest ho hp] at hexec
    refine ⟨_, hexec, fun hplain => ?_, fun hx hk hdev hfit => ?_, ?_, ?_, ?_⟩
    · rw [State.storePerformed_eq]
      dsimp only
      rw [State.homeStore_mem _ _ _ _ (Op.storeReq_plain hi hplain)]
      exact o.read_writeParts p s.mem
    · rw [State.storePerformed_eq, Op.storeReq_own hi hx hdev]
      obtain ⟨ln, howned, hdir⟩ := s.homeStore_own (core := o.core) hk (l := o.partBytes p) (by simpa using hfit)
      refine ⟨ln, howned.found, howned.owned, fun j hj => ?_, hdir⟩
      have hj' : j < (o.partBytes p).length := by simpa using hj
      exact ⟨(howned.bytes j hj').1.trans (o.partBytes_getElem p hj'), (howned.bytes j hj').2⟩
    · rw [State.storePerformed_eq, State.homeStore_eq]
    · rw [State.storePerformed_eq, State.homeStore_eq]
    · rw [State.op?_storePerformed ho]
      by_cases hall : (o.performed i).allDone = true
      · rw [if_pos hall]
        exact fun j q hj hq => Op.done_of_performed hall hj hq
      · rw [if_neg hall]
        exact ⟨Op.performed_part hp, rfl⟩
  · intro s gid i o p hhead hheld hsent hway hclear hhold hrel ⟨k, a, b, x, hi⟩
    obtain ⟨hmem, hp⟩ := State.queueHead_some hhead
    have hexec := exec_storeQueueDeparture_st hhead hheld hsent hway hclear hhold hrel hi
    refine ⟨fun hlocal => ⟨_, hexec, ?_⟩, fun hshared => ⟨_, hexec, ?_⟩⟩
    · rw [State.storeLeaves_local hlocal, State.settleStore_eq, State.settleMark_eq, State.writeParts_one s hp]
      obtain ⟨hin, hout⟩ := o.read_writeParts p s.mem
      exact ⟨hin, hout, rfl⟩
    · obtain ⟨u, sent, hleaves, humem, huops, hnext⟩ := State.storeLeaves_shared (s := s) (gid := gid) (o := o) (i := i) hshared
      have hfound : (s.op? o.id).isSome = true := List.find?_isSome.2 ⟨o, hmem, by simp⟩
      obtain ⟨o', ho'⟩ := Option.isSome_iff_exists.1 hfound
      have hu : u.op? o.id = some o' := by unfold State.op?; rw [huops]; exact ho'
      have hset := State.op?_setOp_of (q := o.mapParts [i] fun q => { q with st := .departed s.nextId, sent := sent }) hu
        (State.op?_id ho').symm
      rw [hleaves]
      refine ⟨humem, hnext, ?_⟩
      rw [hset, ho', Option.map_some, Option.map_some, Op.getElem?_mapParts, hp]
      simp

end Sys2Proof.Machine

namespace Sys2Proof.Machine

/-! ## Messages, hampers and homes (07 R214, R215) -/

/-- A message is under way. -/
def State.Carries (s : State) (b : MsgBody) : Prop := ∃ x ∈ s.msgs, x.body = b

theorem State.carries_send (s : State) (b : MsgBody) : (s.send b).Carries b := by
  obtain ⟨n, x, h⟩ := s.send_msgs b
  exact ⟨⟨n, b, false, 0, x⟩, by simp [h], rfl⟩

/-- What was under way before a send still is. -/
theorem State.Carries.send {s : State} {b : MsgBody} (h : s.Carries b) (c : MsgBody) : (s.send c).Carries b := by
  obtain ⟨y, hy, hb⟩ := h
  obtain ⟨n, x, hmsgs⟩ := s.send_msgs c
  exact ⟨y, by rw [hmsgs]; exact List.mem_append_left _ hy, hb⟩

@[simp] theorem State.hamper?_send (s : State) (b : MsgBody) (core blk : Nat) :
    (s.send b).hamper? core blk = s.hamper? core blk := by
  unfold State.hamper?
  rw [State.send_hampers]

@[simp] theorem State.home?_send (s : State) (b : MsgBody) (blk : Nat) : (s.send b).home? blk = s.home? blk := by
  unfold State.home?
  rw [State.send_homes]

theorem State.hamper?_some {s : State} {core blk : Nat} {h : Hamper} (hh : s.hamper? core blk = some h) :
    h.core = core ∧ h.blk = blk := by
  simpa using List.find?_some hh

/-- A line that leaves its L1 is found there no more. -/
theorem State.hamper?_dropHamper (s : State) (core blk : Nat) : (s.dropHamper core blk).hamper? core blk = none :=
  find?_filter_not _ _

/-- A hamper line set in the place of the one found is found there. -/
theorem State.hamper?_setHamper {s : State} {core blk : Nat} {h h' : Hamper} (hh : s.hamper? core blk = some h)
    (hcore : h'.core = h.core) (hblk : h'.blk = h.blk) : (s.setHamper h').hamper? core blk = some h' := by
  obtain ⟨rfl, rfl⟩ := State.hamper?_some hh
  have hkey : ∀ a b : Hamper, (a.core == b.core && a.blk == b.blk) = (Nat.pair a.core a.blk == Nat.pair b.core b.blk) :=
    fun a b => by
      rw [Bool.eq_iff_iff]
      simp [Nat.pair_eq_pair]
  rw [← hcore, ← hblk] at hh ⊢
  unfold State.hamper? State.setHamper at *
  simp only [hkey] at hh ⊢
  exact find_map_same (fun x : Hamper => Nat.pair x.core x.blk) s.hampers h' (by rw [hh]; rfl)

theorem State.home?_blk {s : State} {blk : Nat} {hb : HomeBlk} (h : s.home? blk = some hb) : hb.blk = blk := by
  simpa using List.find?_some h

/-- What the home keeps of a block is what was set, and nothing where no holder and no reply is left (07 R215). -/
theorem State.home?_setHome (s : State) (hb : HomeBlk) : (s.setHome hb).home? hb.blk =
    if hb.holders.isEmpty && hb.replies.isEmpty then none else some hb := by
  have hrest : (s.homes.filter fun x => x.blk != hb.blk).find? (fun x => x.blk == hb.blk) = none := find?_filter_not _ _
  unfold State.home? State.setHome
  rw [List.find?_append, hrest]
  split <;> simp

@[simp] theorem State.setHome_groups (s : State) (hb : HomeBlk) : (s.setHome hb).groups = s.groups := rfl

/-- A message changed in its place is found as changed. -/
theorem State.msg?_mapSent {s : State} {m : Msg} (h : s.msg? m.id = some m) (x : Option Sent) :
    (s.msgs.map fun y => if y.id == m.id then { y with sent := x } else y).find? (fun y => y.id == m.id) =
      some { m with sent := x } := by
  have hid : ((fun y : Msg => y.id == m.id) ∘ fun y => if y.id == m.id then { y with sent := x } else y) =
      fun y => y.id == m.id := by
    funext y
    dsimp only [Function.comp_apply]
    split <;> rfl
  unfold State.msg? at h
  rw [List.find?_map, hid, h]
  simp

/-! ## Shares granted (07 R215) -/

section
variable (s : State) (hb : HomeBlk) (core : Nat) (share : W64)

theorem State.grantShare_mem : (s.grantShare hb core share).mem = s.mem := by
  unfold State.grantShare
  rw [State.send_mem]
  rfl

theorem State.grantShare_hampers : (s.grantShare hb core share).hampers = s.hampers := by
  unfold State.grantShare
  rw [State.send_hampers]
  rfl

theorem State.carries_grantShare : (s.grantShare hb core share).Carries (.grant core hb.blk hb.region share s.nextId) :=
  State.carries_send _ _

/-- A core that a share is granted to is a holder of the block. -/
theorem State.home?_grantShare : (s.grantShare hb core share).home? hb.blk =
    some { hb with holders := hb.holders ++ [⟨core, s.nextId, share, false⟩] } := by
  unfold State.grantShare
  rw [State.home?_send]
  exact (State.home?_setHome _ { hb with holders := hb.holders ++ [⟨core, s.nextId, share, false⟩] }).trans
    (if_neg (by simp))
end

/-! ## Share requests (07 R215) -/

/-- No split of a block is on its way. -/
def State.NoSplit (s : State) (blk : Nat) : Prop :=
  ∀ x ∈ s.msgs, ∀ c r n nw y z, x.body ≠ .split c blk r n nw y z ∧ x.body ≠ .splitAck c blk r n nw y z

theorem State.NoSplit.dropMsg {s : State} {blk : Nat} (h : s.NoSplit blk) (id : Nat) : (s.dropMsg id).NoSplit blk :=
  fun x hx => h x (List.mem_of_mem_filter hx)

/-- A share that no split is to change is as the home keeps it. -/
theorem State.NoSplit.pendingShare {s : State} {blk : Nat} (h : s.NoSplit blk) (x : Holder) :
    s.pendingShare blk x = x.share := by
  unfold State.pendingShare
  refine List.foldlRecOn (motive := fun b => b = x.share) s.msgs _ rfl fun b hb m hm => ?_
  split
  · next hbody =>
    refine (if_neg fun hc => ?_).trans hb
    simp only [Bool.and_eq_true, beq_iff_eq] at hc
    exact (h m hm _ _ _ _ _ _).1 (by rw [hbody, hc.1.2])
  · next hbody =>
    refine (if_neg fun hc => ?_).trans hb
    simp only [Bool.and_eq_true, beq_iff_eq] at hc
    exact (h m hm _ _ _ _ _ _).2 (by rw [hbody, hc.1.2])
  · exact hb

/-- The halves of an integer share make it up, and the holder's is no smaller (log 51). -/
theorem Region.halves_int {r : Region} (h : r.isFloat = false) (b : W64) :
    (r.halves b).1.toNat + (r.halves b).2.toNat = b.toNat ∧ (r.halves b).2.toNat ≤ (r.halves b).1.toNat := by
  have hb := b.isLt
  unfold Region.halves
  rw [h]
  simp only [Bool.false_eq_true, if_false]
  have hdiv : (b / 2).toNat = b.toNat / 2 := by simp
  have hsub : (b - b / 2).toNat = b.toNat - b.toNat / 2 := by
    rw [BitVec.toNat_sub_of_le (by rw [BitVec.le_def, hdiv]; omega), hdiv]
  omega

section
variable {s : State} {m : Msg} {core blk : Nat} {r : Region} (hm : s.msg? m.id = some m) (hlost : m.lost = false)
  (hbody : m.body = .shareReq core blk r) (hahead : s.drainAhead m.id core blk = false) (hsplit : s.NoSplit blk)
include hm hlost hbody hahead hsplit

/-- A request for a block that no split is under way for: the free share, or a split of the largest share that is not
recalled, where it can be split (07 R215). -/
theorem exec_shareRequest {hb : HomeBlk} (hhome : (s.home? blk).getD ⟨blk, r, [], []⟩ = hb) (hfew : hb.holders.length < 64) :
    let free := hb.region.ofUnits (hb.region.units hb.region.limit -
      hb.holders.foldl (fun n h => n + hb.region.units h.share) 0)
    (hb.region.units free ≠ 0 → exec (.shareRequest m.id) s = .next ((s.dropMsg m.id).grantShare hb core free)) ∧
    (hb.region.units free = 0 →
      ∀ h, largest (fun h => hb.region.units h.share) (hb.holders.filter fun h => !h.recalled) = some h →
        exec (.shareRequest m.id) s = .next (if hb.region.splittable h.share then
          (s.dropMsg m.id).send (.split h.core blk hb.region h.line core (hb.region.halves h.share).1 (hb.region.halves h.share).2)
          else (s.dropMsg m.id).grantNone core blk hb.region)) := by
  have hhome' : ((s.dropMsg m.id).home? blk).getD ⟨blk, r, [], []⟩ = hb := hhome
  have hexec : exec (.shareRequest m.id) s = execShareRequest m.id s := rfl
  rw [hexec]
  unfold execShareRequest
  rw [needSome_eq _ hm, hbody]
  dsimp only
  rw [need_eq _ (by rw [hlost, hahead]; rfl), hhome', List.countP_eq_zero.2, if_neg (by omega)]
  · simp only [(hsplit.dropMsg m.id).pendingShare, bne_iff_ne, ne_eq]
    refine ⟨fun hfree => if_pos hfree, fun hfree h hlargest => ?_⟩
    rw [if_neg (not_not_intro hfree), hlargest]
    exact (apply_ite ..).symm
  · intro x hx hb
    split at hb
    · next hsp => exact ((hsplit.dropMsg m.id) x hx _ _ _ _ _ _).1 (by rw [hsp, beq_iff_eq.1 hb])
    · next hsp => exact ((hsplit.dropMsg m.id) x hx _ _ _ _ _ _).2 (by rw [hsp, beq_iff_eq.1 hb])
    · cases hb

/-- The first request for a block receives the whole limit (07 R215). -/
theorem shareRequest_first (hhome : s.home? blk = none) (hshare : r.units (r.ofUnits (r.units r.limit)) ≠ 0) :
    ∃ t, exec (.shareRequest m.id) s = .next t ∧ t.Carries (.grant core blk r (r.ofUnits (r.units r.limit)) s.nextId) ∧
      t.mem = s.mem ∧ t.hampers = s.hampers ∧
      t.home? blk = some ⟨blk, r, [⟨core, s.nextId, r.ofUnits (r.units r.limit), false⟩], []⟩ :=
  ⟨_, (exec_shareRequest hm hlost hbody hahead hsplit (hb := ⟨blk, r, [], []⟩) (by rw [hhome]; rfl) (by simp)).1 hshare,
    State.carries_grantShare .., State.grantShare_mem .., State.grantShare_hampers .., State.home?_grantShare ..⟩

/-- A request for a block whose only holder has the whole of an integer limit is answered by a split of it, or with
share 0 where that is too small to split (07 R215). -/
theorem shareRequest_second {r' : Region} {c ln : Nat} {b : W64}
    (hhome : s.home? blk = some ⟨blk, r', [⟨c, ln, b, false⟩], []⟩) (hint : r'.isFloat = false) (hlimit : r'.limit = b) :
    (r'.splittable b = true → ∃ t keep give, exec (.shareRequest m.id) s = .next t ∧
      t.Carries (.split c blk r' ln core keep give) ∧ keep.toNat + give.toNat = b.toNat ∧ give.toNat ≤ keep.toNat ∧
      t.homes = s.homes ∧ t.mem = s.mem) ∧
    (r'.splittable b = false → ∃ t, exec (.shareRequest m.id) s = .next t ∧ t.Carries (.grant core blk r' 0 0) ∧
      t.homes = s.homes) := by
  have hfree : r'.units (r'.ofUnits (r'.units r'.limit - (0 + r'.units b))) = 0 := by
    simp [Region.units, Region.ofUnits, hint, hlimit]
  have hexec := (exec_shareRequest hm hlost hbody hahead hsplit (hb := ⟨blk, r', [⟨c, ln, b, false⟩], []⟩)
    (by rw [hhome]; rfl) (by simp)).2 hfree ⟨c, ln, b, false⟩ rfl
  refine ⟨fun hs => ?_, fun hs => ?_⟩
  · obtain ⟨hsum, hle⟩ := Region.halves_int hint b
    exact ⟨_, _, _, hexec.trans (congrArg _ (if_pos hs)), State.carries_send .., hsum, hle, State.send_homes .., State.send_mem ..⟩
  · exact ⟨_, hexec.trans (congrArg _ (if_neg (by simp [hs]))), State.carries_send .., State.send_homes ..⟩
end

/-! ## Recalls of hampers (07 R217) -/

/-- A recall comes to its L1 behind the grants sent before it: the splits for the recalled holder give way, and their
newcomers get share 0 (log 49), which leaves hampers, memory and groups as they are; then the line leaves. -/
theorem exec_recallHamper {s : State} {m : Msg} {core blk line : Nat} (hm : s.msg? m.id = some m) (hlost : m.lost = false)
    (hbody : m.body = .recallHamper core blk line)
    (hfirst : ∀ x ∈ s.msgs, m.id ≤ x.id ∨ ∀ r v n, x.body ≠ .grant core blk r v n) :
    ∃ u : State, (u.hampers = s.hampers ∧ u.mem = s.mem ∧ u.groups = s.groups) ∧
      (∀ h, s.hamper? core blk = some h → exec (.recall m.id) s = .next (if h.line == line then u.leaveHamper h none else u)) ∧
      (s.hamper? core blk = none → exec (.recall m.id) s = .next u) := by
  have hexec : exec (.recall m.id) s = recallHamperAt s m.id core blk line := by
    change execRecall m.id s = _
    unfold execRecall
    rw [needSome_eq _ hm, hbody]
    exact need_eq _ (by rw [hlost]; rfl)
  rw [hexec]
  unfold recallHamperAt
  rw [need_eq _ ?behindGrants]
  case behindGrants =>
    refine List.all_eq_true.2 fun x hx => ?_
    rcases hfirst x hx with h | h
    · simp [h]
    · split
      · next c b _ _ _ hgrant =>
        have hne : ¬(c = core ∧ b = blk) := by
          rintro ⟨rfl, rfl⟩
          exact h _ _ _ hgrant
        simpa [or_iff_not_imp_left] using fun _ hc hb => hne ⟨hc, hb⟩
      · exact Bool.or_true _
  dsimp only
  generalize hu : List.foldl _ _ _ = u
  have hkept : u.hampers = s.hampers ∧ u.mem = s.mem ∧ u.groups = s.groups := by
    rw [← hu]
    refine List.foldlRecOn (motive := fun t : State => t.hampers = s.hampers ∧ t.mem = s.mem ∧ t.groups = s.groups)
      _ _ ⟨rfl, rfl, rfl⟩ fun t ht x _ => ?_
    split
    · split
      · unfold State.grantNone
        rw [State.send_hampers, State.send_mem, State.send_groups]
        exact ht
      · exact ht
    · exact ht
  have hfind : u.hamper? core blk = s.hamper? core blk := by
    unfold State.hamper?
    rw [hkept.1]
  rw [hfind]
  exact ⟨u, hkept, fun h hh => by rw [hh], fun hh => by rw [hh]⟩

section
variable (s : State) (h : Hamper) (op : Option Nat)

theorem State.hamper?_leaveHamper : (s.leaveHamper h op).hamper? h.core h.blk = none :=
  (State.hamper?_send ..).trans (State.hamper?_dropHamper ..)

theorem State.leaveHamper_mem : (s.leaveHamper h op).mem = s.mem := State.send_mem ..

theorem State.leaveHamper_groups : (s.leaveHamper h op).groups = s.groups := State.send_groups ..

theorem State.carries_leaveHamper :
    (s.leaveHamper h op).Carries (.drain h.core h.blk h.region h.line h.sums true false op none) := State.carries_send ..
end

/-- A recalled line leaves with its partials and its share; a recall of another line leaves the hampers as they are. -/
theorem recall_hamper {s : State} {m : Msg} {core blk line : Nat} (hm : s.msg? m.id = some m) (hlost : m.lost = false)
    (hbody : m.body = .recallHamper core blk line)
    (hfirst : ∀ x ∈ s.msgs, m.id ≤ x.id ∨ ∀ r v n, x.body ≠ .grant core blk r v n) :
    (∀ h, s.hamper? core blk = some h → h.line = line → ∃ t, exec (.recall m.id) s = .next t ∧ t.hamper? core blk = none ∧
      t.mem = s.mem ∧ t.groups = s.groups ∧ t.Carries (.drain core blk h.region h.line h.sums true false none none)) ∧
    ((∀ h, s.hamper? core blk = some h → h.line ≠ line) → ∃ t, exec (.recall m.id) s = .next t ∧ t.hampers = s.hampers ∧
      t.mem = s.mem ∧ t.groups = s.groups) := by
  obtain ⟨u, ⟨hhampers, hmem, hgroups⟩, hheld, hnone⟩ := exec_recallHamper hm hlost hbody hfirst
  refine ⟨fun h hh hline => ?_, fun hother => ?_⟩
  · obtain ⟨rfl, rfl⟩ := State.hamper?_some hh
    exact ⟨_, (hheld h hh).trans (congrArg _ (if_pos (by simpa using hline))), State.hamper?_leaveHamper ..,
      (State.leaveHamper_mem ..).trans hmem, (State.leaveHamper_groups ..).trans hgroups, State.carries_leaveHamper ..⟩
  · refine ⟨u, ?_, hhampers, hmem, hgroups⟩
    cases hh : s.hamper? core blk with
    | none => exact hnone hh
    | some h => exact (hheld h hh).trans (congrArg _ (if_neg (by simpa using hother h hh)))

/-! ## Splits and grants (07 R214, R215) -/

section
variable {s : State} {m : Msg} {core blk : Nat} {r : Region} {line nw : Nat} {keep give v : W64}
  (hm : s.msg? m.id = some m) (hlost : m.lost = false)
include hm hlost

/-- The holder of a split whose trackers its new share allows takes it, and acknowledges (07 R215). -/
theorem splitRequest_held {h : Hamper} (hbody : m.body = .split core blk r line nw keep give)
    (hfirst : s.firstFor m.id core blk = true) (hh : s.hamper? core blk = some h) (hline : h.line = line)
    (htrack : ∀ q ∈ h.track, h.region.within q.2 keep = true) :
    exec (.splitRequest m.id) s =
      .next (((s.dropMsg m.id).setHamper { h with share := keep }).send (.splitAck core blk r line nw keep give)) := by
  have hh' : (s.dropMsg m.id).hamper? core blk = some h := hh
  have hover : h.track.any (fun q => !h.region.within q.2 keep) = false := by simpa using htrack
  change execSplitRequest m.id s = _
  unfold execSplitRequest
  rw [needSome_eq _ hm, hbody]
  dsimp only
  rw [need_eq _ (by rw [hlost, hfirst]; rfl), hh']
  dsimp only
  rw [if_neg (by simpa using hline), hover]
  rfl

/-- An L1 whose line has left acknowledges a split all the same (07 R215). -/
theorem splitRequest_gone (hbody : m.body = .split core blk r line nw keep give)
    (hfirst : s.firstFor m.id core blk = true) (hh : s.hamper? core blk = none) :
    exec (.splitRequest m.id) s = .next ((s.dropMsg m.id).send (.splitAck core blk r line nw keep give)) := by
  have hh' : (s.dropMsg m.id).hamper? core blk = none := hh
  change execSplitRequest m.id s = _
  unfold execSplitRequest
  rw [needSome_eq _ hm, hbody]
  dsimp only
  rw [need_eq _ (by rw [hlost, hfirst]; rfl), hh']

/-- A split's acknowledgement at the home, behind the drains and acknowledgements that its holder has sent before. -/
theorem exec_splitAck (hbody : m.body = .splitAck core blk r line nw keep give)
    (hahead : s.drainAhead m.id core blk = false) (hfirst : s.firstAck m.id line blk = true) :
    exec (.splitRequest m.id) s = .next (splitAcked (s.dropMsg m.id) blk r line nw keep give) := by
  change execSplitRequest m.id s = _
  unfold execSplitRequest
  rw [needSome_eq _ hm, hbody]
  exact need_eq _ (by rw [hlost, hahead, hfirst]; rfl)

/-- A grant at its L1: nothing for share 0, and else a line, where the L1 has room for it (07 R214). -/
theorem exec_shareGrant {n : Nat} (hbody : m.body = .grant core blk r v n) (hfirst : s.firstFor m.id core blk = true) :
    (v = 0 → exec (.shareGrant m.id) s = .next (s.dropMsg m.id)) ∧
    (v ≠ 0 → (s.hampers.filter fun h => h.core == core).length < 512 → s.l1Used core + 2 ≤ l1Places →
      exec (.shareGrant m.id) s =
        .next { s.dropMsg m.id with hampers := s.hampers ++ [⟨core, blk, n, r, v, [], 0, [], false⟩] }) := by
  have hexec : exec (.shareGrant m.id) s = execShareGrant m.id s := rfl
  rw [hexec]
  unfold execShareGrant
  rw [needSome_eq _ hm, hbody]
  dsimp only
  rw [need_eq _ (by rw [hlost, hfirst]; rfl)]
  refine ⟨fun hv => if_pos hv, fun hv hfew hroom => ?_⟩
  have hmake : (s.dropMsg m.id).makeRoom core 2 = s.dropMsg m.id := by
    have hused : (s.dropMsg m.id).l1Used core + 2 - l1Places = 0 := Nat.sub_eq_zero_of_le hroom
    unfold State.makeRoom
    rw [hused]
    rfl
  rw [if_neg hv, if_pos (show ((s.dropMsg m.id).hampers.filter fun h => h.core == core).length < 512 from hfew), hmake]
  rfl
end

/-- The holder's share falls, and the newcomer is granted the rest (07 R215). -/
theorem splitAcked_held {s : State} {blk line : Nat} {hb : HomeBlk} (r : Region) (nw : Nat) (keep give : W64)
    (hhome : s.home? blk = some hb) (hline : ∃ h ∈ hb.holders, h.line = line) :
    splitAcked s blk r line nw keep give = s.grantShare
      { hb with holders := hb.holders.map fun h => if h.line == line then { h with share := keep } else h } nw give := by
  unfold splitAcked
  rw [hhome]
  exact if_pos (by simpa using hline)

/-- Where the holder has left, the newcomer's request is served anew (log 49). -/
theorem splitAcked_gone {s : State} {blk line : Nat} (r : Region) (nw : Nat) (keep give : W64)
    (hline : ∀ hb, s.home? blk = some hb → ∀ h ∈ hb.holders, h.line ≠ line) :
    splitAcked s blk r line nw keep give = s.send (.shareReq nw blk r) := by
  unfold splitAcked
  refine if_neg ?_
  cases hhome : s.home? blk with
  | none => simp
  | some hb => simpa using hline hb hhome

/-! ## Sums combined at the home (07 R213, R216) -/

/-- A number as one 32-bit word. -/
theorem wordsNat_natWords_one (v : Nat) : wordsNat (natWords 1 v) = v % 2 ^ 32 := by
  simp [wordsNat, natWords]

/-- The sum of an I32 element and a partial, modulo 2^32 (07 R213). -/
theorem Region.combine_i32 {r : Region} (h : r.fmt = 2) (old : List Byte) (ws : List W32) :
    r.combine old ws = leBytes 4 (leNat (old.take 4) + wordsNat ws) := by
  have hwiden : r.widen old = natWords 1 (leNat (old.take 4)) := by
    unfold Region.widen
    rw [h]
    rfl
  have hsum : r.sum (r.widen old) ws = natWords 1 (wordsNat (r.widen old) + wordsNat ws) := by
    unfold Region.sum
    rw [h]
    rfl
  have hcombine : r.combine old ws = leBytes 4 (wordsNat (r.sum (r.widen old) ws)) := by
    unfold Region.combine
    rw [h]
    rfl
  rw [hcombine, hsum, hwiden, wordsNat_natWords_one, wordsNat_natWords_one, Nat.mod_add_mod]
  exact leBytes_mod 4 _

/-- One element of a drain's sums added in an I32 region. -/
def State.addSum (blk : Nat) (x : Sums) (s : State) (e : Nat) : State :=
  if x.seen.getLsbD e then s.putLe (blk + 4 * e) 4 (s.le (blk + 4 * e) 4 + (Store.read x.part e).toNat) else s

/-- A drain of an I32 region adds its 16 elements one after another. -/
theorem State.combineAll_i32 {r : Region} (h : r.fmt = 2) (s : State) (blk : Nat) (x : Sums) :
    s.combineAll r blk x = (List.range 16).foldl (State.addSum blk x) s := by
  have hbytes : r.elemBytes = 4 := by unfold Region.elemBytes; rw [h]; rfl
  have helems : r.elems = 16 := by unfold Region.elems; rw [hbytes]
  have hpart : ∀ e, wordsNat (partWordsAt r x.part e) = (Store.read x.part e).toNat := fun e => by
    unfold partWordsAt Region.partWords
    rw [h]
    simp [wordsNat]
  unfold State.combineAll
  rw [helems]
  congr 1
  funext s e
  unfold State.addSum State.combineAt
  rw [hbytes, Region.combine_i32 h, hpart, Nat.mul_comm e 4,
    List.take_of_length_le (by unfold State.bytes; rw [Store.readList_length])]
  rfl

/-- A number of 4 bytes written: what is read there, and elsewhere. -/
theorem State.le_putLe (s : State) (blk v : Nat) (e j : Nat) :
    (s.putLe (blk + 4 * e) 4 v).le (blk + 4 * j) 4 = if j = e then v % 2 ^ 32 else s.le (blk + 4 * j) 4 := by
  split
  · next h =>
    subst h
    exact State.le_putBytes s (blk + 4 * j) 4 v (a := []) (c := []) (by simp)
  · next h =>
    unfold State.le State.bytes
    rw [Store.readList_congr]
    exact fun i hi => s.putBytes_out _ _ _ (by rw [leBytes_length]; omega)

/-- The first elements of a drain's sums stand added, the others as they were, and memory outside them too. -/
theorem State.foldl_addSum (s : State) (blk : Nat) (x : Sums) (n : Nat) :
    let t := (List.range n).foldl (State.addSum blk x) s
    (∀ e, t.le (blk + 4 * e) 4 = if e < n ∧ x.seen.getLsbD e = true
      then (s.le (blk + 4 * e) 4 + (Store.read x.part e).toNat) % 2 ^ 32 else s.le (blk + 4 * e) 4) ∧
    ∀ y, (y < blk ∨ blk + 4 * n ≤ y) → Store.read t.mem y = Store.read s.mem y := by
  induction n with
  | zero => simp
  | succ n ih =>
    obtain ⟨hin, hout⟩ := ih
    dsimp only
    rw [List.range_succ, List.foldl_append, List.foldl_cons, List.foldl_nil]
    generalize (List.range n).foldl (State.addSum blk x) s = t at hin hout ⊢
    unfold State.addSum
    refine ⟨fun e => ?_, fun y hy => ?_⟩
    · by_cases hseen : x.seen.getLsbD n = true
      · rw [if_pos hseen, State.le_putLe, hin n, hin e]
        by_cases he : e = n
        · subst he; simp [hseen]
        · simp [he, show e < n + 1 ↔ e < n by omega]
      · rw [if_neg hseen, hin e]
        by_cases he : e = n
        · subst he; simp [hseen]
        · simp [show e < n + 1 ↔ e < n by omega]
    · split
      · exact (t.putBytes_out _ _ _ (by rw [leBytes_length]; omega)).trans (hout y (by omega))
      · exact hout y (by omega)

/-- A combine changes memory alone. -/
theorem State.combineAll_eq (s : State) (r : Region) (blk : Nat) (x : Sums) :
    s.combineAll r blk x = { s with mem := (s.combineAll r blk x).mem } := by
  unfold State.combineAll
  refine List.foldlRecOn (motive := fun t : State => t = { s with mem := t.mem }) _ _ rfl fun t ht e _ => ?_
  split
  · rw [ht]
    rfl
  · exact ht

/-! ## Drains on their way (07 R207) -/

section
variable {s : State} {m : Msg} {core blk : Nat} {r : Region} {line : Nat} {x : Sums} {leave poisoned : Bool}
  {op contrib : Option Nat} (hm : s.msg? m.id = some m) (hlost : m.lost = false)
  (hbody : m.body = .drain core blk r line x leave poisoned op contrib)
include hm hlost hbody

/-- A drain over a link is sent under its requester's next number once the window is open (15 R415). -/
theorem drainCombine_sent (hremote : s.remote core blk = true) (hsent : m.sent = none)
    (hopen : s.windowOpen (4 * core) (destOf s blk) = true) :
    ∃ t z, exec (.drainCombine m.id) s = .next t ∧ t.mem = s.mem ∧ t.homes = s.homes ∧
      t.msg? m.id = some { m with sent := some z } ∧ z.home = destOf s blk ∧ z.arrived = false ∧ z.at_ = s.ctl.ptc ∧
      z.seq = (s.filterOf (4 * core) (destOf s blk)).next := by
  have hexec : exec (.drainCombine m.id) s = .next
      { (s.number (4 * core) (destOf s blk)).2 with
        msgs := (s.number (4 * core) (destOf s blk)).2.msgs.map fun y =>
          if y.id == m.id then { y with sent := some (s.number (4 * core) (destOf s blk)).1 } else y } := by
    change execDrainCombine m.id s = _
    unfold execDrainCombine
    rw [needSome_eq _ hm, hbody]
    dsimp only
    rw [need_eq _ (by rw [hlost]; rfl)]
    unfold drainTravel
    rw [hremote, hsent]
    exact need_eq _ hopen
  refine ⟨_, (s.number (4 * core) (destOf s blk)).1, hexec, ?_, ?_, ?_, rfl, rfl, rfl, rfl⟩
  · dsimp only
    rw [State.number_eq]
  · dsimp only
    rw [State.number_eq]
  · unfold State.msg?
    dsimp only
    rw [State.number_eq]
    exact State.msg?_mapSent hm _

/-- A drain that was sent arrives behind what its path carried before it (15 R416). -/
theorem drainCombine_arrives {z : Sent} (hremote : s.remote core blk = true) (hsent : m.sent = some z)
    (harrives : s.arrives z = true) :
    ∃ t, exec (.drainCombine m.id) s = .next t ∧ t = { s with msgs := t.msgs } ∧
      t.msg? m.id = some { m with sent := some { z with arrived := true } } := by
  have hnew : z.arrived = false := by
    unfold State.arrives at harrives
    cases hz : z.arrived with
    | false => rfl
    | true => simp [hz] at harrives
  have hexec : exec (.drainCombine m.id) s = .next { s with
      msgs := s.msgs.map fun y => if y.id == m.id then { y with sent := some { z with arrived := true } } else y } := by
    change execDrainCombine m.id s = _
    unfold execDrainCombine
    rw [needSome_eq _ hm, hbody]
    dsimp only
    rw [need_eq _ (by rw [hlost]; rfl)]
    unfold drainTravel
    rw [hremote, hsent]
    dsimp only
    rw [hnew]
    exact need_eq _ harrives
  exact ⟨_, hexec, rfl, State.msg?_mapSent hm _⟩
end

/-! ## Drains at their home (07 R215, R216) -/

/-- A drain at its home, as it is applied: its message is gone, and a number it had is noted. -/
def State.takeDrain (s : State) (m : Msg) (core : Nat) : State := (s.dropMsg m.id).noted (4 * core) m.sent

section
variable (s : State) (m : Msg) (core : Nat)

@[simp] theorem State.takeDrain_mem : (s.takeDrain m core).mem = s.mem := by
  unfold State.takeDrain
  rw [State.noted_eq, State.dropMsg_mem]

@[simp] theorem State.takeDrain_groups : (s.takeDrain m core).groups = s.groups := by
  unfold State.takeDrain
  rw [State.noted_eq, State.dropMsg_groups]

@[simp] theorem State.home?_takeDrain (blk : Nat) : (s.takeDrain m core).home? blk = s.home? blk := by
  unfold State.takeDrain
  rw [State.noted_eq]
  rfl
end

section
variable {s : State} {m : Msg} {core blk : Nat} {r : Region} {line : Nat} {x : Sums} {op contrib : Option Nat}
  (hm : s.msg? m.id = some m) (hlost : m.lost = false)
  (hhere : s.remote core blk = false ∨ ∃ z, m.sent = some z ∧ z.arrived = true)
  (hdrains : s.drainAhead m.id core blk = false) (hadds : s.addAhead m.id core blk = false)
include hm hlost hhere hdrains hadds

/-- A drain that has come home is applied: it is combined, and with the line the holder leaves, unless it is the reply to a
recall, which is gathered where the region's order asks for it and others are to come. -/
theorem exec_drainCombine {leave : Bool} {hb : HomeBlk} (hbody : m.body = .drain core blk r line x leave false op contrib)
    (hhome : (s.home? blk).getD ⟨blk, r, [], []⟩ = hb) :
    let u := s.takeDrain m core
    let recalled := hb.holders.any fun h => h.line == line && h.recalled
    let replies := hb.replies ++ [⟨line, x, op⟩]
    (leave = false → exec (.drainCombine m.id) s =
      .next ((u.combineAll hb.region blk x).send (.drainAck core blk line contrib))) ∧
    (leave = true → recalled = false → exec (.drainCombine m.id) s =
      .next ((u.combineAll hb.region blk x).setHome { hb with holders := hb.holders.filter fun h => h.line != line })) ∧
    (leave = true → recalled = true → hb.region.order = 1 →
      (hb.holders.all fun h => !h.recalled || replies.any fun q => q.line == h.line) = false →
      exec (.drainCombine m.id) s = .next (u.setHome { hb with replies := replies })) := by
  have hhome' : ((s.takeDrain m core).home? blk).getD ⟨blk, r, [], []⟩ = hb := by rw [State.home?_takeDrain, hhome]
  have htravel : ∀ f, drainTravel s m core blk f = f := fun f => by
    unfold drainTravel
    rcases hhere with h | ⟨z, hz, harr⟩
    · rw [h]
      rfl
    · rw [hz]
      dsimp only
      rw [harr]
      split <;> rfl
  have hexec : exec (.drainCombine m.id) s = execDrainCombine m.id s := rfl
  dsimp only
  rw [hexec]
  unfold execDrainCombine
  rw [needSome_eq _ hm, hbody]
  dsimp only
  rw [need_eq _ (by rw [hlost]; rfl), htravel, need_eq _ (by rw [hdrains, hadds]; rfl), if_neg Bool.false_ne_true,
    show (s.dropMsg m.id).noted (4 * core) m.sent = s.takeDrain m core from rfl, hhome']
  refine ⟨?_, ?_, ?_⟩
  · rintro rfl
    rfl
  · rintro rfl hnone
    rw [hnone]
    rfl
  · rintro rfl hsome hord hall
    rw [hsome, hord, hall]
    rfl

/-- A drain of an I32 region adds each partial to its element modulo 2^32, and is acknowledged (07 R213, R214). -/
theorem drainCombine_adds (hbody : m.body = .drain core blk r line x false false op contrib) (hfmt : r.fmt = 2)
    (hregion : ∀ hb, s.home? blk = some hb → hb.region = r) :
    ∃ t, exec (.drainCombine m.id) s = .next t ∧ t.Carries (.drainAck core blk line contrib) ∧ t.groups = s.groups ∧
      (∀ e, e < 16 → t.le (blk + 4 * e) 4 = if x.seen.getLsbD e = true
        then (s.le (blk + 4 * e) 4 + (Store.read x.part e).toNat) % 2 ^ 32 else s.le (blk + 4 * e) 4) ∧
      ∀ y, (y < blk ∨ blk + 64 ≤ y) → Store.read t.mem y = Store.read s.mem y := by
  have hr : ((s.home? blk).getD ⟨blk, r, [], []⟩).region = r := by
    cases h : s.home? blk with
    | none => rfl
    | some hb => exact hregion hb h
  have hexec := (exec_drainCombine hm hlost hhere hdrains hadds hbody rfl).1 rfl
  rw [hr] at hexec
  refine ⟨_, hexec, State.carries_send .., ?_, ?_⟩
  · rw [State.send_groups, State.combineAll_eq]
    exact State.takeDrain_groups ..
  · rw [State.combineAll_i32 hfmt]
    obtain ⟨hin, hout⟩ := (s.takeDrain m core).foldl_addSum blk x 16
    refine ⟨fun e he => ?_, fun y hy => ?_⟩
    · rw [State.le_congr (State.send_mem ..), hin e, State.le_congr (State.takeDrain_mem ..)]
      simp [he]
    · rw [State.send_mem, hout y hy, State.takeDrain_mem]

/-- A line that leaves without being recalled gives up its place among the holders (07 R216). -/
theorem drainCombine_leaves {hb : HomeBlk} (hbody : m.body = .drain core blk r line x true false op contrib)
    (hhome : s.home? blk = some hb) (hkept : ∀ h ∈ hb.holders, h.line = line → h.recalled = false) :
    ∃ t, exec (.drainCombine m.id) s = .next t ∧ t.groups = s.groups ∧
      ∀ hb', t.home? blk = some hb' → ∀ h ∈ hb'.holders, h ∈ hb.holders ∧ h.line ≠ line := by
  have hrecalled : hb.holders.any (fun h => h.line == line && h.recalled) = false := by simpa using hkept
  have hexec := (exec_drainCombine hm hlost hhere hdrains hadds hbody (hb := hb) (by rw [hhome]; rfl)).2.1 rfl hrecalled
  refine ⟨_, hexec, ?_, fun hb' hhb' h hh => ?_⟩
  · rw [State.setHome_groups, State.combineAll_eq]
    exact State.takeDrain_groups ..
  · obtain rfl := State.home?_blk hhome
    have hset := State.home?_setHome ((s.takeDrain m core).combineAll hb.region hb.blk x)
      { hb with holders := hb.holders.filter fun h => h.line != line }
    have hhb : hb' = { hb with holders := hb.holders.filter fun h => h.line != line } := by
      have := hset.symm.trans hhb'
      split at this
      · cases this
      · exact (Option.some.inj this).symm
    rw [hhb] at hh
    simpa using List.mem_filter.1 hh

/-- The reply of a recalled line is gathered, in a region of ascending order, until the last recalled holder's is in (07
R216, R217). -/
theorem drainCombine_gathers {hb : HomeBlk} (hbody : m.body = .drain core blk r line x true false op contrib)
    (hhome : s.home? blk = some hb) (hrecalled : ∃ h ∈ hb.holders, h.line = line ∧ h.recalled = true)
    (horder : hb.region.order = 1)
    (hmissing : ∃ h ∈ hb.holders, h.recalled = true ∧ h.line ≠ line ∧ ∀ y ∈ hb.replies, y.line ≠ h.line) :
    ∃ t, exec (.drainCombine m.id) s = .next t ∧ t.mem = s.mem ∧ t.groups = s.groups ∧
      t.home? blk = some { hb with replies := hb.replies ++ [⟨line, x, op⟩] } := by
  have hany : hb.holders.any (fun h => h.line == line && h.recalled) = true := by simpa using hrecalled
  have hall : hb.holders.all (fun h => !h.recalled ||
      (hb.replies ++ [(⟨line, x, op⟩ : Reply)]).any fun q => q.line == h.line) = false := by
    obtain ⟨h, hh, hrec, hne, hno⟩ := hmissing
    refine List.all_eq_false.2 ⟨h, hh, ?_⟩
    simpa [hrec, hne.symm] using hno
  have hexec := (exec_drainCombine hm hlost hhere hdrains hadds hbody (hb := hb) (by rw [hhome]; rfl)).2.2 rfl hany horder hall
  obtain rfl := State.home?_blk hhome
  exact ⟨_, hexec, State.takeDrain_mem .., State.takeDrain_groups ..,
    (State.home?_setHome _ { hb with replies := hb.replies ++ [⟨line, x, op⟩] }).trans (if_neg (by simp))⟩
end

/-! ## Acknowledgements and markers (07 R206, R214) -/

/-- At the acknowledgement of its drain a line takes contributions again (07 R214). -/
theorem drainAck_line {s : State} {m : Msg} {core blk line : Nat} {contrib : Option Nat} {h : Hamper}
    (hm : s.msg? m.id = some m) (hlost : m.lost = false) (hbody : m.body = .drainAck core blk line contrib)
    (hfault : s.contribFault core contrib = false) (hh : s.hamper? core blk = some h) (hline : h.line = line) :
    ∃ t, exec (.drainAck m.id) s = .next t ∧ t.hamper? core blk = some { h with draining := false } ∧ t.mem = s.mem ∧
      t.groups = s.groups := by
  have hh' : (s.dropMsg m.id).hamper? core blk = some h := hh
  have hset : ((s.dropMsg m.id).setHamper { h with draining := false }).hamper? core blk = some { h with draining := false } :=
    State.hamper?_setHamper hh' rfl rfl
  have hexec : exec (.drainAck m.id) s = execDrainAck m.id s := rfl
  rw [hexec]
  unfold execDrainAck
  rw [needSome_eq _ hm, hbody]
  dsimp only
  rw [need_eq _ (by rw [hlost, hfault]; rfl), hh']
  dsimp only
  rw [if_pos (by simpa using hline)]
  cases contrib <;> exact ⟨_, rfl, hset, rfl, rfl⟩

/-- A marker is gathered behind what its path carried before it, or, where the path is lost, once that is acknowledged (15
R417). -/
theorem exec_flushMarkerGather {s : State} {m : Msg} {o d : Nat} {x : Sent} (hm : s.msg? m.id = some m)
    (hbody : m.body = .marker o d) (hsent : m.sent = some x)
    (hway : (s.pathUp x = true ∧ m.lost = false ∧ s.pathClear x = true) ∨ (s.pathUp x = false ∧ s.acked x = true)) :
    exec (.flushMarkerGather m.id) s = .next (s.dropMsg m.id) := by
  change execFlushMarkerGather m.id s = _
  unfold execFlushMarkerGather
  rw [needSome_eq _ hm, hbody]
  dsimp only
  rw [needSome_eq _ hsent]
  refine need_eq _ ?_
  rcases hway with ⟨hup, hlost, hclear⟩ | ⟨hdown, hacked⟩
  · rw [hup, hlost, hclear]
    rfl
  · rw [hdown, hacked]
    rfl

/-! ## The holders that a read recalls (07 R217) -/

/-- The holder with the largest share is one of them. -/
theorem largest_mem {f : Holder → Nat} {hs : List Holder} {h : Holder} (hl : largest f hs = some h) : h ∈ hs := by
  unfold largest at hl
  refine List.foldlRecOn (motive := fun m => ∀ h, m = some h → h ∈ hs) hs _ (fun _ hn => by cases hn) (fun m ih x hx h hh => ?_)
    h hl
  split at hh
  · exact Option.some.inj hh ▸ hx
  · split at hh
    · exact Option.some.inj hh ▸ hx
    · exact ih h hh

/-- Of some holders one has the largest share. -/
theorem largest_eq_none {f : Holder → Nat} {hs : List Holder} (hl : largest f hs = none) : hs = [] := by
  cases hs with
  | nil => rfl
  | cons x xs =>
    have hsome : (largest f (x :: xs)).isSome = true := by
      unfold largest
      rw [List.foldl_cons]
      refine List.foldlRecOn (motive := fun m : Option Holder => m.isSome = true) xs _ rfl fun m hm y _ => ?_
      split
      · rfl
      · split <;> rfl
    rw [hl] at hsome
    cases hsome

/-- The holders that a read does not recall have no more than its tolerance among them. -/
theorem recallChoice_rest_le (r : Region) (tau n : Nat) (hs : List Holder) (hn : hs.length ≤ n) :
    (hs.filter fun h => !(recallChoice r tau n hs).contains h.line).foldl (fun n h => n + r.units h.share) 0 ≤ tau := by
  induction n generalizing hs with
  | zero =>
    rw [List.length_eq_zero_iff.1 (Nat.le_zero.1 hn)]
    exact Nat.zero_le _
  | succ n ih =>
    unfold recallChoice
    split
    · next hle => simpa using hle
    · next hgt =>
      split
      · next hnone =>
        rw [largest_eq_none hnone] at hgt
        exact absurd (Nat.zero_le _) hgt
      · next h hlargest =>
        have hshorter : (hs.filter fun x => x.line != h.line).length < hs.length :=
          List.length_filter_lt_length_iff_exists.2 ⟨h, largest_mem hlargest, by simp⟩
        have hrest : ∀ l : List Nat, (hs.filter fun x => !(h.line :: l).contains x.line) =
            (hs.filter fun x => x.line != h.line).filter fun x => !l.contains x.line := fun l => by
          rw [List.filter_filter]
          exact List.filter_congr fun x _ => by rw [List.contains_cons, Bool.not_or, Bool.and_comm]; rfl
        rw [hrest]
        exact ih _ (by omega)

/-- Each line that a read recalls is a holder's. -/
theorem recallChoice_mem {r : Region} {tau n k : Nat} {hs : List Holder} (hk : k ∈ recallChoice r tau n hs) :
    ∃ h ∈ hs, h.line = k := by
  induction n generalizing hs with
  | zero => cases hk
  | succ n ih =>
    unfold recallChoice at hk
    split at hk
    · cases hk
    · split at hk
      · cases hk
      · next h hlargest =>
        rcases List.mem_cons.1 hk with rfl | hk
        · exact ⟨h, largest_mem hlargest, rfl⟩
        · obtain ⟨x, hx, hline⟩ := ih hk
          exact ⟨x, List.mem_of_mem_filter hx, hline⟩

/-- A recall sent to a holder, named by its line. -/
def State.sendRecall (hb : HomeBlk) (s : State) (n : Nat) : State :=
  match hb.holders.find? fun h => h.line == n with
  | some h => s.send (.recallHamper h.core hb.blk n)
  | none => s

/-- Recalls change messages alone. -/
theorem State.foldl_sendRecall (hb : HomeBlk) (lines : List Nat) (s : State) :
    (lines.foldl (State.sendRecall hb) s).mem = s.mem ∧ (lines.foldl (State.sendRecall hb) s).groups = s.groups := by
  refine List.foldlRecOn (motive := fun t : State => t.mem = s.mem ∧ t.groups = s.groups) lines _ ⟨rfl, rfl⟩ fun t ht n _ => ?_
  unfold State.sendRecall
  split
  · rw [State.send_mem, State.send_groups]
    exact ht
  · exact ht

/-- What is under way stays so while recalls are sent. -/
theorem State.Carries.foldl_sendRecall {s : State} {b : MsgBody} (h : s.Carries b) (hb : HomeBlk) (lines : List Nat) :
    (lines.foldl (State.sendRecall hb) s).Carries b := by
  refine List.foldlRecOn (motive := fun t : State => t.Carries b) lines _ h fun t ht n _ => ?_
  unfold State.sendRecall
  split
  · exact ht.send _
  · exact ht

/-- Each of the lines named is sent its recall. -/
theorem State.carries_foldl_sendRecall {hb : HomeBlk} {lines : List Nat} {n : Nat} {h : Holder} (hn : n ∈ lines)
    (hfind : (hb.holders.find? fun h => h.line == n) = some h) (s : State) :
    (lines.foldl (State.sendRecall hb) s).Carries (.recallHamper h.core hb.blk n) := by
  induction lines generalizing s with
  | nil => cases hn
  | cons k ks ih =>
    rcases List.mem_cons.1 hn with rfl | hn
    · have hsent : State.sendRecall hb s n = s.send (.recallHamper h.core hb.blk n) := by
        unfold State.sendRecall
        rw [hfind]
      rw [List.foldl_cons, hsent]
      exact (State.carries_send ..).foldl_sendRecall hb ks
    · exact ih hn _

/-- The recalls for a read mark the holders as recalled, and go out one by one. -/
theorem State.recallHolders_eq (s : State) (hb : HomeBlk) (lines : List Nat) :
    s.recallHolders hb lines = lines.foldl (State.sendRecall hb) (s.setHome { hb with
      holders := hb.holders.map fun h => if lines.contains h.line then { h with recalled := true } else h }) := rfl

/-! ## Reads with a tolerance (07 R217, R218) -/

section
variable {s : State} {op i key : Nat} {o : Op} {p : Part} {g : Group} {tm : Team} {gr : Grid} {rn : BitVec 12} {r : Region}
  {k : BitVec 3} {d : Dst} {a b : Src} {x : MemX}
  (ho : s.op? op = some o) (hp : o.parts[i]? = some p) (hi : o.instr = .ldtol k d a b x) (horder : x.order = .relaxed)
  (howner : s.ownerOf o = some (g, tm, gr)) (hst : p.st = .waiting) (hheld : p.held = none) (hclear : s.loadClear o = true)
  (hatoms : s.atomsClear o key = true) (halone : ∀ j q, o.parts[j]? = some q → j ≠ i → q.st ≠ .waiting)
  (hfresh : ∀ q ∈ o.parts, q.st = .done → q.key + q.len ≤ key ∨ key + r.elemBytes ≤ q.key)
  (hsite : p.site (s.placePiece g tm gr o.acc p x.size.bytes (sizeAlign x.size)) = .at key (some rn))
  (hregion : s.region? rn = some r) (hfits : sizeFits r x.size = true) (hadds : s.addsClear o (blockOf key) = true)
  (hpasses : s.passes o.core p key = true)
include ho hp hi horder howner hst hheld hclear hatoms halone hfresh hsite hregion hfits hadds hpasses

/-- An LDTOL whose part waits alone is a read at its home with its own tolerance, which takes the element in memory once the
home answers. -/
theorem exec_toleranceRead : ∃ answer : State → Out,
    exec (.toleranceRead op i) s = tolRead s o i p key r (tolerance r (o.cap 1 p.lane)) answer ∧
    (s.poisoned key = false → answer s = .next (s.setOp { o with
      parts := o.parts.set i { p with st := .done, key := key, len := r.elemBytes, asked := false }
      buf := Store.writeList o.buf (64 * p.lane) (s.bytes key r.elemBytes) })) := by
  have hacq : o.acquires = false := by simp [Op.acquires, Op.order, hi, horder]
  have htol : o.tolerance r p.lane = tolerance r (o.cap 1 p.lane) := by unfold Op.tolerance; rw [hi]
  have halike : o.alike key (s.bytes key r.elemBytes) = s.bytes key r.elemBytes :=
    Op.alike_eq fun q hq hdone => by
      have := hfresh q hq hdone
      unfold State.bytes
      rw [Store.readList_length]
      omega
  apply Exists.intro
  apply And.intro
  · change execToleranceRead op i s = _
    unfold execToleranceRead
    rw [needSome_eq _ ho, needSome_eq _ hp, hi]
    dsimp only
    unfold tolPart atPlace
    rw [needSome_eq _ howner, need_eq _ (by rw [hst, hheld, hclear]; rfl), hsite]
    dsimp only
    rw [need_eq _ hatoms, hregion, hi]
    dsimp only
    rw [if_neg (by rw [hfits, hadds]; exact Bool.false_ne_true), State.companions_nil fun j q hj hq => halone j q hq hj]
    unfold request
    rw [if_pos hpasses, ← htol]
    rfl
  · intro hpoison
    rw [s.acquireFor_eq hacq, hpoison, halike]
    rfl

/-- A read of a block that no L1 holds takes the element in memory (07 R217). -/
theorem toleranceRead_unheld (hhome : s.home? (blockOf key) = none) (hpoison : s.poisoned key = false)
    (hasked : p.asked = false) :
    exec (.toleranceRead op i) s = .next (s.setOp { o with
      parts := o.parts.set i { p with st := .done, key := key, len := r.elemBytes, asked := false }
      buf := Store.writeList o.buf (64 * p.lane) (s.bytes key r.elemBytes) }) := by
  obtain ⟨answer, hexec, hanswer⟩ := exec_toleranceRead ho hp hi horder howner hst hheld hclear hatoms halone hfresh hsite
    hregion hfits hadds hpasses
  rw [hexec, ← hanswer hpoison]
  unfold tolRead
  dsimp only
  rw [hhome, hasked]
  cases tolerance r (o.cap 1 p.lane) <;> rfl

/-- A read that recalls sends a recall to each line chosen (07 R217). -/
theorem toleranceRead_recalls {hb : HomeBlk} {n : Nat} {ns : List Nat} {t : Nat} (hasked : p.asked = false)
    (hhome : s.home? (blockOf key) = some hb) (htol : tolerance r (o.cap 1 p.lane) = some t)
    (hchoice : recallChoice hb.region t hb.holders.length (hb.holders.filter fun h => !h.recalled) = n :: ns) :
    ∃ u, exec (.toleranceRead op i) s = .next u ∧ u.mem = s.mem ∧ u.groups = s.groups ∧
      ∀ n' ∈ n :: ns, ∃ h ∈ hb.holders, h.line = n' ∧ ∃ y ∈ u.msgs, y.body = .recallHamper h.core (blockOf key) n' := by
  obtain ⟨answer, hexec, -⟩ := exec_toleranceRead ho hp hi horder howner hst hheld hclear hatoms halone hfresh hsite hregion
    hfits hadds hpasses
  have hblk := State.home?_blk hhome
  have hrecall : ∃ q : Op, exec (.toleranceRead op i) s = .next ((s.recallHolders hb (n :: ns)).setOp q) := by
    rw [hexec, htol]
    unfold tolRead
    dsimp only
    rw [hasked, hhome]
    dsimp only
    rw [hchoice]
    exact ⟨_, rfl⟩
  obtain ⟨q, hq⟩ := hrecall
  rw [State.recallHolders_eq] at hq
  refine ⟨_, hq, (State.foldl_sendRecall ..).1, (State.foldl_sendRecall ..).2, fun n' hn' => ?_⟩
  obtain ⟨h, hh, hline⟩ := recallChoice_mem (hchoice ▸ hn')
  have hfound : (hb.holders.find? fun h => h.line == n').isSome = true :=
    List.find?_isSome.2 ⟨h, List.mem_of_mem_filter hh, by simpa using hline⟩
  obtain ⟨h', hfind⟩ := Option.isSome_iff_exists.1 hfound
  rw [← hblk]
  exact ⟨h', List.mem_of_find?_eq_some hfind, by simpa using List.find?_some hfind,
    State.carries_foldl_sendRecall hn' hfind _⟩
end

/-- Settles O49: each message by what its step leaves of hampers, homes and memory, and each read by the recalls it sends. -/
theorem commutativeMemory : Obligations.CommutativeMemory := by
  refine ⟨fun s m core blk hm => ⟨fun hlost => ⟨?_, ?_, ?_, ?_, ?_, ?_, ?_, ?_⟩, ?_⟩, ?_, ?_⟩
  · exact fun line => recall_hamper hm hlost
  · intro r hbody hahead hsplit
    exact ⟨shareRequest_first hm hlost hbody hahead hsplit,
      fun _ _ _ _ => shareRequest_second hm hlost hbody hahead hsplit⟩
  · intro r line nw keep give hbody hfirst
    refine ⟨fun h hh hline htrack => ⟨_, splitRequest_held hm hlost hbody hfirst hh hline htrack, ?_, State.carries_send ..,
      State.send_homes .., State.send_mem ..⟩, fun hh => ⟨_, splitRequest_gone hm hlost hbody hfirst hh,
      State.send_hampers .., State.carries_send .., State.send_homes .., State.send_mem ..⟩⟩
    have hh' : (s.dropMsg m.id).hamper? core blk = some h := hh
    exact (State.hamper?_send ..).trans (State.hamper?_setHamper hh' rfl rfl)
  · intro r line nw keep give hbody hahead hfirst
    have hexec := exec_splitAck hm hlost hbody hahead hfirst
    refine ⟨fun hb hhome hline => ?_, fun hline => ?_⟩
    · rw [splitAcked_held (s := s.dropMsg m.id) r nw keep give hhome hline] at hexec
      obtain rfl := State.home?_blk hhome
      exact ⟨_, hexec, State.carries_grantShare .., State.grantShare_mem .., State.home?_grantShare ..⟩
    · rw [splitAcked_gone (s := s.dropMsg m.id) r nw keep give hline] at hexec
      exact ⟨_, hexec, State.carries_send .., State.send_homes .., State.send_mem ..⟩
  · intro r v n hbody hfirst
    obtain ⟨hzero, hline⟩ := exec_shareGrant hm hlost hbody hfirst
    refine ⟨fun hv => ⟨_, hzero hv, rfl⟩, fun hv hnone hfew hroom => ⟨_, hline hv hfew hroom, ?_, rfl, rfl⟩⟩
    unfold State.hamper? at hnone ⊢
    rw [List.find?_append, hnone]
    simp
  · intro r line x leave poisoned op contrib hbody hremote
    exact ⟨drainCombine_sent hm hlost hbody hremote, fun _ => drainCombine_arrives hm hlost hbody hremote⟩
  · intro r line x leave op contrib hbody hhere hdrains hadds
    refine ⟨?_, ?_, ?_⟩
    · rintro rfl
      exact drainCombine_adds hm hlost hhere hdrains hadds hbody
    · rintro rfl hb
      exact drainCombine_leaves hm hlost hhere hdrains hadds hbody
    · rintro rfl hb
      exact drainCombine_gathers hm hlost hhere hdrains hadds hbody
  · intro line contrib h hbody hfault
    exact drainAck_line hm hlost hbody hfault
  · intro o d x hbody hsent hway
    exact ⟨_, exec_flushMarkerGather hm hbody hsent hway, s.msg?_dropMsg_same m.id, rfl⟩
  · exact fun r tau hs => recallChoice_rest_le r tau hs.length hs le_rfl
  · intro s op i key o p g tm gr rn r k d a b x ho hp hi horder howner hst hasked hheld hclear hatoms halone hfresh hsite
      hregion hfits hadds hpasses
    exact ⟨fun hhome hpoison => toleranceRead_unheld ho hp hi horder howner hst hheld hclear hatoms halone hfresh hsite
        hregion hfits hadds hpasses hhome hpoison hasked,
      fun hb n ns t => toleranceRead_recalls ho hp hi horder howner hst hheld hclear hatoms halone hfresh hsite hregion hfits
        hadds hpasses hasked⟩

end Sys2Proof.Machine

namespace Sys2Proof.Machine

/-! ## Misses and the walks that they share (08 R234) -/

theorem Miss.near_iff (a b : Miss) : a.near b = true ↔ b.page.toNat / 32 = a.page.toNat / 32 := by
  rw [Miss.near, beq_iff_eq, eq_comm]

theorem any_near_iff (ws : List (List Miss)) (m : Miss) : (ws.any fun w => w.any (Miss.near m)) = true ↔
    ∃ w ∈ ws, ∃ x ∈ w, x.page.toNat / 32 = m.page.toNat / 32 := by
  simp only [List.any_eq_true, Miss.near_iff]

theorem any_contains_iff (ws : List (List Miss)) (m : Miss) : (ws.any fun w => w.contains m) = true ↔ ∃ w ∈ ws, m ∈ w := by
  simp only [List.any_eq_true, List.contains_iff_mem]

/-- A miss that begins changes the walks and the queues alone. -/
theorem State.startMiss_eq (s : State) (m : Miss) :
    s.startMiss m = { s with walks := (s.startMiss m).walks, missq := (s.startMiss m).missq } := by
  unfold State.startMiss
  split
  · rfl
  · split <;> rfl

/-- A miss joins the walks of its 2 MiB region. -/
theorem State.startMiss_near {s : State} {m : Miss} (h : ∃ w ∈ s.walks, ∃ x ∈ w, x.page.toNat / 32 = m.page.toNat / 32) :
    (s.startMiss m).missq = s.missq ∧ (s.startMiss m).walks.length = s.walks.length ∧ ∃ w ∈ (s.startMiss m).walks, m ∈ w := by
  have hjoin : s.startMiss m =
      { s with walks := s.walks.map fun w => if w.any (Miss.near m) then w ++ [m] else w } :=
    if_pos ((any_near_iff _ _).2 h)
  obtain ⟨w, hw, x, hx, hnear⟩ := h
  have hany : w.any (Miss.near m) = true := List.any_eq_true.2 ⟨x, hx, (Miss.near_iff _ _).2 hnear⟩
  rw [hjoin]
  exact ⟨rfl, List.length_map _, w ++ [m], List.mem_map.2 ⟨w, hw, if_pos hany⟩, by simp⟩

/-- A miss of another region takes a free slot, or waits in its die's queue. -/
theorem State.startMiss_far {s : State} {m : Miss} (h : ∀ w ∈ s.walks, ∀ x ∈ w, ¬x.page.toNat / 32 = m.page.toNat / 32) :
    (s.walks.length < 4096 → (s.startMiss m).walks = s.walks ++ [[m]] ∧ (s.startMiss m).missq = s.missq) ∧
    (4096 ≤ s.walks.length → (s.startMiss m).walks = s.walks ∧ (s.startMiss m).missq = s.missq ++ [m]) := by
  have hfar : s.startMiss m =
      if s.walks.length < 4096 then { s with walks := s.walks ++ [[m]] } else { s with missq := s.missq ++ [m] } :=
    if_neg fun hany => by
      obtain ⟨w, hw, x, hx, hnear⟩ := (any_near_iff _ _).1 hany
      exact h w hw x hx hnear
  refine ⟨fun hroom => ?_, fun hfull => ?_⟩
  · rw [hfar, if_pos hroom]
    exact ⟨rfl, rfl⟩
  · rw [hfar, if_neg (by omega)]
    exact ⟨rfl, rfl⟩

/-! ## What the TLBs keep (08 R233) -/

theorem mem_tlbAdd_self (n : Nat) (l : List TlbEntry) (t : TlbEntry) : t ∈ tlbAdd n l t := by simp [tlbAdd]

/-- The entries of other owners stay. -/
theorem mem_tlbAdd_other {n : Nat} {l : List TlbEntry} {t x : TlbEntry} (h : x.core ≠ t.core) : x ∈ tlbAdd n l t ↔ x ∈ l := by
  have hmine : x ∉ (l.filter fun x => x.core == t.core && x.va != t.va).drop
      ((l.filter fun x => x.core == t.core && x.va != t.va).length - (n - 1)) := fun hx => by
    have := (List.mem_filter.1 (List.mem_of_mem_drop hx)).2
    simp [h] at this
  have hne : x ≠ t := fun he => h (congrArg TlbEntry.core he)
  simp only [tlbAdd, List.mem_append, List.mem_filter, List.mem_singleton]
  simp [hmine, hne, h]

theorem mem_of_mem_tlbAdd {n : Nat} {l : List TlbEntry} {t x : TlbEntry} (h : x ∈ tlbAdd n l t) : x ∈ l ∨ x = t := by
  simp only [tlbAdd, List.mem_append, List.mem_singleton] at h
  obtain (h | h) | h := h
  · exact .inl (List.mem_filter.1 h).1
  · exact .inl (List.mem_filter.1 (List.mem_of_mem_drop h)).1
  · exact .inr h

/-- The entry that a leaf found for an address makes in a core's TLB. -/
def leafEntry (core va : Nat) (e : W64) (level : Nat) : TlbEntry :=
  ⟨core, BitVec.ofNat 48 (va / pageBytes level * pageBytes level), BitVec.ofNat 2 level, e⟩

/-- A translation taken into the TLBs changes them and the walkers' cache alone. -/
theorem State.fillTlb_eq (s : State) (core va : Nat) : s.fillTlb core va =
    { s with tlb := (s.fillTlb core va).tlb, dtlb := (s.fillTlb core va).dtlb, wcache := (s.fillTlb core va).wcache } := by
  unfold State.fillTlb
  split <;> rfl

theorem State.fillTlb_page {s : State} {core va level : Nat} {e : W64} (h : s.translate core va = .page e level) :
    (s.fillTlb core va).tlb = tlbAdd 1024 s.tlb (leafEntry core va e level) ∧
    (s.fillTlb core va).dtlb = tlbAdd 32768 s.dtlb { leafEntry core va e level with core := dieOfCore core } := by
  unfold State.fillTlb
  rw [h]
  exact ⟨rfl, rfl⟩

theorem State.fillTlb_missed {s : State} {core va : Nat} (h : ∀ e level, s.translate core va ≠ .page e level) :
    s.fillTlb core va = s := by
  unfold State.fillTlb
  split
  · next e level he => exact absurd he (h e level)
  · rfl

/-- The TLBs of other cores and of the other die stay as they were. -/
theorem State.mem_fillTlb_other (s : State) (core va : Nat) (x : TlbEntry) :
    (x.core ≠ core → (x ∈ (s.fillTlb core va).tlb ↔ x ∈ s.tlb)) ∧
    (x.core ≠ dieOfCore core → (x ∈ (s.fillTlb core va).dtlb ↔ x ∈ s.dtlb)) := by
  by_cases h : ∃ e level, s.translate core va = .page e level
  · obtain ⟨e, level, h⟩ := h
    obtain ⟨htlb, hdtlb⟩ := State.fillTlb_page h
    rw [htlb, hdtlb]
    exact ⟨fun hx => mem_tlbAdd_other hx, fun hx => mem_tlbAdd_other hx⟩
  · rw [State.fillTlb_missed fun e level he => h ⟨e, level, he⟩]
    exact ⟨fun _ => Iff.rfl, fun _ => Iff.rfl⟩

/-! ### A leaf that its core translates with -/

/-- Whether a cached translation serves an address. -/
def TlbEntry.serves (x : TlbEntry) (va : Nat) : Prop :=
  rangesOverlap x.va.toNat (x.va.toNat + pageBytes x.size.toNat) va (va + 1) = true

theorem TlbEntry.serves_iff (x : TlbEntry) (va : Nat) :
    x.serves va ↔ x.va.toNat ≤ va ∧ va < x.va.toNat + pageBytes x.size.toNat := by
  simp [TlbEntry.serves, rangesOverlap]

theorem pageBytes_pos (level : Nat) : 0 < pageBytes level := by
  unfold pageBytes
  split
  · omega
  · split <;> omega

theorem leafEntry_size {core va level : Nat} (e : W64) (hlevel : level ≤ 2) :
    (leafEntry core va e level).size.toNat = level := by
  simp only [leafEntry, BitVec.toNat_ofNat]
  omega

theorem leafEntry_va {core va level : Nat} (e : W64) (hva : va < 2 ^ 48) :
    (leafEntry core va e level).va.toNat = va / pageBytes level * pageBytes level := by
  have := Nat.div_mul_le_self va (pageBytes level)
  simp only [leafEntry, BitVec.toNat_ofNat]
  exact Nat.mod_eq_of_lt (by omega)

theorem leafEntry_serves {core va level : Nat} (e : W64) (hva : va < 2 ^ 48) (hlevel : level ≤ 2) :
    (leafEntry core va e level).serves va := by
  rw [TlbEntry.serves_iff, leafEntry_size e hlevel, leafEntry_va e hva]
  have := Nat.div_add_mod' va (pageBytes level)
  have := Nat.mod_lt va (pageBytes_pos level)
  omega

/-- The one entry of a core that serves an address is what it translates with. -/
theorem State.translate_of_entry {s : State} {t : TlbEntry} {va : Nat} (ht : t ∈ s.tlb) (hserves : t.serves va)
    (hone : ∀ x ∈ s.tlb, x.core = t.core → x.serves va → x = t) : s.translate t.core va = .page t.leaf t.size.toNat := by
  have hit : tlbHit s.tlb t.core va = some t := by
    cases hfind : tlbHit s.tlb t.core va with
    | none => exact absurd (List.find?_eq_none.1 hfind t ht) (by simpa using (TlbEntry.serves_iff t va).1 hserves)
    | some y =>
      have hy := List.find?_some hfind
      simp only [Bool.and_eq_true, beq_iff_eq, decide_eq_true_eq] at hy
      obtain ⟨⟨hcore, hlo⟩, hhi⟩ := hy
      rw [hone y (List.mem_of_find?_eq_some hfind) hcore ((TlbEntry.serves_iff y va).2 ⟨hlo, hhi⟩)]
  unfold State.translate
  rw [hit]

/-- A core translates an address to a leaf, and no other entry of its TLB serves the address. -/
structure State.Leads (s : State) (core va : Nat) (e : W64) (level : Nat) : Prop where
  page : s.translate core va = .page e level
  one : ∀ x ∈ s.tlb, x.core = core → x.serves va → x = leafEntry core va e level

theorem State.Leads.fillTlb {s : State} {core va level : Nat} {e : W64} (hva : va < 2 ^ 48) (hlevel : level ≤ 2)
    (h : s.Leads core va e level) : (s.fillTlb core va).Leads core va e level ∧
      leafEntry core va e level ∈ (s.fillTlb core va).tlb ∧
      { leafEntry core va e level with core := dieOfCore core } ∈ (s.fillTlb core va).dtlb := by
  obtain ⟨htlb, hdtlb⟩ := State.fillTlb_page h.page
  have hin : leafEntry core va e level ∈ (s.fillTlb core va).tlb := htlb ▸ mem_tlbAdd_self ..
  have hone : ∀ x ∈ (s.fillTlb core va).tlb, x.core = core → x.serves va → x = leafEntry core va e level := by
    intro x hx hcore hs
    rw [htlb] at hx
    exact (mem_of_mem_tlbAdd hx).elim (fun hx => h.one x hx hcore hs) id
  have hpage := State.translate_of_entry hin (leafEntry_serves e hva hlevel) hone
  rw [leafEntry_size e hlevel] at hpage
  exact ⟨⟨hpage, hone⟩, hin, hdtlb ▸ mem_tlbAdd_self ..⟩

/-! ## The end of a walk (08 R230, R234) -/

/-- The misses of a page that are with the walkers. -/
def State.missesOf (s : State) (page : BitVec 32) : List Miss := s.walks.flatten.filter fun x => x.page == page

/-- The walks that go on when those of a page end. -/
def State.walksWithout (s : State) (page : BitVec 32) : List (List Miss) :=
  (s.walks.map fun w => w.filter fun x => !(s.missesOf page).contains x).filter fun w => !w.isEmpty

/-- A translation taken into the TLBs of all who missed it. -/
def State.fillAll (s : State) (ms : List Miss) (va : Nat) : State := ms.foldl (fun (s : State) x => s.fillTlb x.core va) s

/-- The state in which the walk of an address has ended: its slot goes to a miss in the queues. -/
def State.endWalk (s : State) (m : Miss) (va : Nat) : State :=
  let t := { s.fillAll (s.missesOf m.page) va with walks := s.walksWithout m.page }
  if (s.walksWithout m.page).length < 4096 then t.admitMiss else t

theorem State.mem_missesOf {s : State} {page : BitVec 32} {x : Miss} :
    x ∈ s.missesOf page ↔ (∃ w ∈ s.walks, x ∈ w) ∧ x.page = page := by
  simp [State.missesOf, ← and_assoc, exists_and_right]

/-- No miss of the page is left with the walkers. -/
theorem State.page_ne_of_walksWithout {s : State} {page : BitVec 32} {w : List Miss} {x : Miss} (hw : w ∈ s.walksWithout page)
    (hx : x ∈ w) : x.page ≠ page := by
  obtain ⟨w', hw', rfl⟩ := List.mem_map.1 (List.mem_filter.1 hw).1
  obtain ⟨hx', hnot⟩ := List.mem_filter.1 hx
  intro hpage
  have : x ∈ s.missesOf page := State.mem_missesOf.2 ⟨⟨w', hw', hx'⟩, hpage⟩
  simp [this] at hnot

/-- A walk that a page's misses alone share leaves its slot. -/
theorem State.walksWithout_length {s : State} {m : Miss} (hm : [m] ∈ s.walks) :
    (s.walksWithout m.page).length < s.walks.length := by
  have hin : m ∈ s.missesOf m.page := State.mem_missesOf.2 ⟨⟨[m], hm, by simp⟩, rfl⟩
  have hempty : ([] : List Miss) ∈ s.walks.map fun w => w.filter fun x => !(s.missesOf m.page).contains x :=
    List.mem_map.2 ⟨[m], hm, by simp [hin]⟩
  rw [← List.length_map (as := s.walks) (fun w => w.filter fun x => !(s.missesOf m.page).contains x)]
  exact List.length_filter_lt_length_iff_exists.2 ⟨[], hempty, by simp⟩

theorem State.fillAll_eq (s : State) (ms : List Miss) (va : Nat) : s.fillAll ms va =
    { s with tlb := (s.fillAll ms va).tlb, dtlb := (s.fillAll ms va).dtlb, wcache := (s.fillAll ms va).wcache } := by
  unfold State.fillAll
  refine List.foldlRecOn (motive := fun t : State => t = { s with tlb := t.tlb, dtlb := t.dtlb, wcache := t.wcache }) _ _ rfl
    fun t ht x _ => ?_
  rw [State.fillTlb_eq, ht]

/-- The TLBs of the cores and dies that did not miss the page stay as they were. -/
theorem State.mem_fillAll_other (s : State) (ms : List Miss) (va : Nat) (x : TlbEntry) :
    ((∀ m ∈ ms, x.core ≠ m.core) → (x ∈ (s.fillAll ms va).tlb ↔ x ∈ s.tlb)) ∧
    ((∀ m ∈ ms, x.core ≠ dieOfCore m.core) → (x ∈ (s.fillAll ms va).dtlb ↔ x ∈ s.dtlb)) := by
  unfold State.fillAll
  constructor
  · intro h
    exact List.foldlRecOn (motive := fun t : State => x ∈ t.tlb ↔ x ∈ s.tlb) _ _ Iff.rfl fun t ht m hm =>
      ((t.mem_fillTlb_other m.core va x).1 (h m hm)).trans ht
  · intro h
    exact List.foldlRecOn (motive := fun t : State => x ∈ t.dtlb ↔ x ∈ s.dtlb) _ _ Iff.rfl fun t ht m hm =>
      ((t.mem_fillTlb_other m.core va x).2 (h m hm)).trans ht

/-- Misses of one core: its leaf stands in its TLB and its die's. -/
theorem State.Leads.fillAll {s : State} {m : Miss} {va level : Nat} {e : W64} (hva : va < 2 ^ 48) (hlevel : level ≤ 2)
    (h : s.Leads m.core va e level) {ms : List Miss} (hne : ms ≠ []) (hms : ∀ x ∈ ms, x = m) :
    (s.fillAll ms va).Leads m.core va e level ∧ leafEntry m.core va e level ∈ (s.fillAll ms va).tlb ∧
      { leafEntry m.core va e level with core := dieOfCore m.core } ∈ (s.fillAll ms va).dtlb := by
  have hrest : ∀ (ms : List Miss) (t : State), t.Leads m.core va e level → (∀ x ∈ ms, x = m) →
      (t.fillAll ms va).Leads m.core va e level := fun ms t ht hms =>
    List.foldlRecOn (motive := fun t : State => t.Leads m.core va e level) _ _ ht fun t ht x hx =>
      hms x hx ▸ (ht.fillTlb hva hlevel).1
  obtain ⟨ms, x, rfl⟩ : ∃ l x, ms = l ++ [x] := ⟨_, _, (List.dropLast_append_getLast hne).symm⟩
  obtain rfl : x = m := hms x (by simp)
  have hlast : s.fillAll (ms ++ [x]) va = (s.fillAll ms va).fillTlb x.core va := by
    simp [State.fillAll, List.foldl_append]
  rw [hlast]
  exact (hrest ms s h fun y hy => hms y (by simp [hy])).fillTlb hva hlevel

/-- A slot that becomes free changes the walks and the queues alone. -/
theorem State.admitMiss_eq (s : State) : s.admitMiss =
    { s with walks := s.admitMiss.walks, missq := s.admitMiss.missq, missDie := s.admitMiss.missDie } := by
  unfold State.admitMiss
  dsimp only
  split <;> rfl

theorem State.admitMiss_empty {s : State} (h : s.missq = []) : s.admitMiss = s := by
  simp [State.admitMiss, h]

/-- A free slot goes to the first miss of the die whose turn it is; the turn goes to the other die. -/
theorem State.admitMiss_turn {s : State} {y : Miss} (h : s.missq.find? (fun x => dieOfCore x.core == s.missDie) = some y) :
    y ∉ s.admitMiss.missq ∧ (∃ w ∈ s.admitMiss.walks, y ∈ w) ∧ s.admitMiss.missDie = 1 - s.missDie := by
  have hdie : dieOfCore y.core = s.missDie := by simpa using List.find?_some h
  have hadmit : s.admitMiss = { s with
      walks := s.walks ++ [y :: s.missq.filter fun x => x != y && x.near y]
      missq := s.missq.filter fun x => x != y && !x.near y
      missDie := 1 - dieOfCore y.core } := by
    unfold State.admitMiss
    dsimp only
    rw [h]
    rfl
  rw [hadmit, hdie]
  exact ⟨by simp, ⟨_, List.mem_append_right _ (List.mem_singleton_self _), by simp⟩, rfl⟩

/-! ## PAGE_WALK -/

section
variable {s : State} {m : Miss} {va : Nat}

theorem State.endWalk_eq (s : State) (m : Miss) (va : Nat) : s.endWalk m va = { s with
    tlb := (s.endWalk m va).tlb, dtlb := (s.endWalk m va).dtlb, wcache := (s.endWalk m va).wcache
    walks := (s.endWalk m va).walks, missq := (s.endWalk m va).missq, missDie := (s.endWalk m va).missDie } := by
  unfold State.endWalk
  dsimp only
  split
  · rw [State.admitMiss_eq, State.fillAll_eq]
  · rw [State.fillAll_eq]

/-- What the TLBs hold does not depend on who takes the free slot. -/
theorem State.endWalk_tlbs (s : State) (m : Miss) (va : Nat) : (s.endWalk m va).tlb = (s.fillAll (s.missesOf m.page) va).tlb ∧
    (s.endWalk m va).dtlb = (s.fillAll (s.missesOf m.page) va).dtlb := by
  unfold State.endWalk
  dsimp only
  split
  · rw [State.admitMiss_eq]
    exact ⟨rfl, rfl⟩
  · exact ⟨rfl, rfl⟩

theorem State.endWalk_empty (h : s.missq = []) :
    (s.endWalk m va).missq = [] ∧ ∀ w ∈ (s.endWalk m va).walks, ∀ x ∈ w, x.page ≠ m.page := by
  have hq : (s.fillAll (s.missesOf m.page) va).missq = [] := by rw [State.fillAll_eq]; exact h
  have hend : s.endWalk m va = { s.fillAll (s.missesOf m.page) va with walks := s.walksWithout m.page } := by
    unfold State.endWalk
    dsimp only
    split
    · exact State.admitMiss_empty hq
    · rfl
  rw [hend]
  exact ⟨hq, fun w hw x hx => State.page_ne_of_walksWithout hw hx⟩

theorem State.endWalk_turn {y : Miss} (h : s.missq.find? (fun x => dieOfCore x.core == s.missDie) = some y)
    (hfull : s.walks.length = 4096) (hm : [m] ∈ s.walks) :
    y ∉ (s.endWalk m va).missq ∧ (∃ w ∈ (s.endWalk m va).walks, y ∈ w) ∧ (s.endWalk m va).missDie = 1 - s.missDie := by
  have hfree : (s.walksWithout m.page).length < 4096 := hfull ▸ State.walksWithout_length hm
  have hend : s.endWalk m va =
      ({ s.fillAll (s.missesOf m.page) va with walks := s.walksWithout m.page } : State).admitMiss := if_pos hfree
  rw [State.fillAll_eq] at hend
  rw [hend]
  exact State.admitMiss_turn (s := { s with
    tlb := (s.fillAll (s.missesOf m.page) va).tlb, dtlb := (s.fillAll (s.missesOf m.page) va).dtlb
    wcache := (s.fillAll (s.missesOf m.page) va).wcache, walks := s.walksWithout m.page }) h

theorem State.endWalk_other (x : TlbEntry) :
    (¬(∃ w ∈ s.walks, ∃ y ∈ w, y.page = m.page ∧ y.core = x.core) → (x ∈ (s.endWalk m va).tlb ↔ x ∈ s.tlb)) ∧
    ((∀ c, (∃ w ∈ s.walks, ∃ y ∈ w, y.page = m.page ∧ y.core = c) → x.core ≠ dieOfCore c) →
      (x ∈ (s.endWalk m va).dtlb ↔ x ∈ s.dtlb)) := by
  obtain ⟨htlb, hdtlb⟩ := s.endWalk_tlbs m va
  obtain ⟨hcore, hdie⟩ := s.mem_fillAll_other (s.missesOf m.page) va x
  rw [htlb, hdtlb]
  refine ⟨fun h => hcore fun y hy heq => ?_, fun h => hdie fun y hy => ?_⟩
  · obtain ⟨⟨w, hw, hyw⟩, hpage⟩ := State.mem_missesOf.1 hy
    exact h ⟨w, hw, y, hyw, hpage, heq.symm⟩
  · obtain ⟨⟨w, hw, hyw⟩, hpage⟩ := State.mem_missesOf.1 hy
    exact h y.core ⟨w, hw, y, hyw, hpage, rfl⟩

/-- A leaf that one core alone missed is what the core translates with from then on; its die keeps it too. -/
theorem State.endWalk_leads {e : W64} {level : Nat} (hva : va < 2 ^ 48) (hlevel : level ≤ 2)
    (hpage : s.translate m.core va = .page e level) (hin : ∃ w ∈ s.walks, m ∈ w)
    (hone : ∀ w ∈ s.walks, ∀ x ∈ w, x.page = m.page → x = m)
    (hnone : ∀ x ∈ s.tlb, x.core = m.core →
      rangesOverlap x.va.toNat (x.va.toNat + pageBytes x.size.toNat) va (va + 1) = false) :
    let new := fun (who : Nat) (x : TlbEntry) => x.core = who ∧ x.leaf = e ∧ x.size.toNat = level ∧
      x.va.toNat = va / pageBytes level * pageBytes level
    (s.endWalk m va).translate m.core va = .page e level ∧ (∃ x ∈ (s.endWalk m va).tlb, new m.core x) ∧
      ∃ x ∈ (s.endWalk m va).dtlb, new (dieOfCore m.core) x := by
  have hne : s.missesOf m.page ≠ [] := List.ne_nil_of_mem (State.mem_missesOf.2 ⟨hin, rfl⟩)
  have hall : ∀ x ∈ s.missesOf m.page, x = m := fun x hx => by
    obtain ⟨⟨w, hw, hxw⟩, hp⟩ := State.mem_missesOf.1 hx
    exact hone w hw x hxw hp
  have hleads : s.Leads m.core va e level :=
    ⟨hpage, fun x hx hcore hs => Bool.noConfusion ((hnone x hx hcore).symm.trans hs)⟩
  obtain ⟨⟨-, hsole⟩, htlb, hdtlb⟩ := hleads.fillAll hva hlevel hne hall
  rw [← (s.endWalk_tlbs m va).1] at htlb hsole
  rw [← (s.endWalk_tlbs m va).2] at hdtlb
  have htr := State.translate_of_entry htlb (leafEntry_serves e hva hlevel) hsole
  have hsize := leafEntry_size (core := m.core) (va := va) e hlevel
  have hfirst := leafEntry_va (core := m.core) (level := level) e hva
  rw [hsize] at htr
  exact ⟨htr, ⟨_, htlb, rfl, rfl, hsize, hfirst⟩, _, hdtlb, rfl, rfl, hsize, hfirst⟩

end

section
variable {s : State} {core : Nat} {va : BitVec 48}

/-- A miss that waits in its die's queue has no walk yet. -/
theorem exec_pageWalk_waits (h : ⟨core, va.extractLsb' 16 32⟩ ∈ s.missq) :
    exec (.pageWalk core va) s = .refused .eventNotEnabled :=
  if_pos (List.contains_iff_mem.2 h)

theorem exec_pageWalk_starts (hq : ⟨core, va.extractLsb' 16 32⟩ ∉ s.missq)
    (hw : ∀ w ∈ s.walks, (⟨core, va.extractLsb' 16 32⟩ : Miss) ∉ w) :
    exec (.pageWalk core va) s = .next (s.startMiss ⟨core, va.extractLsb' 16 32⟩) := by
  have hnone : ¬(s.walks.any fun w => w.contains (⟨core, va.extractLsb' 16 32⟩ : Miss)) = true := fun h => by
    obtain ⟨w, hw', hm⟩ := (any_contains_iff _ _).1 h
    exact hw w hw' hm
  exact (if_neg (mt List.contains_iff_mem.1 hq)).trans (if_neg hnone)

theorem exec_pageWalk_ends (hq : ⟨core, va.extractLsb' 16 32⟩ ∉ s.missq)
    (hw : ∃ w ∈ s.walks, (⟨core, va.extractLsb' 16 32⟩ : Miss) ∈ w) :
    exec (.pageWalk core va) s = .next (s.endWalk ⟨core, va.extractLsb' 16 32⟩ va.toNat) :=
  (if_neg (mt List.contains_iff_mem.1 hq)).trans (if_pos ((any_contains_iff _ _).2 hw))

end

/-! ## Invalidates (08 R236) -/

/-- What a range's invalidate leaves of the cached translations and pointers. -/
theorem State.mem_dropTlb (s : State) (lo hi : Nat) :
    (∀ x, (x ∈ (s.dropTlb lo hi).tlb ↔
        x ∈ s.tlb ∧ rangesOverlap x.va.toNat (x.va.toNat + pageBytes x.size.toNat) lo hi = false) ∧
      (x ∈ (s.dropTlb lo hi).dtlb ↔
        x ∈ s.dtlb ∧ rangesOverlap x.va.toNat (x.va.toNat + pageBytes x.size.toNat) lo hi = false)) ∧
    ∀ x, x ∈ (s.dropTlb lo hi).wcache ↔
      x ∈ s.wcache ∧ rangesOverlap x.va.toNat (x.va.toNat + levelBytes x.level) lo hi = false := by
  simp [State.dropTlb, List.mem_filter]

/-- The bits and fields of an XLINVC that starts a command (08 Table 8.12). -/
theorem invGo_fields {kind size count : Nat} (hk : kind < 4) (hs : size < 4) (hc : count < 2 ^ 20) :
    (invGo kind size count).getLsbD 63 = true ∧ fld (invGo kind size count) 33 32 = kind ∧
      fld (invGo kind size count) 31 30 = size ∧ fld (invGo kind size count) 19 0 = count := by
  refine ⟨by simp [invGo, getLsbD_setFld, -BitVec.getLsbD_eq_getElem], ?_, ?_, ?_⟩
  all_goals simp only [invGo, fld_setFld_same, fld_setFld_other, Nat.reduceLeDiff, Nat.reduceLT, or_true]
  all_goals omega

/-- What a write to XLINVC leaves with neither GO nor ERR. -/
theorem invFields_go (v : W64) : (invFields v).getLsbD 63 = false := by
  simp [invFields, getLsbD_setFld, -BitVec.getLsbD_eq_getElem]

theorem setErr_go (v : W64) (err : Nat) : (setFld (setFld v 63 63 1) 62 62 err).getLsbD 63 = true := by
  simp [getLsbD_setFld, -BitVec.getLsbD_eq_getElem]

section
variable {s : State} {kind size count : Nat} (hk : kind < 4) (hs : size < 4) (hc : count < 2 ^ 20)
include hk hs hc

/-- A command written while one is in progress is refused, and the range of that one stays. -/
theorem invWrite_busy (hgo : s.xl.invc.getLsbD 63 = true) :
    s.invWrite (invGo kind size count) = { s with xl := { s.xl with invc := setFld s.xl.invc 62 62 1 } } := by
  obtain ⟨hv, -⟩ := invGo_fields hk hs hc
  unfold State.invWrite
  simp only [hv, hgo, Bool.not_true, Bool.false_eq_true, if_false, if_true]

theorem invWrite_malformed (hgo : s.xl.invc.getLsbD 63 = false) (hbad : invBad (invGo kind size count) = true) :
    s.invWrite (invGo kind size count) =
      { s with xl := { s.xl with invc := setFld (invFields (invGo kind size count)) 62 62 1 } } := by
  obtain ⟨hv, -⟩ := invGo_fields hk hs hc
  unfold State.invWrite
  simp only [hv, hgo, hbad, Bool.not_true, Bool.false_eq_true, if_false, if_true]

/-- A command that starts drops what overlaps its range, which it keeps. -/
theorem invWrite_starts (hgo : s.xl.invc.getLsbD 63 = false) (hbad : invBad (invGo kind size count) = false) {r : Nat × Nat}
    (hr : invRange s.xl.inva (invGo kind size count) = r) :
    ∃ t : State, s.invWrite (invGo kind size count) = t.dropTlb r.1 r.2 ∧ t.xl.invc.getLsbD 63 = true ∧ t.xl.invLo = r.1 ∧
      t.xl.invHi = r.2 ∧ t = { s with xl := t.xl } := by
  obtain ⟨hv, -⟩ := invGo_fields hk hs hc
  unfold State.invWrite
  simp only [hv, hgo, hbad, hr, Bool.not_true, Bool.false_eq_true, if_false]
  exact ⟨_, rfl, setErr_go _ _, rfl, rfl, rfl⟩

end

/-- An invalidate starts on a range: what overlaps it goes, and nothing else of the caches, memory and the groups changes. -/
def State.Invalidates (s : State) (i : Instr) (lo hi : Nat) : Prop :=
  ∃ t, exec i s = .next t ∧ t.xl.invc.getLsbD 63 = true ∧
    ((∀ x, (x ∈ t.tlb ↔ x ∈ s.tlb ∧ rangesOverlap x.va.toNat (x.va.toNat + pageBytes x.size.toNat) lo hi = false) ∧
        (x ∈ t.dtlb ↔ x ∈ s.dtlb ∧ rangesOverlap x.va.toNat (x.va.toNat + pageBytes x.size.toNat) lo hi = false)) ∧
      ∀ x, x ∈ t.wcache ↔ x ∈ s.wcache ∧ rangesOverlap x.va.toNat (x.va.toNat + levelBytes x.level) lo hi = false) ∧
    t.xl.invLo = lo ∧ t.xl.invHi = hi ∧ t.mem = s.mem ∧ t.groups = s.groups

section
variable {s : State} (hup : s.ctl.up = true)
include hup

theorem exec_invalidateAll : exec .invalidateAll s = .next (s.invWrite (invGo 2 0 0)) := congrArg _ (if_pos hup)
theorem exec_invalidateOnePage (z : BitVec 2) : exec (.invalidateOnePage z) s = .next (s.invWrite (invGo 0 z.toNat 0)) :=
  congrArg _ (if_pos hup)
theorem exec_invalidateRange (z : BitVec 2) (n : BitVec 20) :
    exec (.invalidateRange z n) s = .next (s.invWrite (invGo 1 z.toNat n.toNat)) := congrArg _ (if_pos hup)

omit hup in
theorem invalidates_of_write {i : Instr} {kind size count lo hi : Nat}
    (hexec : exec i s = .next (s.invWrite (invGo kind size count))) (hk : kind < 4) (hs : size < 4) (hc : count < 2 ^ 20)
    (hgo : s.xl.invc.getLsbD 63 = false) (hbad : invBad (invGo kind size count) = false)
    (hr : invRange s.xl.inva (invGo kind size count) = (lo, hi)) : s.Invalidates i lo hi := by
  obtain ⟨t, hwrite, hbit, hlo, hhi, ht⟩ := invWrite_starts hk hs hc hgo hbad hr
  have hdrop := t.mem_dropTlb lo hi
  rw [show t.tlb = s.tlb by rw [ht], show t.dtlb = s.dtlb by rw [ht], show t.wcache = s.wcache by rw [ht]] at hdrop
  exact ⟨_, hexec.trans (congrArg _ hwrite), hbit, hdrop, hlo, hhi, show t.mem = s.mem by rw [ht],
    show t.groups = s.groups by rw [ht]⟩

theorem invalidateAll_starts (hgo : s.xl.invc.getLsbD 63 = false) : s.Invalidates .invalidateAll 0 (2 ^ 48) := by
  obtain ⟨-, hkind, hsize, hcount⟩ := invGo_fields (kind := 2) (size := 0) (count := 0) (by omega) (by omega) (by omega)
  refine invalidates_of_write (exec_invalidateAll hup) (by omega) (by omega) (by omega) hgo ?_ ?_
  · simp [invBad, hkind]
  · simp [invRange, hkind]

theorem invalidateOnePage_starts (hgo : s.xl.invc.getLsbD 63 = false) {z : BitVec 2} (hz : z.toNat < 3) :
    s.Invalidates (.invalidateOnePage z) (s.xl.inva.toNat / pageBytes z.toNat * pageBytes z.toNat)
      (s.xl.inva.toNat / pageBytes z.toNat * pageBytes z.toNat + pageBytes z.toNat) := by
  obtain ⟨-, hkind, hsize, hcount⟩ := invGo_fields (kind := 0) (count := 0) (by omega) z.isLt (by omega)
  refine invalidates_of_write (exec_invalidateOnePage hup z) (by omega) z.isLt (by omega) hgo ?_ ?_
  · simp [invBad, hkind, hsize]
    omega
  · simp [invRange, hkind, hsize]

theorem invalidateRange_starts (hgo : s.xl.invc.getLsbD 63 = false) {z : BitVec 2} (hz : z.toNat < 3) {n : BitVec 20}
    (hn : n ≠ 0) :
    s.Invalidates (.invalidateRange z n) (s.xl.inva.toNat / pageBytes z.toNat * pageBytes z.toNat)
      (s.xl.inva.toNat / pageBytes z.toNat * pageBytes z.toNat + n.toNat * pageBytes z.toNat) := by
  obtain ⟨-, hkind, hsize, hcount⟩ := invGo_fields (kind := 1) (by omega) z.isLt n.isLt
  have hn0 : n.toNat ≠ 0 := fun h => hn (BitVec.eq_of_toNat_eq h)
  refine invalidates_of_write (exec_invalidateRange hup z n) (by omega) z.isLt n.isLt hgo ?_ ?_
  · simp [invBad, hkind, hsize, hcount, hn0]
    omega
  · simp [invRange, hkind, hsize, hcount]

/-- Size code 3 names no page: the command is malformed (08 Table 8.12). -/
theorem invalidateOnePage_malformed (hgo : s.xl.invc.getLsbD 63 = false) :
    ∃ t, exec (.invalidateOnePage 3) s = .next t ∧ t.tlb = s.tlb ∧ t.xl.invc.getLsbD 62 = true ∧
      t.xl.invc.getLsbD 63 = false := by
  obtain ⟨-, hkind, hsize, -⟩ := invGo_fields (kind := 0) (size := 3) (count := 0) (by omega) (by omega) (by omega)
  have hbad : invBad (invGo 0 3 0) = true := by simp [invBad, hkind, hsize]
  refine ⟨_, (exec_invalidateOnePage hup 3).trans (congrArg _ (invWrite_malformed (by omega) (by omega) (by omega) hgo hbad)),
    rfl, ?_, ?_⟩
  · exact (setErr_bits _).1
  · exact (setErr_bits _).2.trans (invFields_go _)

/-- A command while one is in progress is refused. -/
theorem invalidate_refused (hgo : s.xl.invc.getLsbD 63 = true) (z : BitVec 2) (n : BitVec 20) :
    ∀ i ∈ [Instr.invalidateAll, .invalidateOnePage z, .invalidateRange z n],
      ∃ t, exec i s = .next t ∧ t.tlb = s.tlb ∧ t.xl.invc.getLsbD 62 = true ∧ t.xl.invLo = s.xl.invLo ∧
        t.xl.invHi = s.xl.invHi := by
  have busy {i : Instr} {kind size count : Nat} (hexec : exec i s = .next (s.invWrite (invGo kind size count)))
      (hk : kind < 4) (hs : size < 4) (hc : count < 2 ^ 20) : ∃ t, exec i s = .next t ∧ t.tlb = s.tlb ∧
        t.xl.invc.getLsbD 62 = true ∧ t.xl.invLo = s.xl.invLo ∧ t.xl.invHi = s.xl.invHi :=
    ⟨_, hexec.trans (congrArg _ (invWrite_busy hk hs hc hgo)), rfl, (setErr_bits _).1, rfl, rfl⟩
  simp only [List.forall_mem_cons]
  exact ⟨busy (exec_invalidateAll hup) (by omega) (by omega) (by omega),
    busy (exec_invalidateOnePage hup z) (by omega) z.isLt (by omega),
    busy (exec_invalidateRange hup z n) (by omega) z.isLt n.isLt, List.forall_mem_nil _⟩

end

/-! ### The end of an invalidate (08 R223, R240) -/

/-- No group is blocked on a page of the range any more, and no part is held on one. -/
theorem State.wakePages_awake (s : State) (lo hi : Nat) :
    (∀ g ∈ (s.wakePages lo hi).groups, ∀ page, g.st = .blockedPage page →
      ¬(lo ≤ page.toNat * 65536 ∧ page.toNat * 65536 < hi)) ∧
    ∀ o ∈ (s.wakePages lo hi).ops, ∀ p ∈ o.parts, ∀ page, p.held = some page →
      ¬(lo ≤ page.toNat * 65536 ∧ page.toNat * 65536 < hi) := by
  constructor
  · intro g hg page hst hin
    obtain ⟨h, -, rfl⟩ := List.mem_map.1 hg
    dsimp only at hst
    split at hst
    · next page' hpage =>
      split at hst
      · exact GState.noConfusion hst
      · next hout =>
        obtain rfl : page' = page := GState.blockedPage.inj (hpage.symm.trans hst)
        exact hout (by simpa using hin)
    · next hfree => exact hfree page hst
  · intro o ho p hp page hheld hin
    obtain ⟨o', -, rfl⟩ := List.mem_map.1 ho
    obtain ⟨q, -, rfl⟩ := List.mem_map.1 hp
    dsimp only at hheld
    split at hheld
    · next page' hpage =>
      split at hheld
      · exact absurd hheld (by simp)
      · next hout =>
        obtain rfl : page' = page := Option.some.inj (hpage.symm.trans hheld)
        exact hout (by simpa using hin)
    · next hfree => exact absurd (hfree.symm.trans hheld) (by simp)

/-- An invalidate is done once no access to its range is in flight. -/
theorem invalidateComplete_spec {s : State} (hgo : s.xl.invc.getLsbD 63 = true)
    (hfly : s.flying s.xl.invLo s.xl.invHi = false) :
    let within := fun (page : BitVec 32) => s.xl.invLo ≤ page.toNat * 65536 ∧ page.toNat * 65536 < s.xl.invHi
    ∃ t, exec .invalidateComplete s = .next t ∧ t.xl.invc.getLsbD 63 = false ∧ t.mem = s.mem ∧
      (∀ g ∈ t.groups, ∀ page, g.st = .blockedPage page → ¬within page) ∧
      ∀ o ∈ t.ops, ∀ p ∈ o.parts, ∀ page, p.held = some page → ¬within page := by
  have hexec : exec .invalidateComplete s =
      .next (({ s with xl := { s.xl with invc := setFld s.xl.invc 63 63 0 } }.dropTlb s.xl.invLo s.xl.invHi).wakePages
        s.xl.invLo s.xl.invHi) := if_pos (by rw [hgo, hfly]; rfl)
  refine ⟨_, hexec, ?_, rfl, State.wakePages_awake _ _ _⟩
  change (setFld s.xl.invc 63 63 0).getLsbD 63 = false
  simp [getLsbD_setFld, -BitVec.getLsbD_eq_getElem]

/-! ## Region commands (07 R211, 08 R252) -/

section
variable {s : State} (n : BitVec 12)

/-- XLREGC as an install and as a remove write it. -/
theorem regionGo_fields : (setFld (n.setWidth 64) 63 63 1).getLsbD 63 = true ∧
    (setFld (n.setWidth 64) 63 63 1).getLsbD 16 = false ∧ (setFld (n.setWidth 64) 63 63 1).extractLsb' 0 12 = n := by
  refine ⟨setGo_bit _, by simp [getLsbD_setFld, -BitVec.getLsbD_eq_getElem], BitVec.eq_of_getLsbD_eq fun i hi => ?_⟩
  rw [BitVec.getLsbD_extractLsb', Nat.zero_add, getLsbD_setFld _ (by omega) (by omega), if_neg (by omega)]
  simp only [BitVec.getLsbD_setWidth]
  simp only [hi, show i < 64 by omega, decide_true, Bool.true_and]

theorem removeGo_fields : (setFld (setFld (n.setWidth 64) 16 16 1) 63 63 1).getLsbD 63 = true ∧
    (setFld (setFld (n.setWidth 64) 16 16 1) 63 63 1).getLsbD 16 = true ∧
    (setFld (setFld (n.setWidth 64) 16 16 1) 63 63 1).extractLsb' 0 12 = n := by
  refine ⟨setGo_bit _, by simp [getLsbD_setFld, -BitVec.getLsbD_eq_getElem], BitVec.eq_of_getLsbD_eq fun i hi => ?_⟩
  rw [BitVec.getLsbD_extractLsb', Nat.zero_add, getLsbD_setFld _ (by omega) (by omega), if_neg (by omega),
    getLsbD_setFld _ (by omega) (by omega), if_neg (by omega)]
  simp only [BitVec.getLsbD_setWidth]
  simp only [hi, show i < 64 by omega, decide_true, Bool.true_and]

/-- A region command leaves its regions and its reason, and ERR with a reason. -/
theorem regionWrite_go {v : W64} {remove : Bool} (hgo : v.getLsbD 63 = true) (hrem : v.getLsbD 16 = remove)
    (hn : v.extractLsb' 0 12 = n) {reason : Nat} {rs : List Region} (hlt : reason < 64)
    (hcmd : s.regionCommand remove n = (reason, rs)) :
    (s.regionWrite v).regions = rs ∧ fld (s.regionWrite v).xl.regc 61 56 = reason ∧
    (s.regionWrite v).xl.regc.getLsbD 63 = false ∧ (reason ≠ 0 → (s.regionWrite v).xl.regc.getLsbD 62 = true) ∧
    (s.regionWrite v).mem = s.mem := by
  unfold State.regionWrite
  simp only [hgo, hrem, hn, hcmd, Bool.not_true, Bool.false_eq_true, if_false, true_and, and_true]
  refine ⟨?_, by simp [getLsbD_setFld, -BitVec.getLsbD_eq_getElem], fun h => ?_⟩
  · rw [fld_setFld_other _ (by omega) (by omega) (by omega) (by omega), fld_setFld_same _ (by omega) (by omega)]
    exact Nat.mod_eq_of_lt hlt
  · rw [if_neg (by simpa using h)]
    exact (setErr_bits _).1

variable (hup : s.ctl.up = true)
include hup

theorem exec_regionInstall : exec (.regionInstall n) s = .next (s.regionWrite (setFld (n.setWidth 64) 63 63 1)) :=
  congrArg _ (if_pos hup)

theorem exec_regionRemove :
    exec (.regionRemove n) s = .next (s.regionWrite (setFld (setFld (n.setWidth 64) 16 16 1) 63 63 1)) :=
  congrArg _ (if_pos hup)

end

/-- An install or a remove of a region. -/
def regionInstr (remove : Bool) (n : BitVec 12) : Instr := if remove then .regionRemove n else .regionInstall n

section
variable {s : State} {n : BitVec 12} {remove : Bool} (hup : s.ctl.up = true)
include hup

/-- What a region command comes to, by its reason and the regions it leaves. -/
theorem exec_regionInstr {reason : Nat} {rs : List Region} (hlt : reason < 64)
    (hcmd : s.regionCommand remove n = (reason, rs)) : ∃ t, exec (regionInstr remove n) s = .next t ∧ t.regions = rs ∧
      fld t.xl.regc 61 56 = reason ∧ t.xl.regc.getLsbD 63 = false ∧ (reason ≠ 0 → t.xl.regc.getLsbD 62 = true) ∧
      t.mem = s.mem := by
  cases remove with
  | false =>
    obtain ⟨hgo, hrem, hn⟩ := regionGo_fields n
    exact ⟨_, exec_regionInstall n hup, regionWrite_go n hgo hrem hn hlt hcmd⟩
  | true =>
    obtain ⟨hgo, hrem, hn⟩ := removeGo_fields n
    exact ⟨_, exec_regionRemove n hup, regionWrite_go n hgo hrem hn hlt hcmd⟩

theorem region_refused {reason : Nat} (h0 : reason ≠ 0) (hlt : reason < 64)
    (hcmd : s.regionCommand remove n = (reason, s.regions)) : ∃ t, exec (regionInstr remove n) s = .next t ∧
      t.regions = s.regions ∧ t.xl.regc.getLsbD 62 = true ∧ fld t.xl.regc 61 56 = reason ∧ t.mem = s.mem := by
  obtain ⟨t, hexec, hregions, hreason, -, herr, hmem⟩ := exec_regionInstr hup hlt hcmd
  exact ⟨t, hexec, hregions, herr h0, hreason, hmem⟩

theorem region_done {rs : List Region} (hcmd : s.regionCommand remove n = (0, rs)) :
    ∃ t, exec (regionInstr remove n) s = .next t ∧ t.regions = rs ∧ fld t.xl.regc 61 56 = 0 ∧
      t.xl.regc.getLsbD 63 = false ∧ t.mem = s.mem := by
  obtain ⟨t, hexec, hregions, hreason, hgo, -, hmem⟩ := exec_regionInstr hup (by omega) hcmd
  exact ⟨t, hexec, hregions, hreason, hgo, hmem⟩

end

/-! ### The reasons (08 Table 8.14) -/

section
variable {s : State} {n : BitVec 12}

/-- Region 0, an install of a region that is there, and a remove of one that is not. -/
theorem regionCommand_unfit {remove : Bool} (h : n = 0 ∨ (s.regions.any fun x => x.n == n) = !remove) :
    s.regionCommand remove n = (4, s.regions) := by
  refine if_pos ?_
  rcases h with h | h
  · simp [h]
  · rw [h]
    cases remove <;> simp

theorem regionCommand_remove (h0 : n ≠ 0) (hthere : (s.regions.any fun x => x.n == n) = true) :
    s.regionCommand true n = if s.regionBound n then (3, s.regions) else (0, s.regions.filter fun x => x.n != n) :=
  (if_neg (by simp only [hthere, h0]; decide)).trans (if_pos rfl)

/-- The place of a region's descriptor in the table that XLREGT names (08 R224). -/
def State.descriptorKey (s : State) (n : BitVec 12) : Nat :=
  mkDpa s.device (fld s.xl.regt 38 38) (fld s.xl.regt 37 12 * 4096 + 32 * n.toNat)

/-- An install that the region's number admits, by what it finds in the table. -/
theorem regionCommand_install (h0 : n ≠ 0) (hthere : (s.regions.any fun x => x.n == n) = false) :
    (s.poisoned (s.descriptorKey n) = true → s.regionCommand false n = (5, s.regions)) ∧
    (s.poisoned (s.descriptorKey n) = false →
      (parseRegion n ((s.recallNow (blockOf (s.descriptorKey n))).bytes (s.descriptorKey n) 32) = none →
        s.regionCommand false n = (1, s.regions)) ∧
      ∀ r, parseRegion n ((s.recallNow (blockOf (s.descriptorKey n))).bytes (s.descriptorKey n) 32) = some r →
        (s.regions.any fun x =>
          rangesOverlap x.base.toNat (x.base.toNat + x.len.toNat) r.base.toNat (r.base.toNat + r.len.toNat)) = false →
        s.regionCommand false n = (0, s.regions ++ [r])) := by
  have hfit : ¬(decide (n = 0) || (s.regions.any fun x => x.n == n) != false) = true := by simpa [hthere] using h0
  unfold State.descriptorKey State.regionCommand
  dsimp only
  rw [if_neg hfit, if_neg Bool.false_ne_true]
  refine ⟨fun hp => if_pos hp, fun hp => ⟨fun hparse => ?_, fun r hparse hlap => ?_⟩⟩
  · simp only [hp, hparse, Bool.false_eq_true, if_false]
  · simp only [hp, hparse, hlap, Bool.false_eq_true, if_false]

end

/-! ## The split pool (08 R246) -/

/-- A part of a field that was copied from another register. -/
theorem fld_setFld_copied (v w : W64) {hi lo hi' lo' : Nat} (hlo : lo ≤ lo') (hle : lo' ≤ hi') (hhi : hi' ≤ hi)
    (hlt : hi < 64) :
    fld (setFld v hi lo (fld w hi lo)) hi' lo' = fld w hi' lo' := by
  refine Nat.eq_of_testBit_eq fun j => ?_
  rw [testBit_fld, testBit_fld, getLsbD_setFld _ (by omega) hlt]
  by_cases hj : j < hi' - lo' + 1
  · rw [if_pos (by omega), testBit_fld, show lo + (lo' + j - lo) = lo' + j by omega,
      decide_eq_true (by omega : lo' + j - lo < hi - lo + 1), decide_eq_true hj, Bool.true_and]
  · simp [hj]

/-- A write of XLPOOL takes its base and die, and the pool begins anew. -/
theorem xlpoolWrite_spec {s : State} (hup : s.ctl.up = true) (v : W64) : ∃ t, exec (.xlpoolWrite v) s = .next t ∧
    fld t.xl.pool 38 38 = fld v 38 38 ∧ fld t.xl.pool 37 8 = fld v 37 8 ∧ fld t.xl.pooln 63 32 = 0 ∧
    fld t.xl.pooln 31 0 = fld s.xl.pooln 31 0 ∧ t.mem = s.mem :=
  ⟨s.poolWrite v, congrArg _ (if_pos hup), fld_setFld_copied 0 v (by omega) (by omega) (by omega) (by omega),
    fld_setFld_copied 0 v (by omega) (by omega) (by omega) (by omega), fld_setFld_same _ (by omega) (by omega) 0,
    fld_setFld_other _ (by omega) (by omega) (by omega) (by omega) 0, rfl⟩

/-- Settles O50: a PAGE_WALK that begins is `State.startMiss` and one that ends is `State.endWalk`; an invalidate starts by
`State.dropTlb` of its range and ends by `State.wakePages`; a region command is its reason and the regions it leaves. -/
theorem translationBlock : Obligations.TranslationBlock := by
  refine ⟨⟨fun s core va => ⟨exec_pageWalk_waits, fun hq hw => ⟨_, exec_pageWalk_starts hq hw, State.startMiss_eq _ _,
      State.startMiss_near, State.startMiss_far⟩, fun hq hw => ⟨_, exec_pageWalk_ends hq hw, State.endWalk_eq _ _ _,
      State.endWalk_empty, State.endWalk_other, fun y hy _ hfull hm => State.endWalk_turn hy hfull hm,
      fun e level hpage hlevel hone hnone => State.endWalk_leads va.isLt hlevel hpage hw hone hnone⟩⟩,
    fun s hup => ⟨fun hgo => ⟨invalidateAll_starts hup hgo, fun z hz => invalidateOnePage_starts hup hgo hz,
      fun z n hz hn => invalidateRange_starts hup hgo hz hn, invalidateOnePage_malformed hup hgo⟩, invalidate_refused hup⟩,
    fun s => invalidateComplete_spec⟩, fun s hup => ⟨fun n r => ?_, xlpoolWrite_spec hup⟩⟩
  refine ⟨fun h => region_refused (remove := false) hup (by omega) (by omega) (regionCommand_unfit h),
    fun h => region_refused (remove := true) hup (by omega) (by omega) (regionCommand_unfit h), ?_, ?_, ?_⟩
  · intro h0 hthere hp
    exact region_refused (remove := false) hup (by omega) (by omega) ((regionCommand_install h0 hthere).1 hp)
  · intro h0 hthere hp
    obtain ⟨hbad, hgood⟩ := (regionCommand_install h0 hthere).2 hp
    exact ⟨fun hparse => region_refused (remove := false) hup (by omega) (by omega) (hbad hparse), fun hparse hlap =>
      region_done (remove := false) hup (hgood r hparse hlap)⟩
  · intro h0 hthere
    refine ⟨fun hb => region_refused (remove := true) hup (by omega) (by omega) ?_, fun hb =>
      region_done (remove := true) hup ?_⟩
    · rw [regionCommand_remove h0 hthere, if_pos hb]
    · rw [regionCommand_remove h0 hthere, if_neg (by simp [hb])]

end Sys2Proof.Machine

namespace Sys2Proof

/-! ## Parts of a store moved (08 R241) -/

section
variable {w : Nat}

theorem Store.read_filter (m : Store w) (P : Nat → Bool) (y : Nat) :
    Store.read (m.filter fun p => P p.1) y = if P y then Store.read m y else 0 := by
  induction m with
  | nil => simp
  | cons p t ih =>
    obtain ⟨a, v⟩ := p
    by_cases ha : P a = true
    · rw [List.filter_cons_of_pos (by exact ha), Store.read, Store.read, ih]
      by_cases hy : a = y
      · subst hy; simp [ha]
      · simp [hy]
    · rw [List.filter_cons_of_neg (by exact ha), Store.read, ih]
      by_cases hy : a = y
      · subst hy; simp [ha]
      · simp [hy]

theorem Store.read_clear (m : Store w) (lo hi y : Nat) :
    Store.read (Store.clear m lo hi) y = if lo ≤ y ∧ y < hi then 0 else Store.read m y := by
  refine (Store.read_filter m (fun a => decide (a < lo) || decide (hi ≤ a)) y).trans ?_
  by_cases h : lo ≤ y ∧ y < hi
  · rw [if_neg (by simpa using h), if_pos h]
  · rw [if_pos (by simp only [Bool.or_eq_true, decide_eq_true_eq]; omega), if_neg h]

theorem Store.read_slice (m : Store w) (lo hi i : Nat) :
    Store.read (Store.slice m lo hi) i = if lo + i < hi then Store.read m (lo + i) else 0 := by
  have shift : ∀ t : Store w, (∀ p ∈ t, lo ≤ p.1) →
      Store.read (t.map fun p => (p.1 - lo, p.2)) i = Store.read t (lo + i) := by
    intro t ht
    induction t with
    | nil => rfl
    | cons p t ih =>
      have hp := ht p (by simp)
      rw [List.map_cons, Store.read, Store.read, ih fun q hq => ht q (by simp [hq])]
      simp only [show p.1 - lo = i ↔ p.1 = lo + i by omega]
  unfold Store.slice
  rw [shift _ fun p hp => by
    have := (List.mem_filter.1 hp).2
    simp only [Bool.and_eq_true, decide_eq_true_eq] at this
    exact this.1]
  refine (Store.read_filter m (fun a => decide (lo ≤ a) && decide (a < hi)) (lo + i)).trans ?_
  simp

/-- A store laid over another leaves the cells apart from its own. -/
theorem Store.read_overlay_out (m t : Store w) (k y : Nat) (h : ∀ p ∈ t, k + p.1 ≠ y) :
    Store.read (Store.overlay m k t) y = Store.read m y :=
  Store.read_foldl_write_out t (fun p => k + p.1) Prod.snd m h

/-- A store laid over zero cells reads as it did where it was. -/
theorem Store.read_overlay_in {t : Store w} (ht : Store.wf t = true) (m : Store w) (k i : Nat) (h : Store.read m (k + i) = 0) :
    Store.read (Store.overlay m k t) (k + i) = Store.read t i := by
  rw [Store.wf_iff] at ht
  obtain ⟨hrise, -⟩ := ht
  induction t generalizing m with
  | nil => exact h
  | cons p t ih =>
    obtain ⟨a, v⟩ := p
    obtain ⟨hfirst, hrest⟩ := List.pairwise_cons.1 hrise
    change Store.read (Store.overlay (Store.write m (k + a) v) k t) (k + i) = _
    by_cases ha : a = i
    · subst ha
      rw [Store.read_overlay_out _ _ _ _ fun p hp => by have := hfirst p hp; simp only at this; omega, Store.read_write_same,
        Store.read, if_pos rfl]
    · rw [ih _ (by rw [Store.read_write_other _ _ (by omega), h]) hrest, Store.read, if_neg ha]

/-- Some cells moved: what was there is gone, and the rest stays. -/
theorem Store.read_moved {m0 : Store w} (h0 : Store.wf m0 = true) (m : Store w) (src dst n y : Nat) :
    Store.read (Store.overlay (Store.clear m dst (dst + n)) dst (Store.slice m0 src (src + n))) y =
      if dst ≤ y ∧ y < dst + n then Store.read m0 (src + (y - dst)) else Store.read m y := by
  by_cases hy : dst ≤ y ∧ y < dst + n
  · have hread := Store.read_overlay_in (Store.wf_slice m0 src (src + n) h0) (Store.clear m dst (dst + n)) dst (y - dst)
      (by rw [Store.read_clear, if_pos (by omega)])
    rw [show dst + (y - dst) = y by omega, Store.read_slice, if_pos (by omega)] at hread
    rw [if_pos hy, hread]
  · rw [if_neg hy, Store.read_overlay_out _ _ _ _ fun p hp hk => ?_, Store.read_clear, if_neg hy]
    obtain ⟨q, hq, rfl⟩ := List.mem_map.1 hp
    have hin := (List.mem_filter.1 hq).2
    simp only [Bool.and_eq_true, decide_eq_true_eq] at hin
    exact hy (by simp only at hk; omega)

end

namespace Machine

/-! ## Folds of steps -/

/-- What one step of a fold establishes, and every step keeps, holds at its end. -/
theorem foldl_establishes {α σ : Type} {f : σ → α → σ} {P : σ → Prop} {l : List α} {a : α} (ha : a ∈ l)
    (hest : ∀ s, P (f s a)) (hkeep : ∀ s, ∀ b ∈ l, P s → P (f s b)) (s : σ) : P (l.foldl f s) := by
  obtain ⟨l1, l2, rfl⟩ := List.append_of_mem ha
  rw [List.foldl_append, List.foldl_cons]
  exact List.foldlRecOn (motive := P) _ _ (hest _) fun t ht b hb => hkeep t b (by simp [hb]) ht

/-- What every step keeps of a state, the whole fold keeps. -/
theorem foldl_keeps {α β : Type} {f : State → α → State} (proj : State → β) (hf : ∀ s a, proj (f s a) = proj s) (l : List α)
    (s : State) : proj (l.foldl f s) = proj s :=
  List.foldlRecOn (motive := fun t => proj t = proj s) _ _ rfl fun t ht a _ => (hf t a).trans ht

/-! ## Table entries that the part stores (08 R233) -/

/-- A purge writes the words of the block's owner, in the block. -/
theorem State.read_purge_out (s : State) (blk : Nat) {y : Nat} (h : y < blk ∨ blk + 64 ≤ y) :
    Store.read (s.purge blk).mem y = Store.read s.mem y := by
  change Store.read (s.recallNow blk).mem y = _
  unfold State.recallNow
  split
  · rfl
  · split
    · rfl
    · next ln hln =>
      obtain ⟨-, hblk⟩ := State.line?_some hln
      rw [State.setLine_mem, State.read_writeBack, if_neg (by omega)]

/-- A purge of a block that no L1 owns leaves memory. -/
theorem State.purge_mem_of_unowned {s : State} {blk : Nat} (h : (s.dirOf blk).owner = none) : (s.purge blk).mem = s.mem := by
  change (s.recallNow blk).mem = _
  rw [State.recallNow_none s blk h]

/-- After a purge of a block no L1 owns it, nor any block that none owned before. -/
theorem State.dirOf_purge (s : State) (blk b : Nat) :
    (s.purge blk).dirOf b = if b = blk then ⟨blk, none, []⟩ else s.dirOf b := by
  have hdir : (s.purge blk).dir = s.dir.filter fun d => d.blk != blk := by
    change (s.recallNow blk).dir.filter _ = _
    rw [State.recallNow_eq]
  unfold State.dirOf
  rw [hdir]
  split
  · next h =>
    subst h
    rw [show (s.dir.filter fun d => d.blk != b).find? (fun d => d.blk == b) = none from find?_filter_not _ _]
    rfl
  · next h =>
    rw [List.find?_filter]
    congr 2
    funext d
    by_cases hd : d.blk = b <;> simp [hd, h]

/-- A word stands in memory, and no L1 owns its block. -/
structure State.Settled (s : State) (key : Nat) (v : W64) : Prop where
  word : s.le key 8 = v.toNat
  home : (s.dirOf (blockOf key)).owner = none

theorem State.Settled.congr {s t : State} {key : Nat} {v : W64} (h : s.Settled key v) (hmem : t.mem = s.mem)
    (hdir : t.dir = s.dir) : t.Settled key v :=
  ⟨(State.le_congr hmem key 8).trans h.word, by unfold State.dirOf; rw [hdir]; exact h.home⟩

/-- Bytes stored elsewhere, after a purge of any block, leave a settled word. -/
theorem State.Settled.store {s : State} {key : Nat} {v : W64} (h : s.Settled key v) (hkey : key % 8 = 0) (b k : Nat)
    {l : List Byte} (hout : key + 8 ≤ k ∨ k + l.length ≤ key) : ((s.purge (blockOf b)).putBytes k l).Settled key v := by
  obtain ⟨hword, hhome⟩ := h
  constructor
  · rw [← hword]
    unfold State.le State.bytes
    rw [Store.readList_congr]
    intro i hi
    rw [State.putBytes_out _ _ _ _ (by omega)]
    by_cases hb : blockOf b = blockOf key
    · rw [hb, State.purge_mem_of_unowned hhome]
    · exact s.read_purge_out _ (by unfold blockOf at hb ⊢; omega)
  · change ((s.purge (blockOf b)).dirOf (blockOf key)).owner = none
    rw [State.dirOf_purge]
    split
    · rfl
    · exact hhome

theorem State.putWord_settled (s : State) (key : Nat) (v : W64) : (s.putWord key v).Settled key v := by
  constructor
  · have := State.le_putBytes (s.purge (blockOf key)) key 8 v.toNat (l := leBytes 8 v.toNat) (a := []) (c := []) (by simp)
    exact this.trans (Nat.mod_eq_of_lt v.isLt)
  · change ((s.purge (blockOf key)).dirOf (blockOf key)).owner = none
    rw [State.dirOf_purge, if_pos rfl]

/-- Entries stored one after another stand in the tables, where those at one place are alike. -/
theorem settled_foldl_putWord {α : Type} (key : α → Nat) (v : α → W64) {l : List α} (halign : ∀ a ∈ l, key a % 8 = 0)
    {a : α} (ha : a ∈ l) (halike : ∀ b ∈ l, key b = key a → v b = v a) (s : State) :
    (l.foldl (fun (s : State) b => s.putWord (key b) (v b)) s).Settled (key a) (v a) := by
  refine foldl_establishes (P := fun t : State => t.Settled (key a) (v a)) ha (fun t => t.putWord_settled _ _)
    (fun t b hb ht => ?_) s
  by_cases hk : key b = key a
  · rw [← hk, ← halike b hb hk]
    exact t.putWord_settled _ _
  · have h1 := halign a ha
    have h2 := halign b hb
    exact ht.store h1 _ _ (by rw [leBytes_length]; omega)

/-- An entry stored changes memory, the lines and the directory alone. -/
theorem State.putWord_eq (s : State) (key : Nat) (v : W64) : s.putWord key v =
    { s with mem := (s.putWord key v).mem, l1 := (s.putWord key v).l1, dir := (s.putWord key v).dir } := by
  unfold State.putWord State.putLe State.putBytes
  rw [State.purge_eq]
  rfl

@[simp] theorem State.putWord_groups (s : State) (key : Nat) (v : W64) : (s.putWord key v).groups = s.groups := by
  rw [State.putWord_eq]
@[simp] theorem State.putWord_locks (s : State) (key : Nat) (v : W64) : (s.putWord key v).locks = s.locks := by
  rw [State.putWord_eq]
@[simp] theorem State.putWord_quiesces (s : State) (key : Nat) (v : W64) : (s.putWord key v).quiesces = s.quiesces := by
  rw [State.putWord_eq]
@[simp] theorem State.putWord_ctl (s : State) (key : Nat) (v : W64) : (s.putWord key v).ctl = s.ctl := by
  rw [State.putWord_eq]

/-! ## The memory service (08 R244, Table 8.11) -/

@[simp] theorem State.setXl_groups (s : State) (dev : Nat) (x : XlRegs) : (s.setXl dev x).groups = s.groups := by
  unfold State.setXl
  split <;> rfl
@[simp] theorem State.setXl_locks (s : State) (dev : Nat) (x : XlRegs) : (s.setXl dev x).locks = s.locks := by
  unfold State.setXl
  split <;> rfl

theorem State.splitOne_keeps (s : State) (dev die off key level : Nat) (e : W64) :
    (s.splitOne dev die off key level e).groups = s.groups ∧ (s.splitOne dev die off key level e).locks = s.locks := by
  unfold State.splitOne
  dsimp only
  rw [State.putWord_groups, State.putWord_locks]
  exact ⟨foldl_keeps State.groups (fun s _ => s.putWord_groups _ _) _ _,
    foldl_keeps State.locks (fun s _ => s.putWord_locks _ _) _ _⟩

theorem State.splitDown_keeps (dev die va : Nat) (offs : List Nat) (s : State) (key level : Nat) (e : W64) :
    (s.splitDown dev die va offs key level e).groups = s.groups ∧
      (s.splitDown dev die va offs key level e).locks = s.locks := by
  induction offs generalizing s key level e with
  | nil => exact ⟨rfl, rfl⟩
  | cons off offs ih =>
    obtain ⟨hgroups, hlocks⟩ := s.splitOne_keeps dev die off key level e
    obtain ⟨ihgroups, ihlocks⟩ := ih (s.splitOne dev die off key level e) (mkDpa dev die off + 8 * levelIndex va (level - 1))
      (level - 1) (advanceLeaf e ((if level == 2 then 32 else 1) * levelIndex va (level - 1)))
    exact ⟨ihgroups.trans hgroups, ihlocks.trans hlocks⟩

theorem State.splitAll_keeps (s : State) (va : Nat) : (s.splitAll va).groups = s.groups ∧ (s.splitAll va).locks = s.locks := by
  unfold State.splitAll
  refine List.foldlRecOn (motive := fun t : State => t.groups = s.groups ∧ t.locks = s.locks) _ _ ⟨rfl, rfl⟩ fun t ht m _ => ?_
  split
  · exact ht
  · next offs x _ =>
    obtain ⟨hgroups, hlocks⟩ := t.splitDown_keeps m.dev (fld x.pool 38 38) va offs m.key m.level m.leaf
    rw [State.setXl_groups, State.setXl_locks, hgroups, hlocks]
    exact ht

/-- Nothing cached is left of a range that was dropped. -/
theorem State.dropTlb_none {s : State} {lo hi : Nat} {x : TlbEntry}
    (h : x ∈ (s.dropTlb lo hi).tlb ∨ x ∈ (s.dropTlb lo hi).dtlb) :
    rangesOverlap x.va.toNat (x.va.toNat + pageBytes x.size.toNat) lo hi = false := by
  obtain ⟨htlb, hdtlb⟩ := (s.mem_dropTlb lo hi).1 x
  exact h.elim (fun h => (htlb.1 h).2) fun h => (hdtlb.1 h).2

/-- A page's quiesce takes its lock, and drops its cached translations. -/
theorem State.quiescePage_keeps (s : State) (page : Nat) : (s.quiescePage page).groups = s.groups ∧
    (s.quiescePage page).locks = s.locks ++ [BitVec.ofNat 32 page] ∧
    ∀ x, (x ∈ (s.quiescePage page).tlb ∨ x ∈ (s.quiescePage page).dtlb) →
      rangesOverlap x.va.toNat (x.va.toNat + pageBytes x.size.toNat) (page * 65536) (page * 65536 + 65536) = false :=
  ⟨foldl_keeps State.groups (fun s _ => s.putWord_groups _ _) _ s,
    congrArg (· ++ _) (foldl_keeps State.locks (fun s _ => s.putWord_locks _ _) _ s), fun _ hx => State.dropTlb_none hx⟩

theorem Group.servicePage_some {g : Group} {page : Nat} (h : g.servicePage = some page) : ∃ p, g.park = some p := by
  unfold Group.servicePage at h
  split at h
  · next p _ hp => exact ⟨p, hp⟩
  · exact absurd h (by simp)

theorem Group.servicePage_of_unparked {g : Group} (h : g.park = none) : g.servicePage = none := by
  unfold Group.servicePage
  split
  · next p _ hp => exact absurd (h.symm.trans hp) (by simp)
  · rfl

/-- Once a page is resumed no group waits on it (08 Table 8.11, step 6). -/
theorem State.resumePage_free (s : State) (page : Nat) : ∀ h ∈ (s.resumePage page).groups, h.servicePage ≠ some page := by
  intro h hh
  obtain ⟨g, -, rfl⟩ := List.mem_map.1 hh
  dsimp only
  by_cases hpage : g.servicePage = some page
  · obtain ⟨p, hp⟩ := Group.servicePage_some hpage
    rw [if_pos (by simpa using hpage), hp, Group.servicePage_of_unparked rfl]
    simp
  · rw [if_neg (by simpa using hpage)]
    exact hpage

/-- The end of a collapse lets go of the page's lock, and of the groups that wait on it. -/
theorem State.collapsePage_frees (s : State) (l : BitVec 32) :
    l ∉ (s.collapsePage l.toNat).locks ∧ ∀ h ∈ (s.collapsePage l.toNat).groups, h.servicePage ≠ some l.toNat := by
  refine ⟨fun h => ?_, State.resumePage_free _ _⟩
  have := (List.mem_filter.1 h).2
  simp at this

section
variable {s : State} {gid page : Nat} {g : Group} {p : ParkRec} (hg : s.group? gid = some g) (hp : g.park = some p)
  (hpage : g.servicePage = some page)
include hg hp hpage

/-- A group's fault in a region without a lock is served. -/
theorem exec_memoryService_serves (hfree : (s.locks.find? fun l => l.toNat / 32 == page / 32) = none) :
    exec (.memoryServiceCollapse gid) s = serveFault s g p page := by
  change execMemoryServiceCollapse gid s = _
  unfold execMemoryServiceCollapse
  simp only [hg, hp, hpage, hfree, Option.bind_some, Option.map_some]

/-- The page that holds the region's lock is finished once no access to it is in flight. -/
theorem exec_memoryService_finishes {l : BitVec 32} (hlock : (s.locks.find? fun l => l.toNat / 32 == page / 32) = some l)
    (hfly : s.flying (l.toNat * 65536) (l.toNat * 65536 + 65536) = false) :
    exec (.memoryServiceCollapse gid) s = .next (s.collapsePage l.toNat) := by
  change execMemoryServiceCollapse gid s = _
  unfold execMemoryServiceCollapse
  simp only [hg, hp, hpage, hlock, hfly, Option.bind_some, Option.map_some]
  rfl

end

section
variable {s : State} {g : Group} {p : ParkRec} {key level page : Nat} {e : W64}
  (hleaf : s.leafOf ⟨BitVec.ofNat 6 s.device, s.xl, s.regions⟩ (page * 65536) = some (key, level, e))
include hleaf

/-- A page that is not read-duplicate any more, nor quiesced, needs no service. -/
theorem serveFault_resumes (h2 : leafState e ≠ 2) (h5 : leafState e ≠ 5) :
    serveFault s g p page = .next (s.resumePage page) := by
  unfold serveFault
  simp only [hleaf]
  rw [if_neg (by simpa using h5), if_pos (by simpa using h2)]

/-- A read-duplicate page with an owner, and room in every pool, is split down and quiesced. -/
theorem serveFault_quiesces (h2 : leafState e = 2)
    (hown : ((s.mapped (page * 65536) 2).any fun m => m.own && m.dev == leafDevice e) = true)
    (hroom : s.shortPools (page * 65536) = []) :
    serveFault s g p page = .next ((s.splitAll (page * 65536)).quiescePage page) := by
  unfold serveFault
  simp only [hleaf, hroom]
  rw [if_neg (by simp [h2]), if_neg (by simp [h2]), if_neg (by simp [hown])]

end

/-! ## Quiesce points (08 R239 to R242, Table 8.10) -/

/-- The point after a step stands in the place of the one before it. -/
theorem State.setQuiesce_find {s : State} {job : Nat} {j : Quiesce} (h : (s.quiesces.find? fun x => x.id == job) = some j)
    {j' : Quiesce} (hid : j'.id = j.id) : ((s.setQuiesce j').quiesces.find? fun x => x.id == job) = some j' := by
  obtain rfl : j.id = job := by simpa using List.find?_some h
  rw [← hid] at h ⊢
  exact find_map_same Quiesce.id s.quiesces j' (by rw [h]; rfl)

theorem State.dropPages_eq (s : State) (j : Quiesce) : s.dropPages j =
    { s with tlb := (s.dropPages j).tlb, dtlb := (s.dropPages j).dtlb, wcache := (s.dropPages j).wcache } :=
  List.foldlRecOn (motive := fun t : State => t = { s with tlb := t.tlb, dtlb := t.dtlb, wcache := t.wcache }) _ _ rfl
    fun t ht q _ => by rw [ht]; rfl

theorem State.dropPages_keeps (s : State) (j : Quiesce) : (s.dropPages j).groups = s.groups ∧
    (s.dropPages j).quiesces = s.quiesces ∧ (s.dropPages j).mem = s.mem ∧ (s.dropPages j).dir = s.dir ∧
    (s.dropPages j).ctl = s.ctl := by
  rw [State.dropPages_eq]
  exact ⟨rfl, rfl, rfl, rfl, rfl⟩

/-- Nothing cached is left of the addresses of a point. -/
theorem State.dropPages_none {s : State} {j : Quiesce} {x : TlbEntry} (h : x ∈ (s.dropPages j).tlb ∨ x ∈ (s.dropPages j).dtlb) :
    ∀ q ∈ j.spans, rangesOverlap x.va.toNat (x.va.toNat + pageBytes x.size.toNat) q.1 q.2 = false := fun q hq => by
  refine foldl_establishes (f := fun (s : State) (p : Nat × Nat) => s.dropTlb p.1 p.2)
    (P := fun t : State => x ∈ t.tlb ∨ x ∈ t.dtlb →
      rangesOverlap x.va.toNat (x.va.toNat + pageBytes x.size.toNat) q.1 q.2 = false) hq
    (fun t => State.dropTlb_none) (fun t r _ ht hx => ht ?_) s h
  obtain ⟨htlb, hdtlb⟩ := (t.mem_dropTlb r.1 r.2).1 x
  exact hx.imp (fun h => (htlb.1 h).1) fun h => (hdtlb.1 h).1

/-! ### Step 1: state 5 in the leaves -/

/-- State 5 stored in the leaves that name frames. -/
def State.storeQuiesced (s : State) (ls : List LeafChange) : State :=
  ls.foldl (fun (s : State) l => if leafLive l.old then s.putWord l.key (setFld l.old 11 9 5) else s) s

theorem State.storeQuiesced_eq (s : State) (ls : List LeafChange) : s.storeQuiesced ls =
    (ls.filter fun l => leafLive l.old).foldl (fun (s : State) l => s.putWord l.key (setFld l.old 11 9 5)) s := by
  rw [List.foldl_filter]
  rfl

theorem State.storeQuiesced_keeps (s : State) (ls : List LeafChange) :
    (s.storeQuiesced ls).groups = s.groups ∧ (s.storeQuiesced ls).quiesces = s.quiesces := by
  rw [State.storeQuiesced_eq]
  exact ⟨foldl_keeps State.groups (fun s _ => s.putWord_groups _ _) _ _,
    foldl_keeps State.quiesces (fun s _ => s.putWord_quiesces _ _) _ _⟩

/-- The old value of a change is what its entry holds (08 R239). -/
theorem quiesceLeaves_old {s : State} {j : Quiesce} {l : LeafChange} (h : l ∈ quiesceLeaves s j) : l.old = s.word l.key := by
  unfold quiesceLeaves at h
  simp only [List.mem_flatMap, List.mem_filterMap] at h
  obtain ⟨p, -, d, -, q, -, hq⟩ := h
  simp only [Option.ite_none_right_eq_some] at hq
  obtain ⟨-, hq⟩ := hq
  obtain rfl := Option.some.inj hq
  rfl

theorem storeQuiesced_settled {s : State} {j : Quiesce} (halign : ∀ l ∈ quiesceLeaves s j, l.key % 8 = 0) :
    ∀ l ∈ quiesceLeaves s j, leafLive l.old = true →
      (s.storeQuiesced (quiesceLeaves s j)).Settled l.key (setFld l.old 11 9 5) := fun l hl hlive => by
  rw [State.storeQuiesced_eq]
  refine settled_foldl_putWord LeafChange.key (fun l => setFld l.old 11 9 5) (fun a ha => halign a (List.mem_filter.1 ha).1)
    (List.mem_filter.2 ⟨hl, hlive⟩) (fun b hb hk => ?_) s
  rw [quiesceLeaves_old (List.mem_filter.1 hb).1, quiesceLeaves_old hl, hk]

/-! ### Step 3: lines and hampers of the old frames come home -/

theorem inFrames_cons (f : Nat × Nat) (fs : List (Nat × Nat)) (key : Nat) :
    inFrames (f :: fs) key = (decide (f.1 ≤ key) && decide (key < f.1 + f.2) || inFrames fs key) := rfl

/-- A line of a frame dropped from its L1: an owned one gives its dirty words, and the directory forgets the block. -/
def State.dropFrameLine (s : State) (l : L1Line) : State :=
  ((if l.st == LineSt.owned then s.writeBack l else s).dropLine l.core l.blk).setDir ⟨l.blk, none, []⟩

theorem State.dropFrame_foldl (s : State) (lo n : Nat) : s.dropFrame lo n =
    (s.l1.filter fun (l : L1Line) => lo ≤ l.blk && l.blk < lo + n).foldl State.dropFrameLine s := rfl

theorem State.mem_dropFrameLine_l1 (s : State) (l x : L1Line) :
    x ∈ (s.dropFrameLine l).l1 ↔ x ∈ s.l1 ∧ ¬(x.core = l.core ∧ x.blk = l.blk) := by
  have hl1 : (s.dropFrameLine l).l1 = s.l1.filter fun x => !(x.core == l.core && x.blk == l.blk) := by
    unfold State.dropFrameLine
    split <;> rfl
  rw [hl1, List.mem_filter, Bool.not_eq_true', Bool.and_eq_false_iff, beq_eq_false_iff_ne, beq_eq_false_iff_ne, not_and_or]

theorem State.dropFrameLine_eq (s : State) (l : L1Line) : s.dropFrameLine l =
    { s with mem := (s.dropFrameLine l).mem, l1 := (s.dropFrameLine l).l1, dir := (s.dropFrameLine l).dir } := by
  unfold State.dropFrameLine
  split <;> rfl

/-- The lines that a frame's drop leaves are those outside it. -/
theorem State.mem_dropFrame_l1 (s : State) (lo n : Nat) (x : L1Line) :
    x ∈ (s.dropFrame lo n).l1 ↔ x ∈ s.l1 ∧ ¬(lo ≤ x.blk ∧ x.blk < lo + n) := by
  have hfold : ∀ (ls : List L1Line) (t : State),
      x ∈ (ls.foldl State.dropFrameLine t).l1 ↔ x ∈ t.l1 ∧ ∀ l ∈ ls, ¬(x.core = l.core ∧ x.blk = l.blk) := by
    intro ls
    induction ls with
    | nil => simp
    | cons l ls ih =>
      intro t
      rw [List.foldl_cons, ih, State.mem_dropFrameLine_l1, List.forall_mem_cons, and_assoc]
  rw [State.dropFrame_foldl, hfold]
  refine and_congr_right fun hx => ⟨fun h hin => ?_, fun hout l hl hsame => ?_⟩
  · exact h x (List.mem_filter.2 ⟨hx, by simpa using hin⟩) ⟨rfl, rfl⟩
  · have := (List.mem_filter.1 hl).2
    rw [hsame.2] at hout
    exact hout (by simpa using this)

theorem State.dropFrame_eq (s : State) (lo n : Nat) : s.dropFrame lo n =
    { s with mem := (s.dropFrame lo n).mem, l1 := (s.dropFrame lo n).l1, dir := (s.dropFrame lo n).dir } := by
  rw [State.dropFrame_foldl]
  exact List.foldlRecOn (motive := fun t : State => t = { s with mem := t.mem, l1 := t.l1, dir := t.dir }) _ _ rfl
    fun t ht l _ => by rw [State.dropFrameLine_eq, ht]

/-- The dirty words of a line are in memory. -/
def State.HomeBytes (s : State) (ln : L1Line) : Prop :=
  ∀ i, i < 64 → ln.dirty.getLsbD (i / 4) = true → Store.read s.mem (ln.blk + i) = Store.read ln.data i

theorem State.writeBack_homeBytes (s : State) (ln : L1Line) : (s.writeBack ln).HomeBytes ln := fun i hi hd => by
  rw [State.read_writeBack, if_pos ⟨by omega, by omega, by simpa using hd⟩, Nat.add_sub_cancel_left]

/-- A line dropped leaves the bytes outside its block. -/
theorem State.read_dropFrameLine_out (s : State) (l : L1Line) {y : Nat} (h : y < l.blk ∨ l.blk + 64 ≤ y) :
    Store.read (s.dropFrameLine l).mem y = Store.read s.mem y := by
  unfold State.dropFrameLine
  rw [State.setDir_mem, State.dropLine_mem]
  split
  · rw [State.read_writeBack, if_neg (by omega)]
  · rfl

/-- An owned line that is dropped gives its dirty words. -/
theorem State.dropFrameLine_homeBytes (s : State) {ln : L1Line} (hst : ln.st = .owned) : (s.dropFrameLine ln).HomeBytes ln := by
  have hmem : (s.dropFrameLine ln).mem = (s.writeBack ln).mem := by
    unfold State.dropFrameLine
    rw [if_pos (by simp [hst])]
    rfl
  unfold State.HomeBytes
  rw [hmem]
  exact s.writeBack_homeBytes ln

section
variable {ln : L1Line} (hst : ln.st = .owned) (halign : ln.blk % 64 = 0)
include hst halign

/-- Lines of other blocks leave the words that a line has brought home. -/
theorem State.HomeBytes.dropFrameLine {s : State} (h : s.HomeBytes ln) {l : L1Line} (hl : l.blk % 64 = 0)
    (hone : l.blk = ln.blk → l = ln) : (s.dropFrameLine l).HomeBytes ln := by
  by_cases hblk : l.blk = ln.blk
  · rw [hone hblk]
    exact s.dropFrameLine_homeBytes hst
  · exact fun i hi hd => (s.read_dropFrameLine_out l (by omega)).trans (h i hi hd)

/-- An owned line, the only one of its block, is home once its frame has been dropped. -/
theorem State.dropFrame_homeBytes {s : State} {lo n : Nat} (haligned : ∀ l ∈ s.l1, l.blk % 64 = 0)
    (hone : ∀ l ∈ s.l1, l.blk = ln.blk → l = ln)
    (h : s.HomeBytes ln ∨ ln ∈ s.l1 ∧ lo ≤ ln.blk ∧ ln.blk < lo + n) : (s.dropFrame lo n).HomeBytes ln := by
  have hkeep : ∀ t : State, ∀ l ∈ s.l1.filter (fun (l : L1Line) => decide (lo ≤ l.blk) && decide (l.blk < lo + n)),
      t.HomeBytes ln → (t.dropFrameLine l).HomeBytes ln := fun t l hl ht =>
    have hl1 := (List.mem_filter.1 hl).1
    ht.dropFrameLine hst halign (haligned l hl1) (hone l hl1)
  rw [State.dropFrame_foldl]
  rcases h with h | ⟨hin, hlo, hhi⟩
  · exact List.foldlRecOn (motive := fun t : State => t.HomeBytes ln) _ _ h fun t ht l hl => hkeep t l hl ht
  · exact foldl_establishes (P := fun t : State => t.HomeBytes ln) (List.mem_filter.2 ⟨hin, by simp [hlo, hhi]⟩)
      (fun t => t.dropFrameLine_homeBytes hst) hkeep s

end

/-- The frames' lines dropped, one frame after another. -/
def State.dropFrames (s : State) (fs : List (Nat × Nat)) : State :=
  fs.foldl (fun (s : State) f => s.dropFrame f.1 f.2) s

theorem State.mem_dropFrames_l1 (fs : List (Nat × Nat)) (s : State) (x : L1Line) :
    x ∈ (s.dropFrames fs).l1 ↔ x ∈ s.l1 ∧ inFrames fs x.blk = false := by
  induction fs generalizing s with
  | nil => simp [State.dropFrames, inFrames]
  | cons f fs ih =>
    refine (ih (s.dropFrame f.1 f.2)).trans ?_
    rw [State.mem_dropFrame_l1, inFrames_cons, and_assoc]
    simp

theorem State.dropFrames_eq (s : State) (fs : List (Nat × Nat)) : s.dropFrames fs =
    { s with mem := (s.dropFrames fs).mem, l1 := (s.dropFrames fs).l1, dir := (s.dropFrames fs).dir } :=
  List.foldlRecOn (motive := fun t : State => t = { s with mem := t.mem, l1 := t.l1, dir := t.dir }) _ _ rfl
    fun t ht f _ => by rw [State.dropFrame_eq, ht]

theorem State.dropFrames_homeBytes {ln : L1Line} (hst : ln.st = .owned) (halign : ln.blk % 64 = 0) (fs : List (Nat × Nat))
    {s : State} (haligned : ∀ l ∈ s.l1, l.blk % 64 = 0) (hone : ∀ l ∈ s.l1, l.blk = ln.blk → l = ln)
    (h : s.HomeBytes ln ∨ ln ∈ s.l1 ∧ inFrames fs ln.blk = true) : (s.dropFrames fs).HomeBytes ln := by
  induction fs generalizing s with
  | nil => exact h.elim id fun h => absurd h.2 (by simp [inFrames])
  | cons f fs ih =>
    have hsub : ∀ l ∈ (s.dropFrame f.1 f.2).l1, l ∈ s.l1 := fun l hl => ((s.mem_dropFrame_l1 _ _ _).1 hl).1
    refine ih (s := s.dropFrame f.1 f.2) (fun l hl => haligned l (hsub l hl)) (fun l hl => hone l (hsub l hl)) ?_
    by_cases hin : f.1 ≤ ln.blk ∧ ln.blk < f.1 + f.2
    · exact .inl (State.dropFrame_homeBytes hst halign haligned hone (h.imp id fun h => ⟨h.1, hin⟩))
    · refine h.imp (fun h => State.dropFrame_homeBytes hst halign haligned hone (.inl h)) fun h => ?_
      rw [inFrames_cons, Bool.or_eq_true] at h
      exact ⟨(s.mem_dropFrame_l1 _ _ _).2 ⟨h.1, hin⟩, h.2.resolve_left (by simpa using hin)⟩

/-- The home's sum of an element is no longer than the element (07 Table 7.3). -/
theorem Region.combine_length_le (r : Region) (old : List Byte) (ws : List W32) : (r.combine old ws).length ≤ r.elemBytes := by
  unfold Region.combine Region.elemBytes
  split
  · next h => simp [h]
  · next h => simp [h]
  · next h => simp [h]
  · next h _ _ =>
    rw [leBytes_length]
    split
    · next h1 => exact absurd h1 h
    · omega
    · omega
    · omega
    · omega

/-- A combine of a block leaves the bytes outside it. -/
theorem State.read_combineAll_out (s : State) (r : Region) (blk : Nat) (x : Sums) {y : Nat} (h : y < blk ∨ blk + 64 ≤ y) :
    Store.read (s.combineAll r blk x).mem y = Store.read s.mem y := by
  unfold State.combineAll
  refine List.foldlRecOn (motive := fun t : State => Store.read t.mem y = Store.read s.mem y) _ _ rfl fun t ht e he => ?_
  split
  · have hlen := r.combine_length_le (t.bytes (blk + e * r.elemBytes) r.elemBytes) (partWordsAt r x.part e)
    have hin : (e + 1) * r.elemBytes ≤ 64 := Nat.mul_le_of_le_div _ _ _ (List.mem_range.1 he)
    rw [Nat.add_one_mul] at hin
    exact (t.putBytes_out _ _ _ (by omega)).trans ht
  · exact ht

/-- What one holder of a block has comes home (07 R221). -/
def State.holderHome (hb : HomeBlk) (s : State) (x : Holder) : State :=
  match s.hamper? x.core hb.blk with
  | some h => (s.combineAll hb.region hb.blk h.sums).dropHamper x.core hb.blk
  | none => s

theorem State.holderHome_eq (hb : HomeBlk) (s : State) (x : Holder) : s.holderHome hb x =
    { s with mem := (s.holderHome hb x).mem, hampers := (s.holderHome hb x).hampers } := by
  unfold State.holderHome
  split
  · rw [State.combineAll_eq]
    rfl
  · rfl

/-- The holders' hampers come home in order, and the home keeps nothing of the block. -/
theorem State.combineHolders_eq (s : State) (hb : HomeBlk) : s.combineHolders hb = { s with
    mem := (s.combineHolders hb).mem, hampers := (s.combineHolders hb).hampers
    homes := s.homes.filter fun x => x.blk != hb.blk } := by
  have hfold := List.foldlRecOn (motive := fun t : State => t = { s with mem := t.mem, hampers := t.hampers })
    (sortBy holderBefore hb.holders) (State.holderHome hb) (b := s) rfl fun t ht x _ => by rw [State.holderHome_eq, ht]
  exact congrArg (fun t : State => { t with homes := t.homes.filter fun x => x.blk != hb.blk }) hfold

/-- What the holders of a block bring home leaves the bytes outside it. -/
theorem State.read_combineHolders_out (s : State) (hb : HomeBlk) {y : Nat} (h : y < hb.blk ∨ hb.blk + 64 ≤ y) :
    Store.read (s.combineHolders hb).mem y = Store.read s.mem y := by
  refine List.foldlRecOn (motive := fun t : State => Store.read t.mem y = Store.read s.mem y)
    (sortBy holderBefore hb.holders) (State.holderHome hb) rfl fun t ht x _ => ?_
  unfold State.holderHome
  split
  · exact (t.read_combineAll_out _ _ _ h).trans ht
  · exact ht

/-- The old frames' lines and hampers come home. -/
def State.framesHome (s : State) (fs : List (Nat × Nat)) : State :=
  (s.homes.filter fun h => inFrames fs h.blk).foldl State.combineHolders (s.dropFrames fs)

theorem State.combineHolders_foldl_eq (hs : List HomeBlk) (s : State) : hs.foldl State.combineHolders s = { s with
    mem := (hs.foldl State.combineHolders s).mem, hampers := (hs.foldl State.combineHolders s).hampers
    homes := (hs.foldl State.combineHolders s).homes } :=
  List.foldlRecOn (motive := fun t : State => t = { s with mem := t.mem, hampers := t.hampers, homes := t.homes }) _ _ rfl
    fun t ht hb _ => by rw [State.combineHolders_eq, ht]

theorem State.framesHome_keeps (s : State) (fs : List (Nat × Nat)) :
    (s.framesHome fs).groups = s.groups ∧ (s.framesHome fs).quiesces = s.quiesces ∧
      (s.framesHome fs).l1 = (s.dropFrames fs).l1 := by
  unfold State.framesHome
  rw [State.combineHolders_foldl_eq, State.dropFrames_eq]
  exact ⟨rfl, rfl, rfl⟩

/-- No home of an old frame is left. -/
theorem State.framesHome_homes (s : State) (fs : List (Nat × Nat)) :
    ∀ hb ∈ (s.framesHome fs).homes, inFrames fs hb.blk = false := by
  have hmem : ∀ (hs : List HomeBlk) (t : State) (hb : HomeBlk),
      hb ∈ (hs.foldl State.combineHolders t).homes → hb ∈ t.homes ∧ ∀ x ∈ hs, hb.blk ≠ x.blk := by
    intro hs
    induction hs with
    | nil => exact fun t hb h => ⟨h, by simp⟩
    | cons x hs ih =>
      intro t hb h
      obtain ⟨hin, hrest⟩ := ih _ _ h
      rw [State.combineHolders_eq, List.mem_filter] at hin
      exact ⟨hin.1, List.forall_mem_cons.2 ⟨by simpa using hin.2, hrest⟩⟩
  intro hb h
  obtain ⟨hin, hnot⟩ := hmem _ _ hb h
  rw [State.dropFrames_eq] at hin
  by_contra hframe
  exact hnot hb (List.mem_filter.2 ⟨hin, by simpa using hframe⟩) rfl

/-- An owned line's dirty words are home. -/
theorem State.framesHome_homeBytes {s : State} {fs : List (Nat × Nat)} {ln : L1Line} (haligned : ∀ l ∈ s.l1, l.blk % 64 = 0)
    (hhomes : ∀ hb ∈ s.homes, hb.blk % 64 = 0) (hln : ln ∈ s.l1) (hst : ln.st = .owned) (hin : inFrames fs ln.blk = true)
    (hhome : s.home? ln.blk = none) (hone : ∀ l ∈ s.l1, l.blk = ln.blk → l = ln) : (s.framesHome fs).HomeBytes ln := by
  have halign := haligned ln hln
  refine List.foldlRecOn (motive := fun t : State => t.HomeBytes ln) _ _
    (State.dropFrames_homeBytes hst halign fs haligned hone (.inr ⟨hln, hin⟩)) fun t ht hb hb' => ?_
  have hhb := (List.mem_filter.1 hb').1
  have hblk : hb.blk ≠ ln.blk := by simpa using List.find?_eq_none.1 hhome hb hhb
  have hbalign := hhomes hb hhb
  exact fun i hi hd => (t.read_combineHolders_out hb (by omega)).trans (ht i hi hd)

/-! ### Step 5: the new frames filled -/

/-- 64 KiB of a new frame is filled from another place. -/
def Quiesce.Fills (j : Quiesce) (src dst : Nat) : Prop :=
  ∃ l ∈ j.news, l.new ≠ l.old ∧ ∃ i, i < l.bytes / 65536 ∧
    j.source (l.page.toNat + i * 65536) = some src ∧ dst = l.frame l.new + i * 65536 ∧ src ≠ dst

/-- 64 KiB of a new frame filled, as memory stands in `s0`; the caches keep nothing of it. -/
def State.fillUnit (s0 s : State) (src dst : Nat) : State := copyFrame s0 (s.forgetFrame dst 65536) src dst 65536

/-- The `i`th 64 KiB of a changed page. -/
def State.fillPart (s0 : State) (j : Quiesce) (l : LeafChange) (s : State) (i : Nat) : State :=
  match j.source (l.page.toNat + i * 65536) with
  | some src => if src == l.frame l.new + i * 65536 then s else s0.fillUnit s src (l.frame l.new + i * 65536)
  | none => s

def State.fillLeaf (s0 : State) (j : Quiesce) (s : State) (l : LeafChange) : State :=
  (List.range (l.bytes / 65536)).foldl (s0.fillPart j l) s

theorem State.fillFrames_foldl (s0 : State) (j : Quiesce) :
    s0.fillFrames j = (j.news.filter fun l => l.new != l.old).foldl (s0.fillLeaf j) s0 := rfl

section
variable {s0 : State} {j : Quiesce} {P : State → Prop}
  (hkeep : ∀ t src dst, j.Fills src dst → P t → P (s0.fillUnit t src dst))
include hkeep

theorem State.fillPart_keeps {l : LeafChange} (hl : l ∈ j.news) (hne : l.new ≠ l.old) {i : Nat} (hi : i < l.bytes / 65536)
    {t : State} (ht : P t) : P (s0.fillPart j l t i) := by
  unfold State.fillPart
  split
  · next src hsrc =>
    split
    · exact ht
    · next hdst => exact hkeep t _ _ ⟨l, hl, hne, i, hi, hsrc, rfl, by simpa using hdst⟩ ht
  · exact ht

theorem State.fillLeaf_keeps {l : LeafChange} (hl : l ∈ j.news.filter fun l => l.new != l.old) {t : State} (ht : P t) :
    P (s0.fillLeaf j t l) := by
  obtain ⟨hnews, hne⟩ := List.mem_filter.1 hl
  exact List.foldlRecOn (motive := P) _ _ ht fun t ht i hi =>
    State.fillPart_keeps hkeep hnews (by simpa using hne) (List.mem_range.1 hi) ht

/-- What every filling keeps holds at the end. -/
theorem State.fillFrames_keeps (h0 : P s0) : P (s0.fillFrames j) := by
  rw [State.fillFrames_foldl]
  exact List.foldlRecOn (motive := P) _ _ h0 fun _ ht _ hl => State.fillLeaf_keeps hkeep hl ht

/-- What one filling establishes, and every one keeps, holds at the end. -/
theorem State.fillFrames_establishes {src dst : Nat} (h : j.Fills src dst) (hest : ∀ t, P (s0.fillUnit t src dst)) :
    P (s0.fillFrames j) := by
  obtain ⟨l, hl, hne, i, hi, hsrc, rfl, hdst⟩ := h
  have hunit : ∀ t, s0.fillPart j l t i = s0.fillUnit t src (l.frame l.new + i * 65536) := fun t => by
    unfold State.fillPart
    rw [hsrc]
    exact if_neg (by simpa using hdst)
  have hin : l ∈ j.news.filter fun l => l.new != l.old := List.mem_filter.2 ⟨hl, by simpa using hne⟩
  rw [State.fillFrames_foldl]
  exact foldl_establishes hin (fun t => foldl_establishes (List.mem_range.2 hi) (fun t => hunit t ▸ hest t)
    (fun t k hk ht => State.fillPart_keeps hkeep hl hne (List.mem_range.1 hk) ht) t)
    (fun t b hb ht => State.fillLeaf_keeps hkeep hb ht) s0

end

theorem State.fillFrames_same (s0 : State) (j : Quiesce) :
    (s0.fillFrames j).groups = s0.groups ∧ (s0.fillFrames j).quiesces = s0.quiesces :=
  State.fillFrames_keeps (P := fun t : State => t.groups = s0.groups ∧ t.quiesces = s0.quiesces)
    (fun _ _ _ _ ht => ht) ⟨rfl, rfl⟩

theorem State.mem_fillUnit_l1 {s0 t : State} {src dst : Nat} {ln : L1Line} :
    ln ∈ (s0.fillUnit t src dst).l1 ↔ ln ∈ t.l1 ∧ ¬(dst ≤ ln.blk ∧ ln.blk < dst + 65536) := by
  change ln ∈ t.l1.filter (fun l => !(decide (dst ≤ l.blk) && decide (l.blk < dst + 65536))) ↔ _
  rw [List.mem_filter, Bool.not_eq_true', Bool.and_eq_false_iff, decide_eq_false_iff_not, decide_eq_false_iff_not, not_and_or]

/-- No L1 keeps an earlier line of a frame that was filled. -/
theorem State.fillFrames_l1 (s0 : State) {j : Quiesce} {src dst : Nat} (h : j.Fills src dst) :
    ∀ ln ∈ (s0.fillFrames j).l1, ¬(dst ≤ ln.blk ∧ ln.blk < dst + 65536) :=
  State.fillFrames_establishes (P := fun t : State => ∀ ln ∈ t.l1, ¬(dst ≤ ln.blk ∧ ln.blk < dst + 65536))
    (fun _ _ _ _ ht ln hln => ht ln (State.mem_fillUnit_l1.1 hln).1) h fun _ _ hln => (State.mem_fillUnit_l1.1 hln).2

/-- A byte of HBM after a filling: the tags lie above it. -/
theorem State.read_fillUnit {s0 : State} (hwf : Memory.wf s0.mem = true) (t : State) (src dst : Nat) {y : Nat}
    (hy : y < 2 ^ 48) : Store.read (s0.fillUnit t src dst).mem y =
      if dst ≤ y ∧ y < dst + 65536 then Store.read s0.mem (src + (y - dst)) else Store.read t.mem y := by
  refine (Store.read_moved hwf _ (tagKey src) (tagKey dst) (65536 / 32) y).trans ?_
  rw [if_neg (by unfold tagKey; omega)]
  exact Store.read_moved hwf t.mem src dst 65536 y

/-- Each 64 KiB of a new frame has its bytes from the old one, where no other filling meets it. -/
theorem State.fillFrames_bytes {s0 : State} {j : Quiesce} {src dst : Nat} (h : j.Fills src dst) (hwf : Memory.wf s0.mem = true)
    (hdst : dst + 65536 ≤ 2 ^ 48) (hone : ∀ src' dst', j.Fills src' dst' →
      (src' = src ∧ dst' = dst) ∨ dst' + 65536 ≤ dst ∨ dst + 65536 ≤ dst') :
    ∀ k, k < 65536 → Store.read (s0.fillFrames j).mem (dst + k) = Store.read s0.mem (src + k) := by
  have hest : ∀ t : State, ∀ k, k < 65536 →
      Store.read (s0.fillUnit t src dst).mem (dst + k) = Store.read s0.mem (src + k) := fun t k hk => by
    rw [State.read_fillUnit hwf t src dst (by omega), if_pos (by omega), Nat.add_sub_cancel_left]
  refine State.fillFrames_establishes
    (P := fun t : State => ∀ k, k < 65536 → Store.read t.mem (dst + k) = Store.read s0.mem (src + k))
    (fun t src' dst' hfills ht => ?_) h hest
  rcases hone src' dst' hfills with ⟨rfl, rfl⟩ | hout
  · exact hest t
  · intro k hk
    rw [State.read_fillUnit hwf t src' dst' (by omega), if_neg (by omega)]
    exact ht k hk

/-! ### Step 6: the new leaves in the tables -/

/-- The service log lies where it did. -/
theorem State.svcLog_ring (s : State) (kind detail : Nat) (addr arg : W64) :
    (s.svcLog kind detail addr arg).logRing = s.logRing ∧ (s.svcLog kind detail addr arg).logSize = s.logSize := by
  obtain ⟨d, n, v, hctl⟩ := s.svcLog_ctl kind detail addr arg
  unfold State.logSize State.logOrder State.logRing State.device
  rw [hctl]
  exact ⟨rfl, rfl⟩

/-- The log's place depends on the registers alone. -/
theorem State.offLog.congr {s t : State} {lo hi : Nat} (h : s.offLog lo hi) (hctl : t.ctl = s.ctl) : t.offLog lo hi := by
  unfold State.offLog State.logSize State.logOrder State.logRing State.device at h ⊢
  rw [hctl]
  exact h

/-- A log entry leaves a settled word outside the log. -/
theorem State.Settled.svcLog {s : State} {key : Nat} {v : W64} (h : s.Settled key v) (hkey : key % 8 = 0)
    (hoff : s.offLog key (key + 8)) (kind detail : Nat) (addr arg : W64) : (s.svcLog kind detail addr arg).Settled key v := by
  unfold State.svcLog
  dsimp only
  split
  · exact h
  · split
    · exact h.congr rfl rfl
    · have hidx : s.ctl.svctail.toNat % 2 ^ s.logOrder < 2 ^ s.logOrder := Nat.mod_lt _ (Nat.two_pow_pos _)
      have hstore := h.store hkey (s.logRing + 32 * (s.ctl.svctail.toNat % 2 ^ s.logOrder))
        (s.logRing + 32 * (s.ctl.svctail.toNat % 2 ^ s.logOrder)) (l := s.logBytes kind detail addr arg) (by
          simp only [State.logBytes, List.length_append, leBytes_length]
          unfold State.offLog State.logSize at hoff
          omega)
      unfold State.logRing State.logBytes at hstore
      exact hstore.congr rfl rfl

/-- Frames reported unused, one after another (15 R404). -/
def State.reportFrames (s : State) (fs : List (Nat × Nat × W64)) : State :=
  fs.foldl (fun (s : State) f => s.svcLog 1 f.2.1 (BitVec.ofNat 64 f.1) f.2.2) s

theorem State.Settled.reportFrames {s : State} {key : Nat} {v : W64} (h : s.Settled key v) (hkey : key % 8 = 0)
    (hoff : s.offLog key (key + 8)) (fs : List (Nat × Nat × W64)) : (s.reportFrames fs).Settled key v := by
  refine (List.foldlRecOn (motive := fun t : State => t.Settled key v ∧ t.logRing = s.logRing ∧ t.logSize = s.logSize) _ _
    ⟨h, rfl, rfl⟩ fun t ht f _ => ?_).1
  obtain ⟨hset, hring, hsize⟩ := ht
  obtain ⟨hring', hsize'⟩ := t.svcLog_ring 1 f.2.1 (BitVec.ofNat 64 f.1) f.2.2
  refine ⟨hset.svcLog hkey ?_ _ _ _ _, hring'.trans hring, hsize'.trans hsize⟩
  unfold State.offLog
  rw [hring, hsize]
  exact hoff

/-- Reports leave the TLBs and the points. -/
theorem State.reportFrames_keeps (s : State) (fs : List (Nat × Nat × W64)) : (s.reportFrames fs).tlb = s.tlb ∧
    (s.reportFrames fs).dtlb = s.dtlb ∧ (s.reportFrames fs).quiesces = s.quiesces :=
  ⟨foldl_keeps State.tlb (fun _ _ => by rw [State.svcLog_eq]) _ _,
    foldl_keeps State.dtlb (fun _ _ => by rw [State.svcLog_eq]) _ _,
    foldl_keeps State.quiesces (fun _ _ => by rw [State.svcLog_eq]) _ _⟩

/-- The new leaves stored. -/
def State.storeNew (s : State) (ls : List LeafChange) : State := ls.foldl (fun (s : State) l => s.putWord l.key l.new) s

theorem State.storeNew_keeps (s : State) (ls : List LeafChange) :
    (s.storeNew ls).quiesces = s.quiesces ∧ (s.storeNew ls).ctl = s.ctl :=
  ⟨foldl_keeps State.quiesces (fun s _ => s.putWord_quiesces _ _) _ _, foldl_keeps State.ctl (fun s _ => s.putWord_ctl _ _) _ _⟩

/-- Whatever waits on some ranges looks again. -/
def State.wakeSpans (s : State) (qs : List (Nat × Nat)) : State :=
  qs.foldl (fun (s : State) p => s.wakePages p.1 p.2) s

/-- The waking of groups and parts leaves memory, the directory, the registers and the TLBs. -/
theorem State.wakeSpans_keeps (s : State) (qs : List (Nat × Nat)) : (s.wakeSpans qs).mem = s.mem ∧
    (s.wakeSpans qs).dir = s.dir ∧ (s.wakeSpans qs).ctl = s.ctl ∧ (s.wakeSpans qs).tlb = s.tlb ∧
    (s.wakeSpans qs).dtlb = s.dtlb ∧ (s.wakeSpans qs).quiesces = s.quiesces :=
  List.foldlRecOn (motive := fun t : State => t.mem = s.mem ∧ t.dir = s.dir ∧ t.ctl = s.ctl ∧ t.tlb = s.tlb ∧
    t.dtlb = s.dtlb ∧ t.quiesces = s.quiesces) _ _ ⟨rfl, rfl, rfl, rfl, rfl, rfl⟩ fun _ ht _ _ => ht

/-- The state that the last step of a point leaves, the point itself still there. -/
def State.finishQuiesce (s : State) (j : Quiesce) : State :=
  ((((s.storeNew j.leaves).dropPages j).wakeSpans j.spans).reportFrames j.unused)

theorem State.finishQuiesce_quiesces (s : State) (j : Quiesce) : (s.finishQuiesce j).quiesces = s.quiesces := by
  obtain ⟨-, -, hreport⟩ := (((s.storeNew j.leaves).dropPages j).wakeSpans j.spans).reportFrames_keeps j.unused
  obtain ⟨-, -, -, -, -, hwake⟩ := ((s.storeNew j.leaves).dropPages j).wakeSpans_keeps j.spans
  obtain ⟨-, hdrop, -, -, -⟩ := (s.storeNew j.leaves).dropPages_keeps j
  exact hreport.trans (hwake.trans (hdrop.trans (s.storeNew_keeps j.leaves).1))

/-- Nothing cached of the old leaves is left. -/
theorem State.finishQuiesce_none {s : State} {j : Quiesce} {x : TlbEntry}
    (h : x ∈ (s.finishQuiesce j).tlb ∨ x ∈ (s.finishQuiesce j).dtlb) :
    ∀ q ∈ j.spans, rangesOverlap x.va.toNat (x.va.toNat + pageBytes x.size.toNat) q.1 q.2 = false := by
  obtain ⟨htlb, hdtlb, -⟩ := (((s.storeNew j.leaves).dropPages j).wakeSpans j.spans).reportFrames_keeps j.unused
  obtain ⟨-, -, -, htlb', hdtlb', -⟩ := ((s.storeNew j.leaves).dropPages j).wakeSpans_keeps j.spans
  unfold State.finishQuiesce at h
  rw [htlb, hdtlb, htlb', hdtlb'] at h
  exact State.dropPages_none h

/-- The new leaves stand in the tables. -/
theorem State.finishQuiesce_leaves {s : State} {j : Quiesce}
    (hleaves : ∀ l ∈ j.leaves, l.key % 8 = 0 ∧ s.offLog l.key (l.key + 8) ∧ ∀ x ∈ j.leaves, x.key = l.key → x.new = l.new) :
    ∀ l ∈ j.leaves, (s.finishQuiesce j).le l.key 8 = l.new.toNat := by
  intro l hl
  obtain ⟨hkey, hoff, halike⟩ := hleaves l hl
  have hset : (s.storeNew j.leaves).Settled l.key l.new :=
    settled_foldl_putWord LeafChange.key LeafChange.new (fun a ha => (hleaves a ha).1) hl halike s
  obtain ⟨-, -, hmem, hdir, hctl⟩ := (s.storeNew j.leaves).dropPages_keeps j
  obtain ⟨hmem', hdir', hctl', -⟩ := ((s.storeNew j.leaves).dropPages j).wakeSpans_keeps j.spans
  have hwoken : (((s.storeNew j.leaves).dropPages j).wakeSpans j.spans).Settled l.key l.new :=
    hset.congr (hmem'.trans hmem) (hdir'.trans hdir)
  exact (hwoken.reportFrames hkey (hoff.congr (hctl'.trans (hctl.trans (s.storeNew_keeps j.leaves).2))) j.unused).word

/-! ### QUIESCE_POINT -/

section
variable {s : State} {job : Nat} {j : Quiesce} (hj : (s.quiesces.find? fun x => x.id == job) = some j)
include hj

/-- The steps of a point, by its stage (08 Table 8.10). -/
theorem exec_quiescePoint :
    (j.stage = 0 → s.entryTaken j (quiesceLeaves s j) = false → exec (.quiescePoint job) s =
      .next (((s.storeQuiesced (quiesceLeaves s j)).dropPages { j with leaves := quiesceLeaves s j, stage := 1 }).setQuiesce
        { j with leaves := quiesceLeaves s j, stage := 1 })) ∧
    (j.stage = 1 → s.framesQuiet j = true → exec (.quiescePoint job) s = .next (s.setQuiesce { j with stage := 2 })) ∧
    (j.stage = 2 → exec (.quiescePoint job) s = .next ((s.framesHome j.oldFrames).setQuiesce { j with stage := 3 })) ∧
    (j.stage = 3 → s.framesQuiet j = true →
      exec (.quiescePoint job) s = .next (s.setQuiesce { j with stage := 4, since := s.ctl.ptc })) ∧
    (j.stage = 4 → s.framesQuiet j = true → j.since + 3 * s.linkTimeout ≤ s.ctl.ptc →
      j.since + 3 * pkgTimeout s.ctl.lnkto ≤ s.ctl.ptc →
      exec (.quiescePoint job) s = .next ((s.fillFrames j).setQuiesce { j with stage := 5 })) ∧
    (j.stage = 5 → exec (.quiescePoint job) s =
      .next { s.finishQuiesce j with quiesces := (s.finishQuiesce j).quiesces.filter fun x => x.id != job }) := by
  have hexec : exec (.quiescePoint job) s = execQuiescePoint job s := rfl
  rw [hexec]
  unfold execQuiescePoint
  rw [hj]
  dsimp only [needSome]
  refine ⟨fun hstage hfree => ?_, fun hstage hquiet => ?_, fun hstage => ?_, fun hstage hquiet => ?_,
    fun hstage hquiet hout hpkg => ?_, fun hstage => ?_⟩
  · rw [hstage]
    exact if_pos (by rw [hfree]; rfl)
  · rw [hstage]
    exact if_pos hquiet
  · rw [hstage]
    rfl
  · rw [hstage]
    exact if_pos hquiet
  · rw [hstage]
    refine if_pos ?_
    rw [hquiet, Bool.true_and, decide_eq_true_eq, nat_max_eq]
    omega
  · rw [hstage]
    rfl

/-- The first step stores state 5 in the leaves, and leaves the groups. -/
theorem quiescePoint_starts (hstage : j.stage = 0) (hfree : s.entryTaken j (quiesceLeaves s j) = false) :
    ∃ t, exec (.quiescePoint job) s = .next t ∧
      (t.quiesces.find? fun x => x.id == job) = some { j with leaves := quiesceLeaves s j, stage := 1 } ∧ t.groups = s.groups ∧
      ((∀ l ∈ quiesceLeaves s j, l.key % 8 = 0) → ∀ l ∈ quiesceLeaves s j, leafLive l.old = true →
        t.le l.key 8 = (setFld l.old 11 9 5).toNat) := by
  obtain ⟨hexec, -⟩ := exec_quiescePoint hj
  obtain ⟨hgroups, hquiesces⟩ := s.storeQuiesced_keeps (quiesceLeaves s j)
  obtain ⟨hgroups', hquiesces', hmem, -, -⟩ := (s.storeQuiesced (quiesceLeaves s j)).dropPages_keeps
    { j with leaves := quiesceLeaves s j, stage := 1 }
  refine ⟨_, hexec hstage hfree, State.setQuiesce_find (j := j) ?_ rfl, hgroups'.trans hgroups,
    fun halign l hl hlive => ?_⟩
  · rw [hquiesces', hquiesces]
    exact hj
  · exact (State.le_congr hmem _ _).trans (storeQuiesced_settled halign l hl hlive).word

/-- The second and the fourth step wait until nothing is under way for the frames. -/
theorem quiescePoint_waits (hquiet : s.framesQuiet j = true) :
    (j.stage = 1 → ∃ t, exec (.quiescePoint job) s = .next t ∧
      (t.quiesces.find? fun x => x.id == job) = some { j with stage := 2 } ∧ t = { s with quiesces := t.quiesces }) ∧
    (j.stage = 3 → ∃ t, exec (.quiescePoint job) s = .next t ∧
      (t.quiesces.find? fun x => x.id == job) = some { j with stage := 4, since := s.ctl.ptc } ∧
      t = { s with quiesces := t.quiesces }) := by
  obtain ⟨-, hsecond, -, hfourth, -⟩ := exec_quiescePoint hj
  exact ⟨fun hstage => ⟨_, hsecond hstage hquiet, State.setQuiesce_find hj rfl, rfl⟩,
    fun hstage => ⟨_, hfourth hstage hquiet, State.setQuiesce_find hj rfl, rfl⟩⟩

/-- The third step brings the old frames' lines and hampers home, the dirty words with them. -/
theorem quiescePoint_recalls (hstage : j.stage = 2) : ∃ t, exec (.quiescePoint job) s = .next t ∧
    (t.quiesces.find? fun x => x.id == job) = some { j with stage := 3 } ∧ t.groups = s.groups ∧
    (∀ ln ∈ t.l1, inFrames j.oldFrames ln.blk = false) ∧ (∀ hb ∈ t.homes, inFrames j.oldFrames hb.blk = false) ∧
    ((∀ ln ∈ s.l1, ln.blk % 64 = 0) → (∀ hb ∈ s.homes, hb.blk % 64 = 0) →
      ∀ ln ∈ s.l1, ln.st = .owned → inFrames j.oldFrames ln.blk = true → s.home? ln.blk = none →
        (∀ x ∈ s.l1, x.blk = ln.blk → x = ln) → ∀ i, i < 64 → ln.dirty.getLsbD (i / 4) = true →
        Store.read t.mem (ln.blk + i) = Store.read ln.data i) := by
  obtain ⟨-, -, hexec, -⟩ := exec_quiescePoint hj
  obtain ⟨hgroups, hquiesces, hl1⟩ := s.framesHome_keeps j.oldFrames
  refine ⟨_, hexec hstage, State.setQuiesce_find (j := j) ?_ rfl, hgroups, fun ln hln => ?_, s.framesHome_homes _,
    fun haligned hhomes ln hln hst hin hhome hone => State.framesHome_homeBytes haligned hhomes hln hst hin hhome hone⟩
  · rw [hquiesces]
    exact hj
  · change ln ∈ (s.framesHome j.oldFrames).l1 at hln
    rw [hl1] at hln
    exact ((State.mem_dropFrames_l1 _ _ _).1 hln).2

/-- The fifth step, three timeouts after the fourth began, fills the new frames. -/
theorem quiescePoint_fills (hstage : j.stage = 4) (hquiet : s.framesQuiet j = true)
    (hout : j.since + 3 * s.linkTimeout ≤ s.ctl.ptc) (hpkg : j.since + 3 * pkgTimeout s.ctl.lnkto ≤ s.ctl.ptc) :
    ∃ t, exec (.quiescePoint job) s = .next t ∧ (t.quiesces.find? fun x => x.id == job) = some { j with stage := 5 } ∧
      t.groups = s.groups ∧ ∀ src dst, j.Fills src dst → (∀ ln ∈ t.l1, ¬(dst ≤ ln.blk ∧ ln.blk < dst + 65536)) ∧
        (Memory.wf s.mem = true → dst + 65536 ≤ 2 ^ 48 → src + 65536 ≤ 2 ^ 48 →
          (∀ src' dst', j.Fills src' dst' → (src' = src ∧ dst' = dst) ∨ dst' + 65536 ≤ dst ∨ dst + 65536 ≤ dst') →
          ∀ k, k < 65536 → Store.read t.mem (dst + k) = Store.read s.mem (src + k)) := by
  obtain ⟨-, -, -, -, hexec, -⟩ := exec_quiescePoint hj
  obtain ⟨hgroups, hquiesces⟩ := s.fillFrames_same j
  refine ⟨_, hexec hstage hquiet hout hpkg, State.setQuiesce_find (j := j) ?_ rfl, hgroups, fun src dst hfills =>
    ⟨s.fillFrames_l1 hfills, fun hwf hdst _ hone => State.fillFrames_bytes hfills hwf hdst hone⟩⟩
  rw [hquiesces]
  exact hj

/-- The last step stores the new leaves, and the point is over. -/
theorem quiescePoint_ends (hstage : j.stage = 5) : ∃ t, exec (.quiescePoint job) s = .next t ∧
    t.quiesces = s.quiesces.filter (fun x => x.id != job) ∧
    ((∀ l ∈ j.leaves, l.key % 8 = 0 ∧ s.offLog l.key (l.key + 8) ∧ ∀ x ∈ j.leaves, x.key = l.key → x.new = l.new) →
      ∀ l ∈ j.leaves, t.le l.key 8 = l.new.toNat) ∧
    (∀ x, (x ∈ t.tlb ∨ x ∈ t.dtlb) → ∀ q ∈ j.spans,
      rangesOverlap x.va.toNat (x.va.toNat + pageBytes x.size.toNat) q.1 q.2 = false) := by
  obtain ⟨-, -, -, -, -, hexec⟩ := exec_quiescePoint hj
  exact ⟨_, hexec hstage, congrArg _ (s.finishQuiesce_quiesces j), State.finishQuiesce_leaves,
    fun _ => State.finishQuiesce_none⟩

end

/-- Settles O51: the service's fault is `serveFault` and its end `State.collapsePage`; a quiesce point is taken step by step
by its stage. -/
theorem serviceAndQuiesce : Obligations.ServiceAndQuiesce := by
  refine ⟨fun s gid key level page g p e hg hp hpage => ⟨fun hfree hleaf => ⟨fun h2 h5 => ?_, fun h2 hown hroom => ?_⟩,
    fun l hlock hfly => ?_⟩, fun s job j hj => ⟨quiescePoint_starts hj, quiescePoint_waits hj,
    quiescePoint_recalls hj, quiescePoint_fills hj, quiescePoint_ends hj⟩⟩
  · exact ⟨_, (exec_memoryService_serves hg hp hpage hfree).trans (serveFault_resumes hleaf h2 h5), rfl, s.resumePage_free page⟩
  · obtain ⟨hgroups, hlocks⟩ := s.splitAll_keeps (page * 65536)
    obtain ⟨hgroups', hlocks', hnone⟩ := (s.splitAll (page * 65536)).quiescePage_keeps page
    rw [hgroups] at hgroups'
    rw [hlocks] at hlocks'
    exact ⟨_, (exec_memoryService_serves hg hp hpage hfree).trans (serveFault_quiesces hleaf h2 hown hroom), hlocks', hgroups',
      hnone⟩
  · obtain ⟨hlocks, hgroups⟩ := s.collapsePage_frees l
    exact ⟨_, exec_memoryService_finishes hg hp hpage hlock hfly, hlocks, hgroups⟩

end Machine
end Sys2Proof

namespace Sys2Proof.Machine

/-! ## Block commands at their word (09 R255, R260) -/

/-- A lane of a set is the lowest of the set that it is alone in. -/
theorem lowestLane_laneBit {l : Nat} (hl : l < 32) : lowestLane (laneBit l) = some l := by
  revert l
  decide

theorem lowestLane_lt {ex : W32} {l : Nat} (h : lowestLane ex = some l) : l < 32 :=
  (mem_laneList.1 (List.mem_of_mem_head? h)).1

/-- A command that acts for one lane is that lane's. -/
theorem Op.low_of_laneBit {o : Op} {l : Nat} (hl : l < 32) (h : o.ex = laneBit l) : o.low = l := by
  unfold Op.low
  rw [h, lowestLane_laneBit hl]
  rfl

/-- A word that is accepted without a flag, its group as it was. -/
theorem issues_of_accept_ofWord {s : State} {e : Env} (he : s.envOf s.focus = some e)
    {i : Instr} {ex : W32} {o : Op} {P : Op → Prop}
    (hi : exec i s = accept s e e.g o) (hword : o.ofWord s e i ex) (hflag : o.flag = none) (hP : P o) : Issues s e i ex P := by
  obtain ⟨t, h1, h2⟩ := accept_accepted he e.g o rfl rfl
  exact ⟨t, o, hi.trans h1, h2, hword, hflag, hP⟩

section
variable {s : State} {e : Env} (he : s.envOf s.focus = some e) {i : Instr} {x : CopyX} {m l : Nat}
include he

/-- The record of a copy is made for its word, for one lane. -/
theorem copyCommand_ofWord : (copyCommand s e i x m l).ofWord s e i (laneBit l) := by
  obtain ⟨-, hg, -⟩ := State.envOf_some he
  exact ⟨rfl, hg, rfl, rfl, rfl, rfl, rfl, rfl, rfl, rfl⟩

/-- A copy without an executing lane goes on. -/
theorem issueCopy_none (hl : lowestLane (e.lanes x.k) = none) : issueCopy s i x m = wordDone s e e.g := by
  unfold issueCopy
  rw [withEnv_some he, hl]

/-- A copy within the limits is accepted. -/
theorem issueCopy_accept (hl : lowestLane (e.lanes x.k) = some l) (hfull : s.engineFull e.t.core = false)
    (hout : s.copiesOut s.focus < 32) (hboard : s.boardFull (copyCommand s e i x m l).ranges = false) :
    issueCopy s i x m = accept s e e.g (copyCommand s e i x m l) := by
  obtain ⟨-, hg, -⟩ := State.envOf_some he
  unfold issueCopy
  rw [withEnv_some he, hl]
  dsimp only
  rw [hfull, hboard, hg, decide_eq_false (by omega)]
  rfl
end

/-- A scalar of the parameter block as captured. -/
theorem capValue_scalars (scal : Nat → W64) (n m : Nat) {j : Nat} (hj : j < m) :
    capValue ((List.range m).map fun i => ⟨1, n + i, 0, scal i⟩) 1 (n + j) 0 = some (scal j) := by
  unfold capValue
  induction m with
  | zero => omega
  | succ m ih =>
    rw [List.range_succ, List.map_append, List.find?_append]
    by_cases hjm : j = m
    · subst hjm
      have hnone : ((List.range j).map fun i => (⟨1, n + i, 0, scal i⟩ : Cap)).find?
          (fun c => c.kind == 1 && c.index == n + j && c.lane == 0) = none := by
        refine List.find?_eq_none.2 fun c hc => ?_
        obtain ⟨i, hi, rfl⟩ := List.mem_map.1 hc
        have := List.mem_range.1 hi
        simp
        omega
      rw [hnone]
      simp
    · have hfound := ih (by omega)
      obtain ⟨c, hc, hv⟩ := Option.map_eq_some_iff.1 hfound
      rw [hc, Option.some_or, Option.map_some, hv]

/-- The captures of a copy's record: A and B of its lane, and the scalars of its parameter block. -/
theorem copyCommand_caps (s : State) (e : Env) (i : Instr) (x : CopyX) (m l : Nat) :
    (copyCommand s e i x m l).cap 0 l = e.src64 x.a l ∧ (copyCommand s e i x m l).cap 1 l = e.src64 x.b l ∧
    ∀ j, j < m →
      capValue (copyCommand s e i x m l).caps 1 (x.n.toNat + j) 0 = some (Store.read e.g.scal (x.n.toNat + j)) := by
  refine ⟨?_, ?_, fun j hj => ?_⟩
  · simp [Op.cap, capValue, copyCommand, newOp]
  · simp [Op.cap, capValue, copyCommand, newOp]
  · have hscal := capValue_scalars (fun j => Store.read e.g.scal (x.n.toNat + j)) x.n.toNat m hj
    simpa [copyCommand, newOp, capValue] using hscal

/-- The extension of a copy's record is its instruction's. -/
theorem Op.par_of_copyX {o : Op} {x : CopyX} (h : o.copyX = some x) {j : Nat} {v : W64}
    (hv : capValue o.caps 1 (x.n.toNat + j) 0 = some v) : o.par j = v := by
  unfold Op.par
  rw [h]
  dsimp only
  rw [hv]
  rfl

theorem Op.instr_of_copyX {o : Op} {x : CopyX} (h : o.copyX = some x) :
    o.instr = .copy x ∨ o.instr = .copy2d x ∨ o.instr = .copy3d x ∨ o.instr = .copym x := by
  unfold Op.copyX at h
  split at h
  · next hi => cases h; exact .inl hi
  · next hi => cases h; exact .inr (.inl hi)
  · next hi => cases h; exact .inr (.inr (.inl hi))
  · next hi => cases h; exact .inr (.inr (.inr hi))
  · cases h

/-- A copy names its clasp by the first scalar of its block. -/
theorem Op.claspRef_of_copyX {o : Op} {x : CopyX} (h : o.copyX = some x) :
    o.claspRef = x.cls.map fun sp => (sp, o.par 0) := by
  unfold Op.claspRef
  rcases Op.instr_of_copyX h with hi | hi | hi | hi <;> rw [hi]

/-- A copy word is accepted once for its lane, or goes on. -/
theorem copy_issues {s : State} {e : Env} (he : s.envOf s.focus = some e) {x : CopyX} {i : Instr} {m : Nat} (hm : 0 < m)
    (hexec : exec i s = issueCopy s i x m) (hx : ∀ o : Op, o.instr = i → o.copyX = some x) :
    (lowestLane (e.lanes x.k) = none → CompletesAs s e i e.g) ∧
    (∀ l, lowestLane (e.lanes x.k) = some l → s.engineFull e.t.core = false → s.copiesOut s.focus < 32 →
      s.boardFull (copyCommand s e i x m l).ranges = false →
      Issues s e i (laneBit l) fun o => o.cap 0 l = e.src64 x.a l ∧ o.cap 1 l = e.src64 x.b l ∧ o.batch = none ∧
        (∀ j, j < m → o.par j = Store.read e.g.scal (x.n.toNat + j)) ∧
        o.clasp = x.cls.map fun sp => (sp, Store.read e.g.scal x.n.toNat)) := by
  refine ⟨fun hnone => wordDone_word he (hexec.trans (issueCopy_none he hnone)) rfl rfl, fun l hl hfull hout hboard => ?_⟩
  have hcx : (copyCommand s e i x m l).copyX = some x := hx _ rfl
  obtain ⟨hA, hB, hscal⟩ := copyCommand_caps s e i x m l
  have hpar : ∀ j, j < m → (copyCommand s e i x m l).par j = Store.read e.g.scal (x.n.toNat + j) := fun j hj =>
    Op.par_of_copyX hcx (hscal j hj)
  have hclasp : (copyCommand s e i x m l).clasp = (copyCommand s e i x m l).claspRef := rfl
  refine issues_of_accept_ofWord he (hexec.trans (issueCopy_accept he hl hfull hout hboard)) (copyCommand_ofWord he) rfl
    ⟨hA, hB, rfl, hpar, ?_⟩
  rw [hclasp, Op.claspRef_of_copyX hcx, hpar 0 hm, Nat.add_zero]

/-- The record of a clasp instruction that is no wait or test. -/
def claspCommand (s : State) (e : Env) (i : Instr) (sp : Space) (cs : List Cap) (l : Nat) : Op :=
  let o := newOp s e i (laneBit l) cs [newPart l sp ((capValue cs 0 0 l).getD 0) 0 64 .waiting]
  { o with clasp := o.claspRef }

section
variable {s : State} {e : Env} (he : s.envOf s.focus = some e) {i : Instr} {k : BitVec 3} {a : Src} {sp : Space}
  {caps : Env → Nat → List Cap} {l : Nat}
include he

theorem issueClasp_none (hl : lowestLane (e.lanes k) = none) : issueClasp s i k sp caps = wordDone s e e.g := by
  unfold issueClasp
  rw [withEnv_some he, hl]

/-- A clasp instruction with room in its engine is accepted; no link fault is in the way of one that releases. -/
theorem issueClasp_accept (hl : lowestLane (e.lanes k) = some l) (hfull : s.engineFull e.t.core = false)
    (hclean : s.ops.all (fun o => o.fault.isNone) = true) :
    issueClasp s i k sp caps = accept s e e.g (claspCommand s e i sp (caps e l) l) := by
  have hfaulted : ∀ (b : Bool) sc, (if b then s.linkFaulted e.g.gid sc else none) = none := fun b sc => by
    rw [State.linkFaulted_eq_none hclean]
    exact ite_self none
  unfold issueClasp
  rw [withEnv_some he, hl]
  dsimp only
  rw [hfull, hfaulted]
  rfl

/-- The clasp instructions that are issued alike. -/
theorem issueClasp_issues (hexec : exec i s = issueClasp s i k sp caps)
    (hcaps : ∀ l, capValue (caps e l) 0 0 l = some (e.src64 a l))
    (href : ∀ o : Op, o.instr = i → o.claspRef = some (sp, o.cap 0 o.low)) :
    (lowestLane (e.lanes k) = none → CompletesAs s e i e.g) ∧
    ∀ l, lowestLane (e.lanes k) = some l → s.engineFull e.t.core = false → s.ops.all (fun o => o.fault.isNone) = true →
      Issues s e i (laneBit l) fun o => o.clasp = some (sp, e.src64 a l) ∧ o.parts.length = 1 := by
  refine ⟨fun hnone => wordDone_word he (hexec.trans (issueClasp_none he hnone)) rfl rfl, fun l hl hfull hclean => ?_⟩
  obtain ⟨-, hg, -⟩ := State.envOf_some he
  have hlow : (claspCommand s e i sp (caps e l) l).low = l := Op.low_of_laneBit (lowestLane_lt hl) rfl
  have hcap : (claspCommand s e i sp (caps e l) l).cap 0 l = e.src64 a l := by
    unfold Op.cap
    exact congrArg (·.getD 0) (hcaps l)
  have hclasp := href (claspCommand s e i sp (caps e l) l) rfl
  rw [hlow, hcap] at hclasp
  exact issues_of_accept_ofWord he (hexec.trans (issueClasp_accept he hl hfull hclean))
    ⟨rfl, hg, rfl, rfl, rfl, rfl, rfl, rfl, rfl, rfl⟩ rfl ⟨hclasp, rfl⟩
end

/-- Where no command has a fault, none on a clasp has. -/
theorem State.claspFault_eq_none {s : State} {g : Group} (h : ∀ o ∈ s.ops, o.gid = g.gid → o.fault = none)
    (l : Nat) (sp : Space)
    (addr : W64) : s.claspFault g l sp addr = none := by
  unfold State.claspFault
  refine List.find?_eq_none.2 fun o ho => ?_
  obtain ⟨ho, hgid⟩ := List.mem_filter.1 ho
  rw [h o ho (by simpa using hgid)]
  simp

/-- The record of a CLTEST. -/
def testCommand (s : State) (e : Env) (i : Instr) (ex : W32) (sp : Space) (addr : W64) (l : Nat) : Op :=
  { newOp s e i ex [⟨0, 0, l, addr⟩] [newPart l sp addr 0 64 .waiting] with clasp := some (sp, addr) }

/-- CLTEST is accepted with a push; without an executing lane it has nothing to do. -/
theorem cltest_issues {s : State} {e : Env} (he : s.envOf s.focus = some e) (k : BitVec 3) (d : Dst) (a : Src) (sp : Space)
    (acq : Option Scope) :
    (lowestLane (e.lanes k) = none → IssuesPush s e (.cltest k d a sp acq) (e.lanes k) fun o => o.parts = []) ∧
    ∀ l, lowestLane (e.lanes k) = some l → s.engineFull e.t.core = false → s.ops.all (fun o => o.fault.isNone) = true →
      IssuesPush s e (.cltest k d a sp acq) (e.lanes k) fun o => o.clasp = some (sp, e.src64 a l) ∧ o.parts.length = 1 := by
  refine ⟨fun hnone => issuesPush_of_acceptFlag he (caps := []) (parts := []) ?_ fun o _ _ hp => hp,
    fun l hl hfull hclean => ?_⟩
  · change execCltest k d a sp acq s = _
    unfold execCltest
    rw [withEnv_some he]
    dsimp only
    rw [hnone]
  · have hfault : s.claspFault e.g l sp (e.src64 a l) = none :=
      State.claspFault_eq_none (fun o ho _ => by simpa using List.all_eq_true.1 hclean o ho) ..
    have hexec : execCltest k d a sp acq s =
        acceptFlag s e (testCommand s e (.cltest k d a sp acq) (e.lanes k) sp (e.src64 a l) l) true := by
      unfold execCltest
      rw [withEnv_some he]
      dsimp only
      rw [hl]
      dsimp only
      rw [hfault, hfull]
      rfl
    obtain ⟨t, h1, h2⟩ := acceptFlag_push_accepted he (testCommand s e (.cltest k d a sp acq) (e.lanes k) sp (e.src64 a l) l)
    obtain ⟨-, hg, -⟩ := State.envOf_some he
    exact ⟨t, _, _, hexec.trans h1, h2, Group.push_wrote _,
      ⟨rfl, hg, rfl, rfl, rfl, rfl, rfl, rfl, rfl, rfl⟩, rfl, rfl, rfl, rfl⟩

/-- Settles O23: the copies through `issueCopy`, the clasp instructions through `issueClasp`, and CLTEST by its own word. -/
theorem blockCommandsIssue : Obligations.BlockCommandsIssue := by
  intro s e he
  refine ⟨fun x i m hi => ?_, fun k a b c sp sc => ?_⟩
  · have hcopyX : ∀ o : Op, o.instr = i → o.copyX = some x := fun o ho => by
      unfold Op.copyX
      rw [ho]
      rcases hi with ⟨rfl, -⟩ | ⟨rfl, -⟩ | ⟨rfl, -⟩ | ⟨rfl, -⟩ <;> rfl
    have hexec : exec i s = issueCopy s i x m := by
      rcases hi with ⟨rfl, rfl⟩ | ⟨rfl, rfl⟩ | ⟨rfl, rfl⟩ | ⟨rfl, rfl⟩ <;> rfl
    exact copy_issues he (by omega) hexec hcopyX
  · have hall : ∀ i ∈ [Instr.clinit k a b c sp, .clexp k a b sp, .clarr k a b sp sc, .clinv k a sp],
        (lowestLane (e.lanes k) = none → CompletesAs s e i e.g) ∧
        ∀ l, lowestLane (e.lanes k) = some l → s.engineFull e.t.core = false →
          s.ops.all (fun o => o.fault.isNone) = true →
          Issues s e i (laneBit l) fun o => o.clasp = some (sp, e.src64 a l) ∧ o.parts.length = 1 := by
      have href : ∀ i ∈ [Instr.clinit k a b c sp, .clexp k a b sp, .clarr k a b sp sc, .clinv k a sp],
          ∀ o : Op, o.instr = i → o.claspRef = some (sp, o.cap 0 o.low) := fun i hi o ho => by
        unfold Op.claspRef
        rw [ho]
        fin_cases hi <;> rfl
      intro i hi
      have hr := href i hi
      fin_cases hi
      · exact issueClasp_issues he (a := a) (caps := fun e l => [⟨0, 0, l, e.src64 a l⟩, ⟨0, 1, l, e.src32 b l⟩,
          ⟨0, 2, l, e.src64 c l⟩]) rfl (fun l => by simp [capValue]) hr
      · exact issueClasp_issues he (a := a) (caps := fun e l => [⟨0, 0, l, e.src64 a l⟩, ⟨0, 1, l, e.src64 b l⟩]) rfl
          (fun l => by simp [capValue]) hr
      · exact issueClasp_issues he (a := a) (caps := fun e l => [⟨0, 0, l, e.src64 a l⟩, ⟨0, 1, l, e.src64 b l⟩]) rfl
          (fun l => by simp [capValue]) hr
      · exact issueClasp_issues he (a := a) (caps := fun e l => [⟨0, 0, l, e.src64 a l⟩]) rfl (fun l => by simp [capValue]) hr
    exact ⟨fun hnone i hi => (hall i hi).1 hnone, fun l hl hfull hclean i hi => (hall i hi).2 l hl hfull hclean,
      fun d acq => cltest_issues he k d a sp acq⟩

end Sys2Proof.Machine

namespace Sys2Proof.Machine

/-! ## Batches (09 R261 to R263) -/

/-- What settling its batches leaves of a group, and of the other groups (09 R262). -/
theorem State.settleBatches_spec (s : State) (gid : Nat) :
    s.settleBatches gid = { s with groups := (s.settleBatches gid).groups } ∧
    (∀ k, k ≠ gid → (s.settleBatches gid).group? k = s.group? k) ∧
    ∀ g, s.group? gid = some g → ∃ u, (s.settleBatches gid).group? gid = some u ∧
      { u with finishedCnt := g.finishedCnt, st := g.st, since := g.since } = g ∧
      ((∀ n, g.st ≠ .blockedBatch n) → u.st = g.st) := by
  unfold State.settleBatches
  cases hg : s.group? gid with
  | none => exact ⟨rfl, fun _ _ => rfl, fun g h => by cases h⟩
  | some g =>
    obtain rfl := State.group?_gid hg
    have hset := fun fin st since => State.group?_setGroup_same (s := s)
      (g := { g with finishedCnt := fin, st := st, since := since }) (Option.isSome_of_eq_some hg)
    refine ⟨rfl, fun k hk => State.group?_setGroup_other (Ne.symm hk), fun h hh => ?_⟩
    cases hh
    refine ⟨_, hset _ _ _, rfl, fun hst => ?_⟩
    dsimp only
    split
    · next n hn => exact absurd hn (hst n)
    · rfl

/-- The group's open copies take the number of the batch that is sealed (09 R261). -/
def State.sealOpen (s : State) (gid : Nat) (b : W32) : State :=
  { s with ops := s.ops.map fun (o : Op) =>
      if o.gid == gid && o.isCopy && o.batch.isNone then { o with batch := some b } else o }

theorem State.sealOpen_none_open {s : State} {gid : Nat} {b : W32} {o : Op} (ho : o ∈ (s.sealOpen gid b).ops) (hg : o.gid = gid)
    (hc : o.isCopy = true) : o.batch ≠ none := by
  obtain ⟨p, -, rfl⟩ := List.mem_map.1 ho
  by_cases hp : (p.gid == gid && p.isCopy && p.batch.isNone) = true
  · rw [if_pos hp]
    simp
  · rw [if_neg hp] at hg hc ⊢
    intro hb
    simp [hg, hc, hb] at hp

theorem State.mem_sealOpen {s : State} {gid : Nat} {b : W32} {o : Op} (ho : o ∈ s.ops) (hg : o.gid = gid)
    (hc : o.isCopy = true) (hb : o.batch = none) : { o with batch := some b } ∈ (s.sealOpen gid b).ops :=
  List.mem_map.2 ⟨o, ho, if_pos (by simp [hg, hc, hb])⟩

/-- A clause held at its word stands there, and nothing else changes (03 R72). -/
theorem State.hold_spec {s : State} {e : Env} (he : s.envOf s.focus = some e) : (s.hold e).ops = s.ops ∧
    (s.hold e).group? s.focus =
      some { e.g with run := some { e.r with held := true }, since := some (e.g.since.getD s.ctl.ptc) } := by
  obtain ⟨hg, hgid, -⟩ := State.envOf_some he
  have hset := State.group?_setGroup_same (s := s)
    (g := { e.g with run := some { e.r with held := true }, since := some (e.g.since.getD s.ctl.ptc) })
    (by rw [hgid]; exact Option.isSome_of_eq_some hg)
  rw [hgid] at hset
  refine ⟨rfl, ?_⟩
  rw [← hset]
  unfold State.hold
  cases e.g.since <;> rfl

/-- A group blocked at its word has left the pipe (02 R29). -/
theorem State.group?_block {s : State} {e : Env} (he : s.envOf s.focus = some e) (st : GState) :
    (s.block e st).group? s.focus =
      some { e.g with st := st, run := some e.r.leavePipe, since := some (e.g.since.getD s.ctl.ptc) } := by
  obtain ⟨hg, hgid, -⟩ := State.envOf_some he
  have hset := State.group?_setGroup_same (s := s)
    (g := { e.g with st := st, run := some e.r.leavePipe, since := some (e.g.since.getD s.ctl.ptc) })
    (by rw [hgid]; exact Option.isSome_of_eq_some hg)
  rwa [hgid] at hset

/-- A word that completes in order once it has changed caches alone. -/
theorem wordDone_done_caches {s : State} {e : Env} (he : s.envOf s.focus = some e) {g : Group} (hg : g.gid = e.g.gid)
    (hf : g.flags = e.g.flags) (l1 : List L1Line) (sc : List (Nat × Nat × List Byte)) :
    ∃ t, wordDone { s with l1 := l1, scache := sc } e g = .next t ∧ t.l1 = l1 ∧ t.scache = sc ∧
      Done { s with l1 := l1, scache := sc } e t g := by
  obtain ⟨t, hexec, hdone⟩ := wordDone_done (s := { s with l1 := l1, scache := sc }) he g hg hf
  exact ⟨t, hexec, congrArg State.l1 hdone.only.rest, congrArg State.scache hdone.only.rest, hdone⟩

section
variable {s : State} {e : Env} (he : s.envOf s.focus = some e) {k : BitVec 3}
include he

theorem exec_bseal_none (d : Dst) (hx : e.lanes k = 0) :
    exec (.bseal k d) s = wordDone s e (e.g.result (e.lanes k) d false fun _ => 0) := by
  change execBseal k d s = _
  unfold execBseal
  rw [withEnv_some he]
  exact if_pos hx

theorem exec_bseal_full (d : Dst) (hx : e.lanes k ≠ 0) (hfull : 16 ≤ (e.g.sealedCnt - e.g.finishedCnt).toNat) :
    exec (.bseal k d) s = .next (s.hold e) := by
  change execBseal k d s = _
  unfold execBseal
  rw [withEnv_some he]
  exact (if_neg hx).trans (if_pos hfull)

theorem exec_bseal_seals (d : Dst) (hx : e.lanes k ≠ 0) (hroom : (e.g.sealedCnt - e.g.finishedCnt).toNat < 16) :
    exec (.bseal k d) s = .next (((s.sealOpen e.g.gid e.g.sealedCnt).advance
      ({ e.g with sealedCnt := e.g.sealedCnt + 1 }.result (e.lanes k) d false fun _ => e.g.sealedCnt.setWidth 64)
      e.r).settleBatches e.g.gid) := by
  change execBseal k d s = _
  unfold execBseal
  rw [withEnv_some he]
  exact (if_neg hx).trans (if_neg (by omega))

/-- BSEAL gives the open batch its number, pushes it and opens the next (09 R261, R262). -/
theorem bseal_seals (d : Dst) (hx : e.lanes k ≠ 0) (hroom : (e.g.sealedCnt - e.g.finishedCnt).toNat < 16) :
    ∃ t u, exec (.bseal k d) s = .next t ∧ t.group? s.focus = some u ∧ u.sealedCnt = e.g.sealedCnt + 1 ∧ t.mem = s.mem ∧
      (∀ l, l < 32 → u.age 0 l = if (e.lanes k).getLsbD l then e.g.sealedCnt.setWidth 64 else e.g.age 0 l) ∧
      t.ops = (s.sealOpen s.focus e.g.sealedCnt).ops := by
  obtain ⟨hg, hgid, -⟩ := State.envOf_some he
  let g : Group := { e.g with sealedCnt := e.g.sealedCnt + 1 }
  have hwrote := Group.result_wrote g (e.lanes k) d false fun _ => e.g.sealedCnt.setWidth 64
  have hexec := exec_bseal_seals he d hx hroom
  generalize hr : g.result (e.lanes k) d false (fun _ => e.g.sealedCnt.setWidth 64) = r at hwrote
  have hrgid : r.gid = s.focus := by
    rw [← hr, Group.result_gid]
    exact hgid
  obtain ⟨a1, -, v, a3, a4, -⟩ := State.advance_done (s.sealOpen s.focus e.g.sealedCnt) r e.r
    (by rw [hrgid]; exact Option.isSome_of_eq_some hg)
  rw [hrgid] at a3
  obtain ⟨b1, -, b3⟩ := State.settleBatches_spec ((s.sealOpen s.focus e.g.sealedCnt).advance r e.r) s.focus
  obtain ⟨u, hu, hkeep, -⟩ := b3 v a3
  have hsealed : u.sealedCnt = r.sealedCnt := by
    have := congrArg Group.sealedCnt a4
    exact (congrArg Group.sealedCnt hkeep).trans this
  have hqueue : u.queue = r.queue := by
    have := congrArg Group.queue a4
    exact (congrArg Group.queue hkeep).trans this
  rw [hgid] at hexec
  refine ⟨_, u, hexec.trans (by rw [← hr]), hu, hsealed.trans (congrArg Group.sealedCnt hwrote.rest),
    ?_, fun l hl => ?_, ?_⟩
  · rw [b1, a1]
    rfl
  · have hage : u.age 0 l = r.age 0 l := by
      unfold Group.age
      rw [hqueue]
    rw [hage, hwrote.newest l hl]
    rfl
  · rw [b1, a1]

theorem exec_bwait_none (n : BitVec 5) (hx : e.lanes k = 0) : exec (.bwait k n) s = wordDone s e e.g := by
  change execBwait k n s = _
  unfold execBwait
  rw [withEnv_some he]
  exact if_pos hx

theorem exec_bwait_goes_on (n : BitVec 5) (hx : e.lanes k ≠ 0) (hfew : (e.g.sealedCnt - e.g.finishedCnt).toNat ≤ n.toNat) :
    exec (.bwait k n) s = wordDone (s.dropSi e.t.core) e e.g := by
  change execBwait k n s = _
  unfold execBwait
  rw [withEnv_some he]
  exact (if_neg hx).trans (if_pos hfew)

/-- Without a fault among the batches that it waits for, BWAIT blocks its group (09 R263, R274). -/
theorem exec_bwait_blocks (n : BitVec 5) (hx : e.lanes k ≠ 0) (hmany : n.toNat < (e.g.sealedCnt - e.g.finishedCnt).toNat)
    (hclean : s.ops.all (fun o => o.fault.isNone) = true) :
    exec (.bwait k n) s = .next (s.block e (.blockedBatch n.toNat)) := by
  have hfault : s.batchFault e.g n.toNat = none := List.find?_eq_none.2 fun o ho => by
    rw [Option.isNone_iff_eq_none.1 (List.all_eq_true.1 hclean o (List.mem_filter.1 ho).1)]
    simp
  change execBwait k n s = _
  unfold execBwait
  rw [withEnv_some he, if_neg hx, if_neg (by omega), hfault]
end

/-- Settles O24: BSEAL and BWAIT by the count of the batches that are sealed and unfinished. -/
theorem batches : Obligations.Batches := by
  intro s e he k d n ex open_
  refine ⟨fun hx => ⟨wordDone_result he (exec_bseal_none he d hx) rfl, wordDone_word he (exec_bwait_none he n hx) rfl rfl⟩,
    fun hx hroom => ?_, fun hx hfull => ⟨_, exec_bseal_full he d hx hfull, State.hold_spec he⟩, fun hx hfew => ?_,
    fun hx hmany hclean => ⟨_, _, exec_bwait_blocks he n hx hmany hclean, State.group?_block he _, rfl, rfl⟩⟩
  · obtain ⟨t, u, hexec, hu, hsealed, hmem, hage, hops⟩ := bseal_seals he d hx hroom
    exact ⟨t, u, hexec, hu, hsealed, hmem, hage, fun o ho => State.sealOpen_none_open (hops ▸ ho),
      fun o ho hg hc hb => ⟨_, hops ▸ State.mem_sealOpen ho hg hc hb, rfl⟩⟩
  · obtain ⟨t, hexec, hl1, -, hdone⟩ := wordDone_done_caches he rfl rfl (s.dropSi e.t.core).l1 s.scache
    exact ⟨t, (exec_bwait_goes_on he n hx hfew).trans hexec, hl1 ▸ hdone⟩

end Sys2Proof.Machine

namespace Sys2Proof.Machine

/-! ## CLWAIT (09 R278) -/

/-- CLWAIT returns with a value, as an acquire at its scope. -/
def claspReturns (s : State) (e : Env) (ex : W32) (d : Dst) (scope : Scope) (v : W64) : Out :=
  wordDone (s.acquireAt e.t.core scope) e ({ e.g with since := none, freed := none }.resultAll ex d true v)

/-- What a return of CLWAIT leaves: its value as a result, the wait over, and caches that the acquire has cleared. -/
theorem claspReturns_wrote {s : State} {e : Env} (he : s.envOf s.focus = some e) (ex : W32) (d : Dst) (scope : Scope) (v : W64) :
    ∃ t h, claspReturns s e ex d scope v = .next t ∧ Done { s with l1 := t.l1, scache := t.scache } e t h ∧
      Wrote { e.g with freed := none } h ex d true fun _ => v := by
  let g : Group := { e.g with since := none, freed := none }
  have hwrote := g.result_wrote ex d true fun _ => v
  obtain ⟨t, hexec, hl1, hsc, hdone⟩ := wordDone_done_caches he (g.result_gid ex d true fun _ => v)
    (g.result_flags ex d true fun _ => v) (s.acquireAt e.t.core scope).l1 (s.acquireAt e.t.core scope).scache
  obtain ⟨honly, u, hu, hkept, hflags⟩ := hdone
  rw [← acquireAt_eq] at hexec
  refine ⟨t, { g.result ex d true (fun _ => v) with since := e.g.since }, hexec, ?_, ?_⟩
  · rw [hl1, hsc]
    exact ⟨honly, u, hu, hkept, hflags⟩
  · exact ⟨hwrote.newest, hwrote.older, hwrote.win, hwrote.scal, by
      have := congrArg (fun x : Group => { x with since := e.g.since }) hwrote.rest
      exact this⟩

section
variable {s : State} {e : Env} (he : s.envOf s.focus = some e) {k : BitVec 3} (d : Dst) {a : Src} (b : Src) {sp : Space}
  (scope : Scope)
include he

theorem exec_clwait_none (a : Src) (sp : Space) (hl : lowestLane (e.lanes k) = none) :
    exec (.clwait k d a b sp scope) s = wordDone s e (e.g.result (e.lanes k) d true fun _ => 0) := by
  change execClwait k d a b sp scope s = _
  unfold execClwait
  rw [withEnv_some he]
  dsimp only
  rw [hl]
  rfl

/-- A group that the clasp's owner has released returns with the value it was given (09 R269). -/
theorem exec_clwait_freed (a : Src) (sp : Space) {l : Nat} {v : W64} (hl : lowestLane (e.lanes k) = some l)
    (hfreed : e.g.freed = some v) :
    exec (.clwait k d a b sp scope) s = claspReturns s e (e.lanes k) d scope v := by
  change execClwait k d a b sp scope s = _
  unfold execClwait
  rw [withEnv_some he]
  dsimp only
  rw [hl, hfreed]
  rfl

/-- A clasp that is read as it stands: in the phase waited on it blocks the group, otherwise the word returns. -/
theorem exec_clwait_reads {l key : Nat} {r : Option (BitVec 12)} (hl : lowestLane (e.lanes k) = some l)
    (hfreed : e.g.freed = none) (hnoOps : (s.ops.all fun o => o.gid != s.focus) = true) (haligned : (e.src64 a l).toNat % 64 = 0)
    (hplace : s.place e.t e.gr e.g.grpid.toNat l .atomic sp (e.src64 a l) 64 1 = .at key r)
    (hlocal : s.remote e.t.core key = false) (hpoison : s.poisoned key = false) (howner : (s.dirOf (blockOf key)).owner = none)
    (hform : (s.claspAt key).malformed = false) :
    exec (.clwait k d a b sp scope) s =
      if (s.claspAt key).valid && BitVec.ofNat 64 (s.claspAt key).phase == e.src32 b l then
        .next (s.block e (.blockedClasp sp (e.src64 a l) key (e.src32 b l) scope))
      else claspReturns s e (e.lanes k) d scope (claspValue (s.claspAt key)) := by
  obtain ⟨-, hgid, -⟩ := State.envOf_some he
  have hops : s.opsOf e.g.gid = [] := List.filter_eq_nil_iff.2 fun o ho => by
    rw [hgid]
    simpa using List.all_eq_true.1 hnoOps o ho
  have hfault : s.claspFault e.g l sp (e.src64 a l) = none := State.claspFault_eq_none (fun o ho hg => absurd hg ?_) ..
  · change execClwait k d a b sp scope s = _
    unfold execClwait claspPlace
    rw [withEnv_some he]
    dsimp only
    rw [hl, hfreed]
    dsimp only
    rw [hfault, haligned, hplace]
    dsimp only
    rw [hops, hlocal, hpoison, s.recallNow_none _ howner, hform]
    rfl
  · rw [hgid]
    simpa using List.all_eq_true.1 hnoOps o ho
end

/-- Settles O25: the word returns by `claspReturns`, whose value is that of the release or of the clasp as read. -/
theorem claspWait : Obligations.ClaspWait := by
  intro s e he k d a b sp scope acquires
  have hreturns : ∀ v, exec (.clwait k d a b sp scope) s = claspReturns s e (e.lanes k) d scope v →
      acquires v := fun v h => by
    obtain ⟨t, g, hexec, hdone, hwrote⟩ := claspReturns_wrote he (e.lanes k) d scope v
    exact ⟨t, g, h.trans hexec, hdone, hwrote⟩
  refine ⟨fun hl => wordDone_result he (exec_clwait_none he d b scope a sp hl) rfl,
    fun l v hl hfreed => hreturns v (exec_clwait_freed he d b scope a sp hl hfreed),
    fun l key r hl hfreed hnoOps haligned hplace hlocal hpoison howner hform => ?_⟩
  intro c
  have hexec := exec_clwait_reads he d b scope hl hfreed hnoOps haligned hplace hlocal hpoison howner hform
  have hwaits : (c.valid && BitVec.ofNat 64 c.phase == e.src32 b l) = true ↔
      c.state % 2 = 1 ∧ BitVec.ofNat 64 c.phase = e.src32 b l := by simp [Clasp.valid]
  by_cases hw : c.state % 2 = 1 ∧ BitVec.ofNat 64 c.phase = e.src32 b l
  · rw [if_pos (hwaits.2 hw)] at hexec
    rw [if_pos hw]
    exact ⟨_, hexec, State.group?_block he _⟩
  · rw [if_neg (hwaits.not.2 hw)] at hexec
    rw [if_neg hw]
    have hvalue : claspValue c = BitVec.ofNat 64 (c.phase + if c.state % 2 = 1 then 0 else 2 ^ 32) := by
      simp [claspValue, Clasp.valid]
    exact hreturns _ (hvalue ▸ hexec)

end Sys2Proof.Machine

namespace Sys2Proof.Machine

/-! ## The update of a clasp (09 R265) -/

theorem Clasp.malformed_iff (c : Clasp) : c.malformed = true ↔
    2 ≤ c.state ∨ c.rest ≠ 0 ∨ (c.state % 2 = 1 ∧ (c.per = 0 ∨ 2 ^ 31 - 1 < c.per)) ∨ c.per < c.pending := by
  have hstate : c.state / 2 ≠ 0 ↔ 2 ≤ c.state := by omega
  simp only [Clasp.malformed, Clasp.valid, Bool.or_eq_true, Bool.and_eq_true, bne_iff_ne, beq_iff_eq, decide_eq_true_eq, hstate]
  tauto

/-- A clasp that is well formed is valid exactly in state 1. -/
theorem Clasp.state_eq_one {c : Clasp} (h : c.malformed = false) : c.state = 1 ↔ c.valid = true := by
  have hlt : ¬2 ≤ c.state := fun h2 => by
    rw [c.malformed_iff.2 (.inl h2)] at h
    cases h
  simp only [Clasp.valid, beq_iff_eq]
  omega

section
variable {c : Clasp} {a : Nat} (d : Nat)

theorem Clasp.update_malformed (h : c.malformed = true) : c.update a d = .error 3 := by
  unfold Clasp.update
  rw [if_pos h]

theorem Clasp.update_invalid (h : c.malformed = false) (hv : c.valid = false) : c.update a d = .error 4 := by
  unfold Clasp.update
  rw [h, hv]
  rfl

theorem Clasp.update_overrun (h : c.malformed = false) (hv : c.valid = true) (ha : c.pending < a) :
    c.update a d = .error 5 := by
  unfold Clasp.update
  rw [h, hv]
  exact if_pos ha

/-- The byte count after an update: `d` taken away modulo 2^64. -/
def Clasp.bytesLess (c : Clasp) (d : Nat) : Nat := (c.bytes + 2 ^ 64 - d % 2 ^ 64) % 2 ^ 64

theorem Clasp.bytesLess_eq (c : Clasp) : (c.bytesLess d : Int) = ((c.bytes : Int) - d) % 2 ^ 64 := by
  unfold Clasp.bytesLess
  omega

theorem Clasp.update_ok (h : c.malformed = false) (hv : c.valid = true) (ha : a ≤ c.pending) :
    c.update a d = .ok (if c.pending = a ∧ c.bytesLess d = 0 then
      { c with phase := (c.phase + 1) % 2 ^ 32, pending := c.per, bytes := c.bytesPer }
    else { c with pending := c.pending - a, bytes := c.bytesLess d }) := by
  have hzero : (c.pending - a == 0 && c.bytesLess d == 0) = decide (c.pending = a ∧ c.bytesLess d = 0) := by
    rw [Bool.eq_iff_iff]
    simp only [Bool.and_eq_true, beq_iff_eq, decide_eq_true_eq]
    omega
  unfold Clasp.update
  rw [h, hv, if_neg (by decide), if_neg (by decide), if_neg (by omega)]
  dsimp only
  rw [← Clasp.bytesLess, hzero]
  by_cases hz : c.pending = a ∧ c.bytesLess d = 0
  · rw [if_pos hz, if_pos (decide_eq_true hz)]
  · rw [if_neg hz, if_neg (by simpa using hz)]
end

/-- Settles O26: the test of the form as arithmetic, and one law of the update for each of its ways out. -/
theorem claspUpdate : Obligations.ClaspUpdate := by
  intro c a d
  have hvalid : c.state % 2 = 1 ↔ c.valid = true := by simp [Clasp.valid]
  refine ⟨c.malformed_iff, c.update_malformed d, fun h h0 => c.update_invalid d h (by simp [Clasp.valid, h0]),
    fun h h1 => c.update_overrun d h (hvalid.1 h1), fun h h1 ha _ => ⟨_, c.update_ok d h (hvalid.1 h1) ha, ?_⟩⟩
  have hbytes := c.bytesLess_eq d
  by_cases hz : c.pending = a ∧ c.bytesLess d = 0
  · rw [if_pos hz]
    refine ⟨rfl, rfl, rfl, rfl, fun _ => ⟨rfl, rfl, rfl⟩, fun hn => absurd ⟨hz.1, ?_⟩ hn⟩
    omega
  · rw [if_neg hz]
    refine ⟨rfl, rfl, rfl, rfl, fun hn => absurd ⟨hn.1, ?_⟩ hz, fun _ => ⟨rfl, rfl, hbytes⟩⟩
    omega

end Sys2Proof.Machine

namespace Sys2Proof.Machine

/-! ## A request at its home (06 R171, 15 R415) -/

section
variable {s : State} {o : Op} {i key : Nat} {p : Part}

theorem request_eq (h : s.passes o.core p key = true) (r : Option (BitVec 12)) (f : Out) : request s o i p key r f = f :=
  if_pos h

/-- Where no L1 owns the line, the home answers at once. -/
theorem withOwner_eq (h : (s.dirOf (blockOf key)).owner = none) (drop shared : Bool) (f : Out) :
    withOwner s o i p (if isHbm key then (s.dirOf (blockOf key)).owner else none) key drop shared f = f := by
  rw [h, ite_self]
  rfl
end

/-! ## The block of a copy at its cursor (09 R256) -/

theorem homePart_copy {s : State} {o : Op} {i : Nat} {p : Part} {x : CopyX} (hx : o.copyX = some x) (hi : i ≠ 2) :
    homePart s o i p false = copyPart s o i p false false := by
  have hi' : ¬(i == 2) = true := by simpa using hi
  unfold homePart
  rcases Op.instr_of_copyX hx with h | h | h | h <;> rw [h] <;> exact if_neg hi'

/-- Part 0 of a block that has begun reads. -/
theorem copyPart_reads {s : State} {o : Op} (p : Part) (hstage : o.stage = 1) (hmoved : o.moved = false) :
    copyPart s o 0 p false false = copyRead s o p false := by
  unfold copyPart
  rw [hstage, hmoved]
  rfl

/-- Part 1 writes. -/
theorem copyPart_writes {s : State} {o : Op} (p : Part) (hstage : o.stage = 1) (hmoved : o.moved = false) :
    copyPart s o 1 p false false = copyWrite s o p false := by
  unfold copyPart
  rw [hstage, hmoved]
  rfl

/-- A block that begins changes the stage and the parts alone. -/
theorem Op.atBlock_eq (o : Op) : o.atBlock = { o with stage := o.atBlock.stage, parts := o.atBlock.parts } := by
  unfold Op.atBlock
  split <;> rfl

theorem Op.atBlock_stage {o : Op} {rd wr : Part} {more : List Part} (h : o.parts = rd :: wr :: more) : o.atBlock.stage = 1 := by
  unfold Op.atBlock
  rw [h]

/-! ### The read -/

/-- A command with a source block in its buffer. -/
def Op.taken (o : Op) (p : Part) (l : List Byte) : Op :=
  ((o.putBuf (imageKey p.addr) l).putBuf (imageFlag (blockAddr p.addr)) [1]).putBuf (imageTag (blockAddr p.addr)) []

/-- The bytes of a source block are in the buffer at their addresses; the mark that it was read lies above them all. -/
theorem Op.read_taken (o : Op) (p : Part) {l : List Byte} (hl : l.length ≤ 64) {j : Nat} (hj : j < l.length) :
    Store.read (o.taken p l).buf (imageKey p.addr + j) = l[j] := by
  have hbelow : imageKey p.addr + j < imageFlag (blockAddr p.addr) := by
    have := p.addr.isLt
    unfold imageKey imageFlag
    omega
  calc Store.read (o.taken p l).buf (imageKey p.addr + j)
      = Store.read (Store.writeList o.buf (imageKey p.addr) l) (imageKey p.addr + j) :=
        Store.read_writeList_out [1] _ _ _ (.inl hbelow)
    _ = l[j] := Store.read_writeList_in l _ _ _ hj

/-- A source block is taken once its request stands at its home. -/
theorem copyRead_takes {s : State} {o : Op} {p : Part} {key : Nat} {g : Group} {tm : Team} {gr : Grid}
    (htags : o.tags = false) (how : s.ownerOf o = some (g, tm, gr)) (hst : p.st = .waiting) (hheld : p.held = none)
    (hclear : s.engineClear o = true)
    (hplace : p.site (s.place tm gr g.grpid.toNat p.lane .copyRead p.sp p.addr p.len 1) = .at key none)
    (hpass : s.passes o.core p key = true) (hpoison : s.poisoned key = false) (howner : (s.dirOf (blockOf key)).owner = none) :
    copyRead s o p false = .next (s.setOp (o.taken p (s.bytes key p.len)).atBlock) := by
  unfold copyRead copyPlace
  rw [needSome_eq _ how, need_eq _ (by rw [hst, hheld, hclear]; rfl), hplace]
  dsimp only
  rw [request_eq hpass, htags, hpoison, withOwner_eq howner]
  rfl

/-! ### The write -/

/-- What follows the parts of a copy is a record of the dies that it has written. -/
theorem Op.foldl_reach_eq (ds : List Nat) (o : Op) :
    ds.foldl Op.reach o = { o with parts := (ds.foldl Op.reach o).parts } := by
  induction ds generalizing o with
  | nil => rfl
  | cons d ds ih =>
    have hreach : o.reach d = { o with parts := (o.reach d).parts } := by
      unfold Op.reach
      split <;> rfl
    rw [List.foldl_cons, ih, hreach]

/-- Images given up change the buffer alone. -/
theorem Op.dropImages_eq (o : Op) (c : Nat) (bs : List W64) : o.dropImages c bs = { o with buf := (o.dropImages c bs).buf } := by
  unfold Op.dropImages
  induction bs generalizing o with
  | nil => rfl
  | cons b bs ih =>
    rw [List.foldl_cons]
    split
    · rw [ih]
    · exact ih o

/-- The blocks of a copy depend on its instruction and operands, not on how far it has come. -/
theorem Op.nextBlock_progress (o : Op) (k : Nat) (ps : List Part) (n c : Nat) :
    ({ o with cursor := k, parts := ps } : Op).nextBlock n c = o.nextBlock n c := by
  induction n generalizing c with
  | zero => rfl
  | succ n ih =>
    unfold Op.nextBlock
    simp only [ih]
    rfl

/-- The cursor moves to the next block; past the last byte the copy is at its count. -/
theorem Op.nextUnit_spec (o : Op) : o.nextUnit.id = o.id ∧ o.nextUnit.cursor = o.nextBlock (o.total + 1) o.cursor ∧
    (o.total ≤ o.nextUnit.cursor → o.nextUnit.stage = 2) := by
  unfold Op.nextUnit
  dsimp only
  split
  · exact ⟨rfl, rfl, fun _ => rfl⟩
  · next h =>
    rw [Op.atBlock_eq]
    exact ⟨rfl, rfl, fun hle => absurd hle h⟩

/-- What a written block leaves of its command. -/
theorem copyWritten_spec {s : State} {op : Nat} {o : Op} (ho : s.op? op = some o) (dests : List Nat) {off n : Nat}
    (hseg : (o.segs false o.target).head? = some (off, n)) :
    ∃ t q, copyWritten s o dests = .next t ∧ t.mem = s.mem ∧ t.op? op = some q ∧
      q.cursor = o.nextBlock (o.total + 1) (o.cursor + n) ∧ (o.total ≤ q.cursor → q.stage = 2) := by
  let o' : Op := { o with cursor := o.cursor + n, parts := (dests.foldl Op.reach { o with cursor := o.cursor + n }).parts }
  have hreach : dests.foldl Op.reach { o with cursor := o.cursor + n } = o' := Op.foldl_reach_eq ..
  obtain ⟨hid, hcursor, hstage⟩ := o'.nextUnit_spec
  have hwritten : copyWritten s o dests = .next (s.setOp (o'.nextUnit.dropImages o'.nextUnit.cursor o.sources)) := by
    rw [← hreach]
    unfold copyWritten
    rw [hseg]
  have hnext : o'.nextBlock (o'.total + 1) o'.cursor = o.nextBlock (o.total + 1) (o.cursor + n) := Op.nextBlock_progress ..
  refine ⟨_, _, hwritten, rfl, State.op?_setOp_of ho ?_, ?_, ?_⟩
  · rw [Op.dropImages_eq]
    exact hid
  · rw [Op.dropImages_eq]
    exact hcursor.trans hnext
  · rw [Op.dropImages_eq]
    exact hstage

/-- A piece of one run is put into memory at its place. -/
theorem copyPut_run {s : State} {o : Op} {p : Part} {key off : Nat} {bs : List Byte} (htags : o.tags = false)
    (hpiece : o.pieceBytes = [(off, bs)]) (hoff : off = p.addr.toNat % 64) (hle : off ≤ key) :
    (copyPut s o p key).mem = Store.writeList s.mem key bs ∧ (copyPut s o p key).ops = s.ops := by
  have hbase : key - p.addr.toNat % 64 + off = key := by omega
  unfold copyPut
  rw [hpiece, htags]
  simp only [List.foldl_cons, List.foldl_nil, hbase, Bool.false_eq_true, if_false]
  constructor <;> split <;> split <;> rfl

theorem Op.targets_one {o : Op} {x : CopyX} (h : o.instr = .copy x ∨ o.instr = .copy2d x ∨ o.instr = .copy3d x)
    (e : Nat) (a : W64) : o.targets e a = [a] := by
  unfold Op.targets
  rcases h with h | h | h <;> rw [h]

/-- The homes that the record of a written key names: none for a core's own memory. -/
def keyDests (s : State) (key : Nat) : List Nat := ([key].filter fun k => k < 2 ^ 46).map fun k => destOf s k

/-- The writing of a block that lies at one place. -/
def copyWriteAt (s : State) (o : Op) (p : Part) (key : Nat) : Out :=
  if !s.pastReads o [key] then .refused .eventNotEnabled
  else request s o 1 p key none <|
    if s.duplicate o.requester p.sent then copyWritten s o (keyDests s key)
    else if !s.inTurn o.requester (blockOf key) (s.lineOf p) then .refused .eventNotEnabled
    else withOwner s o 1 p (if isHbm key then (s.dirOf (blockOf key)).owner else none) key true false <|
      copyWritten ((copyPut s o p key).noted o.requester p.sent) o (keyDests s key)

section
variable {s : State} {o : Op} {p : Part} {key : Nat}

/-- A copy to one destination writes its block where its request has gone, or else at the block's place. -/
theorem copyWrite_at {x : CopyX} {g : Group} {tm : Team} {gr : Grid}
    (hx : o.instr = .copy x ∨ o.instr = .copy2d x ∨ o.instr = .copy3d x) (how : s.ownerOf o = some (g, tm, gr))
    (hread : ∃ r, o.parts[0]? = some r ∧ r.st = .done) (hst : p.st = .waiting) (hheld : p.held = none)
    (hclear : s.engineClear o = true)
    (hplace : p.site (s.place tm gr g.grpid.toNat p.lane .copyWrite p.sp p.addr p.len 1) = .at key none) :
    copyWrite s o p false = copyWriteAt s o p key := by
  obtain ⟨r, hr, hrst⟩ := hread
  have htargets := fun e a => Op.targets_one hx e a
  unfold Part.site at hplace
  unfold copyWrite copyPlace
  rw [needSome_eq _ how, hr]
  dsimp only
  rw [need_eq _ (by rw [hst, hheld, hrst, hclear]; rfl)]
  cases hway : p.way with
  | none =>
    rw [hway] at hplace
    dsimp only at hplace
    rcases hx with h | h | h <;> rw [h, htargets, List.map_singleton, hplace] <;> rfl
  | some y =>
    rw [hway] at hplace
    obtain ⟨rfl, -⟩ := Where.at.inj hplace
    rfl

/-- A block is written in one piece once its request stands at its home, in its turn. -/
theorem copyWriteAt_writes (hpast : s.pastReads o [key] = true) (hdup : s.duplicate o.requester p.sent = false)
    (hturn : s.inTurn o.requester (blockOf key) (s.lineOf p) = true) (hpass : s.passes o.core p key = true)
    (howner : (s.dirOf (blockOf key)).owner = none) :
    copyWriteAt s o p key = copyWritten ((copyPut s o p key).noted o.requester p.sent) o (keyDests s key) := by
  unfold copyWriteAt
  rw [hpast, request_eq hpass, hdup, hturn, withOwner_eq howner]
  rfl
end

/-- The one run of a piece is the one segment of its block. -/
theorem Op.segs_of_pieceBytes {o : Op} {off : Nat} {bs : List Byte} (h : o.pieceBytes = [(off, bs)]) :
    ∃ c, (o.segs false o.target).head? = some (c, bs.length) := by
  unfold Op.pieceBytes at h
  obtain ⟨q, hq, hbytes⟩ := List.map_eq_singleton_iff.1 h
  refine ⟨q.1, ?_⟩
  rw [hq, ← (Prod.mk.inj hbytes).2, List.length_map, List.length_range]
  rfl

/-- Settles O27: a read through `copyRead_takes`, a write through `copyPut_run` and what `copyWritten` leaves. -/
theorem copyMovesBytes : Obligations.CopyMovesBytes := by
  intro s op key o x rd wr more g tm gr ho hx htags hstage hparts how hmoved hclear
  have hcx : o.copyX = some x := by
    unfold Op.copyX
    rcases hx with h | h | h <;> rw [h]
  have hnotags : o.tags = false := by
    unfold Op.tags
    rw [hcx]
    exact htags
  refine ⟨fun hst hheld hlen hplace hpass hpoison howner => ?_,
    fun off bs hst hheld hread hpast hdup hturn hpiece hoff hlen hle hplace hpass howner => ?_⟩
  · have hexec : exec (.homeRequest op 0) s = .next (s.setOp (o.taken rd (s.bytes key rd.len)).atBlock) := by
      rw [exec_homeRequest ho (i := 0) (by rw [hparts]; rfl), homePart_copy hcx (by decide), copyPart_reads rd hstage hmoved]
      exact copyRead_takes hnotags how hst hheld hclear hplace hpass hpoison howner
    have hlength : (s.bytes key rd.len).length = rd.len := Store.readList_length ..
    have hparts' : (o.taken rd (s.bytes key rd.len)).parts = rd :: wr :: more := hparts
    refine ⟨_, _, hexec, rfl, State.op?_setOp_of ho (by rw [Op.atBlock_eq]; rfl), by rw [Op.atBlock_eq]; rfl,
      Op.atBlock_stage hparts', fun j hj => ?_⟩
    rw [Op.atBlock_eq]
    have hj' : j < (s.bytes key rd.len).length := by omega
    refine (o.read_taken rd (by omega) hj').trans ?_
    exact (List.getElem?_eq_some_iff.1 (Store.getElem?_readList s.mem key rd.len j hj)).2
  · obtain ⟨hmem, hops⟩ := copyPut_run (s := s) hnotags hpiece hoff hle
    obtain ⟨c, hseg⟩ := Op.segs_of_pieceBytes hpiece
    have hop : ((copyPut s o wr key).noted o.requester wr.sent).op? op = some o := by
      rw [State.noted_eq]
      unfold State.op?
      rw [hops]
      exact ho
    obtain ⟨t, q, hwritten, htmem, hq, hcursor, hcount⟩ := copyWritten_spec hop (keyDests s key) hseg
    have hexec : exec (.homeRequest op 1) s = .next t := by
      rw [exec_homeRequest ho (i := 1) (by rw [hparts]; rfl), homePart_copy hcx (by decide), copyPart_writes wr hstage hmoved,
        copyWrite_at hx how ⟨rd, by rw [hparts]; rfl, hread⟩ hst hheld hclear hplace,
        copyWriteAt_writes hpast hdup hturn hpass howner, hwritten]
    have hput : t.mem = Store.writeList s.mem key bs := by
      rw [htmem, State.noted_eq]
      exact hmem
    refine ⟨t, q, hexec, fun j hj => ?_, fun y hy => ?_, hq, by rw [hcursor, hlen], hcount⟩
    · have hj' : j < bs.length := by omega
      rw [hput, Store.read_writeList_in _ _ _ _ hj', List.getElem?_eq_getElem hj']
    · rw [hput, Store.read_writeList_out _ _ _ _ (by omega)]

end Sys2Proof.Machine

namespace Sys2Proof.Machine

/-! ## A clasp in memory (09 R264) -/

/-- A clasp whose fields fit their places. -/
structure Clasp.Fits (c : Clasp) : Prop where
  phase : c.phase < 256 ^ 4
  state : c.state < 256 ^ 4
  per : c.per < 256 ^ 4
  pending : c.pending < 256 ^ 4
  bytesPer : c.bytesPer < 256 ^ 8
  bytes : c.bytes < 256 ^ 8
  rest : c.rest < 256 ^ 32

theorem leNat_lt (l : List Byte) : leNat l < 256 ^ l.length := by
  induction l with
  | nil => decide
  | cons b l ih =>
    have hcons : leNat (b :: l) = b.toNat + 256 * leNat l := rfl
    have hb := b.isLt
    rw [hcons, List.length_cons, pow_succ]
    omega

theorem State.le_lt (s : State) (key n : Nat) : s.le key n < 256 ^ n := by
  have h := leNat_lt (s.bytes key n)
  rwa [State.bytes, Store.readList_length] at h

theorem State.claspAt_fits (s : State) (key : Nat) : (s.claspAt key).Fits :=
  ⟨s.le_lt .., s.le_lt .., s.le_lt .., s.le_lt .., s.le_lt .., s.le_lt .., s.le_lt ..⟩

theorem State.claspAt_congr {s t : State} (h : s.mem = t.mem) (key : Nat) : s.claspAt key = t.claspAt key := by
  simp only [State.claspAt, State.le_congr h]

/-- The 64 bytes of a clasp. -/
def Clasp.image (c : Clasp) : List Byte :=
  leBytes 4 c.phase ++ leBytes 4 c.state ++ leBytes 4 c.per ++ leBytes 4 c.pending ++ leBytes 8 c.bytesPer ++ leBytes 8 c.bytes
    ++ leBytes 32 c.rest

theorem Clasp.image_length (c : Clasp) : c.image.length = 64 := by simp [Clasp.image]

theorem State.putClasp_mem (s : State) (key : Nat) (c : Clasp) : (s.putClasp key c).mem = Store.writeList s.mem key c.image := rfl

/-- A clasp read back after it was written. -/
theorem State.claspAt_putClasp (s : State) (key : Nat) {c : Clasp} (h : c.Fits) : (s.putClasp key c).claspAt key = c := by
  obtain ⟨phase, state, per, pending, bytesPer, bytes, rest⟩ := c
  obtain ⟨hphase, hstate, hper, hpending, hbytesPer, hbytes, hrest⟩ := h
  let c : Clasp := ⟨phase, state, per, pending, bytesPer, bytes, rest⟩
  have field : ∀ (n v : Nat) (a : List Byte), v < 256 ^ n → a ++ leBytes n v <+: c.image →
      (s.putClasp key c).le (key + a.length) n = v := fun n v a hv ⟨b, hb⟩ =>
    (s.le_putBytes key n v hb.symm).trans (Nat.mod_eq_of_lt hv)
  have h0 := field 4 phase [] hphase (by simp [c, Clasp.image])
  have h4 := field 4 state (leBytes 4 phase) hstate (by simp [c, Clasp.image])
  have h8 := field 4 per (leBytes 4 phase ++ leBytes 4 state) hper (by simp [c, Clasp.image])
  have h12 := field 4 pending (leBytes 4 phase ++ leBytes 4 state ++ leBytes 4 per) hpending (by simp [c, Clasp.image])
  have h16 := field 8 bytesPer (leBytes 4 phase ++ leBytes 4 state ++ leBytes 4 per ++ leBytes 4 pending) hbytesPer
    (by simp [c, Clasp.image])
  have h24 := field 8 bytes (leBytes 4 phase ++ leBytes 4 state ++ leBytes 4 per ++ leBytes 4 pending ++ leBytes 8 bytesPer)
    hbytes (by simp [c, Clasp.image])
  have h32 := field 32 rest (leBytes 4 phase ++ leBytes 4 state ++ leBytes 4 per ++ leBytes 4 pending ++ leBytes 8 bytesPer
    ++ leBytes 8 bytes) hrest (by simp [c, Clasp.image])
  simp only [List.length_append, List.length_nil, leBytes_length, Nat.add_zero] at h0 h4 h8 h12 h16 h24 h32
  unfold State.claspAt
  rw [h0, h4, h8, h12, h16, h24, h32]

/-- A clasp that an update answers is well formed before it, and keeps fields that fit. -/
theorem Clasp.update_fits {c u : Clasp} {a d : Nat} (h : c.update a d = .ok u) (hc : c.Fits) : u.Fits := by
  cases hform : c.malformed with
  | true =>
    rw [c.update_malformed d hform] at h
    cases h
  | false =>
    cases hv : c.valid with
    | false =>
      rw [c.update_invalid d hform hv] at h
      cases h
    | true =>
      by_cases ha : c.pending < a
      · rw [c.update_overrun d hform hv ha] at h
        cases h
      · rw [c.update_ok d hform hv (by omega)] at h
        cases h
        have hbytes : c.bytesLess d < 256 ^ 8 := by
          unfold Clasp.bytesLess
          omega
        have hpending := hc.pending
        split
        · exact { hc with phase := by dsimp only; omega, pending := hc.per, bytes := hc.bytesPer }
        · exact { hc with pending := by dsimp only; omega, bytes := hbytes }

/-! ## The groups that wait on a clasp (09 R265, R269) -/

/-- Two states of one group in the same wait, with the same answer. -/
structure SameWait (g h : Group) : Prop where
  gid : h.gid = g.gid
  team : h.team = g.team
  st : h.st = g.st
  freed : h.freed = g.freed

theorem SameWait.refl (g : Group) : SameWait g g := ⟨rfl, rfl, rfl, rfl⟩

theorem SameWait.trans {g h k : Group} (h1 : SameWait g h) (h2 : SameWait h k) : SameWait g k :=
  ⟨h2.gid.trans h1.gid, h2.team.trans h1.team, h2.st.trans h1.st, h2.freed.trans h1.freed⟩

theorem Group.sameWait_touch (g : Group) (d : Nat) : SameWait g (g.touch d) := by
  unfold Group.touch
  split <;> exact ⟨rfl, rfl, rfl, rfl⟩

theorem Group.sameWait_foldl_touch (ps : List Part) (g : Group) : SameWait g (ps.foldl (fun g p => g.touch p.key) g) := by
  induction ps generalizing g with
  | nil => exact .refl g
  | cons p ps ih => exact (g.sameWait_touch p.key).trans (ih _)

/-- The groups that wait for no batch are in `t` in the wait that they are in in `s`. -/
def KeepsWaits (s t : State) : Prop :=
  ∀ k g, s.group? k = some g → (∀ n, g.st ≠ .blockedBatch n) → ∃ h, t.group? k = some h ∧ SameWait g h

theorem KeepsWaits.trans {s t u : State} (h1 : KeepsWaits s t) (h2 : KeepsWaits t u) : KeepsWaits s u := fun k g hg hst => by
  obtain ⟨g', hg', hsame⟩ := h1 k g hg hst
  obtain ⟨h, hh, hsame'⟩ := h2 k g' hg' (by rwa [hsame.st])
  exact ⟨h, hh, hsame.trans hsame'⟩

theorem keepsWaits_of_groups {s t : State} (h : t.groups = s.groups) : KeepsWaits s t := fun k g hg _ =>
  ⟨g, by unfold State.group? at hg ⊢; rwa [h], .refl g⟩

/-- A group set in its place in the same wait. -/
theorem State.keepsWaits_setGroup {s : State} {gid : Nat} {g g' : Group} (hg : s.group? gid = some g) (h : SameWait g g') :
    KeepsWaits s (s.setGroup g') := fun k x hx _ => by
  have hgid : g'.gid = gid := h.gid.trans (State.group?_gid hg)
  by_cases hk : g'.gid = k
  · rw [← hk, hgid, hg] at hx
    cases hx
    subst hk
    exact ⟨g', State.group?_setGroup_same (by rw [hgid, hg]; rfl), h⟩
  · exact ⟨x, (State.group?_setGroup_other hk).trans hx, .refl x⟩

theorem State.keepsWaits_touch (s : State) (gid key : Nat) : KeepsWaits s (s.touch gid key) := by
  unfold State.touch
  split
  · exact keepsWaits_of_groups rfl
  · split
    · next g hg => exact State.keepsWaits_setGroup hg (g.sameWait_touch _)
    · exact keepsWaits_of_groups rfl

/-- A command that is bound to no flag leaves the groups in their waits. -/
theorem State.keepsWaits_finishWith {s : State} {o : Op} {f : Group → Group} (hflag : o.flag = none)
    (hf : ∀ g, SameWait g (f g)) : KeepsWaits s (s.finishWith o f) := by
  unfold State.finishWith
  rw [hflag]
  change KeepsWaits s (State.dropOp _ _)
  split
  · next g hg => exact (State.keepsWaits_setGroup hg (hf g)).trans (keepsWaits_of_groups rfl)
  · exact keepsWaits_of_groups rfl

theorem State.keepsWaits_settleBatches (s : State) (gid : Nat) : KeepsWaits s (s.settleBatches gid) := fun k g hg hst => by
  obtain ⟨-, hother, hsame⟩ := s.settleBatches_spec gid
  by_cases hk : k = gid
  · subst hk
    obtain ⟨u, hu, hkeep, hust⟩ := hsame g hg
    have hgid : u.gid = g.gid := (State.group?_gid hu).trans (State.group?_gid hg).symm
    have hteam := congrArg Group.team hkeep
    have hfreed := congrArg Group.freed hkeep
    exact ⟨u, hu, hgid, hteam, hust hst, hfreed⟩
  · exact ⟨g, (hother k hk).trans hg, .refl g⟩

/-- What the write of a clasp makes of a group. -/
def State.wake (s : State) (key : Nat) (g : Group) : Group :=
  match g.st with
  | .blockedClasp _ _ k phase _ =>
    if k != key || (2 ^ 46 ≤ k && !(s.team? g.team).any fun t => t.resident) then g
    else if (s.claspAt key).malformed then { g with st := .ready, since := none }
    else if (s.claspAt key).valid && BitVec.ofNat 64 (s.claspAt key).phase == phase then g
    else { g with st := .ready, since := none, freed := some (claspValue (s.claspAt key)) }
  | _ => g

theorem State.wakeClasp_eq (s : State) (key : Nat) : s.wakeClasp key = { s with groups := s.groups.map (s.wake key) } := rfl

theorem State.wake_gid (s : State) (key : Nat) (g : Group) : (s.wake key g).gid = g.gid := by
  unfold State.wake
  split
  · split
    · rfl
    · split
      · rfl
      · split <;> rfl
  · rfl

theorem State.group?_wakeClasp (s : State) (key k : Nat) : (s.wakeClasp key).group? k = (s.group? k).map (s.wake key) :=
  find_map_gid s.groups (s.wake key) (s.wake_gid key) k

/-- The groups of a state that wait on a clasp, once it is `c`: those that it no longer holds are released, each with the
value that it returns. -/
def Releases (s t : State) (key : Nat) (c : Clasp) : Prop :=
  ∀ (h : Group) sp a phase sc, s.group? h.gid = some h → h.st = .blockedClasp sp a key phase sc →
    (key < 2 ^ 46 ∨ ∃ u, s.team? h.team = some u ∧ u.resident = true) →
    ∃ h', t.group? h.gid = some h' ∧ (c.state = 1 ∧ BitVec.ofNat 64 c.phase = phase → h'.st = h.st) ∧
      (¬(c.state = 1 ∧ BitVec.ofNat 64 c.phase = phase) → h'.st = .ready ∧
        h'.freed = some (BitVec.ofNat 64 (c.phase + if c.state = 1 then 0 else 2 ^ 32)))

/-- A group that waits on a well-formed clasp, by whether the clasp still holds it. -/
theorem State.wake_waiting {s : State} {key : Nat} {g : Group} {sp : Space} {a phase : W64} {sc : Scope}
    (hst : g.st = .blockedClasp sp a key phase sc) (hhere : key < 2 ^ 46 ∨ ∃ u, s.team? g.team = some u ∧ u.resident = true)
    (hform : (s.claspAt key).malformed = false) :
    s.wake key g = if (s.claspAt key).state = 1 ∧ BitVec.ofNat 64 (s.claspAt key).phase = phase then g
      else { g with st := .ready, since := none, freed := some (claspValue (s.claspAt key)) } := by
  have haway : ¬(key != key || (2 ^ 46 ≤ key && !(s.team? g.team).any fun t => t.resident)) = true := by
    rcases hhere with h | ⟨u, hu, hres⟩
    · rw [decide_eq_false (by omega)]
      simp
    · simp [hu, hres]
  have hholds : ((s.claspAt key).valid && BitVec.ofNat 64 (s.claspAt key).phase == phase) =
      decide ((s.claspAt key).state = 1 ∧ BitVec.ofNat 64 (s.claspAt key).phase = phase) := by
    rw [Bool.eq_iff_iff, decide_eq_true_iff, Clasp.state_eq_one hform]
    simp
  unfold State.wake
  rw [hst]
  dsimp only
  rw [if_neg haway, hform, hholds]
  by_cases hw : (s.claspAt key).state = 1 ∧ BitVec.ofNat 64 (s.claspAt key).phase = phase
  · rw [if_pos hw, decide_eq_true hw]
    rfl
  · rw [if_neg hw, decide_eq_false hw]
    rfl

/-- A write that wakes the groups of a clasp releases them, whatever before and after it leaves them in their waits. -/
theorem releases_of_wake {s s1 t : State} {key : Nat} (hbefore : KeepsWaits s s1) (hteams : s1.teams = s.teams)
    (hform : (s1.claspAt key).malformed = false) (hafter : KeepsWaits (s1.wakeClasp key) t) :
    Releases s t key (s1.claspAt key) := fun h sp a phase sc hh hst hhere => by
  obtain ⟨g, hg, hsame⟩ := hbefore h.gid h hh (by simp [hst])
  have hgst := hsame.st.trans hst
  have hwake := State.wake_waiting (s := s1) hgst
    (by unfold State.team? at hhere ⊢; rwa [hteams, hsame.team]) hform
  have hwoken : (s1.wakeClasp key).group? h.gid = some (s1.wake key g) := by rw [State.group?_wakeClasp, hg]; rfl
  rw [hwake] at hwoken
  by_cases hw : (s1.claspAt key).state = 1 ∧ BitVec.ofNat 64 (s1.claspAt key).phase = phase
  · rw [if_pos hw] at hwoken
    obtain ⟨h', hh', hsame'⟩ := hafter _ _ hwoken (by simp [hgst])
    exact ⟨h', hh', fun _ => hsame'.st.trans hsame.st, fun hn => absurd hw hn⟩
  · rw [if_neg hw] at hwoken
    obtain ⟨h', hh', hsame'⟩ := hafter _ _ hwoken (by simp)
    refine ⟨h', hh', fun hy => absurd hy hw, fun _ => ⟨hsame'.st, hsame'.freed.trans ?_⟩⟩
    simp only [claspValue, Clasp.state_eq_one hform]

/-! ## Commands at their clasp (09 R262, R265 to R269, R278) -/

/-- A command has come to its clasp, which no L1 owns. -/
structure Reached (s : State) (o : Op) (p : Part) (key : Nat) (sp : Space) (addr : W64) : Prop where
  held : p.held = none
  turn : s.claspTurn o = true
  aligned : addr.toNat % 64 = 0
  place : ∃ g tm gr, s.ownerOf o = some (g, tm, gr) ∧
    p.site (s.place tm gr g.grpid.toNat p.lane .atomic sp addr 64 1) = .at key none
  passes : s.passes o.core p key = true
  fresh : s.duplicate o.requester p.sent = false
  inTurn : s.inTurn o.requester (blockOf key) (s.lineOf p) = true
  unowned : (s.dirOf (blockOf key)).owner = none

/-- The clasp is found; poison stops all but CLINIT, which reads nothing (08 R250). -/
theorem onClasp_eq {s : State} {o : Op} {p : Part} {key : Nat} {sp : Space} {addr : W64} (hr : Reached s o p key sp addr)
    (hpoison : s.poisoned key = false ∨ ∃ k a b c sp, o.instr = .clinit k a b c sp) (i : Nat) (done : State → Out)
    (f : Nat → Out) : onClasp s o i p sp addr done f = f key := by
  obtain ⟨g, tm, gr, how, hplace⟩ := hr.place
  unfold onClasp claspPlace
  rw [needSome_eq _ how]
  dsimp only
  rw [hr.aligned, hplace]
  dsimp only
  rw [request_eq hr.passes, hr.fresh, hr.inTurn]
  rcases hpoison with hclean | ⟨k, a, b, c, sp', hi⟩
  · rw [hclean]
    exact withOwner_eq hr.unowned ..
  · rw [hi]
    cases s.poisoned key <;> exact withOwner_eq hr.unowned ..

/-! ### How a command ends -/

theorem State.releaseFlag_only (s : State) (gid : Nat) (f : Option (BitVec 4)) :
    s.releaseFlag gid f = { s with groups := (s.releaseFlag gid f).groups } := by
  cases hg : s.group? gid with
  | some g => exact (State.releaseFlag_spec hg f).1
  | none =>
    have hsame : s.releaseFlag gid f = s := by
      unfold State.releaseFlag
      rw [hg]
      cases f <;> rfl
    rw [hsame]

theorem State.finishWith_only (s : State) (o : Op) (f : Group → Group) :
    s.finishWith o f = { s with groups := (s.finishWith o f).groups, ops := (s.dropOp o.id).ops } := by
  unfold State.finishWith
  rw [State.releaseFlag_only]
  split <;> rfl

/-- A command has ended: it is gone, memory is as it was, and without a flag it leaves the groups in their waits. -/
structure Ended (o : Op) (s t : State) : Prop where
  gone : t.op? o.id = none
  mem : t.mem = s.mem
  waits : o.flag = none → KeepsWaits s t

theorem State.finishWith_ended (s : State) (o : Op) {f : Group → Group} (hf : ∀ g, SameWait g (f g)) :
    Ended o s (s.finishWith o f) where
  gone := by
    rw [State.finishWith_only]
    exact State.op?_dropOp_same s o.id
  mem := by rw [State.finishWith_only]
  waits hflag := State.keepsWaits_finishWith hflag hf

/-- A copy that leaves its engine, its scoreboard entries and its batch, its time captured by the monitors (09 R262). -/
def copyEnd (s : State) (o : Op) : State :=
  ((s.captureOp 2 o).finishWith o fun g => (o.parts.drop 3).foldl (fun g p => g.touch p.key) g).settleBatches o.gid

theorem State.captureOp_eq (s : State) (n : Nat) (o : Op) :
    s.captureOp n o = { s with monitors := (s.captureOp n o).monitors } := by
  unfold State.captureOp
  split <;> rfl

theorem copyEnd_ended (s : State) (o : Op) : Ended o s (copyEnd s o) := by
  have hfinish := (s.captureOp 2 o).finishWith_ended o (f := fun g => (o.parts.drop 3).foldl (fun g p => g.touch p.key) g)
    fun g => g.sameWait_foldl_touch _
  obtain ⟨honly, -⟩ := State.settleBatches_spec
    ((s.captureOp 2 o).finishWith o fun g => (o.parts.drop 3).foldl (fun g p => g.touch p.key) g) o.gid
  have hcapture := s.captureOp_eq 2 o
  refine ⟨?_, ?_, fun hflag => ?_⟩
  · unfold copyEnd
    rw [honly]
    exact hfinish.gone
  · unfold copyEnd
    rw [honly]
    exact hfinish.mem.trans (by rw [hcapture])
  · exact ((keepsWaits_of_groups (by rw [hcapture])).trans (hfinish.waits hflag)).trans (State.keepsWaits_settleBatches _ _)

/-! ### What the write of a clasp leaves -/

/-- The outcome of a command that leaves its clasp as `c`: the command is gone, its clasp written and no other byte, and the
groups that waited on it released. -/
def ClaspEnds (s : State) (o : Op) (key : Nat) (c : Clasp) (r : Out) : Prop :=
  ∃ t, r = .next t ∧ t.op? o.id = none ∧
    (∀ y, (y < key ∨ key + 64 ≤ y) → Store.read t.mem y = Store.read s.mem y) ∧
    t.claspAt key = c ∧ (c.malformed = false → o.flag = none → Releases s t key c)

theorem claspWritten_ends {s u : State} {o : Op} {key : Nat} {c : Clasp} {finish : State → State}
    (hend : ∀ w, Ended o w (finish w))
    (hu : u.groups = s.groups ∧ u.teams = s.teams ∧ u.mem = (s.putClasp key c).mem) (hfits : c.Fits) (i : Nat) (p : Part) :
    ClaspEnds s o key c (claspWritten u o i p key false fun w => .next (finish w)) := by
  obtain ⟨hgroups, hteams, hmem⟩ := hu
  let w := ((u.touch o.gid key).wakeClasp key).noted o.requester p.sent
  have htouch : (u.touch o.gid key).mem = (s.putClasp key c).mem := by rw [State.touch_eq, ← hmem]
  have hw : w.mem = (s.putClasp key c).mem := by
    refine Eq.trans ?_ htouch
    simp only [w]
    rw [State.noted_eq]
    rfl
  have hclasp : ∀ v : State, v.mem = (s.putClasp key c).mem → v.claspAt key = c := fun v hv =>
    (State.claspAt_congr hv key).trans (s.claspAt_putClasp key hfits)
  have hfinal : (finish w).mem = Store.writeList s.mem key c.image := (hend w).mem.trans hw
  refine ⟨finish w, rfl, (hend w).gone, fun y hy => ?_, hclasp _ hfinal, fun hform hflag => ?_⟩
  · rw [hfinal, Store.read_writeList_out _ _ _ _ (by rwa [c.image_length])]
  · have hwoken : KeepsWaits ((u.touch o.gid key).wakeClasp key) (finish w) :=
      (keepsWaits_of_groups (by simp only [w]; rw [State.noted_eq])).trans ((hend w).waits hflag)
    have hrel := releases_of_wake (key := key) ((keepsWaits_of_groups hgroups).trans (u.keepsWaits_touch o.gid key))
      ((by rw [State.touch_eq]; exact hteams : (u.touch o.gid key).teams = s.teams)) (by rwa [hclasp _ htouch]) hwoken
    rwa [hclasp _ htouch] at hrel

/-- A line that no L1 keeps changes neither groups nor teams nor memory. -/
theorem State.homeBlock_keeps (s : State) (key : Nat) :
    (s.homeBlock key).groups = s.groups ∧ (s.homeBlock key).teams = s.teams ∧ (s.homeBlock key).mem = s.mem := by
  unfold State.homeBlock
  split <;> exact ⟨rfl, rfl, rfl⟩

theorem State.putClasp_homeBlock (s : State) (key : Nat) (c : Clasp) :
    ((s.homeBlock key).putClasp key c).groups = s.groups ∧ ((s.homeBlock key).putClasp key c).teams = s.teams ∧
    ((s.homeBlock key).putClasp key c).mem = (s.putClasp key c).mem := by
  obtain ⟨hgroups, hteams, hmem⟩ := s.homeBlock_keeps key
  rw [State.putClasp_mem, hmem]
  exact ⟨hgroups, hteams, rfl⟩

section
variable {s : State} {o : Op} {key : Nat} {c : Clasp} {finish : State → State} (hend : ∀ w, Ended o w (finish w))
  (hfits : c.Fits) (i : Nat) (p : Part)
include hend hfits

/-- The same of a clasp put in its place at the home. -/
theorem claspPut_ends :
    ClaspEnds s o key c (claspWritten ((s.homeBlock key).putClasp key c) o i p key false fun w => .next (finish w)) :=
  claspWritten_ends hend (s.putClasp_homeBlock key c) hfits i p

/-- The same of a clasp whose whole block is written, so that poison goes (08 R250). -/
theorem claspPut_unmark_ends : ClaspEnds s o key c
    (claspWritten (((s.homeBlock key).putClasp key c).unmark key) o i p key false fun w => .next (finish w)) :=
  claspWritten_ends (u := ((s.homeBlock key).putClasp key c).unmark key) hend (s.putClasp_homeBlock key c) hfits i p
end

/-- The outcome of a command whose part `i` has met a fault of its clasp: the part and the command are marked, and memory is
as it was. -/
def ClaspFaults (s : State) (o : Op) (i x : Nat) (r : Out) : Prop :=
  ∃ t q f, r = .next t ∧ t.mem = s.mem ∧ t.op? o.id = some q ∧ (q.parts[i]?).map (·.st) = some .faulted ∧
    q.fault = some f ∧ f.cause = 7 ∧ f.detail = BitVec.ofNat 8 x

section
variable {s : State} {op : Nat} {o : Op} (ho : s.op? op = some o) {i : Nat} {p : Part} (hp : o.parts[i]? = some p)
  (hfault : o.fault = none)
include ho hp hfault

theorem claspFaults_of_marked (x : Nat) (sp : Space) (addr : W64) (key : Nat) : ClaspFaults s o i x
    (.next ((s.setOp ((o.setPart i { p with st := .faulted }).addFault (engineFault s o 7 x 2 sp o.low addr))).wakeClasp key)) := by
  obtain rfl := State.op?_id ho
  refine ⟨_, (o.setPart i { p with st := .faulted }).addFault (engineFault s o 7 x 2 sp o.low addr),
    engineFault s o 7 x 2 sp o.low addr, rfl, rfl, ?_, ?_, ?_, rfl, rfl⟩
  · exact State.op?_setOp_of ho rfl
  · obtain ⟨hlt, -⟩ := List.getElem?_eq_some_iff.1 hp
    simp [Op.addFault, Op.setPart, hlt]
  · simp [Op.addFault, Op.setPart, hfault]

/-- An update applied at the clasp's home writes the clasp, or marks the command with the detail of its fault. -/
theorem applyUpdate_updates {finish : State → State} (hend : ∀ w, Ended o w (finish w)) (sp : Space) (addr : W64)
    (key a d : Nat) :
    (∀ c, (s.claspAt key).update a d = .ok c →
      ClaspEnds s o key c (applyUpdate s o i p sp addr key a d false fun w => .next (finish w))) ∧
    ∀ x, (s.claspAt key).update a d = .error x →
      ClaspFaults s o i x (applyUpdate s o i p sp addr key a d false fun w => .next (finish w)) := by
  unfold applyUpdate
  refine ⟨fun c hc => ?_, fun x hx => ?_⟩
  · rw [hc]
    exact claspPut_ends hend (Clasp.update_fits hc (s.claspAt_fits key)) i p
  · rw [hx]
    exact claspFaults_of_marked ho hp hfault x sp addr key
end

/-! ### Each instruction at its clasp -/

/-- What a release waits for has come about: its group has nothing before it, and no marker to send or to gather (07 R206). -/
theorem whenReleased_eq {s : State} {o : Op} {sc : Scope} (hearlier : (s.earlier o).isEmpty = true)
    (hgathered : s.gathered o.id = true)
    (hmarked : scopeFar sc = false ∨ ∀ g, s.group? o.gid = some g → g.touched = []) (f : Out) :
    whenReleased s o sc f = f := by
  unfold whenReleased
  rw [need_eq _ (by rw [hearlier, hgathered]; rfl)]
  split
  · rfl
  · next g hg =>
    refine if_neg fun hsend => ?_
    rcases hmarked with h | h
    · simp [h] at hsend
    · simp [h g hg] at hsend

section
variable {s : State} {o : Op} {i : Nat} {p : Part} {key : Nat} {k : BitVec 3} {d : Dst} {a b c : Src} {sp : Space} {sc : Scope}
  {acq : Option Scope} (hst : p.st = .waiting) (hr : Reached s o p key sp (o.cap 0 o.low))
include hst hr

/-- The turn of a clasp instruction's one part. -/
theorem claspPart_waits : (p.st == .waiting && p.held.isNone && s.claspTurn o) = true := by
  rw [hst, hr.held, hr.turn]
  rfl

theorem claspPart_clinit (hi : o.instr = .clinit k a b c sp) (hclear : s.engineClear o = true) :
    claspPart s o i p false = claspWritten (((s.homeBlock key).putClasp key ⟨0, 1, fld (o.cap 1 o.low) 31 0,
      fld (o.cap 1 o.low) 31 0, (o.cap 2 o.low).toNat, (o.cap 2 o.low).toNat, 0⟩).unmark key) o i p key false
      fun w => .next (w.finish o) := by
  have href : o.claspRef = some (sp, o.cap 0 o.low) := by unfold Op.claspRef; rw [hi]
  unfold claspPart
  rw [href]
  dsimp only
  rw [need_eq _ (claspPart_waits hst hr), hi]
  exact (need_eq _ hclear).trans (onClasp_eq hr (.inr ⟨k, a, b, c, sp, hi⟩) ..)

variable (hpoison : s.poisoned key = false)
include hpoison

theorem claspPart_clexp (hi : o.instr = .clexp k a b sp) (hclear : s.engineClear o = true) :
    claspPart s o i p false = applyUpdate s o i p sp (o.cap 0 o.low) key 0 (2 ^ 64 - (o.cap 1 o.low).toNat) false
      fun w => .next (w.finish o) := by
  have href : o.claspRef = some (sp, o.cap 0 o.low) := by unfold Op.claspRef; rw [hi]
  unfold claspPart
  rw [href]
  dsimp only
  rw [need_eq _ (claspPart_waits hst hr), hi]
  exact (need_eq _ hclear).trans (onClasp_eq hr (.inl hpoison) ..)

theorem claspPart_clarr (hi : o.instr = .clarr k a b sp sc) (hearlier : (s.earlier o).isEmpty = true)
    (hgathered : s.gathered o.id = true) (hmarked : scopeFar sc = false ∨ ∀ g, s.group? o.gid = some g → g.touched = []) :
    claspPart s o i p false = applyUpdate s o i p sp (o.cap 0 o.low) key 1 (2 ^ 64 - (o.cap 1 o.low).toNat) false
      fun w => .next (w.finish o) := by
  have href : o.claspRef = some (sp, o.cap 0 o.low) := by unfold Op.claspRef; rw [hi]
  unfold claspPart
  rw [href]
  dsimp only
  rw [need_eq _ (claspPart_waits hst hr), hi]
  exact (whenReleased_eq hearlier hgathered hmarked _).trans (onClasp_eq hr (.inl hpoison) ..)

/-- A malformed clasp is the fault with detail 3; another loses its valid bit. -/
theorem claspPart_clinv (hi : o.instr = .clinv k a sp) (hclear : s.engineClear o = true) :
    claspPart s o i p false = if (s.claspAt key).malformed then
        .next ((s.setOp ((o.setPart i { p with st := .faulted }).addFault
          (engineFault s o 7 3 2 sp o.low (o.cap 0 o.low)))).wakeClasp key)
      else claspWritten ((s.homeBlock key).putClasp key { s.claspAt key with state := (s.claspAt key).state / 2 * 2 }) o i p key
        false fun w => .next (w.finish o) := by
  have href : o.claspRef = some (sp, o.cap 0 o.low) := by unfold Op.claspRef; rw [hi]
  unfold claspPart
  rw [href]
  dsimp only
  rw [need_eq _ (claspPart_waits hst hr), hi]
  exact (need_eq _ hclear).trans (onClasp_eq hr (.inl hpoison) ..)

/-- The same of a clasp that is read. -/
theorem claspPart_cltest (hi : o.instr = .cltest k d a sp acq) (hclear : s.loadClear o = true) :
    claspPart s o i p false = if (s.claspAt key).malformed then
        .next ((s.setOp ((o.setPart i { p with st := .faulted }).addFault
          (engineFault s o 7 3 2 sp o.low (o.cap 0 o.low)))).wakeClasp key)
      else .next ((s.acquireFor o).setOp ((o.setPart i { p with st := .done }).putBuf 0
        (leBytes 8 (claspValue (s.claspAt key)).toNat))) := by
  have href : o.claspRef = some (sp, o.cap 0 o.low) := by unfold Op.claspRef; rw [hi]
  unfold claspPart
  rw [href]
  dsimp only
  rw [need_eq _ (claspPart_waits hst hr), hi]
  exact (need_eq _ (by rw [hclear]; rfl)).trans (onClasp_eq hr (.inl hpoison) ..)
end

/-- The count of a copy is applied at its clasp with no arrival (09 R266). -/
theorem copyCount_clasp {s : State} {o : Op} {x : CopyX} {sp : Space} {p : Part} {key : Nat} (hx : o.copyX = some x)
    (hcls : x.cls = some sp) (hp : o.parts[2]? = some p) (hfault : o.fault = none) (hstage : o.stage = 2)
    (hscope : scopeFar x.scope = false) (hgathered : s.gathered o.id = true) (hr : Reached s o p key sp (o.par 0))
    (hpoison : s.poisoned key = false) :
    copyCount s o false = applyUpdate s o 2 p sp (o.par 0) key 0 o.counted false fun w => .next (copyEnd w o) := by
  unfold copyCount
  rw [hx]
  dsimp only
  rw [need_eq _ (by rw [hfault, hstage]; rfl), hscope, hgathered, Op.claspRef_of_copyX hx, hcls, hp, hstage]
  exact (need_eq _ (by rw [hr.held, hr.turn]; rfl)).trans (onClasp_eq hr (.inl hpoison) ..)

/-- A copy with no clasp leaves its engine. -/
theorem copyCount_plain {s : State} {o : Op} {x : CopyX} (hx : o.copyX = some x) (hcls : x.cls = none) (hfault : o.fault = none)
    (hstage : o.stage = 2) (hscope : scopeFar x.scope = false) (hgathered : s.gathered o.id = true) :
    copyCount s o false = .next (copyEnd s o) := by
  unfold copyCount
  rw [hx]
  dsimp only
  rw [need_eq _ (by rw [hfault, hstage]; rfl), hscope, hgathered, Op.claspRef_of_copyX hx, hcls, hstage]
  rfl

theorem exec_copyComplete {s : State} {op : Nat} {o : Op} (ho : s.op? op = some o) :
    exec (.copyComplete op) s = copyCount s o false := needSome_eq _ ho

/-- The home answers the part of a command of the block-transfer engine that is no copy as its clasp instruction says. -/
theorem exec_homeRequest_clasp {s : State} {op i : Nat} {o : Op} {p : Part} (ho : s.op? op = some o) (hp : o.parts[i]? = some p)
    (hblock : o.isBlock = true) (hcopy : o.copyX = none) : exec (.homeRequest op i) s = claspPart s o i p false := by
  rw [exec_homeRequest ho hp]
  unfold Op.isBlock at hblock
  unfold Op.copyX at hcopy
  unfold homePart
  split at hblock <;> simp_all

theorem State.acquireFor_only (s : State) (o : Op) :
    s.acquireFor o = { s with l1 := (s.acquireFor o).l1, scache := (s.acquireFor o).scache } := by
  unfold State.acquireFor
  split
  · exact acquireAt_eq ..
  · rfl

/-- The phase and the bit that says invalid, as CLTEST gives them (09 R278). -/
theorem claspValue_toNat {c : Clasp} (h : c.Fits) : (claspValue c).toNat = c.phase + if c.state % 2 = 1 then 0 else 2 ^ 32 := by
  have hphase := h.phase
  have hvalid : (c.valid = true) = (c.state % 2 = 1) := by simp [Clasp.valid]
  unfold claspValue
  rw [BitVec.toNat_ofNat]
  simp only [hvalid]
  split <;> omega

/-- A clasp that is read answers with its value, kept until CLTEST completes. -/
theorem cltest_answers {s : State} {op i : Nat} {o : Op} {p : Part} (ho : s.op? op = some o) (hp : o.parts[i]? = some p)
    {c : Clasp} (hc : c.Fits) :
    ∃ t q, Host.Outcome.next ((s.acquireFor o).setOp ((o.setPart i { p with st := .done }).putBuf 0
        (leBytes 8 (claspValue c).toNat))) = (.next t : Out) ∧ t.mem = s.mem ∧ t.op? op = some q ∧
      (q.parts[i]?).map (·.st) = some .done ∧ q.laneNat 0 8 = c.phase + if c.state % 2 = 1 then 0 else 2 ^ 32 := by
  have hfound : (s.acquireFor o).op? op = some o := by rw [State.acquireFor_only]; exact ho
  refine ⟨_, _, rfl, ?_, State.op?_setOp_of hfound rfl, ?_, ?_⟩
  · rw [State.acquireFor_only]
    rfl
  · obtain ⟨hlt, -⟩ := List.getElem?_eq_some_iff.1 hp
    simp [Op.putBuf, Op.setPart, hlt]
  · have hread := Store.readList_writeList o.buf 0 (leBytes 8 (claspValue c).toNat)
    rw [leBytes_length] at hread
    rw [← claspValue_toNat hc]
    refine (congrArg leNat hread).trans ((leNat_leBytes ..).trans (Nat.mod_eq_of_lt ?_))
    exact (claspValue c).isLt

/-- Settles O28: each command comes to its clasp by `onClasp_eq`; a write there ends it by `claspWritten_ends`, and a fault
marks it by `claspFaults_of_marked`. -/
theorem claspsAtHome : Obligations.ClaspsAtHome := by
  intro s op key o ho was reached elsewhere releases ends faults updates
  obtain rfl := State.op?_id ho
  have hreached : ∀ p sp addr, reached p sp addr → Reached s o p key sp addr :=
    fun p sp addr ⟨h1, h2, h3, h4, h5, h6, h7, h8⟩ => ⟨h1, h2, h3, h4, h5, h6, h7, h8⟩
  have hends : ∀ i c r, exec i s = r → ClaspEnds s o key c r → ends i c :=
    fun i c r hi ⟨t, hr, h⟩ => ⟨t, hi.trans hr, h⟩
  have hfaults : ∀ i n x r, exec i s = r → ClaspFaults s o n x r → faults i n x :=
    fun i n x r hi ⟨t, q, f, hr, h⟩ => ⟨t, q, f, hi.trans hr, h⟩
  have hfinish : ∀ w : State, Ended o w (w.finish o) := fun w => w.finishWith_ended o fun g => .refl g
  have hwas : was.Fits := s.claspAt_fits key
  have hcopyX : ∀ x, (o.instr = .copy x ∨ o.instr = .copy2d x ∨ o.instr = .copy3d x ∨ o.instr = .copym x) →
      o.copyX = some x := fun x hx => by
    unfold Op.copyX
    rcases hx with h | h | h | h <;> rw [h]
  refine ⟨?_, fun x sp p hx hcls hp hfault hstage hscope hgathered hreach hpoison => ?_,
    fun x hx hcls hfault hstage hscope hgathered => ?_⟩
  · intro p k a b c sp sc v addr clear hp hst hfault hreach
    have hr := hreached p sp addr hreach
    have hhome := exec_homeRequest_clasp ho hp
    refine ⟨fun hi hclear => ?_, fun hpoison => ⟨fun hi hclear hform => ?_, fun hi hclear hform => ?_, fun hi hclear => ?_,
      fun hi hearlier hgathered hmarked => ?_, fun d acq hi hclear => ?_⟩⟩
    · have hexec := (hhome (by simp [Op.isBlock, hi]) (by simp [Op.copyX, hi])).trans (claspPart_clinit hst hr hi hclear)
      rw [fld_low] at hexec
      have hv : v.toNat % 2 ^ 32 < 256 ^ 4 := by omega
      have hc := (o.cap 2 o.low).isLt
      exact hends _ _ _ hexec
        (claspPut_unmark_ends hfinish ⟨by norm_num, by norm_num, hv, hv, hc, hc, by norm_num⟩ 0 p)
    · have hexec := (hhome (by simp [Op.isBlock, hi]) (by simp [Op.copyX, hi])).trans
        ((claspPart_clinv hst hr hpoison hi hclear).trans (if_neg (by simpa using hform)))
      have hstate : was.state / 2 * 2 = was.state - was.state % 2 := by omega
      have hfits : Clasp.Fits { was with state := was.state - was.state % 2 } :=
        { hwas with state := by have := hwas.state; dsimp only; omega }
      rw [hstate] at hexec
      exact hends _ _ _ hexec (claspPut_ends hfinish hfits 0 p)
    · exact hfaults _ _ _ _ ((hhome (by simp [Op.isBlock, hi]) (by simp [Op.copyX, hi])).trans
        ((claspPart_clinv hst hr hpoison hi hclear).trans (if_pos hform))) (claspFaults_of_marked ho hp hfault 3 sp addr key)
    · have hexec := (hhome (by simp [Op.isBlock, hi]) (by simp [Op.copyX, hi])).trans
        (claspPart_clexp hst hr hpoison hi hclear)
      obtain ⟨hok, herr⟩ := applyUpdate_updates ho hp hfault hfinish sp addr key 0 (2 ^ 64 - v.toNat)
      exact ⟨fun u hu => hends _ _ _ hexec (hok u hu), fun y hy => hfaults _ _ _ _ hexec (herr y hy)⟩
    · have hexec := (hhome (by simp [Op.isBlock, hi]) (by simp [Op.copyX, hi])).trans
        (claspPart_clarr hst hr hpoison hi hearlier hgathered hmarked)
      obtain ⟨hok, herr⟩ := applyUpdate_updates ho hp hfault hfinish sp addr key 1 (2 ^ 64 - v.toNat)
      exact ⟨fun u hu => hends _ _ _ hexec (hok u hu), fun y hy => hfaults _ _ _ _ hexec (herr y hy)⟩
    · have hexec := (hhome (by simp [Op.isBlock, hi]) (by simp [Op.copyX, hi])).trans
        (claspPart_cltest hst hr hpoison hi hclear)
      refine ⟨fun hform => hfaults _ _ _ _ (hexec.trans (if_pos hform)) (claspFaults_of_marked ho hp hfault 3 sp addr key),
        fun hform => ?_⟩
      obtain ⟨t, q, hnext, hrest⟩ := cltest_answers ho hp hwas
      exact ⟨t, q, (hexec.trans (if_neg (by simpa using hform))).trans hnext, hrest⟩
  · have hexec := (exec_copyComplete ho).trans
      (copyCount_clasp (hcopyX x hx) hcls hp hfault hstage hscope hgathered (hreached p sp _ hreach) hpoison)
    obtain ⟨hok, herr⟩ := applyUpdate_updates ho hp hfault (fun w => copyEnd_ended w o) sp (o.par 0) key 0 o.counted
    exact ⟨fun u hu => hends _ _ _ hexec (hok u hu), fun y hy => hfaults _ _ _ _ hexec (herr y hy)⟩
  · have hended := copyEnd_ended s o
    exact ⟨_, (exec_copyComplete ho).trans (copyCount_plain (hcopyX x hx) hcls hfault hstage hscope hgathered), hended.gone,
      hended.mem⟩

end Sys2Proof.Machine
